-- ==== Sys2Proof/Word.lean ====
section
/-!
DEFINITION. Word.lean: the byte and the 16-bit word of the three serial links, and the shape of a sparse table.

Everything else the manual counts, numbers or lists is a `Nat`, a named inductive or a structure: only what crosses a link is bits.
-/

namespace Sys2Proof

/-- One byte as it crosses a link (00_scope.md, "Frames and bytes"). -/
abbrev Byte := BitVec 8

/-- A 16-bit quantity: the check of R186 and the two-byte set of notice enables (R198). -/
abbrev Word16 := BitVec 16

/-- A table of records by number (segments, pads, telescopes, transporters, slots), kept as its listed entries in rising number. A number that
is not listed reads as the table's own resting record (`Machine/Tables.lean`). -/
abbrev Table (α : Type) := List (Nat × α)

end Sys2Proof
end

