-- ==== Sys2Proof/Syntax.lean ====
section
/-!
DEFINITION. Syntax.lean: the commands of the TK-220, one constructor of `Instr` for each row of spec/opcode_table.json, with their operands.

The part is a block: it is driven by requests on the control link, by frames and bytes on its links, by its input pins and by the expiry of its
timers. A request's operands are its parameters (R187), a link event's operands are the bytes that arrive.
-/

namespace Sys2Proof

/-- The party a request speaks for (R153). Level 0, 1, 2 in this order. -/
inductive Originator where
  | maintenance | operator | scheduler
  deriving DecidableEq, Repr

/-- The kind of a declared segment (R1), in the order of R1's table. -/
inductive SegKind where
  | plain | spur | junction
  deriving DecidableEq, Repr

/-- The ends a segment can have (R2): A, B, B-normal, B-reverse, coded 0 to 3 (R187). -/
inductive TrackEnd where
  | a | b | bNormal | bReverse
  deriving DecidableEq, Repr

/-- The class of running declared for a segment (R1): CREEP, TRAVEL. -/
inductive SpeedClass where
  | creep | travel
  deriving DecidableEq, Repr

/-- A junction's rest position (R1): NORMAL, REVERSE, NONE. -/
inductive RestPosition where
  | normal | reverse | none
  deriving DecidableEq, Repr

/-- The sense of a stretch or of a pad sweep (R12, R201): UP 0, DOWN 1. -/
inductive Sense where
  | up | down
  deriving DecidableEq, Repr

/-- A link of a segment end: the neighbour's number and the end it joins there (R2). -/
structure Link where
  neighbour : Nat
  farEnd : TrackEnd
  deriving DecidableEq, Repr

/-- A stretch of a route: first segment, count and sense (R12). -/
structure Stretch where
  first : Nat
  count : Nat
  sense : Sense
  deriving DecidableEq, Repr

/-- The kind of an order (R64): EMPTY-RUN 0, LOADED-RUN 1, REFUGE 2. -/
inductive OrderKind where
  | emptyRun | loadedRun | refuge
  deriving DecidableEq, Repr

/-- What an order does when it arrives (R64, R67): NONE, LIFT(pad), SET-DOWN(pad). -/
inductive Finish where
  | none
  | lift (pad : Nat)
  | setDown (pad : Nat)
  deriving DecidableEq, Repr

/-- The load of `enroll-transporter` and the target of `settle-load` (R187): NONE or a telescope number. -/
inductive LoadTarget where
  | none
  | telescope (x : Nat)
  deriving DecidableEq, Repr

/-- The initial state of `declare-pad` and the target of `settle-pad` (R187): VACANT, ANCHORED with a telescope number, BARRED. -/
inductive PadTarget where
  | vacant
  | anchored (x : Nat)
  | barred
  deriving DecidableEq, Repr

/-- What every request frame carries beside its code and parameters (R187): the tag and the originator. -/
structure Header where
  tag : Nat
  originator : Originator
  deriving DecidableEq, Repr

/-- The requests of the request code table (10_control_link_requests_and_notices.md, "Request codes"), with their parameters in the order in
which the request's rule lists them. -/
inductive Request where
  | readStatus
  | readSegment (segment : Nat)
  | readPad (pad : Nat)
  | readTransporter (t : Nat)
  | readOrder (slot : Nat) (part : Option Nat)
  | readTelescope (x : Nat)
  | sweepPads (first count : Nat) (sense : Sense)
  | fetchNotice
  | setNoticeEnables (enables : Word16)
  | clearPort
  | setParameter (number value : Nat)
  | restart
  | declareSegment (segment : Nat) (kind : SegKind) (guard : Nat) (speed : SpeedClass) (rest : RestPosition) (first second third : Option Link)
  | closeLayout
  | clearSwitch (segment : Nat)
  | submitOrder (t : Nat) (kind : OrderKind) (finish : Finish) (leg : List Stretch)
  | cancelOrder (slot : Nat)
  | divert (t : Nat) (outLeg backLeg : List Stretch)
  | resumeRefuge (slot : Nat)
  | declarePad (pad access guard : Nat) (initial : PadTarget)
  | settlePad (pad : Nat) (target : PadTarget)
  | settleLoad (t : Nat) (target : LoadTarget)
  | barPad (pad : Nat)
  | unbarPad (pad : Nat)
  | recouplePad (pad : Nat)
  | enrollTransporter (t position : Nat) (load : LoadTarget)
  | disenrollTransporter (t : Nat)
  | clearAstray (t segment : Nat)
  | proceed (t : Nat)
  | enterQuiet
  | leaveQuiet
  | setGrants (who : Nat) (padGroups segmentGroups : List Nat)
  | setFence (slot base size : Nat)
  | clearFence (slot : Nat)
  | hold
  | releaseHold
  | clearWayside
  deriving DecidableEq, Repr

/-- THE COMMANDS: one constructor for each row of spec/opcode_table.json, in the table's order. A request row carries the header of its frame and
its parameters; a link row carries the bytes that arrive; a timer row names whose timer expires. -/
inductive Instr where
  -- supply, reset and hold pins (R205, R165)
  | powerOn
  | resetLine
  | holdAsserted
  | holdDeasserted
  -- control link windows (R184, R185, R191): the bytes are the complete bytes shifted in since the window's last command
  | windowBegin
  | windowEnd (bytes : List Byte)
  | requestFrameComplete (bytes : List Byte)
  | answerSent
  -- requests
  | readStatus (h : Header)
  | readSegment (h : Header) (segment : Nat)
  | readPad (h : Header) (pad : Nat)
  | readTransporter (h : Header) (t : Nat)
  | readOrder (h : Header) (slot : Nat) (part : Option Nat)
  | readTelescope (h : Header) (x : Nat)
  | sweepPads (h : Header) (first count : Nat) (sense : Sense)
  | fetchNotice (h : Header)
  | setNoticeEnables (h : Header) (enables : Word16)
  | clearPort (h : Header)
  | setParameter (h : Header) (number value : Nat)
  | restart (h : Header)
  | declareSegment (h : Header) (segment : Nat) (kind : SegKind) (guard : Nat) (speed : SpeedClass) (rest : RestPosition)
      (first second third : Option Link)
  | closeLayout (h : Header)
  | clearSwitch (h : Header) (segment : Nat)
  | submitOrder (h : Header) (t : Nat) (kind : OrderKind) (finish : Finish) (leg : List Stretch)
  | cancelOrder (h : Header) (slot : Nat)
  | divert (h : Header) (t : Nat) (outLeg backLeg : List Stretch)
  | resumeRefuge (h : Header) (slot : Nat)
  | declarePad (h : Header) (pad access guard : Nat) (initial : PadTarget)
  | settlePad (h : Header) (pad : Nat) (target : PadTarget)
  | settleLoad (h : Header) (t : Nat) (target : LoadTarget)
  | barPad (h : Header) (pad : Nat)
  | unbarPad (h : Header) (pad : Nat)
  | recouplePad (h : Header) (pad : Nat)
  | enrollTransporter (h : Header) (t position : Nat) (load : LoadTarget)
  | disenrollTransporter (h : Header) (t : Nat)
  | clearAstray (h : Header) (t segment : Nat)
  | proceed (h : Header) (t : Nat)
  | enterQuiet (h : Header)
  | leaveQuiet (h : Header)
  | setGrants (h : Header) (who : Nat) (padGroups segmentGroups : List Nat)
  | setFence (h : Header) (slot base size : Nat)
  | clearFence (h : Header) (slot : Nat)
  | hold (h : Header)
  | releaseHold (h : Header)
  | clearWayside (h : Header)
  -- transporter link (R135, R136, R139, R140, R146)
  | gapTimerExpiry
  | pollTransmitted
  | transporterReport (bytes : List Byte)
  | replyWindowExpiry
  | progressTimerExpiry (t : Nat)
  -- wayside link, incoming (R172, R173, R175, R176)
  | waysideFrame (bytes : List Byte)
  | waysideByteGapTimeout
  | silenceTimerExpiry
  | sensor
  | detection
  | padEvent
  -- wayside link, outgoing (R180)
  | waysideSendComplete
  -- timers of the Junction Controller and of the Transfer Unit (R52, R53, R55, R121, R123)
  | operationTimerExpiry (j : Nat)
  | junctionHoldExpiry (j : Nat)
  | proveIntervalExpiry
  | transferTimerExpiry (pad : Nat)
  | couplingTimerExpiry (pad : Nat)
  -- single bytes that decide something by themselves (R172, R185)
  | byteInHunting (byte : Byte)
  | lengthByteFraming (byte : Byte)
  deriving DecidableEq, Repr

end Sys2Proof
end

