-- ==== Sys2Proof/Decode.lean ====
section
/-!
DEFINITION. Decode.lean: the commands that a word of opcode_table.json's own bits spells.

No row of the table gives bits ("fields" is empty in each of the 64 rows, and none has "fixed"), so no word spells a command. The frames of the
three links, which the manual does lay out byte by byte, are read and built in Machine/Operands.lean.
-/

namespace Sys2Proof

/-- The command that `w`, read as an `nbits`-bit instruction by the table's bits, spells: none, since the table gives no row any bits. -/
def decodeTableWord (_nbits _w : Nat) : Option Instr := none

end Sys2Proof
end

