-- ==== Sys2Proof/Machine/Records.lean ====
section
/-!
DEFINITION. Machine/Records.lean: the records of the nine blocks, as plain data, each under the name the manual gives it.

Where the manual fixes the order of a list of named values, the constructors stand in that order (R187: a named value is carried as its place).
-/

namespace Sys2Proof.Machine

/-! ### Timers -/

/-- A timer: stopped, or running. `time` is the time it was started, reloaded or resumed with, in the unit of its parameter: the time left is
some value up to it, since the model keeps no clock (assumption 3). -/
inductive Timer where
  | stopped
  | running (time : Nat)
  deriving DecidableEq, Repr

/-- A transfer timer (R111, R120): running, or suspended while the array hold is active. `time` bounds the time left. -/
inductive TransferTimer where
  | running (time : Nat)
  | suspended (time : Nat)
  deriving DecidableEq, Repr

/-- The silence timer of the wayside link (R170, R176). -/
inductive SilenceTimer where
  | running (time : Nat)
  | expired
  deriving DecidableEq, Repr

/-! ### Layout Table (R1 to R17) -/

/-- One segment's declaration (R1). `first` is end A's link; `second` is end B's, or B-normal's for a JUNCTION; `third` is B-reverse's (R5). -/
structure SegDecl where
  kind : SegKind
  first : Option Link
  second : Option Link
  third : Option Link
  speed : SpeedClass
  guard : Nat
  rest : RestPosition
  deriving DecidableEq, Repr

/-- The Layout Table: the declarations (an unlisted number is UNDECLARED) and the layout state, CLOSED or not (R1, R3). -/
structure LayoutTable where
  decls : Table (Option SegDecl)
  closed : Bool
  deriving DecidableEq, Repr

/-- The two settings a switch can prove or be thrown to: NORMAL, REVERSE. -/
inductive SwitchSetting where
  | normal | reverse
  deriving DecidableEq, Repr

/-- One position of an accepted leg (R17): the segment, its ends used, and for a junction its needed position (R15). -/
structure RoutePos where
  segment : Nat
  entering : Option TrackEnd
  leaving : Option TrackEnd
  needed : Option SwitchSetting
  deriving DecidableEq, Repr

/-- The faults of a leg: those of R17 in its order, then START (R68), ACCESS (R69), REJOIN (R91) and TURN (R89). -/
inductive RouteFault where
  | bounds | length | stretch | undeclared | repeated | notLinked | reversal | start | access | rejoin | turn
  deriving DecidableEq, Repr

/-- Why `close-layout` is refused (R9, R10). -/
inductive LayoutReason where
  | empty | undeclaredNeighbour | noSuchEnd | notReciprocal | doubleLink | spurEnds
  deriving DecidableEq, Repr

/-! ### Interlock Core (R18 to R45) -/

/-- The track occupancy state last reported (R18). -/
inductive SensorState where
  | unknown | clear | occupied
  deriving DecidableEq, Repr

/-- What becomes of a withdrawing mark (R39). -/
inductive Disposition where
  | keep | release
  deriving DecidableEq, Repr

/-- A segment's dynamic record (R18). -/
structure SegDyn where
  holder : Option Nat
  queue : List Nat
  sensor : SensorState
  leaving : Bool
  withdrawing : Option Disposition
  deriving DecidableEq, Repr

/-- A speed ceiling (R19), in the order in which a poll codes it (R138). -/
inductive Ceiling where
  | creep | loaded | travel
  deriving DecidableEq, Repr

/-- The confirmation state of a withdrawal (R19, R40). -/
inductive Confirm where
  | none | awaitingPoll | awaitingReply
  deriving DecidableEq, Repr

/-- What the Core keeps for an enrolled transporter (R19). -/
structure RunRec where
  limit : Nat
  ceiling : Ceiling
  confirm : Confirm
  deriving DecidableEq, Repr

/-- The causes of the Core's waiting list (R19). -/
inductive WaitCause where
  | sensor | intrusion | cycle | full
  deriving DecidableEq, Repr

/-- An entry of the Core's waiting list (R19). -/
structure WaitEntry where
  slot : Nat
  segment : Nat
  cause : WaitCause
  deriving DecidableEq, Repr

/-- The Interlock Core. -/
structure InterlockCore where
  segs : Table SegDyn
  runs : Table (Option RunRec)
  waiting : List WaitEntry
  deriving DecidableEq, Repr

/-! ### Junction Controller (R46 to R63) -/

/-- A recorded switch position (R46). -/
inductive SwitchPosition where
  | normal | reverse | moving | unknown | faulted
  deriving DecidableEq, Repr

/-- Where a PROVE comes from (R46). -/
inductive ProveOrigin where
  | rotation | recovery
  deriving DecidableEq, Repr

/-- The request outstanding to a switch machine (R46). -/
inductive SwitchRequest where
  | throw (target : SwitchSetting) (prior : SwitchPosition)
  | prove (origin : ProveOrigin)
  deriving DecidableEq, Repr

/-- QUEUED while the message waits in the out-queue, SENT once it has been transmitted (R46). -/
inductive Phase where
  | queued | sent
  deriving DecidableEq, Repr

/-- An outstanding operation with its phase and its operation timer (R46). -/
structure Operation where
  request : SwitchRequest
  phase : Phase
  timer : Timer
  deriving DecidableEq, Repr

/-- Whether a junction keeps its position for a recent holder (R46, R53). -/
inductive JunctionHold where
  | running (time : Nat)
  | expired
  deriving DecidableEq, Repr

/-- A junction's record (R46). Two fields are the model's own, for what the rules read of the past: `untrusted` says that the PROVE outstanding was
started before the present holder was granted the junction (R33), `underHolder` that the junction faulted while its present holder stood on it
(R44, assumption 30). -/
structure JunctionRec where
  position : SwitchPosition
  operation : Option Operation
  hold : JunctionHold
  waiters : List Nat
  untrusted : Bool
  underHolder : Bool
  deriving DecidableEq, Repr

/-- The Junction Controller: the records, the rotation pointer and the prove interval timer (R46). -/
structure JunctionController where
  recs : Table (Option JunctionRec)
  pointer : Option Nat
  interval : Timer
  deriving DecidableEq, Repr

/-! ### Order Table (R64 to R103) -/

/-- A place in an order's route: a leg (1 or 2) and a position in it (R64). -/
structure Place where
  leg : Nat
  pos : Nat
  deriving DecidableEq, Repr

/-- The cause for which an order's head waits (R64). -/
inductive HeadCause where
  | none
  | claiming (segment : Nat)
  | cycle | fenced | intrusion | switch | sensor
  deriving DecidableEq, Repr

/-- The states of an order (R64). -/
inductive OrderState where
  | starting | running | suspended | dwelling | arrived | transfer | cancelling | failed | pending | ended
  deriving DecidableEq, Repr

/-- The causes of a failure (R64). -/
inductive FailureCause where
  | identity | padFault | timeout
  deriving DecidableEq, Repr

/-- How an order ended (R64). -/
inductive OrderOutcome where
  | done | cancelled | failed | void
  deriving DecidableEq, Repr

/-- An order slot's record (R64, R88). The slot's number is its key in the table; the dwell is the last segment of leg 1 (R88) and is computed.
`rejoin` is the rejoin position recorded with a divert (R92), a place in the order it suspends. -/
structure Order where
  transporter : Nat
  kind : OrderKind
  finish : Option Finish
  leg1 : List RoutePos
  leg2 : List RoutePos
  cursor : Place
  claim : Place
  head : HeadCause
  state : OrderState
  failure : Option FailureCause
  outcome : Option OrderOutcome
  resumed : Bool
  rejoin : Option Place
  deriving DecidableEq, Repr

/-- What the Order Table keeps for a transporter (R65): active order, refuge stack (newest first) and pending divert. -/
structure OrderRefs where
  active : Option Nat
  stack : List Nat
  pendingDivert : Option Nat
  deriving DecidableEq, Repr

/-- The Order Table (R64, R65). An unlisted slot is EMPTY. -/
structure OrderTable where
  slots : Table (Option Order)
  refs : Table OrderRefs
  deriving DecidableEq, Repr

/-! ### Transfer Unit (R104 to R128) -/

/-- The states of a pad (R104). -/
inductive PadState where
  | undeclared | vacant | inbound | seated | anchored | releasing | barred | unsettled
  deriving DecidableEq, Repr

/-- A SEATED pad's coupling (R104). -/
inductive Coupling where
  | none | queued | sent
  deriving DecidableEq, Repr

/-- A pad's record (R104). The group is the number divided by 8 and is computed. The two confirmation fields are the set drawn from TRANSPORTER
and STATION. -/
structure PadRec where
  state : PadState
  access : Nat
  guard : Nat
  occupant : Option Nat
  expected : Option Nat
  claim : Option Nat
  lastOccupant : Option Nat
  confTransporter : Bool
  confStation : Bool
  coupling : Coupling
  couplingTimer : Timer
  deriving DecidableEq, Repr

/-- Where a telescope is recorded (R105). -/
inductive Placement where
  | onPad (pad : Nat)
  | onTransporter (t : Nat)
  | unplaced
  deriving DecidableEq, Repr

/-- What a transporter carries (R106). -/
inductive Load where
  | none
  | telescope (x : Nat)
  | unverified
  deriving DecidableEq, Repr

/-- A transfer's kind (R111). -/
inductive TransferKind where
  | lift | setDown
  deriving DecidableEq, Repr

/-- A transfer's phase (R112, R115). -/
inductive TransferPhase where
  | uncoupling | lifting | setting
  deriving DecidableEq, Repr

/-- A transfer record, kept under its pad's number (R112). -/
structure TransferRec where
  order : Nat
  transporter : Nat
  kind : TransferKind
  phase : TransferPhase
  telescope : Nat
  stationHeard : Bool
  transporterHeard : Bool
  timer : TransferTimer
  deriving DecidableEq, Repr

/-- The Transfer Unit. An unlisted pad is UNDECLARED, an unlisted telescope is UNPLACED, a transporter not enrolled has no load. -/
structure TransferUnit where
  pads : Table PadRec
  telescopes : Table Placement
  loads : Table (Option Load)
  transfers : Table (Option TransferRec)
  deriving DecidableEq, Repr

/-! ### Poll Engine (R129 to R152) -/

/-- A transporter's condition (R129). -/
inductive Condition where
  | normal | stalled | lost | astray
  deriving DecidableEq, Repr

/-- The record of an enrolled transporter (R129). -/
structure TransporterRec where
  position : Nat
  atRest : Bool
  inMotion : Bool
  condition : Condition
  missCount : Nat
  progress : Timer
  grace : Nat
  lastSent : Nat
  quietStand : Bool
  deriving DecidableEq, Repr

/-- The transfer permission a poll carries (R113), in the order in which a poll codes it (R138). -/
inductive Permission where
  | none | lift | setDown
  deriving DecidableEq, Repr

/-- The poll outstanding (R129, R136): its transporter and sequence number, what it carries, whether its last byte has been transmitted, and
whether it was sent while quiet was PENDING (which R149 reads). -/
structure Poll where
  transporter : Nat
  sequence : Byte
  limit : Nat
  ceiling : Ceiling
  permission : Permission
  transmitted : Bool
  inQuiet : Bool
  deriving DecidableEq, Repr

/-- The quiet state (R129). -/
inductive QuietState where
  | off | pending | inForce
  deriving DecidableEq, Repr

/-- The Poll Engine (R129). A transporter that is not listed is not enrolled. -/
structure PollEngine where
  recs : Table (Option TransporterRec)
  pointer : Option Nat
  outstanding : Option Poll
  nextSequence : Byte
  window : Timer
  gap : Timer
  quiet : QuietState
  deriving DecidableEq, Repr

/-- A report's load event (R138). -/
inductive LoadEvent where
  | none
  | loaded (x : Nat)
  | set
  deriving DecidableEq, Repr

/-- A transporter's report (R138), with at-rest no where both at-rest and in-motion are given. -/
structure Report where
  transporter : Nat
  sequence : Byte
  position : Nat
  atRest : Bool
  inMotion : Bool
  driveFault : Bool
  load : LoadEvent
  deriving DecidableEq, Repr

/-! ### Guard Unit (R153 to R169) -/

/-- A grant map (R154): two sets of groups, each listed in rising number with no repeats. -/
structure GrantMap where
  pads : List Nat
  segments : List Nat
  deriving DecidableEq, Repr

/-- A SET fence record (R158). -/
structure Fence where
  base : Nat
  size : Nat
  deriving DecidableEq, Repr

/-- The hold-source set (R164). -/
structure HoldSources where
  line : Bool
  desk : Bool
  wayside : Bool
  deriving DecidableEq, Repr

/-- An entry of the fenced set (R162). -/
structure FencedEntry where
  slot : Nat
  segment : Nat
  deriving DecidableEq, Repr

/-- The Guard Unit. The maps are kept under the originators' levels 0 to 2; the fence counts are computed from the two records (R158). -/
structure GuardUnit where
  maps : Table GrantMap
  fences : Table (Option Fence)
  fenced : List FencedEntry
  hold : HoldSources
  deriving DecidableEq, Repr

/-! ### Wayside Port (R170 to R183) -/

/-- What a switch machine's contacts show (R171): NONE 0, NORMAL 1, REVERSE 2. -/
inductive DetectionValue where
  | none | normal | reverse
  deriving DecidableEq, Repr

/-- A pad station's event (R171): UNCOUPLED 0, COUPLED 1, LOAD-SENSED 2, LOAD-CLEAR 3, FAULT 4. -/
inductive PadEventValue where
  | uncoupled | coupled | loadSensed | loadClear | fault
  deriving DecidableEq, Repr

/-- An incoming message that is queued (R171). STATUS is finished with when it arrives (R173) and is never queued. -/
inductive InMessage where
  | sensor (segment : Nat) (occupied : Bool)
  | detection (segment : Nat) (value : DetectionValue)
  | padEvent (pad : Nat) (event : PadEventValue)
  deriving DecidableEq, Repr

/-- An outgoing message (R171). -/
inductive OutMessage where
  | throw (j : Nat) (target : SwitchSetting)
  | prove (j : Nat)
  | couple (pad : Nat)
  | uncouple (pad : Nat)
  deriving DecidableEq, Repr

/-- The receiver (R170, R172). The bytes of a frame are kept as received, the sync byte first. -/
inductive Receiver where
  | hunting
  | inFrame (bytes : List Byte)
  deriving DecidableEq, Repr

/-- The link state (R170). -/
inductive LinkState where
  | live | silent
  deriving DecidableEq, Repr

/-- The transmitter (R170): IDLE, or SENDING one committed message. -/
inductive Transmitter where
  | idle
  | sending (m : OutMessage)
  deriving DecidableEq, Repr

/-- The Wayside Port (R170). `pause` is the WPAUSE output. -/
structure WaysidePort where
  inQueue : List InMessage
  pause : Bool
  receiver : Receiver
  silence : SilenceTimer
  link : LinkState
  outQueue : List OutMessage
  transmitter : Transmitter
  deriving DecidableEq, Repr

/-! ### Control Port (R184 to R205) -/

/-- The kinds of notice, in priority order, numbered 1 to 13 (R196). -/
inductive NoticeKind where
  | switchFault | trackIntrusion | transporterLost | transporterAstray | transporterStalled | deadlock | padFault
  | orderFailed | routeFenced | divertVoid | orderEnded | quietEntered | restarted
  deriving DecidableEq, Repr

/-- A pending flag: a kind and its subject, 0 for a kind without subject (R196, R197). -/
structure Notice where
  kind : NoticeKind
  subject : Nat
  deriving DecidableEq, Repr

/-- The parameter values, in parameter-number order (R203). -/
structure Params where
  lead : Nat
  throwTimeout : Nat
  holdTime : Nat
  proveInterval : Nat
  transferTimeout : Nat
  couplingTimeout : Nat
  replyWindow : Nat
  pollGap : Nat
  missLimit : Nat
  progressTime : Nat
  grace : Nat
  silenceTime : Nat
  attentionLevel : Nat
  deriving DecidableEq, Repr

/-- The reset cause (R204, R205). -/
inductive ResetCause where
  | power | line | restart
  deriving DecidableEq, Repr

/-- The four sticky flags (R194). -/
structure StickyFlags where
  overrun : Bool
  framing : Bool
  check : Bool
  restarted : Bool
  deriving DecidableEq, Repr

/-- The summary flags byte, most significant flag first (R188, R193). -/
structure SummaryFlags where
  hold : Bool
  quiet : Bool
  notice : Bool
  overrun : Bool
  framing : Bool
  check : Bool
  restarted : Bool
  layoutOpen : Bool
  deriving DecidableEq, Repr

/-- The outcome of an answer, coded 0 to 10 in this order (R192). -/
inductive Outcome where
  | done | accepted | pending | refusedState | refusedRange | refusedRoute | refusedLayout | denied | noSlot | malformed | unknownRequest
  deriving DecidableEq, Repr

/-- The kinds of object the Guard Unit checks (R155). -/
inductive ObjectKind where
  | segment | pad
  deriving DecidableEq, Repr

/-- Why `clear-wayside` is refused (R177). -/
inductive WaysideReason where
  | silent | absent
  deriving DecidableEq, Repr

/-- What `read-segment` shows of a junction (R48): the record and the time left to the hold's expiry. -/
structure JunctionReading where
  record : JunctionRec
  holdLeft : Option Nat
  deriving DecidableEq, Repr

/-- The body of `read-segment` (R199). -/
structure SegmentReading where
  declaration : Option SegDecl
  dynamic : SegDyn
  fenceCount : Nat
  junction : Option JunctionReading
  deriving DecidableEq, Repr

/-- A transfer as `read-pad` shows it (R104): kind, phase, transporter, time left, and the mark of a suspended timer. -/
structure TransferReading where
  kind : TransferKind
  phase : TransferPhase
  transporter : Nat
  timeLeft : Nat
  suspended : Bool
  deriving DecidableEq, Repr

/-- The body of `read-transporter` for an enrolled transporter (R131). -/
structure TransporterReading where
  record : TransporterRec
  progressLeft : Option Nat
  run : Option RunRec
  load : Option Load
  refs : OrderRefs
  pollOutstanding : Bool
  deriving DecidableEq, Repr

/-- Part 0 of `read-order` (R200, R64, R88): every field but the leg positions, the number of positions in each leg, the dwell, the held-ahead
count and the head's segment. -/
structure OrderReading where
  slot : Nat
  transporter : Nat
  kind : OrderKind
  finish : Option Finish
  dwell : Option Nat
  cursor : Place
  claim : Place
  head : HeadCause
  state : OrderState
  failure : Option FailureCause
  outcome : Option OrderOutcome
  resumed : Option Bool
  positions1 : Nat
  positions2 : Nat
  heldAhead : Nat
  headSegment : Option Nat
  deriving DecidableEq, Repr

/-- One pad of a sweep (R201): number, state, occupant or expected telescope, claiming order, coupling, and the mark of a transfer. -/
structure PadSummary where
  pad : Nat
  state : PadState
  telescope : Option Nat
  claim : Option Nat
  coupling : Coupling
  inTransfer : Bool
  deriving DecidableEq, Repr

/-- The body of `read-status` (R202). -/
structure StatusReading where
  layoutClosed : Bool
  cause : ResetCause
  hold : HoldSources
  quiet : QuietState
  liveOrders : Nat
  segments : Nat
  junctions : Nat
  pads : Nat
  transporters : Nat
  couplingSet : Nat
  inQueue : Nat
  outQueue : Nat
  pause : Bool
  link : LinkState
  requests : Nat
  answers : Nat
  maps : List GrantMap
  fences : List (Option Fence)
  enables : Word16
  params : Params
  deriving DecidableEq, Repr

/-- The fields of a body that may be absent. -/
inductive AbsentField where
  | faultSegment | faultEnd | holder | occupant | expected | claim | lastOccupant | activeOrder | pendingDivert | finish | dwell | failure | outcome
  | resumed | headSegment | lastPad | telescope | operationPhase | timeLeft | confirmations | coupling
  deriving DecidableEq, Repr

/-- The body of an answer: the fields its rule names, in the order named (R188). -/
inductive Body where
  | empty
  /-- a refusal that names its failing test (R6, R107, R132, R159) -/
  | failedTest (n : Nat)
  /-- a refusal at step 7 of `submit-order` that names its test, a to c as 1 to 3 (R69) -/
  | failedFinishTest (n : Nat)
  | segmentCounts (segments junctions : Nat)
  | layoutFault (segment : Option Nat) (atEnd : Option TrackEnd) (reason : LayoutReason)
  | routeFault (leg position : Nat) (fault : RouteFault)
  | deniedClass
  | deniedObject (kind : ObjectKind) (number : Nat)
  | orderAccepted (slot positions : Nat)
  | orderState (state : OrderState)
  | refuge (slot outPositions backPositions : Nat) (state : OrderState)
  | refugePending (slot outPositions backPositions : Nat)
  | headCause (cause : HeadCause)
  | padCount (n : Nat)
  | quiet (state : QuietState) (toStand : Option Nat)
  | grants (map : GrantMap)
  | fenceSet (base size turnedAway held : Nat)
  | fenceCleared (base size presented : Nat)
  | holdSources (set : HoldSources)
  | stickyFlags (flags : StickyFlags)
  | notice (kind subject left : Nat)
  | enables (set : Word16)
  | parameter (number old new : Nat)
  | waysideRefusal (reason : WaysideReason)
  | segment (r : SegmentReading)
  | pad (number : Nat) (record : PadRec) (transfer : Option TransferReading)
  | transporter (r : Option TransporterReading)
  | orderEmpty
  | order (r : OrderReading)
  | orderPositions (leg first : Nat) (positions : List RoutePos)
  | telescope (placement : Placement) (lastAt : Option Nat)
  | sweep (pads : List PadSummary)
  | status (r : StatusReading)
  deriving DecidableEq, Repr

/-- A piece of a body whose bytes the manual does not settle (assumption 7), with what they may depend on. -/
inductive OpenField where
  /-- how a field of a record that is absent is carried: holder, time left, occupant, ... -/
  | absent (f : AbsentField)
  /-- an EMPTY fence record, in two bytes (R202, and the 70 bytes of the answer in section 10.9) -/
  | emptyFence
  /-- the byte beside a value that has no number: the end of an absent link, the pad of a finish NONE, the telescope of a load that is none (R187) -/
  | disregarded
  /-- the code of kind UNDECLARED (R1, R199) -/
  | undeclared
  /-- the code of an EMPTY slot (R200) -/
  | emptySlot
  /-- the code of a mark that is present or not (R104, R131, R201) -/
  | mark (v : Bool)
  /-- the code of a transfer's phase, which no rule lists (R112, R115) -/
  | phase (x : TransferPhase)
  /-- the code of a route fault outside R17's list (R68, R69, R89, R91) -/
  | fault (x : RouteFault)
  /-- the code of the reason EMPTY to refuse `close-layout`, which R10's list of tests does not hold (R9) -/
  | emptyLayout
  /-- the code of a reason to refuse `clear-wayside` (R177) -/
  | wayside (x : WaysideReason)
  /-- the name CLASS of a refusal for class (R153) -/
  | deniedClass
  /-- the code of a reset cause, which no rule lists (R202, R204, R205) -/
  | cause (x : ResetCause)
  /-- the code of one of the tests a to c of step 7 of `submit-order` (R69) -/
  | finishTest (n : Nat)
  /-- the four sticky flags of `clear-port` (R194) -/
  | flags (f : StickyFlags)
  /-- the second byte of a route position, which packs its ends and its needed position (R200) -/
  | packing (entering leaving : Option TrackEnd) (needed : Option SwitchSetting)
  /-- a count of the notices left that one byte cannot carry (R197, assumption 34) -/
  | count (n : Nat)
  deriving DecidableEq, Repr

/-- An answer in the answer queue (R188): its summary flags and its check are composed when it is sent (R191, R193). -/
structure Answer where
  tag : Nat
  code : Nat
  outcome : Outcome
  body : Body
  deriving DecidableEq, Repr

/-- What an answer copies from its request: the tag and the request code (R188). -/
structure Ask where
  tag : Nat
  code : Nat
  deriving DecidableEq, Repr

/-- What a complete frame asks for (R189): an unknown code, a malformed frame, or a request of one originator. -/
inductive Content where
  | unknown
  | malformed
  | valid (originator : Originator) (r : Request)
  deriving DecidableEq, Repr

/-- A frame in the request queue (R185, R190). -/
structure QueuedRequest where
  tag : Nat
  code : Nat
  content : Content
  deriving DecidableEq, Repr

/-- The frame fixed at a window's beginning (R184): an answer, or the null frame; with the summary flags composed then (R193). -/
structure SentFrame where
  answer : Option Answer
  flags : SummaryFlags
  deriving DecidableEq, Repr

/-- The input side of an open window (R185). -/
inductive WindowInput where
  | awaitingLength
  | collecting (length : Nat) (bytes : List Byte)
  | disregarded
  deriving DecidableEq, Repr

/-- The window (R184): closed, or open with its fixed frame, whether that frame's last byte has been shifted out, and its input side. -/
inductive Window where
  | closed
  | opened (frame : SentFrame) (sent : Bool) (input : WindowInput)
  deriving DecidableEq, Repr

/-- The Control Port. The notice set is listed in rising kind number and subject with no repeats; `attention` is the ATTN output (R195). -/
structure ControlPort where
  requests : List QueuedRequest
  answers : List Answer
  window : Window
  flags : StickyFlags
  notices : List Notice
  enables : Word16
  params : Params
  cause : ResetCause
  attention : Bool
  deriving DecidableEq, Repr

/-! ### The work of one event -/

/-- A piece of the work that one event sets off in the blocks. The blocks of the part act on one another inside one event; the model lists what is
still to do, in the order in which the rules name it, and works the list off before the event ends (assumption 2). -/
inductive Task where
  /-- recompute a transporter's limit and ceiling (R37, R38, R42) -/
  | recompute (t : Nat)
  /-- release a segment held by a transporter (R28) -/
  | release (segment t : Nat)
  /-- the tail release of a segment whose leaving mark has just been set (R32) -/
  | tailRelease (segment t : Nat)
  /-- attempt to serve a segment's claimants (R29) -/
  | serve (segment : Nat)
  /-- attempt to serve every unheld segment with claimants, in ascending number (R27) -/
  | serveAll
  /-- retry the waiting-list entries of a segment with one of these causes (R27) -/
  | retry (segment : Nat) (causes : List WaitCause)
  /-- retry every entry of the waiting list, at the end of the array hold (R27, R169) -/
  | retryAll
  /-- present an order's waiting head to the Core again (R27, R60, R163) -/
  | represent (slot segment : Nat)
  /-- present an order's head to the Core (R24, R74) -/
  | claim (slot : Nat)
  /-- make the lead extensions that are due, in ascending slot number (R72) -/
  | extend
  /-- the throw check of a junction (R49) -/
  | throwCheck (j : Nat)
  /-- the rest decision of a junction (R54) -/
  | restDecision (j : Nat)
  /-- withdraw the queued throws that a transporter's route no longer needs, and make the throw checks of the junctions it holds (R49, R51) -/
  | reviewJunctions (t : Nat)
  /-- try to start a rotation prove (R55) -/
  | rotation
  /-- the confirmation of a withdrawal by a report (R40) -/
  | confirm (t : Nat)
  /-- the last stage of a confirmation, after its releases (R40) -/
  | confirmed (t : Nat)
  /-- the Core tells the Order Table that a withdrawal is complete (R38, R85, R95) -/
  | complete (t : Nat)
  /-- the arrival, dwell or rejoin test with the transporter's last report (R77, R98, R100) -/
  | arrival (t : Nat)
  /-- take up a pending divert at a pop (R97) -/
  | takeUpPending (t : Nat)
  /-- start the transfers of the ARRIVED orders whose conditions hold, in ascending slot number (R79) -/
  | startTransfers
  /-- stage 4 of a report: its class and the progress timer (R144, R145) -/
  | progressReport (t : Nat) (moved inMotion : Bool)
  /-- stage 5 of a report that gives drive-fault (R146) -/
  | driveFault (t : Nat)
  /-- stage 6 of a report: its load event (R114) -/
  | loadEvent (r : Report)
  /-- stage 7 of a report: its quiet stand (R149) -/
  | quietStand (r : Report) (inQuiet : Bool)
  /-- the quiet test (R149) -/
  | quietTest
  /-- send a poll to the next transporter in rotation (R135, R136) -/
  | pollNext
  /-- the last step of the end of the array hold (R169, R181) -/
  | resumeTransfers
  deriving DecidableEq, Repr

/-- An answer whose body the work of the request decides, placed when that work is done: `cancel-order` with the state the order has reached (R84),
`divert` with the refuge's state (R93), `resume-refuge` with the head cause (R99), `enter-quiet` with the quiet state (R148). -/
inductive LateAnswer where
  | cancel (q : Ask) (slot : Nat)
  | divert (q : Ask) (slot : Nat)
  | resume (q : Ask) (slot : Nat)
  | quiet (q : Ask)
  deriving DecidableEq, Repr

end Sys2Proof.Machine
end

