-- ==== Sys2Proof/WellFormed.lean ====
section
/-!
DEFINITION. WellFormed.lean: which commands can be put on the part's lines at all.

A request's numbers each fit the byte (or the two bytes) that carries them, a link that is present has a neighbour byte other than 255, and the
whole frame is 5 to 64 bytes (R187). A number outside the range its own rule allows is well formed: the rule refuses it (R187).
-/

namespace Sys2Proof

/-- A number that one byte carries. -/
def fitsByte (n : Nat) : Bool := decide (n < 256)

/-- A number that two bytes carry, most significant first (R187). -/
def fitsWord (n : Nat) : Bool := decide (n < 65536)

def Header.wf (h : Header) : Bool := fitsByte h.tag

/-- A present link's neighbour byte is not 255, which would mark it absent (R187). -/
def linkFieldWf : Option Link → Bool
  | none => true
  | some l => decide (l.neighbour < 255)

def Stretch.wf (x : Stretch) : Bool := fitsByte x.first && fitsByte x.count

def Finish.wf : Finish → Bool
  | .none => true
  | .lift p => fitsByte p
  | .setDown p => fitsByte p

def LoadTarget.wf : LoadTarget → Bool
  | .none => true
  | .telescope x => fitsByte x

def PadTarget.wf : PadTarget → Bool
  | .vacant => true
  | .anchored x => fitsByte x
  | .barred => true

/-- Every parameter fits its place, and the parameter bytes are at most 59, so that the frame is at most 64 bytes (R187). -/
def Request.wf : Request → Bool
  | .readStatus => true
  | .readSegment n => fitsByte n
  | .readPad n => fitsByte n
  | .readTransporter n => fitsByte n
  | .readOrder n none => fitsByte n
  | .readOrder n (some p) => fitsByte n && fitsByte p
  | .readTelescope n => fitsByte n
  | .sweepPads first count _ => fitsByte first && fitsByte count
  | .fetchNotice => true
  | .setNoticeEnables _ => true
  | .clearPort => true
  | .setParameter n v => fitsByte n && fitsWord v
  | .restart => true
  | .declareSegment n _ g _ _ l1 l2 l3 => fitsByte n && fitsByte g && linkFieldWf l1 && linkFieldWf l2 && linkFieldWf l3
  | .closeLayout => true
  | .clearSwitch n => fitsByte n
  | .submitOrder t _ f leg => fitsByte t && f.wf && leg.all Stretch.wf && decide (5 + 3 * leg.length ≤ 59)
  | .cancelOrder n => fitsByte n
  | .divert t o b => fitsByte t && o.all Stretch.wf && b.all Stretch.wf && decide (3 + 3 * o.length + 3 * b.length ≤ 59)
  | .resumeRefuge n => fitsByte n
  | .declarePad p a g i => fitsByte p && fitsByte a && fitsByte g && i.wf
  | .settlePad p t => fitsByte p && t.wf
  | .settleLoad t l => fitsByte t && l.wf
  | .barPad n => fitsByte n
  | .unbarPad n => fitsByte n
  | .recouplePad n => fitsByte n
  | .enrollTransporter t p l => fitsByte t && fitsByte p && l.wf
  | .disenrollTransporter n => fitsByte n
  | .clearAstray t p => fitsByte t && fitsByte p
  | .proceed n => fitsByte n
  | .enterQuiet => true
  | .leaveQuiet => true
  | .setGrants w p g => fitsByte w && p.all fitsByte && g.all fitsByte && decide (3 + p.length + g.length ≤ 59)
  | .setFence s b z => fitsByte s && fitsByte b && fitsByte z
  | .clearFence n => fitsByte n
  | .hold => true
  | .releaseHold => true
  | .clearWayside => true

/-- The request a request command carries, with its header; `none` for a command that is no request. -/
def Instr.request? : Instr → Option (Header × Request)
  | .readStatus h => some (h, .readStatus)
  | .readSegment h n => some (h, .readSegment n)
  | .readPad h n => some (h, .readPad n)
  | .readTransporter h n => some (h, .readTransporter n)
  | .readOrder h n p => some (h, .readOrder n p)
  | .readTelescope h n => some (h, .readTelescope n)
  | .sweepPads h f c s => some (h, .sweepPads f c s)
  | .fetchNotice h => some (h, .fetchNotice)
  | .setNoticeEnables h e => some (h, .setNoticeEnables e)
  | .clearPort h => some (h, .clearPort)
  | .setParameter h n v => some (h, .setParameter n v)
  | .restart h => some (h, .restart)
  | .declareSegment h n k g v r l1 l2 l3 => some (h, .declareSegment n k g v r l1 l2 l3)
  | .closeLayout h => some (h, .closeLayout)
  | .clearSwitch h n => some (h, .clearSwitch n)
  | .submitOrder h t k f leg => some (h, .submitOrder t k f leg)
  | .cancelOrder h n => some (h, .cancelOrder n)
  | .divert h t o b => some (h, .divert t o b)
  | .resumeRefuge h n => some (h, .resumeRefuge n)
  | .declarePad h p a g i => some (h, .declarePad p a g i)
  | .settlePad h p t => some (h, .settlePad p t)
  | .settleLoad h t l => some (h, .settleLoad t l)
  | .barPad h n => some (h, .barPad n)
  | .unbarPad h n => some (h, .unbarPad n)
  | .recouplePad h n => some (h, .recouplePad n)
  | .enrollTransporter h t p l => some (h, .enrollTransporter t p l)
  | .disenrollTransporter h n => some (h, .disenrollTransporter n)
  | .clearAstray h t p => some (h, .clearAstray t p)
  | .proceed h n => some (h, .proceed n)
  | .enterQuiet h => some (h, .enterQuiet)
  | .leaveQuiet h => some (h, .leaveQuiet)
  | .setGrants h w p g => some (h, .setGrants w p g)
  | .setFence h s b z => some (h, .setFence s b z)
  | .clearFence h n => some (h, .clearFence n)
  | .hold h => some (h, .hold)
  | .releaseHold h => some (h, .releaseHold)
  | .clearWayside h => some (h, .clearWayside)
  | .powerOn | .resetLine | .holdAsserted | .holdDeasserted | .windowBegin | .windowEnd _ | .requestFrameComplete _ | .answerSent => none
  | .gapTimerExpiry | .pollTransmitted | .transporterReport _ | .replyWindowExpiry | .progressTimerExpiry _ => none
  | .waysideFrame _ | .waysideByteGapTimeout | .silenceTimerExpiry | .sensor | .detection | .padEvent | .waysideSendComplete => none
  | .operationTimerExpiry _ | .junctionHoldExpiry _ | .proveIntervalExpiry | .transferTimerExpiry _ | .couplingTimerExpiry _ => none
  | .byteInHunting _ | .lengthByteFraming _ => none

/-- The numbers a timer row names are numbers of the objects that have such a timer (00_scope.md, "Numbering"), a frame row carries no more
than its frame, and the two single-byte rows carry a byte that their row names (R172, R185). -/
def Instr.eventWf : Instr → Bool
  | .progressTimerExpiry t => decide (t < 4)
  | .operationTimerExpiry j => decide (j < 128)
  | .junctionHoldExpiry j => decide (j < 128)
  | .transferTimerExpiry p => decide (p < 192)
  | .couplingTimerExpiry p => decide (p < 192)
  | .waysideFrame bytes => decide (bytes.length = 6)
  | .transporterReport bytes => decide (bytes.length = 10)
  | .requestFrameComplete bytes => decide (5 ≤ bytes.length ∧ bytes.length ≤ 64)
  | .byteInHunting b => decide (b ≠ 0xC3#8)
  | .lengthByteFraming b => decide ((1 ≤ b.toNat ∧ b.toNat ≤ 4) ∨ 65 ≤ b.toNat)
  | _ => true

/-- A command that can be put on the part's lines as its row of the table names it. -/
def Instr.wf (c : Instr) : Bool :=
  match c.request? with
  | some (h, r) => h.wf && r.wf
  | none => c.eventWf

end Sys2Proof
end

