-- ==== Sys2Proof/Machine/Operands.lean ====
section
/-!
DEFINITION. Machine/Operands.lean: the 16-bit check, and the frames of the three links, read and built (R138, R171, R172, R186, R187).
-/

namespace Sys2Proof.Machine

/-! ### The check (R186) -/

/-- One bit of the cyclic division by x^16 + x^12 + x^5 + 1. -/
def crcShift (r : Word16) : Word16 := if r.msb then (r <<< 1) ^^^ 0x1021#16 else r <<< 1

/-- One byte fed, most significant bit first. -/
def crcByte (r : Word16) (b : Byte) : Word16 :=
  let r := r ^^^ (b.setWidth 16 <<< 8)
  crcShift (crcShift (crcShift (crcShift (crcShift (crcShift (crcShift (crcShift r)))))))

/-- The check of a list of bytes: the register starts at all ones, and there is no final inversion (R186). -/
def crc (bytes : List Byte) : Word16 := bytes.foldl crcByte 0xFFFF#16

/-- A 16-bit quantity as two bytes, the most significant first. -/
def wordBytes (w : Word16) : List Byte := [(w >>> 8).setWidth 8, w.setWidth 8]

/-- A frame's bytes with their check after them. -/
def withCheck (bytes : List Byte) : List Byte := bytes ++ wordBytes (crc bytes)

/-- Whether a frame's last two bytes are the check of the bytes `covered` (R138, R171, R185). -/
def checkAgrees (covered check : List Byte) : Bool := decide (check = wordBytes (crc covered))

/-! ### Request codes (R187) -/

/-- The code of a request (10_control_link_requests_and_notices.md, "Request codes"). -/
def codeOf : Request → Nat
  | .readStatus => 1
  | .readSegment _ => 2
  | .readPad _ => 3
  | .readTransporter _ => 4
  | .readOrder .. => 5
  | .readTelescope _ => 6
  | .sweepPads .. => 7
  | .fetchNotice => 8
  | .setNoticeEnables _ => 9
  | .clearPort => 10
  | .setParameter .. => 11
  | .restart => 12
  | .declareSegment .. => 16
  | .closeLayout => 17
  | .clearSwitch _ => 18
  | .submitOrder .. => 20
  | .cancelOrder _ => 21
  | .divert .. => 22
  | .resumeRefuge _ => 23
  | .declarePad .. => 24
  | .settlePad .. => 25
  | .settleLoad .. => 26
  | .barPad _ => 27
  | .unbarPad _ => 28
  | .recouplePad _ => 29
  | .enrollTransporter .. => 32
  | .disenrollTransporter _ => 33
  | .clearAstray .. => 34
  | .proceed _ => 35
  | .enterQuiet => 36
  | .leaveQuiet => 37
  | .setGrants .. => 40
  | .setFence .. => 41
  | .clearFence _ => 42
  | .hold => 43
  | .releaseHold => 44
  | .clearWayside => 45

/-- The codes of the request code table. -/
def requestCodes : List Nat :=
  [1, 2, 3, 4, 5, 6, 7, 8, 9, 10, 11, 12, 16, 17, 18, 20, 21, 22, 23, 24, 25, 26, 27, 28, 29, 32, 33, 34, 35, 36, 37, 40, 41, 42, 43, 44, 45]

/-! ### Reading parameters (R187): none where a list byte lies beyond its list or the length differs -/

def readSense : Byte → Option Sense
  | 0#8 => some .up
  | 1#8 => some .down
  | _ => none

def readKind : Byte → Option SegKind
  | 0#8 => some .plain
  | 1#8 => some .spur
  | 2#8 => some .junction
  | _ => none

def readSpeed : Byte → Option SpeedClass
  | 0#8 => some .creep
  | 1#8 => some .travel
  | _ => none

def readRest : Byte → Option RestPosition
  | 0#8 => some .normal
  | 1#8 => some .reverse
  | 2#8 => some .none
  | _ => none

def readEnd : Byte → Option TrackEnd
  | 0#8 => some .a
  | 1#8 => some .b
  | 2#8 => some .bNormal
  | 3#8 => some .bReverse
  | _ => none

/-- A link field: a neighbour byte of 255 marks it absent, and its end byte is then disregarded (R187). -/
def readLink (neighbour farEnd : Byte) : Option (Option Link) :=
  if neighbour = 255#8 then some none else (readEnd farEnd).map fun e => some ⟨neighbour.toNat, e⟩

def readOrderKind : Byte → Option OrderKind
  | 0#8 => some .emptyRun
  | 1#8 => some .loadedRun
  | 2#8 => some .refuge
  | _ => none

def readFinish (kind pad : Byte) : Option Finish :=
  match kind with
  | 0#8 => some .none
  | 1#8 => some (.lift pad.toNat)
  | 2#8 => some (.setDown pad.toNat)
  | _ => none

def readLoad (kind telescope : Byte) : Option LoadTarget :=
  match kind with
  | 0#8 => some .none
  | 1#8 => some (.telescope telescope.toNat)
  | _ => none

def readPadTarget (kind telescope : Byte) : Option PadTarget :=
  match kind with
  | 0#8 => some .vacant
  | 1#8 => some (.anchored telescope.toNat)
  | 2#8 => some .barred
  | _ => none

/-- A number of stretches read off the front of a list of bytes, with the bytes that follow. -/
def readStretches : Nat → List Byte → Option (List Stretch × List Byte)
  | 0, bytes => some ([], bytes)
  | n + 1, f :: c :: d :: rest =>
    match readSense d, readStretches n rest with
    | some sense, some (xs, after) => some (⟨f.toNat, c.toNat, sense⟩ :: xs, after)
    | _, _ => none
  | _ + 1, _ => none

/-- A number of numbers read off the front of a list of bytes, with the bytes that follow. -/
def readNumbers : Nat → List Byte → Option (List Nat × List Byte)
  | 0, bytes => some ([], bytes)
  | n + 1, b :: rest =>
    match readNumbers n rest with
    | some (xs, after) => some (b.toNat :: xs, after)
    | none => none
  | _ + 1, [] => none

/-- The parameters of `submit-order`. -/
def readSubmit : List Byte → Option Request
  | t :: k :: f :: p :: c :: rest =>
    match readOrderKind k, readFinish f p, readStretches c.toNat rest with
    | some kind, some finish, some (leg, []) => some (.submitOrder t.toNat kind finish leg)
    | _, _, _ => none
  | _ => none

/-- The parameters of `divert`: each count is followed by its stretches. -/
def readDivert : List Byte → Option Request
  | t :: c :: rest =>
    match readStretches c.toNat rest with
    | some (out, d :: more) =>
      match readStretches d.toNat more with
      | some (back, []) => some (.divert t.toNat out back)
      | _ => none
    | _ => none
  | _ => none

/-- The parameters of `set-grants`: each count is followed by its groups. -/
def readGrants : List Byte → Option Request
  | w :: c :: rest =>
    match readNumbers c.toNat rest with
    | some (pads, d :: more) =>
      match readNumbers d.toNat more with
      | some (segments, []) => some (.setGrants w.toNat pads segments)
      | _ => none
    | _ => none
  | _ => none

/-- The parameters of `declare-segment` (R5). -/
def readDeclaration : List Byte → Option Request
  | [n, k, g, v, r, n1, e1, n2, e2, n3, e3] =>
    match readKind k, readSpeed v, readRest r, readLink n1 e1, readLink n2 e2, readLink n3 e3 with
    | some kind, some speed, some rest, some l1, some l2, some l3 => some (.declareSegment n.toNat kind g.toNat speed rest l1 l2 l3)
    | _, _, _, _, _, _ => none
  | _ => none

/-- Two bytes as a number, the most significant first. -/
def readWord (hi lo : Byte) : Nat := hi.toNat * 256 + lo.toNat

/-- A request of a known code read from its parameter bytes; `none` where the frame is malformed (R187). -/
def readRequest (code : Nat) (params : List Byte) : Option Request :=
  match code, params with
  | 1, [] => some .readStatus
  | 2, [n] => some (.readSegment n.toNat)
  | 3, [n] => some (.readPad n.toNat)
  | 4, [n] => some (.readTransporter n.toNat)
  | 5, [n] => some (.readOrder n.toNat none)
  | 5, [n, p] => some (.readOrder n.toNat (some p.toNat))
  | 6, [n] => some (.readTelescope n.toNat)
  | 7, [f, c, d] => (readSense d).map (.sweepPads f.toNat c.toNat)
  | 8, [] => some .fetchNotice
  | 9, [hi, lo] => some (.setNoticeEnables (hi ++ lo))
  | 10, [] => some .clearPort
  | 11, [n, hi, lo] => some (.setParameter n.toNat (readWord hi lo))
  | 12, [] => some .restart
  | 16, ps => readDeclaration ps
  | 17, [] => some .closeLayout
  | 18, [n] => some (.clearSwitch n.toNat)
  | 20, ps => readSubmit ps
  | 21, [n] => some (.cancelOrder n.toNat)
  | 22, ps => readDivert ps
  | 23, [n] => some (.resumeRefuge n.toNat)
  | 24, [p, a, g, k, x] => (readPadTarget k x).map (.declarePad p.toNat a.toNat g.toNat)
  | 25, [p, k, x] => (readPadTarget k x).map (.settlePad p.toNat)
  | 26, [t, k, x] => (readLoad k x).map (.settleLoad t.toNat)
  | 27, [n] => some (.barPad n.toNat)
  | 28, [n] => some (.unbarPad n.toNat)
  | 29, [n] => some (.recouplePad n.toNat)
  | 32, [t, n, k, x] => (readLoad k x).map (.enrollTransporter t.toNat n.toNat)
  | 33, [n] => some (.disenrollTransporter n.toNat)
  | 34, [t, n] => some (.clearAstray t.toNat n.toNat)
  | 35, [n] => some (.proceed n.toNat)
  | 36, [] => some .enterQuiet
  | 37, [] => some .leaveQuiet
  | 40, ps => readGrants ps
  | 41, [a, b, c] => some (.setFence a.toNat b.toNat c.toNat)
  | 42, [n] => some (.clearFence n.toNat)
  | 43, [] => some .hold
  | 44, [] => some .releaseHold
  | 45, [] => some .clearWayside
  | _, _ => none

/-- The originator of the two most significant bits of a frame's third byte (R153, R187). -/
def readOriginator : Nat → Option Originator
  | 0 => some .maintenance
  | 1 => some .operator
  | 2 => some .scheduler
  | _ => none

/-- What a complete frame asks for: stages 1 and 2 of R189 read it. -/
def readContent (originator code : Nat) (params : List Byte) : Content :=
  if code ∉ requestCodes then .unknown
  else match readOriginator originator, readRequest code params with
    | some o, some r => .valid o r
    | _, _ => .malformed

/-- A complete frame whose check agrees, as it joins the request queue (R185, R187). -/
def readFrame (bytes : List Byte) : QueuedRequest :=
  match bytes with
  | _ :: tag :: who :: rest =>
    { tag := tag.toNat, code := who.toNat % 64, content := readContent (who.toNat / 64) (who.toNat % 64) (rest.take (rest.length - 2)) }
  | _ => { tag := 0, code := 0, content := .unknown }

/-! ### Building request frames (R187) -/

/-- A number as the byte that carries it. -/
def byteOf (n : Nat) : Byte := BitVec.ofNat 8 n

def senseByte : Sense → Byte
  | .up => 0#8
  | .down => 1#8

def kindByte : SegKind → Byte
  | .plain => 0#8
  | .spur => 1#8
  | .junction => 2#8

def speedByte : SpeedClass → Byte
  | .creep => 0#8
  | .travel => 1#8

def restByte : RestPosition → Byte
  | .normal => 0#8
  | .reverse => 1#8
  | .none => 2#8

def endByte : TrackEnd → Byte
  | .a => 0#8
  | .b => 1#8
  | .bNormal => 2#8
  | .bReverse => 3#8

def linkBytes : Option Link → List Byte
  | none => [255#8, 0#8]
  | some l => [byteOf l.neighbour, endByte l.farEnd]

def orderKindByte : OrderKind → Byte
  | .emptyRun => 0#8
  | .loadedRun => 1#8
  | .refuge => 2#8

def finishBytes : Finish → List Byte
  | .none => [0#8, 0#8]
  | .lift p => [1#8, byteOf p]
  | .setDown p => [2#8, byteOf p]

def loadBytes : LoadTarget → List Byte
  | .none => [0#8, 0#8]
  | .telescope x => [1#8, byteOf x]

def padTargetBytes : PadTarget → List Byte
  | .vacant => [0#8, 0#8]
  | .anchored x => [1#8, byteOf x]
  | .barred => [2#8, 0#8]

def stretchBytes (x : Stretch) : List Byte := [byteOf x.first, byteOf x.count, senseByte x.sense]

/-- The parameter bytes of a request (R187). -/
def paramBytes : Request → List Byte
  | .readStatus => []
  | .readSegment n => [byteOf n]
  | .readPad n => [byteOf n]
  | .readTransporter n => [byteOf n]
  | .readOrder n none => [byteOf n]
  | .readOrder n (some p) => [byteOf n, byteOf p]
  | .readTelescope n => [byteOf n]
  | .sweepPads f c d => [byteOf f, byteOf c, senseByte d]
  | .fetchNotice => []
  | .setNoticeEnables e => wordBytes e
  | .clearPort => []
  | .setParameter n v => [byteOf n, byteOf (v / 256), byteOf (v % 256)]
  | .restart => []
  | .declareSegment n k g v r l1 l2 l3 =>
    [byteOf n, kindByte k, byteOf g, speedByte v, restByte r] ++ (linkBytes l1 ++ (linkBytes l2 ++ linkBytes l3))
  | .closeLayout => []
  | .clearSwitch n => [byteOf n]
  | .submitOrder t k f leg => byteOf t :: orderKindByte k :: (finishBytes f ++ byteOf leg.length :: leg.flatMap stretchBytes)
  | .cancelOrder n => [byteOf n]
  | .divert t out back =>
    byteOf t :: byteOf out.length :: (out.flatMap stretchBytes ++ byteOf back.length :: back.flatMap stretchBytes)
  | .resumeRefuge n => [byteOf n]
  | .declarePad p a g i => byteOf p :: byteOf a :: byteOf g :: padTargetBytes i
  | .settlePad p x => byteOf p :: padTargetBytes x
  | .settleLoad t l => byteOf t :: loadBytes l
  | .barPad n => [byteOf n]
  | .unbarPad n => [byteOf n]
  | .recouplePad n => [byteOf n]
  | .enrollTransporter t n l => byteOf t :: byteOf n :: loadBytes l
  | .disenrollTransporter n => [byteOf n]
  | .clearAstray t n => [byteOf t, byteOf n]
  | .proceed n => [byteOf n]
  | .enterQuiet => []
  | .leaveQuiet => []
  | .setGrants w p g => byteOf w :: byteOf p.length :: (p.map byteOf ++ byteOf g.length :: g.map byteOf)
  | .setFence a b c => [byteOf a, byteOf b, byteOf c]
  | .clearFence n => [byteOf n]
  | .hold => []
  | .releaseHold => []
  | .clearWayside => []

/-- The number in the two bits that carry an originator (R153). -/
def originatorNumber : Originator → Nat
  | .maintenance => 0
  | .operator => 1
  | .scheduler => 2

/-- A request's frame, without its check. -/
def frameBody (h : Header) (r : Request) : List Byte :=
  byteOf ((paramBytes r).length + 5) :: byteOf h.tag :: byteOf (originatorNumber h.originator * 64 + codeOf r) :: paramBytes r

/-- A request's frame (R187). -/
def requestFrame (h : Header) (r : Request) : List Byte := withCheck (frameBody h r)

/-! ### The transporter link (R138) -/

def readFlag : Byte → Option Bool
  | 0#8 => some false
  | 1#8 => some true
  | _ => none

def readLoadEvent (kind telescope : Byte) : Option LoadEvent :=
  match kind with
  | 0#8 => some .none
  | 1#8 => some (.loaded telescope.toNat)
  | 2#8 => some .set
  | _ => none

/-- The fields of a report, where each holds a value of its table. A report that gives both at-rest and in-motion is taken as in motion, with at-rest
no (R138). -/
def readReportFields (t q n rest motion fault kind x : Byte) : Option Report :=
  match readFlag rest, readFlag motion, readFlag fault, readLoadEvent kind x with
  | some atRest, some inMotion, some driveFault, some load =>
    if t.toNat ≤ 3 ∧ n.toNat ≤ 127 then
      some { transporter := t.toNat, sequence := q, position := n.toNat, atRest := atRest && !inMotion, inMotion := inMotion
             driveFault := driveFault, load := load }
    else none
  | _, _, _, _ => none

/-- A report frame read; `none` where its check fails, its length is not 10 or a field holds a value outside the table (R138). -/
def readReport : List Byte → Option Report
  | [t, q, n, rest, motion, fault, kind, x, c1, c2] =>
    if checkAgrees [t, q, n, rest, motion, fault, kind, x] [c1, c2] then readReportFields t q n rest motion fault kind x else none
  | _ => none

def ceilingByte : Ceiling → Byte
  | .creep => 0#8
  | .loaded => 1#8
  | .travel => 2#8

def permissionByte : Permission → Byte
  | .none => 0#8
  | .lift => 1#8
  | .setDown => 2#8

/-- The frame of a poll (R138). -/
def pollFrame (x : Poll) : List Byte :=
  withCheck [byteOf x.transporter, x.sequence, byteOf x.limit, ceilingByte x.ceiling, permissionByte x.permission]

/-! ### The wayside link (R171, R172) -/

/-- The sync byte of a wayside frame (R171). -/
def syncByte : Byte := 0xC3#8

/-- A message from the concentrator: one that is queued, or STATUS (R171). -/
inductive WaysideMessage where
  | status
  | message (m : InMessage)
  deriving DecidableEq, Repr

def readDetection : Byte → Option DetectionValue
  | 0#8 => some .none
  | 1#8 => some .normal
  | 2#8 => some .reverse
  | _ => none

def readPadEvent : Byte → Option PadEventValue
  | 0#8 => some .uncoupled
  | 1#8 => some .coupled
  | 2#8 => some .loadSensed
  | 3#8 => some .loadClear
  | 4#8 => some .fault
  | _ => none

/-- The message of a kind, an object and a value; `none` where one lies outside R171's table. -/
def readMessage (kind object value : Byte) : Option WaysideMessage :=
  match kind with
  | 1#8 => if object.toNat ≤ 127 then (readFlag value).map fun v => .message (.sensor object.toNat v) else none
  | 2#8 => if object.toNat ≤ 127 then (readDetection value).map fun v => .message (.detection object.toNat v) else none
  | 3#8 => if object.toNat ≤ 191 then (readPadEvent value).map fun v => .message (.padEvent object.toNat v) else none
  | 4#8 => if object = 0#8 ∧ value = 0#8 then some .status else none
  | _ => none

/-- A frame of six bytes judged; `none` is a check error (R172). The check covers bytes 1 to 3. -/
def judgeFrame : List Byte → Option WaysideMessage
  | [c, kind, object, value, c1, c2] =>
    if c = syncByte ∧ checkAgrees [kind, object, value] [c1, c2] = true then readMessage kind object value else none
  | _ => none

def settingByte : SwitchSetting → Byte
  | .normal => 1#8
  | .reverse => 2#8

/-- The frame of an outgoing message (R171). -/
def outFrame (m : OutMessage) : List Byte :=
  let content := match m with
    | .throw j x => [9#8, byteOf j, settingByte x]
    | .prove j => [10#8, byteOf j, 0#8]
    | .couple p => [11#8, byteOf p, 0#8]
    | .uncouple p => [12#8, byteOf p, 0#8]
  syncByte :: withCheck content

end Sys2Proof.Machine
end

