-- ==== Sys2Proof/Config.lean ====
section
/-!
DEFINITION. Config.lean: the values the manual leaves open, as constants without a body, and the model's own bound on the work of one event.
-/

namespace Sys2Proof

/-- FREE VALUE (assumption 3): how much of a timer's time has passed when the part reads it out or suspends it. The argument is the model's counter
of free values. The model takes it modulo the timer's time, so that the time left never exceeds the time the timer was started with. -/
opaque Config.elapsed : Nat → Nat

/-- FREE VALUE (assumption 7): byte `i` of a piece of an answer body whose coding the manual does not settle (how a field that is absent is carried,
the code of a value whose list no rule orders, the packing of R200's second byte). -/
opaque Config.openByte : Machine.OpenField → Nat → Byte

/-- FREE VALUE (assumption 7): how many bytes an absent field takes. The model takes at most the field's own width of them. -/
opaque Config.absentLength : Machine.AbsentField → Nat

/-- How many tasks one event may work off (assumption 2). It is the model's own and far above what any event of 128 segments, 8 orders and 4
transporters can need. -/
def Config.eventBound : Nat := 100000

end Sys2Proof
end

