-- ==== Sys2Proof/Machine/State.lean ====
section
/-!
DEFINITION. Machine/State.lean: the state of the part, block by block, and the state after power-on.
-/

namespace Sys2Proof.Machine

/-- The part's state: the nine blocks in the order of 00_scope.md's table; the commands that wait, first in first out; and five fields of the
model's own (assumptions 2, 3 and 11). -/
structure State where
  /-- Layout Table (R1, R3) -/
  layout : LayoutTable
  /-- Interlock Core (R18, R19) -/
  core : InterlockCore
  /-- Junction Controller (R46) -/
  junctions : JunctionController
  /-- Order Table (R64, R65) -/
  orders : OrderTable
  /-- Transfer Unit (R104, R105, R106, R111, R112) -/
  transfer : TransferUnit
  /-- Poll Engine (R129) -/
  polls : PollEngine
  /-- Guard Unit (R154, R158, R162, R164) -/
  guards : GuardUnit
  /-- Wayside Port (R170) -/
  wayside : WaysidePort
  /-- Control Port (R184, R190, R194, R196, R198, R203, R204) -/
  port : ControlPort
  /-- the commands that wait to be taken, oldest first -/
  pending : List Instr
  /-- the model's own: the work of the present event still to do, empty between events -/
  agenda : List Task
  /-- the model's own: the order slots to which the present event gave an event of R72, in rising number, empty between events -/
  due : List Nat
  /-- the model's own: the answer that the work of the present request decides, none between requests -/
  late : Option LateAnswer
  /-- the model's own: whether the array hold is ending and step 5 of R169 is still to come, false between events -/
  holdEnding : Bool
  /-- the model's own: how many free values have been drawn -/
  freeCount : Nat
  deriving DecidableEq, Repr

/-- The reasons a step can stop with a fault: none. The manual gives the part an effect, a refusal answered to the host or a discard for every
command in every state, so no meaning faults. -/
inductive Fault where
  deriving DecidableEq, Repr

/-- The reasons a step can be refused. -/
inductive Refusal where
  /-- Raised by exec's own arm for a command that has no meaning yet. Safe: the model stops where the part goes on. No arm raises it now. -/
  | notModelled (mnemonic : String)
  deriving DecidableEq, Repr

/-! ### The resting records of the tables -/

/-- A segment's dynamic record after power-on (R18). -/
def SegDyn.initial : SegDyn := { holder := none, queue := [], sensor := .unknown, leaving := false, withdrawing := none }

/-- An UNDECLARED pad (R104): no further fields. -/
def PadRec.undeclared : PadRec :=
  { state := .undeclared, access := 0, guard := 0, occupant := none, expected := none, claim := none, lastOccupant := none
    confTransporter := false, confStation := false, coupling := .none, couplingTimer := .stopped }

/-- No active order, an empty stack and no pending divert (R65). -/
def OrderRefs.initial : OrderRefs := { active := none, stack := [], pendingDivert := none }

/-- A map with both sets empty (R154). -/
def GrantMap.initial : GrantMap := { pads := [], segments := [] }

/-- A junction's record when `close-layout` makes it (R46). -/
def JunctionRec.initial : JunctionRec := { position := .unknown, operation := none, hold := .expired, waiters := [], untrusted := false, underHolder := false }

/-- The reset values of the parameters (R203). -/
def Params.initial : Params :=
  { lead := 3, throwTimeout := 12, holdTime := 60, proveInterval := 30, transferTimeout := 180, couplingTimeout := 60, replyWindow := 30
    pollGap := 20, missLimit := 3, progressTime := 40, grace := 2, silenceTime := 5, attentionLevel := 1 }

/-- All four sticky flags clear (R194). -/
def StickyFlags.initial : StickyFlags := { overrun := false, framing := false, check := false, restarted := false }

/-- Every kind from 1 to 13 enabled, kind k in bit k − 1 (R198). -/
def enablesInitial : Word16 := 0x1FFF#16

/-- The part right after power-on, as each block's chapter gives it: R1, R3 (no declaration, OPEN); R18, R19; R46; R64, R65; R104 to R106, R111;
R129; R154, R158, R162, R164, R165; R170, R183; R190, R191, R194, R196, R198, R203, R205 (RESTARTED pending and enabled, so ATTENTION is
asserted; reset cause POWER). -/
def State.reset : State :=
  { layout := { decls := [], closed := false }
    core := { segs := [], runs := [], waiting := [] }
    junctions := { recs := [], pointer := none, interval := .stopped }
    orders := { slots := [], refs := [] }
    transfer := { pads := [], telescopes := [], loads := [], transfers := [] }
    polls := { recs := [], pointer := none, outstanding := none, nextSequence := 0#8, window := .stopped, gap := .stopped, quiet := .off }
    guards := { maps := [], fences := [], fenced := [], hold := { line := false, desk := false, wayside := false } }
    wayside := { inQueue := [], pause := false, receiver := .hunting, silence := .running 5, link := .live, outQueue := [], transmitter := .idle }
    port :=
      { requests := [], answers := [], window := .closed, flags := StickyFlags.initial
        notices := [⟨.restarted, 0⟩], enables := enablesInitial, params := Params.initial, cause := .power, attention := true }
    pending := []
    agenda := []
    due := []
    late := none
    holdEnding := false
    freeCount := 0 }

end Sys2Proof.Machine
end

