-- ==== Sys2Proof/Machine/Tables.lean ====
section
/-!
DEFINITION. Machine/Tables.lean: reading and writing a sparse table, and the small list operations the records need.

A table is in canonical form when its numbers rise strictly and no entry equals the resting record, so that equal tables are equal lists.
-/

namespace Sys2Proof

/-- The record at number `k`, or the resting record `d` where none is listed. -/
def Table.get {α : Type} (d : α) : Table α → Nat → α
  | [], _ => d
  | (j, v) :: rest, k => if j = k then v else Table.get d rest k

/-- `t` without an entry at `k`. -/
def Table.erase {α : Type} : Table α → Nat → Table α
  | [], _ => []
  | (j, v) :: rest, k => if j = k then Table.erase rest k else (j, v) :: Table.erase rest k

/-- `t` with `v` listed at `k`, in rising number. -/
def Table.insert {α : Type} : Table α → Nat → α → Table α
  | [], k, v => [(k, v)]
  | (j, w) :: rest, k, v =>
    if k < j then (k, v) :: (j, w) :: rest
    else if j = k then (k, v) :: rest
    else (j, w) :: Table.insert rest k v

/-- `t` with the record at `k` replaced by `v`; the resting record is not listed. -/
def Table.put {α : Type} [DecidableEq α] (d : α) (t : Table α) (k : Nat) (v : α) : Table α :=
  if v = d then Table.erase t k else Table.insert t k v

/-- Every listed record replaced by `f` of it; those that come to rest are no longer listed. -/
def Table.mapRecords {α : Type} [DecidableEq α] (d : α) (f : Nat → α → α) : Table α → Table α
  | [] => []
  | (j, v) :: rest => Table.put d (Table.mapRecords d f rest) j (f j v)

/-- The listed numbers, in rising order. -/
def Table.keys {α : Type} (t : Table α) : List Nat := t.map (·.1)

/-- The canonical form: numbers strictly rising and no entry equal to the resting record. -/
def Table.wf {α : Type} [DecidableEq α] (d : α) (t : Table α) : Bool :=
  decide ((t.map (·.1)).Pairwise (· < ·)) && t.all fun e => decide (e.2 ≠ d)

/-- `n` put into a list of numbers kept in rising order with no repeats. -/
def insertSorted (n : Nat) : List Nat → List Nat
  | [] => [n]
  | m :: rest => if n < m then n :: m :: rest else if n = m then m :: rest else m :: insertSorted n rest

/-- The set of a list of numbers: in rising order, no repeats. -/
def toSet (ns : List Nat) : List Nat := ns.foldr insertSorted []

/-- The first place in a list at which `p` holds. -/
def findPlace {α : Type} (p : α → Bool) : List α → Option Nat
  | [] => none
  | x :: rest => if p x then some 0 else (findPlace p rest).map (· + 1)

end Sys2Proof
end

