-- ==== Sys2Proof/Machine/Ops.lean ====
section
/-!
DEFINITION. Machine/Ops.lean: the named operations through which every record is read and written, and the facts about the records that several
blocks ask for.
-/

namespace Sys2Proof.Machine

/-! ### Reading the records -/

/-- A segment's declaration; `none` is UNDECLARED (R1). -/
def State.decl (s : State) (n : Nat) : Option SegDecl := Table.get none s.layout.decls n

/-- A segment's dynamic record (R18). -/
def State.seg (s : State) (n : Nat) : SegDyn := Table.get SegDyn.initial s.core.segs n

/-- What the Core keeps for an enrolled transporter (R19). -/
def State.run (s : State) (t : Nat) : Option RunRec := Table.get none s.core.runs t

/-- A junction's record, where it has one (R46). -/
def State.junction (s : State) (j : Nat) : Option JunctionRec := Table.get none s.junctions.recs j

/-- An order slot's record; `none` is EMPTY (R64). -/
def State.order (s : State) (slot : Nat) : Option Order := Table.get none s.orders.slots slot

/-- A transporter's active order, refuge stack and pending divert (R65). -/
def State.orderRefs (s : State) (t : Nat) : OrderRefs := Table.get OrderRefs.initial s.orders.refs t

/-- A pad's record (R104). -/
def State.pad (s : State) (p : Nat) : PadRec := Table.get PadRec.undeclared s.transfer.pads p

/-- A telescope's placement (R105). -/
def State.placement (s : State) (x : Nat) : Placement := Table.get .unplaced s.transfer.telescopes x

/-- A transporter's load, where one is kept (R106). -/
def State.load (s : State) (t : Nat) : Option Load := Table.get none s.transfer.loads t

/-- The transfer in progress at a pad (R112). -/
def State.transferAt (s : State) (p : Nat) : Option TransferRec := Table.get none s.transfer.transfers p

/-- A transporter's record, where it is enrolled (R129). -/
def State.train (s : State) (t : Nat) : Option TransporterRec := Table.get none s.polls.recs t

/-- An originator's grant map, by level (R154). -/
def State.grantMap (s : State) (level : Nat) : GrantMap := Table.get GrantMap.initial s.guards.maps level

/-- A fence record; `none` is EMPTY (R158). -/
def State.fence (s : State) (slot : Nat) : Option Fence := Table.get none s.guards.fences slot

/-! ### Writing the records -/

def State.setDecl (s : State) (n : Nat) (d : Option SegDecl) : State :=
  { s with layout := { s.layout with decls := Table.put none s.layout.decls n d } }

def State.setSeg (s : State) (n : Nat) (r : SegDyn) : State :=
  { s with core := { s.core with segs := Table.put SegDyn.initial s.core.segs n r } }

def State.setRun (s : State) (t : Nat) (r : Option RunRec) : State :=
  { s with core := { s.core with runs := Table.put none s.core.runs t r } }

def State.setWaiting (s : State) (w : List WaitEntry) : State := { s with core := { s.core with waiting := w } }

def State.setJunction (s : State) (j : Nat) (r : Option JunctionRec) : State :=
  { s with junctions := { s.junctions with recs := Table.put none s.junctions.recs j r } }

def State.setPointer (s : State) (p : Option Nat) : State := { s with junctions := { s.junctions with pointer := p } }

def State.setInterval (s : State) (t : Timer) : State := { s with junctions := { s.junctions with interval := t } }

def State.setOrder (s : State) (slot : Nat) (o : Option Order) : State :=
  { s with orders := { s.orders with slots := Table.put none s.orders.slots slot o } }

def State.setRefs (s : State) (t : Nat) (r : OrderRefs) : State :=
  { s with orders := { s.orders with refs := Table.put OrderRefs.initial s.orders.refs t r } }

def State.setPad (s : State) (p : Nat) (r : PadRec) : State :=
  { s with transfer := { s.transfer with pads := Table.put PadRec.undeclared s.transfer.pads p r } }

def State.setPlacement (s : State) (x : Nat) (p : Placement) : State :=
  { s with transfer := { s.transfer with telescopes := Table.put .unplaced s.transfer.telescopes x p } }

def State.setLoad (s : State) (t : Nat) (l : Option Load) : State :=
  { s with transfer := { s.transfer with loads := Table.put none s.transfer.loads t l } }

def State.setTransfer (s : State) (p : Nat) (r : Option TransferRec) : State :=
  { s with transfer := { s.transfer with transfers := Table.put none s.transfer.transfers p r } }

def State.setTrain (s : State) (t : Nat) (r : Option TransporterRec) : State :=
  { s with polls := { s.polls with recs := Table.put none s.polls.recs t r } }

def State.setGrantMap (s : State) (level : Nat) (m : GrantMap) : State :=
  { s with guards := { s.guards with maps := Table.put GrantMap.initial s.guards.maps level m } }

def State.setFence (s : State) (slot : Nat) (f : Option Fence) : State :=
  { s with guards := { s.guards with fences := Table.put none s.guards.fences slot f } }

def State.setFenced (s : State) (l : List FencedEntry) : State := { s with guards := { s.guards with fenced := l } }

def State.setHold (s : State) (h : HoldSources) : State := { s with guards := { s.guards with hold := h } }

def State.setOutQueue (s : State) (q : List OutMessage) : State := { s with wayside := { s.wayside with outQueue := q } }

def State.setTransmitter (s : State) (x : Transmitter) : State := { s with wayside := { s.wayside with transmitter := x } }

def State.setReceiver (s : State) (r : Receiver) : State := { s with wayside := { s.wayside with receiver := r } }

/-- The in-queue replaced, and the pause decided afresh by the number of messages it holds (R174). -/
def State.setInQueue (s : State) (q : List InMessage) : State :=
  { s with wayside := { s.wayside with inQueue := q, pause := decide (12 ≤ q.length) } }

def State.setRequests (s : State) (q : List QueuedRequest) : State := { s with port := { s.port with requests := q } }

def State.setAnswers (s : State) (q : List Answer) : State := { s with port := { s.port with answers := q } }

def State.setWindow (s : State) (w : Window) : State := { s with port := { s.port with window := w } }

def State.setFlags (s : State) (f : StickyFlags) : State := { s with port := { s.port with flags := f } }

def State.setNotices (s : State) (n : List Notice) : State := { s with port := { s.port with notices := n } }

/-- The parameters, read by every block (R203). -/
def State.params (s : State) : Params := s.port.params

/-! ### The work of an event, free values, notices and answers -/

/-- Adds tasks to the work of the present event, after those already listed. -/
def State.emit (s : State) (ts : List Task) : State := { s with agenda := s.agenda ++ ts }

/-- Leaves an answer to be placed when the work of the request is done. -/
def State.answerAfter (s : State) (x : LateAnswer) : State := { s with late := some x }

/-- Notes an event of R72 for the order in a slot. -/
def State.makeDue (s : State) (slot : Nat) : State := { s with due := insertSorted slot s.due }

/-- Draws a time left, up to `time`: a free value (assumption 3). -/
def State.timeLeft (s : State) (time : Nat) : Nat := time - Config.elapsed s.freeCount % (time + 1)

/-- Step 5 of the end of the array hold awaited, or not (R169). -/
def State.setHoldEnding (s : State) (v : Bool) : State := { s with holdEnding := v }

/-- The state after a free value has been drawn. -/
def State.drawn (s : State) : State := { s with freeCount := s.freeCount + 1 }

/-- A notice kind's number (R196). -/
def NoticeKind.number : NoticeKind → Nat
  | .switchFault => 1 | .trackIntrusion => 2 | .transporterLost => 3 | .transporterAstray => 4 | .transporterStalled => 5
  | .deadlock => 6 | .padFault => 7 | .orderFailed => 8 | .routeFenced => 9 | .divertVoid => 10 | .orderEnded => 11
  | .quietEntered => 12 | .restarted => 13

/-- The order in which notices are fetched (R197): by kind number, then by subject. -/
def Notice.before (a b : Notice) : Bool :=
  decide (a.kind.number < b.kind.number) || (decide (a.kind.number = b.kind.number) && decide (a.subject < b.subject))

/-- A flag set in the notice set; a flag already pending stays the one flag (R196). -/
def insertNotice (n : Notice) : List Notice → List Notice
  | [] => [n]
  | m :: rest => if n.before m then n :: m :: rest else if n = m then m :: rest else m :: insertNotice n rest

/-- A block raises a notice (R196). -/
def State.raise (s : State) (k : NoticeKind) (subject : Nat) : State := s.setNotices (insertNotice ⟨k, subject⟩ s.port.notices)

/-- An answer placed at the tail of the answer queue, which never holds more than 8 (R189, R190). -/
def State.place (s : State) (a : Answer) : State :=
  if s.port.answers.length < 8 then s.setAnswers (s.port.answers ++ [a]) else s

/-- The answer to a taken request (R188, R190). -/
def State.answer (s : State) (q : Ask) (o : Outcome) (b : Body) : State := s.place ⟨q.tag, q.code, o, b⟩

/-! ### Facts that several blocks ask for -/

/-- The transporter numbers and the slot numbers, in ascending order. -/
def transporters : List Nat := [0, 1, 2, 3]

def slots : List Nat := [0, 1, 2, 3, 4, 5, 6, 7]

/-- Whether a transporter is enrolled (R129). -/
def State.enrolled (s : State) (t : Nat) : Bool := (s.train t).isSome

/-- The enrolled transporters, in ascending number. -/
def State.enrolledList (s : State) : List Nat := transporters.filter s.enrolled

/-- The recorded position of an enrolled transporter. -/
def State.position (s : State) (t : Nat) : Option Nat := (s.train t).map (·.position)

/-- Whether a transporter's condition is `c`. -/
def State.hasCondition (s : State) (t : Nat) (c : Condition) : Bool :=
  match s.train t with
  | some r => decide (r.condition = c)
  | none => false

/-- Whether the array hold is active (R164). -/
def HoldSources.active (h : HoldSources) : Bool := h.line || h.desk || h.wayside

def State.holdActive (s : State) : Bool := s.guards.hold.active

/-- Whether radio quiet is pending or in force (R129). -/
def State.quietOn (s : State) : Bool := decide (s.polls.quiet ≠ .off)

/-- Whether transporter `t` holds segment `n`. -/
def State.holds (s : State) (t n : Nat) : Bool := decide ((s.seg n).holder = some t)

/-- The segments held by a transporter, in ascending number. -/
def State.holdings (s : State) (t : Nat) : List Nat := (Table.keys s.core.segs).filter (s.holds t)

/-- Whether a fence's range contains a segment (R158). -/
def Fence.contains (f : Fence) (n : Nat) : Bool := decide (f.base ≤ n) && decide (n < f.base + f.size)

/-- A segment's fence count: the number of SET fences whose range contains it (R158). -/
def State.fenceCount (s : State) (n : Nat) : Nat :=
  ([0, 1].filter fun k => match s.fence k with | some f => f.contains n | none => false).length

/-- Whether a segment is declared as a junction (R1). -/
def State.isJunction (s : State) (n : Nat) : Bool :=
  match s.decl n with
  | some d => decide (d.kind = .junction)
  | none => false

/-- The number of declared segments (R6). -/
def State.segmentCount (s : State) : Nat := s.layout.decls.length

/-- The number of declared junctions (R7). -/
def State.junctionCount (s : State) : Nat :=
  (s.layout.decls.filter fun e => match e.2 with | some d => decide (d.kind = .junction) | none => false).length

/-! ### Orders and their routes -/

/-- Live in every state other than ENDED (R64). -/
def Order.live (o : Order) : Bool := decide (o.state ≠ .ended)

/-- The order's whole route as far as its extension end: leg 1, and leg 2 of a refuge that is resumed (R71, R88). -/
def Order.route (o : Order) : List RoutePos :=
  o.leg1 ++ (if o.kind = .refuge ∧ o.resumed = true then o.leg2 else [])

/-- The place in the route of a leg and a position in it. -/
def Order.index (o : Order) (p : Place) : Nat := if p.leg = 1 then p.pos else o.leg1.length + p.pos

/-- The leg and position of a place in the route. -/
def Order.placeOf (o : Order) (i : Nat) : Place := if i < o.leg1.length then ⟨1, i⟩ else ⟨2, i - o.leg1.length⟩

/-- The segment at the cursor. -/
def Order.cursorSegment (o : Order) : Option Nat := (o.route[o.index o.cursor]?).map (·.segment)

/-- The positions after the cursor up to the extension end (R71, R88). -/
def Order.beyond (o : Order) : List RoutePos := o.route.drop (o.index o.cursor + 1)

/-- The order's head: the position after the claim point (R71). -/
def Order.headPos (o : Order) : Option RoutePos := o.route[o.index o.claim + 1]?

/-- The dwell: the last segment of leg 1 (R88). -/
def Order.dwell (o : Order) : Option Nat := (o.leg1.getLast?).map (·.segment)

/-- The active order of a transporter, with its slot (R65). -/
def State.active (s : State) (t : Nat) : Option (Nat × Order) :=
  match (s.orderRefs t).active with
  | some slot => (s.order slot).map fun o => (slot, o)
  | none => none

/-- The refuge of a divert that is STARTING for a transporter (R93). -/
def State.startingDivert (s : State) (t : Nat) : Option Nat :=
  slots.find? fun k => match s.order k with
    | some o => decide (o.transporter = t) && decide (o.state = .starting)
    | none => false

/-- A transporter's route ahead: the positions after its active order's cursor, or none while its recorded position is not the segment at the
cursor (R71). -/
def State.routeAhead (s : State) (t : Nat) : List RoutePos :=
  match s.active t with
  | some (_, o) => if o.cursorSegment = s.position t ∧ o.cursorSegment ≠ none then o.beyond else []
  | none => []

/-- The positions after the cursor of a transporter's active order, wherever the transporter stands (assumption 13). -/
def State.trackAhead (s : State) (t : Nat) : List RoutePos :=
  match s.active t with
  | some (_, o) => o.beyond
  | none => []

/-- The held-ahead count: the positions of the transporter's route ahead whose segment it holds without a leaving mark (R23, R32). A segment still held
with that mark counts from its grant by test 1 of R24 (assumption 35), and one that the route ahead names in both legs counts at each place
(assumption 43). -/
def State.heldAhead (s : State) (t : Nat) : Nat :=
  ((s.routeAhead t).filter fun p => s.holds t p.segment && !(s.seg p.segment).leaving).length

/-- The lowest-numbered free slot, EMPTY or ENDED (R64, R70). -/
def State.freeSlot (s : State) : Option Nat :=
  slots.find? fun k => match s.order k with
    | some o => !o.live
    | none => true

/-- The slots of the live orders of a transporter, in ascending number (R87). -/
def State.liveSlots (s : State) (t : Nat) : List Nat :=
  slots.filter fun k => match s.order k with
    | some o => decide (o.transporter = t) && o.live
    | none => false

/-! ### Pads -/

/-- Whether a pad is declared (R104). -/
def State.padDeclared (s : State) (p : Nat) : Bool := decide ((s.pad p).state ≠ .undeclared)

/-- The coupling set: the pads with a transfer in progress, and the SEATED pads whose coupling is QUEUED or SENT (R111). -/
def State.couplingSet (s : State) : List Nat :=
  (Table.keys s.transfer.pads).filter fun p =>
    (s.transferAt p).isSome || (decide ((s.pad p).state = .seated) && decide ((s.pad p).coupling ≠ .none))

/-- The transfer a transporter has in progress, with its pad (R114). -/
def State.transferOf (s : State) (t : Nat) : Option (Nat × TransferRec) :=
  s.transfer.transfers.findSome? fun e => match e.2 with
    | some r => if r.transporter = t then some (e.1, r) else none
    | none => none

/-- A telescope placed (R105). When it becomes ON-PAD or ON-TRANSPORTER its last-occupant mark is cleared at every pad that has it. -/
def State.placeTelescope (s : State) (x : Nat) (p : Placement) : State :=
  let s := s.setPlacement x p
  match p with
  | .unplaced => s
  | _ =>
    { s with transfer :=
        { s.transfer with pads :=
            Table.mapRecords PadRec.undeclared (fun _ r => if r.lastOccupant = some x then { r with lastOccupant := none } else r) s.transfer.pads } }

end Sys2Proof.Machine
end

