-- ==== Sys2Proof/Machine/Bodies.lean ====
section
/-!
DEFINITION. Machine/Bodies.lean: the bytes of an answer's body (R187, R188).

A field is carried as R187 and R188 say: a number as its value, a value of a named list as its place in the list of the rule that owns it, a list as
a count and its elements, a time left in two bytes, a set as a bit set. What they leave open is a free value, field by field (assumption 7).
-/

namespace Sys2Proof.Machine

/-! ### Codes: the place of a value in the list of its owning rule -/

/-- The place of a sensor state (R18). -/
def sensorCode : SensorState → Nat
  | .unknown => 0
  | .clear => 1
  | .occupied => 2

/-- The place of a withdrawing mark (R18). -/
def withdrawingCode : Option Disposition → Nat
  | none => 0
  | some .keep => 1
  | some .release => 2

/-- The place of a switch position (R46). -/
def positionCode : SwitchPosition → Nat
  | .normal => 0
  | .reverse => 1
  | .moving => 2
  | .unknown => 3
  | .faulted => 4

/-- The place of a setting among the switch positions (R46). -/
def settingCode : SwitchSetting → Nat
  | .normal => 0
  | .reverse => 1

/-- The place of an operation's phase (R46). -/
def phaseCode : Phase → Nat
  | .queued => 0
  | .sent => 1

/-- The place of an order's state (R64). -/
def orderStateCode : OrderState → Nat
  | .starting => 0
  | .running => 1
  | .suspended => 2
  | .dwelling => 3
  | .arrived => 4
  | .transfer => 5
  | .cancelling => 6
  | .failed => 7
  | .pending => 8
  | .ended => 9

/-- The place of a failure cause (R64). -/
def failureCode : FailureCause → Nat
  | .identity => 0
  | .padFault => 1
  | .timeout => 2

/-- The place of an order's outcome (R64). -/
def orderOutcomeCode : OrderOutcome → Nat
  | .done => 0
  | .cancelled => 1
  | .failed => 2
  | .void => 3

/-- The place of a pad's state (R104). -/
def padStateCode : PadState → Nat
  | .undeclared => 0
  | .vacant => 1
  | .inbound => 2
  | .seated => 3
  | .anchored => 4
  | .releasing => 5
  | .barred => 6
  | .unsettled => 7

/-- The place of a coupling (R104). -/
def couplingCode : Coupling → Nat
  | .none => 0
  | .queued => 1
  | .sent => 2

/-- The place of a transfer's kind (R112). -/
def transferKindCode : TransferKind → Nat
  | .lift => 0
  | .setDown => 1

/-- The place of a condition (R129). -/
def conditionCode : Condition → Nat
  | .normal => 0
  | .stalled => 1
  | .lost => 2
  | .astray => 3

/-- The place of a ceiling (R19). -/
def ceilingCode : Ceiling → Nat
  | .creep => 0
  | .loaded => 1
  | .travel => 2

/-- The place of a confirmation state (R19). -/
def confirmCode : Confirm → Nat
  | .none => 0
  | .awaitingPoll => 1
  | .awaitingReply => 2

/-- The place of a quiet state (R129). -/
def quietCode : QuietState → Nat
  | .off => 0
  | .pending => 1
  | .inForce => 2

/-- The place of a link state (R170). -/
def linkCode : LinkState → Nat
  | .live => 0
  | .silent => 1

/-- The place of a pause state (R170). -/
def pauseCode (asserted : Bool) : Nat := if asserted then 0 else 1

/-- The place of a kind of object (R155). -/
def objectCode : ObjectKind → Nat
  | .segment => 0
  | .pad => 1

/-- The place of a reason among the tests of R10, where it is one of them. -/
def layoutCode : LayoutReason → Option Nat
  | .undeclaredNeighbour => some 0
  | .noSuchEnd => some 1
  | .notReciprocal => some 2
  | .doubleLink => some 3
  | .spurEnds => some 4
  | .empty => none

/-- The place of a no or yes (R88, R129), or of a mark that is clear or set (R18). -/
def yesCode (v : Bool) : Nat := if v then 1 else 0

/-- The place of a route fault in R17's list, where it stands there. -/
def routeFaultCode : RouteFault → Option Nat
  | .bounds => some 0
  | .length => some 1
  | .stretch => some 2
  | .undeclared => some 3
  | .repeated => some 4
  | .notLinked => some 5
  | .reversal => some 6
  | _ => none

/-! ### Pieces -/

/-- A flag as the bit of a byte. -/
def flagBit (v : Bool) (bit : Nat) : Nat := if v then 2 ^ bit else 0

/-- A number in two bytes, the most significant first (R187). -/
def twoBytes (n : Nat) : List Byte := [byteOf (n / 256), byteOf (n % 256)]

/-- A set of numbers as a bit set, the lowest number in the least significant bit (R188). -/
def bitSet (ns : List Nat) : Nat := (ns.map fun n => 2 ^ n).sum

/-- A list of varying length as a count byte and its elements (R187). -/
def listBytes (ns : List Nat) : List Byte := byteOf ns.length :: ns.map byteOf

/-- A piece that the manual leaves open, in `w` bytes. -/
def openBytes (w : Nat) (f : OpenField) : List Byte := (List.range w).map (Config.openByte f)

/-- An absent field, in at most `w` bytes. -/
def absentBytes (w : Nat) (f : AbsentField) : List Byte := openBytes (min w (Config.absentLength f)) (.absent f)

/-- A number in one byte, or absent. -/
def numberOr (f : AbsentField) : Option Nat → List Byte
  | some n => [byteOf n]
  | none => absentBytes 1 f

/-- A grant map's two sets as bit sets of 24 and 16 bits (R154, R188). -/
def grantBytes (m : GrantMap) : List Byte :=
  byteOf (bitSet m.pads / 65536) :: (twoBytes (bitSet m.pads % 65536) ++ twoBytes (bitSet m.segments))

/-- A hold-source set as a bit set of LINE, DESK, WAYSIDE (R164, assumption 21). -/
def holdByte (h : HoldSources) : Byte := byteOf (flagBit h.line 0 + flagBit h.desk 1 + flagBit h.wayside 2)

/-- A link: the neighbour and the end; a neighbour byte of 255 marks it absent (R187). -/
def shownLink : Option Link → List Byte
  | some l => [byteOf l.neighbour, endByte l.farEnd]
  | none => 255#8 :: openBytes 1 .disregarded

/-- A declaration, or the kind UNDECLARED (R1, R199). -/
def declBytes : Option SegDecl → List Byte
  | none => openBytes 1 .undeclared
  | some d =>
    let links := shownLink d.first ++ shownLink d.second ++ (if d.kind = .junction then shownLink d.third else [])
    let rest := if d.kind = .junction then [restByte d.rest] else []
    kindByte d.kind :: (links ++ [speedByte d.speed, byteOf d.guard] ++ rest)

/-- A segment's dynamic record (R18, R199). -/
def dynBytes (r : SegDyn) : List Byte :=
  numberOr .holder r.holder ++ listBytes r.queue
    ++ [byteOf (sensorCode r.sensor), byteOf (yesCode r.leaving), byteOf (withdrawingCode r.withdrawing)]

/-- An operation with its target and prior position or its origin, and its phase (R46, R48). -/
def operationBytes : Option Operation → List Byte
  | none => 0#8 :: absentBytes 1 .operationPhase
  | some op =>
    (match op.request with
      | .throw target prior => [1#8, byteOf (settingCode target), byteOf (positionCode prior)]
      | .prove .rotation => [2#8, 0#8]
      | .prove .recovery => [2#8, 1#8]) ++ [byteOf (phaseCode op.phase)]

/-- The Junction Controller's record (R48). -/
def junctionBytes (x : JunctionReading) : List Byte :=
  byteOf (positionCode x.record.position) :: (operationBytes x.record.operation
    ++ (match x.record.hold with
      | .running _ => 0#8 :: twoBytes (x.holdLeft.getD 0)
      | .expired => 1#8 :: absentBytes 2 .timeLeft)
    ++ listBytes x.record.waiters)

/-- A transfer in progress at a pad (R104). -/
def transferBytes (x : TransferReading) : List Byte :=
  byteOf (transferKindCode x.kind) :: (openBytes 1 (.phase x.phase) ++ [byteOf x.transporter] ++ twoBytes x.timeLeft ++ openBytes 1 (.mark x.suspended))

/-- A pad's record and the transfer in progress there (R104). The confirmations are a bit set of TRANSPORTER, STATION (assumption 21). -/
def padBytes (p : Nat) (r : PadRec) (x : Option TransferReading) : List Byte :=
  [byteOf p, byteOf (p / 8)]
    ++ (if r.state = .undeclared then [] else [byteOf r.access, byteOf r.guard])
    ++ [byteOf (padStateCode r.state)]
    ++ (if r.state = .undeclared then [] else
        numberOr .occupant r.occupant ++ numberOr .expected r.expected ++ numberOr .claim r.claim ++ numberOr .lastOccupant r.lastOccupant
          ++ (if x.isSome then [byteOf (flagBit r.confTransporter 0 + flagBit r.confStation 1)] else absentBytes 1 .confirmations)
          ++ (if r.state = .seated then [byteOf (couplingCode r.coupling)] else absentBytes 1 .coupling))
    ++ (match x with
      | some y => transferBytes y
      | none => [])

/-- A load: NONE, a telescope or UNVERIFIED, and the telescope's number (R106, R187). -/
def shownLoad : Load → List Byte
  | .none => 0#8 :: openBytes 1 .disregarded
  | .telescope x => [1#8, byteOf x]
  | .unverified => 2#8 :: openBytes 1 .disregarded

/-- An enrolled transporter's record and what the other blocks give of it (R129, R131). -/
def trainBytes (x : TransporterReading) : List Byte :=
  let r := x.record
  [1#8, byteOf r.position, byteOf (yesCode r.atRest), byteOf (yesCode r.inMotion), byteOf (conditionCode r.condition), byteOf r.missCount]
    ++ (match x.progressLeft with
      | some n => 1#8 :: twoBytes n
      | none => 0#8 :: absentBytes 2 .timeLeft)
    ++ [byteOf r.grace, byteOf r.lastSent, byteOf (yesCode r.quietStand)]
    ++ (match x.run with
      | some y => [byteOf y.limit, byteOf (ceilingCode y.ceiling), byteOf (confirmCode y.confirm)]
      | none => [])
    ++ (match x.load with
      | some l => shownLoad l
      | none => [])
    ++ numberOr .activeOrder x.refs.active ++ listBytes x.refs.stack ++ numberOr .pendingDivert x.refs.pendingDivert
    ++ openBytes 1 (.mark x.pollOutstanding)

/-- A head cause, with the segment that CLAIMING names (R64). -/
def headBytes : HeadCause → List Byte
  | .none => [0#8]
  | .claiming n => [1#8, byteOf n]
  | .cycle => [2#8]
  | .fenced => [3#8]
  | .intrusion => [4#8]
  | .switch => [5#8]
  | .sensor => [6#8]

/-- A finish, absent for a refuge (R64, R187). -/
def shownFinish : Option Finish → List Byte
  | some .none => 0#8 :: openBytes 1 .disregarded
  | some (.lift p) => [1#8, byteOf p]
  | some (.setDown p) => [2#8, byteOf p]
  | none => absentBytes 2 .finish

/-- Part 0 of an order's record (R64, R88, R200). -/
def orderBytes (x : OrderReading) : List Byte :=
  [byteOf x.slot, byteOf x.transporter, orderKindByte x.kind]
    ++ shownFinish x.finish ++ numberOr .dwell x.dwell
    ++ [byteOf x.cursor.leg, byteOf x.cursor.pos, byteOf x.claim.leg, byteOf x.claim.pos]
    ++ headBytes x.head ++ [byteOf (orderStateCode x.state)]
    ++ numberOr .failure (x.failure.map failureCode) ++ numberOr .outcome (x.outcome.map orderOutcomeCode)
    ++ numberOr .resumed (x.resumed.map yesCode)
    ++ [byteOf x.positions1, byteOf x.positions2, byteOf x.heldAhead] ++ numberOr .headSegment x.headSegment

/-- A position of a leg: the segment, and a byte that packs the ends and the needed position (R200). -/
def positionBytes (x : RoutePos) : List Byte := byteOf x.segment :: openBytes 1 (.packing x.entering x.leaving x.needed)

/-- One pad of a sweep (R201). -/
def summaryBytes (x : PadSummary) : List Byte :=
  [byteOf x.pad, byteOf (padStateCode x.state)] ++ numberOr .telescope x.telescope ++ numberOr .claim x.claim
    ++ [byteOf (couplingCode x.coupling)] ++ openBytes 1 (.mark x.inTransfer)

/-- A fence record in two bytes (R158, R202). -/
def fenceBytes : Option Fence → List Byte
  | some f => [byteOf f.base, byteOf f.size]
  | none => openBytes 2 .emptyFence

/-- The parameter values in parameter-number order, two bytes each (R187, R203). -/
def shownParams (p : Params) : List Byte :=
  [p.lead, p.throwTimeout, p.holdTime, p.proveInterval, p.transferTimeout, p.couplingTimeout, p.replyWindow, p.pollGap, p.missLimit
  , p.progressTime, p.grace, p.silenceTime, p.attentionLevel].flatMap twoBytes

/-- The body of `read-status` (R202). -/
def statusBytes (x : StatusReading) : List Byte :=
  byteOf (yesCode x.layoutClosed) :: openBytes 1 (.cause x.cause)
    ++ [holdByte x.hold, byteOf (quietCode x.quiet), byteOf x.liveOrders, byteOf x.segments, byteOf x.junctions, byteOf x.pads
      , byteOf x.transporters, byteOf x.couplingSet, byteOf x.inQueue, byteOf x.outQueue]
    ++ [byteOf (pauseCode x.pause), byteOf (linkCode x.link), byteOf x.requests, byteOf x.answers]
    ++ x.maps.flatMap grantBytes ++ x.fences.flatMap fenceBytes ++ wordBytes x.enables ++ shownParams x.params

/-! ### Bodies -/

/-- The fields of a body, one after another (R188). The four sticky flags take one byte (R194, assumption 7). -/
def fieldBytes : Body → List Byte
  | .empty => []
  | .failedTest n => [byteOf n]
  | .failedFinishTest n => openBytes 1 (.finishTest n)
  | .segmentCounts a c => [byteOf a, byteOf c]
  | .layoutFault n e x => numberOr .faultSegment n ++ numberOr .faultEnd (e.map fun x => (endByte x).toNat) ++ (match layoutCode x with
      | some c => [byteOf c]
      | none => openBytes 1 .emptyLayout)
  | .routeFault leg p x =>
    [byteOf leg, byteOf p] ++ (match routeFaultCode x with
      | some c => [byteOf c]
      | none => openBytes 1 (.fault x))
  | .deniedClass => openBytes 1 .deniedClass
  | .deniedObject k n => [byteOf (objectCode k), byteOf n]
  | .orderAccepted slot n => [byteOf slot, byteOf n]
  | .orderState x => [byteOf (orderStateCode x)]
  | .refuge slot a c x => [byteOf slot, byteOf a, byteOf c, byteOf (orderStateCode x)]
  | .refugePending slot a c => [byteOf slot, byteOf a, byteOf c]
  | .headCause c => headBytes c
  | .padCount n => [byteOf n]
  | .quiet x none => [byteOf (quietCode x)]
  | .quiet x (some n) => [byteOf (quietCode x), byteOf n]
  | .grants m => grantBytes m
  | .fenceSet base size turned held => [byteOf base, byteOf size, byteOf turned, byteOf held]
  | .fenceCleared base size n => [byteOf base, byteOf size, byteOf n]
  | .holdSources h => [holdByte h]
  | .stickyFlags f => openBytes 1 (.flags f)
  | .notice k n left => [byteOf k, byteOf n] ++ (if left < 256 then [byteOf left] else openBytes 1 (.count left))
  | .enables e => wordBytes e
  | .parameter n old new => byteOf n :: (twoBytes old ++ twoBytes new)
  | .waysideRefusal x => openBytes 1 (.wayside x)
  | .segment x =>
    declBytes x.declaration ++ dynBytes x.dynamic ++ [byteOf x.fenceCount] ++ (match x.junction with
      | some y => junctionBytes y
      | none => [])
  | .pad p r x => padBytes p r x
  | .transporter none => [0#8]
  | .transporter (some x) => trainBytes x
  | .orderEmpty => openBytes 1 .emptySlot
  | .order x => orderBytes x
  | .orderPositions leg first xs => [byteOf leg, byteOf first, byteOf xs.length] ++ xs.flatMap positionBytes
  | .telescope (.onPad p) _ => [0#8, byteOf p]
  | .telescope (.onTransporter t) _ => [1#8, byteOf t]
  | .telescope .unplaced p => 2#8 :: numberOr .lastPad p
  | .sweep xs => byteOf xs.length :: xs.flatMap summaryBytes
  | .status x => statusBytes x

/-- The bytes of a body: 0 to 89 (R188). No body that the part composes is longer. -/
def bodyBytes (b : Body) : List Byte := (fieldBytes b).take 89

end Sys2Proof.Machine
end

