-- ==== Sys2Proof/Machine/Flags.lean ====
section
/-!
DEFINITION. Machine/Flags.lean: the sticky flags, the summary flags, ATTENTION, and the frames the part sends on the control link (R188, R192 to
R195).
-/

namespace Sys2Proof.Machine

/-! ### Flags -/

/-- OVERRUN set (R194). -/
def State.setOverrun (s : State) : State := s.setFlags { s.port.flags with overrun := true }

/-- FRAMING set (R194). -/
def State.setFraming (s : State) : State := s.setFlags { s.port.flags with framing := true }

/-- CHECK set (R194). -/
def State.setCheck (s : State) : State := s.setFlags { s.port.flags with check := true }

/-- The summary flags as they stand (R193). -/
def State.summary (s : State) : SummaryFlags :=
  { hold := s.holdActive
    quiet := s.quietOn
    notice := !s.port.notices.isEmpty
    overrun := s.port.flags.overrun
    framing := s.port.flags.framing
    check := s.port.flags.check
    restarted := s.port.flags.restarted
    layoutOpen := !s.layout.closed }

/-- Whether a notice kind is enabled: kind k in bit k − 1 (R198). -/
def noticeEnabled (enables : Word16) (k : NoticeKind) : Bool := enables.getLsbD (k.number - 1)

/-- When ATTENTION is asserted (R195). -/
def State.wantsAttention (s : State) : Bool :=
  decide (s.params.attentionLevel ≤ s.port.answers.length) || s.port.notices.any fun n => noticeEnabled s.port.enables n.kind

/-- The ATTENTION line decided afresh (R195). -/
def State.decideAttention (s : State) : State := { s with port := { s.port with attention := s.wantsAttention } }

/-! ### Frames to the host -/

/-- The summary flags byte (R188). -/
def summaryByte (f : SummaryFlags) : Byte :=
  byteOf (flagBit f.hold 7 + flagBit f.quiet 6 + flagBit f.notice 5 + flagBit f.overrun 4 + flagBit f.framing 3 + flagBit f.check 2
    + flagBit f.restarted 1 + flagBit f.layoutOpen 0)

/-- The code of an outcome (R192). -/
def outcomeCode : Outcome → Nat
  | .done => 0
  | .accepted => 1
  | .pending => 2
  | .refusedState => 3
  | .refusedRange => 4
  | .refusedRoute => 5
  | .refusedLayout => 6
  | .denied => 7
  | .noSlot => 8
  | .malformed => 9
  | .unknownRequest => 10

/-- The frame of an answer with the summary flags composed for its window (R188). -/
def answerFrame (a : Answer) (f : SummaryFlags) : List Byte :=
  let body := bodyBytes a.body
  withCheck (byteOf (body.length + 7) :: byteOf a.tag :: byteOf a.code :: byteOf (outcomeCode a.outcome) :: summaryByte f :: body)

/-- The bytes of the frame fixed at a window's beginning; the null frame is a 0 and the summary flags (R188). -/
def sentBytes (x : SentFrame) : List Byte :=
  match x.answer with
  | some a => answerFrame a x.flags
  | none => [0#8, summaryByte x.flags]

end Sys2Proof.Machine
end

