-- ==== Sys2Proof/Machine/OutQueue.lean ====
section
/-!
DEFINITION. Machine/OutQueue.lean: the wayside out-queue and the transmitter (R178 to R182).
-/

namespace Sys2Proof.Machine

/-- The object a message is for: a junction's number or a pad's. -/
inductive OutObject where
  | junction (j : Nat)
  | pad (p : Nat)
  deriving DecidableEq, Repr

/-- The object of an outgoing message. -/
def outObject : OutMessage → OutObject
  | .throw j _ => .junction j
  | .prove j => .junction j
  | .couple p => .pad p
  | .uncouple p => .pad p

/-- Whether THROW and UNCOUPLE messages are kept from transmission: while the array hold is active, and at its end until step 5 of R169. -/
def State.transmissionBarred (s : State) : Bool := s.holdActive || s.holdEnding

/-- Whether an entry may be transmitted: under the array hold only COUPLE and PROVE may (R169, R180, R181). -/
def State.eligible (s : State) : OutMessage → Bool
  | .throw _ _ => !s.transmissionBarred
  | .uncouple _ => !s.transmissionBarred
  | .prove _ => true
  | .couple _ => true

/-- The Junction Controller is told that the operation of junction `j` has been transmitted (R50, R56). -/
def State.operationSent (s : State) (j : Nat) : State :=
  match s.junction j with
  | some r =>
    match r.operation with
    | some op => s.setJunction j (some { r with operation := some { op with phase := .sent, timer := .running s.params.throwTimeout } })
    | none => s
  | none => s

/-- The owner of a message is told that it has been transmitted: an operation timer or a coupling timer starts; an UNCOUPLE has no timer of its
own (R50, R56, R115, R122, R180). -/
def State.transmitted (s : State) (m : OutMessage) : State :=
  match m with
  | .throw j _ => s.operationSent j
  | .prove j => s.operationSent j
  | .couple p =>
    let r := s.pad p
    if r.state = .seated then s.setPad p { r with coupling := .sent, couplingTimer := .running s.params.couplingTimeout } else s
  | .uncouple _ => s

/-- A list without the first entry that satisfies `p`. -/
def eraseFirst {α : Type} (p : α → Bool) : List α → List α
  | [] => []
  | x :: rest => if p x then rest else x :: eraseFirst p rest

/-- The commit: an IDLE transmitter takes the oldest eligible entry and its owner is told (R180). -/
def State.commit (s : State) : State :=
  match s.wayside.transmitter with
  | .sending _ => s
  | .idle =>
    match s.wayside.outQueue.find? s.eligible with
    | none => s
    | some m => ((s.setOutQueue (eraseFirst s.eligible s.wayside.outQueue)).setTransmitter (.sending m)).transmitted m

/-- Where a message handed to the out-queue is placed (R178). -/
def placeOut (q : List OutMessage) (m : OutMessage) : List OutMessage :=
  if q.any fun x => decide (outObject x = outObject m) then
    match m with
    | .prove _ => q
    | _ => q.map fun x => if outObject x = outObject m then m else x
  else q ++ [m]

/-- A message handed to the Wayside Port is placed and then considered for transmission (R178). -/
def State.handOut (s : State) (m : OutMessage) : State := (s.setOutQueue (placeOut s.wayside.outQueue m)).commit

/-- An owner takes back the untransmitted entries that satisfy `p`; the others keep their order (R179). -/
def State.takeBack (s : State) (p : OutMessage → Bool) : State := s.setOutQueue (s.wayside.outQueue.filter fun m => !p m)

end Sys2Proof.Machine
end

