-- ==== Sys2Proof/Machine/Junctions.lean ====
section
/-!
DEFINITION. Machine/Junctions.lean: the Junction Controller: throws, rest, proving, detections, faults and recovery (R46 to R62).
-/

namespace Sys2Proof.Machine

/-- The recorded position that a setting proves. -/
def settingPosition : SwitchSetting → SwitchPosition
  | .normal => .normal
  | .reverse => .reverse

/-- The recorded position that a detection names, where it names one. -/
def detectedPosition : DetectionValue → Option SwitchPosition
  | .none => none
  | .normal => some .normal
  | .reverse => some .reverse

/-- The setting of a rest position (R1). -/
def restSetting : RestPosition → Option SwitchSetting
  | .normal => some .normal
  | .reverse => some .reverse
  | .none => none

/-- Whether a position is neither MOVING nor FAULTED. -/
def settled (p : SwitchPosition) : Bool := decide (p ≠ .moving) && decide (p ≠ .faulted)

/-- Whether the operation is a PROVE of origin ROTATION (R55). -/
def isRotation (op : Option Operation) : Bool :=
  match op with
  | some ⟨.prove .rotation, _, _⟩ => true
  | _ => false

/-- Whether the operation is a PROVE of origin RECOVERY (R61). -/
def isRecovery (op : Option Operation) : Bool :=
  match op with
  | some ⟨.prove .recovery, _, _⟩ => true
  | _ => false

/-- Whether the Core counts a junction as faulted: FAULTED, or until its recovery prove has recorded a position (R42, R44, R61). A restart that forgets
the prove ends it (R63, assumption 53). -/
def JunctionRec.countsFaulted (r : JunctionRec) : Bool := decide (r.position = .faulted) || isRecovery r.operation

/-- The holder's limit is recomputed, where the segment is held (R37, R48). -/
def State.tellHolder (s : State) (j : Nat) : State :=
  match (s.seg j).holder with
  | some t => s.emit [.recompute t]
  | none => s

/-- The prove interval timer starts when a rotation PROVE ends (R55). -/
def State.rotationEnds (s : State) (op : Option Operation) : State :=
  if isRotation op then s.setInterval (.running s.params.proveInterval) else s

/-- The needed position that a transporter's route ahead gives through a junction it holds: at the first place that names it, wherever the transporter
stands (R15, R49, assumption 46). -/
def State.neededAt (s : State) (t j : Nat) : Option SwitchSetting :=
  ((s.routeAhead t).find? fun x => decide (x.segment = j)).bind (·.needed)

/-- A throw queued to a target: MOVING, with the position recorded at that moment as the prior position; a rotation PROVE still queued gives its
place to the throw and ends (R50). -/
def State.queueThrow (s : State) (j : Nat) (target : SwitchSetting) : State :=
  match s.junction j with
  | none => s
  | some r =>
    let s := s.rotationEnds r.operation
    let s := s.setJunction j (some
      { r with position := .moving, operation := some ⟨.throw target r.position, .queued, .stopped⟩, untrusted := false, underHolder := false })
    (s.handOut (.throw j target)).tellHolder j

/-- Whether no PROVE stands in a throw's way: none in phase SENT and none of origin RECOVERY (R49). -/
def proveAllowsThrow (op : Option Operation) : Bool :=
  match op with
  | some ⟨.prove .rotation, .queued, _⟩ => true
  | some ⟨.prove _, _, _⟩ => false
  | _ => true

/-- The throw check of a junction (R49). -/
def State.throwCheck (s : State) (j : Nat) : State :=
  match (s.seg j).holder, s.junction j with
  | some t, some r =>
    match s.neededAt t j with
    | some target =>
      if (s.seg j).withdrawing ≠ some .release ∧ settled r.position = true ∧ r.position ≠ settingPosition target
          ∧ proveAllowsThrow r.operation = true ∧ (s.seg j).sensor = .clear then s.queueThrow j target
      else s
    | none => s
  | _, _ => s

/-- The rest decision of a junction (R54). -/
def State.restDecision (s : State) (j : Nat) : State :=
  match s.junction j, s.decl j with
  | some r, some d =>
    match restSetting d.rest with
    | some target =>
      if (s.seg j).holder = none ∧ (s.seg j).queue = [] ∧ r.hold = .expired ∧ r.operation = none ∧ settled r.position = true
          ∧ r.position ≠ settingPosition target ∧ (s.seg j).sensor = .clear then s.queueThrow j target
      else s
    | none => s
  | _, _ => s

/-- A throw still QUEUED is withdrawn: its entry leaves the out-queue and the prior position stands again. The Core is told, and the throw check and
the rest decision follow (R51). -/
def State.withdrawThrow (s : State) (j : Nat) : State :=
  match s.junction j with
  | some r =>
    match r.operation with
    | some ⟨.throw _ prior, .queued, _⟩ =>
      let s := s.takeBack fun m => decide (outObject m = .junction j)
      let s := s.setJunction j (some { r with position := prior, operation := none })
      (s.tellHolder j).emit [.throwCheck j, .restDecision j]
    | _ => s
  | none => s

/-- The Controller is told of a release of a junction: the hold starts, or with a hold time of 0 expires at once, and a queued throw is withdrawn
(R28, R51, R53). The throw check and the rest decision of the withdrawal stand before what the release goes on to do (assumption 18). -/
def State.junctionReleased (s : State) (j : Nat) : State :=
  match s.junction j with
  | some r =>
    let hold := if s.params.holdTime = 0 then JunctionHold.expired else JunctionHold.running s.params.holdTime
    (s.setJunction j (some { r with hold := hold, underHolder := false })).withdrawThrow j
  | none => s

/-- The Controller is told of a grant of a junction: a running hold is cancelled, a queued throw is withdrawn, and a PROVE outstanding keeps the
junction out of the new holder's reach (R33, R51, R53, R57). -/
def State.junctionGranted (s : State) (j : Nat) : State :=
  match s.junction j with
  | some r =>
    let proving := match r.operation with
      | some ⟨.prove _, _, _⟩ => true
      | _ => false
    ((s.setJunction j (some { r with hold := .expired, untrusted := proving, underHolder := false })).withdrawThrow j).emit [.throwCheck j]
  | none => s

/-- A queued throw whose target the holder's route no longer needs is withdrawn (R51). -/
def State.dropUnneededThrow (s : State) (t j : Nat) : State :=
  match s.junction j with
  | some r =>
    match r.operation with
    | some ⟨.throw target _, .queued, _⟩ =>
      if s.neededAt t j = some target ∧ (s.seg j).withdrawing ≠ some .release then s else s.withdrawThrow j
    | _ => s
  | none => s

/-- The route ahead of a transporter, or its active order, has changed: the queued throws of the junctions it holds that its route no longer needs
are withdrawn, and the throw check is made for each, in ascending number (R49, R51, assumption 51). -/
def State.reviewJunctions (s : State) (t : Nat) : State :=
  ((s.holdings t).filter s.isJunction).foldl (fun s j => (s.dropUnneededThrow t j).emit [.throwCheck j]) s

/-- Whether the holder of a segment stands on it. -/
def State.holderOn (s : State) (n : Nat) : Bool :=
  match (s.seg n).holder with
  | some t => decide (s.position t = some n)
  | none => false

/-- A junction enters FAULTED: a queued message is taken back, the operation ends, and the Core is told (R59). Whether its holder stands on it is
remembered (R44). -/
def State.enterFaulted (s : State) (j : Nat) : State :=
  match s.junction j with
  | none => s
  | some r =>
    let queued := match r.operation with
      | some ⟨_, .queued, _⟩ => true
      | _ => false
    let s := if queued then s.takeBack fun m => decide (outObject m = .junction j) else s
    let s := s.rotationEnds r.operation
    let s := s.setJunction j (some { r with position := .faulted, operation := none, untrusted := false, underHolder := s.holderOn j })
    (s.raise .switchFault j).tellHolder j

/-- An operation ends with a position proved: the Core is told, and the throw check and the rest decision follow (R52, R56, R62). -/
def State.operationEnds (s : State) (j : Nat) (position : SwitchPosition) : State :=
  match s.junction j with
  | none => s
  | some r =>
    let s := s.rotationEnds r.operation
    let s := s.setJunction j (some { r with position := position, operation := none, untrusted := false, underHolder := false })
    (s.tellHolder j).emit [.throwCheck j, .restDecision j]

/-- A detection that answers nothing outstanding, checked against the record (R58). -/
def State.unsolicited (s : State) (j : Nat) (r : JunctionRec) (d : DetectionValue) : State :=
  match r.position with
  | .faulted => s
  | .moving =>
    match r.operation with
    | some ⟨.throw _ prior, _, _⟩ => if detectedPosition d = some prior then s else s.enterFaulted j
    | _ => s
  | .unknown =>
    if isRecovery r.operation then s
    else match detectedPosition d with
      | some p => (s.setJunction j (some { r with position := p })).tellHolder j
      | none => s.enterFaulted j
  | p => if detectedPosition d = some p then s else s.enterFaulted j

/-- A DETECTION taken by the Controller (R52, R56, R58, R62). One for a segment without a junction record is discarded. -/
def State.takeDetection (s : State) (j : Nat) (d : DetectionValue) : State :=
  match s.junction j with
  | none => s
  | some r =>
    match r.operation with
    | some ⟨.throw target _, .sent, _⟩ =>
      if detectedPosition d = some (settingPosition target) then s.operationEnds j (settingPosition target) else s.enterFaulted j
    | some ⟨.prove _, .sent, _⟩ =>
      match detectedPosition d with
      | some p => if r.position = .unknown ∨ r.position = p then s.operationEnds j p else s.enterFaulted j
      | none => s.enterFaulted j
    | _ => s.unsolicited j r d

/-- Whether a junction is eligible for the rotation (R55). -/
def State.rotationEligible (s : State) (j : Nat) (r : JunctionRec) : Bool :=
  decide ((s.seg j).holder = none) && settled r.position && r.operation.isNone

/-- The junction the rotation takes next: the first eligible one above the pointer, else the lowest-numbered eligible one (R55). -/
def State.rotationNext (s : State) : Option Nat :=
  let eligible := (Table.keys s.junctions.recs).filter fun j => match s.junction j with
    | some r => s.rotationEligible j r
    | none => false
  match s.junctions.pointer with
  | none => eligible.head?
  | some p => (eligible.find? fun j => decide (p < j)).or eligible.head?

/-- A rotation prove is started, where none is outstanding, the interval timer is stopped and a junction is eligible (R55). -/
def State.rotation (s : State) : State :=
  if s.junctions.interval = .stopped ∧ (s.junctions.recs.all fun e => match e.2 with | some r => !isRotation r.operation | none => true) then
    match s.rotationNext with
    | none => s
    | some j =>
      match s.junction j with
      | none => s
      | some r =>
        let s := s.setJunction j (some { r with operation := some ⟨.prove .rotation, .queued, .stopped⟩ })
        (s.setPointer (some j)).handOut (.prove j)
  else s

/-- The expiry of an operation timer (R52, R56, R62). -/
def State.operationExpiry (s : State) (j : Nat) : State :=
  match s.junction j with
  | some ⟨_, some ⟨_, .sent, .running _⟩, _, _, _, _⟩ => s.enterFaulted j
  | _ => s

/-- The expiry of a junction's hold (R53). -/
def State.holdExpiry (s : State) (j : Nat) : State :=
  match s.junction j with
  | some r =>
    match r.hold with
    | .running _ => (s.setJunction j (some { r with hold := .expired })).emit [.restDecision j]
    | .expired => s
  | none => s

/-- The expiry of the prove interval timer: it stops, and the rotation is tried at the end of the event (R55). -/
def State.intervalExpiry (s : State) : State :=
  match s.junctions.interval with
  | .running _ => s.setInterval .stopped
  | .stopped => s

/-- `clear-switch` (R61). -/
def State.takeClearSwitch (s : State) (q : Ask) (j : Nat) : State :=
  if 127 < j ∨ s.isJunction j = false then s.answer q .refusedRange .empty
  else match s.junction j with
    | none => s.answer q .refusedState .empty
    | some r =>
      if r.position ≠ .faulted then s.answer q .refusedState .empty
      else
        let s := s.setJunction j (some { r with position := .unknown, operation := some ⟨.prove .recovery, .queued, .stopped⟩ })
        let s := (s.handOut (.prove j)).answer q .done .empty
        (s.emit (r.waiters.map fun slot => .represent slot j)).tellHolder j

end Sys2Proof.Machine
end

