-- ==== Sys2Proof/Machine/Interlock.lean ====
section
/-!
DEFINITION. Machine/Interlock.lean: the Interlock Core: claims, releases, serving, tail release, run limits and withdrawal (R18 to R45).
-/

namespace Sys2Proof.Machine

/-! ### Waiting heads -/

/-- An entry of the waiting list, kept in ascending slot number with one entry per slot (R19, R27). -/
def insertWait (e : WaitEntry) : List WaitEntry → List WaitEntry
  | [] => [e]
  | x :: rest => if e.slot < x.slot then e :: x :: rest else if e.slot = x.slot then e :: rest else x :: insertWait e rest

/-- An entry of the fenced set, kept in ascending slot number (R162). -/
def insertFenced (e : FencedEntry) : List FencedEntry → List FencedEntry
  | [] => [e]
  | x :: rest => if e.slot < x.slot then e :: x :: rest else if e.slot = x.slot then e :: rest else x :: insertFenced e rest

/-- Whether an order's head waits at a segment on one of the lists from which it is presented again: the waiting list, the junction's switch
waiters, the fenced set (R27, R60, R162). -/
def State.waitsAt (s : State) (slot n : Nat) : Bool :=
  (s.core.waiting.any fun e => decide (e.slot = slot ∧ e.segment = n))
    || (s.guards.fenced.any fun e => decide (e.slot = slot ∧ e.segment = n))
    || (match s.junction n with | some r => decide (slot ∈ r.waiters) | none => false)

/-- An order's head taken off the waiting list, every list of switch waiters and the fenced set (R26, R60, R76). -/
def State.unlistHead (s : State) (slot : Nat) : State :=
  let s := s.setWaiting (s.core.waiting.filter fun e => decide (e.slot ≠ slot))
  let s := s.setFenced (s.guards.fenced.filter fun e => decide (e.slot ≠ slot))
  { s with junctions :=
      { s.junctions with recs :=
          Table.mapRecords none (fun _ r => r.map fun j => { j with waiters := j.waiters.filter fun k => decide (k ≠ slot) }) s.junctions.recs } }

/-- The segment in whose claimant queue a transporter stands. -/
def State.queuedAt (s : State) (t : Nat) : Option Nat :=
  (s.core.segs.find? fun e => decide (t ∈ e.2.queue)).map (·.1)

/-- The segment for which an order's head waits: named by CLAIMING, or found on the list on which the head waits (R66). -/
def State.headSegment (s : State) (slot : Nat) (o : Order) : Option Nat :=
  match o.head with
  | .none => none
  | .claiming n => some n
  | _ =>
    ((s.core.waiting.find? fun e => decide (e.slot = slot)).map (·.segment)).or
      (((s.guards.fenced.find? fun e => decide (e.slot = slot)).map (·.segment)).or
        (s.junctions.recs.findSome? fun e => match e.2 with
          | some r => if slot ∈ r.waiters then some e.1 else none
          | none => none))

/-! ### The confirmation state and the marks -/

/-- The confirmation state of an enrolled transporter set (R19, R40). -/
def State.setConfirm (s : State) (t : Nat) (c : Confirm) : State :=
  match s.run t with
  | some r => s.setRun t (some { r with confirm := c })
  | none => s

/-- The segments a transporter holds with a withdrawing mark. -/
def State.marked (s : State) (t : Nat) : List Nat := (s.holdings t).filter fun n => (s.seg n).withdrawing.isSome

/-- The segments a transporter holds with a RELEASE mark. -/
def State.markedRelease (s : State) (t : Nat) : List Nat :=
  (s.holdings t).filter fun n => decide ((s.seg n).withdrawing = some .release)

/-- When no withdrawing mark of a transporter remains, its confirmation state becomes NONE (R43). -/
def State.settleConfirm (s : State) (t : Nat) : State := if s.marked t = [] then s.setConfirm t .none else s

/-- Withdrawing marks set on segments a transporter holds; a RELEASE mark stays RELEASE (R38, R39). -/
def State.mark (s : State) (t : Nat) (ns : List Nat) (d : Disposition) : State :=
  ns.foldl (fun s n =>
    let r := s.seg n
    if r.holder = some t ∧ r.withdrawing ≠ some .release then s.setSeg n { r with withdrawing := some d } else s) s

/-- Withdrawing marks made absent, the segments staying held (R41, R42). -/
def State.unmark (s : State) (ns : List Nat) : State :=
  ns.foldl (fun s n => s.setSeg n { s.seg n with withdrawing := none }) s

/-- An event of R72 for a transporter's active order. -/
def State.makeActiveDue (s : State) (t : Nat) : State :=
  match (s.orderRefs t).active with
  | some slot => s.makeDue slot
  | none => s

/-! ### Run limit and speed ceiling -/

/-- Whether a position of a transporter's route is within its reach, its segment being a junction or not (R33). -/
def State.agrees (s : State) (x : RoutePos) : Bool :=
  match s.junction x.segment with
  | none => true
  | some r =>
    !r.untrusted && settled r.position && (match x.needed with | none => true | some p => decide (r.position = settingPosition p))

/-- Whether a transporter stands on a junction that faulted under it: its limit is then its position, and the held segments ahead keep their marks,
until a position is recorded for the junction again or the transporter has left it; the fault counts again for a transporter that rolls back onto
the still FAULTED junction (R44, R58, R59, assumption 30). -/
def State.faultedUnder (s : State) (t : Nat) : Bool :=
  match s.position t with
  | some j => s.holds t j && (match s.junction j with | some r => r.countsFaulted && r.underHolder | none => false)
  | none => false

/-- The conditions that force a transporter's limit to its position (R35), and the fault of the junction on which it stands (R44). -/
def State.forced (s : State) (t : Nat) : Bool :=
  s.holdActive || s.quietOn || !s.hasCondition t .normal || (s.startingDivert t).isSome || s.faultedUnder t
    || (match s.active t with | some (_, o) => decide (o.state ≠ .running) | none => true)

/-- The number of positions of the route ahead that the limit covers (R34, R35). -/
def State.reach (s : State) (t : Nat) : Nat :=
  if s.forced t then 0
  else ((s.routeAhead t).takeWhile fun x => s.holds t x.segment && (s.seg x.segment).withdrawing.isNone && s.agrees x).length

/-- The number of positions of the route ahead that the limit last sent covers: none where it stands at no position of it (R37). Where a refuge's
route ahead names the segment twice, the model takes the first place (assumption 31). -/
def State.sentReach (s : State) (t : Nat) : Nat :=
  match s.train t with
  | some r => match findPlace (fun x => decide (x.segment = r.lastSent)) (s.routeAhead t) with
    | some i => i + 1
    | none => 0
  | none => 0

/-- The segments of the extent of a limit that covers `k` positions of the route ahead (R34). -/
def State.extent (s : State) (t k : Nat) : List Nat :=
  (s.position t).toList ++ ((s.routeAhead t).take k).map (·.segment)

/-- The run limit that covers `k` positions of the route ahead (R34). -/
def State.limitAt (s : State) (t k : Nat) : Nat := (s.extent t k).getLast?.getD 0

/-- Whether a segment is declared CREEP. -/
def State.isCreep (s : State) (n : Nat) : Bool :=
  match s.decl n with
  | some d => decide (d.speed = .creep)
  | none => false

/-- The speed ceiling over the extent of a limit (R36). -/
def State.ceilingAt (s : State) (t k : Nat) : Ceiling :=
  if (s.extent t k).any s.isCreep then .creep
  else match s.load t with
    | some (.telescope _) => .loaded
    | some .unverified => .loaded
    | _ => .travel

/-- Whether a transporter's active order has given its track up: it is CANCELLING, or a divert is STARTING (R39). -/
def State.givenUp (s : State) (t : Nat) : Bool :=
  (match s.active t with | some (_, o) => decide (o.state = .cancelling) | none => false) || (s.startingDivert t).isSome

/-- Whether a cause of disposition RELEASE stands for a transporter (R39). -/
def State.releaseCause (s : State) (t : Nat) : Bool := s.givenUp t || s.hasCondition t .stalled

/-- The segments a transporter holds on its route beyond the first `k` positions ahead. Its own position is none of them, where it has run onto its
route away from the cursor (R38, assumption 13). -/
def State.heldBeyond (s : State) (t k : Nat) : List Nat :=
  (((s.trackAhead t).drop k).map (·.segment)).filter fun n => s.holds t n && decide (s.position t ≠ some n)

/-- The segments a transporter holds ahead without a mark, in the order of the route, where its limit last sent reaches none of them. -/
def State.unsentAhead (s : State) (t : Nat) : List Nat :=
  if 0 < s.sentReach t then [] else (s.heldBeyond t 0).filter fun n => (s.seg n).withdrawing.isNone

/-- Whether a cause of disposition KEEP stands for a marked segment: the hold, quiet, LOST, ASTRAY or a fault under the transporter for every
segment; a junction held ahead that counts as faulted for itself and the segments beyond it (R39, R42, R44). -/
def State.keepCause (s : State) (t n : Nat) : Bool :=
  s.holdActive || s.quietOn || s.hasCondition t .lost || s.hasCondition t .astray || s.faultedUnder t
    || ((s.heldBeyond t 0).dropWhile fun m => !(match s.junction m with | some r => r.countsFaulted | none => false)).contains n

/-- The marks revised by the causes that stand: KEEP marks turn to RELEASE when a RELEASE cause stands, and otherwise those without a standing
cause are made absent (R39, R42). -/
def State.reviseMarks (s : State) (t : Nat) : State :=
  let keeps := (s.holdings t).filter fun n => decide ((s.seg n).withdrawing = some .keep)
  if s.releaseCause t then
    if keeps = [] then s else ((s.mark t keeps .release).setConfirm t .awaitingPoll).emit [.reviewJunctions t]
  else
    let idle := keeps.filter fun n => !s.keepCause t n
    if idle = [] then s else ((s.unmark idle).settleConfirm t).makeActiveDue t

/-- Whether a segment held beyond the limit is released at once where a RELEASE cause stands and no limit sent reaches it: an unmarked one is, but what a
transporter is granted while it is STALLED it holds (R26, R38). A grant leaves a segment without a leaving mark, and of the unmarked track ahead of a
STALLED transporter only what it was granted has none (assumption 14). -/
def State.yieldsAtOnce (s : State) (t n : Nat) : Bool := (s.seg n).withdrawing.isNone && (s.givenUp t || (s.seg n).leaving)

/-- The part of a recomputation that follows the new limit, which covers `k` positions of the route ahead: a withdrawal where the limit last sent
reaches further, else the releases and KEEP marks that need no confirmation (R38). The releases are in the order of the route, the model's choice
(assumption 51). -/
def State.withdraw (s : State) (t k : Nat) : State :=
  let beyond := s.heldBeyond t k
  let giveUp := s.releaseCause t
  let s :=
    if k < s.sentReach t then
      if beyond = [] then s
      else
        let s := (s.mark t beyond (if giveUp then .release else .keep)).setConfirm t .awaitingPoll
        if giveUp then s.emit [.reviewJunctions t] else s
    else if giveUp then s.emit ((beyond.filter (s.yieldsAtOnce t)).map fun n => .release n t)
    else s.mark t (beyond.filter (s.keepCause t)) .keep
  if giveUp then s.emit [.complete t] else s

/-- A transporter's limit and ceiling recomputed (R34 to R39, R42, R44). -/
def State.recompute (s : State) (t : Nat) : State :=
  match s.run t with
  | none => s
  | some _ =>
    let s := s.reviseMarks t
    let k := s.reach t
    match s.run t with
    | none => s
    | some r => (s.setRun t (some { r with limit := s.limitAt t k, ceiling := s.ceilingAt t k })).withdraw t k

/-! ### Releases and serving -/

/-- The claim point of a transporter's active order falls back to the position before a released segment of its claimed track (R75). An order that has
ended is active no more, and its record keeps its claim point (R64, assumption 38). -/
def State.fallBack (s : State) (t n : Nat) : State :=
  match s.active t with
  | none => s
  | some (slot, o) =>
    match findPlace (fun x => decide (x.segment = n)) o.beyond with
    | none => s
    | some i =>
      let at_ := o.index o.cursor + i
      if at_ < o.index o.claim then (s.setOrder slot (some { o with claim := o.placeOf at_ })).makeDue slot else s

/-- Whether R29 may serve a segment. -/
def State.servable (s : State) (n : Nat) : Bool :=
  let r := s.seg n
  r.holder.isNone && !r.queue.isEmpty && decide (s.fenceCount n = 0) && decide (r.sensor = .clear) && !s.holdActive

/-- A transporter made the holder of a segment: its limit is recomputed and, for a junction, the Junction Controller is told (R24, R29). -/
def State.grant (s : State) (t n : Nat) : State :=
  (((s.setSeg n { s.seg n with holder := some t }).emit [.recompute t])).junctionGranted n

/-- A segment released by its holder (R28). A release of a segment the transporter does not hold changes nothing. The rest decision comes after the
serving and the retries; one that follows the withdrawal of a queued throw comes before them (R51, assumption 18). -/
def State.release (s : State) (n t : Nat) : State :=
  let r := s.seg n
  if r.holder ≠ some t then s
  else
    let s := s.setSeg n { r with holder := none, leaving := false, withdrawing := none }
    let s := if r.withdrawing.isSome then s.settleConfirm t else s
    let s := (s.fallBack t n).junctionReleased n
    let s := if r.sensor = .occupied then s.raise .trackIntrusion n else s.emit [.serve n]
    s.emit [.retry n [.cycle, .full], .recompute t, .restDecision n]

/-- A segment whose leaving mark has just been set is released at once if its sensor shows CLEAR (R32). -/
def State.tailRelease (s : State) (n t : Nat) : State :=
  let r := s.seg n
  if r.holder = some t ∧ r.leaving = true ∧ r.sensor = .clear then s.emit [.release n t] else s

/-! ### Claims -/

/-- The results of a claim (R23). -/
inductive ClaimResult where
  | granted | queued | waitSensor | waitIntrusion | waitSwitch | refusedFenced | refusedCycle | full
  deriving DecidableEq, Repr

/-- Whether the walk of the waits-for relation from holder `u` reaches `t`, within `fuel` steps (R25). -/
def State.closesCycle (s : State) (t : Nat) : Nat → Nat → Bool
  | 0, _ => false
  | fuel + 1, u =>
    match s.queuedAt u with
    | none => false
    | some n =>
      match (s.seg n).holder with
      | none => false
      | some v => decide (v = t) || s.closesCycle t fuel v

/-- A transporter appended to a segment's claimant queue. -/
def State.enqueue (s : State) (t n : Nat) : State := s.setSeg n { s.seg n with queue := (s.seg n).queue ++ [t] }

/-- Whether a segment is a junction recorded FAULTED. -/
def State.switchFaulted (s : State) (n : Nat) : Bool :=
  match s.junction n with
  | some j => decide (j.position = SwitchPosition.faulted)
  | none => false

/-- The result of a claim for segment `n` by the order of transporter `t` (R24). -/
def State.claimResult (s : State) (t n : Nat) : ClaimResult :=
  let r := s.seg n
  if r.holder = some t then .granted
  else if r.sensor = .unknown then .waitSensor
  else if 0 < s.fenceCount n then .refusedFenced
  else if s.switchFaulted n then .waitSwitch
  else match r.holder with
    | none =>
      if r.sensor = SensorState.occupied then .waitIntrusion
      else if 3 ≤ r.queue.length then .full
      else if s.holdActive ∨ r.queue ≠ [] then .queued
      else .granted
    | some u => if s.closesCycle t 4 u then .refusedCycle else .queued

/-- The slot's head put on the Core's waiting list (R19, R23). -/
def State.waitFor (s : State) (slot n : Nat) (c : WaitCause) : State := s.setWaiting (insertWait ⟨slot, n, c⟩ s.core.waiting)

/-- What the result of a claim does outside the Order Table (R23, R24, R60, R162). -/
def State.claimEffect (s : State) (t slot n : Nat) : ClaimResult → State
  | .granted =>
    if (s.seg n).holder = some t then (s.setSeg n { s.seg n with leaving := false }).emit [.recompute t, .throwCheck n] else s.grant t n
  | .queued => s.enqueue t n
  | .waitSensor => s.waitFor slot n .sensor
  | .waitIntrusion => s.waitFor slot n .intrusion
  | .waitSwitch =>
    match s.junction n with
    | some r => s.setJunction n (some { r with waiters := insertSorted slot r.waiters })
    | none => s
  | .refusedFenced => (s.setFenced (insertFenced ⟨slot, n⟩ s.guards.fenced)).raise .routeFenced slot
  | .refusedCycle => (s.waitFor slot n .cycle).raise .deadlock t
  | .full => s.waitFor slot n .full

/-- The head cause that a result records (R74). -/
def ClaimResult.cause (n : Nat) : ClaimResult → HeadCause
  | .granted => .none
  | .queued => .claiming n
  | .full => .claiming n
  | .waitSensor => .sensor
  | .waitIntrusion => .intrusion
  | .waitSwitch => .switch
  | .refusedFenced => .fenced
  | .refusedCycle => .cycle

/-- The result of a claim applied to its order: the head cause, and after GRANTED the claim point, where the granted segment is the position after
it, and an event of R72 (R74). -/
def State.applyResult (s : State) (slot n : Nat) (x : ClaimResult) : State :=
  match s.order slot with
  | none => s
  | some o =>
    let claim := if x = .granted ∧ o.headPos.any (fun p => decide (p.segment = n)) then o.placeOf (o.index o.claim + 1) else o.claim
    let s := s.setOrder slot (some { o with head := x.cause n, claim := claim })
    if x = .granted then s.makeDue slot else s

/-- The claim of a segment by the order in a slot, decided and applied (R24, R74). -/
def State.decideClaim (s : State) (slot n : Nat) : State :=
  match s.order slot with
  | none => s
  | some o =>
    let x := s.claimResult o.transporter n
    (s.claimEffect o.transporter slot n x).applyResult slot n x

/-- The head of the order in a slot presented to the Core (R72). -/
def State.claim (s : State) (slot : Nat) : State :=
  match s.order slot with
  | none => s
  | some o =>
    match o.headPos with
    | none => s
    | some x => s.decideClaim slot x.segment

/-- A waiting head presented again: it leaves the list on which it waits and its claim is decided afresh (R27, R60, R163). -/
def State.represent (s : State) (slot n : Nat) : State :=
  if s.waitsAt slot n then (s.unlistHead slot).decideClaim slot n else s

/-- The conditions of the lead extension (R72). -/
def State.mayExtend (s : State) (slot : Nat) : Bool :=
  match s.order slot with
  | none => false
  | some o =>
    let t := o.transporter
    decide ((s.orderRefs t).active = some slot) && decide (o.state = .running) && (s.startingDivert t).isNone && s.hasCondition t .normal
      && decide (o.head = .none) && o.headPos.isSome && decide (s.heldAhead t < s.params.lead)

/-- The lead extensions that are due, the lowest slot first, each to its end before the next (R72). -/
def State.extend (s : State) : State :=
  match s.due with
  | [] => s
  | slot :: rest => if s.mayExtend slot then s.emit [.claim slot, .extend] else State.emit { s with due := rest } [.extend]

/-- Serving a segment: its first claimant is granted it, its order is told, and heads that found the queue FULL are retried (R29). -/
def State.serve (s : State) (n : Nat) : State :=
  if s.servable n then
    match (s.seg n).queue with
    | [] => s
    | t :: rest =>
      let s := (s.setSeg n { s.seg n with queue := rest }).grant t n
      let s := match (s.orderRefs t).active with
        | some slot => s.applyResult slot n .granted
        | none => s
      s.emit [.retry n [.full]]
  else s

/-- The unheld segments with claimants are served in ascending number (R27). -/
def State.serveAll (s : State) : State :=
  s.emit (((Table.keys s.core.segs).filter fun n => (s.seg n).holder.isNone && !(s.seg n).queue.isEmpty).map .serve)

/-- The waiting-list entries of a segment with one of the causes are retried in ascending slot number (R27). -/
def State.retry (s : State) (n : Nat) (causes : List WaitCause) : State :=
  s.emit ((s.core.waiting.filter fun e => decide (e.segment = n) && decide (e.cause ∈ causes)).map fun e => .represent e.slot n)

/-- Every entry of the waiting list is retried, in ascending slot number (R27, R169). -/
def State.retryAll (s : State) : State := s.emit (s.core.waiting.map fun e => .represent e.slot e.segment)

/-! ### Sensors and positions -/

/-- Whether a segment held by `t` lies within what the limit last sent allowed it to reach (R22). -/
def State.withinSent (s : State) (t n : Nat) : Bool := decide (n ∈ s.extent t (s.sentReach t))

/-- Whether SENSOR(S, OCCUPIED) raises TRACK-INTRUSION(S), by the record before the message (R22). -/
def State.intrudes (s : State) (n : Nat) : Bool :=
  let r := s.seg n
  match r.holder with
  | none => decide (r.sensor ≠ .occupied)
  | some t => !r.leaving && decide (s.position t ≠ some n) && !s.withinSent t n

/-- A SENSOR message taken by the Core, and the Junction Controller's part in it (R21, R22, R49, R51, R54). -/
def State.takeSensor (s : State) (n : Nat) (occupied : Bool) : State :=
  let r := s.seg n
  let intruded := s.intrudes n
  let s := s.setSeg n { r with sensor := if occupied then .occupied else .clear }
  if occupied then
    let s := if intruded then s.raise .trackIntrusion n else s
    (s.emit [.retry n [.sensor]]).withdrawThrow n
  else
    let s := match r.holder with
      | some t => if r.leaving then s.emit [.release n t] else s
      | none => s.emit [.serve n]
    s.emit [.retry n [.sensor, .intrusion], .throwCheck n, .restDecision n]

/-- The leaving marks of a report that moves a transporter from `m` to `n`: the segments newly marked, in order (R31). A segment between them that
the transporter does not hold gets no mark (assumption 32), and where the route ahead names `n` twice its first place bounds them (assumption 52). -/
def State.leavingMarks (s : State) (t m n : Nat) : List Nat :=
  let ahead := (s.routeAhead t).map (·.segment)
  let between := if n ∈ ahead then ahead.takeWhile fun x => decide (x ≠ n) else []
  (m :: between).filter fun x => s.holds t x && !(s.seg x).leaving

/-- The leaving marks set, and the mark of the new position cleared (R31). -/
def State.setLeaving (s : State) (ns : List Nat) (n : Nat) : State :=
  let s := ns.foldl (fun s x => s.setSeg x { s.seg x with leaving := true }) s
  s.setSeg n { s.seg n with leaving := false }

/-- A position on a withdrawing segment: it and the withdrawing segments before it on the route ahead lose their marks (R41). `track` is the route
ahead as it stood before the report; where it names `n` twice the first place counts (assumption 52). -/
def State.overrun (s : State) (t n : Nat) (track : List Nat) : State :=
  if (s.seg n).withdrawing.isSome then
    let before := if n ∈ track then track.takeWhile fun x => decide (x ≠ n) else []
    (s.unmark ((n :: before).filter (s.holds t))).settleConfirm t
  else s

/-- Whether a RELEASE mark of a transporter awaits confirmation. The confirmation leaves behind the position marks that await nothing (R38, R40,
assumption 42). -/
def State.awaitsRelease (s : State) (t : Nat) : Bool :=
  !(s.markedRelease t).isEmpty && (match s.run t with | some r => decide (r.confirm ≠ .none) | none => true)

/-- The confirmation of a withdrawal by the report that answers a poll sent in AWAITING-REPLY: the RELEASE-marked segments beyond the position are
released. A segment that the transporter has left behind carries the leaving mark (R31) and is not among them; it waits for its sensor (R32, R40, R43,
assumption 42). Their order, the route ahead first and in its order and then the others in ascending number, is the model's choice (assumption 51). -/
def State.confirm (s : State) (t : Nat) : State :=
  match s.run t with
  | none => s
  | some r =>
    if r.confirm = .awaitingReply then
      let marked := s.markedRelease t
      let ahead := ((s.trackAhead t).map (·.segment)).filter fun n => marked.contains n
      let others := marked.filter fun n => !ahead.contains n && !(s.seg n).leaving
      s.emit ((ahead ++ others).map (fun n => .release n t) ++ [.confirmed t])
    else s

/-- The end of a confirmation: the confirmation state becomes NONE and the Order Table is told (R40). -/
def State.confirmed (s : State) (t : Nat) : State :=
  match s.run t with
  | none => s
  | some r => if r.confirm = .awaitingReply then (s.setConfirm t .none).emit [.complete t] else s.emit [.complete t]

/-- A poll is sent to a transporter: AWAITING-POLL becomes AWAITING-REPLY (R40). -/
def State.confirmPolled (s : State) (t : Nat) : State :=
  match s.run t with
  | some r => if r.confirm = .awaitingPoll then s.setConfirm t .awaitingReply else s
  | none => s

/-- A reply is missed: AWAITING-REPLY returns to AWAITING-POLL (R40). -/
def State.confirmMissed (s : State) (t : Nat) : State :=
  match s.run t with
  | some r => if r.confirm = .awaitingReply then s.setConfirm t .awaitingPoll else s
  | none => s

end Sys2Proof.Machine
end

