-- ==== Sys2Proof/Machine/Reads.lean ====
section
/-!
DEFINITION. Machine/Reads.lean: the read requests (R18, R48, R66, R104, R105, R131, R199 to R202).

A read changes no record. A time left that it shows is a free value, so a read of a running timer draws one (assumption 3).
-/

namespace Sys2Proof.Machine

/-- A body that shows a time left: a free value is drawn. -/
def State.answerTime (s : State) (shown : Bool) (q : Ask) (b : Body) : State :=
  (if shown then s.drawn else s).answer q .done b

/-- `read-segment` (R199). -/
def State.takeReadSegment (s : State) (q : Ask) (n : Nat) : State :=
  if 127 < n then s.answer q .refusedRange .empty
  else
    let junction := if s.isJunction n then s.junction n else none
    let time := junction.bind fun r => match r.hold with
      | .running x => some x
      | .expired => none
    s.answerTime time.isSome q (.segment
      { declaration := s.decl n, dynamic := s.seg n, fenceCount := s.fenceCount n
        junction := junction.map fun r => { record := r, holdLeft := time.map s.timeLeft } })

/-- A transfer as `read-pad` shows it (R104). -/
def State.showTransfer (s : State) (x : TransferRec) : TransferReading :=
  { kind := x.kind, phase := x.phase, transporter := x.transporter
    timeLeft := match x.timer with
      | .running t => s.timeLeft t
      | .suspended t => t
    suspended := match x.timer with
      | .running _ => false
      | .suspended _ => true }

/-- `read-pad` (R104). -/
def State.takeReadPad (s : State) (q : Ask) (p : Nat) : State :=
  if 191 < p then s.answer q .refusedRange .empty
  else
    let shown := (s.transferAt p).map s.showTransfer
    s.answerTime (shown.any fun x => !x.suspended) q (.pad p (s.pad p) shown)

/-- `read-transporter` (R131). -/
def State.takeReadTransporter (s : State) (q : Ask) (t : Nat) : State :=
  if 3 < t then s.answer q .refusedRange .empty
  else match s.train t with
    | none => s.answer q .done (.transporter none)
    | some r =>
      let left := match r.progress with
        | .running x => some (s.timeLeft x)
        | .stopped => none
      s.answerTime left.isSome q (.transporter (some
        { record := r, progressLeft := left, run := s.run t, load := s.load t, refs := s.orderRefs t
          pollOutstanding := s.polls.outstanding.any fun x => decide (x.transporter = t) }))

/-- Part 0 of an order's record (R200). -/
def State.showOrder (s : State) (slot : Nat) (o : Order) : OrderReading :=
  let refuge := decide (o.kind = .refuge)
  { slot := slot, transporter := o.transporter, kind := o.kind, finish := o.finish
    dwell := if refuge then o.dwell else none
    cursor := o.cursor, claim := o.claim, head := o.head, state := o.state, failure := o.failure, outcome := o.outcome
    resumed := if refuge then some o.resumed else none
    positions1 := o.leg1.length, positions2 := o.leg2.length
    heldAhead := s.heldAhead o.transporter
    headSegment := s.headSegment slot o }

/-- One part of an order's record (R200). -/
def State.showPart (s : State) (slot part : Nat) (o : Order) : Body :=
  match part with
  | 0 => .order (s.showOrder slot o)
  | 1 => .orderPositions 1 0 (o.leg1.take 24)
  | 2 => .orderPositions 1 24 (o.leg1.drop 24)
  | 3 => .orderPositions 2 0 (o.leg2.take 24)
  | _ => .orderPositions 2 24 (o.leg2.drop 24)

/-- `read-order` (R66, R200). A frame without the part byte is read as part 0. -/
def State.takeReadOrder (s : State) (q : Ask) (slot : Nat) (part : Option Nat) : State :=
  let part := part.getD 0
  if 7 < slot ∨ 4 < part then s.answer q .refusedRange .empty
  else match s.order slot with
    | none => s.answer q .done .orderEmpty
    | some o => s.answer q .done (s.showPart slot part o)

/-- The pad at which a telescope is the last occupant (R105). -/
def State.lastAt (s : State) (x : Nat) : Option Nat :=
  (s.transfer.pads.find? fun e => decide (e.2.lastOccupant = some x)).map (·.1)

/-- `read-telescope` (R105). -/
def State.takeReadTelescope (s : State) (q : Ask) (x : Nat) : State :=
  if 63 < x then s.answer q .refusedRange .empty
  else s.answer q .done (.telescope (s.placement x) (if s.placement x = .unplaced then s.lastAt x else none))

/-- The summary of a pad in a sweep (R201). -/
def State.summarise (s : State) (p : Nat) : PadSummary :=
  let r := s.pad p
  { pad := p, state := r.state, telescope := r.occupant.or r.expected, claim := r.claim, coupling := r.coupling
    inTransfer := (s.transferAt p).isSome }

/-- The pads a sweep takes, in order (R201). -/
def sweepPads (first count : Nat) (sense : Sense) : List Nat :=
  match sense with
  | .up => ((List.range count).map fun i => first + i).filter fun p => decide (p ≤ 191)
  | .down => ((List.range count).filter fun i => decide (i ≤ first)).map fun i => first - i

/-- `sweep-pads` (R201). -/
def State.takeSweepPads (s : State) (q : Ask) (first count : Nat) (sense : Sense) : State :=
  if 191 < first ∨ count = 0 ∨ 8 < count then s.answer q .refusedRange .empty
  else s.answer q .done (.sweep ((sweepPads first count sense).map s.summarise))

/-- The body of `read-status` (R202). -/
def State.showStatus (s : State) : StatusReading :=
  { layoutClosed := s.layout.closed
    cause := s.port.cause
    hold := s.guards.hold
    quiet := s.polls.quiet
    liveOrders := (s.orders.slots.filter fun e => match e.2 with | some o => o.live | none => false).length
    segments := s.segmentCount
    junctions := s.junctionCount
    pads := s.transfer.pads.length
    transporters := s.enrolledList.length
    couplingSet := s.couplingSet.length
    inQueue := s.wayside.inQueue.length
    outQueue := s.wayside.outQueue.length
    pause := s.wayside.pause
    link := s.wayside.link
    requests := s.port.requests.length
    answers := s.port.answers.length
    maps := [s.grantMap 0, s.grantMap 1, s.grantMap 2]
    fences := [s.fence 0, s.fence 1]
    enables := s.port.enables
    params := s.port.params }

/-- `read-status` (R202). -/
def State.takeReadStatus (s : State) (q : Ask) : State := s.answer q .done (.status s.showStatus)

end Sys2Proof.Machine
end

