-- ==== Sys2Proof/Machine/Geometry.lean ====
section
/-!
DEFINITION. Machine/Geometry.lean: segment ends and links, and the walk of a leg over the closed layout (R2, R12 to R17).
-/

namespace Sys2Proof.Machine

/-- The ends a segment has, in the order in which `close-layout` examines them (R2, R10). -/
def endsOf : SegKind → List TrackEnd
  | .plain => [.a, .b]
  | .spur => [.a, .b]
  | .junction => [.a, .bNormal, .bReverse]

/-- The link a declaration carries at an end (R1, R5). -/
def SegDecl.linkAt (d : SegDecl) (e : TrackEnd) : Option Link :=
  match d.kind, e with
  | .junction, .a => d.first
  | .junction, .bNormal => d.second
  | .junction, .bReverse => d.third
  | .junction, .b => none
  | _, .a => d.first
  | _, .b => d.second
  | _, _ => none

/-- The ends that join segment `m` to segment `n`: the end of `m` that carries a link naming `n`, and the named end of `n` (R13). -/
def State.joined (s : State) (m n : Nat) : Option (TrackEnd × TrackEnd) :=
  match s.decl m with
  | none => none
  | some d => (endsOf d.kind).findSome? fun e => match d.linkAt e with
    | some l => if l.neighbour = n then some (e, l.farEnd) else none
    | none => none

/-- The entering end taken for the segment at position 0 from its leaving end (R13). -/
def takenEntering (k : SegKind) (leaving : TrackEnd) : Option TrackEnd :=
  match k with
  | .junction => if leaving = .a then none else some .a
  | _ => if leaving = .a then some .b else some .a

/-- Whether a pair of entering and leaving ends reverses (R14). -/
def reverses (k : SegKind) (entering leaving : TrackEnd) : Bool :=
  match k with
  | .junction => !((decide (entering = .a) && decide (leaving ≠ .a)) || (decide (leaving = .a) && decide (entering ≠ .a)))
  | _ => decide (entering = leaving)

/-- The position a junction is needed in, from the ends used through it (R15). -/
def neededThrough (entering leaving : Option TrackEnd) : Option SwitchSetting :=
  match entering, leaving with
  | some .bNormal, _ => some .normal
  | some .bReverse, _ => some .reverse
  | _, some .bNormal => some .normal
  | _, some .bReverse => some .reverse
  | _, _ => none

/-- One position the expansion would make: its segment, or none where stepping leaves the table, and whether the stretch that begins there (if one
does) may stand (R12). -/
structure Candidate where
  segment : Option Nat
  stretchOk : Bool
  deriving DecidableEq, Repr

/-- The segment `k` steps along a stretch, where it lies in the table (R12). -/
def stretchAt (x : Stretch) (k : Nat) : Option Nat :=
  match x.sense with
  | .up => if x.first + k ≤ 127 then some (x.first + k) else none
  | .down => if x.first ≤ 127 ∧ k ≤ x.first then some (x.first - k) else none

/-- The positions a stretch makes; a stretch whose count is out of range makes the one at which that is reported (R12). -/
def stretchCandidates (x : Stretch) (permitted : Bool) : List Candidate :=
  if x.count = 0 ∨ 16 < x.count then [⟨stretchAt x 0, false⟩]
  else (List.range x.count).map fun k => ⟨stretchAt x k, permitted⟩

/-- The positions of a leg; one of no stretches or of more than 8 fails at its first position (R12). -/
def candidates (leg : List Stretch) : List Candidate := leg.flatMap fun x => stretchCandidates x (decide (leg.length ≤ 8))

/-- The positions of an accepted leg in order, each junction with its needed position (R15, R17). `walked` has the last position first. -/
def State.accepted (s : State) (walked : List RoutePos) : List RoutePos :=
  walked.reverse.map fun x => if s.isJunction x.segment then { x with needed := neededThrough x.entering x.leaving } else x

/-- The walk from position `p` on, with the tests of R17 in their order. `walked` holds the positions passed, the last first. Only position 0 of a leg
that begins afresh has no entering end yet; it is taken when its leaving end is found (R13). -/
def State.walk (s : State) : List Candidate → Nat → List RoutePos → Except (Nat × RouteFault) (List RoutePos)
  | [], _, walked => .ok (s.accepted walked)
  | c :: rest, p, walked =>
    match c.segment with
    | none => .error (p, .bounds)
    | some n =>
      if p = 48 then .error (p, .length)
      else if !c.stretchOk then .error (p, .stretch)
      else if (s.decl n).isNone then .error (p, .undeclared)
      else if walked.any fun x => decide (x.segment = n) then .error (p, .repeated)
      else match walked with
        | [] => s.walk rest (p + 1) [⟨n, none, none, none⟩]
        | prev :: before =>
          match s.joined prev.segment n, s.decl prev.segment with
          | some (leaving, entering), some d =>
            let prevEntering := prev.entering.or (takenEntering d.kind leaving)
            if (prevEntering.any fun e => reverses d.kind e leaving) then .error (p - 1, .reversal)
            else s.walk rest (p + 1)
              (⟨n, some entering, none, none⟩ :: { prev with entering := prevEntering, leaving := some leaving } :: before)
          | _, _ => .error (p, .notLinked)

/-- The geometry check of a leg: its positions, or the first fault and the position at which it is reported (R12 to R17). -/
def State.checkLeg (s : State) (leg : List Stretch) : Except (Nat × RouteFault) (List RoutePos) :=
  if leg = [] then .error (0, .stretch) else s.walk (candidates leg) 0 []

/-- The geometry check of a back leg, which begins at the dwell, the last position of the out leg: at position 0 NOT-LINKED is tested against the
dwell and TURN stands in place of REVERSAL; from position 1 on the walk is the ordinary one (R89). -/
def State.checkBackLeg (s : State) (out : List RoutePos) (leg : List Stretch) : Except (Nat × RouteFault) (List RoutePos) :=
  match candidates leg, out.getLast? with
  | c :: rest, some dwell =>
    match c.segment with
    | none => .error (0, .bounds)
    | some n =>
      if !c.stretchOk then .error (0, .stretch)
      else if (s.decl n).isNone then .error (0, .undeclared)
      else match s.joined dwell.segment n with
        | none => .error (0, .notLinked)
        | some (leaving, entering) =>
          if dwell.entering.any fun e => decide (e ≠ leaving) then .error (0, .turn)
          else s.walk rest 1 [⟨n, some entering, none, none⟩]
  | _, _ => .error (0, .stretch)

end Sys2Proof.Machine
end

