-- ==== Sys2Proof/Machine/Layout.lean ====
section
/-!
DEFINITION. Machine/Layout.lean: `declare-segment` and `close-layout` (R5 to R11).
-/

namespace Sys2Proof.Machine

/-- The number of the first test of a list that fails, counting from 1. -/
def firstFailing (tests : List Bool) : Option Nat := (findPlace (fun t => !t) tests).map (· + 1)

/-- The tests of `declare-segment`, in their order (R6, R7). -/
def State.declareTests (s : State) (n : Nat) (d : SegDecl) : List Bool :=
  let links := [d.first, d.second, d.third].filterMap id
  [ decide (n ≤ 127)
  , decide (d.guard ≤ 2)
  , decide (d.kind = .plain) || decide (d.speed = .creep)
  , decide (d.kind = .junction) || decide (d.rest = .none)
  , decide (d.kind = .junction) || d.third.isNone
  , links.all fun l => decide (l.neighbour ≤ 127)
  , links.all fun l => decide (l.neighbour ≠ n)
  , decide ((links.map (·.neighbour)).Nodup)
  , decide (d.kind ≠ .junction) || s.isJunction n || decide (s.junctionCount < 24) ]

/-- `declare-segment` (R6), in the OPEN layout: the record takes the parameters in full. -/
def State.takeDeclareSegment (s : State) (q : Ask) (n : Nat) (d : SegDecl) : State :=
  match firstFailing (s.declareTests n d) with
  | some k => s.answer q .refusedRange (.failedTest k)
  | none =>
    let s := s.setDecl n (some d)
    s.answer q .done (.segmentCounts s.segmentCount s.junctionCount)

/-- The first fault of the tests of R10 at one end of segment `n`. -/
def State.endFault (s : State) (n : Nat) (d : SegDecl) (e : TrackEnd) : Option LayoutReason :=
  match d.linkAt e with
  | none => none
  | some l =>
    match s.decl l.neighbour with
    | none => some .undeclaredNeighbour
    | some far =>
      if l.farEnd ∉ endsOf far.kind then some .noSuchEnd
      else if far.linkAt l.farEnd ≠ some ⟨n, e⟩ then some .notReciprocal
      else if (endsOf d.kind).any fun e' => decide (e' ≠ e) && (d.linkAt e').any fun l' => decide (l'.neighbour = l.neighbour) then
        some .doubleLink
      else none

/-- The first fault of one segment: its ends in order, then the spur test (R10). -/
def State.segmentFault (s : State) (n : Nat) (d : SegDecl) : Option (Option TrackEnd × LayoutReason) :=
  match (endsOf d.kind).findSome? fun e => (s.endFault n d e).map fun r => (some e, r) with
  | some f => some f
  | none =>
    if d.kind = .spur ∧ ((endsOf d.kind).filter fun e => (d.linkAt e).isSome).length ≠ 1 then some (none, .spurEnds) else none

/-- The first fault of the layout, segments in ascending number (R9, R10). -/
def State.layoutFault (s : State) : Option (Option Nat × Option TrackEnd × LayoutReason) :=
  if s.layout.decls = [] then some (none, none, .empty)
  else s.layout.decls.findSome? fun e => match e.2 with
    | some d => (s.segmentFault e.1 d).map fun f => (some e.1, f.1, f.2)
    | none => none

/-- The Junction Controller takes up every declared junction (R11, R46). Its rotation begins at the end of this event, when a prove is sought. -/
def State.takeUpJunctions (s : State) : State :=
  s.layout.decls.foldl (fun s e => if s.isJunction e.1 then s.setJunction e.1 (some JunctionRec.initial) else s) s

/-- `close-layout` (R8 to R11), in the OPEN layout. -/
def State.takeCloseLayout (s : State) (q : Ask) : State :=
  match s.layoutFault with
  | some (n, e, r) => s.answer q .refusedLayout (.layoutFault n e r)
  | none => (State.takeUpJunctions { s with layout := { s.layout with closed := true } }).answer q .done .empty

end Sys2Proof.Machine
end

