-- ==== Sys2Proof/Machine/Permissions.lean ====
section
/-!
DEFINITION. Machine/Permissions.lean: the classes of request, the object check, the grant maps, and the layout-state test (R4, R153 to R157).
-/

namespace Sys2Proof.Machine

/-- An originator's level (R153). -/
def levelOf : Originator → Nat
  | .maintenance => 0
  | .operator => 1
  | .scheduler => 2

/-- The classes of request (R153). -/
inductive RequestClass where
  | maintenance | desk | opened
  deriving DecidableEq, Repr

/-- The class of a request (R153). -/
def classOf : Request → RequestClass
  | .declareSegment .. => .maintenance
  | .closeLayout => .maintenance
  | .clearSwitch _ => .maintenance
  | .declarePad .. => .maintenance
  | .settlePad .. => .maintenance
  | .settleLoad .. => .maintenance
  | .enrollTransporter .. => .maintenance
  | .disenrollTransporter _ => .maintenance
  | .clearAstray .. => .maintenance
  | .setGrants .. => .maintenance
  | .setParameter .. => .maintenance
  | .restart => .maintenance
  | .setFence .. => .desk
  | .clearFence _ => .desk
  | .hold => .desk
  | .releaseHold => .desk
  | .enterQuiet => .desk
  | .leaveQuiet => .desk
  | .proceed _ => .desk
  | .barPad _ => .desk
  | .unbarPad _ => .desk
  | .recouplePad _ => .desk
  | .clearWayside => .desk
  | .submitOrder .. => .opened
  | .cancelOrder _ => .opened
  | .divert .. => .opened
  | .resumeRefuge _ => .opened
  | .fetchNotice => .opened
  | .setNoticeEnables _ => .opened
  | .clearPort => .opened
  | .sweepPads .. => .opened
  | .readStatus => .opened
  | .readSegment _ => .opened
  | .readPad _ => .opened
  | .readTransporter _ => .opened
  | .readOrder .. => .opened
  | .readTelescope _ => .opened

/-- The class test (R153). -/
def classAllows (c : RequestClass) (o : Originator) : Bool :=
  match c with
  | .maintenance => decide (o = .maintenance)
  | .desk => decide (o ≠ .scheduler)
  | .opened => true

/-- The guard level of an object; an object out of range or not declared has none (R155). -/
def State.guardLevel (s : State) (k : ObjectKind) (n : Nat) : Option Nat :=
  match k with
  | .segment => (s.decl n).map (·.guard)
  | .pad => if s.padDeclared n then some (s.pad n).guard else none

/-- Whether an originator's grant map holds an object's group (R154). -/
def State.granted (s : State) (o : Originator) (k : ObjectKind) (n : Nat) : Bool :=
  match k with
  | .segment => (s.grantMap (levelOf o)).segments.contains (n / 8)
  | .pad => (s.grantMap (levelOf o)).pads.contains (n / 8)

/-- The object check (R155). -/
def State.allows (s : State) (o : Originator) (k : ObjectKind) (n : Nat) : Bool :=
  match s.guardLevel k n with
  | none => true
  | some g => decide (levelOf o ≤ g) || s.granted o k n

/-- The first object of a list that the check refuses (R156). -/
def State.firstRefused (s : State) (o : Originator) (objects : List (ObjectKind × Nat)) : Option (ObjectKind × Nat) :=
  objects.find? fun x => !s.allows o x.1 x.2

/-- The object checked at entry, after the class test (R156). -/
def entryObject : Request → Option (ObjectKind × Nat)
  | .barPad p => some (.pad, p)
  | .unbarPad p => some (.pad, p)
  | .recouplePad p => some (.pad, p)
  | .clearSwitch n => some (.segment, n)
  | .enrollTransporter _ n _ => some (.segment, n)
  | .clearAstray _ n => some (.segment, n)
  | _ => none

/-- The layout-state test (R4). -/
def State.layoutRefuses (s : State) : Request → Bool
  | .declareSegment .. => s.layout.closed
  | .closeLayout => s.layout.closed
  | .submitOrder .. => !s.layout.closed
  | .divert .. => !s.layout.closed
  | .declarePad .. => !s.layout.closed
  | .enrollTransporter .. => !s.layout.closed
  | _ => false

/-- `set-grants` (R157). -/
def State.takeSetGrants (s : State) (q : Ask) (who : Nat) (pads segments : List Nat) : State :=
  if 2 < who ∨ (pads.any fun g => decide (23 < g)) ∨ (segments.any fun g => decide (15 < g)) then s.answer q .refusedRange .empty
  else
    let map : GrantMap := { pads := toSet pads, segments := toSet segments }
    (s.setGrantMap who map).answer q .done (.grants map)

end Sys2Proof.Machine
end

