-- ==== Sys2Proof/Machine/Orders.lean ====
section
/-!
DEFINITION. Machine/Orders.lean: the Order Table: submission, the cursor, the head, arrival, ending and failure (R64 to R82).
-/

namespace Sys2Proof.Machine

/-! ### The head and the pad claim -/

/-- A transporter taken out of a segment's claimant queue, the others keeping their order; an unheld junction whose queue empties makes its rest
decision (R26, R54, R76). -/
def State.leaveQueue (s : State) (t n : Nat) : State :=
  let r := s.seg n
  if t ∈ r.queue then
    let s := s.setSeg n { r with queue := r.queue.filter fun u => decide (u ≠ t) }
    if (s.seg n).queue = [] ∧ r.holder = none then s.emit [.restDecision n] else s
  else s

/-- The slots that hold an order of a transporter, live or ended. -/
def State.slotsOf (s : State) (t : Nat) : List Nat :=
  (Table.keys s.orders.slots).filter fun k => match s.order k with
    | some o => decide (o.transporter = t)
    | none => false

/-- A transporter taken out of every claimant queue, and the heads of its orders off every list on which they wait (R134 stage 2, R143 stage 2). -/
def State.leaveQueues (s : State) (t : Nat) : State :=
  (s.slotsOf t).foldl State.unlistHead ((Table.keys s.core.segs).foldl (fun s n => s.leaveQueue t n) s)

/-- An order's head stops claiming: it is removed from wherever it waits (R76). -/
def State.removeHead (s : State) (slot : Nat) : State :=
  match s.order slot with
  | none => s
  | some o =>
    let s := s.unlistHead slot
    let s := match o.head with
      | .claiming n => s.leaveQueue o.transporter n
      | _ => s
    s.setOrder slot (some { o with head := .none })

/-- A pad's record without the claim of an order: an INBOUND pad becomes VACANT, an ANCHORED pad loses the claim (R81, R84). -/
def PadRec.withoutClaim (r : PadRec) (slot : Nat) : PadRec :=
  if r.claim ≠ some slot then r
  else if r.state = .inbound then { r with state := .vacant, expected := none, claim := none }
  else { r with claim := none }

/-- A pad claim still held by an order is dropped (R81, R84). -/
def State.dropClaim (s : State) (slot : Nat) : State :=
  { s with transfer :=
      { s.transfer with pads := Table.mapRecords PadRec.undeclared (fun _ r => r.withoutClaim slot) s.transfer.pads } }

/-! ### Ending -/

/-- A slot taken out of its transporter's references (R65). -/
def OrderRefs.without (r : OrderRefs) (slot : Nat) : OrderRefs :=
  { active := if r.active = some slot then none else r.active
    stack := r.stack.filter fun k => decide (k ≠ slot)
    pendingDivert := if r.pendingDivert = some slot then none else r.pendingDivert }

/-- An order enters ENDED (R81). -/
def State.endOrder (s : State) (slot : Nat) (x : OrderOutcome) : State :=
  let s := (s.removeHead slot).dropClaim slot
  match s.order slot with
  | none => s
  | some o =>
    let t := o.transporter
    let s := s.setOrder slot
      (some { o with state := .ended, outcome := some x, failure := if x = .failed then o.failure else none })
    let s := s.setRefs t ((s.orderRefs t).without slot)
    let s := if x = .void then s.raise .divertVoid t else s.raise .orderEnded slot
    s.emit [.recompute t, .reviewJunctions t]

/-- A TRANSFER order fails (R80). -/
def State.failOrder (s : State) (slot : Nat) (c : FailureCause) : State :=
  match s.order slot with
  | none => s
  | some o =>
    let s := s.setOrder slot (some { o with state := .failed, failure := some c })
    (s.raise .orderFailed slot).emit [.recompute o.transporter, .reviewJunctions o.transporter]

/-! ### The cursor and arrival -/

/-- The cursor after a report that names segment `n`, where it moves: to a position of the claimed track, else back to a position of the cursor's
leg before it (R73, R88). Where the claimed track names `n` twice the first place counts (assumption 52). -/
def Order.cursorFor (o : Order) (n : Nat) : Option Place :=
  let c := o.index o.cursor
  match findPlace (fun x => decide (x.segment = n)) (o.beyond.take (o.index o.claim - c)) with
  | some i => some (o.placeOf (c + 1 + i))
  | none =>
    let leg := if o.cursor.leg = 1 then o.leg1 else o.leg2
    (findPlace (fun x => decide (x.segment = n)) (leg.take o.cursor.pos)).map fun i => ⟨o.cursor.leg, i⟩

/-- The cursor of a transporter's active order moved by a report that moves its position to `n`; a DWELLING refuge that rolls back is RUNNING again
(R73, R98). A refuge that dwells off its cursor stays DWELLING where the report names the cursor's own segment (assumption 55). -/
def State.moveCursor (s : State) (t n : Nat) : State :=
  match s.active t with
  | none => s
  | some (slot, o) =>
    if o.state = .running ∨ o.state = .dwelling ∨ o.state = .arrived ∨ o.state = .cancelling then
      match o.cursorFor n with
      | none => s
      | some c =>
        (s.setOrder slot (some { o with cursor := c, state := if o.state = .dwelling then .running else o.state })).makeDue slot
    else s

/-- The last segment of leg 1. -/
def Order.lastSegment (o : Order) : Option Nat := (o.leg1.getLast?).map (·.segment)

/-- Whether a transporter's last report was at rest with segment `n` as its position. -/
def State.restsAt (s : State) (t : Nat) (n : Option Nat) : Bool :=
  match s.train t with
  | some r => r.atRest && decide (some r.position = n) && decide (r.condition ≠ .astray)
  | none => false

/-! ### Submission -/

/-- The pad a finish names. -/
def finishPad : Finish → Option Nat
  | .none => none
  | .lift p => some p
  | .setDown p => some p

/-- The tests of a finish, in their order (R69). The body of REFUSED-ROUTE gives the leg, the position and the fault, which names test d (assumption
54). -/
def State.finishRefusal (s : State) (kind : OrderKind) (f : Finish) (leg : List RoutePos) : Option (Outcome × Body) :=
  match f with
  | .none => none
  | .lift p =>
    if kind ≠ .emptyRun then some (.refusedRange, .failedFinishTest 1)
    else if !s.padDeclared p then some (.refusedState, .failedFinishTest 2)
    else if (s.pad p).state ≠ .anchored ∨ (s.pad p).claim ≠ none then some (.refusedState, .failedFinishTest 3)
    else if (leg.getLast?).map (·.segment) ≠ some (s.pad p).access then some (.refusedRoute, .routeFault 1 (leg.length - 1) .access)
    else none
  | .setDown p =>
    if kind ≠ .loadedRun then some (.refusedRange, .failedFinishTest 1)
    else if !s.padDeclared p then some (.refusedState, .failedFinishTest 2)
    else if (s.pad p).state ≠ .vacant ∨ (s.pad p).claim ≠ none then some (.refusedState, .failedFinishTest 3)
    else if (leg.getLast?).map (·.segment) ≠ some (s.pad p).access then some (.refusedRoute, .routeFault 1 (leg.length - 1) .access)
    else none

/-- Whether an order's kind agrees with its transporter's load (R68 step 6). -/
def State.kindAgrees (s : State) (t : Nat) (kind : OrderKind) : Bool :=
  match kind, s.load t with
  | .emptyRun, some .none => true
  | .loadedRun, some (.telescope _) => true
  | _, _ => false

/-- The objects of a submission that the Guard Unit checks, in their order (R68 step 8). -/
def submissionObjects (leg : List RoutePos) (f : Finish) : List (ObjectKind × Nat) :=
  leg.map (fun x => (.segment, x.segment)) ++ (finishPad f).toList.map fun p => (.pad, p)

/-- The decision of a `submit-order` (R68): the slot and the accepted leg, or the refusal. -/
def State.decideSubmission (s : State) (who : Originator) (t : Nat) (kind : OrderKind) (f : Finish) (leg : List Stretch) :
    Except (Outcome × Body) (Nat × List RoutePos) :=
  match s.freeSlot with
  | none => .error (.noSlot, .empty)
  | some slot =>
    if 3 < t ∨ kind = .refuge ∨ (finishPad f).any (fun p => decide (191 < p)) then .error (.refusedRange, .empty)
    else if !s.hasCondition t .normal ∨ (s.orderRefs t).active ≠ none ∨ (s.orderRefs t).pendingDivert ≠ none then
      .error (.refusedState, .empty)
    else match s.checkLeg leg with
      | .error (p, x) => .error (.refusedRoute, .routeFault 1 p x)
      | .ok route =>
        if (route.head?).map (·.segment) ≠ s.position t then .error (.refusedRoute, .routeFault 1 0 .start)
        else if !s.kindAgrees t kind then .error (.refusedState, .empty)
        else match s.finishRefusal kind f route with
          | some r => .error r
          | none =>
            match s.firstRefused who (submissionObjects route f) with
            | some (k, n) => .error (.denied, .deniedObject k n)
            | none => .ok (slot, route)

/-- The record of an accepted order (R70). -/
def newOrder (t : Nat) (kind : OrderKind) (f : Finish) (route : List RoutePos) : Order :=
  { transporter := t, kind := kind, finish := some f, leg1 := route, leg2 := [], cursor := ⟨1, 0⟩, claim := ⟨1, 0⟩, head := .none
    state := .running, failure := none, outcome := none, resumed := false, rejoin := none }

/-- The pad claim that an accepted order takes (R70). -/
def State.takeClaim (s : State) (slot t : Nat) (f : Finish) : State :=
  match f with
  | .none => s
  | .lift p => s.setPad p { s.pad p with claim := some slot }
  | .setDown p =>
    match s.load t with
    | some (.telescope x) => s.setPad p { s.pad p with state := .inbound, expected := some x, claim := some slot }
    | _ => s

/-- `submit-order` (R67 to R70), in the CLOSED layout. -/
def State.takeSubmitOrder (s : State) (q : Ask) (who : Originator) (t : Nat) (kind : OrderKind) (f : Finish) (leg : List Stretch) : State :=
  match s.decideSubmission who t kind f leg with
  | .error (o, b) => s.answer q o b
  | .ok (slot, route) =>
    let s := s.setOrder slot (some (newOrder t kind f route))
    let s := s.setRefs t { s.orderRefs t with active := some slot }
    let s := ((s.takeClaim slot t f).makeDue slot).emit [.recompute t, .reviewJunctions t]
    s.answer q .accepted (.orderAccepted slot route.length)

end Sys2Proof.Machine
end

