-- ==== Sys2Proof/Machine/Transfers.lean ====
section
/-!
DEFINITION. Machine/Transfers.lean: the Transfer Unit: pads, telescopes and loads, and the lift, set-down and coupling protocols (R104 to R127).
-/

namespace Sys2Proof.Machine

/-! ### The timers, the settlement and the ends of a transfer -/

/-- An UNCOUPLE still in the out-queue is removed (R115, R121, R179). -/
def State.takeBackUncouple (s : State) (p : Nat) : State := s.takeBack fun m => decide (m = .uncouple p)

/-- A COUPLE still in the out-queue is removed (R122, R123, R179). -/
def State.takeBackCouple (s : State) (p : Nat) : State := s.takeBack fun m => decide (m = .couple p)

/-- A transporter's load replaced, which is an event of R37 (R106). -/
def State.changeLoad (s : State) (t : Nat) (l : Load) : State := (s.setLoad t (some l)).emit [.recompute t]

/-- Whether a transfer has been heard of: either mark or a confirmation (R121). -/
def State.touched (s : State) (p : Nat) (x : TransferRec) : Bool :=
  x.stationHeard || x.transporterHeard || (s.pad p).confTransporter || (s.pad p).confStation

/-- A pad left in doubt, with a telescope as its last occupant (R121, R126, R128). -/
def PadRec.unsettledWith (r : PadRec) (x : Option Nat) : PadRec :=
  { r with state := .unsettled, occupant := none, expected := none, claim := none, lastOccupant := x
           confTransporter := false, confStation := false, coupling := .none, couplingTimer := .stopped }

/-- The settlement of a transfer, in its touched or its untouched form: the timer stops, the record is removed and the pad leaves the coupling set
(R121). -/
def State.settleTransfer (s : State) (p : Nat) (x : TransferRec) (touchedForm : Bool) : State :=
  let s := s.setTransfer p none
  if touchedForm then
    let s := (s.setPad p ((s.pad p).unsettledWith (some x.telescope))).takeBackUncouple p
    let s := s.placeTelescope x.telescope .unplaced
    if x.transporterHeard = true ∨ s.load x.transporter = some (.telescope x.telescope) then s.changeLoad x.transporter .unverified else s
  else match x.kind with
    | .lift => (s.setPad p { s.pad p with state := .anchored, occupant := some x.telescope, claim := none }).takeBackUncouple p
    | .setDown => s

/-- A transfer fails: it is settled, and then the Order Table is told (R118, R119, R121). -/
def State.failTransfer (s : State) (p : Nat) (x : TransferRec) (touchedForm : Bool) (c : FailureCause) : State :=
  (s.settleTransfer p x touchedForm).failOrder x.order c

/-- A station fault or breach (R118). -/
def State.stationFails (s : State) (p : Nat) (x : TransferRec) : State :=
  (s.raise .padFault p).failTransfer p x true .padFault

/-- An identity mismatch or transporter breach, after the transporter-heard mark has become yes (R114, R119). -/
def State.transporterFails (s : State) (p : Nat) (x : TransferRec) : State :=
  s.failTransfer p { x with transporterHeard := true } true .identity

/-- A transfer abandoned by disenrollment or `clear-astray` (R127). -/
def State.abandonTransfer (s : State) (p : Nat) (x : TransferRec) : State := s.settleTransfer p x (s.touched p x)

/-- A LIFT completes (R116). -/
def State.completeLift (s : State) (p : Nat) (x : TransferRec) : State :=
  let s := s.setTransfer p none
  let s := s.setPad p { s.pad p with state := .vacant, occupant := none, claim := none, confTransporter := false, confStation := false }
  let s := (s.placeTelescope x.telescope (.onTransporter x.transporter)).changeLoad x.transporter (.telescope x.telescope)
  s.endOrder x.order .done

/-- A SET-DOWN completes, and its coupling begins (R117). -/
def State.completeSetDown (s : State) (p : Nat) (x : TransferRec) : State :=
  let s := s.setTransfer p none
  let s := s.setPad p
    { s.pad p with state := .seated, occupant := some x.telescope, expected := none, claim := none
                   confTransporter := false, confStation := false, coupling := .queued }
  let s := (s.placeTelescope x.telescope (.onPad p)).changeLoad x.transporter .none
  (s.handOut (.couple p)).endOrder x.order .done

/-- A transfer whose confirmations may now both be in: at the second it completes (R116, R117). -/
def State.completeIfConfirmed (s : State) (p : Nat) (x : TransferRec) : State :=
  if (s.pad p).confTransporter && (s.pad p).confStation then
    match x.kind with
    | .lift => s.completeLift p x
    | .setDown => s.completeSetDown p x
  else s

/-- The STATION confirmation put in (R116, R117). -/
def State.stationConfirms (s : State) (p : Nat) (x : TransferRec) : State :=
  (s.setPad p { s.pad p with confStation := true }).completeIfConfirmed p x

/-- The TRANSPORTER confirmation put in (R116, R117). -/
def State.transporterConfirms (s : State) (p : Nat) (x : TransferRec) : State :=
  (s.setPad p { s.pad p with confTransporter := true }).completeIfConfirmed p x

/-! ### Starting -/

/-- The start check of a transfer: the telescope it concerns, where the check passes (R112). -/
def State.startCheck (s : State) (slot t : Nat) (f : Finish) : Option Nat :=
  match f with
  | .none => none
  | .lift p =>
    let r := s.pad p
    if r.state = .anchored ∧ r.claim = some slot ∧ s.load t = some .none then r.occupant else none
  | .setDown p =>
    let r := s.pad p
    if r.state = .inbound ∧ r.claim = some slot ∧ r.expected ≠ none ∧ s.load t = r.expected.map .telescope then r.expected else none

/-- The record of a transfer that starts (R112). -/
def State.newTransfer (s : State) (slot t : Nat) (k : TransferKind) (ph : TransferPhase) (x : Nat) : TransferRec :=
  { order := slot, transporter := t, kind := k, phase := ph, telescope := x, stationHeard := false, transporterHeard := false
    timer := .running s.params.transferTimeout }

/-- The start of the transfer of an order that has become TRANSFER (R112). -/
def State.beginTransfer (s : State) (slot t : Nat) (f : Finish) : State :=
  match f, s.startCheck slot t f with
  | .lift p, some x =>
    let s := s.setTransfer p (some (s.newTransfer slot t .lift .uncoupling x))
    let s := s.setPad p { s.pad p with state := .releasing, claim := none, confTransporter := false, confStation := false }
    s.handOut (.uncouple p)
  | .setDown p, some x =>
    let s := s.setTransfer p (some (s.newTransfer slot t .setDown .setting x))
    s.setPad p { s.pad p with confTransporter := false, confStation := false }
  | f, _ =>
    let s := match finishPad f with
      | some p => if (s.pad p).claim = some slot then s.setPad p { s.pad p with claim := none } else s
      | none => s
    s.failOrder slot .identity

/-- Whether an ARRIVED order becomes TRANSFER (R79). -/
def State.mayTransfer (s : State) (slot : Nat) : Bool :=
  match s.order slot with
  | none => false
  | some o =>
    decide (o.state = .arrived) && (match o.finish with | some .none => false | none => false | some _ => true)
      && !s.holdActive && !s.quietOn && s.hasCondition o.transporter .normal && s.restsAt o.transporter o.lastSegment
      && decide (s.couplingSet.length < 8)

/-- The ARRIVED orders whose conditions hold become TRANSFER, in ascending slot number, each using the room it finds (R79, R112). The head that an
order arrived off its cursor has left waiting stays there, in TRANSFER and after it in FAILED (assumption 45). -/
def State.startTransfers (s : State) : State :=
  match slots.find? s.mayTransfer with
  | none => s
  | some slot =>
    match s.order slot with
    | none => s
    | some o =>
      let s := (s.setOrder slot (some { o with state := .transfer })).emit [.recompute o.transporter]
      (s.beginTransfer slot o.transporter (o.finish.getD .none)).emit [.startTransfers]

/-- The permission the next poll to a transporter carries (R113). -/
def State.permission (s : State) (t : Nat) : Permission :=
  match s.transferOf t with
  | none => .none
  | some (p, x) =>
    if (s.pad p).confTransporter || s.holdActive || !s.hasCondition t .normal then .none
    else match x.phase with
      | .lifting => .lift
      | .setting => .setDown
      | .uncoupling => .none

/-! ### Coupling -/

/-- A SEATED pad is reported COUPLED (R122). -/
def State.coupled (s : State) (p : Nat) : State :=
  (s.setPad p { s.pad p with state := .anchored, coupling := .none, couplingTimer := .stopped }).takeBackCouple p

/-- A SEATED pad's coupling is given up (R123). -/
def State.giveUpCoupling (s : State) (p : Nat) : State :=
  ((s.raise .padFault p).setPad p { s.pad p with coupling := .none, couplingTimer := .stopped }).takeBackCouple p

/-! ### Events from the pad stations -/

/-- A PAD-EVENT during a transfer (R115 to R117). -/
def State.transferPadEvent (s : State) (p : Nat) (x : TransferRec) (e : PadEventValue) : State :=
  match x.phase, e with
  | .uncoupling, .uncoupled => (s.setTransfer p (some { x with stationHeard := true, phase := .lifting })).takeBackUncouple p
  | .uncoupling, .coupled => s.setTransfer p (some { x with stationHeard := true })
  | .uncoupling, .loadSensed => s.setTransfer p (some { x with stationHeard := true })
  | .uncoupling, .loadClear => s.stationFails p x
  | .uncoupling, .fault => s.stationFails p x
  | .lifting, .loadClear => s.stationConfirms p x
  | .lifting, .uncoupled => s
  | .lifting, .loadSensed => if (s.pad p).confStation then s.stationFails p x else s
  | .lifting, .coupled => s.stationFails p x
  | .lifting, .fault => s.stationFails p x
  | .setting, .loadSensed => s.stationConfirms p x
  | .setting, .loadClear => if (s.pad p).confStation then s.stationFails p x else s
  | .setting, .uncoupled => s
  | .setting, .coupled => s.stationFails p x
  | .setting, .fault => s.stationFails p x

/-- What a PAD-EVENT outside a transfer does, by the pad's state (R125). -/
def State.idlePadEvent (s : State) (p : Nat) (e : PadEventValue) : State :=
  let fault := s.raise .padFault p
  match (s.pad p).state, e with
  | .vacant, .uncoupled => s
  | .vacant, .loadClear => s
  | .vacant, _ => fault
  | .inbound, .uncoupled => s
  | .inbound, .loadClear => s
  | .inbound, _ => fault
  | .seated, .uncoupled => s
  | .seated, .coupled => s.coupled p
  | .seated, .loadSensed => s
  | .seated, .loadClear => fault
  | .seated, .fault => if (s.pad p).coupling = .none then fault else s.giveUpCoupling p
  | .anchored, .coupled => s
  | .anchored, .loadSensed => s
  | .anchored, _ => fault
  | .barred, .fault => fault
  | .barred, _ => s
  | .unsettled, _ => fault
  | .undeclared, _ => s
  | .releasing, _ => s

/-- A PAD-EVENT taken by the Transfer Unit (R175). -/
def State.takePadEvent (s : State) (p : Nat) (e : PadEventValue) : State :=
  match s.transferAt p with
  | some x => s.transferPadEvent p x e
  | none => s.idlePadEvent p e

/-! ### Load events -/

/-- A LOADED or SET during a transfer, by its phase (R115 to R117). -/
def State.transferLoadEvent (s : State) (p : Nat) (x : TransferRec) (e : LoadEvent) : State :=
  match x.phase, e with
  | _, .none => s
  | .lifting, .loaded y =>
    if y = x.telescope then (s.setTransfer p (some { x with transporterHeard := true })).transporterConfirms p { x with transporterHeard := true }
    else s.transporterFails p x
  | .setting, .set => (s.setTransfer p (some { x with transporterHeard := true })).transporterConfirms p { x with transporterHeard := true }
  | _, _ => s.transporterFails p x

/-- Whether a load event agrees with a load (R126). -/
def loadAgrees : LoadEvent → Option Load → Bool
  | .none, _ => true
  | .loaded x, some (.telescope y) => decide (x = y)
  | .set, some .none => true
  | _, _ => false

/-- The INBOUND pad that a live order of a transporter claims (R126). -/
def State.inboundClaim (s : State) (t : Nat) : Option Nat :=
  (s.transfer.pads.find? fun e => decide (e.2.state = .inbound) && (e.2.claim.any fun slot =>
    match s.order slot with
    | some o => decide (o.transporter = t) && o.live
    | none => false)).map (·.1)

/-- A load event outside a transfer that does not agree with the load (R126). -/
def State.strayLoadEvent (s : State) (t : Nat) : State :=
  let s := match s.load t with
    | some (.telescope x) => s.placeTelescope x .unplaced
    | _ => s
  let s := s.changeLoad t .unverified
  match s.inboundClaim t with
  | none => s
  | some q => (s.setPad q ((s.pad q).unsettledWith (s.pad q).expected)).raise .padFault q

/-- The load event of a report (R114, R126). -/
def State.takeLoadEvent (s : State) (r : Report) : State :=
  if r.load = .none then s
  else match s.transferOf r.transporter with
    | some (p, x) =>
      if r.atRest = true ∧ r.position = (s.pad p).access then s.transferLoadEvent p x r.load else s.transporterFails p x
    | none => if loadAgrees r.load (s.load r.transporter) then s else s.strayLoadEvent r.transporter

/-! ### Expiries -/

/-- The expiry of a transfer timer (R121). A suspended timer does not expire (R120). -/
def State.transferExpiry (s : State) (p : Nat) : State :=
  match s.transferAt p with
  | some x =>
    match x.timer with
    | .running _ => s.failTransfer p x (s.touched p x) .timeout
    | .suspended _ => s
  | none => s

/-- The expiry of a coupling timer (R123). -/
def State.couplingExpiry (s : State) (p : Nat) : State :=
  let r := s.pad p
  match r.couplingTimer with
  | .running _ => if r.state = .seated then s.giveUpCoupling p else s
  | .stopped => s

/-- Every running transfer timer is suspended with the time it has left, a free value for each (R120, R167). -/
def State.suspendTransfers (s : State) : State :=
  (Table.keys s.transfer.transfers).foldl (fun s p =>
    match s.transferAt p with
    | some x =>
      match x.timer with
      | .running time => (s.setTransfer p (some { x with timer := .suspended (s.timeLeft time) })).drawn
      | .suspended _ => s
    | none => s) s

/-- Every suspended transfer timer resumes from the time it kept (R120, R169). -/
def State.resumeTimers (s : State) : State :=
  (Table.keys s.transfer.transfers).foldl (fun s p =>
    match s.transferAt p with
    | some x =>
      match x.timer with
      | .suspended time => s.setTransfer p (some { x with timer := .running time })
      | .running _ => s
    | none => s) s

/-! ### Requests -/

/-- The number of declared pads. -/
def State.padCount (s : State) : Nat := s.transfer.pads.length

/-- The telescope of a pad target, where it names one. -/
def targetTelescope : PadTarget → Option Nat
  | .anchored x => some x
  | _ => none

/-- Whether the telescope a request names, if any, is UNPLACED. -/
def State.isFree (s : State) (x : Option Nat) : Bool :=
  match x with
  | some y => decide (s.placement y = .unplaced)
  | none => true

/-- A pad put into a target state, its telescope placed on it (R107, R109). -/
def State.putPad (s : State) (p : Nat) (r : PadRec) (target : PadTarget) : State :=
  match target with
  | .vacant => s.setPad p { r with state := .vacant, lastOccupant := none }
  | .barred => s.setPad p { r with state := .barred, lastOccupant := none }
  | .anchored x => (s.setPad p { r with state := .anchored, occupant := some x, lastOccupant := none }).placeTelescope x (.onPad p)

/-- The tests of `declare-pad`, in their order (R107). -/
def State.declarePadTests (s : State) (p access guard : Nat) (initial : PadTarget) : List Bool :=
  [ decide (p ≤ 191)
  , decide (guard ≤ 2)
  , match s.decl access with
    | some d => decide (d.kind ≠ .junction)
    | none => false
  , decide ((s.transfer.pads.filter fun e => decide (e.2.access = access)).length < 3)
  , (targetTelescope initial).all fun x => decide (x ≤ 63)
  , !s.padDeclared p
  , s.isFree (targetTelescope initial) ]

/-- `declare-pad` (R107), in the CLOSED layout. -/
def State.takeDeclarePad (s : State) (q : Ask) (p access guard : Nat) (initial : PadTarget) : State :=
  match firstFailing (s.declarePadTests p access guard initial) with
  | some k => s.answer q (if k ≤ 5 then .refusedRange else .refusedState) (.failedTest k)
  | none =>
    let s := s.putPad p { PadRec.undeclared with access := access, guard := guard } initial
    s.answer q .done (.padCount s.padCount)

/-- `bar-pad` (R108). -/
def State.takeBarPad (s : State) (q : Ask) (p : Nat) : State :=
  if 191 < p then s.answer q .refusedRange .empty
  else if (s.pad p).state = .vacant ∧ (s.pad p).claim = none then (s.setPad p { s.pad p with state := .barred }).answer q .done .empty
  else s.answer q .refusedState .empty

/-- `unbar-pad` (R108). -/
def State.takeUnbarPad (s : State) (q : Ask) (p : Nat) : State :=
  if 191 < p then s.answer q .refusedRange .empty
  else if (s.pad p).state = .barred then (s.setPad p { s.pad p with state := .vacant }).answer q .done .empty
  else s.answer q .refusedState .empty

/-- `settle-pad` (R109). -/
def State.takeSettlePad (s : State) (q : Ask) (p : Nat) (target : PadTarget) : State :=
  if 191 < p ∨ (targetTelescope target).any (fun x => decide (63 < x)) then s.answer q .refusedRange .empty
  else if (s.pad p).state ≠ .unsettled then s.answer q .refusedState .empty
  else if !s.isFree (targetTelescope target) then s.answer q .refusedState .empty
  else (s.putPad p (s.pad p) target).answer q .done .empty

/-- A load taken up by a transporter: its telescope becomes ON-TRANSPORTER (R106, R110). -/
def State.takeUpLoad (s : State) (t : Nat) (l : LoadTarget) : State :=
  match l with
  | .none => s.changeLoad t .none
  | .telescope x => (s.placeTelescope x (.onTransporter t)).changeLoad t (.telescope x)

/-- The telescope of a load target, where it names one. -/
def loadTelescope : LoadTarget → Option Nat
  | .telescope x => some x
  | .none => none

/-- `settle-load` (R110). -/
def State.takeSettleLoad (s : State) (q : Ask) (t : Nat) (target : LoadTarget) : State :=
  if 3 < t ∨ (loadTelescope target).any (fun x => decide (63 < x)) then s.answer q .refusedRange .empty
  else if s.enrolled t = false ∨ s.load t ≠ some .unverified then s.answer q .refusedState .empty
  else if !s.isFree (loadTelescope target) then s.answer q .refusedState .empty
  else (s.takeUpLoad t target).answer q .done .empty

/-- `recouple-pad` (R124). -/
def State.takeRecouplePad (s : State) (q : Ask) (p : Nat) : State :=
  if 191 < p then s.answer q .refusedRange .empty
  else if (s.pad p).state ≠ .seated then s.answer q .refusedState .empty
  else if p ∉ s.couplingSet ∧ 8 ≤ s.couplingSet.length then s.answer q .refusedState .empty
  else ((s.setPad p { s.pad p with coupling := .queued, couplingTimer := .stopped }).handOut (.couple p)).answer q .done .empty

end Sys2Proof.Machine
end

