-- ==== Sys2Proof/Machine/Refuges.lean ====
section
/-!
DEFINITION. Machine/Refuges.lean: arrival, dwelling and rejoin; refuges, diverts and cancelling (R77, R78, R83 to R103).
-/

namespace Sys2Proof.Machine

/-! ### Rejoin points -/

/-- The places of an order's remaining route with their segments, in route order (R92). -/
def Order.remaining (o : Order) : List (Place × Nat) :=
  let first := (o.leg1.zipIdx.map fun x => ((⟨1, x.2⟩ : Place), x.1.segment))
  let second := (o.leg2.zipIdx.map fun x => ((⟨2, x.2⟩ : Place), x.1.segment))
  if o.kind ≠ .refuge then first.drop (o.cursor.pos + 1)
  else if o.resumed then (if o.cursor.leg = 2 then second.drop (o.cursor.pos + 1) else second)
  else first.drop (o.cursor.pos + 1) ++ second

/-- The rejoin position of a back leg in an order of transporter `t`: the first place of its remaining route whose segment is the back leg's last.
The segment on which the transporter stands and the one at the order's cursor are no rejoin points (R92, assumption 33). -/
def State.rejoinPlace (s : State) (t : Nat) (o : Order) (back : List RoutePos) : Option Place :=
  match back.getLast? with
  | none => none
  | some x =>
    if s.position t = some x.segment ∨ o.cursorSegment = some x.segment then none
    else (o.remaining.find? fun y => decide (y.2 = x.segment)).map (·.1)

/-! ### Pops, rejoin and arrival -/

/-- The popped order placed at its rejoin position, active and RUNNING (R100 step 2). -/
def State.popTo (s : State) (t : Nat) (place : Place) : State :=
  match (s.orderRefs t).stack with
  | [] => s
  | slot :: rest =>
    match s.order slot with
    | none => s
    | some o =>
      let s := s.setOrder slot
        (some { o with state := .running, cursor := place, claim := place, head := .none, resumed := o.resumed || decide (place.leg = 2) })
      (s.setRefs t { s.orderRefs t with active := some slot, stack := rest }).makeDue slot

/-- Whether a refuge's cursor stands at the last position of its back leg (R100). -/
def Order.atRejoin (o : Order) : Bool :=
  decide (o.kind = .refuge) && decide (o.cursor.leg = 2) && decide (o.cursor.pos + 1 = o.leg2.length)

/-- A refuge rejoins: it ends DONE and the order beneath it is popped. The arrival, dwell or rejoin test is then made for the popped order; unless
that order rejoins at once itself, the pending divert is taken up and the limit and the throw checks follow (R100). -/
def State.rejoin (s : State) (t slot : Nat) (o : Order) : State :=
  let s := s.endOrder slot .done
  match o.rejoin with
  | none => s
  | some place =>
    let s := s.popTo t place
    match s.active t with
    | none => s
    | some (_, popped) =>
      if popped.atRejoin then s.emit [.arrival t]
      else s.emit [.arrival t, .takeUpPending t, .recompute t, .reviewJunctions t]

/-- The arrival test of R77, the dwell test of R98 or the rejoin of R100, for a transporter's active order and with its last report. While a divert
for the transporter is STARTING the tests are withheld (R94). An order that arrives with finish NONE ends DONE (R78). A refuge that comes to dwell off
its cursor loses the head that it left waiting (R76); an order that arrives off its cursor keeps it, in the states that follow
too, since R76 excepts ARRIVED (assumption 45). -/
def State.arrival (s : State) (t : Nat) : State :=
  match s.active t with
  | none => s
  | some (slot, o) =>
    if o.state ≠ .running ∨ (s.startingDivert t).isSome then s
    else if o.kind = .refuge then
      if o.resumed = true ∧ o.atRejoin = true then s.rejoin t slot o
      else if o.resumed = false ∧ s.restsAt t o.dwell = true then
        ((s.setOrder slot (some { o with state := .dwelling })).removeHead slot).emit [.recompute t, .reviewJunctions t]
      else s
    else if s.restsAt t o.lastSegment then
      let s := (s.setOrder slot (some { o with state := .arrived })).emit [.recompute t, .reviewJunctions t]
      if o.finish = some .none then s.endOrder slot .done else s
    else s

/-! ### Diverts -/

/-- A divert becomes STARTING: its rejoin position is recorded, the active order's head stops claiming and the limit is recomputed (R93, R97). -/
def State.startDivert (s : State) (t slot : Nat) (refuge : Order) (place : Place) : State :=
  let s := s.setOrder slot (some { refuge with state := .starting, rejoin := some place })
  let s := match (s.orderRefs t).active with
    | some a => s.removeHead a
    | none => s
  s.emit [.recompute t]

/-- The segments of an order's claimed track (R71). -/
def Order.claimedTrack (o : Order) : List Nat := (o.beyond.take (o.index o.claim - o.index o.cursor)).map (·.segment)

/-- A divert whose withdrawal is complete is taken up: the active order is suspended, its claimed track is released, and the refuge runs (R95). The
segment on which the transporter stands stays held, where the claimed track names it again (R31, assumption 44). The releases are in the order of the
route (assumption 51). -/
def State.takeUpDivert (s : State) (t slot : Nat) (refuge : Order) : State :=
  let refs := s.orderRefs t
  match s.active t with
  | none => s
  | some (a, o) =>
    let s := s.setOrder a (some { o with state := .suspended, claim := o.cursor })
    let s := s.setOrder slot (some { refuge with state := .running })
    let s := s.setRefs t { refs with active := some slot, stack := a :: refs.stack }
    let s := s.emit ((o.claimedTrack.filter fun n => s.holds t n && decide (s.position t ≠ some n)).map fun n => .release n t)
    let s := (s.emit [.recompute t, .reviewJunctions t]).makeDue slot
    if refuge.leg1.length = 1 then s.emit [.arrival t] else s

/-- A divert found void: it ends VOID and the tests withheld while it was STARTING are made (R95, R97). -/
def State.voidDivert (s : State) (t slot : Nat) : State := ((s.endOrder slot .void).makeActiveDue t).emit [.arrival t]

/-- The Order Table is told that a transporter's withdrawal is complete: a STARTING divert is decided by the position, a CANCELLING order ends
(R38, R85, R95). Nothing is complete while a RELEASE mark awaits confirmation. Where a sensor releases the last one, the divert of an ASTRAY
transporter is decided too (assumption 56). -/
def State.complete (s : State) (t : Nat) : State :=
  if s.awaitsRelease t then s
  else match s.startingDivert t with
    | some slot =>
      match s.order slot with
      | none => s
      | some refuge =>
        if (refuge.leg1.head?).map (·.segment) = s.position t then s.takeUpDivert t slot refuge else s.voidDivert t slot
    | none =>
      match s.active t with
      | some (slot, o) => if o.state = .cancelling then s.endOrder slot .cancelled else s
      | none => s

/-- Whether an order may be diverted (R91 step 3, R97 test 1). -/
def Order.divertible (o : Order) : Bool :=
  decide (o.state = .running) || (decide (o.kind = .refuge) && decide (o.state = .dwelling))

/-- A pending divert is taken up at a pop, or found void (R97). -/
def State.takeUpPending (s : State) (t : Nat) : State :=
  match (s.orderRefs t).pendingDivert with
  | none => s
  | some slot =>
    match s.order slot with
    | none => s
    | some refuge =>
      let place := match s.active t with
        | some (_, o) => if o.divertible then s.rejoinPlace t o refuge.leg2 else none
        | none => none
      match place with
      | some x =>
        if (refuge.leg1.head?).map (·.segment) = s.position t then
          (s.setRefs t { s.orderRefs t with pendingDivert := none }).startDivert t slot refuge x
        else s.endOrder slot .void
      | none => s.endOrder slot .void

/-- The record of a refuge (R93 step 1). -/
def newRefuge (t : Nat) (out back : List RoutePos) : Order :=
  { transporter := t, kind := .refuge, finish := none, leg1 := out, leg2 := back, cursor := ⟨1, 0⟩, claim := ⟨1, 0⟩, head := .none
    state := .pending, failure := none, outcome := none, resumed := false, rejoin := none }

/-- What an accepted divert is accepted as. -/
inductive DivertPlan where
  | starting (place : Place)
  | pending
  deriving DecidableEq, Repr

/-- The objects of a divert that the Guard Unit checks, in their order (R91 step 8). -/
def divertObjects (out back : List RoutePos) : List (ObjectKind × Nat) := (out ++ back).map fun x => (.segment, x.segment)

/-- The decision of a `divert` (R91): the slot, the two legs and the plan, or the refusal. -/
def State.decideDivert (s : State) (who : Originator) (t : Nat) (outLeg backLeg : List Stretch) :
    Except (Outcome × Body) (Nat × List RoutePos × List RoutePos × DivertPlan) :=
  match s.freeSlot with
  | none => .error (.noSlot, .empty)
  | some slot =>
    if 3 < t then .error (.refusedRange, .empty)
    else match s.active t with
      | none => .error (.refusedState, .empty)
      | some (_, o) =>
        if !s.hasCondition t .normal ∨ !o.divertible ∨ (s.startingDivert t).isSome ∨ (s.orderRefs t).pendingDivert ≠ none then
          .error (.refusedState, .empty)
        else match s.checkLeg outLeg with
          | .error (p, x) => .error (.refusedRoute, .routeFault 1 p x)
          | .ok out =>
            match s.checkBackLeg out backLeg with
            | .error (p, x) => .error (.refusedRoute, .routeFault 2 p x)
            | .ok back =>
              let denied := s.firstRefused who (divertObjects out back)
              let shallow := decide ((s.orderRefs t).stack.length < 3)
              if shallow && decide ((out.head?).map (·.segment) ≠ s.position t) then .error (.refusedRoute, .routeFault 1 0 .start)
              else match shallow, s.rejoinPlace t o back with
                | true, none => .error (.refusedRoute, .routeFault 2 (back.length - 1) .rejoin)
                | true, some place =>
                  match denied with
                  | some (k, n) => .error (.denied, .deniedObject k n)
                  | none => .ok (slot, out, back, .starting place)
                | false, _ =>
                  match denied with
                  | some (k, n) => .error (.denied, .deniedObject k n)
                  | none => .ok (slot, out, back, .pending)

/-- `divert` (R90 to R96), in the CLOSED layout. -/
def State.takeDivert (s : State) (q : Ask) (who : Originator) (t : Nat) (outLeg backLeg : List Stretch) : State :=
  match s.decideDivert who t outLeg backLeg with
  | .error (o, b) => s.answer q o b
  | .ok (slot, out, back, .starting place) => (s.startDivert t slot (newRefuge t out back) place).answerAfter (.divert q slot)
  | .ok (slot, out, back, .pending) =>
    let s := s.setOrder slot (some (newRefuge t out back))
    (s.setRefs t { s.orderRefs t with pendingDivert := some slot }).answer q .pending (.refugePending slot out.length back.length)

/-- The answer of `divert`, composed after the divert has been decided or left STARTING (R93). -/
def State.answerDivert (s : State) (q : Ask) (slot : Nat) : State :=
  match s.order slot with
  | none => s
  | some o =>
    s.answer q (if o.state = .starting then .accepted else .done) (.refuge slot o.leg1.length o.leg2.length o.state)

/-- `resume-refuge` (R99). The cursor and the claim point stay as they stand, those of a refuge that dwells off its cursor too (assumption 48). -/
def State.takeResumeRefuge (s : State) (q : Ask) (slot : Nat) : State :=
  if 7 < slot then s.answer q .refusedRange .empty
  else match s.order slot with
    | none => s.answer q .refusedState .empty
    | some o =>
      let t := o.transporter
      if o.kind ≠ .refuge ∨ o.state ≠ .dwelling ∨ (s.orderRefs t).active ≠ some slot ∨ (s.startingDivert t).isSome then
        s.answer q .refusedState .empty
      else
        let s := s.setOrder slot (some { o with state := .running, resumed := true })
        ((s.makeDue slot).emit [.recompute t, .reviewJunctions t]).answerAfter (.resume q slot)

/-- The answer of `resume-refuge`, with the head cause that the lead extension has reached (R99). -/
def State.answerResume (s : State) (q : Ask) (slot : Nat) : State :=
  match s.order slot with
  | none => s
  | some o => s.answer q .done (.headCause o.head)

/-! ### Cancelling -/

/-- An order becomes CANCELLING (R84 steps 1 to 4); the answer follows the recomputation, of an ARRIVED order that has rolled back too (assumption 47). -/
def State.beginCancel (s : State) (q : Ask) (slot : Nat) : State :=
  match s.order slot with
  | none => s
  | some o =>
    let s := s.setOrder slot (some { o with state := .cancelling })
    let s := (s.removeHead slot).dropClaim slot
    (s.emit [.recompute o.transporter, .reviewJunctions o.transporter]).answerAfter (.cancel q slot)

/-- The answer of `cancel-order` by R84: ACCEPTED while CANCELLING, DONE once ENDED. -/
def State.answerCancel (s : State) (q : Ask) (slot : Nat) : State :=
  match s.order slot with
  | none => s
  | some o => s.answer q (if o.state = .cancelling then .accepted else .done) (.orderState o.state)

/-- The cancel of a refuge that runs or dwells: the orders on the stack end from top to bottom, then the pending divert (R103). -/
def State.cancelRefuge (s : State) (q : Ask) (slot t : Nat) : State :=
  let refs := s.orderRefs t
  let s := s.beginCancel q slot
  (refs.stack ++ refs.pendingDivert.toList).foldl (fun s k => s.endOrder k .cancelled) s

/-- `cancel-order` (R83 to R86, R102, R103). -/
def State.takeCancelOrder (s : State) (q : Ask) (slot : Nat) : State :=
  if 7 < slot then s.answer q .refusedRange .empty
  else match s.order slot with
    | none => s.answer q .refusedState .empty
    | some o =>
      let t := o.transporter
      let starting := (s.startingDivert t).isSome
      match o.state with
      | .running => if starting then s.answer q .refusedState .empty
          else if o.kind = .refuge then s.cancelRefuge q slot t else s.beginCancel q slot
      | .dwelling => if starting then s.answer q .refusedState .empty else s.cancelRefuge q slot t
      | .arrived => s.beginCancel q slot
      | .failed => (s.endOrder slot .failed).answer q .done .empty
      | .starting => (((s.endOrder slot .cancelled).makeActiveDue t).emit [.arrival t]).answer q .done .empty
      | _ => s.answer q .refusedState .empty

/-- Every live order of a transporter is ended with outcome CANCELLED, in ascending slot number; a transfer in progress is abandoned (R87, R127). -/
def State.endAllOrders (s : State) (t : Nat) : State :=
  (s.liveSlots t).foldl (fun s slot =>
    let s := match s.transferOf t with
      | some (p, x) => if x.order = slot then s.abandonTransfer p x else s
      | none => s
    s.endOrder slot .cancelled) s

end Sys2Proof.Machine
end

