-- ==== Sys2Proof/Machine/Guards.lean ====
section
/-!
DEFINITION. Machine/Guards.lean: the fences and the array hold (R158 to R169).
-/

namespace Sys2Proof.Machine

/-! ### The array hold -/

/-- The hold becomes active: the transfer timers are suspended and every limit is recomputed (R167). -/
def State.holdBegins (s : State) : State := s.suspendTransfers.emit (s.enrolledList.map .recompute)

/-- The hold ends, in the order of R169: limits, queues, waiting heads and lead extensions, ARRIVED orders, timers and the out-queue. -/
def State.holdEnds (s : State) : State :=
  (s.setHoldEnding true).emit (s.enrolledList.map .recompute ++ [.serveAll, .retryAll, .extend, .startTransfers, .resumeTransfers])

/-- The hold-source set replaced; the hold begins or ends where the set ceases or comes to be empty (R164). -/
def State.changeHold (s : State) (h : HoldSources) : State :=
  let before := s.holdActive
  let s := s.setHold h
  if !before && h.active then s.holdBegins
  else if before && !h.active then s.holdEnds
  else s

/-- The last step of the end of the hold: the transfer timers resume, THROW and UNCOUPLE become eligible and the out-queue is looked at again (R169
step 5, R181). -/
def State.resumeTransfers (s : State) : State :=
  let s := s.setHoldEnding false
  if s.holdActive then s else s.resumeTimers.commit

/-- LINE enters or leaves (R165). -/
def State.setLine (s : State) (v : Bool) : State := s.changeHold { s.guards.hold with line := v }

/-- WAYSIDE enters (R164, R172, R173, R176). -/
def State.addWayside (s : State) : State := s.changeHold { s.guards.hold with wayside := true }

/-- `hold` (R166). -/
def State.takeHold (s : State) (q : Ask) : State :=
  let h := { s.guards.hold with desk := true }
  (s.changeHold h).answer q .done (.holdSources h)

/-- `release-hold` (R166). -/
def State.takeReleaseHold (s : State) (q : Ask) : State :=
  if s.guards.hold.desk then
    let h := { s.guards.hold with desk := false }
    (s.changeHold h).answer q .done (.holdSources h)
  else s.answer q .refusedState .empty

/-- `clear-wayside` (R177). -/
def State.takeClearWayside (s : State) (q : Ask) : State :=
  match s.wayside.link with
  | .silent => s.answer q .refusedState (.waysideRefusal .silent)
  | .live =>
    if s.guards.hold.wayside then
      let h := { s.guards.hold with wayside := false }
      (s.changeHold h).answer q .done (.holdSources h)
    else s.answer q .refusedState (.waysideRefusal .absent)

/-! ### Fences -/

/-- The segments of a fence's range (R158). -/
def Fence.range (f : Fence) : List Nat := (List.range f.size).map fun i => f.base + i

/-- The order slots whose heads a new fence over segment `n` turns away, in ascending number: those in its claimant queue, on the waiting list but for
cause SENSOR, and among its switch waiters (R160). -/
def State.headsAt (s : State) (n : Nat) : List Nat :=
  toSet (((s.seg n).queue.filterMap fun t => (s.orderRefs t).active)
    ++ (s.core.waiting.filterMap fun e => if e.segment = n ∧ e.cause ≠ .sensor then some e.slot else none)
    ++ (match s.junction n with | some r => r.waiters | none => []))

/-- One head turned away by a fence (R160, R162). -/
def State.turnAway (s : State) (slot n : Nat) : State :=
  match s.order slot with
  | none => s
  | some o =>
    let s := (s.unlistHead slot).setOrder slot (some { o with head := .fenced })
    (s.raise .routeFenced slot).setFenced (insertFenced ⟨slot, n⟩ s.guards.fenced)

/-- The effects of a fence at a segment whose count has risen to 1 (R160). -/
def State.fenceSegment (s : State) (n : Nat) : State :=
  let heads := s.headsAt n
  let queued := !(s.seg n).queue.isEmpty
  let s := s.setSeg n { s.seg n with queue := [] }
  let s := heads.foldl (fun s slot => s.turnAway slot n) s
  if queued = true ∧ (s.seg n).holder = none then s.emit [.restDecision n] else s

/-- The tests 1 to 4 of `set-fence` (R159). -/
def State.setFenceTests (s : State) (slot base size : Nat) : List Bool :=
  [ decide (slot ≤ 1)
  , decide (size ∈ [1, 2, 4, 8, 16, 32, 64])
  , decide (base ≤ 127) && decide (base % size = 0)
  , (s.fence slot).isNone ]

/-- The declared segments of a range, as objects of the check (R159, R163). -/
def State.fenceObjects (s : State) (f : Fence) : List (ObjectKind × Nat) :=
  (f.range.filter fun n => (s.decl n).isSome).map fun n => (.segment, n)

/-- `set-fence` (R159 to R161). The body of DENIED names the segment by R155 and carries no number of a test (assumption 50). -/
def State.takeSetFence (s : State) (q : Ask) (who : Originator) (slot base size : Nat) : State :=
  match firstFailing (s.setFenceTests slot base size) with
  | some k => s.answer q (if k = 4 then .refusedState else .refusedRange) (.failedTest k)
  | none =>
    let f : Fence := ⟨base, size⟩
    match s.firstRefused who (s.fenceObjects f) with
    | some (k, n) => s.answer q .denied (.deniedObject k n)
    | none =>
      let s := s.setFence slot (some f)
      let fresh := f.range.filter fun n => decide (s.fenceCount n = 1)
      let turned := (fresh.flatMap s.headsAt).length
      let held := (f.range.filter fun n => (s.seg n).holder.isSome).length
      (fresh.foldl (fun s n => s.fenceSegment n) s).answer q .done (.fenceSet base size turned held)

/-- The heads presented again when a fence is cleared, segment by segment (R163). -/
def State.fencedHeads (s : State) (ns : List Nat) : List FencedEntry :=
  ns.flatMap fun n => s.guards.fenced.filter fun e => decide (e.segment = n)

/-- `clear-fence` (R163). -/
def State.takeClearFence (s : State) (q : Ask) (who : Originator) (slot : Nat) : State :=
  if 1 < slot then s.answer q .refusedRange .empty
  else match s.fence slot with
    | none => s.answer q .refusedState .empty
    | some f =>
      match s.firstRefused who (s.fenceObjects f) with
      | some (k, n) => s.answer q .denied (.deniedObject k n)
      | none =>
        let s := s.setFence slot none
        let heads := s.fencedHeads (f.range.filter fun n => decide (s.fenceCount n = 0))
        (s.emit (heads.map fun e => .represent e.slot e.segment)).answer q .done (.fenceCleared f.base f.size heads.length)

end Sys2Proof.Machine
end

