-- ==== Sys2Proof/Machine/Polls.lean ====
section
/-!
DEFINITION. Machine/Polls.lean: the Poll Engine: enrollment, the rotation, reports, misses, progress and radio quiet (R129 to R151).
-/

namespace Sys2Proof.Machine

/-- A transporter's record changed, where it is enrolled. -/
def State.updateTrain (s : State) (t : Nat) (f : TransporterRec → TransporterRec) : State :=
  match s.train t with
  | some r => s.setTrain t (some (f r))
  | none => s

/-- The end of a poll: the reply window timer stops and the gap timer starts (R137). -/
def State.endPoll (s : State) : State :=
  { s with polls := { s.polls with outstanding := none, window := .stopped, gap := .running s.params.pollGap } }

/-! ### Progress -/

/-- The conditions under which a transporter's progress timer runs (R144). A limit last sent at the position counts as ahead where a resumed refuge's
leg 2 names that segment again (assumption 31). -/
def State.progressRuns (s : State) (t : Nat) : Bool :=
  match s.train t with
  | some r => decide (r.condition = .normal) && (s.routeAhead t).any fun x => decide (x.segment = r.lastSent)
  | none => false

/-- The test of the progress timer (R144). -/
def State.progressTest (s : State) (t : Nat) : State :=
  s.updateTrain t fun r =>
    { r with progress :=
        if s.progressRuns t then (match r.progress with | .stopped => .running s.params.progressTime | p => p) else .stopped }

/-- The report classed for progress, after the test of the timer (R144, R145). The test is made at a report that comes between `proceed` and the next
poll too (assumption 49). -/
def State.progressReport (s : State) (t : Nat) (moved inMotion : Bool) : State :=
  if s.hasCondition t .astray then s
  else
    let s := s.progressTest t
    s.updateTrain t fun r =>
      let runs := decide (r.progress ≠ .stopped)
      if moved then
        { r with grace := s.params.grace, progress := if runs then .running s.params.progressTime else r.progress }
      else if inMotion && runs && decide (0 < r.grace) then { r with progress := .running s.params.progressTime, grace := r.grace - 1 }
      else r

/-! ### Conditions -/

/-- A transporter that leaves NORMAL: its progress timer stops and its limit is recomputed (R140, R142, R146). -/
def State.setCondition (s : State) (t : Nat) (c : Condition) : State :=
  (s.updateTrain t fun r => { r with condition := c, progress := .stopped }).emit [.recompute t]

/-- A transporter becomes STALLED (R146); the track ahead that no limit sent reaches is released at once (R38),
in the order of the route (assumption 51). -/
def State.stall (s : State) (t : Nat) : State :=
  ((s.raise .transporterStalled t).setCondition t .stalled).emit ((s.unsentAhead t).map fun n => .release n t)

/-- A transporter becomes ASTRAY (R142). -/
def State.goAstray (s : State) (t : Nat) : State := (s.raise .transporterAstray t).setCondition t .astray

/-- A transporter becomes LOST (R140). -/
def State.goLost (s : State) (t : Nat) : State := (s.raise .transporterLost t).setCondition t .lost

/-- A transporter returns to NORMAL: its grace is restored, which is an event of R37 and of R72 (R141, R147). -/
def State.backToNormal (s : State) (t : Nat) : State :=
  ((s.updateTrain t fun r => { r with condition := .normal, grace := s.params.grace }).makeActiveDue t).emit [.recompute t]

/-! ### Polls -/

/-- The next transporter in rotation (R135). -/
def State.nextInRotation (s : State) : Option Nat :=
  match s.polls.pointer with
  | none => s.enrolledList.head?
  | some p => (s.enrolledList.find? fun t => decide (p < t)).or s.enrolledList.head?

/-- A poll to a transporter composed and sent (R136). -/
def State.poll (s : State) (t : Nat) : State :=
  match s.run t with
  | none => s
  | some r =>
    let x : Poll :=
      { transporter := t, sequence := s.polls.nextSequence, limit := r.limit, ceiling := r.ceiling, permission := s.permission t
        transmitted := false, inQuiet := decide (s.polls.quiet = .pending) }
    let s := { s with polls := { s.polls with outstanding := some x, nextSequence := s.polls.nextSequence + 1, pointer := some t } }
    ((s.updateTrain t fun y => { y with lastSent := r.limit }).confirmPolled t).progressTest t

/-- A poll is sent to the next transporter in rotation, unless quiet is IN-FORCE, a poll is outstanding or none is enrolled (R135). -/
def State.pollNext (s : State) : State :=
  if s.polls.quiet = .inForce ∨ s.polls.outstanding ≠ none then s
  else match s.nextInRotation with
    | some t => s.poll t
    | none => s

/-- The expiry of the gap timer (R135). -/
def State.gapExpiry (s : State) : State :=
  match s.polls.gap with
  | .running _ => State.emit { s with polls := { s.polls with gap := .stopped } } [.pollNext]
  | .stopped => s

/-- The last byte of a poll has been transmitted: the reply window timer starts (R136). -/
def State.pollTransmitted (s : State) : State :=
  match s.polls.outstanding with
  | some x =>
    if x.transmitted then s
    else { s with polls := { s.polls with outstanding := some { x with transmitted := true }, window := .running s.params.replyWindow } }
  | none => s

/-! ### Radio quiet -/

/-- Whether a transporter counts toward the quiet test (R149). -/
def State.countsForQuiet (s : State) (t : Nat) : Bool :=
  match s.train t with
  | some r => decide (r.condition ≠ .lost) && decide (r.missCount < s.params.missLimit)
  | none => false

/-- The number of transporters that count and have not stood (R148, R149). -/
def State.stillToStand (s : State) : Nat :=
  (s.enrolledList.filter fun t => s.countsForQuiet t && (match s.train t with | some r => !r.quietStand | none => false)).length

/-- The quiet test (R149). A progress timer that runs when quiet enters here keeps running (assumption 40). -/
def State.quietTest (s : State) : State :=
  if s.polls.quiet = .pending ∧ s.stillToStand = 0 ∧ s.polls.outstanding = none then
    State.raise { s with polls := { s.polls with quiet := .inForce, gap := .stopped } } .quietEntered 0
  else s

/-- A transporter's quiet stand decided by a report, and the quiet test made (R149). -/
def State.quietStand (s : State) (r : Report) (inQuiet : Bool) : State :=
  if s.polls.quiet ≠ .pending then s
  else
    let t := r.transporter
    let settledThere := match s.train t, s.run t with
      | some x, some y => decide (x.condition = .astray) || (decide (x.position = y.limit) && decide (y.confirm = .none))
      | _, _ => false
    (s.updateTrain t fun x => { x with quietStand := inQuiet && r.atRest && settledThere }).emit [.quietTest]

/-- `enter-quiet` (R148). -/
def State.takeEnterQuiet (s : State) (q : Ask) : State :=
  if s.polls.quiet ≠ .off ∨ (s.orders.slots.any fun e => match e.2 with | some o => decide (o.state = .transfer) | none => false) then
    s.answer q .refusedState .empty
  else
    let s := { s with polls := { s.polls with quiet := .pending } }
    let s := s.enrolledList.foldl (fun s t => s.updateTrain t fun r => { r with quietStand := false }) s
    (s.emit (s.enrolledList.map .recompute ++ [.quietTest])).answerAfter (.quiet q)

/-- The answer of `enter-quiet`, after the quiet test (R148). -/
def State.answerQuiet (s : State) (q : Ask) : State :=
  if s.polls.quiet = .inForce then s.answer q .done (.quiet .inForce none)
  else s.answer q .accepted (.quiet .pending (some s.stillToStand))

/-- `leave-quiet` (R151). -/
def State.takeLeaveQuiet (s : State) (q : Ask) : State :=
  if s.polls.quiet = .off then s.answer q .refusedState .empty
  else
    let inForce := decide (s.polls.quiet = .inForce)
    let s := { s with polls := { s.polls with quiet := .off } }
    let s := s.enrolledList.foldl (fun s t => s.updateTrain t fun r => { r with quietStand := false, missCount := 0 }) s
    (s.emit (s.enrolledList.map .recompute ++ (if inForce then [.pollNext] else []) ++ [.startTransfers])).answer q .done .empty

/-! ### Reports and misses -/

/-- The position of a report handed to the Core and the Order Table (R31, R41, R73): the segments newly given the leaving mark are returned for
their tail release. -/
def State.takePosition (s : State) (t m n : Nat) : State × List Nat :=
  if m = n then (s, [])
  else
    let track := (s.trackAhead t).map (·.segment)
    let marks := s.leavingMarks t m n
    let s := (s.setLeaving marks n).updateTrain t fun r => { r with position := n }
    (((s.overrun t n track).moveCursor t n), marks)

/-- Stages 2 and 3 of a report (R139, R141, R142): the return of a LOST transporter, and the position handed on or the transporter ASTRAY. The tail
releases, the limit, the confirmation, the arrival test and the lead extension follow in that order. -/
def State.reportPosition (s : State) (r : Report) : State :=
  let t := r.transporter
  match s.train t with
  | none => s
  | some x =>
    if x.condition = .astray then s
    else if !s.holds t r.position then s.goAstray t
    else
      let s := if x.condition = .lost then s.backToNormal t else s
      let (s, marks) := s.takePosition t x.position r.position
      s.emit (marks.map (fun n => .tailRelease n t)
        ++ [.recompute t, .confirm t, .arrival t, .startTransfers, .reviewJunctions t, .extend])

/-- A report that answers the poll outstanding is taken, in the stages of R139. -/
def State.takeReport (s : State) (r : Report) (x : Poll) : State :=
  let t := r.transporter
  let before := s.position t
  let s := s.endPoll.updateTrain t fun y => { y with missCount := 0, atRest := r.atRest, inMotion := r.inMotion }
  let s := s.reportPosition r
  let moved := decide (s.position t ≠ before)
  s.emit ([.progressReport t moved r.inMotion] ++ (if r.driveFault then [.driveFault t] else [])
    ++ [.loadEvent r, .quietStand r x.inQuiet])

/-- A report that the checks of R138 pass: it is taken where it answers the poll outstanding, and otherwise discarded. -/
def State.hearReport (s : State) (r : Report) : State :=
  match s.polls.outstanding with
  | some x => if r.transporter = x.transporter ∧ r.sequence = x.sequence then s.takeReport r x else s
  | none => s

/-- Stage 5 of a report that gives drive-fault (R139, R146). -/
def State.driveFault (s : State) (t : Nat) : State := if s.hasCondition t .normal then s.stall t else s

/-- The expiry of the reply window timer: the reply is missed (R137, R140). -/
def State.windowExpiry (s : State) : State :=
  match s.polls.outstanding, s.polls.window with
  | some x, .running _ =>
    let t := x.transporter
    let s := (s.endPoll.updateTrain t fun r => { r with missCount := min 8 (r.missCount + 1) }).confirmMissed t
    let lost : Bool := match s.train t with
      | some r => (decide (r.condition = .normal) || decide (r.condition = .stalled)) && decide (s.params.missLimit ≤ r.missCount)
      | none => false
    (if lost then s.goLost t else s).emit [.quietTest]
  | _, _ => s

/-- The expiry of a progress timer (R146). -/
def State.progressExpiry (s : State) (t : Nat) : State :=
  match s.train t with
  | some r => if r.progress ≠ .stopped then s.stall t else s
  | none => s

/-! ### Enrollment -/

/-- The tests of `enroll-transporter`, in their order (R132). -/
def State.enrollTests (s : State) (t n : Nat) (l : LoadTarget) : List Bool :=
  [ decide (t ≤ 3) && decide (n ≤ 127) && (loadTelescope l).all fun x => decide (x ≤ 63)
  , (s.decl n).isSome
  , !s.enrolled t
  , (s.seg n).holder.isNone
  , decide (s.fenceCount n = 0)
  , s.isFree (loadTelescope l) ]

/-- The record of a transporter just enrolled (R133). -/
def State.newTrain (s : State) (n : Nat) : TransporterRec :=
  { position := n, atRest := true, inMotion := false, condition := .normal, missCount := 0, progress := .stopped, grace := s.params.grace
    lastSent := n, quietStand := false }

/-- `enroll-transporter` (R132, R133), in the CLOSED layout. -/
def State.takeEnroll (s : State) (q : Ask) (t n : Nat) (l : LoadTarget) : State :=
  match firstFailing (s.enrollTests t n l) with
  | some k => s.answer q (if k ≤ 2 then .refusedRange else .refusedState) (.failedTest k)
  | none =>
    let idle := decide (s.polls.outstanding = none) && decide (s.polls.gap = .stopped)
    let s := s.setTrain t (some (s.newTrain n))
    let s := s.setRun t (some { limit := n, ceiling := .creep, confirm := .none })
    let s := (s.grant t n).takeUpLoad t l
    (s.emit (if idle then [.pollNext] else [])).answer q .done .empty

/-- A transporter's load and record removed, and the poll to it ended (R134 stages 4 to 6). -/
def State.removeTrain (s : State) (t : Nat) : State :=
  let s := match s.load t with
    | some (.telescope x) => s.placeTelescope x .unplaced
    | _ => s
  let s := s.setLoad t none
  let s := if s.polls.outstanding.any fun x => decide (x.transporter = t) then s.endPoll else s
  (s.setTrain t none).setRun t none

/-- `disenroll-transporter` (R134). The orders end first, and their records' claim points stand as they were (assumption 38); the segments held are
released in ascending number (assumption 39). The work of the releases of stage 3 reads nothing that the later stages change, and is worked off after them. -/
def State.takeDisenroll (s : State) (q : Ask) (t : Nat) : State :=
  if 3 < t then s.answer q .refusedRange .empty
  else match s.train t with
    | none => s.answer q .refusedState .empty
    | some r =>
      if r.condition ≠ .lost ∧ r.atRest = false then s.answer q .refusedState .empty
      else
        let s := (s.endAllOrders t).leaveQueues t
        let held := s.holdings t
        ((s.removeTrain t).emit (held.map (fun n => .release n t) ++ [.quietTest])).answer q .done .empty

/-- The transporter given the segment on which it was found, and its record renewed (R143 stages 3 and 4). -/
def State.putTrain (s : State) (t n : Nat) : State :=
  let s := if s.holds t n then s.setSeg n { s.seg n with leaving := false, withdrawing := none } else s.grant t n
  let s := s.updateTrain t fun r =>
    { r with position := n, condition := .normal, missCount := 0, grace := s.params.grace, progress := .stopped }
  (s.setConfirm t .none).emit [.recompute t]

/-- `clear-astray` (R143). The orders end first, and their records' claim points stand as they were (assumption 38); the other segments held are released
in ascending number (assumption 39). The work of the releases of stage 3 reads nothing that the later stages change, and is worked off after them. -/
def State.takeClearAstray (s : State) (q : Ask) (t n : Nat) : State :=
  if 3 < t ∨ 127 < n ∨ (s.decl n).isNone = true then s.answer q .refusedRange .empty
  else if !s.hasCondition t .astray then s.answer q .refusedState .empty
  else if !(s.holds t n || ((s.seg n).holder.isNone && decide (s.fenceCount n = 0))) then s.answer q .refusedState .empty
  else
    let s := (s.endAllOrders t).leaveQueues t
    let others := (s.holdings t).filter fun m => decide (m ≠ n)
    ((s.putTrain t n).emit (others.map fun m => .release m t)).answer q .done .empty

/-- `proceed` (R147). -/
def State.takeProceed (s : State) (q : Ask) (t : Nat) : State :=
  if 3 < t then s.answer q .refusedRange .empty
  else if !s.hasCondition t .stalled then s.answer q .refusedState .empty
  else (s.backToNormal t).answer q .done .empty

end Sys2Proof.Machine
end

