-- ==== Sys2Proof/Machine/Wayside.lean ====
section
/-!
DEFINITION. Machine/Wayside.lean: the Wayside Port's receiver, its in-queue and its supervision of the link (R170 to R176).
-/

namespace Sys2Proof.Machine

/-- A check error: what was received is discarded and WAYSIDE enters (R172). -/
def State.checkError (s : State) : State := (s.setReceiver .hunting).addWayside

/-- Whether a message's object is declared at this event (R173). -/
def State.messageDeclared (s : State) : InMessage → Bool
  | .sensor n _ => (s.decl n).isSome
  | .detection n _ => (s.decl n).isSome
  | .padEvent p _ => s.padDeclared p

/-- A good frame: the silence timer is started afresh and the link is LIVE (R173 step 1). -/
def State.heardWayside (s : State) : State :=
  { s with wayside := { s.wayside with silence := .running s.params.silenceTime, link := .live } }

/-- A message queued: discarded where its object is not declared, an overflow where the in-queue holds 16 (R173 steps 3 to 5). -/
def State.queueMessage (s : State) (m : InMessage) : State :=
  if s.messageDeclared m then
    if 16 ≤ s.wayside.inQueue.length then s.addWayside else s.setInQueue (s.wayside.inQueue ++ [m])
  else s

/-- A frame judged: the receiver returns to HUNTING, and a good frame is taken (R172, R173). -/
def State.judge (s : State) (bytes : List Byte) : State :=
  match judgeFrame bytes with
  | none => s.checkError
  | some .status => (s.setReceiver .hunting).heardWayside
  | some (.message m) => (s.setReceiver .hunting).heardWayside.queueMessage m

/-- A byte received on WRX (R172). -/
def State.receiveByte (s : State) (b : Byte) : State :=
  match s.wayside.receiver with
  | .hunting => if b = syncByte then s.setReceiver (.inFrame [b]) else s.checkError
  | .inFrame bytes => if bytes.length + 1 < 6 then s.setReceiver (.inFrame (bytes ++ [b])) else s.judge (bytes ++ [b])

/-- A gap of more than 5 ms: within a frame it ends the frame as a check error (R172). -/
def State.byteGap (s : State) : State :=
  match s.wayside.receiver with
  | .hunting => s
  | .inFrame _ => s.checkError

/-- The expiry of the silence timer (R176). -/
def State.silenceExpiry (s : State) : State :=
  match s.wayside.silence with
  | .running _ => State.addWayside { s with wayside := { s.wayside with silence := .expired, link := .silent } }
  | .expired => s

/-- The message at the head of the in-queue, taken out of it; the pause is decided afresh (R174, R175). -/
def State.popMessage (s : State) : State := s.setInQueue (s.wayside.inQueue.drop 1)

/-- A SENSOR message at the head of the in-queue is taken by the Interlock Core (R21, R175). -/
def State.headSensor (s : State) : State :=
  match s.wayside.inQueue with
  | .sensor n v :: _ => s.popMessage.takeSensor n v
  | _ => s

/-- A DETECTION message at the head of the in-queue is taken by the Junction Controller (R58, R175). -/
def State.headDetection (s : State) : State :=
  match s.wayside.inQueue with
  | .detection n v :: _ => s.popMessage.takeDetection n v
  | _ => s

/-- A PAD-EVENT message at the head of the in-queue is taken by the Transfer Unit (R125, R175). -/
def State.headPadEvent (s : State) : State :=
  match s.wayside.inQueue with
  | .padEvent p e :: _ => s.popMessage.takePadEvent p e
  | _ => s

/-- The last byte of an outgoing frame has left (R180). -/
def State.sendComplete (s : State) : State :=
  match s.wayside.transmitter with
  | .sending _ => (s.setTransmitter .idle).commit
  | .idle => s

end Sys2Proof.Machine
end

