-- ==== Sys2Proof/Machine/Port.lean ====
section
/-!
DEFINITION. Machine/Port.lean: the Control Port: its own requests, `restart`, the deciding of requests, and the windows (R184 to R205).
-/

namespace Sys2Proof.Machine

/-! ### Notices, enables, flags and parameters -/

/-- `fetch-notice` (R197). -/
def State.takeFetchNotice (s : State) (q : Ask) : State :=
  match s.port.notices with
  | [] => s.answer q .done (.notice 0 0 0)
  | n :: rest => (s.setNotices rest).answer q .done (.notice n.kind.number n.subject rest.length)

/-- `set-notice-enables` (R198). -/
def State.takeSetNoticeEnables (s : State) (q : Ask) (e : Word16) : State :=
  if 2 ^ 13 ≤ e.toNat then s.answer q .refusedRange .empty
  else State.answer { s with port := { s.port with enables := e } } q .done (.enables e)

/-- `clear-port` (R194). -/
def State.takeClearPort (s : State) (q : Ask) : State := (s.setFlags StickyFlags.initial).answer q .done (.stickyFlags s.port.flags)

/-- A parameter's value by its number (R203). -/
def Params.value (p : Params) : Nat → Option Nat
  | 1 => some p.lead
  | 2 => some p.throwTimeout
  | 3 => some p.holdTime
  | 4 => some p.proveInterval
  | 5 => some p.transferTimeout
  | 6 => some p.couplingTimeout
  | 7 => some p.replyWindow
  | 8 => some p.pollGap
  | 9 => some p.missLimit
  | 10 => some p.progressTime
  | 11 => some p.grace
  | 12 => some p.silenceTime
  | 13 => some p.attentionLevel
  | _ => none

/-- The range of a parameter (R203). -/
def paramRange : Nat → Nat × Nat
  | 1 => (1, 6)
  | 2 => (2, 30)
  | 3 => (0, 255)
  | 4 => (1, 255)
  | 5 => (10, 600)
  | 6 => (5, 300)
  | 7 => (5, 100)
  | 8 => (0, 250)
  | 9 => (1, 8)
  | 10 => (5, 250)
  | 11 => (0, 7)
  | 12 => (1, 30)
  | _ => (1, 8)

/-- A parameter replaced by its number (R203). -/
def Params.replace (p : Params) (n v : Nat) : Params :=
  match n with
  | 1 => { p with lead := v }
  | 2 => { p with throwTimeout := v }
  | 3 => { p with holdTime := v }
  | 4 => { p with proveInterval := v }
  | 5 => { p with transferTimeout := v }
  | 6 => { p with couplingTimeout := v }
  | 7 => { p with replyWindow := v }
  | 8 => { p with pollGap := v }
  | 9 => { p with missLimit := v }
  | 10 => { p with progressTime := v }
  | 11 => { p with grace := v }
  | 12 => { p with silenceTime := v }
  | 13 => { p with attentionLevel := v }
  | _ => p

/-- `set-parameter` (R203). -/
def State.takeSetParameter (s : State) (q : Ask) (n v : Nat) : State :=
  match s.port.params.value n with
  | none => s.answer q .refusedRange .empty
  | some old =>
    if (paramRange n).1 ≤ v ∧ v ≤ (paramRange n).2 then
      State.answer { s with port := { s.port with params := s.port.params.replace n v } } q .done (.parameter n old v)
    else s.answer q .refusedRange .empty

/-! ### Restart -/

/-- The Core after `restart`: each transporter keeps its position and nothing else (R20). -/
def State.restartCore (s : State) : State :=
  let segs := Table.mapRecords SegDyn.initial (fun n r =>
    { holder := r.holder.filter fun t => decide (s.position t = some n), queue := [], sensor := r.sensor, leaving := false
      withdrawing := none }) s.core.segs
  let runs := Table.mapRecords none (fun _ r => r.map fun x => { x with confirm := .none }) s.core.runs
  { s with core := { segs := segs, runs := runs, waiting := [] } }

/-- A junction's record after `restart`; `released` says that the restart released it (R53, R63). A recovery prove is forgotten, and the junction then
counts as faulted no more (assumption 53). -/
def JunctionRec.restarted (r : JunctionRec) (released : Bool) (holdTime : Nat) : JunctionRec :=
  { position := if r.position = .moving then .unknown else r.position
    operation := none
    hold := if released then (if holdTime = 0 then .expired else .running holdTime) else r.hold
    waiters := []
    untrusted := false
    underHolder := r.underHolder && !released }

/-- Whether the restart releases a segment (R20). -/
def State.restartReleases (s : State) (n : Nat) : Bool :=
  match (s.seg n).holder with
  | some t => decide (s.position t ≠ some n)
  | none => false

/-- The Junction Controller after `restart`, read from the holdings as they stood before it (R63). -/
def State.restartJunctions (s : State) : State :=
  { s with junctions :=
      { recs := Table.mapRecords none (fun n r => r.map fun x => x.restarted (s.restartReleases n) s.params.holdTime) s.junctions.recs
        pointer := none
        interval := .stopped } }

/-- The telescope a pad leaves in doubt at `restart`, and whether it does (R128). -/
def State.restartDoubt (s : State) (p : Nat) : Option (Option Nat) :=
  let r := s.pad p
  match r.state with
  | .releasing => some r.occupant
  | .seated => some r.occupant
  | .inbound => if (s.transferAt p).isSome then some r.expected else none
  | _ => none

/-- A pad's record after `restart` (R128). -/
def State.restartPad (s : State) (p : Nat) (r : PadRec) : PadRec :=
  match s.restartDoubt p with
  | some x => r.unsettledWith x
  | none =>
    match r.state with
    | .anchored => { r with claim := none }
    | .inbound => { r with state := .vacant, expected := none, claim := none }
    | _ => r

/-- The Transfer Unit after `restart` (R128). -/
def State.restartTransfers (s : State) : State :=
  let doubtful := (Table.keys s.transfer.pads).filterMap fun p => (s.restartDoubt p).bind id
  let busy := s.transfer.transfers.filterMap fun e => e.2.map (·.transporter)
  { s with transfer :=
      { pads := Table.mapRecords PadRec.undeclared s.restartPad s.transfer.pads
        telescopes := doubtful.foldl (fun t x => Table.put .unplaced t x .unplaced) s.transfer.telescopes
        loads := Table.mapRecords none (fun t l => if busy.contains t then some .unverified else l) s.transfer.loads
        transfers := [] } }

/-- A transporter's record after `restart` (R152). -/
def TransporterRec.restarted (r : TransporterRec) (grace : Nat) : TransporterRec :=
  { r with condition := if r.condition = .astray then .astray else .normal, missCount := 0, progress := .stopped, grace := grace
           quietStand := false }

/-- The Poll Engine after `restart` (R152). -/
def State.restartPolls (s : State) : State :=
  { s with polls :=
      { recs := Table.mapRecords none (fun _ r => r.map fun x => x.restarted s.params.grace) s.polls.recs
        pointer := none
        outstanding := none
        nextSequence := s.polls.nextSequence
        window := .stopped
        gap := .stopped
        quiet := .off } }

/-- The Wayside Port after `restart`: both queues are emptied, and the receiver, the silence timer, the link state and a message being sent are kept
(R170, R183). -/
def State.restartWayside (s : State) : State := (s.setOutQueue []).setInQueue []

/-- The Control Port after `restart`: RESTARTED alone is pending, the RESTARTED flag is set and the cause is RESTART (R204). -/
def State.restartPort (s : State) : State :=
  { s with port :=
      { s.port with requests := [], flags := { s.port.flags with restarted := true }, notices := [⟨.restarted, 0⟩], cause := .restart } }

/-- `restart` (R204). The limits are recomputed, the hold ends where DESK alone kept it, and a poll goes to the lowest-numbered transporter (R20, R152,
R164). The rest decision is made for the segments released, before the first rotation prove (assumption 36), and not for a junction whose claimant queue
the restart emptied (assumption 37). -/
def State.takeRestart (s : State) (q : Ask) : State :=
  let freed := (Table.keys s.core.segs).filter s.restartReleases
  let s := (s.answer q .done .empty).restartJunctions.restartTransfers.restartCore
  let s := { s with orders := { slots := [], refs := [] }, due := [] }
  let s := (s.setFenced []).restartPolls.restartWayside.restartPort
  let s := s.emit (s.enrolledList.map .recompute ++ freed.map .restDecision)
  (s.changeHold { s.guards.hold with desk := false }).emit [.pollNext]

/-! ### Deciding requests -/

/-- A request decided by the block that owns it (R189 stage 5). -/
def State.owner (s : State) (q : Ask) (who : Originator) : Request → State
  | .readStatus => s.takeReadStatus q
  | .readSegment n => s.takeReadSegment q n
  | .readPad n => s.takeReadPad q n
  | .readTransporter n => s.takeReadTransporter q n
  | .readOrder n p => s.takeReadOrder q n p
  | .readTelescope n => s.takeReadTelescope q n
  | .sweepPads f c d => s.takeSweepPads q f c d
  | .fetchNotice => s.takeFetchNotice q
  | .setNoticeEnables e => s.takeSetNoticeEnables q e
  | .clearPort => s.takeClearPort q
  | .setParameter n v => s.takeSetParameter q n v
  | .restart => s.takeRestart q
  | .declareSegment n k g v r l1 l2 l3 =>
    s.takeDeclareSegment q n { kind := k, first := l1, second := l2, third := l3, speed := v, guard := g, rest := r }
  | .closeLayout => s.takeCloseLayout q
  | .clearSwitch n => s.takeClearSwitch q n
  | .submitOrder t k f leg => s.takeSubmitOrder q who t k f leg
  | .cancelOrder n => s.takeCancelOrder q n
  | .divert t out back => s.takeDivert q who t out back
  | .resumeRefuge n => s.takeResumeRefuge q n
  | .declarePad p a g i => s.takeDeclarePad q p a g i
  | .settlePad p x => s.takeSettlePad q p x
  | .settleLoad t l => s.takeSettleLoad q t l
  | .barPad n => s.takeBarPad q n
  | .unbarPad n => s.takeUnbarPad q n
  | .recouplePad n => s.takeRecouplePad q n
  | .enrollTransporter t n l => s.takeEnroll q t n l
  | .disenrollTransporter n => s.takeDisenroll q n
  | .clearAstray t n => s.takeClearAstray q t n
  | .proceed n => s.takeProceed q n
  | .enterQuiet => s.takeEnterQuiet q
  | .leaveQuiet => s.takeLeaveQuiet q
  | .setGrants w p g => s.takeSetGrants q w p g
  | .setFence a b c => s.takeSetFence q who a b c
  | .clearFence n => s.takeClearFence q who n
  | .hold => s.takeHold q
  | .releaseHold => s.takeReleaseHold q
  | .clearWayside => s.takeClearWayside q

/-- A valid request decided in stages 3 to 5 of R189: class, object check at entry, layout state, owner. -/
def State.decideValid (s : State) (q : Ask) (who : Originator) (r : Request) : State :=
  if classAllows (classOf r) who = false then s.answer q .denied .deniedClass
  else match (entryObject r).bind fun x => s.firstRefused who [x] with
    | some (k, n) => s.answer q .denied (.deniedObject k n)
    | none => if s.layoutRefuses r then s.answer q .refusedState .empty else s.owner q who r

/-- A taken request decided (R189). -/
def State.decideRequest (s : State) (x : QueuedRequest) : State :=
  let q : Ask := ⟨x.tag, x.code⟩
  match x.content with
  | .unknown => s.answer q .unknownRequest .empty
  | .malformed => s.answer q .malformed .empty
  | .valid who r => s.decideValid q who r

/-- The answer that the work of the request has decided is placed (R84, R93, R99, R148). -/
def State.placeLate (s : State) : State :=
  match s.late with
  | none => s
  | some x =>
    let s := { s with late := none }
    match x with
    | .cancel q slot => s.answerCancel q slot
    | .divert q slot => s.answerDivert q slot
    | .resume q slot => s.answerResume q slot
    | .quiet q => s.answerQuiet q

/-- A good frame joins the request queue, or finds it full (R185, R190). -/
def State.joinRequests (s : State) (x : QueuedRequest) : State :=
  if 8 ≤ s.port.requests.length then s.setOverrun else s.setRequests (s.port.requests ++ [x])

/-! ### Windows -/

/-- A complete frame: its check is compared, and it is queued or discarded (R185). -/
def State.frameComplete (s : State) (bytes : List Byte) : State :=
  let n := bytes.length - 2
  if checkAgrees (bytes.take n) (bytes.drop n) then s.joinRequests (readFrame bytes) else s.setCheck

/-- One complete byte shifted in during a window (R185). -/
def State.shiftIn (s : State) (b : Byte) : State :=
  match s.port.window with
  | .closed => s
  | .opened f sent input =>
    match input with
    | .disregarded => s
    | .awaitingLength =>
      if b.toNat = 0 then s.setWindow (.opened f sent .disregarded)
      else if b.toNat ≤ 4 ∨ 65 ≤ b.toNat then (s.setWindow (.opened f sent .disregarded)).setFraming
      else s.setWindow (.opened f sent (.collecting b.toNat [b]))
    | .collecting n bytes =>
      if bytes.length + 1 < n then s.setWindow (.opened f sent (.collecting n (bytes ++ [b])))
      else (s.setWindow (.opened f sent .disregarded)).frameComplete (bytes ++ [b])

/-- Bytes shifted in during a window, in order (R184, R185). -/
def State.shiftBytes (s : State) (bytes : List Byte) : State := bytes.foldl State.shiftIn s

/-- The frame fixed at a window's beginning: the answer at the head of the answer queue, or the null frame, with the summary flags composed now
(R184, R193). -/
def State.fixFrame (s : State) : SentFrame := { answer := s.port.answers.head?, flags := s.summary }

/-- CSEL_N falls (R184). -/
def State.beginWindow (s : State) : State :=
  match s.port.window with
  | .closed => s.setWindow (.opened s.fixFrame false .awaitingLength)
  | .opened _ _ _ => s

/-- CSEL_N rises: a request frame still being collected sets FRAMING (R185). -/
def State.endWindow (s : State) : State :=
  match s.port.window with
  | .opened _ _ (.collecting _ _) => (s.setWindow .closed).setFraming
  | _ => s.setWindow .closed

/-- The last byte of an answer is shifted out: the answer leaves the queue (R191). -/
def State.answerLeaves (s : State) : State :=
  match s.port.window with
  | .opened f false input =>
    match f.answer with
    | some _ => (s.setWindow (.opened f true input)).setAnswers (s.port.answers.drop 1)
    | none => s
  | _ => s

end Sys2Proof.Machine
end

