-- ==== Sys2Proof/Machine/Cascade.lean ====
section
/-!
DEFINITION. Machine/Cascade.lean: how the work of one event is carried through the blocks.

An event edits the records and lists tasks; the tasks are worked off first in, depth first, so that what a task sets off comes before what was
listed after it, in the order in which the rules name it (assumption 2).
-/

namespace Sys2Proof.Machine

/-- What one task does. -/
def runTask (x : Task) (s : State) : State :=
  match x with
  | .recompute t => s.recompute t
  | .release n t => s.release n t
  | .tailRelease n t => s.tailRelease n t
  | .serve n => s.serve n
  | .serveAll => s.serveAll
  | .retry n causes => s.retry n causes
  | .retryAll => s.retryAll
  | .represent slot n => s.represent slot n
  | .claim slot => s.claim slot
  | .extend => s.extend
  | .throwCheck j => s.throwCheck j
  | .restDecision j => s.restDecision j
  | .reviewJunctions t => s.reviewJunctions t
  | .rotation => s.rotation
  | .confirm t => s.confirm t
  | .confirmed t => s.confirmed t
  | .complete t => s.complete t
  | .arrival t => s.arrival t
  | .takeUpPending t => s.takeUpPending t
  | .startTransfers => s.startTransfers
  | .progressReport t moved inMotion => s.progressReport t moved inMotion
  | .driveFault t => s.driveFault t
  | .loadEvent r => s.takeLoadEvent r
  | .quietStand r inQuiet => s.quietStand r inQuiet
  | .quietTest => s.quietTest
  | .pollNext => s.pollNext
  | .resumeTransfers => s.resumeTransfers

/-- The first task listed is done, and what it lists comes before the rest. -/
def settleOne (s : State) : State :=
  match s.agenda with
  | [] => s
  | x :: rest =>
    let t := runTask x { s with agenda := [] }
    { t with agenda := t.agenda ++ rest }

/-- The work listed is done, at most `n` tasks of it. -/
def settle : Nat → State → State
  | 0, s => s
  | n + 1, s => if s.agenda.isEmpty then s else settle n (settleOne s)

/-- The blocks' work: what is listed is done, and then what the lead extension, the transfers and the rotation find to do (R55, R72, R79). -/
def workOff (s : State) : State := settle Config.eventBound (s.emit [.extend, .startTransfers, .rotation])

/-- The end of an event: the ATTENTION line is decided (R195). The commands that wait, `pending`, are not the blocks' to change. -/
def closeEvent (pending : List Instr) (s : State) : State := { s.decideAttention with pending := pending }

/-- An event of the blocks: `act` edits the records and lists work, and the work is done. -/
def runEvent (act : State → State) (s : State) : State := closeEvent s.pending (workOff (act s))

/-- The request at the head of the request queue is taken, where the answer queue holds fewer than 8: it is decided, the blocks' work is done, and an
answer that the work decides is placed (R189, R190). It has left the queue when its body is built (R202, assumption 41). -/
def takeRequest (s : State) : State :=
  match s.port.requests with
  | [] => s
  | x :: rest => if s.port.answers.length < 8 then (workOff ((s.setRequests rest).decideRequest x)).placeLate else s

/-- Up to `n` requests taken in turn (R190). -/
def takeRequests : Nat → State → State
  | 0, s => s
  | n + 1, s => takeRequests n (takeRequest s)

/-- An event of the Control Port: `act` edits the port's queues and window, and then as many waiting requests are taken as have room for their answers
(R190). -/
def runPort (act : State → State) (s : State) : State :=
  let t := act s
  closeEvent s.pending (takeRequests t.port.requests.length t)

/-- A request put to the part: its frame, complete and good, joins the request queue (R185, R190, assumption 1). -/
def submit (h : Header) (r : Request) (s : State) : State :=
  runPort (fun s => s.joinRequests { tag := h.tag, code := codeOf r, content := .valid h.originator r }) s

end Sys2Proof.Machine
end

