-- ==== Sys2Proof/Machine/GuardRequests.lean ====
section
/-!
DEFINITION. Machine/GuardRequests.lean: the requests of the Guard Unit and of the Wayside Port as commands.
-/

namespace Sys2Proof.Machine

/-- SET_GRANTS: a grant map replaced (R157). -/
def execSetGrants (h : Header) (who : Nat) (padGroups segmentGroups : List Nat) (s : State) : Host.Outcome State Fault Refusal :=
  .next (submit h (.setGrants who padGroups segmentGroups) s)

/-- SET_FENCE: a fence set (R159 to R161). -/
def execSetFence (h : Header) (slot base size : Nat) (s : State) : Host.Outcome State Fault Refusal :=
  .next (submit h (.setFence slot base size) s)

/-- CLEAR_FENCE: a fence cleared (R163). -/
def execClearFence (h : Header) (slot : Nat) (s : State) : Host.Outcome State Fault Refusal :=
  .next (submit h (.clearFence slot) s)

/-- HOLD: DESK enters (R166). -/
def execHold (h : Header) (s : State) : Host.Outcome State Fault Refusal :=
  .next (submit h .hold s)

/-- RELEASE_HOLD: DESK leaves (R166). -/
def execReleaseHold (h : Header) (s : State) : Host.Outcome State Fault Refusal :=
  .next (submit h .releaseHold s)

/-- CLEAR_WAYSIDE: WAYSIDE leaves (R177). -/
def execClearWayside (h : Header) (s : State) : Host.Outcome State Fault Refusal :=
  .next (submit h .clearWayside s)

end Sys2Proof.Machine
end

