-- ==== Sys2Proof/Machine/LayoutRequests.lean ====
section
/-!
DEFINITION. Machine/LayoutRequests.lean: the requests of the layout and of the junctions as commands.
-/

namespace Sys2Proof.Machine

/-- DECLARE_SEGMENT: a segment declared (R5, R6). -/
def execDeclareSegment (h : Header) (segment : Nat) (kind : SegKind) (guard : Nat) (speed : SpeedClass) (rest : RestPosition)
    (first second third : Option Link) (s : State) : Host.Outcome State Fault Refusal :=
  .next (submit h (.declareSegment segment kind guard speed rest first second third) s)

/-- CLOSE_LAYOUT: the layout checked and closed (R8 to R11). -/
def execCloseLayout (h : Header) (s : State) : Host.Outcome State Fault Refusal :=
  .next (submit h .closeLayout s)

/-- CLEAR_SWITCH: a FAULTED junction proved again (R61). -/
def execClearSwitch (h : Header) (segment : Nat) (s : State) : Host.Outcome State Fault Refusal :=
  .next (submit h (.clearSwitch segment) s)

end Sys2Proof.Machine
end

