-- ==== Sys2Proof/Machine/OrderRequests.lean ====
section
/-!
DEFINITION. Machine/OrderRequests.lean: the requests of the Order Table as commands.
-/

namespace Sys2Proof.Machine

/-- SUBMIT_ORDER: an order submitted (R67 to R70). -/
def execSubmitOrder (h : Header) (t : Nat) (kind : OrderKind) (finish : Finish) (leg : List Stretch) (s : State) : Host.Outcome State Fault Refusal :=
  .next (submit h (.submitOrder t kind finish leg) s)

/-- CANCEL_ORDER: an order cancelled (R83 to R86, R102, R103). -/
def execCancelOrder (h : Header) (slot : Nat) (s : State) : Host.Outcome State Fault Refusal :=
  .next (submit h (.cancelOrder slot) s)

/-- DIVERT: a transporter diverted (R90 to R96). -/
def execDivert (h : Header) (t : Nat) (outLeg backLeg : List Stretch) (s : State) : Host.Outcome State Fault Refusal :=
  .next (submit h (.divert t outLeg backLeg) s)

/-- RESUME_REFUGE: a DWELLING refuge resumed (R99). -/
def execResumeRefuge (h : Header) (slot : Nat) (s : State) : Host.Outcome State Fault Refusal :=
  .next (submit h (.resumeRefuge slot) s)

end Sys2Proof.Machine
end

