-- ==== Sys2Proof/Machine/PadRequests.lean ====
section
/-!
DEFINITION. Machine/PadRequests.lean: the requests of the Transfer Unit as commands.
-/

namespace Sys2Proof.Machine

/-- DECLARE_PAD: a pad declared (R107). -/
def execDeclarePad (h : Header) (pad access guard : Nat) (initial : PadTarget) (s : State) : Host.Outcome State Fault Refusal :=
  .next (submit h (.declarePad pad access guard initial) s)

/-- SETTLE_PAD: an UNSETTLED pad settled (R109). -/
def execSettlePad (h : Header) (pad : Nat) (target : PadTarget) (s : State) : Host.Outcome State Fault Refusal :=
  .next (submit h (.settlePad pad target) s)

/-- SETTLE_LOAD: an UNVERIFIED load settled (R110). -/
def execSettleLoad (h : Header) (t : Nat) (target : LoadTarget) (s : State) : Host.Outcome State Fault Refusal :=
  .next (submit h (.settleLoad t target) s)

/-- BAR_PAD: a VACANT pad barred (R108). -/
def execBarPad (h : Header) (pad : Nat) (s : State) : Host.Outcome State Fault Refusal :=
  .next (submit h (.barPad pad) s)

/-- UNBAR_PAD: a BARRED pad made VACANT (R108). -/
def execUnbarPad (h : Header) (pad : Nat) (s : State) : Host.Outcome State Fault Refusal :=
  .next (submit h (.unbarPad pad) s)

/-- RECOUPLE_PAD: a SEATED pad coupled again (R124). -/
def execRecouplePad (h : Header) (pad : Nat) (s : State) : Host.Outcome State Fault Refusal :=
  .next (submit h (.recouplePad pad) s)

end Sys2Proof.Machine
end

