-- ==== Sys2Proof/Machine/Pins.lean ====
section
/-!
DEFINITION. Machine/Pins.lean: the commands of the supply, reset and hold pins.
-/

namespace Sys2Proof.Machine

/-- The part at its power-on state, with the reset cause given. The commands that wait are kept, and so is the count of free values drawn, which
are the model's own (assumption 9). -/
def State.restartedBy (s : State) (cause : ResetCause) : State :=
  { State.reset with port := { State.reset.port with cause := cause }, pending := s.pending, freeCount := s.freeCount }

/-- POWER_ON: every block is in its power-on state, with reset cause POWER (R205). -/
def execPowerOn (s : State) : Host.Outcome State Fault Refusal :=
  .next (s.restartedBy .power)

/-- RESET_LINE: RESET_N low and its rise as one command; as power-on, with reset cause LINE (R205, assumption 9). -/
def execResetLine (s : State) : Host.Outcome State Fault Refusal :=
  .next (s.restartedBy .line)

/-- HOLD_ASSERTED: the filtered HOLD input is taken as asserted, and LINE enters (R165). -/
def execHoldAsserted (s : State) : Host.Outcome State Fault Refusal :=
  .next (runEvent (fun s => s.setLine true) s)

/-- HOLD_DEASSERTED: the filtered HOLD input is taken as deasserted, and LINE leaves (R165). -/
def execHoldDeasserted (s : State) : Host.Outcome State Fault Refusal :=
  .next (runEvent (fun s => s.setLine false) s)

end Sys2Proof.Machine
end

