-- ==== Sys2Proof/Machine/PortRequests.lean ====
section
/-!
DEFINITION. Machine/PortRequests.lean: the Control Port's own requests as commands.
-/

namespace Sys2Proof.Machine

/-- FETCH_NOTICE: the pending notice of highest priority, cleared (R197). -/
def execFetchNotice (h : Header) (s : State) : Host.Outcome State Fault Refusal :=
  .next (submit h .fetchNotice s)

/-- SET_NOTICE_ENABLES: the enables replaced (R198). -/
def execSetNoticeEnables (h : Header) (enables : Word16) (s : State) : Host.Outcome State Fault Refusal :=
  .next (submit h (.setNoticeEnables enables) s)

/-- CLEAR_PORT: the sticky flags cleared (R194). -/
def execClearPort (h : Header) (s : State) : Host.Outcome State Fault Refusal :=
  .next (submit h .clearPort s)

/-- SET_PARAMETER: a parameter replaced (R203). -/
def execSetParameter (h : Header) (number value : Nat) (s : State) : Host.Outcome State Fault Refusal :=
  .next (submit h (.setParameter number value) s)

/-- RESTART: every block to its restart state (R204). -/
def execRestart (h : Header) (s : State) : Host.Outcome State Fault Refusal :=
  .next (submit h .restart s)

end Sys2Proof.Machine
end

