-- ==== Sys2Proof/Machine/ReadRequests.lean ====
section
/-!
DEFINITION. Machine/ReadRequests.lean: the read requests as commands.
-/

namespace Sys2Proof.Machine

/-- READ_STATUS: the part's status (R202). -/
def execReadStatus (h : Header) (s : State) : Host.Outcome State Fault Refusal :=
  .next (submit h .readStatus s)

/-- READ_SEGMENT: a segment's records (R199). -/
def execReadSegment (h : Header) (segment : Nat) (s : State) : Host.Outcome State Fault Refusal :=
  .next (submit h (.readSegment segment) s)

/-- READ_PAD: a pad's record and its transfer (R104). -/
def execReadPad (h : Header) (pad : Nat) (s : State) : Host.Outcome State Fault Refusal :=
  .next (submit h (.readPad pad) s)

/-- READ_TRANSPORTER: a transporter's records (R131). -/
def execReadTransporter (h : Header) (t : Nat) (s : State) : Host.Outcome State Fault Refusal :=
  .next (submit h (.readTransporter t) s)

/-- READ_ORDER: one part of an order's record (R66, R200). -/
def execReadOrder (h : Header) (slot : Nat) (part : Option Nat) (s : State) : Host.Outcome State Fault Refusal :=
  .next (submit h (.readOrder slot part) s)

/-- READ_TELESCOPE: a telescope's placement (R105). -/
def execReadTelescope (h : Header) (x : Nat) (s : State) : Host.Outcome State Fault Refusal :=
  .next (submit h (.readTelescope x) s)

/-- SWEEP_PADS: summaries of up to 8 pads (R201). -/
def execSweepPads (h : Header) (first count : Nat) (sense : Sense) (s : State) : Host.Outcome State Fault Refusal :=
  .next (submit h (.sweepPads first count sense) s)

end Sys2Proof.Machine
end

