-- ==== Sys2Proof/Machine/TimerEvents.lean ====
section
/-!
DEFINITION. Machine/TimerEvents.lean: the expiries of the timers of the Junction Controller and of the Transfer Unit.
-/

namespace Sys2Proof.Machine

/-- OPERATION_TIMER_EXPIRY: a switch machine has not answered in time (R52, R56, R62). -/
def execOperationTimerExpiry (j : Nat) (s : State) : Host.Outcome State Fault Refusal :=
  .next (runEvent (fun s => s.operationExpiry j) s)

/-- JUNCTION_HOLD_EXPIRY: a released junction's hold time has passed (R53). -/
def execJunctionHoldExpiry (j : Nat) (s : State) : Host.Outcome State Fault Refusal :=
  .next (runEvent (fun s => s.holdExpiry j) s)

/-- PROVE_INTERVAL_EXPIRY: the prove interval has passed, and the rotation goes on (R55). -/
def execProveIntervalExpiry (s : State) : Host.Outcome State Fault Refusal :=
  .next (runEvent State.intervalExpiry s)

/-- TRANSFER_TIMER_EXPIRY: a transfer has not completed in time (R121). -/
def execTransferTimerExpiry (pad : Nat) (s : State) : Host.Outcome State Fault Refusal :=
  .next (runEvent (fun s => s.transferExpiry pad) s)

/-- COUPLING_TIMER_EXPIRY: a coupling has not been reported in time (R123). -/
def execCouplingTimerExpiry (pad : Nat) (s : State) : Host.Outcome State Fault Refusal :=
  .next (runEvent (fun s => s.couplingExpiry pad) s)

end Sys2Proof.Machine
end

