-- ==== Sys2Proof/Machine/TransporterEvents.lean ====
section
/-!
DEFINITION. Machine/TransporterEvents.lean: the commands of the transporter link (R135 to R146).
-/

namespace Sys2Proof.Machine

/-- A frame received on the transporter link: discarded where a check of R138 fails. -/
def State.hearFrame (s : State) (bytes : List Byte) : State :=
  match readReport bytes with
  | some r => s.hearReport r
  | none => s

/-- GAP_TIMER_EXPIRY: the inter-poll gap has passed, and a poll goes to the next transporter (R135). -/
def execGapTimerExpiry (s : State) : Host.Outcome State Fault Refusal :=
  .next (runEvent State.gapExpiry s)

/-- POLL_TRANSMITTED: the last byte of the poll has left, and the reply window starts (R136). -/
def execPollTransmitted (s : State) : Host.Outcome State Fault Refusal :=
  .next (runEvent State.pollTransmitted s)

/-- TRANSPORTER_REPORT: a frame received on the transporter link; one that fails a check of R138 is discarded (R138, R139). -/
def execTransporterReport (bytes : List Byte) (s : State) : Host.Outcome State Fault Refusal :=
  .next (runEvent (fun s => s.hearFrame bytes) s)

/-- REPLY_WINDOW_EXPIRY: the reply is missed (R140). -/
def execReplyWindowExpiry (s : State) : Host.Outcome State Fault Refusal :=
  .next (runEvent State.windowExpiry s)

/-- PROGRESS_TIMER_EXPIRY: a transporter makes no progress and is STALLED (R146). -/
def execProgressTimerExpiry (t : Nat) (s : State) : Host.Outcome State Fault Refusal :=
  .next (runEvent (fun s => s.progressExpiry t) s)

end Sys2Proof.Machine
end

