-- ==== Sys2Proof/Machine/TransporterRequests.lean ====
section
/-!
DEFINITION. Machine/TransporterRequests.lean: the requests of the Poll Engine as commands.
-/

namespace Sys2Proof.Machine

/-- ENROLL_TRANSPORTER: a transporter enrolled (R132, R133). -/
def execEnrollTransporter (h : Header) (t position : Nat) (load : LoadTarget) (s : State) : Host.Outcome State Fault Refusal :=
  .next (submit h (.enrollTransporter t position load) s)

/-- DISENROLL_TRANSPORTER: a transporter disenrolled (R134). -/
def execDisenrollTransporter (h : Header) (t : Nat) (s : State) : Host.Outcome State Fault Refusal :=
  .next (submit h (.disenrollTransporter t) s)

/-- CLEAR_ASTRAY: an ASTRAY transporter placed (R143). -/
def execClearAstray (h : Header) (t segment : Nat) (s : State) : Host.Outcome State Fault Refusal :=
  .next (submit h (.clearAstray t segment) s)

/-- PROCEED: a STALLED transporter returned to NORMAL (R147). -/
def execProceed (h : Header) (t : Nat) (s : State) : Host.Outcome State Fault Refusal :=
  .next (submit h (.proceed t) s)

/-- ENTER_QUIET: radio quiet asked for (R148). -/
def execEnterQuiet (h : Header) (s : State) : Host.Outcome State Fault Refusal :=
  .next (submit h .enterQuiet s)

/-- LEAVE_QUIET: radio quiet ended (R151). -/
def execLeaveQuiet (h : Header) (s : State) : Host.Outcome State Fault Refusal :=
  .next (submit h .leaveQuiet s)

end Sys2Proof.Machine
end

