-- ==== Sys2Proof/Machine/WaysideEvents.lean ====
section
/-!
DEFINITION. Machine/WaysideEvents.lean: the commands of the wayside link (R172 to R180).
-/

namespace Sys2Proof.Machine

/-- WAYSIDE_FRAME: the bytes of a frame arrive on WRX (R172, R173). -/
def execWaysideFrame (bytes : List Byte) (s : State) : Host.Outcome State Fault Refusal :=
  .next (runEvent (fun s => bytes.foldl State.receiveByte s) s)

/-- WAYSIDE_BYTE_GAP_TIMEOUT: a gap within a frame ends it as a check error (R172). -/
def execWaysideByteGapTimeout (s : State) : Host.Outcome State Fault Refusal :=
  .next (runEvent State.byteGap s)

/-- SILENCE_TIMER_EXPIRY: the link is SILENT, and WAYSIDE enters (R176). -/
def execSilenceTimerExpiry (s : State) : Host.Outcome State Fault Refusal :=
  .next (runEvent State.silenceExpiry s)

/-- SENSOR: the Interlock Core takes the SENSOR message at the head of the in-queue (R21, R175). -/
def execSensor (s : State) : Host.Outcome State Fault Refusal :=
  .next (runEvent State.headSensor s)

/-- DETECTION: the Junction Controller takes the DETECTION message at the head of the in-queue (R58, R175). -/
def execDetection (s : State) : Host.Outcome State Fault Refusal :=
  .next (runEvent State.headDetection s)

/-- PAD_EVENT: the Transfer Unit takes the PAD-EVENT message at the head of the in-queue (R125, R175). -/
def execPadEvent (s : State) : Host.Outcome State Fault Refusal :=
  .next (runEvent State.headPadEvent s)

/-- WAYSIDE_SEND_COMPLETE: the last byte of an outgoing frame has left (R180). -/
def execWaysideSendComplete (s : State) : Host.Outcome State Fault Refusal :=
  .next (runEvent State.sendComplete s)

/-- BYTE_IN_HUNTING: a byte arrives on WRX while the receiver hunts for the sync byte (R172). -/
def execByteInHunting (byte : Byte) (s : State) : Host.Outcome State Fault Refusal :=
  .next (runEvent (fun s => s.receiveByte byte) s)

end Sys2Proof.Machine
end

