-- ==== Sys2Proof/Machine/Windows.lean ====
section
/-!
DEFINITION. Machine/Windows.lean: the commands of the control link windows (R184, R185, R191).
-/

namespace Sys2Proof.Machine

/-- WINDOW_BEGIN: CSEL_N falls, and the frame to be sent is fixed (R184). -/
def execWindowBegin (s : State) : Host.Outcome State Fault Refusal :=
  .next (closeEvent s.pending s.beginWindow)

/-- WINDOW_END: the bytes shifted in since the last command, and then CSEL_N rises (R185). -/
def execWindowEnd (bytes : List Byte) (s : State) : Host.Outcome State Fault Refusal :=
  .next (runPort (fun s => (s.shiftBytes bytes).endWindow) s)

/-- REQUEST_FRAME_COMPLETE: the bytes shifted in up to the last of a request frame (R185). -/
def execRequestFrameComplete (bytes : List Byte) (s : State) : Host.Outcome State Fault Refusal :=
  .next (runPort (fun s => s.shiftBytes bytes) s)

/-- ANSWER_SENT: the last byte of the answer is shifted out (R190, R191). -/
def execAnswerSent (s : State) : Host.Outcome State Fault Refusal :=
  .next (runPort State.answerLeaves s)

/-- LENGTH_BYTE_FRAMING: the first complete byte of a window is no length a frame can have (R185). -/
def execLengthByteFraming (byte : Byte) (s : State) : Host.Outcome State Fault Refusal :=
  .next (runPort (fun s => s.shiftIn byte) s)

end Sys2Proof.Machine
end

