-- ==== Sys2Proof/Machine/Dispatch.lean ====
section
/-!
DEFINITION. Machine/Dispatch.lean: one arm for each command, each a direct call of its meaning.
-/

namespace Sys2Proof.Machine

def exec (i : Instr) (s : State) : Host.Outcome State Fault Refusal :=
  match i with
  | .powerOn => Sys2Proof.Machine.execPowerOn s
  | .resetLine => Sys2Proof.Machine.execResetLine s
  | .holdAsserted => Sys2Proof.Machine.execHoldAsserted s
  | .holdDeasserted => Sys2Proof.Machine.execHoldDeasserted s
  | .windowBegin => Sys2Proof.Machine.execWindowBegin s
  | .windowEnd bytes => Sys2Proof.Machine.execWindowEnd bytes s
  | .requestFrameComplete bytes => Sys2Proof.Machine.execRequestFrameComplete bytes s
  | .answerSent => Sys2Proof.Machine.execAnswerSent s
  | .readStatus h => Sys2Proof.Machine.execReadStatus h s
  | .readSegment h segment => Sys2Proof.Machine.execReadSegment h segment s
  | .readPad h pad => Sys2Proof.Machine.execReadPad h pad s
  | .readTransporter h t => Sys2Proof.Machine.execReadTransporter h t s
  | .readOrder h slot part => Sys2Proof.Machine.execReadOrder h slot part s
  | .readTelescope h x => Sys2Proof.Machine.execReadTelescope h x s
  | .sweepPads h first count sense => Sys2Proof.Machine.execSweepPads h first count sense s
  | .fetchNotice h => Sys2Proof.Machine.execFetchNotice h s
  | .setNoticeEnables h enables => Sys2Proof.Machine.execSetNoticeEnables h enables s
  | .clearPort h => Sys2Proof.Machine.execClearPort h s
  | .setParameter h number value => Sys2Proof.Machine.execSetParameter h number value s
  | .restart h => Sys2Proof.Machine.execRestart h s
  | .declareSegment h segment kind guard speed rest first second third => Sys2Proof.Machine.execDeclareSegment h segment kind guard speed rest first second third s
  | .closeLayout h => Sys2Proof.Machine.execCloseLayout h s
  | .clearSwitch h segment => Sys2Proof.Machine.execClearSwitch h segment s
  | .submitOrder h t kind finish leg => Sys2Proof.Machine.execSubmitOrder h t kind finish leg s
  | .cancelOrder h slot => Sys2Proof.Machine.execCancelOrder h slot s
  | .divert h t outLeg backLeg => Sys2Proof.Machine.execDivert h t outLeg backLeg s
  | .resumeRefuge h slot => Sys2Proof.Machine.execResumeRefuge h slot s
  | .declarePad h pad access guard initial => Sys2Proof.Machine.execDeclarePad h pad access guard initial s
  | .settlePad h pad target => Sys2Proof.Machine.execSettlePad h pad target s
  | .settleLoad h t target => Sys2Proof.Machine.execSettleLoad h t target s
  | .barPad h pad => Sys2Proof.Machine.execBarPad h pad s
  | .unbarPad h pad => Sys2Proof.Machine.execUnbarPad h pad s
  | .recouplePad h pad => Sys2Proof.Machine.execRecouplePad h pad s
  | .enrollTransporter h t position load => Sys2Proof.Machine.execEnrollTransporter h t position load s
  | .disenrollTransporter h t => Sys2Proof.Machine.execDisenrollTransporter h t s
  | .clearAstray h t segment => Sys2Proof.Machine.execClearAstray h t segment s
  | .proceed h t => Sys2Proof.Machine.execProceed h t s
  | .enterQuiet h => Sys2Proof.Machine.execEnterQuiet h s
  | .leaveQuiet h => Sys2Proof.Machine.execLeaveQuiet h s
  | .setGrants h who padGroups segmentGroups => Sys2Proof.Machine.execSetGrants h who padGroups segmentGroups s
  | .setFence h slot base size => Sys2Proof.Machine.execSetFence h slot base size s
  | .clearFence h slot => Sys2Proof.Machine.execClearFence h slot s
  | .hold h => Sys2Proof.Machine.execHold h s
  | .releaseHold h => Sys2Proof.Machine.execReleaseHold h s
  | .clearWayside h => Sys2Proof.Machine.execClearWayside h s
  | .gapTimerExpiry => Sys2Proof.Machine.execGapTimerExpiry s
  | .pollTransmitted => Sys2Proof.Machine.execPollTransmitted s
  | .transporterReport bytes => Sys2Proof.Machine.execTransporterReport bytes s
  | .replyWindowExpiry => Sys2Proof.Machine.execReplyWindowExpiry s
  | .progressTimerExpiry t => Sys2Proof.Machine.execProgressTimerExpiry t s
  | .waysideFrame bytes => Sys2Proof.Machine.execWaysideFrame bytes s
  | .waysideByteGapTimeout => Sys2Proof.Machine.execWaysideByteGapTimeout s
  | .silenceTimerExpiry => Sys2Proof.Machine.execSilenceTimerExpiry s
  | .sensor => Sys2Proof.Machine.execSensor s
  | .detection => Sys2Proof.Machine.execDetection s
  | .padEvent => Sys2Proof.Machine.execPadEvent s
  | .waysideSendComplete => Sys2Proof.Machine.execWaysideSendComplete s
  | .operationTimerExpiry j => Sys2Proof.Machine.execOperationTimerExpiry j s
  | .junctionHoldExpiry j => Sys2Proof.Machine.execJunctionHoldExpiry j s
  | .proveIntervalExpiry => Sys2Proof.Machine.execProveIntervalExpiry s
  | .transferTimerExpiry pad => Sys2Proof.Machine.execTransferTimerExpiry pad s
  | .couplingTimerExpiry pad => Sys2Proof.Machine.execCouplingTimerExpiry pad s
  | .byteInHunting byte => Sys2Proof.Machine.execByteInHunting byte s
  | .lengthByteFraming byte => Sys2Proof.Machine.execLengthByteFraming byte s

end Sys2Proof.Machine
end

