-- ==== Sys2Proof/Machine/Step.lean ====
section
/-!
DEFINITION. Machine/Step.lean: one step of the part: the command at the front of the queue of waiting commands is taken.
-/

namespace Sys2Proof.Machine

/-- One step: the oldest waiting command is taken and executed on the state with the rest of the queue; with none waiting the part idles
(assumption 10). -/
def step (s : State) : Host.Outcome State Fault Refusal :=
  match s.pending with
  | [] => .next s
  | c :: rest => exec c { s with pending := rest }

/-- `s` with the command that a word of the table's bits spells put at the front of its queue. The table gives no row any bits, so no word spells a
command and `s` stays as it is. -/
def State.withFetchWord (s : State) (nbits w : Nat) : State :=
  match decodeTableWord nbits w with
  | some c => { s with pending := c :: s.pending }
  | none => s

end Sys2Proof.Machine
end

