-- ==== Sys2Proof/Safety.lean ====
section
/-!
DEFINITION. Safety.lean: what the part promises of its records in every state that it reaches; the states between events; and what the work that an
event sets off in the blocks leaves unchanged (`Kept`, `Calm`), which is the frame of the statements about events.
-/

namespace Sys2Proof.Machine

/-- Every table is in canonical form (assumption 29). -/
def State.canonical (s : State) : Prop :=
  Table.wf none s.layout.decls = true ∧ Table.wf SegDyn.initial s.core.segs = true ∧ Table.wf none s.core.runs = true
    ∧ Table.wf none s.junctions.recs = true ∧ Table.wf none s.orders.slots = true ∧ Table.wf OrderRefs.initial s.orders.refs = true
    ∧ Table.wf PadRec.undeclared s.transfer.pads = true ∧ Table.wf Placement.unplaced s.transfer.telescopes = true
    ∧ Table.wf none s.transfer.loads = true ∧ Table.wf none s.transfer.transfers = true ∧ Table.wf none s.polls.recs = true
    ∧ Table.wf GrantMap.initial s.guards.maps = true ∧ Table.wf none s.guards.fences = true

/-- A junction's record keeps R46's law: the position is MOVING exactly while the operation is a THROW; and a throw's prior position is neither MOVING
nor FAULTED (R49, R50, R54). -/
def JunctionRec.lawful (r : JunctionRec) : Prop :=
  match r.operation with
  | some ⟨.throw _ prior, _, _⟩ => r.position = .moving ∧ settled prior = true
  | _ => r.position ≠ .moving

/-- Every junction's record is lawful (R46). -/
def State.switchesLawful (s : State) : Prop := ∀ j r, s.junction j = some r → r.lawful

/-- The out-queue holds at most one message for a junction and one for a pad (R182). -/
def distinctObjects (q : List OutMessage) : Prop := (q.map outObject).Nodup

/-- The queues keep their lengths, and the pause shows the in-queue's (R170, R174, R190). -/
def State.queuesBounded (s : State) : Prop :=
  s.wayside.inQueue.length ≤ 16 ∧ s.wayside.pause = decide (12 ≤ s.wayside.inQueue.length)
    ∧ s.port.requests.length ≤ 8 ∧ s.port.answers.length ≤ 8

/-- No request waits while an answer would find room (R190). -/
def State.requestsTaken (s : State) : Prop := s.port.requests = [] ∨ 8 ≤ s.port.answers.length

/-- The ATTENTION line stands as R195 says. -/
def State.attentionRight (s : State) : Prop := s.port.attention = s.wantsAttention

/-- The miss counts stay within 0 to 8 (R129). -/
def State.missesBounded (s : State) : Prop := ∀ t r, s.train t = some r → r.missCount ≤ 8

/-- Every parameter stands in its range (R203). -/
def State.paramsInRange (s : State) : Prop :=
  ∀ n v, s.port.params.value n = some v → (paramRange n).1 ≤ v ∧ v ≤ (paramRange n).2

/-- A SET fence has one of the seven sizes and an aligned base (R158). -/
def Fence.legal (f : Fence) : Prop := f.size ∈ [1, 2, 4, 8, 16, 32, 64] ∧ f.base ≤ 127 ∧ f.base % f.size = 0

/-- Both fence records are legal (R158). -/
def State.fencesLegal (s : State) : Prop := ∀ k f, s.fence k = some f → f.legal

/-- The notice set is listed in the order in which it is fetched, each flag once (R196, R197). -/
def noticesOrdered (l : List Notice) : Prop := l.Pairwise fun a b => a.before b = true

/-- What the part promises of its records in every state. -/
structure State.Sound (s : State) : Prop where
  canonical : s.canonical
  switches : s.switchesLawful
  outQueue : distinctObjects s.wayside.outQueue
  queues : s.queuesBounded
  requests : s.requestsTaken
  attention : s.attentionRight
  misses : s.missesBounded
  params : s.paramsInRange
  fences : s.fencesLegal
  notices : noticesOrdered s.port.notices

/-- The slots that a transporter's references name: its active order, its stack and its pending divert. -/
def OrderRefs.named (r : OrderRefs) : List Nat := r.active.toList ++ r.stack ++ r.pendingDivert.toList

/-- Every slot that a transporter's references name holds a live order of that transporter (R65). -/
def State.refsRight (s : State) : Prop :=
  ∀ u, ∀ k ∈ (s.orderRefs u).named, ∃ o, s.order k = some o ∧ o.transporter = u ∧ o.live = true

/-- Orders stand in slots 0 to 7 (R64). -/
def State.slotsRight (s : State) : Prop := ∀ k o, s.order k = some o → k ≤ 7

/-! ### Between events -/

/-- Between events, with room for an answer: no work is left to do and no request waits (R190). -/
structure State.Ready (s : State) : Prop where
  agenda : s.agenda = []
  late : s.late = none
  requests : s.port.requests = []
  room : s.port.answers.length < 8

/-- The blocks find nothing to do: no order has had an event of R72, no ARRIVED order may become TRANSFER (R79), and the rotation has no junction to
prove (R55). -/
structure State.Settled (s : State) : Prop where
  agenda : s.agenda = []
  due : s.due = []
  transfers : slots.find? s.mayTransfer = none
  rotation : s.junctions.interval = .stopped → (∀ e ∈ s.junctions.recs, ∀ r, e.2 = some r → isRotation r.operation = false) → s.rotationNext = none

/-- The state with an answer to a request at the tail of the answer queue (R188, R190). -/
def State.answered (s : State) (h : Header) (r : Request) (o : Outcome) (b : Body) : State :=
  s.setAnswers (s.port.answers ++ [⟨h.tag, codeOf r, o, b⟩])

end Sys2Proof.Machine

namespace Sys2Proof.Laws

open Sys2Proof Sys2Proof.Machine

/-! ### The parts of records that the work leaves -/

/-- An order's transporter, kind, finish and legs, which are fixed at its acceptance. -/
def shape (o : Order) : Nat × OrderKind × Option Finish × List RoutePos × List RoutePos :=
  (o.transporter, o.kind, o.finish, o.leg1, o.leg2)

/-- A pad's declaration: its access segment and its guard level. -/
def padShape (r : PadRec) : Nat × Nat := (r.access, r.guard)

/-- What a transporter's last report, or its enrollment, recorded. -/
def trainShape (r : TransporterRec) : Nat × Bool × Bool × Nat := (r.position, r.atRest, r.inMotion, r.missCount)

/-- The position a junction stands in or was last recorded in: a throw's prior position while it is MOVING. -/
def basis (r : JunctionRec) : SwitchPosition :=
  match r.operation with
  | some ⟨.throw _ prior, _, _⟩ => prior
  | _ => r.position

/-- A junction's record after some work: it stays a record, it stays lawful with the same basis, and a recovery PROVE stays outstanding. -/
def StationKept : Option JunctionRec → Option JunctionRec → Prop
  | none, none => True
  | some r, some r' => r.lawful → r'.lawful ∧ basis r' = basis r ∧ (isRecovery r.operation = true → isRecovery r'.operation = true)
  | _, _ => False

/-- A transporter's condition after some work: the same, or NORMAL turned STALLED. -/
def ConditionKept : Option TransporterRec → Option TransporterRec → Prop
  | none, none => True
  | some r, some r' => r'.condition = r.condition ∨ (r.condition = .normal ∧ r'.condition = .stalled)
  | _, _ => False

/-- A pad's record after some work that is no stage of a report: the same but for the COUPLE of a SEATED pad becoming SENT, where no order claims the
pad. -/
def PadCalm (r r' : PadRec) : Prop :=
  r.claim = none → r' = r ∨ (r.state = .seated ∧ ∃ x, r' = { r with coupling := .sent, couplingTimer := x })

/-- A task that is a stage of a report (R139 stages 4 to 7). -/
def inReport : Task → Bool
  | .progressReport _ _ _ => true
  | .driveFault _ => true
  | .loadEvent _ => true
  | .quietStand _ _ => true
  | _ => false

/-- What an event of the links, the pins or the timers leaves of the part, whatever it does to the transporters, the track and the orders: the layout,
the grant maps and fences, the Control Port but for its notices and ATTENTION, each order's legs, each pad's declaration, and the notices pending. -/
structure Frame (s t : State) : Prop where
  layout : t.layout = s.layout
  maps : t.guards.maps = s.guards.maps
  fences : t.guards.fences = s.guards.fences
  requests : t.port.requests = s.port.requests
  answers : t.port.answers = s.port.answers
  window : t.port.window = s.port.window
  flags : t.port.flags = s.port.flags
  enables : t.port.enables = s.port.enables
  params : t.port.params = s.port.params
  cause : t.port.cause = s.port.cause
  pending : t.pending = s.pending
  notices : ∀ n ∈ s.port.notices, n ∈ t.port.notices
  shapes : ∀ k, (t.order k).map shape = (s.order k).map shape
  pads : ∀ p, padShape (t.pad p) = padShape (s.pad p)
  enrolled : ∀ i, (t.train i).isSome = (s.train i).isSome

/-- What every task keeps. -/
structure Kept (s t : State) : Prop where
  layout : t.layout = s.layout
  maps : t.guards.maps = s.guards.maps
  fences : t.guards.fences = s.guards.fences
  hold : t.guards.hold = s.guards.hold
  inQueue : t.wayside.inQueue = s.wayside.inQueue
  pause : t.wayside.pause = s.wayside.pause
  receiver : t.wayside.receiver = s.wayside.receiver
  silence : t.wayside.silence = s.wayside.silence
  link : t.wayside.link = s.wayside.link
  requests : t.port.requests = s.port.requests
  answers : t.port.answers = s.port.answers
  window : t.port.window = s.port.window
  flags : t.port.flags = s.port.flags
  enables : t.port.enables = s.port.enables
  params : t.port.params = s.port.params
  cause : t.port.cause = s.port.cause
  pending : t.pending = s.pending
  late : t.late = s.late
  notices : ∀ n ∈ s.port.notices, n ∈ t.port.notices
  ordered : noticesOrdered s.port.notices → noticesOrdered t.port.notices
  sending : ∀ m, s.wayside.transmitter = .sending m → t.wayside.transmitter = .sending m
  sensors : ∀ n, (t.seg n).sensor = (s.seg n).sensor
  holders : s.holdActive = true → ∀ n u, (t.seg n).holder = some u → (s.seg n).holder = some u
  shapes : ∀ k, (t.order k).map shape = (s.order k).map shape
  stations : ∀ j, StationKept (s.junction j) (t.junction j)
  pads : ∀ p, padShape (t.pad p) = padShape (s.pad p)
  declared : ∀ p, (s.pad p).state ≠ .undeclared → (t.pad p).state ≠ .undeclared
  claims : ∀ p k, (t.pad p).claim = some k → (s.pad p).claim = some k
  trains : ∀ i, (t.train i).map trainShape = (s.train i).map trainShape
  conditions : ∀ i, ConditionKept (s.train i) (t.train i)
  runs : ∀ i, (t.run i).isSome = (s.run i).isSome
  quiet : t.polls.quiet = s.polls.quiet ∨ (s.polls.quiet = .pending ∧ t.polls.quiet = .inForce)
  canonical : s.canonical → t.canonical
  distinct : distinctObjects s.wayside.outQueue → distinctObjects t.wayside.outQueue
  agenda : ∀ x ∈ t.agenda, x ∈ s.agenda ∨ inReport x = false

/-- What every task but the stages of a report keeps. -/
structure Calm (s t : State) : Prop extends Kept s t where
  loads : t.transfer.loads = s.transfer.loads
  telescopes : t.transfer.telescopes = s.transfer.telescopes
  standing : ∀ i, (t.train i).map (·.condition) = (s.train i).map (·.condition)
  stands : ∀ i, (t.train i).map (·.quietStand) = (s.train i).map (·.quietStand)
  padsCalm : ∀ p, PadCalm (s.pad p) (t.pad p)

end Sys2Proof.Laws
end

