-- ==== Sys2Proof/Certificates/Slice0/Obligations.lean ====
section
/-!
DEFINITION. Certificates/Slice0/Obligations.lean: the statements for the provers.

`s.Ready` says that s stands between two events with no request waiting and room for an answer; `s.Settled` says that the blocks find nothing to do
in s. In such states the effect of a request is written out as the exact next state, which is also its frame: what the record update does not name is
unchanged. Where an event sets off work in the blocks, the statement gives the effect of the event itself and `Kept e t` (or `Calm e t`): everything
that the work leaves of the state `e` in which the event's own effect stands. `decideAttention` writes the ATTENTION line afresh (R195).
-/

open Sys2Proof Sys2Proof.Machine Sys2Proof.Laws

/-! ### The step, the reset and the record laws -/

/-- A step takes the command at the front of the queue and is its `exec` on the state with the queue's rest. With no command waiting the part idles,
which is the model's choice (assumption 10). -/
def Obligations.StepTakesTheFrontCommand : Prop :=
  (∀ (s : State) (c : Instr) (rest : List Instr), s.pending = c :: rest → step s = exec c { s with pending := rest }) ∧
  (∀ s : State, s.pending = [] → step s = .next s)

/-- POWER_ON and RESET_LINE leave every block at its power-on state, and differ in the reset cause alone. The commands that wait and the count of free
values are the model's own and stay (assumptions 9 and 11). Every block's records after power-on. (The empty command queue is the model's own field,
assumption 11.) -/
def Obligations.PowerOnAndResetLineRestoreTheResetState : Prop :=
  (∀ s : State,
    exec .powerOn s
      = .next { State.reset with port := { State.reset.port with cause := .power }, pending := s.pending, freeCount := s.freeCount } ∧
    exec .resetLine s
      = .next { State.reset with port := { State.reset.port with cause := .line }, pending := s.pending, freeCount := s.freeCount }) ∧
  (let s := State.reset
  (∀ n, s.decl n = none) ∧ s.layout.closed = false ∧
  (∀ n, s.seg n = { holder := none, queue := [], sensor := .unknown, leaving := false, withdrawing := none }) ∧ (∀ t, s.run t = none) ∧
  s.core.waiting = [] ∧ (∀ j, s.junction j = none) ∧ s.junctions.pointer = none ∧ s.junctions.interval = .stopped ∧
  (∀ k, s.order k = none) ∧ (∀ t, s.orderRefs t = { active := none, stack := [], pendingDivert := none }) ∧
  (∀ p, (s.pad p).state = .undeclared) ∧ (∀ x, s.placement x = .unplaced) ∧ (∀ t, s.load t = none) ∧ (∀ p, s.transferAt p = none) ∧
  s.couplingSet = [] ∧ (∀ t, s.train t = none) ∧ s.polls.pointer = none ∧ s.polls.outstanding = none ∧ s.polls.nextSequence = 0#8 ∧
  s.polls.window = .stopped ∧ s.polls.gap = .stopped ∧ s.polls.quiet = .off ∧ (∀ o, s.grantMap o = { pads := [], segments := [] }) ∧ (∀ k, s.fence k = none) ∧
  (∀ n, s.fenceCount n = 0) ∧ s.guards.fenced = [] ∧ s.guards.hold = { line := false, desk := false, wayside := false } ∧
  s.wayside.inQueue = [] ∧ s.wayside.pause = false ∧ s.wayside.receiver = .hunting ∧ s.wayside.silence = .running 5 ∧
  s.wayside.link = .live ∧ s.wayside.outQueue = [] ∧ s.wayside.transmitter = .idle ∧ s.port.requests = [] ∧ s.port.answers = [] ∧
  s.port.window = .closed ∧ s.port.flags = { overrun := false, framing := false, check := false, restarted := false } ∧
  s.port.notices = [⟨.restarted, 0⟩] ∧ (∀ k : NoticeKind, noticeEnabled s.port.enables k = true) ∧
  s.port.params =
    { lead := 3, throwTimeout := 12, holdTime := 60, proveInterval := 30, transferTimeout := 180, couplingTimeout := 60, replyWindow := 30
      pollGap := 20, missLimit := 3, progressTime := 40, grace := 2, silenceTime := 5, attentionLevel := 1 } ∧
  s.port.cause = .power ∧ s.port.attention = true ∧ s.pending = [])

/-- The record laws hold after power-on, with the model's own representation of the tables among them (the clause `canonical` of `Sound`, assumption
29, DESIGN CHOICE); the references name live orders, and orders stand in slots 0 to 7. -/
def Obligations.SoundAtReset : Prop :=
  State.reset.Sound ∧ State.reset.refsRight ∧ State.reset.slotsRight

/-- The record laws are kept by every step: a junction is MOVING exactly while its operation is a THROW; the out-queue holds one message for an
object; the queues keep their lengths and the pause its level; no request waits while an answer would find room; ATTENTION stands as R195 says; the
notices pending are listed in the order in which they are fetched, each once; and miss counts, parameters and fences stay in their ranges. The clause
`canonical` of `Sound`, that the tables stay canonical, is the model's own representation and no record law of the part (assumption 29, DESIGN
CHOICE). The slots that a transporter's references name hold live orders of that transporter (R65), and orders stand in slots 0 to 7 (R64), are kept
by every step too. -/
def Obligations.StepKeepsSound : Prop :=
  (∀ s t : State, s.Sound → step s = .next t → t.Sound) ∧
  (∀ s t : State, s.refsRight → step s = .next t → t.refsRight) ∧
  (∀ s t : State, s.slotsRight → step s = .next t → t.slotsRight)

/-- ATTENTION is asserted exactly while the answers reach the attention level or a notice of an enabled kind is pending, after every step from a state
in which it stood so. -/
def Obligations.AttentionFollowsAnswersAndNotices : Prop :=
  ∀ s t : State, s.attentionRight → step s = .next t →
    (t.port.attention = true ↔
      t.port.params.attentionLevel ≤ t.port.answers.length ∨
        ∃ n ∈ t.port.notices, t.port.enables.getLsbD (n.kind.number - 1) = true)

/-- While the array hold is active no segment gains a new holder by any command that leaves the hold active, but for the two requests that place a
transporter, `enroll-transporter` and `clear-astray`. The bytes of a request frame stand for the request they carry. -/
def Obligations.NoNewHolderUnderHold : Prop :=
  ∀ (c : Instr) (s t : State), s.port.requests = [] → s.holdActive = true →
    (∀ h n p l, c ≠ .enrollTransporter h n p l) → (∀ h n p, c ≠ .clearAstray h n p) →
    (∀ b, c ≠ .requestFrameComplete b) → (∀ b, c ≠ .windowEnd b) → (∀ b, c ≠ .lengthByteFraming b) →
    exec c s = .next t → t.holdActive = true → ∀ n u, (t.seg n).holder = some u → (s.seg n).holder = some u

/-! ### The control link -/

/-- Every well-formed request reads back from its frame, with its tag, its code, its originator and every parameter. The check of the nine bytes 31 to
39 is 29B1, sent most significant byte first; the register starts at all ones. -/
def Obligations.RequestFramesReadBack : Prop :=
  (∀ (h : Header) (r : Request), h.wf = true → r.wf = true →
    readFrame (requestFrame h r) = { tag := h.tag, code := codeOf r, content := .valid h.originator r }) ∧
  (crc [] = 0xFFFF#16 ∧
  withCheck [0x31#8, 0x32#8, 0x33#8, 0x34#8, 0x35#8, 0x36#8, 0x37#8, 0x38#8, 0x39#8]
    = [0x31#8, 0x32#8, 0x33#8, 0x34#8, 0x35#8, 0x36#8, 0x37#8, 0x38#8, 0x39#8, 0x29#8, 0xB1#8])

/-- A well-formed request command does what its frame does, shifted in during a window that awaits a length byte, and both go on; the window is then
done with input. That a request command stands for its frame is the model's reading (assumption 1). -/
def Obligations.FrameCompletesAsItsRequest : Prop :=
  ∀ (c : Instr) (h : Header) (r : Request) (s : State) (f : SentFrame) (sent : Bool),
    c.request? = some (h, r) → c.wf = true → s.port.window = .opened f sent .awaitingLength →
      ∃ t, exec (.requestFrameComplete (requestFrame h r)) s = .next t ∧
        exec c { s with port := { s.port with window := .opened f sent .disregarded } } = .next t

/-- A window begins: the frame to be sent is the answer at the head of the answer queue, or the null frame, and its summary flags are composed now. A
beginning in an open window is no event of the part: that it changes nothing is the model's choice (assumption 6). A window ends: it is closed, and
FRAMING is set exactly where a request frame was still being collected. The end of a closed window is no event of the part: that it changes nothing is
the model's choice (assumption 6). -/
def Obligations.WindowsBeginAndEnd : Prop :=
  (∀ s : State,
    (s.port.window = .closed → ∃ f : SentFrame,
      exec .windowBegin s = .next (State.decideAttention { s with port := { s.port with window := .opened f false .awaitingLength } }) ∧
      f.answer = s.port.answers.head? ∧
      f.flags =
        { hold := s.guards.hold.line || s.guards.hold.desk || s.guards.hold.wayside
          quiet := decide (s.polls.quiet = .pending) || decide (s.polls.quiet = .inForce)
          notice := decide (s.port.notices ≠ [])
          overrun := s.port.flags.overrun
          framing := s.port.flags.framing
          check := s.port.flags.check
          restarted := s.port.flags.restarted
          layoutOpen := decide (s.layout.closed = false) }) ∧
    (∀ f sent input, s.port.window = .opened f sent input → exec .windowBegin s = .next s.decideAttention)) ∧
  (∀ (s : State) (f : SentFrame) (sent : Bool), s.port.requests = [] →
    (s.port.window = .opened f sent .awaitingLength ∨ s.port.window = .opened f sent .disregarded →
      exec (.windowEnd []) s = .next (State.decideAttention { s with port := { s.port with window := .closed } })) ∧
    (∀ n bytes, s.port.window = .opened f sent (.collecting n bytes) →
      exec (.windowEnd []) s = .next (State.decideAttention
        { s with port := { s.port with window := .closed, flags := { s.port.flags with framing := true } } })) ∧
    (∀ (b : Byte) (rest : List Byte), s.port.window = .opened f sent .awaitingLength → 5 ≤ b.toNat → b.toNat ≤ 64 → rest.length + 1 < b.toNat →
      exec (.windowEnd (b :: rest)) s = .next (State.decideAttention
        { s with port := { s.port with window := .closed, flags := { s.port.flags with framing := true } } })) ∧
    (s.port.window = .closed → exec (.windowEnd []) s = .next s.decideAttention))

/-- A length byte of 1 to 4 or of 65 to 255 sets FRAMING, and the window's remaining input is disregarded. A complete frame whose check differs sets
CHECK and is discarded; one that finds the request queue full sets OVERRUN and is discarded. A good frame of an unassigned code is answered
UNKNOWN-REQUEST, and a good frame that cannot be read as its request MALFORMED, with an empty body and no other effect. -/
def Obligations.BadFramesAreDiscardedOrAnswered : Prop :=
  (∀ (s : State) (f : SentFrame) (sent : Bool) (b : Byte), s.port.requests = [] → s.port.window = .opened f sent .awaitingLength →
    (1 ≤ b.toNat ∧ b.toNat ≤ 4) ∨ 65 ≤ b.toNat →
      exec (.lengthByteFraming b) s = .next (State.decideAttention
        { s with port := { s.port with window := .opened f sent .disregarded, flags := { s.port.flags with framing := true } } })) ∧
  (∀ (s : State) (f : SentFrame) (sent : Bool) (b : Byte) (rest : List Byte), s.port.window = .opened f sent .awaitingLength →
    5 ≤ b.toNat → b.toNat ≤ 64 → rest.length + 1 = b.toNat →
    (s.port.requests = [] → checkAgrees ((b :: rest).take (b.toNat - 2)) ((b :: rest).drop (b.toNat - 2)) = false →
      exec (.requestFrameComplete (b :: rest)) s = .next (State.decideAttention
        { s with port := { s.port with window := .opened f sent .disregarded, flags := { s.port.flags with check := true } } })) ∧
    (s.port.requests.length = 8 → s.port.answers.length = 8 →
      checkAgrees ((b :: rest).take (b.toNat - 2)) ((b :: rest).drop (b.toNat - 2)) = true →
      exec (.requestFrameComplete (b :: rest)) s = .next (State.decideAttention
        { s with port := { s.port with window := .opened f sent .disregarded, flags := { s.port.flags with overrun := true } } }))) ∧
  (∀ (s : State) (f : SentFrame) (sent : Bool) (b : Byte) (rest : List Byte), s.Ready → s.Settled → s.port.window = .opened f sent .awaitingLength →
    5 ≤ b.toNat → b.toNat ≤ 64 → rest.length + 1 = b.toNat →
    checkAgrees ((b :: rest).take (b.toNat - 2)) ((b :: rest).drop (b.toNat - 2)) = true →
    (∀ (x : QueuedRequest) (o : Outcome), readFrame (b :: rest) = x →
      (x.content = .unknown ∧ o = .unknownRequest) ∨ (x.content = .malformed ∧ o = .malformed) →
      exec (.requestFrameComplete (b :: rest)) s = .next (State.decideAttention
        { s with port := { s.port with
            window := .opened f sent .disregarded, answers := s.port.answers ++ [⟨x.tag, x.code, o, .empty⟩] } })))

/-- The last byte of an answer is shifted out: the answer leaves the queue, once in a window. Three forms are no event of the part, ANSWER_SENT
without an answer being sent: in a window that sends the null frame, in one that has sent its answer, and without an open window. That they change
nothing is the model's choice (assumption 6). An answer that leaves a full queue makes room, and the request that waited is taken in the same event:
here one that cannot be read. -/
def Obligations.AnswerLeavesWithItsLastByte : Prop :=
  (∀ (s : State) (f : SentFrame) (input : WindowInput), s.port.requests = [] →
    (∀ a, s.port.window = .opened f false input → f.answer = some a →
      exec .answerSent s = .next (State.decideAttention
        { s with port := { s.port with window := .opened f true input, answers := s.port.answers.drop 1 } })) ∧
    (s.port.window = .opened f true input ∨ (s.port.window = .opened f false input ∧ f.answer = none) ∨ s.port.window = .closed →
      exec .answerSent s = .next s.decideAttention)) ∧
  (∀ (s : State) (f : SentFrame) (input : WindowInput) (a : Answer) (x : QueuedRequest), s.Settled → s.late = none →
    s.port.window = .opened f false input → f.answer = some a → s.port.answers.length = 8 → s.port.requests = [x] → x.content = .unknown →
      exec .answerSent s = .next (State.decideAttention
        { s with port := { s.port with
            window := .opened f true input, requests := []
            answers := s.port.answers.drop 1 ++ [⟨x.tag, x.code, .unknownRequest, .empty⟩] } }))

/-! ### Permissions -/

/-- A request whose class excludes its originator is answered DENIED and changes nothing: a maintenance request of an OPERATOR or a SCHEDULER, a desk
request of a SCHEDULER. A desk request on one pad that its originator may not act on is answered DENIED, naming the object, and changes nothing. The
requests of R4's table are answered REFUSED-STATE in the layout state that refuses them, whatever their parameters, once the class test and the object
check at entry have passed. -/
def Obligations.ClassObjectAndLayoutStateRefuse : Prop :=
  (∀ (c : Instr) (h : Header) (r : Request) (s : State), c.request? = some (h, r) → s.Ready → s.Settled →
    (classOf r = .maintenance ∧ h.originator ≠ .maintenance) ∨ (classOf r = .desk ∧ h.originator = .scheduler) →
      exec c s = .next (s.answered h r .denied .deniedClass).decideAttention) ∧
  (∀ (c : Instr) (h : Header) (r : Request) (s : State) (k : ObjectKind) (n g : Nat), c.request? = some (h, r) → s.Ready → s.Settled →
    classOf r = .desk → h.originator ≠ .scheduler → entryObject r = some (k, n) → s.guardLevel k n = some g →
    g < levelOf h.originator → s.granted h.originator k n = false →
      exec c s = .next (s.answered h r .denied (.deniedObject k n)).decideAttention) ∧
  (∀ (c : Instr) (h : Header) (r : Request) (s : State), c.request? = some (h, r) → s.Ready → s.Settled →
    classAllows (classOf r) h.originator = true → (∀ k n, entryObject r = some (k, n) → s.allows h.originator k n = true) →
    (s.layout.closed = true ∧ (codeOf r = codeOf (.declareSegment 0 .plain 0 .creep .none none none none) ∨ codeOf r = codeOf .closeLayout)) ∨
    (s.layout.closed = false ∧
      (codeOf r = codeOf (.submitOrder 0 .emptyRun .none []) ∨ codeOf r = codeOf (.divert 0 [] []) ∨
        codeOf r = codeOf (.declarePad 0 0 0 .vacant) ∨ codeOf r = codeOf (.enrollTransporter 0 0 .none))) →
      exec c s = .next (s.answered h r .refusedState .empty).decideAttention)

/-! ### Reads -/

/-- `read-status` is answered DONE with the part's state and counts, the number of live orders among them. That its count of waiting requests leaves
out the request being taken, and is 0 here, is the model's choice (assumption 41). -/
def Obligations.ReadStatusAnswersTheState : Prop :=
  ∀ (h : Header) (s : State), s.Ready → s.Settled → ∃ x : StatusReading,
    exec (.readStatus h) s = .next (s.answered h .readStatus .done (.status x)).decideAttention ∧
    x.layoutClosed = s.layout.closed ∧ x.cause = s.port.cause ∧ x.hold = s.guards.hold ∧ x.quiet = s.polls.quiet ∧
    (s.canonical → s.slotsRight →
      x.liveOrders = ((List.range 8).filter fun k => match s.order k with | some o => decide (o.state ≠ .ended) | none => false).length) ∧
    x.segments = s.segmentCount ∧ x.junctions = s.junctionCount ∧ x.pads = s.padCount ∧ x.transporters = s.enrolledList.length ∧
    x.couplingSet = s.couplingSet.length ∧ x.inQueue = s.wayside.inQueue.length ∧ x.outQueue = s.wayside.outQueue.length ∧
    x.pause = s.wayside.pause ∧ x.link = s.wayside.link ∧ x.requests = 0 ∧ x.answers = s.port.answers.length ∧
    x.maps = [s.grantMap 0, s.grantMap 1, s.grantMap 2] ∧ x.fences = [s.fence 0, s.fence 1] ∧ x.enables = s.port.enables ∧
    x.params = s.port.params

/-- `read-segment` is answered DONE with the segment's declaration, its dynamic record, its fence count and, for a declared junction with a record,
that record with the time left to the hold's expiry, which is a free value up to the time the hold was started with; above 127 it is answered
REFUSED-RANGE. (Assumption 3.) `read-transporter` is answered DONE with the transporter's records from the four blocks that keep them, or with none
where it is not enrolled. (The time left of the progress timer is a free value, assumption 3.) -/
def Obligations.ReadSegmentAndReadTransporterAnswerTheirRecords : Prop :=
  (∀ (h : Header) (n : Nat) (s : State), s.Ready → s.Settled →
    (127 < n → exec (.readSegment h n) s = .next (s.answered h (.readSegment n) .refusedRange .empty).decideAttention) ∧
    (n ≤ 127 → ∃ (x : SegmentReading) (k : Nat),
      exec (.readSegment h n) s
        = .next (State.decideAttention { s.answered h (.readSegment n) .done (.segment x) with freeCount := k }) ∧
      x.declaration = s.decl n ∧ x.dynamic = s.seg n ∧ x.fenceCount = s.fenceCount n ∧
      x.junction.map (·.record) = (if s.isJunction n then s.junction n else none) ∧
      (∀ j, x.junction = some j → ∀ time, j.record.hold = .running time → ∃ left, j.holdLeft = some left ∧ left ≤ time) ∧
      (∀ j, x.junction = some j → j.record.hold = .expired → j.holdLeft = none))) ∧
  (∀ (h : Header) (t : Nat) (s : State), s.Ready → s.Settled →
    (3 < t → exec (.readTransporter h t) s = .next (s.answered h (.readTransporter t) .refusedRange .empty).decideAttention) ∧
    (t ≤ 3 → s.train t = none →
      exec (.readTransporter h t) s = .next (s.answered h (.readTransporter t) .done (.transporter none)).decideAttention) ∧
    (∀ r, t ≤ 3 → s.train t = some r → ∃ (x : TransporterReading) (k : Nat),
      exec (.readTransporter h t) s
        = .next (State.decideAttention { s.answered h (.readTransporter t) .done (.transporter (some x)) with freeCount := k }) ∧
      x.record = r ∧ x.run = s.run t ∧ x.load = s.load t ∧ x.refs = s.orderRefs t ∧
      (x.pollOutstanding = true ↔ ∃ y, s.polls.outstanding = some y ∧ y.transporter = t) ∧
      (∀ time, r.progress = .running time → ∃ left, x.progressLeft = some left ∧ left ≤ time) ∧ (r.progress = .stopped → x.progressLeft = none)))

/-- `read-pad` is answered DONE with the pad's record and, during a transfer, its kind, phase, transporter and time left, and whether the timer is
suspended; the time left of a running timer is a free value up to the time it was started with. (Assumption 3.) `read-telescope` is answered DONE with
the placement, and for an UNPLACED telescope with a pad at which it is the last occupant, if one is. -/
def Obligations.ReadPadAndReadTelescopeAnswerTheirRecords : Prop :=
  (∀ (h : Header) (p : Nat) (s : State), s.Ready → s.Settled →
    (191 < p → exec (.readPad h p) s = .next (s.answered h (.readPad p) .refusedRange .empty).decideAttention) ∧
    (p ≤ 191 → ∃ (x : Option TransferReading) (k : Nat),
      exec (.readPad h p) s
        = .next (State.decideAttention { s.answered h (.readPad p) .done (.pad p (s.pad p) x) with freeCount := k }) ∧
      (s.transferAt p = none → x = none) ∧
      (∀ r, s.transferAt p = some r → ∃ y, x = some y ∧ y.kind = r.kind ∧ y.phase = r.phase ∧ y.transporter = r.transporter ∧
        (∀ time, r.timer = .running time → y.suspended = false ∧ y.timeLeft ≤ time) ∧
        (∀ time, r.timer = .suspended time → y.suspended = true ∧ y.timeLeft = time)))) ∧
  (∀ (h : Header) (x : Nat) (s : State), s.Ready → s.Settled →
    (63 < x → exec (.readTelescope h x) s = .next (s.answered h (.readTelescope x) .refusedRange .empty).decideAttention) ∧
    (x ≤ 63 → ∃ last : Option Nat,
      exec (.readTelescope h x) s = .next (s.answered h (.readTelescope x) .done (.telescope (s.placement x) last)).decideAttention ∧
      (s.placement x ≠ .unplaced → last = none) ∧ (s.canonical → ∀ p, last = some p → (s.pad p).lastOccupant = some x) ∧
      (s.placement x = .unplaced → (∃ p, (s.pad p).lastOccupant = some x) → last ≠ none)))

/-- `read-order` is answered DONE with one part of the order's record: part 0 where the frame gives none; the positions of a leg by 24. Part 0 gives a
refuge its dwell and whether it is resumed, and a head that claims or waits its segment; the held-ahead count is the model's reading of R23
(assumptions 16, 35, 43). -/
def Obligations.ReadOrderAnswersOnePart : Prop :=
  ∀ (h : Header) (k : Nat) (part : Option Nat) (s : State), s.Ready → s.Settled →
    (7 < k ∨ 4 < part.getD 0 →
      exec (.readOrder h k part) s = .next (s.answered h (.readOrder k part) .refusedRange .empty).decideAttention) ∧
    (k ≤ 7 → part.getD 0 ≤ 4 → s.order k = none →
      exec (.readOrder h k part) s = .next (s.answered h (.readOrder k part) .done .orderEmpty).decideAttention) ∧
    (∀ o, k ≤ 7 → s.order k = some o →
      (part.getD 0 = 0 → ∃ x : OrderReading,
        exec (.readOrder h k part) s = .next (s.answered h (.readOrder k part) .done (.order x)).decideAttention ∧
        x.slot = k ∧ x.transporter = o.transporter ∧ x.kind = o.kind ∧ x.finish = o.finish ∧ x.cursor = o.cursor ∧ x.claim = o.claim ∧
        x.head = o.head ∧ x.state = o.state ∧ x.failure = o.failure ∧ x.outcome = o.outcome ∧ x.positions1 = o.leg1.length ∧
        x.positions2 = o.leg2.length ∧ x.heldAhead = s.heldAhead o.transporter ∧
        x.dwell = (if o.kind = .refuge then (o.leg1.getLast?).map (·.segment) else none) ∧
        x.resumed = (if o.kind = .refuge then some o.resumed else none) ∧
        (o.head = .none → x.headSegment = none) ∧ (∀ n, o.head = .claiming n → x.headSegment = some n) ∧
        (s.canonical → ∀ n, x.headSegment = some n → o.head = .claiming n ∨ s.waitsAt k n = true) ∧
        (o.head ≠ .none → (∃ n, s.waitsAt k n = true) → x.headSegment ≠ none)) ∧
      (part = some 1 → exec (.readOrder h k part) s
        = .next (s.answered h (.readOrder k part) .done (.orderPositions 1 0 (o.leg1.take 24))).decideAttention) ∧
      (part = some 2 → exec (.readOrder h k part) s
        = .next (s.answered h (.readOrder k part) .done (.orderPositions 1 24 (o.leg1.drop 24))).decideAttention) ∧
      (part = some 3 → exec (.readOrder h k part) s
        = .next (s.answered h (.readOrder k part) .done (.orderPositions 2 0 (o.leg2.take 24))).decideAttention) ∧
      (part = some 4 → exec (.readOrder h k part) s
        = .next (s.answered h (.readOrder k part) .done (.orderPositions 2 24 (o.leg2.drop 24))).decideAttention))

/-- `sweep-pads` takes pads from the first by one in the sense, up to the count and not past pad 191 or pad 0, and answers DONE with their summaries
in order. -/
def Obligations.SweepPadsSummarises : Prop :=
  ∀ (h : Header) (first count : Nat) (sense : Sense) (s : State), s.Ready → s.Settled →
    (191 < first ∨ count = 0 ∨ 8 < count →
      exec (.sweepPads h first count sense) s = .next (s.answered h (.sweepPads first count sense) .refusedRange .empty).decideAttention) ∧
    (first ≤ 191 → 1 ≤ count → count ≤ 8 → ∃ l : List PadSummary,
      exec (.sweepPads h first count sense) s = .next (s.answered h (.sweepPads first count sense) .done (.sweep l)).decideAttention ∧
      l.length = (if sense = .up then min count (192 - first) else min count (first + 1)) ∧
      ∀ i x, l[i]? = some x →
        x.pad = (if sense = .up then first + i else first - i) ∧ x.state = (s.pad x.pad).state ∧
        x.telescope = (s.pad x.pad).occupant.or (s.pad x.pad).expected ∧ x.claim = (s.pad x.pad).claim ∧ x.coupling = (s.pad x.pad).coupling ∧
        x.inTransfer = (s.transferAt x.pad).isSome)

/-! ### Notices, enables, flags and parameters -/

/-- `fetch-notice` clears the pending flag of lowest kind number, and within that kind of lowest subject, and answers DONE with the kind, the subject
and the number of flags still pending; with the set empty it answers kind 0, subject 0 and count 0. The enables play no part, and ATTENTION is decided
afresh. -/
def Obligations.FetchNoticeClearsTheFirst : Prop :=
  ∀ (h : Header) (s : State), s.Ready → s.Settled →
    (s.port.notices = [] → exec (.fetchNotice h) s = .next (s.answered h .fetchNotice .done (.notice 0 0 0)).decideAttention) ∧
    (∀ n rest, s.port.notices = n :: rest → noticesOrdered s.port.notices →
      exec (.fetchNotice h) s
        = .next ((s.setNotices rest).answered h .fetchNotice .done (.notice n.kind.number n.subject rest.length)).decideAttention ∧
      ∀ m ∈ rest, n.kind.number < m.kind.number ∨ (n.kind.number = m.kind.number ∧ n.subject < m.subject))

/-- `set-notice-enables` replaces the enables whole; a set bit above bit 12 is answered REFUSED-RANGE. `clear-port` clears the four sticky flags and
answers DONE with the flags as they stood. `set-parameter` of MAINTENANCE replaces one parameter by a value in its range and answers DONE with the
number, the old value and the new; a number or a value out of range is answered REFUSED-RANGE. -/
def Obligations.EnablesFlagsAndParametersAreWritten : Prop :=
  (∀ (h : Header) (e : Word16) (s : State), s.Ready → s.Settled →
    (e.toNat < 8192 → exec (.setNoticeEnables h e) s = .next (State.decideAttention
      (State.answered { s with port := { s.port with enables := e } } h (.setNoticeEnables e) .done (.enables e)))) ∧
    (8192 ≤ e.toNat →
      exec (.setNoticeEnables h e) s = .next (s.answered h (.setNoticeEnables e) .refusedRange .empty).decideAttention)) ∧
  (∀ (h : Header) (s : State), s.Ready → s.Settled →
    exec (.clearPort h) s = .next (State.decideAttention (State.answered
      { s with port := { s.port with flags := { overrun := false, framing := false, check := false, restarted := false } } }
      h .clearPort .done (.stickyFlags s.port.flags)))) ∧
  (∀ (h : Header) (n v : Nat) (s : State), s.Ready → s.Settled → h.originator = .maintenance →
    (∀ lo hi old,
      (n, lo, hi) ∈ [(1, 1, 6), (2, 2, 30), (3, 0, 255), (4, 1, 255), (5, 10, 600), (6, 5, 300), (7, 5, 100), (8, 0, 250), (9, 1, 8), (10, 5, 250),
        (11, 0, 7), (12, 1, 30), (13, 1, 8)] →
      s.port.params.value n = some old →
      (lo ≤ v ∧ v ≤ hi → ∃ p : Params,
        exec (.setParameter h n v) s = .next (State.decideAttention
          (State.answered { s with port := { s.port with params := p } } h (.setParameter n v) .done (.parameter n old v))) ∧
        p.value n = some v ∧ ∀ m, m ≠ n → p.value m = s.port.params.value m) ∧
      (v < lo ∨ hi < v → exec (.setParameter h n v) s = .next (s.answered h (.setParameter n v) .refusedRange .empty).decideAttention)) ∧
    (n = 0 ∨ 13 < n → exec (.setParameter h n v) s = .next (s.answered h (.setParameter n v) .refusedRange .empty).decideAttention))

/-- `restart` of MAINTENANCE: DONE is placed; the requests and the orders are gone; RESTARTED alone is pending, its sticky flag set and the reset
cause RESTART; the window, the enables, the parameters, the layout, the grant maps, the fences, the records of WAYSIDE and LINE, the sensor states,
the receiver and a message being sent are kept; each transporter keeps its position alone, ASTRAY stays and every other condition becomes NORMAL, and
quiet is OFF; each junction stands where it stood, or UNKNOWN where a throw was made, and no switch waiter remains; the pads and the loads become what
R128's table gives, the telescopes of a RELEASING or SEATED pad, and that expected at an INBOUND pad with its transfer in progress, are UNPLACED and
no other moves, and no transfer and no coupling remains; no poll is outstanding but a new one, not yet transmitted, to the lowest-numbered enrolled
transporter. A `restart` that waits is taken when an answer leaves a full queue: whatever requests wait behind it, the part becomes what the `restart`
makes of it with none waiting. -/
def Obligations.RestartAppliesEachBlocksEffects : Prop :=
  (∀ (h : Header) (s : State), s.Ready → s.canonical → h.originator = .maintenance →
    ∃ t : State, exec (.restart h) s = .next t ∧
      t.port.answers = s.port.answers ++ [⟨h.tag, codeOf .restart, .done, .empty⟩] ∧ t.port.requests = [] ∧
      t.port.notices = [⟨.restarted, 0⟩] ∧ t.port.flags = { s.port.flags with restarted := true } ∧ t.port.cause = .restart ∧
      t.port.window = s.port.window ∧ t.port.enables = s.port.enables ∧ t.port.params = s.port.params ∧
      t.layout = s.layout ∧ t.guards.maps = s.guards.maps ∧ t.guards.fences = s.guards.fences ∧
      t.guards.hold = { s.guards.hold with desk := false } ∧ t.polls.quiet = .off ∧
      t.wayside.inQueue = [] ∧ t.wayside.pause = false ∧ t.wayside.receiver = s.wayside.receiver ∧ t.wayside.silence = s.wayside.silence ∧
      t.wayside.link = s.wayside.link ∧
      (∀ m, s.wayside.transmitter = .sending m → t.wayside.transmitter = .sending m) ∧
      (∀ n, (t.seg n).sensor = (s.seg n).sensor) ∧ (∀ k, t.order k = none) ∧
      (∀ i, t.orderRefs i = { active := none, stack := [], pendingDivert := none }) ∧
      (∀ n i, (t.seg n).holder = some i ↔ (s.seg n).holder = some i ∧ s.position i = some n) ∧
      (∀ n, (t.seg n).queue = [] ∧ (t.seg n).leaving = false ∧ (t.seg n).withdrawing = none) ∧ t.core.waiting = [] ∧ t.guards.fenced = [] ∧
      (∀ j, (t.junction j).isSome = (s.junction j).isSome) ∧
      (∀ j r, s.junction j = some r → (t.junction j).map basis = some (if r.position = .moving then .unknown else r.position)) ∧
      (∀ i, (t.train i).map (fun r => (r.position, r.atRest, r.inMotion, r.missCount, r.condition, r.quietStand))
        = (s.train i).map fun r => (r.position, r.atRest, r.inMotion, 0, (if r.condition = .astray then .astray else .normal), false)) ∧
      (∀ i, (∀ p r, s.transferAt p = some r → r.transporter ≠ i) → t.load i = s.load i) ∧
      (∀ i p r l, s.transferAt p = some r → r.transporter = i → s.load i = some l → t.load i = some .unverified) ∧
      (∀ p, (s.pad p).state = .vacant ∨ (s.pad p).state = .barred ∨ (s.pad p).state = .unsettled → (s.pad p).claim = none → t.pad p = s.pad p) ∧
      (∀ p, (s.pad p).state = .anchored → t.pad p = { s.pad p with claim := none }) ∧
      (∀ p, (s.pad p).state = .inbound → s.transferAt p = none → t.pad p = { s.pad p with state := .vacant, claim := none, expected := none }) ∧
      (∀ p, (s.pad p).state = .inbound → s.transferAt p ≠ none →
        (t.pad p).state = .unsettled ∧ (t.pad p).claim = none ∧ (t.pad p).lastOccupant = (s.pad p).expected) ∧
      (∀ p, (s.pad p).state = .releasing ∨ (s.pad p).state = .seated →
        (t.pad p).state = .unsettled ∧ (t.pad p).claim = none ∧ (t.pad p).lastOccupant = (s.pad p).occupant) ∧
      (∀ p x, ((s.pad p).state = .releasing ∨ (s.pad p).state = .seated) ∧ (s.pad p).occupant = some x ∨
        (s.pad p).state = .inbound ∧ s.transferAt p ≠ none ∧ (s.pad p).expected = some x → t.placement x = .unplaced) ∧
      (∀ x, (∀ p, ¬ (((s.pad p).state = .releasing ∨ (s.pad p).state = .seated) ∧ (s.pad p).occupant = some x) ∧
        ¬ ((s.pad p).state = .inbound ∧ s.transferAt p ≠ none ∧ (s.pad p).expected = some x)) → t.placement x = s.placement x) ∧
      (∀ p, t.transferAt p = none) ∧ t.couplingSet = [] ∧
      (∀ p, (s.pad p).state = .releasing ∨ (s.pad p).state = .seated → (t.pad p).coupling = .none) ∧
      (∀ j r, t.junction j = some r → r.waiters = []) ∧
      (t.polls.outstanding = none ∨
        ∃ x, t.polls.outstanding = some x ∧ x.transmitted = false ∧ s.enrolledList.head? = some x.transporter)) ∧
  (∀ (s : State) (f : SentFrame) (input : WindowInput) (a : Answer) (x : QueuedRequest) (rest : List QueuedRequest), s.agenda = [] → s.late = none →
    s.port.window = .opened f false input → f.answer = some a → s.port.answers.length = 8 → s.port.requests = x :: rest →
    x.code = codeOf .restart → x.content = .valid .maintenance .restart →
      exec .answerSent s = exec (.restart ⟨x.tag, .maintenance⟩)
        { s with port := { s.port with window := .opened f true input, answers := s.port.answers.drop 1, requests := [] } } ∧
      ∃ t, exec .answerSent s = .next t ∧ t.port.requests = [])

/-! ### The layout and the junctions -/

/-- `declare-segment` of MAINTENANCE in the OPEN layout: where the nine tests pass the record takes the parameters in full and the answer is DONE with
the two counts; the first test that fails is named with REFUSED-RANGE and nothing changes. -/
def Obligations.DeclareSegmentTakesTheRecord : Prop :=
  ∀ (h : Header) (n : Nat) (d : SegDecl) (s : State), s.Ready → s.Settled → h.originator = .maintenance → s.layout.closed = false →
    let r : Request := .declareSegment n d.kind d.guard d.speed d.rest d.first d.second d.third
    let c : Instr := .declareSegment h n d.kind d.guard d.speed d.rest d.first d.second d.third
    let links := [d.first, d.second, d.third].filterMap id
    (n ≤ 127 → d.guard ≤ 2 → (d.kind = .plain ∨ d.speed = .creep) → (d.kind = .junction ∨ d.rest = .none) →
      (d.kind = .junction ∨ d.third = none) → (∀ l ∈ links, l.neighbour ≤ 127 ∧ l.neighbour ≠ n) → (links.map (·.neighbour)).Nodup →
      (d.kind ≠ .junction ∨ s.isJunction n = true ∨ s.junctionCount < 24) →
        exec c s = .next (State.decideAttention ((s.setDecl n (some d)).answered h r .done
          (.segmentCounts (s.setDecl n (some d)).segmentCount (s.setDecl n (some d)).junctionCount))) ∧
        (s.setDecl n (some d)).decl n = some d ∧ ∀ m, m ≠ n → (s.setDecl n (some d)).decl m = s.decl m) ∧
    (∀ k, firstFailing (s.declareTests n d) = some k → exec c s = .next (s.answered h r .refusedRange (.failedTest k)).decideAttention)

/-- `close-layout` of MAINTENANCE in the OPEN layout: where no test of R9 and R10 finds a fault the layout is CLOSED, every declaration kept, and
every declared junction has a record that stands UNKNOWN; a fault is named with REFUSED-LAYOUT and nothing changes. The fault of the layout: EMPTY,
with no segment named, where nothing is declared; otherwise that of the lowest-numbered declared segment that fails, at the first of its ends that
fails, in the order A, B or A, B-normal, B-reverse, with the first of the four tests that the link there fails: the neighbour is declared, the named
end exists on the neighbour's kind, that end carries a link that names this segment and this end, no other end of this segment links to the same
neighbour; and after the ends SPUR-ENDS, with no end named, for a SPUR with none or both of its ends linked. There is no fault where a segment is
declared and every declared one passes every test. The tables are in their canonical form. -/
def Obligations.CloseLayoutClosesOrNamesTheFault : Prop :=
  (∀ (h : Header) (s : State), s.Ready → h.originator = .maintenance → s.layout.closed = false →
    (s.layoutFault = none → s.canonical → ∃ t : State, exec (.closeLayout h) s = .next t ∧ t.layout = { s.layout with closed := true } ∧
      t.port.answers = s.port.answers ++ [⟨h.tag, codeOf .closeLayout, .done, .empty⟩] ∧
      (∀ j, s.isJunction j = true → (t.junction j).map basis = some .unknown) ∧
      Frame { s with layout := t.layout, port := { s.port with answers := t.port.answers } } t) ∧
    (∀ n e r, s.layoutFault = some (n, e, r) → s.Settled →
      exec (.closeLayout h) s = .next (s.answered h .closeLayout .refusedLayout (.layoutFault n e r)).decideAttention)) ∧
  (∀ s : State, s.canonical →
    let hasEnd : SegKind → TrackEnd → Prop := fun k e => e = .a ∨ if k = .junction then e = .bNormal ∨ e = .bReverse else e = .b
    let declared : Link → Prop := fun l => s.decl l.neighbour ≠ none
    let ended : Link → Prop := fun l => ∃ far, s.decl l.neighbour = some far ∧ hasEnd far.kind l.farEnd
    let returned : Nat → TrackEnd → Link → Prop := fun n e l => ∃ far, s.decl l.neighbour = some far ∧ far.linkAt l.farEnd = some ⟨n, e⟩
    let single : SegDecl → TrackEnd → Link → Prop := fun d e l => ∀ e' l', e' ≠ e → d.linkAt e' = some l' → l'.neighbour ≠ l.neighbour
    let passes : Nat → SegDecl → TrackEnd → Prop := fun n d e =>
      ∀ l, d.linkAt e = some l → declared l ∧ ended l ∧ returned n e l ∧ single d e l
    let sound : Nat → Prop := fun n => ∀ d, s.decl n = some d →
      (∀ e, passes n d e) ∧ (d.kind = .spur → (d.linkAt .a).isSome ≠ (d.linkAt .b).isSome)
    let before : TrackEnd → TrackEnd → Prop := fun e' e => (e' = .a ∧ e ≠ .a) ∨ (e' = .bNormal ∧ e = .bReverse)
    ((∀ n, s.decl n = none) → s.layoutFault = some (none, none, .empty)) ∧
    (s.layoutFault = none ↔ (∃ n d, s.decl n = some d) ∧ ∀ n, sound n) ∧
    (∀ n d e l, s.decl n = some d → d.linkAt e = some l → (∀ m, m < n → sound m) → (∀ e', before e' e → passes n d e') →
      (¬ declared l → s.layoutFault = some (some n, some e, .undeclaredNeighbour)) ∧
      (declared l → ¬ ended l → s.layoutFault = some (some n, some e, .noSuchEnd)) ∧
      (ended l → ¬ returned n e l → s.layoutFault = some (some n, some e, .notReciprocal)) ∧
      (ended l → returned n e l → ¬ single d e l → s.layoutFault = some (some n, some e, .doubleLink))) ∧
    (∀ n d, s.decl n = some d → (∀ m, m < n → sound m) → (∀ e, passes n d e) → d.kind = .spur →
      (d.linkAt .a).isSome = (d.linkAt .b).isSome → s.layoutFault = some (some n, none, .spurEnds)))

/-- An accepted leg has at most 8 stretches of 1 to 16 segments each, and its positions are the segments that they name, in order: 1 to 48, none named
twice, each declared. Each position is joined to the next by a link from its leaving end to the next one's entering end; the last has no leaving end;
no position reverses (on a PLAIN or SPUR the two ends differ, on a JUNCTION one of them is the toe and the other is not); position 0 has no entering
end where it has no leaving end or is a JUNCTION left by the toe, and otherwise the toe of a JUNCTION, or the other end; and each position has the
needed position of R15's table. An accepted back leg is made so too, but that its position 0 is entered by the end that a link of the dwell, the out
leg's last segment, names, and that link is carried by the end by which the out leg entered the dwell, where it has one. -/
def Obligations.AcceptedLegsAreWellMade : Prop :=
  ∀ (s : State) (leg : List Stretch) (route : List RoutePos),
    let made : Prop :=
      1 ≤ route.length ∧ route.length ≤ 48 ∧ (route.map (·.segment)).Nodup ∧ (∀ x ∈ route, x.segment ≤ 127 ∧ (s.decl x.segment).isSome = true) ∧
      1 ≤ leg.length ∧ leg.length ≤ 8 ∧ (∀ x ∈ leg, 1 ≤ x.count ∧ x.count ≤ 16) ∧
      route.map (·.segment) = leg.flatMap (fun x => (List.range x.count).map fun k => if x.sense = .up then x.first + k else x.first - k) ∧
      (∀ k x y, route[k]? = some x → route[k + 1]? = some y →
        ∃ d e e', s.decl x.segment = some d ∧ d.linkAt e = some ⟨y.segment, e'⟩ ∧ x.leaving = some e ∧ y.entering = some e') ∧
      (∀ x, route.getLast? = some x → x.leaving = none) ∧
      (∀ x ∈ route, ∀ d e e', s.decl x.segment = some d → x.entering = some e → x.leaving = some e' →
        if d.kind = .junction then (e = .a ↔ e' ≠ .a) else e ≠ e') ∧
      (∀ x ∈ route, ∀ d, s.decl x.segment = some d → x.needed =
        if d.kind = .junction then
          if x.entering = some .bNormal ∨ x.leaving = some .bNormal then some .normal
          else if x.entering = some .bReverse ∨ x.leaving = some .bReverse then some .reverse else none
        else none)
    (s.checkLeg leg = .ok route → made ∧
      ∀ x d, route.head? = some x → s.decl x.segment = some d →
        (x.leaving = none → x.entering = none) ∧
        ∀ e, x.leaving = some e → x.entering =
          if d.kind = .junction then (if e = .a then none else some .a) else if e = .a then some .b else some .a) ∧
    (∀ out, s.checkBackLeg out leg = .ok route → made ∧
      ∃ dwell x d e e', out.getLast? = some dwell ∧ route.head? = some x ∧ s.decl dwell.segment = some d ∧ d.linkAt e = some ⟨x.segment, e'⟩ ∧
        x.entering = some e' ∧ ∀ e0, dwell.entering = some e0 → e0 = e)

/-- `clear-switch` of MAINTENANCE takes a FAULTED junction to UNKNOWN with a recovery PROVE outstanding, and answers DONE; a junction not FAULTED is
answered REFUSED-STATE and a segment that is no junction REFUSED-RANGE, with no other effect. -/
def Obligations.ClearSwitchStartsARecoveryProve : Prop :=
  ∀ (h : Header) (j : Nat) (s : State), s.Ready → h.originator = .maintenance →
    (∀ r, j ≤ 127 → s.isJunction j = true → s.junction j = some r → r.position = .faulted →
      ∃ t r', exec (.clearSwitch h j) s = .next t ∧ t.junction j = some r' ∧ r'.position = .unknown ∧ isRecovery r'.operation = true ∧
        t.port.answers = s.port.answers ++ [⟨h.tag, codeOf (.clearSwitch j), .done, .empty⟩] ∧
        Frame { s with port := { s.port with answers := t.port.answers } } t) ∧
    (∀ r, s.Settled → j ≤ 127 → s.isJunction j = true → s.junction j = some r → r.position ≠ .faulted →
      exec (.clearSwitch h j) s = .next (s.answered h (.clearSwitch j) .refusedState .empty).decideAttention) ∧
    (s.Settled → 127 < j ∨ s.isJunction j = false →
      exec (.clearSwitch h j) s = .next (s.answered h (.clearSwitch j) .refusedRange .empty).decideAttention)

/-- A DETECTION taken while a THROW is SENT ends it: with the target the junction stands in the target; with any other value it is FAULTED and
SWITCH-FAULT is raised. A DETECTION taken while a PROVE is SENT ends it: the recorded position, or for an UNKNOWN junction the detected one, stands;
any other value makes the junction FAULTED with SWITCH-FAULT raised. A DETECTION taken while no operation of its junction is SENT is checked against
the record. One that agrees, or that finds the junction FAULTED, UNKNOWN with a recovery PROVE outstanding, or without a record, changes nothing but
the in-queue; an UNKNOWN junction takes the position detected; any other makes the junction FAULTED with SWITCH-FAULT raised. With the head of the
in-queue of another kind the command changes nothing, which is the model's choice (assumption 5). -/
def Obligations.DetectionsAreTakenByTheController : Prop :=
  (∀ (s : State) (j : Nat) (d : DetectionValue) (rest : List InMessage) (r : JunctionRec) (target : SwitchSetting) (prior : SwitchPosition) (x : Timer),
    s.agenda = [] → s.wayside.inQueue = .detection j d :: rest → s.junction j = some r → r.operation = some ⟨.throw target prior, .sent, x⟩ →
      ∃ t r', exec .detection s = .next t ∧ t.junction j = some r' ∧ r'.lawful ∧
        (detectedPosition d = some (settingPosition target) → basis r' = settingPosition target) ∧
        (detectedPosition d ≠ some (settingPosition target) → r'.position = .faulted ∧ ⟨.switchFault, j⟩ ∈ t.port.notices) ∧
        t.wayside.inQueue = rest ∧ t.wayside.pause = decide (12 ≤ rest.length) ∧ (∀ i, i ≠ j → StationKept (s.junction i) (t.junction i)) ∧
        (∀ n, (t.seg n).sensor = (s.seg n).sensor) ∧ t.guards.hold = s.guards.hold ∧ Frame s t) ∧
  (∀ (s : State) (j : Nat) (d : DetectionValue) (rest : List InMessage) (r : JunctionRec) (origin : ProveOrigin) (x : Timer),
    s.agenda = [] → s.wayside.inQueue = .detection j d :: rest → s.junction j = some r → r.operation = some ⟨.prove origin, .sent, x⟩ →
      ∃ t r', exec .detection s = .next t ∧ t.junction j = some r' ∧ r'.lawful ∧
        (∀ p, detectedPosition d = some p → r.position = .unknown ∨ r.position = p → basis r' = p) ∧
        (detectedPosition d = none ∨ (r.position ≠ .unknown ∧ detectedPosition d ≠ some r.position) →
          r'.position = .faulted ∧ ⟨.switchFault, j⟩ ∈ t.port.notices) ∧
        t.wayside.inQueue = rest ∧ (∀ i, i ≠ j → StationKept (s.junction i) (t.junction i)) ∧
        (∀ n, (t.seg n).sensor = (s.seg n).sensor) ∧ t.guards.hold = s.guards.hold ∧ Frame s t) ∧
  ((∀ s : State, s.Settled → (∀ j d rest, s.wayside.inQueue ≠ .detection j d :: rest) → exec .detection s = .next s.decideAttention) ∧
  (∀ (s : State) (j : Nat) (d : DetectionValue) (rest : List InMessage), s.wayside.inQueue = .detection j d :: rest →
    (s.Settled → s.junction j = none → exec .detection s = .next (s.setInQueue rest).decideAttention) ∧
    (∀ r, s.junction j = some r → r.lawful → (∀ q x, r.operation ≠ some ⟨q, .sent, x⟩) →
      (s.Settled →
        r.position = .faulted ∨ (r.position = .unknown ∧ isRecovery r.operation = true) ∨
          ((r.position = .normal ∨ r.position = .reverse) ∧ detectedPosition d = some r.position) ∨
          (r.position = .moving ∧ detectedPosition d = some (basis r)) →
        exec .detection s = .next (s.setInQueue rest).decideAttention) ∧
      (∀ p, s.agenda = [] → r.position = .unknown → isRecovery r.operation = false → detectedPosition d = some p →
        ∃ t r', exec .detection s = .next t ∧ t.junction j = some r' ∧ r'.lawful ∧ basis r' = p ∧ t.wayside.inQueue = rest ∧
          (∀ i, i ≠ j → StationKept (s.junction i) (t.junction i)) ∧ (∀ n, (t.seg n).sensor = (s.seg n).sensor) ∧
          t.guards.hold = s.guards.hold ∧ Frame s t) ∧
      (s.agenda = [] →
        ((r.position = .normal ∨ r.position = .reverse) ∧ detectedPosition d ≠ some r.position) ∨
          (r.position = .unknown ∧ isRecovery r.operation = false ∧ detectedPosition d = none) ∨
          (r.position = .moving ∧ detectedPosition d ≠ some (basis r)) →
        ∃ t r', exec .detection s = .next t ∧ t.junction j = some r' ∧ r'.position = .faulted ∧ ⟨.switchFault, j⟩ ∈ t.port.notices ∧
          t.wayside.inQueue = rest ∧ (∀ i, i ≠ j → StationKept (s.junction i) (t.junction i)) ∧
          (∀ n, (t.seg n).sensor = (s.seg n).sensor) ∧ t.guards.hold = s.guards.hold ∧ Frame s t))))

/-- A SENT operation whose timer expires makes its junction FAULTED with SWITCH-FAULT raised; with no operation timer running the expiry changes
nothing, which is the model's choice (assumption 6). -/
def Obligations.OperationTimeoutFaultsTheJunction : Prop :=
  ∀ (s : State) (j : Nat) (r : JunctionRec), s.junction j = some r →
    (∀ q time, s.agenda = [] → r.operation = some ⟨q, .sent, .running time⟩ →
      ∃ t r', exec (.operationTimerExpiry j) s = .next t ∧ t.junction j = some r' ∧ r'.position = .faulted ∧
        ⟨.switchFault, j⟩ ∈ t.port.notices ∧ (∀ i, i ≠ j → StationKept (s.junction i) (t.junction i)) ∧ t.wayside.inQueue = s.wayside.inQueue ∧
        (∀ n, (t.seg n).sensor = (s.seg n).sensor) ∧ t.guards.hold = s.guards.hold ∧ Frame s t) ∧
    (s.Settled → r.operation = none ∨ (∃ q x, r.operation = some ⟨q, .queued, x⟩) ∨ (∃ q ph, r.operation = some ⟨q, ph, .stopped⟩) →
      exec (.operationTimerExpiry j) s = .next s.decideAttention)

/-- The hold time of a released junction passes: the hold is EXPIRED and the rest decision is made: a junction that has no rest position or stands in
it stays where it is; an unheld one without a claimant or an operation, with its sensor CLEAR, that stands settled in another position has a throw to
its rest position queued. The prove interval passes: the timer stops and, with a junction eligible and no rotation PROVE outstanding, a PROVE is
recorded for the next one in the rotation, its position standing, and the pointer becomes that junction; with none eligible only the timer stops. The
throw check of a held junction queues a throw to the position that its holder's route ahead needs (assumption 46) exactly where the junction is not
marked RELEASE, stands settled in another position, has no PROVE outstanding but a rotation PROVE still queued, and its sensor shows CLEAR; the rest
decision of an unheld junction queues one to its rest position exactly where it has no claimant, its hold has expired, no operation is outstanding, it
stands settled in another position and its sensor shows CLEAR. A junction with a throw queued is MOVING, with the position recorded before as the
prior position; the THROW is handed to the out-queue, or SENT at once with the throw timeout running where the transmitter is idle, nothing waits and
no hold bars it. A throw still QUEUED is withdrawn, its entry taken back and the prior position standing again, when its junction is released or
granted, or when its holder's route ahead no longer needs its target or the junction is marked RELEASE. The Controller told of a release starts the
hold, or with a hold time of 0 lets it expire at once; told of a grant it ends the hold. -/
def Obligations.JunctionHoldsProvesAndThrows : Prop :=
  (∀ (s : State) (j time : Nat) (r : JunctionRec), s.Settled → s.junction j = some r → r.hold = .running time →
    (s.canonical → (∀ d, s.decl j = some d → d.rest = .none ∨ (restSetting d.rest).map settingPosition = some r.position) →
      exec (.junctionHoldExpiry j) s = .next (s.setJunction j (some { r with hold := .expired })).decideAttention) ∧
    (∀ d target, s.canonical → s.decl j = some d → restSetting d.rest = some target → r.position = .normal ∨ r.position = .reverse ∨ r.position = .unknown →
      r.position ≠ settingPosition target → (s.seg j).holder = none → (s.seg j).queue = [] → r.operation = none → (s.seg j).sensor = .clear →
      exec (.junctionHoldExpiry j) s = .next (State.decideAttention ((s.setJunction j (some { r with hold := .expired })).queueThrow j target))) ∧
    (∃ t, exec (.junctionHoldExpiry j) s = .next t ∧ Calm (s.setJunction j (some { r with hold := .expired })) t)) ∧
  (∀ (s : State) (time : Nat), s.Settled → s.junctions.interval = .running time →
    (∀ j r, (s.junctions.recs.all fun e => match e.2 with | some r => !isRotation r.operation | none => true) = true →
      s.rotationNext = some j → s.junction j = some r →
      ∃ t r', exec .proveIntervalExpiry s = .next t ∧ t.junctions.interval = .stopped ∧ t.junctions.pointer = some j ∧
        t.junction j = some r' ∧ r'.position = r.position ∧ isRotation r'.operation = true ∧ (s.seg j).holder = none ∧
        Calm { s with junctions := t.junctions, wayside := t.wayside } t) ∧
    (s.rotationNext = none →
      exec .proveIntervalExpiry s = .next (State.decideAttention { s with junctions := { s.junctions with interval := .stopped } }))) ∧
  ((∀ (s : State) (j t : Nat) (r : JunctionRec), (s.seg j).holder = some t → s.junction j = some r →
    let stands : SwitchSetting → Prop := fun target => (r.position = .normal ∧ target = .reverse) ∨ (r.position = .reverse ∧ target = .normal) ∨ r.position = .unknown
    let free := ∀ origin phase timer, r.operation = some ⟨.prove origin, phase, timer⟩ → origin = .rotation ∧ phase = .queued
    let needs : SwitchSetting → Prop := fun target =>
      s.neededAt t j = some target ∧ (s.seg j).withdrawing ≠ some .release ∧ stands target ∧ free ∧ (s.seg j).sensor = .clear
    (∀ target, needs target → runTask (.throwCheck j) s = s.queueThrow j target) ∧
    ((∀ target, ¬needs target) → runTask (.throwCheck j) s = s)) ∧
  (∀ (s : State) (j : Nat), (s.seg j).holder = none → runTask (.throwCheck j) s = s) ∧
  (∀ (s : State) (j : Nat) (r : JunctionRec) (d : SegDecl), s.junction j = some r → s.decl j = some d →
    let stands : SwitchSetting → Prop := fun target => (r.position = .normal ∧ target = .reverse) ∨ (r.position = .reverse ∧ target = .normal) ∨ r.position = .unknown
    let rests : SwitchSetting → Prop := fun target =>
      ((d.rest = .normal ∧ target = .normal) ∨ (d.rest = .reverse ∧ target = .reverse)) ∧ (s.seg j).holder = none ∧ (s.seg j).queue = [] ∧
        r.hold = .expired ∧ r.operation = none ∧ stands target ∧ (s.seg j).sensor = .clear
    (∀ target, rests target → runTask (.restDecision j) s = s.queueThrow j target) ∧
    ((∀ target, ¬rests target) → runTask (.restDecision j) s = s)) ∧
  (∀ (s : State) (j : Nat) (target : SwitchSetting) (r : JunctionRec), s.junction j = some r →
    let u := s.queueThrow j target
    let thrown : JunctionRec := { r with
      position := .moving, operation := some ⟨.throw target r.position, .queued, .stopped⟩, untrusted := false, underHolder := false }
    (∀ m, s.wayside.transmitter = .sending m →
      u.junction j = some thrown ∧ u.wayside.outQueue = placeOut s.wayside.outQueue (.throw j target) ∧ u.wayside.transmitter = s.wayside.transmitter) ∧
    (s.wayside.transmitter = .idle → s.wayside.outQueue = [] → s.transmissionBarred = false →
      u.junction j = some { thrown with operation := some ⟨.throw target r.position, .sent, .running s.port.params.throwTimeout⟩ } ∧
        u.wayside.outQueue = [] ∧ u.wayside.transmitter = .sending (.throw j target)) ∧
    (s.wayside.transmitter = .idle → s.wayside.outQueue = [] → s.transmissionBarred = true →
      u.junction j = some thrown ∧ u.wayside.outQueue = [.throw j target] ∧ u.wayside.transmitter = .idle) ∧
    (isRotation r.operation = true → u.junctions.interval = .running s.port.params.proveInterval) ∧
    (∀ t, (s.seg j).holder = some t → .recompute t ∈ u.agenda) ∧ u.core = s.core ∧ u.orders = s.orders) ∧
  (∀ (s : State) (j : Nat) (r : JunctionRec), s.junction j = some r →
    (∀ target prior x, r.operation = some ⟨.throw target prior, .queued, x⟩ →
      let back : JunctionRec := { r with position := prior, operation := none }
      (let u := s.withdrawThrow j
       u.junction j = some back ∧ u.wayside.outQueue = s.wayside.outQueue.filter (fun m => decide (outObject m ≠ .junction j)) ∧
         .throwCheck j ∈ u.agenda ∧ .restDecision j ∈ u.agenda ∧ (∀ t, (s.seg j).holder = some t → .recompute t ∈ u.agenda) ∧
         u.core = s.core ∧ u.orders = s.orders) ∧
      (s.junctionReleased j).junction j = some { back with
        hold := (if s.port.params.holdTime = 0 then .expired else .running s.port.params.holdTime), underHolder := false } ∧
      (s.junctionGranted j).junction j = some { back with hold := .expired, untrusted := false, underHolder := false } ∧
      (∀ t, s.neededAt t j = some target → (s.seg j).withdrawing ≠ some .release → s.dropUnneededThrow t j = s) ∧
      (∀ t, s.neededAt t j ≠ some target ∨ (s.seg j).withdrawing = some .release → s.dropUnneededThrow t j = s.withdrawThrow j)) ∧
    ((∀ target prior x, r.operation ≠ some ⟨.throw target prior, .queued, x⟩) →
      s.withdrawThrow j = s ∧ (∀ t, s.dropUnneededThrow t j = s) ∧
      (s.junctionReleased j).junction j = some { r with
        hold := (if s.port.params.holdTime = 0 then .expired else .running s.port.params.holdTime), underHolder := false } ∧
      (s.junctionGranted j).junction j = some { r with
        hold := .expired, underHolder := false, untrusted := (match r.operation with | some ⟨.prove _, _, _⟩ => true | _ => false) })))

/-! ### Orders -/

/-- A `submit-order` that passes every step of R68 is accepted: the lowest-numbered free slot takes the order with the given transporter, kind, finish
and leg, the cursor and the claim point at position 0; it becomes the transporter's active order; a LIFT's pad stays ANCHORED with the slot as its
claiming order and a SET-DOWN's becomes INBOUND for the transporter's telescope. The answer is ACCEPTED with the slot and the leg's length. All of it
stands in the next state, but for the head and the claim point, which the lead extension moves on along the leg; this where the references name live
orders (O4) and no divert is STARTING for a transporter without an active order, as R93 and R94 have it. The work that follows leaves what `Calm`
says. -/
def Obligations.AcceptedOrderTakesItsSlot : Prop :=
  ∀ (h : Header) (i : Nat) (kind : OrderKind) (f : Finish) (leg : List Stretch) (s : State) (k : Nat) (route : List RoutePos),
    s.Ready → s.layout.closed = true → s.freeSlot = some k → i ≤ 3 → kind ≠ .refuge → (∀ p, finishPad f = some p → p ≤ 191) →
    s.hasCondition i .normal = true → (s.orderRefs i).active = none → (s.orderRefs i).pendingDivert = none → s.checkLeg leg = .ok route →
    (route.head?).map (·.segment) = s.position i → s.kindAgrees i kind = true → s.finishRefusal kind f route = none →
    s.firstRefused h.originator (submissionObjects route f) = none →
      let o : Order :=
        { transporter := i, kind := kind, finish := some f, leg1 := route, leg2 := [], cursor := ⟨1, 0⟩, claim := ⟨1, 0⟩, head := .none
          state := .running, failure := none, outcome := none, resumed := false, rejoin := none }
      let e := (((s.setOrder k (some o)).setRefs i { s.orderRefs i with active := some k }).takeClaim k i f).answered h (.submitOrder i kind f leg)
        .accepted (.orderAccepted k route.length)
      e.order k = some o ∧ (e.orderRefs i).active = some k ∧
      (∀ p, f = .lift p → e.pad p = { s.pad p with claim := some k }) ∧
      (∀ p x, f = .setDown p → s.load i = some (.telescope x) → e.pad p = { s.pad p with state := .inbound, expected := some x, claim := some k }) ∧
      ∃ t, exec (.submitOrder h i kind f leg) s = .next t ∧ Calm e t ∧
        (s.refsRight → s.startingDivert i = none →
          t.orderRefs i = { s.orderRefs i with active := some k } ∧
          (∃ o' : Order, t.order k = some o' ∧ o' = { o with claim := o'.claim, head := o'.head } ∧ o'.claim.leg = 1 ∧ o'.claim.pos < route.length) ∧
          (∀ p, f = .lift p → t.pad p = { s.pad p with claim := some k }) ∧
          (∀ p x, f = .setDown p → s.load i = some (.telescope x) →
            t.pad p = { s.pad p with state := .inbound, expected := some x, claim := some k }))

/-- A refused `submit-order` changes nothing: no free slot is answered NO-SLOT; then a number out of range REFUSED-RANGE; then a transporter not free
to take an order REFUSED-STATE; then a leg that fails the walk REFUSED-ROUTE with its position and fault; then one that does not begin where the
transporter stands REFUSED-ROUTE with fault START; then a kind that does not agree with the load REFUSED-STATE; then a finish that fails R69 with the
outcome given there (that the body of test d carries the fault ACCESS and no name of the test is the model's choice, assumption 54); then a segment of
the leg or a pad that the originator may not act on DENIED. -/
def Obligations.RefusedOrderChangesNothing : Prop :=
  ∀ (h : Header) (i : Nat) (kind : OrderKind) (f : Finish) (leg : List Stretch) (s : State), s.Ready → s.Settled → s.layout.closed = true →
    let r : Request := .submitOrder i kind f leg
    let reply := fun (o : Outcome) (b : Body) => exec (.submitOrder h i kind f leg) s = .next (s.answered h r o b).decideAttention
    let busy := s.hasCondition i .normal = false ∨ (s.orderRefs i).active ≠ none ∨ (s.orderRefs i).pendingDivert ≠ none
    let ranges := i ≤ 3 ∧ kind ≠ .refuge ∧ ∀ p, finishPad f = some p → p ≤ 191
    (s.freeSlot = none → reply .noSlot .empty) ∧
    (s.freeSlot ≠ none → ¬ranges → reply .refusedRange .empty) ∧
    (s.freeSlot ≠ none → ranges → busy → reply .refusedState .empty) ∧
    (∀ p x, s.freeSlot ≠ none → ranges → ¬busy → s.checkLeg leg = .error (p, x) → reply .refusedRoute (.routeFault 1 p x)) ∧
    (∀ route, s.freeSlot ≠ none → ranges → ¬busy → s.checkLeg leg = .ok route →
      ((route.head?).map (·.segment) ≠ s.position i → reply .refusedRoute (.routeFault 1 0 .start)) ∧
      ((route.head?).map (·.segment) = s.position i →
        (s.kindAgrees i kind = false → reply .refusedState .empty) ∧
        (s.kindAgrees i kind = true → (∀ x, s.finishRefusal kind f route = some x → reply x.1 x.2) ∧
          (∀ x n, s.finishRefusal kind f route = none → s.firstRefused h.originator (submissionObjects route f) = some (x, n) →
            reply .denied (.deniedObject x n)))))

/-- `cancel-order` of a RUNNING, DWELLING or ARRIVED order with no divert STARTING for its transporter: the order is CANCELLING, or with its
withdrawal complete ENDED; no pad is left under its claim, its legs stay as they were, and the answer follows the withdrawal: ACCEPTED while the order
is still CANCELLING, DONE otherwise, with the order's state. (R84 answers an ARRIVED order DONE, since it has no track ahead; that one which has
rolled back, so that a withdrawal runs, is answered ACCEPTED is the model's choice, assumption 47.) The orders on the stack beneath a refuge, and the
pending divert, are ENDED. (Where a state of an order is told, the references name live orders, O4.) `cancel-order` of a FAILED order leaves it ENDED
and is answered DONE, and so does that of a divert still STARTING; of an EMPTY or ENDED slot, of an order SUSPENDED, PENDING, in TRANSFER or
CANCELLING, or of one RUNNING or DWELLING while a divert is STARTING, it is answered REFUSED-STATE; of a slot above 7 REFUSED-RANGE. -/
def Obligations.CancelByTheOrdersState : Prop :=
  (∀ (h : Header) (k : Nat) (s : State) (o : Order), s.Ready → k ≤ 7 → s.order k = some o →
    (o.state = .running ∧ s.startingDivert o.transporter = none) ∨ (o.state = .dwelling ∧ s.startingDivert o.transporter = none) ∨ o.state = .arrived →
      ∃ t o', exec (.cancelOrder h k) s = .next t ∧ t.order k = some o' ∧ shape o' = shape o ∧ (∀ p, (t.pad p).claim ≠ some k) ∧
        t.port.answers = s.port.answers
          ++ [⟨h.tag, codeOf (.cancelOrder k), (if o'.state = .cancelling then .accepted else .done), .orderState o'.state⟩] ∧
        (∀ p, (s.pad p).claim = some k → (s.pad p).state = .anchored → t.pad p = { s.pad p with claim := none }) ∧
        (∀ p, (s.pad p).claim = some k → (s.pad p).state = .inbound →
          t.pad p = { s.pad p with state := .vacant, expected := none, claim := none }) ∧
        (o.kind = .refuge → o.state = .running ∨ o.state = .dwelling →
          ∀ m ∈ (s.orderRefs o.transporter).stack ++ (s.orderRefs o.transporter).pendingDivert.toList, (s.order m).isSome = true →
            ⟨.orderEnded, m⟩ ∈ t.port.notices) ∧
        (s.refsRight → s.startingDivert o.transporter = none → o'.state = .cancelling ∨ o'.state = .ended) ∧
        (s.refsRight → o.kind = .refuge → o.state = .running ∨ o.state = .dwelling →
          ∀ m ∈ (s.orderRefs o.transporter).stack ++ (s.orderRefs o.transporter).pendingDivert.toList, ∃ x, t.order m = some x ∧ x.state = .ended) ∧
        Calm { s with port := { s.port with answers := t.port.answers } } t) ∧
  (∀ (h : Header) (k : Nat) (s : State), s.Ready →
    (∀ o, k ≤ 7 → s.order k = some o → o.state = .failed →
      ∃ t, exec (.cancelOrder h k) s = .next t ∧ t.port.answers = s.port.answers ++ [⟨h.tag, codeOf (.cancelOrder k), .done, .empty⟩] ∧
        (s.refsRight → ∃ x, t.order k = some x ∧ x.state = .ended) ∧
        ⟨.orderEnded, k⟩ ∈ t.port.notices ∧ (∀ p, (t.pad p).claim ≠ some k) ∧ Calm ((s.endOrder k .failed).answered h (.cancelOrder k) .done .empty) t) ∧
    (∀ o, k ≤ 7 → s.order k = some o → o.state = .starting →
      ∃ t, exec (.cancelOrder h k) s = .next t ∧ t.port.answers = s.port.answers ++ [⟨h.tag, codeOf (.cancelOrder k), .done, .empty⟩] ∧
        (s.refsRight → ∃ x, t.order k = some x ∧ x.state = .ended) ∧
        ⟨.orderEnded, k⟩ ∈ t.port.notices ∧ Calm ((s.endOrder k .cancelled).answered h (.cancelOrder k) .done .empty) t) ∧
    (∀ o, s.Settled → k ≤ 7 → s.order k = some o →
      o.state = .ended ∨ o.state = .suspended ∨ o.state = .pending ∨ o.state = .transfer ∨ o.state = .cancelling ∨
        ((o.state = .running ∨ o.state = .dwelling) ∧ s.startingDivert o.transporter ≠ none) →
      exec (.cancelOrder h k) s = .next (s.answered h (.cancelOrder k) .refusedState .empty).decideAttention) ∧
    (s.Settled → k ≤ 7 → s.order k = none →
      exec (.cancelOrder h k) s = .next (s.answered h (.cancelOrder k) .refusedState .empty).decideAttention) ∧
    (s.Settled → 7 < k → exec (.cancelOrder h k) s = .next (s.answered h (.cancelOrder k) .refusedRange .empty).decideAttention))

/-- A `divert` that passes R91 takes the lowest-numbered free slot with a refuge of both legs. With fewer than three orders on the stack the answer is
DONE with the state in which the event leaves the refuge, or ACCEPTED while it is STARTING; with three it is PENDING and the refuge becomes the
pending divert (the references naming live orders, O4). A divert that R91 refuses is answered with the refusal and changes nothing. The tests of a
`divert`, in their order: no free slot is answered NO-SLOT; then a transporter number out of range REFUSED-RANGE; then a transporter not NORMAL,
without an active order that is RUNNING or a DWELLING refuge, or with a divert STARTING or pending REFUSED-STATE; then an out leg, and then a back
leg, that fails its walk REFUSED-ROUTE with the leg, the position and the fault; then, with fewer than three orders on the stack, an out leg that does
not begin where the transporter stands REFUSED-ROUTE with fault START, and a back leg whose last segment is no rejoin point REFUSED-ROUTE with fault
REJOIN; then a segment of the two legs that the originator may not act on DENIED. What passes is to start, or with three orders on the stack to wait.
A refusal changes nothing. The rejoin position of a back leg in an order: the first place of the remaining route whose segment is the back leg's last,
where that is neither the segment on which the transporter stands nor the one at the order's cursor; without such a place there is none. The remaining
route is leg 1 after the cursor, for a refuge not resumed followed by all of leg 2, and for a resumed refuge leg 2 after the cursor, or all of it
where the cursor stands in leg 1. (That these two exceptions shut out the segment, wherever it stands in the remaining route, is the model's reading,
assumption 33.) -/
def Obligations.DivertIsDecidedAndTaken : Prop :=
  (∀ (h : Header) (i : Nat) (outLeg backLeg : List Stretch) (s : State), s.Ready → s.layout.closed = true →
    let c : Instr := .divert h i outLeg backLeg
    let r : Request := .divert i outLeg backLeg
    (∀ k out back place, s.decideDivert h.originator i outLeg backLeg = .ok (k, out, back, .starting place) →
      ∃ t o', exec c s = .next t ∧ s.freeSlot = some k ∧ t.order k = some o' ∧ shape o' = (i, .refuge, none, out, back) ∧
        t.port.answers = s.port.answers
          ++ [⟨h.tag, codeOf r, (if o'.state = .starting then .accepted else .done), .refuge k out.length back.length o'.state⟩] ∧
        Calm { s.setOrder k (some { newRefuge i out back with state := .starting, rejoin := some place }) with
          port := { s.port with answers := t.port.answers } } t) ∧
    (∀ k out back, s.decideDivert h.originator i outLeg backLeg = .ok (k, out, back, .pending) →
      ∃ t, exec c s = .next t ∧ s.freeSlot = some k ∧ (t.order k).map shape = some (i, .refuge, none, out, back) ∧
        (s.refsRight → t.orderRefs i = { s.orderRefs i with pendingDivert := some k } ∧
          ∃ o' : Order, t.order k = some o' ∧ o' = { newRefuge i out back with claim := o'.claim, head := o'.head } ∧ o'.state = .pending) ∧
        Calm (((s.setOrder k (some (newRefuge i out back))).setRefs i { s.orderRefs i with pendingDivert := some k }).answered h r .pending
          (.refugePending k out.length back.length)) t) ∧
    (∀ o b, s.Settled → s.decideDivert h.originator i outLeg backLeg = .error (o, b) → exec c s = .next (s.answered h r o b).decideAttention)) ∧
  (∀ (h : Header) (i : Nat) (outLeg backLeg : List Stretch) (s : State), s.Ready → s.Settled → s.layout.closed = true →
    let r : Request := .divert i outLeg backLeg
    let reply := fun (o : Outcome) (b : Body) => exec (.divert h i outLeg backLeg) s = .next (s.answered h r o b).decideAttention
    let divertible : Order → Prop := fun o => o.state = .running ∨ (o.kind = .refuge ∧ o.state = .dwelling)
    let fit := s.hasCondition i .normal = true ∧ (∃ a o, (s.orderRefs i).active = some a ∧ s.order a = some o ∧ divertible o) ∧
      s.startingDivert i = none ∧ (s.orderRefs i).pendingDivert = none
    (s.freeSlot = none → reply .noSlot .empty) ∧
    (s.freeSlot ≠ none → 3 < i → reply .refusedRange .empty) ∧
    (s.freeSlot ≠ none → i ≤ 3 → ¬fit → reply .refusedState .empty) ∧
    (∀ p x, s.freeSlot ≠ none → i ≤ 3 → fit → s.checkLeg outLeg = .error (p, x) → reply .refusedRoute (.routeFault 1 p x)) ∧
    (∀ out p x, s.freeSlot ≠ none → i ≤ 3 → fit → s.checkLeg outLeg = .ok out → s.checkBackLeg out backLeg = .error (p, x) →
      reply .refusedRoute (.routeFault 2 p x)) ∧
    (∀ k a o out back, s.freeSlot = some k → i ≤ 3 → fit → (s.orderRefs i).active = some a → s.order a = some o → s.checkLeg outLeg = .ok out →
      s.checkBackLeg out backLeg = .ok back →
      let depth := (s.orderRefs i).stack.length
      let begins := (out.head?).map (·.segment) = s.position i
      let refused := s.firstRefused h.originator ((out ++ back).map fun x => (.segment, x.segment))
      (depth < 3 → ¬begins → reply .refusedRoute (.routeFault 1 0 .start)) ∧
      (depth < 3 → begins → s.rejoinPlace i o back = none → reply .refusedRoute (.routeFault 2 (back.length - 1) .rejoin)) ∧
      (∀ place, depth < 3 → begins → s.rejoinPlace i o back = some place →
        (∀ x n, refused = some (x, n) → reply .denied (.deniedObject x n)) ∧
        (refused = none → s.decideDivert h.originator i outLeg backLeg = .ok (k, out, back, .starting place))) ∧
      (3 ≤ depth →
        (∀ x n, refused = some (x, n) → reply .denied (.deniedObject x n)) ∧
        (refused = none → s.decideDivert h.originator i outLeg backLeg = .ok (k, out, back, .pending))))) ∧
  (∀ (s : State) (i : Nat) (o : Order) (back : List RoutePos) (x : RoutePos), back.getLast? = some x →
    let stands : Place → Prop := fun y =>
      (y.leg = 1 ∧ (o.leg1[y.pos]?).map (·.segment) = some x.segment ∧ (o.kind ≠ .refuge ∨ o.resumed = false) ∧ o.cursor.pos < y.pos) ∨
      (y.leg = 2 ∧ (o.leg2[y.pos]?).map (·.segment) = some x.segment ∧ o.kind = .refuge ∧ (o.resumed = true → o.cursor.leg = 2 → o.cursor.pos < y.pos))
    let barred := s.position i = some x.segment ∨ o.cursorSegment = some x.segment
    (∀ place, s.rejoinPlace i o back = some place → ¬barred ∧ stands place ∧
      ∀ y, stands y → place.leg < y.leg ∨ (place.leg = y.leg ∧ place.pos ≤ y.pos)) ∧
    (s.rejoinPlace i o back = none ↔ barred ∨ ∀ y, ¬stands y))

/-- `resume-refuge` of a DWELLING refuge that is its transporter's active order, with no divert STARTING, makes it RUNNING and resumed, still the
active order (the references naming live orders, O4), and is answered DONE with the head cause that the lead extension reaches, and the refuge keeps
its legs and its cursor, which for one that dwells off its cursor is the model's choice (assumption 48); of any other slot from 0 to 7 it is answered
REFUSED-STATE, and above 7 REFUSED-RANGE. -/
def Obligations.ResumeRefugeAnswersTheHeadCause : Prop :=
  ∀ (h : Header) (k : Nat) (s : State), s.Ready →
    (∀ o, k ≤ 7 → s.order k = some o → o.kind = .refuge → o.state = .dwelling → (s.orderRefs o.transporter).active = some k →
      s.startingDivert o.transporter = none →
      ∃ t o', exec (.resumeRefuge h k) s = .next t ∧ t.order k = some o' ∧ shape o' = shape o ∧
        (s.refsRight → o' = { o with state := .running, resumed := true, claim := o'.claim, head := o'.head } ∧ t.orderRefs o.transporter = s.orderRefs o.transporter) ∧
        t.port.answers = s.port.answers ++ [⟨h.tag, codeOf (.resumeRefuge k), .done, .headCause o'.head⟩] ∧
        Calm { s with port := { s.port with answers := t.port.answers } } t) ∧
    (∀ o, s.Settled → k ≤ 7 → s.order k = some o →
      o.kind ≠ .refuge ∨ o.state ≠ .dwelling ∨ (s.orderRefs o.transporter).active ≠ some k ∨ s.startingDivert o.transporter ≠ none →
      exec (.resumeRefuge h k) s = .next (s.answered h (.resumeRefuge k) .refusedState .empty).decideAttention) ∧
    (s.Settled → k ≤ 7 → s.order k = none →
      exec (.resumeRefuge h k) s = .next (s.answered h (.resumeRefuge k) .refusedState .empty).decideAttention) ∧
    (s.Settled → 7 < k → exec (.resumeRefuge h k) s = .next (s.answered h (.resumeRefuge k) .refusedRange .empty).decideAttention)

/-! ### Claims, limits and the out-queue -/

/-- The decision of a claim by transporter t for segment n: the seven tests of R24 in their order. -/
def Obligations.ClaimsAreDecidedInOrder : Prop :=
  ∀ (s : State) (t n : Nat),
    ((s.seg n).holder = some t → s.claimResult t n = .granted) ∧
    ((s.seg n).holder ≠ some t → (s.seg n).sensor = .unknown → s.claimResult t n = .waitSensor) ∧
    ((s.seg n).holder ≠ some t → (s.seg n).sensor ≠ .unknown → 0 < s.fenceCount n → s.claimResult t n = .refusedFenced) ∧
    ((s.seg n).holder ≠ some t → (s.seg n).sensor ≠ .unknown → s.fenceCount n = 0 → (∃ r, s.junction n = some r ∧ r.position = .faulted) →
      s.claimResult t n = .waitSwitch) ∧
    (∀ u, (s.seg n).holder = some u → u ≠ t → (s.seg n).sensor ≠ .unknown → s.fenceCount n = 0 →
      (∀ r, s.junction n = some r → r.position ≠ .faulted) →
      s.claimResult t n = if s.closesCycle t 4 u then .refusedCycle else .queued) ∧
    ((s.seg n).holder = none → s.fenceCount n = 0 → (∀ r, s.junction n = some r → r.position ≠ .faulted) →
      ((s.seg n).sensor = .occupied → s.claimResult t n = .waitIntrusion) ∧
      ((s.seg n).sensor = .clear → s.holdActive = false → (s.seg n).queue = [] → s.claimResult t n = .granted) ∧
      ((s.seg n).sensor = .clear → s.holdActive = true ∨ (s.seg n).queue ≠ [] → (s.seg n).queue.length < 3 → s.claimResult t n = .queued) ∧
      ((s.seg n).sensor = .clear → 3 ≤ (s.seg n).queue.length → s.claimResult t n = .full))

/-- What a recomputation records. The KEEP marks are decided first by the causes that stand. The limit that `recompute` then records is the
transporter's position or the segment of a position of its route ahead: every position up to it is on track that the transporter holds, unmarked and,
at a junction, in the position that its route needs (and still unmarked after the withdrawal beyond it, where the route ahead names no segment twice);
while the array hold is active, quiet is on, the transporter is not NORMAL, a divert is STARTING, a junction has faulted under it (`faultedUnder`,
assumption 30) or its order is not RUNNING, the limit is its position; otherwise it is the furthest such position: the next one fails a test. The
ceiling is CREEP where the extent has a CREEP segment; else LOADED under a telescope or an UNVERIFIED load, else TRAVEL. -/
def Obligations.RunLimitCoversHeldTrackOnly : Prop :=
  ∀ (s : State) (i : Nat),
    let forced : Prop := s.holdActive = true ∨ s.polls.quiet ≠ .off ∨ s.hasCondition i .normal = false ∨ (s.startingDivert i).isSome = true ∨
      s.faultedUnder i = true ∨ ¬∃ k o, s.active i = some (k, o) ∧ o.state = .running
    let u := s.reviseMarks i
    let t := s.recompute i
    (∀ x ∈ (s.routeAhead i).take (s.reach i),
      (s.seg x.segment).holder = some i ∧ (s.seg x.segment).withdrawing = none ∧ s.agrees x = true) ∧
    (forced → s.reach i = 0) ∧
    (∀ r y, forced → s.train i = some y → t.run i = some r → r.limit = y.position) ∧
    (t.run i).isSome = (s.run i).isSome ∧
    (∀ n, (s.seg n).holder = some i → (u.seg n).withdrawing =
      if (s.seg n).withdrawing = some .keep then (if s.releaseCause i = true then some .release else if s.keepCause i n = true then some .keep else none)
      else (s.seg n).withdrawing) ∧
    (∀ r p, t.run i = some r → s.position i = some p →
      ∃ k, k ≤ (s.routeAhead i).length ∧
        let covered := (s.routeAhead i).take k
        r.limit = ((covered.map (·.segment)).getLast?).getD p ∧
        (∀ x ∈ covered, (t.seg x.segment).holder = some i ∧ (u.seg x.segment).withdrawing = none ∧ t.agrees x = true ∧
          (((s.routeAhead i).map (·.segment)).Nodup → (t.seg x.segment).withdrawing = none)) ∧
        (forced → k = 0) ∧
        (¬forced → ∀ x, (s.routeAhead i)[k]? = some x →
          ¬((s.seg x.segment).holder = some i ∧ (u.seg x.segment).withdrawing = none ∧ s.agrees x = true)) ∧
        (let creep := ∃ n ∈ p :: covered.map (·.segment), ∃ d, s.decl n = some d ∧ d.speed = .creep
         (creep → r.ceiling = .creep) ∧
         (¬creep → s.load i = some .unverified ∨ (∃ y, s.load i = some (.telescope y)) → r.ceiling = .loaded) ∧
         (¬creep → s.load i = some .none ∨ s.load i = none → r.ceiling = .travel)))

/-- A withdrawal and its confirmation. (The track ahead is that after the cursor, wherever the transporter stands, assumption 13, and the limit last
sent stands at its first place there, assumption 31.) Where the recomputed limit, which covers k positions of the route ahead, falls short of the
limit last sent, the segments held beyond it take a mark, RELEASE for a cause of release and else KEEP, a RELEASE mark staying, and the confirmation
state is AWAITING-POLL; where no limit sent reaches them and a cause of release stands, the unmarked ones are released and no other segment: all of
them where the track is given up, and those with a leaving mark where the transporter is STALLED, since what it is granted it holds (assumption 14). A
poll sent turns AWAITING-POLL to AWAITING-REPLY, and a reply missed turns it back. The report that answers in AWAITING-REPLY releases the
RELEASE-marked segments beyond the position, those of the track ahead first in its order, then the others without a leaving mark (assumptions 42 and
51), after which the state is NONE and the Order Table is told; in another state it releases nothing. A release of the last marked segment leaves the
state NONE. -/
def Obligations.WithdrawalIsMarkedAndConfirmed : Prop :=
  (∀ (s : State) (t k : Nat) (r : RunRec), s.run t = some r →
    let beyond := s.heldBeyond t k
    let u := s.withdraw t k
    (k < s.sentReach t → beyond ≠ [] →
      (∀ n, (u.seg n).withdrawing =
        if n ∈ beyond ∧ (s.seg n).withdrawing ≠ some .release then some (if s.releaseCause t = true then .release else .keep) else (s.seg n).withdrawing) ∧
      (∀ n, { u.seg n with withdrawing := (s.seg n).withdrawing } = s.seg n) ∧ u.run t = some { r with confirm := .awaitingPoll }) ∧
    (k < s.sentReach t → beyond = [] → u.core = s.core) ∧
    (s.sentReach t ≤ k → s.releaseCause t = true →
      let released : Nat → Prop := fun n => n ∈ beyond ∧ (s.seg n).withdrawing = none ∧ (s.givenUp t = true ∨ (s.seg n).leaving = true)
      u.core = s.core ∧ (∀ n, released n → .release n t ∈ u.agenda) ∧ (s.agenda = [] → ∀ n i, .release n i ∈ u.agenda → i = t ∧ released n)) ∧
    (s.sentReach t ≤ k → s.releaseCause t = false →
      (∀ n, (u.seg n).withdrawing =
        if n ∈ beyond ∧ s.keepCause t n = true ∧ (s.seg n).withdrawing ≠ some .release then some .keep else (s.seg n).withdrawing) ∧
      (∀ n, { u.seg n with withdrawing := (s.seg n).withdrawing } = s.seg n) ∧ u.run t = some r)) ∧
  (∀ (s : State) (t : Nat) (r : RunRec), s.run t = some r →
    (r.confirm = .awaitingPoll → s.confirmPolled t = s.setRun t (some { r with confirm := .awaitingReply })) ∧
    (r.confirm ≠ .awaitingPoll → s.confirmPolled t = s) ∧
    (r.confirm = .awaitingReply → s.confirmMissed t = s.setRun t (some { r with confirm := .awaitingPoll })) ∧
    (r.confirm ≠ .awaitingReply → s.confirmMissed t = s) ∧
    (r.confirm ≠ .awaitingReply → runTask (.confirm t) s = s) ∧
    (r.confirm = .awaitingReply →
      let marked : Nat → Prop := fun n => (s.seg n).holder = some t ∧ (s.seg n).withdrawing = some .release
      let track := (s.trackAhead t).map (·.segment)
      ∃ ahead others : List Nat, runTask (.confirm t) s = s.emit ((ahead ++ others).map (fun n => .release n t) ++ [.confirmed t]) ∧
        ahead.Sublist track ∧ (∀ n, n ∈ ahead ↔ n ∈ track ∧ marked n) ∧
        ∀ n, n ∈ others ↔ n ∉ track ∧ marked n ∧ (s.seg n).leaving = false) ∧
    (r.confirm = .awaitingReply → runTask (.confirmed t) s = (s.setRun t (some { r with confirm := .none })).emit [.complete t]) ∧
    (r.confirm ≠ .awaitingReply → runTask (.confirmed t) s = s.emit [.complete t]) ∧
    (∀ n, (s.seg n).holder = some t → (s.seg n).withdrawing ≠ none →
      (∀ m, m ≠ n → (s.seg m).holder = some t → (s.seg m).withdrawing = none) →
      (runTask (.release n t) s).run t = some { r with confirm := .none }))

/-- Where a message handed to the out-queue goes: a THROW, COUPLE or UNCOUPLE takes the place of an untransmitted entry for its object; a PROVE is not
queued beside one; a message without such an entry is appended at the tail. -/
def Obligations.OutQueueMergesByObject : Prop :=
  ∀ (q : List OutMessage) (m : OutMessage),
    ((∀ x ∈ q, outObject x ≠ outObject m) → placeOut q m = q ++ [m]) ∧
    ((∃ x ∈ q, outObject x = outObject m) →
      ((∃ j, m = .prove j) → placeOut q m = q) ∧
      ((∀ j, m ≠ .prove j) → (placeOut q m).length = q.length ∧
        ∀ (i : Nat) (x : OutMessage), q[i]? = some x → (placeOut q m)[i]? = some (if outObject x = outObject m then m else x)))

/-! ### Pads, telescopes and loads -/

/-- `declare-pad` of MAINTENANCE in the CLOSED layout: where the seven tests pass the pad is declared in its initial state, an ANCHORED one with its
telescope ON-PAD there, and the answer is DONE with the number of declared pads; the first test that fails is named and nothing changes. -/
def Obligations.DeclarePadTakesTheRecord : Prop :=
  ∀ (h : Header) (p access guard : Nat) (x : PadTarget) (s : State), s.Ready → h.originator = .maintenance → s.layout.closed = true →
    (p ≤ 191 → guard ≤ 2 → (∃ d, s.decl access = some d ∧ d.kind ≠ .junction) →
      (s.transfer.pads.filter fun e => decide (e.2.access = access)).length < 3 → (∀ y, x = .anchored y → y ≤ 63 ∧ s.placement y = .unplaced) →
      (s.pad p).state = .undeclared →
      ∃ t e, exec (.declarePad h p access guard x) s = .next t ∧
        e = s.putPad p { PadRec.undeclared with access := access, guard := guard } x ∧
        (t.pad p).access = access ∧ (t.pad p).guard = guard ∧
        (x = .vacant → (t.pad p).state = .vacant) ∧ (x = .barred → (t.pad p).state = .barred) ∧
        (∀ y, x = .anchored y → (t.pad p).state = .anchored ∧ (t.pad p).occupant = some y ∧ t.placement y = .onPad p) ∧
        Calm (e.answered h (.declarePad p access guard x) .done (.padCount e.padCount)) t) ∧
    (∀ k, s.Settled → firstFailing (s.declarePadTests p access guard x) = some k →
      exec (.declarePad h p access guard x) s = .next (State.decideAttention
        (s.answered h (.declarePad p access guard x) (if k ≤ 5 then .refusedRange else .refusedState) (.failedTest k))))

/-- `bar-pad` makes a VACANT pad with no claiming order BARRED and `unbar-pad` a BARRED pad VACANT, each answered DONE; for any other pad they are
answered REFUSED-STATE and for a number above 191 REFUSED-RANGE. A SCHEDULER, or an originator whom the object check refuses the pad, is answered
DENIED. A BARRED pad fails the finish test of an order for both finishes. -/
def Obligations.BarAndUnbarPad : Prop :=
  ∀ (h : Header) (p : Nat) (s : State), s.Ready →
    (h.originator ≠ .scheduler → s.allows h.originator .pad p = true → p ≤ 191 →
      ((s.pad p).state = .vacant → (s.pad p).claim = none → ∃ t, exec (.barPad h p) s = .next t ∧ t.pad p = { s.pad p with state := .barred } ∧
        Calm ((s.setPad p { s.pad p with state := .barred }).answered h (.barPad p) .done .empty) t) ∧
      ((s.pad p).state = .barred → (s.pad p).claim = none → ∃ t, exec (.unbarPad h p) s = .next t ∧ t.pad p = { s.pad p with state := .vacant } ∧
        Calm ((s.setPad p { s.pad p with state := .vacant }).answered h (.unbarPad p) .done .empty) t) ∧
      (s.Settled → (s.pad p).state ≠ .vacant ∨ (s.pad p).claim ≠ none →
        exec (.barPad h p) s = .next (s.answered h (.barPad p) .refusedState .empty).decideAttention) ∧
      (s.Settled → (s.pad p).state ≠ .barred →
        exec (.unbarPad h p) s = .next (s.answered h (.unbarPad p) .refusedState .empty).decideAttention)) ∧
    (s.Settled → h.originator ≠ .scheduler → s.allows h.originator .pad p = true → 191 < p →
      exec (.barPad h p) s = .next (s.answered h (.barPad p) .refusedRange .empty).decideAttention ∧
      exec (.unbarPad h p) s = .next (s.answered h (.unbarPad p) .refusedRange .empty).decideAttention) ∧
    (s.Settled → h.originator = .scheduler →
      exec (.barPad h p) s = .next (s.answered h (.barPad p) .denied .deniedClass).decideAttention ∧
      exec (.unbarPad h p) s = .next (s.answered h (.unbarPad p) .denied .deniedClass).decideAttention) ∧
    (s.Settled → h.originator ≠ .scheduler → s.allows h.originator .pad p = false →
      exec (.barPad h p) s = .next (s.answered h (.barPad p) .denied (.deniedObject .pad p)).decideAttention ∧
      exec (.unbarPad h p) s = .next (s.answered h (.unbarPad p) .denied (.deniedObject .pad p)).decideAttention) ∧
    ((s.pad p).state = .barred → ∀ kind route, s.finishRefusal kind (.lift p) route ≠ none ∧ s.finishRefusal kind (.setDown p) route ≠ none)

/-- `settle-pad` of MAINTENANCE: an UNSETTLED pad takes the target state, its last occupant cleared; for ANCHORED an UNPLACED telescope becomes the
occupant and ON-PAD there; DONE. A number out of range is answered REFUSED-RANGE, a pad not UNSETTLED or a telescope placed elsewhere REFUSED-STATE;
another originator DENIED. -/
def Obligations.SettlePadTakesTheTarget : Prop :=
  ∀ (h : Header) (p : Nat) (x : PadTarget) (s : State), s.Ready →
    let ranges := p ≤ 191 ∧ ∀ y, x = .anchored y → y ≤ 63
    (h.originator = .maintenance → ranges → (s.pad p).state = .unsettled → (s.pad p).claim = none → (∀ y, x = .anchored y → s.placement y = .unplaced) →
      ∃ t, exec (.settlePad h p x) s = .next t ∧
        (x = .vacant → t.pad p = { s.pad p with state := .vacant, lastOccupant := none }) ∧
        (x = .barred → t.pad p = { s.pad p with state := .barred, lastOccupant := none }) ∧
        (∀ y, x = .anchored y → t.pad p = { s.pad p with state := .anchored, occupant := some y, lastOccupant := none } ∧ t.placement y = .onPad p) ∧
        (∀ y, x ≠ .anchored y → t.placement y = s.placement y) ∧
        Calm ((s.putPad p (s.pad p) x).answered h (.settlePad p x) .done .empty) t) ∧
    (s.Settled → h.originator = .maintenance → ¬ranges →
      exec (.settlePad h p x) s = .next (s.answered h (.settlePad p x) .refusedRange .empty).decideAttention) ∧
    (s.Settled → h.originator = .maintenance → ranges → (s.pad p).state ≠ .unsettled ∨ (∃ y, x = .anchored y ∧ s.placement y ≠ .unplaced) →
      exec (.settlePad h p x) s = .next (s.answered h (.settlePad p x) .refusedState .empty).decideAttention) ∧
    (s.Settled → h.originator ≠ .maintenance →
      exec (.settlePad h p x) s = .next (s.answered h (.settlePad p x) .denied .deniedClass).decideAttention)

/-- `settle-load` of MAINTENANCE: the UNVERIFIED load of an enrolled transporter becomes the target, and an UNPLACED telescope becomes ON-TRANSPORTER
there; DONE. A number out of range is answered REFUSED-RANGE, a load not UNVERIFIED or a telescope placed elsewhere REFUSED-STATE. -/
def Obligations.SettleLoadTakesTheTarget : Prop :=
  ∀ (h : Header) (i : Nat) (x : LoadTarget) (s : State), s.Ready → h.originator = .maintenance →
    let ranges := i ≤ 3 ∧ ∀ y, x = .telescope y → y ≤ 63
    (ranges → s.enrolled i = true → s.load i = some .unverified → (∀ y, x = .telescope y → s.placement y = .unplaced) →
      ∃ t, exec (.settleLoad h i x) s = .next t ∧
        (x = .none → t.load i = some .none ∧ t.transfer.telescopes = s.transfer.telescopes) ∧
        (∀ y, x = .telescope y → t.load i = some (.telescope y) ∧ t.placement y = .onTransporter i) ∧
        (∀ m, m ≠ i → t.load m = s.load m) ∧ Calm ((s.takeUpLoad i x).answered h (.settleLoad i x) .done .empty) t) ∧
    (s.Settled → ¬ranges → exec (.settleLoad h i x) s = .next (s.answered h (.settleLoad i x) .refusedRange .empty).decideAttention) ∧
    (s.Settled → ranges →
      s.enrolled i = false ∨ s.load i ≠ some .unverified ∨ (∃ y, x = .telescope y ∧ s.placement y ≠ .unplaced) →
      exec (.settleLoad h i x) s = .next (s.answered h (.settleLoad i x) .refusedState .empty).decideAttention)

/-- `recouple-pad` of a SEATED pad in the coupling set, or with room in it: the coupling becomes QUEUED, its timer stopped, with COUPLE handed out, or
SENT where that message or an earlier one for the pad is transmitted at once; DONE. While the transmitter is busy COUPLE stands in the out-queue, and
nothing else changes. A pad not SEATED is answered REFUSED-STATE and a number above 191 REFUSED-RANGE. -/
def Obligations.RecouplePadHandsOutACouple : Prop :=
  ∀ (h : Header) (p : Nat) (s : State), s.Ready → h.originator ≠ .scheduler → s.allows h.originator .pad p = true →
    (p ≤ 191 → (s.pad p).state = .seated → (s.pad p).claim = none → p ∈ s.couplingSet ∨ s.couplingSet.length < 8 →
      ∃ t, exec (.recouplePad h p) s = .next t ∧
        (t.pad p = { s.pad p with coupling := .queued, couplingTimer := .stopped } ∨ ∃ x, t.pad p = { s.pad p with coupling := .sent, couplingTimer := x }) ∧
        Calm (((s.setPad p { s.pad p with coupling := .queued, couplingTimer := .stopped }).handOut (.couple p)).answered h (.recouplePad p) .done
          .empty) t) ∧
    (∀ m, p ≤ 191 → (s.pad p).state = .seated → p ∈ s.couplingSet ∨ s.couplingSet.length < 8 → s.Settled → s.canonical →
      s.wayside.transmitter = .sending m →
        exec (.recouplePad h p) s = .next (State.decideAttention (State.answered
          ((s.setPad p { s.pad p with coupling := .queued, couplingTimer := .stopped }).setOutQueue (placeOut s.wayside.outQueue (.couple p)))
          h (.recouplePad p) .done .empty))) ∧
    (s.Settled → p ≤ 191 → (s.pad p).state ≠ .seated ∨ (p ∉ s.couplingSet ∧ 8 ≤ s.couplingSet.length) →
      exec (.recouplePad h p) s = .next (s.answered h (.recouplePad p) .refusedState .empty).decideAttention) ∧
    (s.Settled → 191 < p → exec (.recouplePad h p) s = .next (s.answered h (.recouplePad p) .refusedRange .empty).decideAttention)

/-- A PAD-EVENT at a pad without a transfer: an event that R125's table calls a fault raises PAD-FAULT and changes nothing else but the in-queue, and
one that it calls absorbed nothing but the in-queue; COUPLED makes a SEATED pad ANCHORED; FAULT at a SEATED pad with a coupling raises PAD-FAULT and
gives the coupling up: it is none, its timer stopped and a COUPLE still waiting taken back, after which the blocks do their work; where they find
nothing to do and no order is ARRIVED, that is all. -/
def Obligations.PadEventOutsideATransfer : Prop :=
  ∀ (s : State) (p : Nat) (v : PadEventValue) (rest : List InMessage), s.wayside.inQueue = .padEvent p v :: rest → s.transferAt p = none →
    (s.Settled →
      (((s.pad p).state = .vacant ∨ (s.pad p).state = .inbound) ∧ (v = .coupled ∨ v = .loadSensed ∨ v = .fault)) ∨
      ((s.pad p).state = .anchored ∧ (v = .uncoupled ∨ v = .loadClear ∨ v = .fault)) ∨
      ((s.pad p).state = .seated ∧ (v = .loadClear ∨ (v = .fault ∧ (s.pad p).coupling = .none))) ∨
      ((s.pad p).state = .barred ∧ v = .fault) ∨ (s.pad p).state = .unsettled →
        exec .padEvent s = .next ((s.setInQueue rest).raise .padFault p).decideAttention) ∧
    (s.Settled →
      (((s.pad p).state = .vacant ∨ (s.pad p).state = .inbound) ∧ (v = .uncoupled ∨ v = .loadClear)) ∨
      ((s.pad p).state = .anchored ∧ (v = .coupled ∨ v = .loadSensed)) ∨
      ((s.pad p).state = .seated ∧ (v = .uncoupled ∨ v = .loadSensed)) ∨ ((s.pad p).state = .barred ∧ v ≠ .fault) →
        exec .padEvent s = .next (s.setInQueue rest).decideAttention) ∧
    (s.agenda = [] → (s.pad p).state = .seated → (s.pad p).claim = none → v = .coupled →
      ∃ t, exec .padEvent s = .next t ∧ t.pad p = { s.pad p with state := .anchored, coupling := .none, couplingTimer := .stopped } ∧
        t.transfer.loads = s.transfer.loads ∧ t.transfer.telescopes = s.transfer.telescopes ∧ t.wayside.inQueue = rest ∧
        t.guards.hold = s.guards.hold ∧ Frame s t) ∧
    (s.agenda = [] → (s.pad p).state = .seated → (s.pad p).claim = none → v = .fault → (s.pad p).coupling ≠ .none →
      ∃ t, exec .padEvent s = .next t ∧ (t.pad p).state = .seated ∧ (t.pad p).occupant = (s.pad p).occupant ∧ ⟨.padFault, p⟩ ∈ t.port.notices ∧
        t.transfer.loads = s.transfer.loads ∧ t.transfer.telescopes = s.transfer.telescopes ∧ t.wayside.inQueue = rest ∧
        t.guards.hold = s.guards.hold ∧ Frame s t) ∧
    (let given := (((s.setInQueue rest).raise .padFault p).setPad p { s.pad p with coupling := .none, couplingTimer := .stopped }).takeBack
        fun m => decide (m = .couple p)
     (s.pad p).state = .seated → v = .fault → (s.pad p).coupling ≠ .none →
      exec .padEvent s = .next (closeEvent s.pending (workOff given)) ∧
      (s.Settled → s.canonical → (∀ k o, s.order k = some o → o.state ≠ .arrived) → exec .padEvent s = .next given.decideAttention))

/-- A PAD-EVENT during a transfer. UNCOUPLED in phase UNCOUPLING takes the transfer to LIFTING, and COUPLED or LOAD-SENSED there marks the station
heard; an event that repeats what is known changes nothing; the station's first confirmation is put in and waits for the transporter's; and a fault or
a breach raises PAD-FAULT, leaves the pad UNSETTLED with the telescope as its last occupant and the telescope UNPLACED, the load UNVERIFIED where the
transporter had been heard or carried the telescope and else as it was, and the order FAILED with cause PAD-FAULT and ORDER-FAILED raised (the
references naming live orders, O4, and the order being its transporter's active one). A transfer's second confirmation completes it: at the station's
LOAD-CLEAR a LIFT leaves the pad VACANT and the telescope on the transporter; at the station's LOAD-SENSED a SET-DOWN leaves the pad SEATED with the
telescope, and the transporter with none. The order is ENDED with outcome DONE and ORDER-ENDED raised (the references naming live orders, O4). -/
def Obligations.PadEventsAndConfirmationsOfATransfer : Prop :=
  (∀ (s : State) (p : Nat) (v : PadEventValue) (rest : List InMessage) (x : TransferRec), s.wayside.inQueue = .padEvent p v :: rest →
    s.transferAt p = some x →
    (s.Settled → x.phase = .uncoupling → v = .uncoupled →
      exec .padEvent s = .next (State.decideAttention
        (((s.setInQueue rest).setTransfer p (some { x with stationHeard := true, phase := .lifting })).takeBack fun m => decide (m = .uncouple p)))) ∧
    (s.Settled → x.phase = .uncoupling → v = .coupled ∨ v = .loadSensed →
      exec .padEvent s = .next (State.decideAttention ((s.setInQueue rest).setTransfer p (some { x with stationHeard := true })))) ∧
    (s.Settled → (x.phase ≠ .uncoupling ∧ v = .uncoupled) ∨ (x.phase = .lifting ∧ v = .loadSensed ∧ (s.pad p).confStation = false) ∨
        (x.phase = .setting ∧ v = .loadClear ∧ (s.pad p).confStation = false) →
      exec .padEvent s = .next (s.setInQueue rest).decideAttention) ∧
    (s.agenda = [] → (s.pad p).confTransporter = false → (x.phase = .lifting ∧ v = .loadClear) ∨ (x.phase = .setting ∧ v = .loadSensed) →
      ∃ t, exec .padEvent s = .next t ∧ Calm ((s.setInQueue rest).setPad p { s.pad p with confStation := true }) t) ∧
    (s.Settled → s.canonical → (s.pad p).confTransporter = false → (x.phase = .lifting ∧ v = .loadClear) ∨ (x.phase = .setting ∧ v = .loadSensed) →
      exec .padEvent s = .next ((s.setInQueue rest).setPad p { s.pad p with confStation := true }).decideAttention) ∧
    (s.agenda = [] →
      (x.phase = .uncoupling ∧ (v = .loadClear ∨ v = .fault)) ∨ (x.phase ≠ .uncoupling ∧ (v = .coupled ∨ v = .fault)) ∨
        (x.phase = .lifting ∧ v = .loadSensed ∧ (s.pad p).confStation = true) ∨
        (x.phase = .setting ∧ v = .loadClear ∧ (s.pad p).confStation = true) →
      ∃ t, exec .padEvent s = .next t ∧ (t.pad p).state = .unsettled ∧ (t.pad p).lastOccupant = some x.telescope ∧ (t.pad p).occupant = none ∧
        (t.pad p).claim = none ∧ t.placement x.telescope = .unplaced ∧ ⟨.padFault, p⟩ ∈ t.port.notices ∧
        (∀ o, s.order x.order = some o → ⟨.orderFailed, x.order⟩ ∈ t.port.notices) ∧ t.wayside.inQueue = rest ∧ t.guards.hold = s.guards.hold ∧
        Frame s t ∧
        t.load x.transporter
          = (if x.transporterHeard = true ∨ s.load x.transporter = some (.telescope x.telescope) then some .unverified else s.load x.transporter) ∧
        (∀ i, i ≠ x.transporter → t.load i = s.load i) ∧
        (∀ o, s.refsRight → s.order x.order = some o → o.state = .transfer → (s.orderRefs o.transporter).active = some x.order →
          s.startingDivert o.transporter = none →
          ∃ o', t.order x.order = some o' ∧ o' = { o with state := .failed, failure := some .padFault, claim := o'.claim, head := o'.head }))) ∧
  (∀ (s : State) (p : Nat) (rest : List InMessage) (x : TransferRec), s.agenda = [] → s.transferAt p = some x → (s.pad p).confTransporter = true →
    (∀ v, s.wayside.inQueue = .padEvent p v :: rest → x.kind = .lift → x.phase = .lifting → v = .loadClear →
      ∃ t, exec .padEvent s = .next t ∧ (t.pad p).state = .vacant ∧ (t.pad p).occupant = none ∧ (t.pad p).claim = none ∧
        (t.pad p).confTransporter = false ∧ (t.pad p).confStation = false ∧ t.placement x.telescope = .onTransporter x.transporter ∧
        t.load x.transporter = some (.telescope x.telescope) ∧ t.wayside.inQueue = rest ∧ Frame s t ∧
        (∀ o, s.order x.order = some o → ⟨.orderEnded, x.order⟩ ∈ t.port.notices ∧
          (s.refsRight → ∃ o', t.order x.order = some o' ∧
            o' = { o with head := o'.head, claim := o'.claim, state := .ended, outcome := some .done, failure := none }))) ∧
    (∀ v, s.wayside.inQueue = .padEvent p v :: rest → x.kind = .setDown → x.phase = .setting → v = .loadSensed →
      ∃ t, exec .padEvent s = .next t ∧ (t.pad p).state = .seated ∧ (t.pad p).occupant = some x.telescope ∧ (t.pad p).expected = none ∧
        (t.pad p).claim = none ∧ (t.pad p).coupling ≠ .none ∧ t.placement x.telescope = .onPad p ∧ t.load x.transporter = some .none ∧
        t.wayside.inQueue = rest ∧ Frame s t ∧
        (∀ o, s.order x.order = some o → ⟨.orderEnded, x.order⟩ ∈ t.port.notices ∧
          (s.refsRight → ∃ o', t.order x.order = some o' ∧
            o' = { o with head := o'.head, claim := o'.claim, state := .ended, outcome := some .done, failure := none }))))

/-- The load event of a report. During a transfer of its transporter: LOADED of the transfer's telescope in phase LIFTING, or SET in phase SETTING,
from a transporter at rest (by the at-rest value of R138, assumption 22) at the pad's access segment, puts the transporter's confirmation in where the
station's is out, and completes the transfer where it is in: a LIFT leaves the pad VACANT and the transporter with the telescope, a SET-DOWN the pad
SEATED with the telescope and the transporter with none, and the order ends DONE with ORDER-ENDED. Any other load event is a mismatch or a breach: the
pad is UNSETTLED with the telescope as its last occupant, the telescope UNPLACED, the load UNVERIFIED, and the order FAILED with ORDER-FAILED, all
else of it as it was, so that a head left waiting waits on, which is the model's choice (assumption 45). Without a transfer an event that agrees with
the load changes nothing; any other leaves the load UNVERIFIED and a telescope carried UNPLACED, no order changed, and an INBOUND pad that a live
order of the transporter claims UNSETTLED with PAD-FAULT. -/
def Obligations.LoadEventsConfirmFailOrAreStray : Prop :=
  ∀ (s : State) (r : Report),
    let u := runTask (.loadEvent r) s
    let i := r.transporter
    (r.load = .none → u = s) ∧
    (∀ p x, r.load ≠ .none → s.transferOf i = some (p, x) →
      let due := r.atRest = true ∧ r.position = (s.pad p).access ∧
        ((x.phase = .lifting ∧ r.load = .loaded x.telescope) ∨ (x.phase = .setting ∧ r.load = .set))
      (due → (s.pad p).confStation = false →
        u = (s.setTransfer p (some { x with transporterHeard := true })).setPad p { s.pad p with confTransporter := true }) ∧
      (due → (s.pad p).confStation = true → x.kind = .lift →
        u.transferAt p = none ∧ (u.pad p).state = .vacant ∧ (u.pad p).occupant = none ∧ (u.pad p).claim = none ∧
        (u.pad p).confTransporter = false ∧ (u.pad p).confStation = false ∧ u.placement x.telescope = .onTransporter x.transporter ∧
        u.load x.transporter = some (.telescope x.telescope) ∧
        ∀ o, s.order x.order = some o →
          u.order x.order = some { o with head := .none, state := .ended, outcome := some .done, failure := none } ∧
            ⟨.orderEnded, x.order⟩ ∈ u.port.notices) ∧
      (due → (s.pad p).confStation = true → x.kind = .setDown →
        u.transferAt p = none ∧ (u.pad p).state = .seated ∧ (u.pad p).occupant = some x.telescope ∧ (u.pad p).expected = none ∧
        (u.pad p).claim = none ∧ (u.pad p).confTransporter = false ∧ (u.pad p).confStation = false ∧ (u.pad p).coupling ≠ .none ∧
        u.placement x.telescope = .onPad p ∧ u.load x.transporter = some .none ∧
        ∀ o, s.order x.order = some o →
          u.order x.order = some { o with head := .none, state := .ended, outcome := some .done, failure := none } ∧
            ⟨.orderEnded, x.order⟩ ∈ u.port.notices) ∧
      (¬due →
        u.transferAt p = none ∧ (u.pad p).state = .unsettled ∧ (u.pad p).lastOccupant = some x.telescope ∧ (u.pad p).occupant = none ∧
        (u.pad p).claim = none ∧ (∀ q, q ≠ p → u.pad q = s.pad q) ∧ u.placement x.telescope = .unplaced ∧
        u.load x.transporter = some .unverified ∧ (∀ m, m ≠ x.order → u.order m = s.order m) ∧
        ∀ o, s.order x.order = some o →
          u.order x.order = some { o with state := .failed, failure := some .identity } ∧ ⟨.orderFailed, x.order⟩ ∈ u.port.notices)) ∧
    (r.load ≠ .none → s.transferOf i = none →
      let agrees := (∃ y, r.load = .loaded y ∧ s.load i = some (.telescope y)) ∨ (r.load = .set ∧ s.load i = some .none)
      let claims : Nat → Prop := fun q => (s.pad q).state = .inbound ∧
        ∃ k o, (s.pad q).claim = some k ∧ s.order k = some o ∧ o.transporter = i ∧ o.state ≠ .ended
      (agrees → u = s) ∧
      (¬agrees →
        u.load i = some .unverified ∧ (∀ m, m ≠ i → u.load m = s.load m) ∧ u.orders = s.orders ∧ u.transfer.transfers = s.transfer.transfers ∧
        (∀ y, u.placement y = if s.load i = some (.telescope y) then .unplaced else s.placement y) ∧
        ((∀ q, ¬claims q) → s.canonical → (∀ q, u.pad q = s.pad q) ∧ u.port = s.port) ∧
        (∀ q, claims q → (∀ q', claims q' → q' = q) → s.canonical →
          (u.pad q).state = .unsettled ∧ (u.pad q).lastOccupant = (s.pad q).expected ∧ (u.pad q).expected = none ∧ (u.pad q).claim = none ∧
          (∀ q', q' ≠ q → u.pad q' = s.pad q') ∧ ⟨.padFault, q⟩ ∈ u.port.notices)))

/-- The transfer timer expires: with nothing heard of the transfer a LIFT's pad is ANCHORED again, without the claim, a SET-DOWN's stays INBOUND as it
was, and the telescopes and loads stand; else the pad is UNSETTLED with the telescope as last occupant, the telescope UNPLACED, and the load
UNVERIFIED where the transporter had been heard or carried the telescope. The order is FAILED with cause TIMEOUT and ORDER-FAILED raised. (Where a
state of an order or an INBOUND pad is told, the references name live orders, O4, and the order is its transporter's active one.) A suspended timer
does not expire: that the command then changes nothing is the model's choice (assumption 6). The coupling timer of a SEATED pad expires: PAD-FAULT is
raised and the coupling is given up, the pad SEATED with its occupant; without a running timer nothing happens, which is the model's choice
(assumption 6). Here no order waits for the room. -/
def Obligations.TransferAndCouplingTimersExpire : Prop :=
  (∀ (s : State) (p : Nat) (x : TransferRec), s.transferAt p = some x →
    let touched := x.stationHeard || x.transporterHeard || (s.pad p).confTransporter || (s.pad p).confStation
    (∀ time, s.agenda = [] → x.timer = .running time →
      ∃ t, exec (.transferTimerExpiry p) s = .next t ∧ Frame s t ∧ t.wayside.inQueue = s.wayside.inQueue ∧ t.guards.hold = s.guards.hold ∧
        (touched = false → x.kind = .lift → (t.pad p).state = .anchored ∧ (t.pad p).occupant = some x.telescope ∧ (t.pad p).claim = none ∧
          t.transfer.telescopes = s.transfer.telescopes ∧ t.transfer.loads = s.transfer.loads) ∧
        (touched = false → x.kind = .setDown → t.transfer.telescopes = s.transfer.telescopes ∧ t.transfer.loads = s.transfer.loads) ∧
        (touched = true → (t.pad p).state = .unsettled ∧ (t.pad p).lastOccupant = some x.telescope ∧ (t.pad p).occupant = none ∧
          (t.pad p).claim = none ∧ t.placement x.telescope = .unplaced ∧
          t.load x.transporter
            = (if x.transporterHeard = true ∨ s.load x.transporter = some (.telescope x.telescope) then some .unverified else s.load x.transporter)) ∧
        (∀ i, i ≠ x.transporter → t.load i = s.load i) ∧
        (∀ o, s.order x.order = some o → ⟨.orderFailed, x.order⟩ ∈ t.port.notices) ∧
        (∀ o, s.refsRight → s.order x.order = some o → o.state = .transfer → (s.orderRefs o.transporter).active = some x.order →
          s.startingDivert o.transporter = none →
          (∃ o', t.order x.order = some o' ∧ o' = { o with state := .failed, failure := some .timeout, claim := o'.claim, head := o'.head }) ∧
          (touched = false → x.kind = .setDown → (s.pad p).state = .inbound → (s.pad p).claim = some x.order → t.pad p = s.pad p))) ∧
    (∀ time, s.Settled → x.timer = .suspended time → exec (.transferTimerExpiry p) s = .next s.decideAttention)) ∧
  (∀ (s : State) (p : Nat), s.Settled → s.canonical →
    (∀ time, (s.pad p).couplingTimer = .running time → (s.pad p).state = .seated → (∀ k o, s.order k = some o → o.state ≠ .arrived) →
      ∃ t, exec (.couplingTimerExpiry p) s = .next t ∧ t.pad p = { s.pad p with coupling := .none, couplingTimer := .stopped } ∧
        ⟨.padFault, p⟩ ∈ t.port.notices ∧ (∀ q, q ≠ p → t.pad q = s.pad q) ∧ (∀ m ∈ t.wayside.outQueue, m ≠ .couple p) ∧
        t.transfer.telescopes = s.transfer.telescopes ∧ t.transfer.loads = s.transfer.loads ∧ t.core = s.core ∧ t.orders = s.orders ∧
        t.polls = s.polls ∧ t.guards = s.guards ∧ t.junctions = s.junctions ∧ Frame s t) ∧
    ((s.pad p).couplingTimer = .stopped → exec (.couplingTimerExpiry p) s = .next s.decideAttention))

/-! ### Transporters and polls -/

/-- `enroll-transporter` of MAINTENANCE in the CLOSED layout: where the six tests pass the transporter is enrolled at the segment, at rest, NORMAL,
with no miss and the load given, and holds the segment (having, as one not enrolled, no active order); DONE. The first test that fails is named and
nothing changes. `disenroll-transporter` of MAINTENANCE, for a LOST transporter or one whose last report was at rest: its record, its limit and its
load are gone, a telescope it carried is UNPLACED (its transfers being of that telescope), and the answer is DONE; every live order of it is ENDED as
CANCELLED with ORDER-ENDED raised, its references name none, it stands in no claimant queue, and where the event's work has come to its end
(assumption 2) no segment is held by it (the references naming live orders in the slots 0 to 7, O4). For one not enrolled, or moving, it is answered
REFUSED-STATE; above 3 REFUSED-RANGE. -/
def Obligations.EnrollAndDisenroll : Prop :=
  (∀ (h : Header) (i n : Nat) (x : LoadTarget) (s : State), s.Ready → h.originator = .maintenance → s.layout.closed = true →
    (i ≤ 3 → n ≤ 127 → (∀ y, x = .telescope y → y ≤ 63 ∧ s.placement y = .unplaced) → (s.decl n).isSome = true → s.train i = none →
      (s.seg n).holder = none → s.fenceCount n = 0 →
      let e := ((((s.setTrain i (some { position := n, atRest := true, inMotion := false, condition := .normal, missCount := 0, progress := .stopped
                                        grace := s.port.params.grace, lastSent := n, quietStand := false })).setRun i
        (some { limit := n, ceiling := .creep, confirm := .none })).grant i n).takeUpLoad i x).answered h (.enrollTransporter i n x) .done .empty
      ∃ t r, exec (.enrollTransporter h i n x) s = .next t ∧ t.train i = some r ∧ r.position = n ∧ r.atRest = true ∧ r.inMotion = false ∧
        r.condition = .normal ∧ r.missCount = 0 ∧ r.quietStand = false ∧ (t.run i).isSome = true ∧
        t.load i = some (match x with | .none => .none | .telescope y => .telescope y) ∧
        (∀ y, x = .telescope y → t.placement y = .onTransporter i) ∧
        t.port.answers = s.port.answers ++ [⟨h.tag, codeOf (.enrollTransporter i n x), .done, .empty⟩] ∧
        ((s.orderRefs i).active = none → (t.seg n).holder = some i) ∧
        (e.seg n).holder = some i ∧ (∀ m, m ≠ n → e.seg m = s.seg m) ∧ (∀ m, m ≠ i → e.train m = s.train m) ∧ e.orders = s.orders ∧
        (∀ p, padShape (e.pad p) = padShape (s.pad p)) ∧ Calm e t) ∧
    (∀ k, s.Settled → firstFailing (s.enrollTests i n x) = some k →
      exec (.enrollTransporter h i n x) s = .next (State.decideAttention
        (s.answered h (.enrollTransporter i n x) (if k ≤ 2 then .refusedRange else .refusedState) (.failedTest k))))) ∧
  (∀ (h : Header) (i : Nat) (s : State), s.Ready → h.originator = .maintenance →
    (∀ r, i ≤ 3 → s.train i = some r → r.condition = .lost ∨ r.atRest = true →
      ∃ t, exec (.disenrollTransporter h i) s = .next t ∧ t.train i = none ∧ t.run i = none ∧ t.load i = none ∧
        (∀ y, s.canonical → s.load i = some (.telescope y) → (∀ p x, s.transferAt p = some x → x.transporter = i → x.telescope = y) →
          t.placement y = .unplaced) ∧
        (∀ m, m ≠ i → (t.train m).map trainShape = (s.train m).map trainShape ∧ (t.train m).map (·.condition) = (s.train m).map (·.condition)) ∧
        t.port.answers = s.port.answers ++ [⟨h.tag, codeOf (.disenrollTransporter i), .done, .empty⟩] ∧ t.layout = s.layout ∧
        t.guards.hold = s.guards.hold ∧ t.guards.fences = s.guards.fences ∧ (∀ n, (t.seg n).sensor = (s.seg n).sensor) ∧
        (∀ k, (t.order k).map shape = (s.order k).map shape) ∧
        (s.refsRight → s.slotsRight →
          (∀ k o, s.order k = some o → o.transporter = i → o.live = true →
            (∃ o', t.order k = some o' ∧ o'.state = .ended ∧ o'.outcome = some .cancelled) ∧ ⟨.orderEnded, k⟩ ∈ t.port.notices) ∧
          t.orderRefs i = { active := none, stack := [], pendingDivert := none } ∧ (∀ n, i ∉ (t.seg n).queue) ∧
          (t.agenda = [] → ∀ n, (t.seg n).holder ≠ some i))) ∧
    (s.Settled → i ≤ 3 → s.train i = none ∨ (∃ r, s.train i = some r ∧ r.condition ≠ .lost ∧ r.atRest = false) →
      exec (.disenrollTransporter h i) s = .next (s.answered h (.disenrollTransporter i) .refusedState .empty).decideAttention) ∧
    (s.Settled → 3 < i →
      exec (.disenrollTransporter h i) s = .next (s.answered h (.disenrollTransporter i) .refusedRange .empty).decideAttention))

/-- `clear-astray` of MAINTENANCE for an ASTRAY transporter, with a segment that it holds or that no one holds and no fence covers: it is NORMAL there
with no miss and holds that segment; every live order of it is ENDED as CANCELLED with ORDER-ENDED raised, its references name none, it stands in no
claimant queue, and where the event's work has come to its end (assumption 2) it holds no other segment (the references naming live orders in the
slots 0 to 7, O4); DONE. A transporter not ASTRAY, or a segment not to be had, is answered REFUSED-STATE. `proceed` returns a STALLED transporter to
NORMAL with its position kept; DONE. One not enrolled or not STALLED is answered REFUSED-STATE, and a number above 3 REFUSED-RANGE. -/
def Obligations.ClearAstrayAndProceedReturnToNormal : Prop :=
  (∀ (h : Header) (i n : Nat) (s : State), s.Ready → h.originator = .maintenance →
    (∀ r, i ≤ 3 → n ≤ 127 → (s.decl n).isSome = true → s.train i = some r → r.condition = .astray →
      (s.seg n).holder = some i ∨ ((s.seg n).holder = none ∧ s.fenceCount n = 0) →
      ∃ t r', exec (.clearAstray h i n) s = .next t ∧ t.train i = some r' ∧ r'.position = n ∧ r'.condition = .normal ∧ r'.missCount = 0 ∧
        r'.atRest = r.atRest ∧ (s.refsRight → s.slotsRight → (t.seg n).holder = some i) ∧
        (s.refsRight → s.slotsRight →
          (∀ k o, s.order k = some o → o.transporter = i → o.live = true →
            (∃ o', t.order k = some o' ∧ o'.state = .ended ∧ o'.outcome = some .cancelled) ∧ ⟨.orderEnded, k⟩ ∈ t.port.notices) ∧
          t.orderRefs i = { active := none, stack := [], pendingDivert := none } ∧ (∀ m, i ∉ (t.seg m).queue) ∧
          (t.agenda = [] → ∀ m, m ≠ n → (t.seg m).holder ≠ some i)) ∧
        (∀ m, m ≠ i → (t.train m).map trainShape = (s.train m).map trainShape ∧ (t.train m).map (·.condition) = (s.train m).map (·.condition)) ∧
        t.port.answers = s.port.answers ++ [⟨h.tag, codeOf (.clearAstray i n), .done, .empty⟩] ∧
        Frame { s with port := { s.port with answers := t.port.answers } } t) ∧
    (s.Settled → i ≤ 3 → n ≤ 127 → (s.decl n).isSome = true →
      s.hasCondition i .astray = false ∨ ((s.seg n).holder ≠ some i ∧ ((s.seg n).holder ≠ none ∨ s.fenceCount n ≠ 0)) →
      exec (.clearAstray h i n) s = .next (s.answered h (.clearAstray i n) .refusedState .empty).decideAttention) ∧
    (s.Settled → 3 < i ∨ 127 < n ∨ s.decl n = none →
      exec (.clearAstray h i n) s = .next (s.answered h (.clearAstray i n) .refusedRange .empty).decideAttention)) ∧
  (∀ (h : Header) (i : Nat) (s : State), s.Ready → h.originator ≠ .scheduler →
    (∀ r, i ≤ 3 → s.train i = some r → r.condition = .stalled →
      ∃ t r', exec (.proceed h i) s = .next t ∧ t.train i = some r' ∧ r'.condition = .normal ∧ trainShape r' = trainShape r ∧
        (∀ m, m ≠ i → (t.train m).map (·.condition) = (s.train m).map (·.condition)) ∧ (∀ m, m ≠ i → (t.train m).map trainShape = (s.train m).map trainShape) ∧
        t.port.answers = s.port.answers ++ [⟨h.tag, codeOf (.proceed i), .done, .empty⟩] ∧
        t.transfer.loads = s.transfer.loads ∧ Frame { s with port := { s.port with answers := t.port.answers } } t) ∧
    (s.Settled → i ≤ 3 → s.hasCondition i .stalled = false →
      exec (.proceed h i) s = .next (s.answered h (.proceed i) .refusedState .empty).decideAttention) ∧
    (s.Settled → 3 < i → exec (.proceed h i) s = .next (s.answered h (.proceed i) .refusedRange .empty).decideAttention))

/-- `enter-quiet` with quiet OFF and no order in TRANSFER: quiet is PENDING, answered ACCEPTED with the number still to stand, or IN-FORCE at once,
answered DONE. `leave-quiet` with quiet on: quiet is OFF, every miss count 0 and every quiet stand no; DONE. Otherwise each is answered REFUSED-STATE.
-/
def Obligations.QuietIsEnteredAndLeft : Prop :=
  ∀ (h : Header) (s : State), s.Ready → h.originator ≠ .scheduler →
    (s.polls.quiet = .off → (∀ e ∈ s.orders.slots, ∀ o, e.2 = some o → o.state ≠ .transfer) →
      ∃ t, exec (.enterQuiet h) s = .next t ∧
        ((t.polls.quiet = .pending ∧ t.port.answers = s.port.answers
            ++ [⟨h.tag, codeOf .enterQuiet, .accepted, .quiet .pending (some t.stillToStand)⟩]) ∨
          (t.polls.quiet = .inForce ∧ t.port.answers = s.port.answers ++ [⟨h.tag, codeOf .enterQuiet, .done, .quiet .inForce none⟩])) ∧
        (∀ i, (t.train i).map trainShape = (s.train i).map trainShape) ∧ (∀ i r, i ≤ 3 → t.train i = some r → r.quietStand = false) ∧
        t.transfer.loads = s.transfer.loads ∧ Frame { s with port := { s.port with answers := t.port.answers } } t) ∧
    (s.polls.quiet ≠ .off →
      ∃ t, exec (.leaveQuiet h) s = .next t ∧ t.polls.quiet = .off ∧ t.port.answers = s.port.answers ++ [⟨h.tag, codeOf .leaveQuiet, .done, .empty⟩] ∧
        (∀ i r, i ≤ 3 → t.train i = some r → r.quietStand = false ∧ r.missCount = 0) ∧
        (∀ i, (t.train i).map (fun r => (r.position, r.atRest, r.condition)) = (s.train i).map fun r => (r.position, r.atRest, r.condition)) ∧
        t.transfer.loads = s.transfer.loads ∧ Frame { s with port := { s.port with answers := t.port.answers } } t) ∧
    (s.Settled → s.polls.quiet ≠ .off ∨ (∃ e ∈ s.orders.slots, ∃ o, e.2 = some o ∧ o.state = .transfer) →
      exec (.enterQuiet h) s = .next (s.answered h .enterQuiet .refusedState .empty).decideAttention) ∧
    (s.Settled → s.polls.quiet = .off → exec (.leaveQuiet h) s = .next (s.answered h .leaveQuiet .refusedState .empty).decideAttention)

/-- The gap timer expires: it stops and, where quiet is not IN-FORCE and no poll is outstanding, a poll goes to the next transporter in the rotation
with its limit and ceiling and the next sequence number, and that limit is recorded as last sent. With none enrolled, or quiet IN-FORCE, the timer
only stops. The last byte of a poll has left: the reply window timer starts, and nothing else changes. -/
def Obligations.PollsAreSent : Prop :=
  (∀ (s : State) (time : Nat), s.Settled → s.canonical → s.polls.gap = .running time →
    (∀ i r y, s.polls.quiet ≠ .inForce → s.polls.outstanding = none → s.nextInRotation = some i → s.run i = some r → s.train i = some y →
      ∃ t x y', exec .gapTimerExpiry s = .next t ∧ t.polls.outstanding = some x ∧ x.transporter = i ∧ x.limit = r.limit ∧ x.ceiling = r.ceiling ∧
        x.sequence = s.polls.nextSequence ∧ t.polls.nextSequence = s.polls.nextSequence + 1 ∧ t.polls.pointer = some i ∧ t.polls.gap = .stopped ∧
        t.train i = some y' ∧ y'.lastSent = r.limit ∧ trainShape y' = trainShape y ∧ y'.condition = y.condition ∧
        (r.confirm = .awaitingPoll → t.run i = some { r with confirm := .awaitingReply }) ∧
        (∀ m, m ≠ i → t.train m = s.train m ∧ t.run m = s.run m) ∧
        t.layout = s.layout ∧ t.core.segs = s.core.segs ∧ t.core.waiting = s.core.waiting ∧ t.junctions = s.junctions ∧ t.orders = s.orders ∧
        t.transfer = s.transfer ∧ t.guards = s.guards ∧ t.wayside = s.wayside ∧ t.pending = s.pending) ∧
    (s.polls.quiet = .inForce ∨ s.nextInRotation = none →
      exec .gapTimerExpiry s = .next (State.decideAttention { s with polls := { s.polls with gap := .stopped } }))) ∧
  (∀ (s : State) (x : Poll), s.Settled → s.polls.outstanding = some x → x.transmitted = false →
    exec .pollTransmitted s = .next (State.decideAttention
      { s with polls := { s.polls with outstanding := some { x with transmitted := true }, window := .running s.port.params.replyWindow } }))

/-- A report that answers the poll outstanding: the miss count is 0 and at-rest and in-motion are recorded. Unless the transporter was ASTRAY, a
position that it holds becomes its position: a STALLED transporter stays STALLED, and a NORMAL or LOST one is NORMAL, or, where the report gives
drive-fault, STALLED if anything else; a position that it does not hold makes it ASTRAY, its position kept, with TRANSPORTER-ASTRAY raised. The stage
of a drive fault makes a NORMAL transporter STALLED with TRANSPORTER-STALLED raised and changes no other. The position, at-rest, in-motion, miss count
and condition of every other transporter stand. A frame that fails a check of R138, and a report that answers no poll outstanding, are discarded. -/
def Obligations.ReportIsTakenOrDiscarded : Prop :=
  ((∀ (s : State) (bytes : List Byte) (r : Report) (x : Poll) (y : TransporterRec), s.agenda = [] → readReport bytes = some r →
    s.polls.outstanding = some x → r.transporter = x.transporter → r.sequence = x.sequence → s.train r.transporter = some y →
      ∃ t z, exec (.transporterReport bytes) s = .next t ∧ t.train r.transporter = some z ∧ z.missCount = 0 ∧ z.atRest = r.atRest ∧
        z.inMotion = r.inMotion ∧
        (y.condition ≠ .astray → (s.seg r.position).holder = some r.transporter → z.position = r.position ∧ (z.condition = .normal ∨ z.condition = .stalled) ∧
          (y.condition = .stalled → z.condition = .stalled) ∧ (y.condition ≠ .stalled → r.driveFault = false → z.condition = .normal)) ∧
        (y.condition ≠ .astray → (s.seg r.position).holder ≠ some r.transporter →
          z.position = y.position ∧ z.condition = .astray ∧ ⟨.transporterAstray, r.transporter⟩ ∈ t.port.notices) ∧
        (y.condition = .astray → z.position = y.position ∧ z.condition = .astray) ∧
        (∀ m, m ≠ r.transporter → (t.train m).map trainShape = (s.train m).map trainShape ∧ (t.train m).map (·.condition) = (s.train m).map (·.condition)) ∧
        (∀ n, (t.seg n).sensor = (s.seg n).sensor) ∧ t.wayside.inQueue = s.wayside.inQueue ∧ t.guards.hold = s.guards.hold ∧ Frame s t) ∧
  (∀ (s : State) (i : Nat) (y : TransporterRec), s.train i = some y →
    (y.condition = .normal → ∃ z, (runTask (.driveFault i) s).train i = some z ∧ z.condition = .stalled ∧ z.progress = .stopped ∧
      trainShape z = trainShape y ∧ ⟨.transporterStalled, i⟩ ∈ (runTask (.driveFault i) s).port.notices) ∧
    (y.condition ≠ .normal → runTask (.driveFault i) s = s))) ∧
  (∀ (s : State) (bytes : List Byte), s.Settled →
    (readReport bytes = none ∨ s.polls.outstanding = none ∨
      (∃ r x, readReport bytes = some r ∧ s.polls.outstanding = some x ∧ (r.transporter ≠ x.transporter ∨ r.sequence ≠ x.sequence))) →
      exec (.transporterReport bytes) s = .next s.decideAttention)

/-- What a report that moves transporter t from m to n does to the track and to its order. The leaving mark is set on m and on the segments before n
on the route ahead (before its first place there, where the route ahead names n twice, which is the model's choice, assumption 52), as far as t holds
them, and cleared on n (one that t does not hold gets none, assumption 32). A position on a withdrawing segment clears its mark and those of the held
segments before it, again before its first place (assumption 52), on the track ahead. The cursor moves to the first position of the claimed track that
names n (assumption 52); else back to the first position of its leg before it that does; else not at all; a DWELLING refuge whose cursor moves is
RUNNING again, and an order neither RUNNING, DWELLING, ARRIVED nor CANCELLING keeps its cursor. A report that answers the poll outstanding, of a
NORMAL or STALLED transporter, from a position that it holds: the record, the leaving marks, the track run onto and the cursor are as told above, and
then the blocks do the work of the remaining stages in the order of R139. The order inside its stage 3, from the tail releases to the lead extension,
is no rule's but the model's, deduced (assumption 18). The track ahead whose marks the position clears is that after the cursor, which for a
transporter off its cursor, where R71 makes the route ahead empty, is deduced (assumption 13); the tail releases stand with the position left first
(assumption 51). The work is: the tail releases, the limit, the confirmation, the arrival test, the starts of transfers, the throws, the lead
extension, the progress, the drive fault, the load event and the quiet stand. -/
def Obligations.ReportMovesTheTransporter : Prop :=
  ((∀ (s : State) (t m n : Nat),
    let before : Nat → Prop := fun x => ∃ a b, (s.routeAhead t).map (·.segment) = a ++ n :: b ∧ n ∉ a ∧ x ∈ a
    let newly : Nat → Prop := fun x => (x = m ∨ before x) ∧ (s.seg x).holder = some t ∧ (s.seg x).leaving = false
    let u := s.setLeaving (s.leavingMarks t m n) n
    (∀ x, x ∈ s.leavingMarks t m n ↔ newly x) ∧
    (u.seg n).leaving = false ∧ (∀ x, x ≠ n → ((u.seg x).leaving = true ↔ (s.seg x).leaving = true ∨ newly x)) ∧
    (∀ x, { u.seg x with leaving := (s.seg x).leaving } = s.seg x)) ∧
  (∀ (s : State) (t n : Nat) (track : List Nat),
    let before : Nat → Prop := fun x => ∃ a b, track = a ++ n :: b ∧ n ∉ a ∧ x ∈ a
    let u := s.overrun t n track
    (∀ x, { u.seg x with withdrawing := (s.seg x).withdrawing } = s.seg x) ∧
    ((s.seg n).withdrawing = none → u = s) ∧
    ((s.seg n).withdrawing ≠ none → ∀ x,
      ((s.seg x).holder = some t ∧ (x = n ∨ before x) → (u.seg x).withdrawing = none) ∧
      (¬((s.seg x).holder = some t ∧ (x = n ∨ before x)) → u.seg x = s.seg x))) ∧
  (∀ (s : State) (t n k : Nat) (o : Order), s.active t = some (k, o) →
    let moves := o.state = .running ∨ o.state = .dwelling ∨ o.state = .arrived ∨ o.state = .cancelling
    let c := o.index o.cursor
    let u := s.moveCursor t n
    let claimed : Nat → Prop := fun j => c < j ∧ j ≤ o.index o.claim ∧ (o.route[j]?).map (·.segment) = some n
    let leg := if o.cursor.leg = 1 then o.leg1 else o.leg2
    let behind : Nat → Prop := fun p => p < o.cursor.pos ∧ (leg[p]?).map (·.segment) = some n
    let state := if o.state = .dwelling then .running else o.state
    (¬moves → u = s) ∧
    (∀ j, moves → claimed j → (∀ i, claimed i → j ≤ i) → u.order k = some { o with cursor := o.placeOf j, state := state }) ∧
    (∀ p, moves → (∀ j, ¬claimed j) → behind p → (∀ q, behind q → p ≤ q) → u.order k = some { o with cursor := ⟨o.cursor.leg, p⟩, state := state }) ∧
    (moves → (∀ j, ¬claimed j) → (∀ p, ¬behind p) → u = s) ∧
    (∀ m, m ≠ k → u.order m = s.order m) ∧ u.core = s.core ∧ u.orders.refs = s.orders.refs)) ∧
  (∀ (s : State) (bytes : List Byte) (r : Report) (x : Poll) (y : TransporterRec), readReport bytes = some r →
    s.polls.outstanding = some x → r.transporter = x.transporter → r.sequence = x.sequence → s.train r.transporter = some y →
    y.condition = .normal ∨ y.condition = .stalled → (s.seg r.position).holder = some r.transporter →
      let i := r.transporter
      let m := y.position
      let n := r.position
      let z := { y with missCount := 0, atRest := r.atRest, inMotion := r.inMotion }
      let heard := State.setTrain { s with polls := { s.polls with outstanding := none, window := .stopped, gap := .running s.port.params.pollGap } }
        i (some z)
      let marks := if n = m then [] else heard.leavingMarks i m n
      let e := if n = m then heard
        else (((heard.setLeaving marks n).setTrain i (some { z with position := n })).overrun i n ((heard.trackAhead i).map (·.segment))).moveCursor i n
      exec (.transporterReport bytes) s = .next (closeEvent s.pending (workOff (e.emit
        (marks.map (fun k => .tailRelease k i) ++ [.recompute i, .confirm i, .arrival i, .startTransfers, .reviewJunctions i, .extend] ++
          [.progressReport i (decide (n ≠ m)) r.inMotion] ++ (if r.driveFault then [.driveFault i] else []) ++
          [.loadEvent r, .quietStand r x.inQuiet])))))

/-- The arrival, dwell and rejoin tests for a RUNNING active order with no divert STARTING: an order of another kind that rests at its last segment
(an ASTRAY transporter meets no test of rest, assumption 22) is ARRIVED, with a head left waiting off the cursor waiting on (assumption 45), or with
finish NONE ENDED DONE; a refuge not resumed that rests at the end of leg 1 is DWELLING and loses the head that it left waiting; a resumed refuge with
its cursor at the last position of leg 2 ends DONE, and the order beneath it on the stack is RUNNING again and active, with its cursor and claim point
at the rejoin position. The completion of a withdrawal: nothing while a RELEASE mark awaits its confirmation, and for an ASTRAY transporter as for
another once none does, the model's choice (assumption 56); else a STARTING divert whose leg 1 begins at the position is taken up, its claimed track
to be released but for the position itself (assumption 44), the interrupted order SUSPENDED and pushed on the stack and the refuge RUNNING and active;
one that begins elsewhere ends VOID; and a CANCELLING order ends CANCELLED. -/
def Obligations.ArrivalRejoinAndTakeUp : Prop :=
  (∀ (s : State) (t k : Nat) (o : Order), s.active t = some (k, o) → o.transporter = t →
    let rests : Option Nat → Prop := fun n => ∃ y, s.train t = some y ∧ y.atRest = true ∧ some y.position = n ∧ y.condition ≠ .astray
    let last := (o.leg1.getLast?).map (·.segment)
    let rejoins := o.resumed = true ∧ o.cursor.leg = 2 ∧ o.cursor.pos + 1 = o.leg2.length
    let u := s.arrival t
    (o.state ≠ .running ∨ (s.startingDivert t).isSome = true → u = s) ∧
    (o.state = .running → s.startingDivert t = none →
      (o.kind ≠ .refuge →
        (¬rests last → u = s) ∧
        (rests last → o.finish ≠ some .none → u.order k = some { o with state := .arrived } ∧ u.orders.refs = s.orders.refs ∧ ∀ m, m ≠ k → u.order m = s.order m) ∧
        (rests last → o.finish = some .none →
          u.order k = some { o with head := .none, state := .ended, outcome := some .done, failure := none } ∧ (u.orderRefs t).active = none ∧
            ⟨.orderEnded, k⟩ ∈ u.port.notices ∧ ∀ m, m ≠ k → u.order m = s.order m)) ∧
      (o.kind = .refuge →
        (o.resumed = false → rests last →
          u.order k = some { o with head := .none, state := .dwelling } ∧ u.orders.refs = s.orders.refs ∧ ∀ m, m ≠ k → u.order m = s.order m) ∧
        (¬rejoins → ¬(o.resumed = false ∧ rests last) → u = s) ∧
        (∀ place top rest p, rejoins → o.rejoin = some place → (s.orderRefs t).stack = top :: rest → k ∉ top :: rest → s.order top = some p →
          u.order k = some { o with head := .none, state := .ended, outcome := some .done, failure := none } ∧ ⟨.orderEnded, k⟩ ∈ u.port.notices ∧
          u.order top = some { p with
            state := .running, cursor := place, claim := place, head := .none, resumed := p.resumed || decide (place.leg = 2) } ∧
          (u.orderRefs t).active = some top ∧ (u.orderRefs t).stack = rest ∧ ∀ m, m ≠ k → m ≠ top → u.order m = s.order m)))) ∧
  (∀ (s : State) (t : Nat),
    let awaits := (∃ n, (s.seg n).holder = some t ∧ (s.seg n).withdrawing = some .release) ∧ ∀ r, s.run t = some r → r.confirm ≠ .none
    let u := s.complete t
    (awaits → u = s) ∧
    (¬awaits →
      (∀ k refuge a o, s.startingDivert t = some k → s.order k = some refuge → s.active t = some (a, o) → a ≠ k →
        ((refuge.leg1.head?).map (·.segment) = s.position t →
          u.order a = some { o with state := .suspended, claim := o.cursor } ∧ u.order k = some { refuge with state := .running } ∧
          u.orderRefs t = { s.orderRefs t with active := some k, stack := a :: (s.orderRefs t).stack } ∧
          (∀ n ∈ o.claimedTrack, (s.seg n).holder = some t → s.position t ≠ some n → .release n t ∈ u.agenda) ∧
          ∀ m, m ≠ a → m ≠ k → u.order m = s.order m) ∧
        ((refuge.leg1.head?).map (·.segment) ≠ s.position t →
          u.order k = some { refuge with head := .none, state := .ended, outcome := some .void, failure := none } ∧
          ⟨.divertVoid, refuge.transporter⟩ ∈ u.port.notices ∧ .arrival t ∈ u.agenda ∧ ∀ m, m ≠ k → u.order m = s.order m)) ∧
      (∀ k o, s.startingDivert t = none → s.active t = some (k, o) →
        (o.state = .cancelling →
          u.order k = some { o with head := .none, state := .ended, outcome := some .cancelled, failure := none } ∧ ⟨.orderEnded, k⟩ ∈ u.port.notices ∧
          ∀ m, m ≠ k → u.order m = s.order m) ∧
        (o.state ≠ .cancelling → u = s)) ∧
      (s.startingDivert t = none → s.active t = none → u = s)))

/-- The reply window passes without a reply: the miss count rises by one, up to 8; a NORMAL or STALLED transporter that reaches the miss limit is LOST
with TRANSPORTER-LOST raised, and any other keeps its condition. No other transporter changes. A running progress timer expires: its transporter is
STALLED with TRANSPORTER-STALLED raised, its position kept; a stopped one does nothing, which is the model's choice (assumption 6). -/
def Obligations.MissesAndStallsAreCounted : Prop :=
  (∀ (s : State) (x : Poll) (time : Nat) (y : TransporterRec), s.agenda = [] → s.polls.outstanding = some x → s.polls.window = .running time →
    s.train x.transporter = some y →
      ∃ t z, exec .replyWindowExpiry s = .next t ∧ t.train x.transporter = some z ∧ z.missCount = min 8 (y.missCount + 1) ∧
        z.position = y.position ∧ z.atRest = y.atRest ∧
        (y.condition = .normal ∨ y.condition = .stalled → s.port.params.missLimit ≤ min 8 (y.missCount + 1) →
          z.condition = .lost ∧ ⟨.transporterLost, x.transporter⟩ ∈ t.port.notices) ∧
        (y.condition = .lost ∨ y.condition = .astray ∨ min 8 (y.missCount + 1) < s.port.params.missLimit → z.condition = y.condition) ∧
        (∀ m, m ≠ x.transporter → (t.train m).map trainShape = (s.train m).map trainShape ∧ (t.train m).map (·.condition) = (s.train m).map (·.condition)) ∧
        t.transfer.loads = s.transfer.loads ∧ (∀ n, (t.seg n).sensor = (s.seg n).sensor) ∧ t.wayside.inQueue = s.wayside.inQueue ∧
        t.guards.hold = s.guards.hold ∧ Frame s t) ∧
  (∀ (s : State) (i : Nat) (y : TransporterRec), s.train i = some y →
    (∀ time, s.agenda = [] → y.progress = .running time →
      ∃ t z, exec (.progressTimerExpiry i) s = .next t ∧ t.train i = some z ∧ z.condition = .stalled ∧ trainShape z = trainShape y ∧
        ⟨.transporterStalled, i⟩ ∈ t.port.notices ∧
        (∀ m, m ≠ i → (t.train m).map trainShape = (s.train m).map trainShape ∧ (t.train m).map (·.condition) = (s.train m).map (·.condition)) ∧
        t.transfer.loads = s.transfer.loads ∧ (∀ n, (t.seg n).sensor = (s.seg n).sensor) ∧ t.wayside.inQueue = s.wayside.inQueue ∧
        t.guards.hold = s.guards.hold ∧ Frame s t) ∧
    (s.Settled → y.progress = .stopped → exec (.progressTimerExpiry i) s = .next s.decideAttention))

/-! ### Grant maps, fences and the array hold -/

/-- `set-grants` of MAINTENANCE, in either layout state, replaces the named originator's map whole by the two sets and answers DONE with the map, the
other maps, the orders, the fences and the holdings as they were; a group or an originator out of range is answered REFUSED-RANGE, and another
originator's request DENIED. -/
def Obligations.SetGrantsReplacesOneMap : Prop :=
  ∀ (h : Header) (who : Nat) (pads segments : List Nat) (s : State), s.Ready → s.Settled →
    let r : Request := .setGrants who pads segments
    let ranges := who ≤ 2 ∧ (∀ g ∈ pads, g ≤ 23) ∧ ∀ g ∈ segments, g ≤ 15
    (h.originator = .maintenance → ranges → ∃ m : GrantMap,
      exec (.setGrants h who pads segments) s = .next ((s.setGrantMap who m).answered h r .done (.grants m)).decideAttention ∧
      (∀ g, g ∈ m.pads ↔ g ∈ pads) ∧ (∀ g, g ∈ m.segments ↔ g ∈ segments) ∧ (s.setGrantMap who m).grantMap who = m ∧
      ∀ o, o ≠ who → (s.setGrantMap who m).grantMap o = s.grantMap o) ∧
    (h.originator = .maintenance → ¬ranges → exec (.setGrants h who pads segments) s = .next (s.answered h r .refusedRange .empty).decideAttention) ∧
    (h.originator ≠ .maintenance → exec (.setGrants h who pads segments) s = .next (s.answered h r .denied .deniedClass).decideAttention)

/-- `set-fence` and `clear-fence` of MAINTENANCE, or of an OPERATOR allowed every declared segment of the range: the slot is SET with the base and the
size, or EMPTY, the other slot as it was, and the answer is DONE with the range. A fence set empties the claimant queues of the segments that no fence
covered before and turns away the heads that claim or wait there, but for those that wait for a sensor: each is FENCED, in the fenced set, and
ROUTE-FENCED is raised; the answer counts the heads turned away and the range's segments that are held, and that of a fence cleared the heads
presented again. A refused `set-fence` or `clear-fence` changes nothing: the first test that fails is named with REFUSED-RANGE or, for a slot that is
SET, with REFUSED-STATE; clearing an EMPTY slot is REFUSED-STATE and a slot above 1 REFUSED-RANGE; a declared segment of the range that the originator
may not act on is DENIED, the first one named; that this body carries the object and no number of a test is the model's choice (assumption 50). -/
def Obligations.FencesAreSetAndCleared : Prop :=
  (∀ (h : Header) (slot base size : Nat) (s : State), s.Ready → h.originator ≠ .scheduler → slot ≤ 1 →
    s.firstRefused h.originator (s.fenceObjects ⟨base, size⟩) = none →
    (size ∈ [1, 2, 4, 8, 16, 32, 64] → base ≤ 127 → base % size = 0 → s.fence slot = none →
      ∃ t turned held, exec (.setFence h slot base size) s = .next t ∧ t.fence slot = some ⟨base, size⟩ ∧
        (∀ k, k ≠ slot → t.fence k = s.fence k) ∧
        t.port.answers = s.port.answers ++ [⟨h.tag, codeOf (.setFence slot base size), .done, .fenceSet base size turned held⟩] ∧
        (∀ n, (t.seg n).sensor = (s.seg n).sensor) ∧ t.guards.hold = s.guards.hold ∧ t.guards.maps = s.guards.maps ∧
        t.transfer.loads = s.transfer.loads ∧ (∀ i, (t.train i).map trainShape = (s.train i).map trainShape) ∧
        (let fresh := (Fence.range ⟨base, size⟩).filter fun n => decide ((s.setFence slot (some ⟨base, size⟩)).fenceCount n = 1)
         turned = (fresh.flatMap s.headsAt).length ∧ held = ((Fence.range ⟨base, size⟩).filter fun n => (s.seg n).holder.isSome).length ∧
         (s.Settled → s.canonical →
           (∀ n, t.seg n = if n ∈ fresh then { s.seg n with queue := [] } else s.seg n) ∧
           (∀ n ∈ fresh, ∀ k ∈ s.headsAt n, ∀ o, s.order k = some o →
             t.order k = some { o with head := .fenced } ∧ (∃ e ∈ t.guards.fenced, e.slot = k ∧ e.segment ∈ fresh) ∧
               ⟨.routeFenced, k⟩ ∈ t.port.notices) ∧
           (∀ k, (∀ n ∈ fresh, k ∉ s.headsAt n) → t.order k = s.order k) ∧ t.orders.refs = s.orders.refs)) ∧
        Frame { s with guards := t.guards, port := { s.port with answers := t.port.answers } } t) ∧
    (s.fence slot = some ⟨base, size⟩ →
      ∃ t presented, exec (.clearFence h slot) s = .next t ∧ t.fence slot = none ∧ (∀ k, k ≠ slot → t.fence k = s.fence k) ∧
        t.port.answers = s.port.answers ++ [⟨h.tag, codeOf (.clearFence slot), .done, .fenceCleared base size presented⟩] ∧
        presented = (((Fence.range ⟨base, size⟩).filter fun n => decide ((s.setFence slot none).fenceCount n = 0)).flatMap fun n =>
          s.guards.fenced.filter fun e => decide (e.segment = n)).length ∧
        Calm ((s.setFence slot none).answered h (.clearFence slot) .done (.fenceCleared base size presented)) t)) ∧
  (∀ (h : Header) (slot base size : Nat) (s : State), s.Ready → s.Settled → h.originator ≠ .scheduler →
    let reply := fun (o : Outcome) (k : Nat) =>
      exec (.setFence h slot base size) s = .next (s.answered h (.setFence slot base size) o (.failedTest k)).decideAttention
    let sizes := size ∈ [1, 2, 4, 8, 16, 32, 64]
    let places := base ≤ 127 ∧ base % size = 0
    (1 < slot → reply .refusedRange 1) ∧
    (slot ≤ 1 → ¬sizes → reply .refusedRange 2) ∧
    (slot ≤ 1 → sizes → ¬places → reply .refusedRange 3) ∧
    (slot ≤ 1 → sizes → places → s.fence slot ≠ none → reply .refusedState 4) ∧
    (∀ x n, slot ≤ 1 → sizes → places → s.fence slot = none → s.firstRefused h.originator (s.fenceObjects ⟨base, size⟩) = some (x, n) →
      exec (.setFence h slot base size) s = .next (s.answered h (.setFence slot base size) .denied (.deniedObject x n)).decideAttention) ∧
    (∀ f x n, slot ≤ 1 → s.fence slot = some f → s.firstRefused h.originator (s.fenceObjects f) = some (x, n) →
      exec (.clearFence h slot) s = .next (s.answered h (.clearFence slot) .denied (.deniedObject x n)).decideAttention) ∧
    (1 < slot → exec (.clearFence h slot) s = .next (s.answered h (.clearFence slot) .refusedRange .empty).decideAttention) ∧
    (slot ≤ 1 → s.fence slot = none →
      exec (.clearFence h slot) s = .next (s.answered h (.clearFence slot) .refusedState .empty).decideAttention))

/-- The sources of the array hold enter and leave: LINE with the HOLD input, DESK with `hold` and `release-hold`. The answer gives the set. A source
present already changes nothing; `release-hold` without DESK is answered REFUSED-STATE. What the array hold's beginning and end do. A change of the
source set that leaves the hold active, or not active, changes the set and nothing else. At the beginning every running transfer timer is suspended
with the time it has left (a free value up to the time it was started with, assumption 3), every enrolled transporter's limit is recomputed, and where
the event's work has come to its end (assumption 2) each stands at its transporter's position; no poll then carries a transfer permission, and of the
out-queue only a COUPLE or a PROVE is eligible. At the end the work listed is, in this order: every limit, the unheld segments with claimants in
ascending number, the heads of the waiting list (every entry, whatever its cause: the model's reading, assumption 17), the lead extension, the
transfers that may start, and last the transfer timers, each suspended one running again from the time it kept, with the oldest entry of all sent by a
transmitter that is IDLE. `clear-wayside`: with the link SILENT it is answered REFUSED-STATE with reason SILENT; with WAYSIDE absent REFUSED-STATE
with reason ABSENT; otherwise WAYSIDE leaves the set, and the answer is DONE with the set. -/
def Obligations.HoldSourcesEnterAndLeave : Prop :=
  (∀ (h : Header) (s : State),
    (s.agenda = [] → ∃ t, exec .holdAsserted s = .next t ∧ Calm (s.setHold { s.guards.hold with line := true }) t) ∧
    (s.agenda = [] → ∃ t, exec .holdDeasserted s = .next t ∧ Calm (s.setHold { s.guards.hold with line := false }) t) ∧
    (s.Ready → h.originator ≠ .scheduler → ∃ t, exec (.hold h) s = .next t ∧
      Calm ((s.setHold { s.guards.hold with desk := true }).answered h .hold .done (.holdSources { s.guards.hold with desk := true })) t) ∧
    (s.Ready → h.originator ≠ .scheduler → s.guards.hold.desk = true → ∃ t, exec (.releaseHold h) s = .next t ∧
      Calm ((s.setHold { s.guards.hold with desk := false }).answered h .releaseHold .done
        (.holdSources { s.guards.hold with desk := false })) t) ∧
    (s.Settled → s.guards.hold.line = true → exec .holdAsserted s = .next s.decideAttention) ∧
    (s.Settled → s.guards.hold.line = false → exec .holdDeasserted s = .next s.decideAttention) ∧
    (s.Ready → s.Settled → h.originator ≠ .scheduler → s.guards.hold.desk = false →
      exec (.releaseHold h) s = .next (s.answered h .releaseHold .refusedState .empty).decideAttention)) ∧
  (let suspends : State → State → Prop := fun s t =>
    ∀ p, (s.transferAt p = none → t.transferAt p = none) ∧
      ∀ x, s.transferAt p = some x →
        (∀ time, x.timer = .running time → ∃ left, left ≤ time ∧ t.transferAt p = some { x with timer := .suspended left }) ∧
        (∀ time, x.timer = .suspended time → t.transferAt p = some x)
  (∀ (s : State) (x : HoldSources), x.active = s.holdActive → s.changeHold x = s.setHold x) ∧
  (∀ (s : State) (x : HoldSources), s.holdActive = false → x.active = true →
    let t := s.changeHold x
    t.guards.hold = x ∧ t.agenda = s.agenda ++ s.enrolledList.map .recompute ∧ suspends s t ∧ t.core = s.core ∧ t.orders = s.orders ∧
      t.wayside = s.wayside) ∧
  (∀ (c : Instr) (h : Header) (s : State), s.holdActive = false →
    (c = .holdAsserted ∧ s.agenda = []) ∨ (c = .hold h ∧ s.Ready ∧ h.originator ≠ .scheduler) →
    ∃ t, exec c s = .next t ∧ t.holdActive = true ∧ suspends s t ∧ (∀ i, t.permission i = .none) ∧
      (∀ m, t.eligible m = true ↔ (∃ j, m = .prove j) ∨ ∃ p, m = .couple p) ∧
      (t.agenda = [] → ∀ i r y, i ≤ 3 → t.run i = some r → t.train i = some y → r.limit = y.position)) ∧
  (∀ (s : State) (x : HoldSources), s.holdActive = true → x.active = false →
    s.changeHold x = { s.setHold x with
      holdEnding := true
      agenda := s.agenda ++ (s.enrolledList.map .recompute ++ [.serveAll, .retryAll, .extend, .startTransfers, .resumeTransfers]) }) ∧
  (∀ s : State, s.agenda = [] → s.guards.hold.line = true →
    exec .holdDeasserted s = .next (runEvent (fun u => u.changeHold { u.guards.hold with line := false }) s)) ∧
  (∀ s : State,
    (∃ l : List Nat, runTask .serveAll s = s.emit (l.map .serve) ∧ (∀ n, n ∈ l ↔ (s.seg n).holder = none ∧ (s.seg n).queue ≠ []) ∧
      (s.canonical → l.Pairwise (· < ·))) ∧
    runTask .retryAll s = s.emit (s.core.waiting.map fun e => .represent e.slot e.segment)) ∧
  (∀ s : State, s.holdActive = false →
    let t := runTask .resumeTransfers s
    t.holdEnding = false ∧ (∀ m, t.eligible m = true) ∧
      (∀ p, (s.transferAt p = none → t.transferAt p = none) ∧
        ∀ x, s.transferAt p = some x →
          (∀ time, x.timer = .suspended time → t.transferAt p = some { x with timer := .running time }) ∧
          (∀ time, x.timer = .running time → t.transferAt p = some x)) ∧
      (∀ m rest, s.wayside.transmitter = .idle → s.wayside.outQueue = m :: rest →
        t.wayside.transmitter = .sending m ∧ t.wayside.outQueue = rest) ∧
      (∀ m, s.wayside.transmitter = .sending m → t.wayside = s.wayside))) ∧
  (∀ (h : Header) (s : State), s.Ready → h.originator ≠ .scheduler →
    (s.wayside.link = .silent → s.Settled →
      exec (.clearWayside h) s = .next (s.answered h .clearWayside .refusedState (.waysideRefusal .silent)).decideAttention) ∧
    (s.wayside.link = .live → s.guards.hold.wayside = false → s.Settled →
      exec (.clearWayside h) s = .next (s.answered h .clearWayside .refusedState (.waysideRefusal .absent)).decideAttention) ∧
    (s.wayside.link = .live → s.guards.hold.wayside = true → ∃ t, exec (.clearWayside h) s = .next t ∧
      Calm ((s.setHold { s.guards.hold with wayside := false }).answered h .clearWayside .done
        (.holdSources { s.guards.hold with wayside := false })) t))

/-! ### The wayside link -/

/-- A good frame received while the receiver hunts starts the silence timer afresh and makes the link LIVE; a message whose object is declared is
appended to the in-queue, or with 16 there is an overflow and WAYSIDE is present; one whose object is not declared, and STATUS, are finished with. -/
def Obligations.GoodFrameIsQueued : Prop :=
  ∀ (s : State) (bytes : List Byte), s.agenda = [] → s.wayside.receiver = .hunting → bytes.length = 6 → bytes.head? = some syncByte →
    let heard := { s with wayside := { s.wayside with silence := .running s.port.params.silenceTime, link := .live } }
    (∀ m, judgeFrame bytes = some (.message m) → s.messageDeclared m = true → s.wayside.inQueue.length < 16 →
      ∃ t, exec (.waysideFrame bytes) s = .next t ∧ t.wayside.inQueue = s.wayside.inQueue ++ [m] ∧
        t.wayside.pause = decide (12 ≤ s.wayside.inQueue.length + 1) ∧ t.wayside.receiver = .hunting ∧
        Calm (State.setInQueue heard (s.wayside.inQueue ++ [m])) t) ∧
    (∀ m, judgeFrame bytes = some (.message m) → s.messageDeclared m = true → 16 ≤ s.wayside.inQueue.length →
      ∃ t, exec (.waysideFrame bytes) s = .next t ∧ t.guards.hold.wayside = true ∧ t.wayside.inQueue = s.wayside.inQueue ∧
        Calm (State.setHold heard { s.guards.hold with wayside := true }) t) ∧
    (judgeFrame bytes = some .status ∨ (∃ m, judgeFrame bytes = some (.message m) ∧ s.messageDeclared m = false) → s.Settled →
      exec (.waysideFrame bytes) s = .next heard.decideAttention)

/-- A check error discards what was received and makes WAYSIDE present, with the receiver HUNTING and the silence timer and the link as they were: a
frame that is judged bad, a gap within a frame, and a byte other than the sync byte while the receiver hunts. A gap while it hunts is no event of
R172: that it changes nothing is the model's choice (assumption 6). The silence timer expires: the link is SILENT and WAYSIDE present; an expired
timer does not expire again: that the command then changes nothing is the model's choice (assumption 6). -/
def Obligations.CheckErrorsAndSilenceBringWayside : Prop :=
  (∀ s : State,
    let e := (s.setReceiver .hunting).setHold { s.guards.hold with wayside := true }
    (∀ bytes, s.agenda = [] → s.wayside.receiver = .hunting → bytes.length = 6 → bytes.head? = some syncByte → judgeFrame bytes = none →
      ∃ t, exec (.waysideFrame bytes) s = .next t ∧ Calm e t) ∧
    (∀ got, s.agenda = [] → s.wayside.receiver = .inFrame got → ∃ t, exec .waysideByteGapTimeout s = .next t ∧ Calm e t) ∧
    (∀ b, s.agenda = [] → s.wayside.receiver = .hunting → b ≠ syncByte → ∃ t, exec (.byteInHunting b) s = .next t ∧ Calm e t) ∧
    (s.Settled → s.wayside.receiver = .hunting → exec .waysideByteGapTimeout s = .next s.decideAttention)) ∧
  (∀ s : State,
    (∀ time, s.agenda = [] → s.wayside.silence = .running time → ∃ t, exec .silenceTimerExpiry s = .next t ∧
      Calm ({ s with wayside := { s.wayside with silence := .expired, link := .silent } }.setHold { s.guards.hold with wayside := true }) t) ∧
    (s.Settled → s.wayside.silence = .expired → exec .silenceTimerExpiry s = .next s.decideAttention))

/-- The message at the head of the in-queue is handed to its block: a SENSOR message is recorded as its segment's sensor state, and the queue's rest
and the pause follow. OCCUPIED raises TRACK-INTRUSION for a segment that no one holds and that was not OCCUPIED before, and for one held without a
leaving mark that is neither its holder's position nor within what the limit last sent allows (up to its first place on the route ahead, assumption
31); the heads waiting there for the sensor are presented again and a throw still queued there is withdrawn. CLEAR releases a segment held with its
leaving mark, serves an unheld one, presents again the heads waiting there for the sensor or for an intrusion, and has the throw check and the rest
decision made. That these two come after the heads are presented again, and the withdrawal beside it, is no rule's order but the model's, deduced
(assumption 18). With the head of another kind, or the queue empty, the command changes nothing, which is the model's choice (assumption 5). What a
release does: the segment has no holder, no leaving mark and no withdrawing mark, no other segment changes, and the claim point of the holder's active
order falls back to the position before it, where the segment is on the claimed track; a junction's hold starts; an OCCUPIED segment raises
TRACK-INTRUSION, and any other is served; the heads waiting there because of a cycle or a full queue are presented again and the holder's limit is
recomputed. A release by one that does not hold the segment changes nothing. Serving grants an unheld, unfenced segment whose sensor shows CLEAR, with
no hold active, to the first of its claimants and takes it out of the queue; otherwise it changes nothing. A segment newly marked leaving is released
at once where its sensor shows CLEAR. -/
def Obligations.SensorMessagesReleaseAndServe : Prop :=
  (∀ s : State,
    (∀ n v rest, s.agenda = [] → s.wayside.inQueue = .sensor n v :: rest →
      ∃ t, exec .sensor s = .next t ∧ (t.seg n).sensor = (if v then .occupied else .clear) ∧ (∀ m, m ≠ n → (t.seg m).sensor = (s.seg m).sensor) ∧
        (v = true → (s.seg n).holder = none → (s.seg n).sensor ≠ .occupied → ⟨.trackIntrusion, n⟩ ∈ t.port.notices) ∧
        (∀ i, v = true → (s.seg n).holder = some i → (s.seg n).leaving = false → s.position i ≠ some n → n ∉ s.extent i (s.sentReach i) →
          ⟨.trackIntrusion, n⟩ ∈ t.port.notices) ∧
        t.wayside.inQueue = rest ∧ t.wayside.pause = decide (12 ≤ rest.length) ∧ t.transfer.loads = s.transfer.loads ∧
        (∀ i, (t.train i).map trainShape = (s.train i).map trainShape) ∧ (∀ j, StationKept (s.junction j) (t.junction j)) ∧
        t.guards.hold = s.guards.hold ∧ Frame s t) ∧
    (s.Settled → (∀ n v rest, s.wayside.inQueue ≠ .sensor n v :: rest) → exec .sensor s = .next s.decideAttention) ∧
    (∀ n v rest, s.wayside.inQueue = .sensor n v :: rest →
      let r := s.seg n
      let intruded : Prop := (r.holder = none ∧ r.sensor ≠ .occupied) ∨
        ∃ i, r.holder = some i ∧ r.leaving = false ∧ s.position i ≠ some n ∧ n ∉ s.extent i (s.sentReach i)
      let e := (s.setInQueue rest).setSeg n { r with sensor := if v then .occupied else .clear }
      (v = true → intruded →
        exec .sensor s = .next (closeEvent s.pending (workOff (((e.raise .trackIntrusion n).emit [.retry n [.sensor]]).withdrawThrow n)))) ∧
      (v = true → ¬intruded →
        exec .sensor s = .next (closeEvent s.pending (workOff ((e.emit [.retry n [.sensor]]).withdrawThrow n)))) ∧
      (∀ i, v = false → r.holder = some i → r.leaving = true →
        exec .sensor s = .next (closeEvent s.pending (workOff
          (e.emit [.release n i, .retry n [.sensor, .intrusion], .throwCheck n, .restDecision n])))) ∧
      (∀ i, v = false → r.holder = some i → r.leaving = false →
        exec .sensor s = .next (closeEvent s.pending (workOff (e.emit [.retry n [.sensor, .intrusion], .throwCheck n, .restDecision n])))) ∧
      (v = false → r.holder = none →
        exec .sensor s = .next (closeEvent s.pending (workOff
          (e.emit [.serve n, .retry n [.sensor, .intrusion], .throwCheck n, .restDecision n])))))) ∧
  ((∀ (s : State) (n t : Nat),
    let r := s.seg n
    let u := runTask (.release n t) s
    (r.holder ≠ some t → u = s) ∧
    (r.holder = some t →
      u.seg n = { r with holder := none, leaving := false, withdrawing := none } ∧ (∀ m, m ≠ n → u.seg m = s.seg m) ∧
      (r.sensor = .occupied → ⟨.trackIntrusion, n⟩ ∈ u.port.notices ∧ (s.agenda = [] → .serve n ∉ u.agenda)) ∧
      (r.sensor ≠ .occupied → .serve n ∈ u.agenda ∧ u.port = s.port) ∧
      .retry n [.cycle, .full] ∈ u.agenda ∧ .recompute t ∈ u.agenda ∧
      (∀ j, s.junction n = some j → ∃ j', u.junction n = some j' ∧
        j'.hold = (if s.port.params.holdTime = 0 then .expired else .running s.port.params.holdTime)) ∧
      (∀ k o i, s.active t = some (k, o) → i < o.index o.claim - o.index o.cursor → (o.beyond[i]?).map (·.segment) = some n →
        (∀ i', i' < i → (o.beyond[i']?).map (·.segment) ≠ some n) →
        u.order k = some { o with claim := o.placeOf (o.index o.cursor + i) }) ∧
      (∀ k o, s.active t = some (k, o) → n ∉ (o.beyond.take (o.index o.claim - o.index o.cursor)).map (·.segment) → u.orders = s.orders))) ∧
  (∀ (s : State) (n : Nat),
    let r := s.seg n
    let u := runTask (.serve n) s
    let servable : Prop := r.holder = none ∧ s.fenceCount n = 0 ∧ r.sensor = .clear ∧ s.holdActive = false
    (∀ t rest, servable → r.queue = t :: rest →
      u.seg n = { r with holder := some t, queue := rest } ∧ (∀ m, m ≠ n → u.seg m = s.seg m) ∧ .recompute t ∈ u.agenda ∧ .retry n [.full] ∈ u.agenda ∧
      (∀ k, (s.orderRefs t).active ≠ some k → u.order k = s.order k) ∧
      (∀ k o, (s.orderRefs t).active = some k → s.order k = some o → (o.headPos).map (·.segment) = some n →
        u.order k = some { o with head := .none, claim := o.placeOf (o.index o.claim + 1) })) ∧
    (¬servable ∨ r.queue = [] → u = s)) ∧
  (∀ (s : State) (n t : Nat),
    ((s.seg n).holder = some t ∧ (s.seg n).leaving = true ∧ (s.seg n).sensor = .clear → runTask (.tailRelease n t) s = s.emit [.release n t]) ∧
    (¬((s.seg n).holder = some t ∧ (s.seg n).leaving = true ∧ (s.seg n).sensor = .clear) → runTask (.tailRelease n t) s = s)))

/-- The last byte of an outgoing frame has left: the transmitter takes the oldest eligible entry of the out-queue, or with none eligible is IDLE.
While the array hold is active a THROW and an UNCOUPLE are not eligible. The entry leaves the out-queue, and its owner is told: an operation is SENT
with the throw timeout running, the coupling of a SEATED pad is SENT with the coupling timeout running; an UNCOUPLE has no timer of its own. -/
def Obligations.SendCompleteTakesTheNextEligible : Prop :=
  ∀ (s : State) (m : OutMessage), s.wayside.transmitter = .sending m →
    (∀ m', s.agenda = [] → s.wayside.outQueue.find? s.eligible = some m' →
      ∃ t, exec .waysideSendComplete s = .next t ∧ t.wayside.transmitter = .sending m' ∧
        (s.holdActive = true → (∃ j, m' = .prove j) ∨ ∃ p, m' = .couple p) ∧
        (∀ j r, m' = .prove j → s.junction j = some r → r.lawful → (t.junction j).map basis = some (basis r)) ∧
        (∀ n, (t.seg n).sensor = (s.seg n).sensor) ∧ t.transfer.loads = s.transfer.loads ∧ t.wayside.inQueue = s.wayside.inQueue ∧
        t.guards.hold = s.guards.hold ∧ Frame s t) ∧
    (∀ m', s.Settled → s.canonical → s.wayside.outQueue.find? s.eligible = some m' →
      let e := (s.setOutQueue (eraseFirst s.eligible s.wayside.outQueue)).setTransmitter (.sending m')
      (∀ j r op, (m' = .prove j ∨ ∃ d, m' = .throw j d) → s.junction j = some r → r.operation = some op →
        exec .waysideSendComplete s = .next (State.decideAttention
          (e.setJunction j (some { r with operation := some { op with phase := .sent, timer := .running s.port.params.throwTimeout } })))) ∧
      (∀ p, m' = .couple p → (s.pad p).state = .seated →
        exec .waysideSendComplete s = .next (State.decideAttention
          (e.setPad p { s.pad p with coupling := .sent, couplingTimer := .running s.port.params.couplingTimeout }))) ∧
      (∀ p, m' = .uncouple p → exec .waysideSendComplete s = .next e.decideAttention)) ∧
    (s.Settled → s.wayside.outQueue.find? s.eligible = none →
      exec .waysideSendComplete s = .next (State.decideAttention { s with wayside := { s.wayside with transmitter := .idle } }))
end

