-- ==== Sys2Proof/Laws/Bodies.lean ====
section
/-!
SUPPORT. Laws/Bodies.lean: how long a body and the frame of an answer are (R188).
-/

namespace Sys2Proof.Laws

open Sys2Proof Sys2Proof.Machine

theorem bodyBytes_length_le (b : Body) : (bodyBytes b).length ≤ 89 := List.length_take_le 89 _

@[simp] theorem openBytes_length (w : Nat) (f : OpenField) : (openBytes w f).length = w := by simp [openBytes]

@[simp] theorem twoBytes_length (n : Nat) : (twoBytes n).length = 2 := rfl

@[simp] theorem grantBytes_length (m : GrantMap) : (grantBytes m).length = 5 := rfl

@[simp] theorem fenceBytes_length (f : Option Fence) : (fenceBytes f).length = 2 := by cases f <;> simp [fenceBytes]

/-- An answer frame is the body and seven bytes around it, between 7 and 96 in all, and its first byte says how many (R188). -/
theorem answerFrame_length (a : Answer) (f : SummaryFlags) :
    (answerFrame a f).length = (bodyBytes a.body).length + 7 ∧ 7 ≤ (answerFrame a f).length ∧ (answerFrame a f).length ≤ 96
      ∧ (answerFrame a f).head? = some (byteOf (answerFrame a f).length) := by
  have h := bodyBytes_length_le a.body
  have hl : (answerFrame a f).length = (bodyBytes a.body).length + 7 := by
    simp [answerFrame, withCheck, wordBytes]
  refine ⟨hl, by omega, by omega, ?_⟩
  rw [hl]
  rfl

/-- The body of `read-status` with three grant maps and two fence records has 63 bytes, and its answer 70 (R202, section 10.9). -/
theorem statusBytes_length (x : StatusReading) (hm : x.maps.length = 3) (hf : x.fences.length = 2) : (statusBytes x).length = 63 := by
  obtain ⟨m1, m2, m3, h1⟩ := List.length_eq_three.1 hm
  obtain ⟨f1, f2, h2⟩ := List.length_eq_two.1 hf
  simp [statusBytes, h1, h2, wordBytes, shownParams]

end Sys2Proof.Laws
end

