-- ==== Sys2Proof/Laws/Tables.lean ====
section
/-!
SUPPORT. Laws/Tables.lean: what a sparse table reads after a write, and that every write keeps the canonical form.
-/

namespace Sys2Proof.Laws

open Sys2Proof

variable {α : Type}

/-! ### Reading after a write -/

@[simp] theorem get_nil (d : α) (k : Nat) : Table.get d [] k = d := rfl

theorem get_cons (d : α) (j : Nat) (v : α) (rest : Table α) (k : Nat) :
    Table.get d ((j, v) :: rest) k = if j = k then v else Table.get d rest k := rfl

theorem get_erase (d : α) (t : Table α) (k j : Nat) :
    Table.get d (Table.erase t k) j = if j = k then d else Table.get d t j := by
  induction t with
  | nil => simp [Table.erase]
  | cons e rest ih =>
    obtain ⟨i, v⟩ := e
    by_cases hik : i = k
    · subst hik
      simp only [Table.erase, if_true, ih, get_cons]
      by_cases hj : j = i
      · simp [hj]
      · simp [hj, Ne.symm hj]
    · simp only [Table.erase, if_neg hik, get_cons, ih]
      by_cases hij : i = j
      · subst hij; simp [hik]
      · simp [hij]

theorem get_insert (d : α) (t : Table α) (k j : Nat) (v : α) :
    Table.get d (Table.insert t k v) j = if j = k then v else Table.get d t j := by
  induction t with
  | nil =>
    simp only [Table.insert, get_cons, get_nil]
    by_cases h : j = k
    · simp [h]
    · simp [h, Ne.symm h]
  | cons e rest ih =>
    obtain ⟨i, w⟩ := e
    simp only [Table.insert]
    by_cases hki : k < i
    · simp only [if_pos hki, get_cons]
      by_cases h : j = k
      · simp [h]
      · simp [h, Ne.symm h]
    · by_cases hik : i = k
      · subst hik
        simp only [if_neg hki, if_true, get_cons]
        by_cases h : j = i
        · simp [h]
        · simp [h, Ne.symm h]
      · simp only [if_neg hki, if_neg hik, get_cons, ih]
        by_cases hij : i = j
        · subst hij; simp [hik]
        · simp [hij]

/-- A write is read back, and no other number is touched. -/
theorem get_put [DecidableEq α] (d : α) (t : Table α) (k j : Nat) (v : α) :
    Table.get d (Table.put d t k v) j = if j = k then v else Table.get d t j := by
  unfold Table.put
  split
  · next h => rw [get_erase, h]
  · rw [get_insert]

@[simp] theorem get_put_same [DecidableEq α] (d : α) (t : Table α) (k : Nat) (v : α) : Table.get d (Table.put d t k v) k = v := by
  simp [get_put]

theorem get_put_other [DecidableEq α] (d : α) (t : Table α) {k j : Nat} (v : α) (h : j ≠ k) :
    Table.get d (Table.put d t k v) j = Table.get d t j := by simp [get_put, h]

/-- Every record replaced by `f` of it, where `f` leaves the resting record at rest. -/
theorem get_mapRecords [DecidableEq α] (d : α) (f : Nat → α → α) (hf : ∀ k, f k d = d) (t : Table α) (k : Nat) :
    Table.get d (Table.mapRecords d f t) k = f k (Table.get d t k) := by
  induction t with
  | nil => simp [Table.mapRecords, hf]
  | cons e rest ih =>
    obtain ⟨i, v⟩ := e
    simp only [Table.mapRecords, get_put, get_cons, ih]
    by_cases h : k = i
    · simp [h]
    · simp [h, Ne.symm h]

/-! ### The canonical form -/

/-- The canonical form, said without Booleans. -/
def Canonical [DecidableEq α] (d : α) (t : Table α) : Prop := (t.map (·.1)).Pairwise (· < ·) ∧ ∀ e ∈ t, e.2 ≠ d

theorem wf_iff [DecidableEq α] (d : α) (t : Table α) : Table.wf d t = true ↔ Canonical d t := by
  simp [Table.wf, Canonical]

theorem mem_erase {t : Table α} {k : Nat} {e : Nat × α} (h : e ∈ Table.erase t k) : e ∈ t ∧ e.1 ≠ k := by
  induction t with
  | nil => simp [Table.erase] at h
  | cons x rest ih =>
    obtain ⟨i, v⟩ := x
    simp only [Table.erase] at h
    by_cases hik : i = k
    · rw [if_pos hik] at h
      obtain ⟨h1, h2⟩ := ih h
      exact ⟨List.mem_cons_of_mem _ h1, h2⟩
    · rw [if_neg hik] at h
      rcases List.mem_cons.1 h with h | h
      · subst h; exact ⟨List.mem_cons_self, hik⟩
      · obtain ⟨h1, h2⟩ := ih h
        exact ⟨List.mem_cons_of_mem _ h1, h2⟩

theorem mem_insert {t : Table α} {k : Nat} {v : α} {e : Nat × α} (h : e ∈ Table.insert t k v) : e = (k, v) ∨ e ∈ t := by
  induction t with
  | nil => simpa [Table.insert] using h
  | cons x rest ih =>
    obtain ⟨i, w⟩ := x
    simp only [Table.insert] at h
    by_cases hki : k < i
    · rw [if_pos hki] at h
      rcases List.mem_cons.1 h with h | h
      · exact .inl h
      · exact .inr h
    · rw [if_neg hki] at h
      by_cases hik : i = k
      · rw [if_pos hik] at h
        rcases List.mem_cons.1 h with h | h
        · exact .inl h
        · exact .inr (List.mem_cons_of_mem _ h)
      · rw [if_neg hik] at h
        rcases List.mem_cons.1 h with h | h
        · exact .inr (h ▸ List.mem_cons_self)
        · rcases ih h with h | h
          · exact .inl h
          · exact .inr (List.mem_cons_of_mem _ h)

theorem canonical_erase [DecidableEq α] {d : α} {t : Table α} (h : Canonical d t) (k : Nat) : Canonical d (Table.erase t k) := by
  refine ⟨?_, fun e he => h.2 e (mem_erase he).1⟩
  obtain ⟨hp, -⟩ := h
  induction t with
  | nil => simp [Table.erase]
  | cons x rest ih =>
    obtain ⟨i, v⟩ := x
    rw [List.map_cons, List.pairwise_cons] at hp
    simp only [Table.erase]
    split
    · exact ih hp.2
    · rw [List.map_cons, List.pairwise_cons]
      refine ⟨fun a ha => ?_, ih hp.2⟩
      obtain ⟨e, he, rfl⟩ := List.mem_map.1 ha
      exact hp.1 _ (List.mem_map.2 ⟨e, (mem_erase he).1, rfl⟩)

theorem canonical_insert [DecidableEq α] {d : α} {t : Table α} (h : Canonical d t) (k : Nat) {v : α} (hv : v ≠ d) :
    Canonical d (Table.insert t k v) := by
  refine ⟨?_, fun e he => (mem_insert he).elim (fun h' => h' ▸ hv) (h.2 e)⟩
  obtain ⟨hp, -⟩ := h
  induction t with
  | nil => simp [Table.insert]
  | cons x rest ih =>
    obtain ⟨i, w⟩ := x
    have hp' := hp
    rw [List.map_cons, List.pairwise_cons] at hp
    simp only [Table.insert]
    split
    · next hki =>
      rw [List.map_cons, List.pairwise_cons]
      refine ⟨fun a ha => ?_, hp'⟩
      rw [List.map_cons] at ha
      rcases List.mem_cons.1 ha with rfl | ha
      · exact hki
      · exact lt_trans hki (hp.1 _ ha)
    · next hki =>
      split
      · next hik =>
        rw [List.map_cons, List.pairwise_cons]
        exact ⟨fun a ha => hik ▸ hp.1 a ha, hp.2⟩
      · next hik =>
        rw [List.map_cons, List.pairwise_cons]
        refine ⟨fun a ha => ?_, ih hp.2⟩
        obtain ⟨e, he, rfl⟩ := List.mem_map.1 ha
        rcases mem_insert he with rfl | he
        · exact lt_of_le_of_ne (not_lt.1 hki) hik
        · exact hp.1 _ (List.mem_map.2 ⟨e, he, rfl⟩)

theorem canonical_put [DecidableEq α] {d : α} {t : Table α} (h : Canonical d t) (k : Nat) (v : α) : Canonical d (Table.put d t k v) := by
  unfold Table.put
  split
  · exact canonical_erase h k
  · next hv => exact canonical_insert h k hv

theorem canonical_nil [DecidableEq α] (d : α) : Canonical d ([] : Table α) := ⟨List.Pairwise.nil, by simp⟩

theorem canonical_mapRecords [DecidableEq α] (d : α) (f : Nat → α → α) (t : Table α) : Canonical d (Table.mapRecords d f t) := by
  induction t with
  | nil => exact canonical_nil d
  | cons e rest ih => exact canonical_put ih _ _

/-- A write keeps the canonical form. -/
theorem wf_put [DecidableEq α] {d : α} {t : Table α} (h : Table.wf d t = true) (k : Nat) (v : α) : Table.wf d (Table.put d t k v) = true :=
  (wf_iff d _).2 (canonical_put ((wf_iff d t).1 h) k v)

/-- A table whose every record has been replaced is canonical. -/
theorem wf_mapRecords [DecidableEq α] (d : α) (f : Nat → α → α) (t : Table α) : Table.wf d (Table.mapRecords d f t) = true :=
  (wf_iff d _).2 (canonical_mapRecords d f t)

/-- A number that reads otherwise than the resting record is listed. -/
theorem mem_keys_of_get {d : α} {t : Table α} {k : Nat} (h : Table.get d t k ≠ d) : k ∈ Table.keys t := by
  induction t with
  | nil => exact absurd rfl h
  | cons e rest ih =>
    obtain ⟨i, v⟩ := e
    rw [get_cons] at h
    by_cases hik : i = k
    · simp [Table.keys, hik]
    · rw [if_neg hik] at h
      have := ih h
      simp only [Table.keys, List.map_cons, List.mem_cons] at *
      exact .inr this

/-- Every record replaced by `f` of it: the numbers listed read `f` of what they read, and the others stay at rest. -/
theorem get_mapRecords_keys [DecidableEq α] (d : α) (f : Nat → α → α) (t : Table α) (k : Nat) :
    Table.get d (Table.mapRecords d f t) k = if k ∈ Table.keys t then f k (Table.get d t k) else d := by
  induction t with
  | nil => simp [Table.mapRecords, Table.keys]
  | cons e rest ih =>
    obtain ⟨i, v⟩ := e
    simp only [Table.mapRecords, get_put, get_cons, ih, Table.keys, List.map_cons, List.mem_cons]
    by_cases h : k = i
    · simp [h]
    · by_cases hm : k ∈ rest.map (·.1) <;> simp [h, Ne.symm h, hm]

/-! ### The first place at which a test holds -/

theorem findPlace_none {α : Type} {p : α → Bool} {l : List α} : findPlace p l = none ↔ ∀ (i : Nat) (x : α), l[i]? = some x → p x = false := by
  induction l with
  | nil => simp [findPlace]
  | cons a l ih =>
    unfold findPlace
    by_cases h : p a = true
    · rw [if_pos h]
      refine ⟨fun e => (by cases e), fun e => ?_⟩
      have := e 0 a rfl
      rw [h] at this
      cases this
    · rw [if_neg h, Option.map_eq_none_iff, ih]
      refine ⟨fun e i x hx => ?_, fun e i x hx => e (i + 1) x hx⟩
      cases i with
      | zero => cases hx; simpa using h
      | succ i => exact e i x hx

theorem findPlace_some {α : Type} {p : α → Bool} {l : List α} {i : Nat} :
    findPlace p l = some i ↔ (∃ x, l[i]? = some x ∧ p x = true) ∧ ∀ (j : Nat) (x : α), j < i → l[j]? = some x → p x = false := by
  induction l generalizing i with
  | nil => simp [findPlace]
  | cons a l ih =>
    unfold findPlace
    by_cases h : p a = true
    · rw [if_pos h]
      constructor
      · intro e
        cases e
        exact ⟨⟨a, rfl, h⟩, fun j x hj => absurd hj (Nat.not_lt_zero j)⟩
      · rintro ⟨-, h2⟩
        cases i with
        | zero => rfl
        | succ i =>
          have := h2 0 a (Nat.succ_pos i) rfl
          rw [h] at this
          cases this
    · rw [if_neg h]
      cases i with
      | zero =>
        constructor
        · intro e
          obtain ⟨k, -, hk⟩ := Option.map_eq_some_iff.1 e
          cases hk
        · rintro ⟨⟨x, hx, hp⟩, -⟩
          cases hx
          exact absurd hp h
      | succ i =>
        rw [Option.map_eq_some_iff]
        constructor
        · rintro ⟨k, hk, e⟩
          cases e
          obtain ⟨h1, h2⟩ := ih.1 hk
          refine ⟨h1, fun j x hj hx => ?_⟩
          cases j with
          | zero => cases hx; simpa using h
          | succ j => exact h2 j x (Nat.lt_of_succ_lt_succ hj) hx
        · rintro ⟨h1, h2⟩
          exact ⟨i, ih.2 ⟨h1, fun j x hj hx => h2 (j + 1) x (Nat.succ_lt_succ hj) hx⟩, rfl⟩

end Sys2Proof.Laws
end

