-- ==== Sys2Proof/Laws/State.lean ====
section
/-!
SUPPORT. Laws/State.lean: what each write of `Machine/Ops.lean` leaves and what it changes, block by block and record by record. All but the reads of
the table written are true by `rfl`.
-/

namespace Sys2Proof.Laws

open Sys2Proof Sys2Proof.Machine

/-! ### Blocks that a write leaves -/

@[simp] theorem setDecl_core (s : State) (n : Nat) (d : Option SegDecl) : (s.setDecl n d).core = s.core := rfl
@[simp] theorem setDecl_junctions (s : State) (n : Nat) (d : Option SegDecl) : (s.setDecl n d).junctions = s.junctions := rfl
@[simp] theorem setDecl_orders (s : State) (n : Nat) (d : Option SegDecl) : (s.setDecl n d).orders = s.orders := rfl
@[simp] theorem setDecl_transfer (s : State) (n : Nat) (d : Option SegDecl) : (s.setDecl n d).transfer = s.transfer := rfl
@[simp] theorem setDecl_polls (s : State) (n : Nat) (d : Option SegDecl) : (s.setDecl n d).polls = s.polls := rfl
@[simp] theorem setDecl_guards (s : State) (n : Nat) (d : Option SegDecl) : (s.setDecl n d).guards = s.guards := rfl
@[simp] theorem setDecl_wayside (s : State) (n : Nat) (d : Option SegDecl) : (s.setDecl n d).wayside = s.wayside := rfl
@[simp] theorem setDecl_port (s : State) (n : Nat) (d : Option SegDecl) : (s.setDecl n d).port = s.port := rfl
@[simp] theorem setDecl_pending (s : State) (n : Nat) (d : Option SegDecl) : (s.setDecl n d).pending = s.pending := rfl
@[simp] theorem setDecl_agenda (s : State) (n : Nat) (d : Option SegDecl) : (s.setDecl n d).agenda = s.agenda := rfl
@[simp] theorem setDecl_due (s : State) (n : Nat) (d : Option SegDecl) : (s.setDecl n d).due = s.due := rfl
@[simp] theorem setDecl_late (s : State) (n : Nat) (d : Option SegDecl) : (s.setDecl n d).late = s.late := rfl
@[simp] theorem setDecl_holdEnding (s : State) (n : Nat) (d : Option SegDecl) : (s.setDecl n d).holdEnding = s.holdEnding := rfl
@[simp] theorem setDecl_freeCount (s : State) (n : Nat) (d : Option SegDecl) : (s.setDecl n d).freeCount = s.freeCount := rfl
@[simp] theorem setSeg_layout (s : State) (n : Nat) (r : SegDyn) : (s.setSeg n r).layout = s.layout := rfl
@[simp] theorem setSeg_junctions (s : State) (n : Nat) (r : SegDyn) : (s.setSeg n r).junctions = s.junctions := rfl
@[simp] theorem setSeg_orders (s : State) (n : Nat) (r : SegDyn) : (s.setSeg n r).orders = s.orders := rfl
@[simp] theorem setSeg_transfer (s : State) (n : Nat) (r : SegDyn) : (s.setSeg n r).transfer = s.transfer := rfl
@[simp] theorem setSeg_polls (s : State) (n : Nat) (r : SegDyn) : (s.setSeg n r).polls = s.polls := rfl
@[simp] theorem setSeg_guards (s : State) (n : Nat) (r : SegDyn) : (s.setSeg n r).guards = s.guards := rfl
@[simp] theorem setSeg_wayside (s : State) (n : Nat) (r : SegDyn) : (s.setSeg n r).wayside = s.wayside := rfl
@[simp] theorem setSeg_port (s : State) (n : Nat) (r : SegDyn) : (s.setSeg n r).port = s.port := rfl
@[simp] theorem setSeg_pending (s : State) (n : Nat) (r : SegDyn) : (s.setSeg n r).pending = s.pending := rfl
@[simp] theorem setSeg_agenda (s : State) (n : Nat) (r : SegDyn) : (s.setSeg n r).agenda = s.agenda := rfl
@[simp] theorem setSeg_due (s : State) (n : Nat) (r : SegDyn) : (s.setSeg n r).due = s.due := rfl
@[simp] theorem setSeg_late (s : State) (n : Nat) (r : SegDyn) : (s.setSeg n r).late = s.late := rfl
@[simp] theorem setSeg_holdEnding (s : State) (n : Nat) (r : SegDyn) : (s.setSeg n r).holdEnding = s.holdEnding := rfl
@[simp] theorem setSeg_freeCount (s : State) (n : Nat) (r : SegDyn) : (s.setSeg n r).freeCount = s.freeCount := rfl
@[simp] theorem setRun_layout (s : State) (t : Nat) (r : Option RunRec) : (s.setRun t r).layout = s.layout := rfl
@[simp] theorem setRun_junctions (s : State) (t : Nat) (r : Option RunRec) : (s.setRun t r).junctions = s.junctions := rfl
@[simp] theorem setRun_orders (s : State) (t : Nat) (r : Option RunRec) : (s.setRun t r).orders = s.orders := rfl
@[simp] theorem setRun_transfer (s : State) (t : Nat) (r : Option RunRec) : (s.setRun t r).transfer = s.transfer := rfl
@[simp] theorem setRun_polls (s : State) (t : Nat) (r : Option RunRec) : (s.setRun t r).polls = s.polls := rfl
@[simp] theorem setRun_guards (s : State) (t : Nat) (r : Option RunRec) : (s.setRun t r).guards = s.guards := rfl
@[simp] theorem setRun_wayside (s : State) (t : Nat) (r : Option RunRec) : (s.setRun t r).wayside = s.wayside := rfl
@[simp] theorem setRun_port (s : State) (t : Nat) (r : Option RunRec) : (s.setRun t r).port = s.port := rfl
@[simp] theorem setRun_pending (s : State) (t : Nat) (r : Option RunRec) : (s.setRun t r).pending = s.pending := rfl
@[simp] theorem setRun_agenda (s : State) (t : Nat) (r : Option RunRec) : (s.setRun t r).agenda = s.agenda := rfl
@[simp] theorem setRun_due (s : State) (t : Nat) (r : Option RunRec) : (s.setRun t r).due = s.due := rfl
@[simp] theorem setRun_late (s : State) (t : Nat) (r : Option RunRec) : (s.setRun t r).late = s.late := rfl
@[simp] theorem setRun_holdEnding (s : State) (t : Nat) (r : Option RunRec) : (s.setRun t r).holdEnding = s.holdEnding := rfl
@[simp] theorem setRun_freeCount (s : State) (t : Nat) (r : Option RunRec) : (s.setRun t r).freeCount = s.freeCount := rfl
@[simp] theorem setWaiting_layout (s : State) (w : List WaitEntry) : (s.setWaiting w).layout = s.layout := rfl
@[simp] theorem setWaiting_junctions (s : State) (w : List WaitEntry) : (s.setWaiting w).junctions = s.junctions := rfl
@[simp] theorem setWaiting_orders (s : State) (w : List WaitEntry) : (s.setWaiting w).orders = s.orders := rfl
@[simp] theorem setWaiting_transfer (s : State) (w : List WaitEntry) : (s.setWaiting w).transfer = s.transfer := rfl
@[simp] theorem setWaiting_polls (s : State) (w : List WaitEntry) : (s.setWaiting w).polls = s.polls := rfl
@[simp] theorem setWaiting_guards (s : State) (w : List WaitEntry) : (s.setWaiting w).guards = s.guards := rfl
@[simp] theorem setWaiting_wayside (s : State) (w : List WaitEntry) : (s.setWaiting w).wayside = s.wayside := rfl
@[simp] theorem setWaiting_port (s : State) (w : List WaitEntry) : (s.setWaiting w).port = s.port := rfl
@[simp] theorem setWaiting_pending (s : State) (w : List WaitEntry) : (s.setWaiting w).pending = s.pending := rfl
@[simp] theorem setWaiting_agenda (s : State) (w : List WaitEntry) : (s.setWaiting w).agenda = s.agenda := rfl
@[simp] theorem setWaiting_due (s : State) (w : List WaitEntry) : (s.setWaiting w).due = s.due := rfl
@[simp] theorem setWaiting_late (s : State) (w : List WaitEntry) : (s.setWaiting w).late = s.late := rfl
@[simp] theorem setWaiting_holdEnding (s : State) (w : List WaitEntry) : (s.setWaiting w).holdEnding = s.holdEnding := rfl
@[simp] theorem setWaiting_freeCount (s : State) (w : List WaitEntry) : (s.setWaiting w).freeCount = s.freeCount := rfl
@[simp] theorem setJunction_layout (s : State) (j : Nat) (r : Option JunctionRec) : (s.setJunction j r).layout = s.layout := rfl
@[simp] theorem setJunction_core (s : State) (j : Nat) (r : Option JunctionRec) : (s.setJunction j r).core = s.core := rfl
@[simp] theorem setJunction_orders (s : State) (j : Nat) (r : Option JunctionRec) : (s.setJunction j r).orders = s.orders := rfl
@[simp] theorem setJunction_transfer (s : State) (j : Nat) (r : Option JunctionRec) : (s.setJunction j r).transfer = s.transfer := rfl
@[simp] theorem setJunction_polls (s : State) (j : Nat) (r : Option JunctionRec) : (s.setJunction j r).polls = s.polls := rfl
@[simp] theorem setJunction_guards (s : State) (j : Nat) (r : Option JunctionRec) : (s.setJunction j r).guards = s.guards := rfl
@[simp] theorem setJunction_wayside (s : State) (j : Nat) (r : Option JunctionRec) : (s.setJunction j r).wayside = s.wayside := rfl
@[simp] theorem setJunction_port (s : State) (j : Nat) (r : Option JunctionRec) : (s.setJunction j r).port = s.port := rfl
@[simp] theorem setJunction_pending (s : State) (j : Nat) (r : Option JunctionRec) : (s.setJunction j r).pending = s.pending := rfl
@[simp] theorem setJunction_agenda (s : State) (j : Nat) (r : Option JunctionRec) : (s.setJunction j r).agenda = s.agenda := rfl
@[simp] theorem setJunction_due (s : State) (j : Nat) (r : Option JunctionRec) : (s.setJunction j r).due = s.due := rfl
@[simp] theorem setJunction_late (s : State) (j : Nat) (r : Option JunctionRec) : (s.setJunction j r).late = s.late := rfl
@[simp] theorem setJunction_holdEnding (s : State) (j : Nat) (r : Option JunctionRec) : (s.setJunction j r).holdEnding = s.holdEnding := rfl
@[simp] theorem setJunction_freeCount (s : State) (j : Nat) (r : Option JunctionRec) : (s.setJunction j r).freeCount = s.freeCount := rfl
@[simp] theorem setPointer_layout (s : State) (p : Option Nat) : (s.setPointer p).layout = s.layout := rfl
@[simp] theorem setPointer_core (s : State) (p : Option Nat) : (s.setPointer p).core = s.core := rfl
@[simp] theorem setPointer_orders (s : State) (p : Option Nat) : (s.setPointer p).orders = s.orders := rfl
@[simp] theorem setPointer_transfer (s : State) (p : Option Nat) : (s.setPointer p).transfer = s.transfer := rfl
@[simp] theorem setPointer_polls (s : State) (p : Option Nat) : (s.setPointer p).polls = s.polls := rfl
@[simp] theorem setPointer_guards (s : State) (p : Option Nat) : (s.setPointer p).guards = s.guards := rfl
@[simp] theorem setPointer_wayside (s : State) (p : Option Nat) : (s.setPointer p).wayside = s.wayside := rfl
@[simp] theorem setPointer_port (s : State) (p : Option Nat) : (s.setPointer p).port = s.port := rfl
@[simp] theorem setPointer_pending (s : State) (p : Option Nat) : (s.setPointer p).pending = s.pending := rfl
@[simp] theorem setPointer_agenda (s : State) (p : Option Nat) : (s.setPointer p).agenda = s.agenda := rfl
@[simp] theorem setPointer_due (s : State) (p : Option Nat) : (s.setPointer p).due = s.due := rfl
@[simp] theorem setPointer_late (s : State) (p : Option Nat) : (s.setPointer p).late = s.late := rfl
@[simp] theorem setPointer_holdEnding (s : State) (p : Option Nat) : (s.setPointer p).holdEnding = s.holdEnding := rfl
@[simp] theorem setPointer_freeCount (s : State) (p : Option Nat) : (s.setPointer p).freeCount = s.freeCount := rfl
@[simp] theorem setInterval_layout (s : State) (x : Timer) : (s.setInterval x).layout = s.layout := rfl
@[simp] theorem setInterval_core (s : State) (x : Timer) : (s.setInterval x).core = s.core := rfl
@[simp] theorem setInterval_orders (s : State) (x : Timer) : (s.setInterval x).orders = s.orders := rfl
@[simp] theorem setInterval_transfer (s : State) (x : Timer) : (s.setInterval x).transfer = s.transfer := rfl
@[simp] theorem setInterval_polls (s : State) (x : Timer) : (s.setInterval x).polls = s.polls := rfl
@[simp] theorem setInterval_guards (s : State) (x : Timer) : (s.setInterval x).guards = s.guards := rfl
@[simp] theorem setInterval_wayside (s : State) (x : Timer) : (s.setInterval x).wayside = s.wayside := rfl
@[simp] theorem setInterval_port (s : State) (x : Timer) : (s.setInterval x).port = s.port := rfl
@[simp] theorem setInterval_pending (s : State) (x : Timer) : (s.setInterval x).pending = s.pending := rfl
@[simp] theorem setInterval_agenda (s : State) (x : Timer) : (s.setInterval x).agenda = s.agenda := rfl
@[simp] theorem setInterval_due (s : State) (x : Timer) : (s.setInterval x).due = s.due := rfl
@[simp] theorem setInterval_late (s : State) (x : Timer) : (s.setInterval x).late = s.late := rfl
@[simp] theorem setInterval_holdEnding (s : State) (x : Timer) : (s.setInterval x).holdEnding = s.holdEnding := rfl
@[simp] theorem setInterval_freeCount (s : State) (x : Timer) : (s.setInterval x).freeCount = s.freeCount := rfl
@[simp] theorem setOrder_layout (s : State) (k : Nat) (o : Option Order) : (s.setOrder k o).layout = s.layout := rfl
@[simp] theorem setOrder_core (s : State) (k : Nat) (o : Option Order) : (s.setOrder k o).core = s.core := rfl
@[simp] theorem setOrder_junctions (s : State) (k : Nat) (o : Option Order) : (s.setOrder k o).junctions = s.junctions := rfl
@[simp] theorem setOrder_transfer (s : State) (k : Nat) (o : Option Order) : (s.setOrder k o).transfer = s.transfer := rfl
@[simp] theorem setOrder_polls (s : State) (k : Nat) (o : Option Order) : (s.setOrder k o).polls = s.polls := rfl
@[simp] theorem setOrder_guards (s : State) (k : Nat) (o : Option Order) : (s.setOrder k o).guards = s.guards := rfl
@[simp] theorem setOrder_wayside (s : State) (k : Nat) (o : Option Order) : (s.setOrder k o).wayside = s.wayside := rfl
@[simp] theorem setOrder_port (s : State) (k : Nat) (o : Option Order) : (s.setOrder k o).port = s.port := rfl
@[simp] theorem setOrder_pending (s : State) (k : Nat) (o : Option Order) : (s.setOrder k o).pending = s.pending := rfl
@[simp] theorem setOrder_agenda (s : State) (k : Nat) (o : Option Order) : (s.setOrder k o).agenda = s.agenda := rfl
@[simp] theorem setOrder_due (s : State) (k : Nat) (o : Option Order) : (s.setOrder k o).due = s.due := rfl
@[simp] theorem setOrder_late (s : State) (k : Nat) (o : Option Order) : (s.setOrder k o).late = s.late := rfl
@[simp] theorem setOrder_holdEnding (s : State) (k : Nat) (o : Option Order) : (s.setOrder k o).holdEnding = s.holdEnding := rfl
@[simp] theorem setOrder_freeCount (s : State) (k : Nat) (o : Option Order) : (s.setOrder k o).freeCount = s.freeCount := rfl
@[simp] theorem setRefs_layout (s : State) (t : Nat) (r : OrderRefs) : (s.setRefs t r).layout = s.layout := rfl
@[simp] theorem setRefs_core (s : State) (t : Nat) (r : OrderRefs) : (s.setRefs t r).core = s.core := rfl
@[simp] theorem setRefs_junctions (s : State) (t : Nat) (r : OrderRefs) : (s.setRefs t r).junctions = s.junctions := rfl
@[simp] theorem setRefs_transfer (s : State) (t : Nat) (r : OrderRefs) : (s.setRefs t r).transfer = s.transfer := rfl
@[simp] theorem setRefs_polls (s : State) (t : Nat) (r : OrderRefs) : (s.setRefs t r).polls = s.polls := rfl
@[simp] theorem setRefs_guards (s : State) (t : Nat) (r : OrderRefs) : (s.setRefs t r).guards = s.guards := rfl
@[simp] theorem setRefs_wayside (s : State) (t : Nat) (r : OrderRefs) : (s.setRefs t r).wayside = s.wayside := rfl
@[simp] theorem setRefs_port (s : State) (t : Nat) (r : OrderRefs) : (s.setRefs t r).port = s.port := rfl
@[simp] theorem setRefs_pending (s : State) (t : Nat) (r : OrderRefs) : (s.setRefs t r).pending = s.pending := rfl
@[simp] theorem setRefs_agenda (s : State) (t : Nat) (r : OrderRefs) : (s.setRefs t r).agenda = s.agenda := rfl
@[simp] theorem setRefs_due (s : State) (t : Nat) (r : OrderRefs) : (s.setRefs t r).due = s.due := rfl
@[simp] theorem setRefs_late (s : State) (t : Nat) (r : OrderRefs) : (s.setRefs t r).late = s.late := rfl
@[simp] theorem setRefs_holdEnding (s : State) (t : Nat) (r : OrderRefs) : (s.setRefs t r).holdEnding = s.holdEnding := rfl
@[simp] theorem setRefs_freeCount (s : State) (t : Nat) (r : OrderRefs) : (s.setRefs t r).freeCount = s.freeCount := rfl
@[simp] theorem setPad_layout (s : State) (p : Nat) (r : PadRec) : (s.setPad p r).layout = s.layout := rfl
@[simp] theorem setPad_core (s : State) (p : Nat) (r : PadRec) : (s.setPad p r).core = s.core := rfl
@[simp] theorem setPad_junctions (s : State) (p : Nat) (r : PadRec) : (s.setPad p r).junctions = s.junctions := rfl
@[simp] theorem setPad_orders (s : State) (p : Nat) (r : PadRec) : (s.setPad p r).orders = s.orders := rfl
@[simp] theorem setPad_polls (s : State) (p : Nat) (r : PadRec) : (s.setPad p r).polls = s.polls := rfl
@[simp] theorem setPad_guards (s : State) (p : Nat) (r : PadRec) : (s.setPad p r).guards = s.guards := rfl
@[simp] theorem setPad_wayside (s : State) (p : Nat) (r : PadRec) : (s.setPad p r).wayside = s.wayside := rfl
@[simp] theorem setPad_port (s : State) (p : Nat) (r : PadRec) : (s.setPad p r).port = s.port := rfl
@[simp] theorem setPad_pending (s : State) (p : Nat) (r : PadRec) : (s.setPad p r).pending = s.pending := rfl
@[simp] theorem setPad_agenda (s : State) (p : Nat) (r : PadRec) : (s.setPad p r).agenda = s.agenda := rfl
@[simp] theorem setPad_due (s : State) (p : Nat) (r : PadRec) : (s.setPad p r).due = s.due := rfl
@[simp] theorem setPad_late (s : State) (p : Nat) (r : PadRec) : (s.setPad p r).late = s.late := rfl
@[simp] theorem setPad_holdEnding (s : State) (p : Nat) (r : PadRec) : (s.setPad p r).holdEnding = s.holdEnding := rfl
@[simp] theorem setPad_freeCount (s : State) (p : Nat) (r : PadRec) : (s.setPad p r).freeCount = s.freeCount := rfl
@[simp] theorem setPlacement_layout (s : State) (x : Nat) (p : Placement) : (s.setPlacement x p).layout = s.layout := rfl
@[simp] theorem setPlacement_core (s : State) (x : Nat) (p : Placement) : (s.setPlacement x p).core = s.core := rfl
@[simp] theorem setPlacement_junctions (s : State) (x : Nat) (p : Placement) : (s.setPlacement x p).junctions = s.junctions := rfl
@[simp] theorem setPlacement_orders (s : State) (x : Nat) (p : Placement) : (s.setPlacement x p).orders = s.orders := rfl
@[simp] theorem setPlacement_polls (s : State) (x : Nat) (p : Placement) : (s.setPlacement x p).polls = s.polls := rfl
@[simp] theorem setPlacement_guards (s : State) (x : Nat) (p : Placement) : (s.setPlacement x p).guards = s.guards := rfl
@[simp] theorem setPlacement_wayside (s : State) (x : Nat) (p : Placement) : (s.setPlacement x p).wayside = s.wayside := rfl
@[simp] theorem setPlacement_port (s : State) (x : Nat) (p : Placement) : (s.setPlacement x p).port = s.port := rfl
@[simp] theorem setPlacement_pending (s : State) (x : Nat) (p : Placement) : (s.setPlacement x p).pending = s.pending := rfl
@[simp] theorem setPlacement_agenda (s : State) (x : Nat) (p : Placement) : (s.setPlacement x p).agenda = s.agenda := rfl
@[simp] theorem setPlacement_due (s : State) (x : Nat) (p : Placement) : (s.setPlacement x p).due = s.due := rfl
@[simp] theorem setPlacement_late (s : State) (x : Nat) (p : Placement) : (s.setPlacement x p).late = s.late := rfl
@[simp] theorem setPlacement_holdEnding (s : State) (x : Nat) (p : Placement) : (s.setPlacement x p).holdEnding = s.holdEnding := rfl
@[simp] theorem setPlacement_freeCount (s : State) (x : Nat) (p : Placement) : (s.setPlacement x p).freeCount = s.freeCount := rfl
@[simp] theorem setLoad_layout (s : State) (t : Nat) (l : Option Load) : (s.setLoad t l).layout = s.layout := rfl
@[simp] theorem setLoad_core (s : State) (t : Nat) (l : Option Load) : (s.setLoad t l).core = s.core := rfl
@[simp] theorem setLoad_junctions (s : State) (t : Nat) (l : Option Load) : (s.setLoad t l).junctions = s.junctions := rfl
@[simp] theorem setLoad_orders (s : State) (t : Nat) (l : Option Load) : (s.setLoad t l).orders = s.orders := rfl
@[simp] theorem setLoad_polls (s : State) (t : Nat) (l : Option Load) : (s.setLoad t l).polls = s.polls := rfl
@[simp] theorem setLoad_guards (s : State) (t : Nat) (l : Option Load) : (s.setLoad t l).guards = s.guards := rfl
@[simp] theorem setLoad_wayside (s : State) (t : Nat) (l : Option Load) : (s.setLoad t l).wayside = s.wayside := rfl
@[simp] theorem setLoad_port (s : State) (t : Nat) (l : Option Load) : (s.setLoad t l).port = s.port := rfl
@[simp] theorem setLoad_pending (s : State) (t : Nat) (l : Option Load) : (s.setLoad t l).pending = s.pending := rfl
@[simp] theorem setLoad_agenda (s : State) (t : Nat) (l : Option Load) : (s.setLoad t l).agenda = s.agenda := rfl
@[simp] theorem setLoad_due (s : State) (t : Nat) (l : Option Load) : (s.setLoad t l).due = s.due := rfl
@[simp] theorem setLoad_late (s : State) (t : Nat) (l : Option Load) : (s.setLoad t l).late = s.late := rfl
@[simp] theorem setLoad_holdEnding (s : State) (t : Nat) (l : Option Load) : (s.setLoad t l).holdEnding = s.holdEnding := rfl
@[simp] theorem setLoad_freeCount (s : State) (t : Nat) (l : Option Load) : (s.setLoad t l).freeCount = s.freeCount := rfl
@[simp] theorem setTransfer_layout (s : State) (p : Nat) (r : Option TransferRec) : (s.setTransfer p r).layout = s.layout := rfl
@[simp] theorem setTransfer_core (s : State) (p : Nat) (r : Option TransferRec) : (s.setTransfer p r).core = s.core := rfl
@[simp] theorem setTransfer_junctions (s : State) (p : Nat) (r : Option TransferRec) : (s.setTransfer p r).junctions = s.junctions := rfl
@[simp] theorem setTransfer_orders (s : State) (p : Nat) (r : Option TransferRec) : (s.setTransfer p r).orders = s.orders := rfl
@[simp] theorem setTransfer_polls (s : State) (p : Nat) (r : Option TransferRec) : (s.setTransfer p r).polls = s.polls := rfl
@[simp] theorem setTransfer_guards (s : State) (p : Nat) (r : Option TransferRec) : (s.setTransfer p r).guards = s.guards := rfl
@[simp] theorem setTransfer_wayside (s : State) (p : Nat) (r : Option TransferRec) : (s.setTransfer p r).wayside = s.wayside := rfl
@[simp] theorem setTransfer_port (s : State) (p : Nat) (r : Option TransferRec) : (s.setTransfer p r).port = s.port := rfl
@[simp] theorem setTransfer_pending (s : State) (p : Nat) (r : Option TransferRec) : (s.setTransfer p r).pending = s.pending := rfl
@[simp] theorem setTransfer_agenda (s : State) (p : Nat) (r : Option TransferRec) : (s.setTransfer p r).agenda = s.agenda := rfl
@[simp] theorem setTransfer_due (s : State) (p : Nat) (r : Option TransferRec) : (s.setTransfer p r).due = s.due := rfl
@[simp] theorem setTransfer_late (s : State) (p : Nat) (r : Option TransferRec) : (s.setTransfer p r).late = s.late := rfl
@[simp] theorem setTransfer_holdEnding (s : State) (p : Nat) (r : Option TransferRec) : (s.setTransfer p r).holdEnding = s.holdEnding := rfl
@[simp] theorem setTransfer_freeCount (s : State) (p : Nat) (r : Option TransferRec) : (s.setTransfer p r).freeCount = s.freeCount := rfl
@[simp] theorem setTrain_layout (s : State) (t : Nat) (r : Option TransporterRec) : (s.setTrain t r).layout = s.layout := rfl
@[simp] theorem setTrain_core (s : State) (t : Nat) (r : Option TransporterRec) : (s.setTrain t r).core = s.core := rfl
@[simp] theorem setTrain_junctions (s : State) (t : Nat) (r : Option TransporterRec) : (s.setTrain t r).junctions = s.junctions := rfl
@[simp] theorem setTrain_orders (s : State) (t : Nat) (r : Option TransporterRec) : (s.setTrain t r).orders = s.orders := rfl
@[simp] theorem setTrain_transfer (s : State) (t : Nat) (r : Option TransporterRec) : (s.setTrain t r).transfer = s.transfer := rfl
@[simp] theorem setTrain_guards (s : State) (t : Nat) (r : Option TransporterRec) : (s.setTrain t r).guards = s.guards := rfl
@[simp] theorem setTrain_wayside (s : State) (t : Nat) (r : Option TransporterRec) : (s.setTrain t r).wayside = s.wayside := rfl
@[simp] theorem setTrain_port (s : State) (t : Nat) (r : Option TransporterRec) : (s.setTrain t r).port = s.port := rfl
@[simp] theorem setTrain_pending (s : State) (t : Nat) (r : Option TransporterRec) : (s.setTrain t r).pending = s.pending := rfl
@[simp] theorem setTrain_agenda (s : State) (t : Nat) (r : Option TransporterRec) : (s.setTrain t r).agenda = s.agenda := rfl
@[simp] theorem setTrain_due (s : State) (t : Nat) (r : Option TransporterRec) : (s.setTrain t r).due = s.due := rfl
@[simp] theorem setTrain_late (s : State) (t : Nat) (r : Option TransporterRec) : (s.setTrain t r).late = s.late := rfl
@[simp] theorem setTrain_holdEnding (s : State) (t : Nat) (r : Option TransporterRec) : (s.setTrain t r).holdEnding = s.holdEnding := rfl
@[simp] theorem setTrain_freeCount (s : State) (t : Nat) (r : Option TransporterRec) : (s.setTrain t r).freeCount = s.freeCount := rfl
@[simp] theorem setGrantMap_layout (s : State) (k : Nat) (m : GrantMap) : (s.setGrantMap k m).layout = s.layout := rfl
@[simp] theorem setGrantMap_core (s : State) (k : Nat) (m : GrantMap) : (s.setGrantMap k m).core = s.core := rfl
@[simp] theorem setGrantMap_junctions (s : State) (k : Nat) (m : GrantMap) : (s.setGrantMap k m).junctions = s.junctions := rfl
@[simp] theorem setGrantMap_orders (s : State) (k : Nat) (m : GrantMap) : (s.setGrantMap k m).orders = s.orders := rfl
@[simp] theorem setGrantMap_transfer (s : State) (k : Nat) (m : GrantMap) : (s.setGrantMap k m).transfer = s.transfer := rfl
@[simp] theorem setGrantMap_polls (s : State) (k : Nat) (m : GrantMap) : (s.setGrantMap k m).polls = s.polls := rfl
@[simp] theorem setGrantMap_wayside (s : State) (k : Nat) (m : GrantMap) : (s.setGrantMap k m).wayside = s.wayside := rfl
@[simp] theorem setGrantMap_port (s : State) (k : Nat) (m : GrantMap) : (s.setGrantMap k m).port = s.port := rfl
@[simp] theorem setGrantMap_pending (s : State) (k : Nat) (m : GrantMap) : (s.setGrantMap k m).pending = s.pending := rfl
@[simp] theorem setGrantMap_agenda (s : State) (k : Nat) (m : GrantMap) : (s.setGrantMap k m).agenda = s.agenda := rfl
@[simp] theorem setGrantMap_due (s : State) (k : Nat) (m : GrantMap) : (s.setGrantMap k m).due = s.due := rfl
@[simp] theorem setGrantMap_late (s : State) (k : Nat) (m : GrantMap) : (s.setGrantMap k m).late = s.late := rfl
@[simp] theorem setGrantMap_holdEnding (s : State) (k : Nat) (m : GrantMap) : (s.setGrantMap k m).holdEnding = s.holdEnding := rfl
@[simp] theorem setGrantMap_freeCount (s : State) (k : Nat) (m : GrantMap) : (s.setGrantMap k m).freeCount = s.freeCount := rfl
@[simp] theorem setFence_layout (s : State) (k : Nat) (f : Option Fence) : (s.setFence k f).layout = s.layout := rfl
@[simp] theorem setFence_core (s : State) (k : Nat) (f : Option Fence) : (s.setFence k f).core = s.core := rfl
@[simp] theorem setFence_junctions (s : State) (k : Nat) (f : Option Fence) : (s.setFence k f).junctions = s.junctions := rfl
@[simp] theorem setFence_orders (s : State) (k : Nat) (f : Option Fence) : (s.setFence k f).orders = s.orders := rfl
@[simp] theorem setFence_transfer (s : State) (k : Nat) (f : Option Fence) : (s.setFence k f).transfer = s.transfer := rfl
@[simp] theorem setFence_polls (s : State) (k : Nat) (f : Option Fence) : (s.setFence k f).polls = s.polls := rfl
@[simp] theorem setFence_wayside (s : State) (k : Nat) (f : Option Fence) : (s.setFence k f).wayside = s.wayside := rfl
@[simp] theorem setFence_port (s : State) (k : Nat) (f : Option Fence) : (s.setFence k f).port = s.port := rfl
@[simp] theorem setFence_pending (s : State) (k : Nat) (f : Option Fence) : (s.setFence k f).pending = s.pending := rfl
@[simp] theorem setFence_agenda (s : State) (k : Nat) (f : Option Fence) : (s.setFence k f).agenda = s.agenda := rfl
@[simp] theorem setFence_due (s : State) (k : Nat) (f : Option Fence) : (s.setFence k f).due = s.due := rfl
@[simp] theorem setFence_late (s : State) (k : Nat) (f : Option Fence) : (s.setFence k f).late = s.late := rfl
@[simp] theorem setFence_holdEnding (s : State) (k : Nat) (f : Option Fence) : (s.setFence k f).holdEnding = s.holdEnding := rfl
@[simp] theorem setFence_freeCount (s : State) (k : Nat) (f : Option Fence) : (s.setFence k f).freeCount = s.freeCount := rfl
@[simp] theorem setFenced_layout (s : State) (l : List FencedEntry) : (s.setFenced l).layout = s.layout := rfl
@[simp] theorem setFenced_core (s : State) (l : List FencedEntry) : (s.setFenced l).core = s.core := rfl
@[simp] theorem setFenced_junctions (s : State) (l : List FencedEntry) : (s.setFenced l).junctions = s.junctions := rfl
@[simp] theorem setFenced_orders (s : State) (l : List FencedEntry) : (s.setFenced l).orders = s.orders := rfl
@[simp] theorem setFenced_transfer (s : State) (l : List FencedEntry) : (s.setFenced l).transfer = s.transfer := rfl
@[simp] theorem setFenced_polls (s : State) (l : List FencedEntry) : (s.setFenced l).polls = s.polls := rfl
@[simp] theorem setFenced_wayside (s : State) (l : List FencedEntry) : (s.setFenced l).wayside = s.wayside := rfl
@[simp] theorem setFenced_port (s : State) (l : List FencedEntry) : (s.setFenced l).port = s.port := rfl
@[simp] theorem setFenced_pending (s : State) (l : List FencedEntry) : (s.setFenced l).pending = s.pending := rfl
@[simp] theorem setFenced_agenda (s : State) (l : List FencedEntry) : (s.setFenced l).agenda = s.agenda := rfl
@[simp] theorem setFenced_due (s : State) (l : List FencedEntry) : (s.setFenced l).due = s.due := rfl
@[simp] theorem setFenced_late (s : State) (l : List FencedEntry) : (s.setFenced l).late = s.late := rfl
@[simp] theorem setFenced_holdEnding (s : State) (l : List FencedEntry) : (s.setFenced l).holdEnding = s.holdEnding := rfl
@[simp] theorem setFenced_freeCount (s : State) (l : List FencedEntry) : (s.setFenced l).freeCount = s.freeCount := rfl
@[simp] theorem setHold_layout (s : State) (x : HoldSources) : (s.setHold x).layout = s.layout := rfl
@[simp] theorem setHold_core (s : State) (x : HoldSources) : (s.setHold x).core = s.core := rfl
@[simp] theorem setHold_junctions (s : State) (x : HoldSources) : (s.setHold x).junctions = s.junctions := rfl
@[simp] theorem setHold_orders (s : State) (x : HoldSources) : (s.setHold x).orders = s.orders := rfl
@[simp] theorem setHold_transfer (s : State) (x : HoldSources) : (s.setHold x).transfer = s.transfer := rfl
@[simp] theorem setHold_polls (s : State) (x : HoldSources) : (s.setHold x).polls = s.polls := rfl
@[simp] theorem setHold_wayside (s : State) (x : HoldSources) : (s.setHold x).wayside = s.wayside := rfl
@[simp] theorem setHold_port (s : State) (x : HoldSources) : (s.setHold x).port = s.port := rfl
@[simp] theorem setHold_pending (s : State) (x : HoldSources) : (s.setHold x).pending = s.pending := rfl
@[simp] theorem setHold_agenda (s : State) (x : HoldSources) : (s.setHold x).agenda = s.agenda := rfl
@[simp] theorem setHold_due (s : State) (x : HoldSources) : (s.setHold x).due = s.due := rfl
@[simp] theorem setHold_late (s : State) (x : HoldSources) : (s.setHold x).late = s.late := rfl
@[simp] theorem setHold_holdEnding (s : State) (x : HoldSources) : (s.setHold x).holdEnding = s.holdEnding := rfl
@[simp] theorem setHold_freeCount (s : State) (x : HoldSources) : (s.setHold x).freeCount = s.freeCount := rfl
@[simp] theorem setOutQueue_layout (s : State) (q : List OutMessage) : (s.setOutQueue q).layout = s.layout := rfl
@[simp] theorem setOutQueue_core (s : State) (q : List OutMessage) : (s.setOutQueue q).core = s.core := rfl
@[simp] theorem setOutQueue_junctions (s : State) (q : List OutMessage) : (s.setOutQueue q).junctions = s.junctions := rfl
@[simp] theorem setOutQueue_orders (s : State) (q : List OutMessage) : (s.setOutQueue q).orders = s.orders := rfl
@[simp] theorem setOutQueue_transfer (s : State) (q : List OutMessage) : (s.setOutQueue q).transfer = s.transfer := rfl
@[simp] theorem setOutQueue_polls (s : State) (q : List OutMessage) : (s.setOutQueue q).polls = s.polls := rfl
@[simp] theorem setOutQueue_guards (s : State) (q : List OutMessage) : (s.setOutQueue q).guards = s.guards := rfl
@[simp] theorem setOutQueue_port (s : State) (q : List OutMessage) : (s.setOutQueue q).port = s.port := rfl
@[simp] theorem setOutQueue_pending (s : State) (q : List OutMessage) : (s.setOutQueue q).pending = s.pending := rfl
@[simp] theorem setOutQueue_agenda (s : State) (q : List OutMessage) : (s.setOutQueue q).agenda = s.agenda := rfl
@[simp] theorem setOutQueue_due (s : State) (q : List OutMessage) : (s.setOutQueue q).due = s.due := rfl
@[simp] theorem setOutQueue_late (s : State) (q : List OutMessage) : (s.setOutQueue q).late = s.late := rfl
@[simp] theorem setOutQueue_holdEnding (s : State) (q : List OutMessage) : (s.setOutQueue q).holdEnding = s.holdEnding := rfl
@[simp] theorem setOutQueue_freeCount (s : State) (q : List OutMessage) : (s.setOutQueue q).freeCount = s.freeCount := rfl
@[simp] theorem setTransmitter_layout (s : State) (x : Transmitter) : (s.setTransmitter x).layout = s.layout := rfl
@[simp] theorem setTransmitter_core (s : State) (x : Transmitter) : (s.setTransmitter x).core = s.core := rfl
@[simp] theorem setTransmitter_junctions (s : State) (x : Transmitter) : (s.setTransmitter x).junctions = s.junctions := rfl
@[simp] theorem setTransmitter_orders (s : State) (x : Transmitter) : (s.setTransmitter x).orders = s.orders := rfl
@[simp] theorem setTransmitter_transfer (s : State) (x : Transmitter) : (s.setTransmitter x).transfer = s.transfer := rfl
@[simp] theorem setTransmitter_polls (s : State) (x : Transmitter) : (s.setTransmitter x).polls = s.polls := rfl
@[simp] theorem setTransmitter_guards (s : State) (x : Transmitter) : (s.setTransmitter x).guards = s.guards := rfl
@[simp] theorem setTransmitter_port (s : State) (x : Transmitter) : (s.setTransmitter x).port = s.port := rfl
@[simp] theorem setTransmitter_pending (s : State) (x : Transmitter) : (s.setTransmitter x).pending = s.pending := rfl
@[simp] theorem setTransmitter_agenda (s : State) (x : Transmitter) : (s.setTransmitter x).agenda = s.agenda := rfl
@[simp] theorem setTransmitter_due (s : State) (x : Transmitter) : (s.setTransmitter x).due = s.due := rfl
@[simp] theorem setTransmitter_late (s : State) (x : Transmitter) : (s.setTransmitter x).late = s.late := rfl
@[simp] theorem setTransmitter_holdEnding (s : State) (x : Transmitter) : (s.setTransmitter x).holdEnding = s.holdEnding := rfl
@[simp] theorem setTransmitter_freeCount (s : State) (x : Transmitter) : (s.setTransmitter x).freeCount = s.freeCount := rfl
@[simp] theorem setReceiver_layout (s : State) (r : Receiver) : (s.setReceiver r).layout = s.layout := rfl
@[simp] theorem setReceiver_core (s : State) (r : Receiver) : (s.setReceiver r).core = s.core := rfl
@[simp] theorem setReceiver_junctions (s : State) (r : Receiver) : (s.setReceiver r).junctions = s.junctions := rfl
@[simp] theorem setReceiver_orders (s : State) (r : Receiver) : (s.setReceiver r).orders = s.orders := rfl
@[simp] theorem setReceiver_transfer (s : State) (r : Receiver) : (s.setReceiver r).transfer = s.transfer := rfl
@[simp] theorem setReceiver_polls (s : State) (r : Receiver) : (s.setReceiver r).polls = s.polls := rfl
@[simp] theorem setReceiver_guards (s : State) (r : Receiver) : (s.setReceiver r).guards = s.guards := rfl
@[simp] theorem setReceiver_port (s : State) (r : Receiver) : (s.setReceiver r).port = s.port := rfl
@[simp] theorem setReceiver_pending (s : State) (r : Receiver) : (s.setReceiver r).pending = s.pending := rfl
@[simp] theorem setReceiver_agenda (s : State) (r : Receiver) : (s.setReceiver r).agenda = s.agenda := rfl
@[simp] theorem setReceiver_due (s : State) (r : Receiver) : (s.setReceiver r).due = s.due := rfl
@[simp] theorem setReceiver_late (s : State) (r : Receiver) : (s.setReceiver r).late = s.late := rfl
@[simp] theorem setReceiver_holdEnding (s : State) (r : Receiver) : (s.setReceiver r).holdEnding = s.holdEnding := rfl
@[simp] theorem setReceiver_freeCount (s : State) (r : Receiver) : (s.setReceiver r).freeCount = s.freeCount := rfl
@[simp] theorem setInQueue_layout (s : State) (q : List InMessage) : (s.setInQueue q).layout = s.layout := rfl
@[simp] theorem setInQueue_core (s : State) (q : List InMessage) : (s.setInQueue q).core = s.core := rfl
@[simp] theorem setInQueue_junctions (s : State) (q : List InMessage) : (s.setInQueue q).junctions = s.junctions := rfl
@[simp] theorem setInQueue_orders (s : State) (q : List InMessage) : (s.setInQueue q).orders = s.orders := rfl
@[simp] theorem setInQueue_transfer (s : State) (q : List InMessage) : (s.setInQueue q).transfer = s.transfer := rfl
@[simp] theorem setInQueue_polls (s : State) (q : List InMessage) : (s.setInQueue q).polls = s.polls := rfl
@[simp] theorem setInQueue_guards (s : State) (q : List InMessage) : (s.setInQueue q).guards = s.guards := rfl
@[simp] theorem setInQueue_port (s : State) (q : List InMessage) : (s.setInQueue q).port = s.port := rfl
@[simp] theorem setInQueue_pending (s : State) (q : List InMessage) : (s.setInQueue q).pending = s.pending := rfl
@[simp] theorem setInQueue_agenda (s : State) (q : List InMessage) : (s.setInQueue q).agenda = s.agenda := rfl
@[simp] theorem setInQueue_due (s : State) (q : List InMessage) : (s.setInQueue q).due = s.due := rfl
@[simp] theorem setInQueue_late (s : State) (q : List InMessage) : (s.setInQueue q).late = s.late := rfl
@[simp] theorem setInQueue_holdEnding (s : State) (q : List InMessage) : (s.setInQueue q).holdEnding = s.holdEnding := rfl
@[simp] theorem setInQueue_freeCount (s : State) (q : List InMessage) : (s.setInQueue q).freeCount = s.freeCount := rfl
@[simp] theorem setRequests_layout (s : State) (q : List QueuedRequest) : (s.setRequests q).layout = s.layout := rfl
@[simp] theorem setRequests_core (s : State) (q : List QueuedRequest) : (s.setRequests q).core = s.core := rfl
@[simp] theorem setRequests_junctions (s : State) (q : List QueuedRequest) : (s.setRequests q).junctions = s.junctions := rfl
@[simp] theorem setRequests_orders (s : State) (q : List QueuedRequest) : (s.setRequests q).orders = s.orders := rfl
@[simp] theorem setRequests_transfer (s : State) (q : List QueuedRequest) : (s.setRequests q).transfer = s.transfer := rfl
@[simp] theorem setRequests_polls (s : State) (q : List QueuedRequest) : (s.setRequests q).polls = s.polls := rfl
@[simp] theorem setRequests_guards (s : State) (q : List QueuedRequest) : (s.setRequests q).guards = s.guards := rfl
@[simp] theorem setRequests_wayside (s : State) (q : List QueuedRequest) : (s.setRequests q).wayside = s.wayside := rfl
@[simp] theorem setRequests_pending (s : State) (q : List QueuedRequest) : (s.setRequests q).pending = s.pending := rfl
@[simp] theorem setRequests_agenda (s : State) (q : List QueuedRequest) : (s.setRequests q).agenda = s.agenda := rfl
@[simp] theorem setRequests_due (s : State) (q : List QueuedRequest) : (s.setRequests q).due = s.due := rfl
@[simp] theorem setRequests_late (s : State) (q : List QueuedRequest) : (s.setRequests q).late = s.late := rfl
@[simp] theorem setRequests_holdEnding (s : State) (q : List QueuedRequest) : (s.setRequests q).holdEnding = s.holdEnding := rfl
@[simp] theorem setRequests_freeCount (s : State) (q : List QueuedRequest) : (s.setRequests q).freeCount = s.freeCount := rfl
@[simp] theorem setAnswers_layout (s : State) (q : List Answer) : (s.setAnswers q).layout = s.layout := rfl
@[simp] theorem setAnswers_core (s : State) (q : List Answer) : (s.setAnswers q).core = s.core := rfl
@[simp] theorem setAnswers_junctions (s : State) (q : List Answer) : (s.setAnswers q).junctions = s.junctions := rfl
@[simp] theorem setAnswers_orders (s : State) (q : List Answer) : (s.setAnswers q).orders = s.orders := rfl
@[simp] theorem setAnswers_transfer (s : State) (q : List Answer) : (s.setAnswers q).transfer = s.transfer := rfl
@[simp] theorem setAnswers_polls (s : State) (q : List Answer) : (s.setAnswers q).polls = s.polls := rfl
@[simp] theorem setAnswers_guards (s : State) (q : List Answer) : (s.setAnswers q).guards = s.guards := rfl
@[simp] theorem setAnswers_wayside (s : State) (q : List Answer) : (s.setAnswers q).wayside = s.wayside := rfl
@[simp] theorem setAnswers_pending (s : State) (q : List Answer) : (s.setAnswers q).pending = s.pending := rfl
@[simp] theorem setAnswers_agenda (s : State) (q : List Answer) : (s.setAnswers q).agenda = s.agenda := rfl
@[simp] theorem setAnswers_due (s : State) (q : List Answer) : (s.setAnswers q).due = s.due := rfl
@[simp] theorem setAnswers_late (s : State) (q : List Answer) : (s.setAnswers q).late = s.late := rfl
@[simp] theorem setAnswers_holdEnding (s : State) (q : List Answer) : (s.setAnswers q).holdEnding = s.holdEnding := rfl
@[simp] theorem setAnswers_freeCount (s : State) (q : List Answer) : (s.setAnswers q).freeCount = s.freeCount := rfl
@[simp] theorem setWindow_layout (s : State) (w : Window) : (s.setWindow w).layout = s.layout := rfl
@[simp] theorem setWindow_core (s : State) (w : Window) : (s.setWindow w).core = s.core := rfl
@[simp] theorem setWindow_junctions (s : State) (w : Window) : (s.setWindow w).junctions = s.junctions := rfl
@[simp] theorem setWindow_orders (s : State) (w : Window) : (s.setWindow w).orders = s.orders := rfl
@[simp] theorem setWindow_transfer (s : State) (w : Window) : (s.setWindow w).transfer = s.transfer := rfl
@[simp] theorem setWindow_polls (s : State) (w : Window) : (s.setWindow w).polls = s.polls := rfl
@[simp] theorem setWindow_guards (s : State) (w : Window) : (s.setWindow w).guards = s.guards := rfl
@[simp] theorem setWindow_wayside (s : State) (w : Window) : (s.setWindow w).wayside = s.wayside := rfl
@[simp] theorem setWindow_pending (s : State) (w : Window) : (s.setWindow w).pending = s.pending := rfl
@[simp] theorem setWindow_agenda (s : State) (w : Window) : (s.setWindow w).agenda = s.agenda := rfl
@[simp] theorem setWindow_due (s : State) (w : Window) : (s.setWindow w).due = s.due := rfl
@[simp] theorem setWindow_late (s : State) (w : Window) : (s.setWindow w).late = s.late := rfl
@[simp] theorem setWindow_holdEnding (s : State) (w : Window) : (s.setWindow w).holdEnding = s.holdEnding := rfl
@[simp] theorem setWindow_freeCount (s : State) (w : Window) : (s.setWindow w).freeCount = s.freeCount := rfl
@[simp] theorem setFlags_layout (s : State) (f : StickyFlags) : (s.setFlags f).layout = s.layout := rfl
@[simp] theorem setFlags_core (s : State) (f : StickyFlags) : (s.setFlags f).core = s.core := rfl
@[simp] theorem setFlags_junctions (s : State) (f : StickyFlags) : (s.setFlags f).junctions = s.junctions := rfl
@[simp] theorem setFlags_orders (s : State) (f : StickyFlags) : (s.setFlags f).orders = s.orders := rfl
@[simp] theorem setFlags_transfer (s : State) (f : StickyFlags) : (s.setFlags f).transfer = s.transfer := rfl
@[simp] theorem setFlags_polls (s : State) (f : StickyFlags) : (s.setFlags f).polls = s.polls := rfl
@[simp] theorem setFlags_guards (s : State) (f : StickyFlags) : (s.setFlags f).guards = s.guards := rfl
@[simp] theorem setFlags_wayside (s : State) (f : StickyFlags) : (s.setFlags f).wayside = s.wayside := rfl
@[simp] theorem setFlags_pending (s : State) (f : StickyFlags) : (s.setFlags f).pending = s.pending := rfl
@[simp] theorem setFlags_agenda (s : State) (f : StickyFlags) : (s.setFlags f).agenda = s.agenda := rfl
@[simp] theorem setFlags_due (s : State) (f : StickyFlags) : (s.setFlags f).due = s.due := rfl
@[simp] theorem setFlags_late (s : State) (f : StickyFlags) : (s.setFlags f).late = s.late := rfl
@[simp] theorem setFlags_holdEnding (s : State) (f : StickyFlags) : (s.setFlags f).holdEnding = s.holdEnding := rfl
@[simp] theorem setFlags_freeCount (s : State) (f : StickyFlags) : (s.setFlags f).freeCount = s.freeCount := rfl
@[simp] theorem setNotices_layout (s : State) (l : List Notice) : (s.setNotices l).layout = s.layout := rfl
@[simp] theorem setNotices_core (s : State) (l : List Notice) : (s.setNotices l).core = s.core := rfl
@[simp] theorem setNotices_junctions (s : State) (l : List Notice) : (s.setNotices l).junctions = s.junctions := rfl
@[simp] theorem setNotices_orders (s : State) (l : List Notice) : (s.setNotices l).orders = s.orders := rfl
@[simp] theorem setNotices_transfer (s : State) (l : List Notice) : (s.setNotices l).transfer = s.transfer := rfl
@[simp] theorem setNotices_polls (s : State) (l : List Notice) : (s.setNotices l).polls = s.polls := rfl
@[simp] theorem setNotices_guards (s : State) (l : List Notice) : (s.setNotices l).guards = s.guards := rfl
@[simp] theorem setNotices_wayside (s : State) (l : List Notice) : (s.setNotices l).wayside = s.wayside := rfl
@[simp] theorem setNotices_pending (s : State) (l : List Notice) : (s.setNotices l).pending = s.pending := rfl
@[simp] theorem setNotices_agenda (s : State) (l : List Notice) : (s.setNotices l).agenda = s.agenda := rfl
@[simp] theorem setNotices_due (s : State) (l : List Notice) : (s.setNotices l).due = s.due := rfl
@[simp] theorem setNotices_late (s : State) (l : List Notice) : (s.setNotices l).late = s.late := rfl
@[simp] theorem setNotices_holdEnding (s : State) (l : List Notice) : (s.setNotices l).holdEnding = s.holdEnding := rfl
@[simp] theorem setNotices_freeCount (s : State) (l : List Notice) : (s.setNotices l).freeCount = s.freeCount := rfl
@[simp] theorem emit_layout (s : State) (xs : List Task) : (s.emit xs).layout = s.layout := rfl
@[simp] theorem emit_core (s : State) (xs : List Task) : (s.emit xs).core = s.core := rfl
@[simp] theorem emit_junctions (s : State) (xs : List Task) : (s.emit xs).junctions = s.junctions := rfl
@[simp] theorem emit_orders (s : State) (xs : List Task) : (s.emit xs).orders = s.orders := rfl
@[simp] theorem emit_transfer (s : State) (xs : List Task) : (s.emit xs).transfer = s.transfer := rfl
@[simp] theorem emit_polls (s : State) (xs : List Task) : (s.emit xs).polls = s.polls := rfl
@[simp] theorem emit_guards (s : State) (xs : List Task) : (s.emit xs).guards = s.guards := rfl
@[simp] theorem emit_wayside (s : State) (xs : List Task) : (s.emit xs).wayside = s.wayside := rfl
@[simp] theorem emit_port (s : State) (xs : List Task) : (s.emit xs).port = s.port := rfl
@[simp] theorem emit_pending (s : State) (xs : List Task) : (s.emit xs).pending = s.pending := rfl
@[simp] theorem emit_due (s : State) (xs : List Task) : (s.emit xs).due = s.due := rfl
@[simp] theorem emit_late (s : State) (xs : List Task) : (s.emit xs).late = s.late := rfl
@[simp] theorem emit_holdEnding (s : State) (xs : List Task) : (s.emit xs).holdEnding = s.holdEnding := rfl
@[simp] theorem emit_freeCount (s : State) (xs : List Task) : (s.emit xs).freeCount = s.freeCount := rfl
@[simp] theorem makeDue_layout (s : State) (k : Nat) : (s.makeDue k).layout = s.layout := rfl
@[simp] theorem makeDue_core (s : State) (k : Nat) : (s.makeDue k).core = s.core := rfl
@[simp] theorem makeDue_junctions (s : State) (k : Nat) : (s.makeDue k).junctions = s.junctions := rfl
@[simp] theorem makeDue_orders (s : State) (k : Nat) : (s.makeDue k).orders = s.orders := rfl
@[simp] theorem makeDue_transfer (s : State) (k : Nat) : (s.makeDue k).transfer = s.transfer := rfl
@[simp] theorem makeDue_polls (s : State) (k : Nat) : (s.makeDue k).polls = s.polls := rfl
@[simp] theorem makeDue_guards (s : State) (k : Nat) : (s.makeDue k).guards = s.guards := rfl
@[simp] theorem makeDue_wayside (s : State) (k : Nat) : (s.makeDue k).wayside = s.wayside := rfl
@[simp] theorem makeDue_port (s : State) (k : Nat) : (s.makeDue k).port = s.port := rfl
@[simp] theorem makeDue_pending (s : State) (k : Nat) : (s.makeDue k).pending = s.pending := rfl
@[simp] theorem makeDue_agenda (s : State) (k : Nat) : (s.makeDue k).agenda = s.agenda := rfl
@[simp] theorem makeDue_late (s : State) (k : Nat) : (s.makeDue k).late = s.late := rfl
@[simp] theorem makeDue_holdEnding (s : State) (k : Nat) : (s.makeDue k).holdEnding = s.holdEnding := rfl
@[simp] theorem makeDue_freeCount (s : State) (k : Nat) : (s.makeDue k).freeCount = s.freeCount := rfl
@[simp] theorem answerAfter_layout (s : State) (x : LateAnswer) : (s.answerAfter x).layout = s.layout := rfl
@[simp] theorem answerAfter_core (s : State) (x : LateAnswer) : (s.answerAfter x).core = s.core := rfl
@[simp] theorem answerAfter_junctions (s : State) (x : LateAnswer) : (s.answerAfter x).junctions = s.junctions := rfl
@[simp] theorem answerAfter_orders (s : State) (x : LateAnswer) : (s.answerAfter x).orders = s.orders := rfl
@[simp] theorem answerAfter_transfer (s : State) (x : LateAnswer) : (s.answerAfter x).transfer = s.transfer := rfl
@[simp] theorem answerAfter_polls (s : State) (x : LateAnswer) : (s.answerAfter x).polls = s.polls := rfl
@[simp] theorem answerAfter_guards (s : State) (x : LateAnswer) : (s.answerAfter x).guards = s.guards := rfl
@[simp] theorem answerAfter_wayside (s : State) (x : LateAnswer) : (s.answerAfter x).wayside = s.wayside := rfl
@[simp] theorem answerAfter_port (s : State) (x : LateAnswer) : (s.answerAfter x).port = s.port := rfl
@[simp] theorem answerAfter_pending (s : State) (x : LateAnswer) : (s.answerAfter x).pending = s.pending := rfl
@[simp] theorem answerAfter_agenda (s : State) (x : LateAnswer) : (s.answerAfter x).agenda = s.agenda := rfl
@[simp] theorem answerAfter_due (s : State) (x : LateAnswer) : (s.answerAfter x).due = s.due := rfl
@[simp] theorem answerAfter_holdEnding (s : State) (x : LateAnswer) : (s.answerAfter x).holdEnding = s.holdEnding := rfl
@[simp] theorem answerAfter_freeCount (s : State) (x : LateAnswer) : (s.answerAfter x).freeCount = s.freeCount := rfl
@[simp] theorem setHoldEnding_layout (s : State) (v : Bool) : (s.setHoldEnding v).layout = s.layout := rfl
@[simp] theorem setHoldEnding_core (s : State) (v : Bool) : (s.setHoldEnding v).core = s.core := rfl
@[simp] theorem setHoldEnding_junctions (s : State) (v : Bool) : (s.setHoldEnding v).junctions = s.junctions := rfl
@[simp] theorem setHoldEnding_orders (s : State) (v : Bool) : (s.setHoldEnding v).orders = s.orders := rfl
@[simp] theorem setHoldEnding_transfer (s : State) (v : Bool) : (s.setHoldEnding v).transfer = s.transfer := rfl
@[simp] theorem setHoldEnding_polls (s : State) (v : Bool) : (s.setHoldEnding v).polls = s.polls := rfl
@[simp] theorem setHoldEnding_guards (s : State) (v : Bool) : (s.setHoldEnding v).guards = s.guards := rfl
@[simp] theorem setHoldEnding_wayside (s : State) (v : Bool) : (s.setHoldEnding v).wayside = s.wayside := rfl
@[simp] theorem setHoldEnding_port (s : State) (v : Bool) : (s.setHoldEnding v).port = s.port := rfl
@[simp] theorem setHoldEnding_pending (s : State) (v : Bool) : (s.setHoldEnding v).pending = s.pending := rfl
@[simp] theorem setHoldEnding_agenda (s : State) (v : Bool) : (s.setHoldEnding v).agenda = s.agenda := rfl
@[simp] theorem setHoldEnding_due (s : State) (v : Bool) : (s.setHoldEnding v).due = s.due := rfl
@[simp] theorem setHoldEnding_late (s : State) (v : Bool) : (s.setHoldEnding v).late = s.late := rfl
@[simp] theorem setHoldEnding_freeCount (s : State) (v : Bool) : (s.setHoldEnding v).freeCount = s.freeCount := rfl
@[simp] theorem drawn_layout (s : State) : s.drawn.layout = s.layout := rfl
@[simp] theorem drawn_core (s : State) : s.drawn.core = s.core := rfl
@[simp] theorem drawn_junctions (s : State) : s.drawn.junctions = s.junctions := rfl
@[simp] theorem drawn_orders (s : State) : s.drawn.orders = s.orders := rfl
@[simp] theorem drawn_transfer (s : State) : s.drawn.transfer = s.transfer := rfl
@[simp] theorem drawn_polls (s : State) : s.drawn.polls = s.polls := rfl
@[simp] theorem drawn_guards (s : State) : s.drawn.guards = s.guards := rfl
@[simp] theorem drawn_wayside (s : State) : s.drawn.wayside = s.wayside := rfl
@[simp] theorem drawn_port (s : State) : s.drawn.port = s.port := rfl
@[simp] theorem drawn_pending (s : State) : s.drawn.pending = s.pending := rfl
@[simp] theorem drawn_agenda (s : State) : s.drawn.agenda = s.agenda := rfl
@[simp] theorem drawn_due (s : State) : s.drawn.due = s.due := rfl
@[simp] theorem drawn_late (s : State) : s.drawn.late = s.late := rfl
@[simp] theorem drawn_holdEnding (s : State) : s.drawn.holdEnding = s.holdEnding := rfl

/-! ### Fields of its own block that a write leaves, and the one it sets -/

@[simp] theorem setDecl_layout_closed (s : State) (n : Nat) (d : Option SegDecl) : (s.setDecl n d).layout.closed = s.layout.closed := rfl
@[simp] theorem setSeg_core_runs (s : State) (n : Nat) (r : SegDyn) : (s.setSeg n r).core.runs = s.core.runs := rfl
@[simp] theorem setSeg_core_waiting (s : State) (n : Nat) (r : SegDyn) : (s.setSeg n r).core.waiting = s.core.waiting := rfl
@[simp] theorem setRun_core_segs (s : State) (t : Nat) (r : Option RunRec) : (s.setRun t r).core.segs = s.core.segs := rfl
@[simp] theorem setRun_core_waiting (s : State) (t : Nat) (r : Option RunRec) : (s.setRun t r).core.waiting = s.core.waiting := rfl
@[simp] theorem setWaiting_core_segs (s : State) (w : List WaitEntry) : (s.setWaiting w).core.segs = s.core.segs := rfl
@[simp] theorem setWaiting_core_runs (s : State) (w : List WaitEntry) : (s.setWaiting w).core.runs = s.core.runs := rfl
@[simp] theorem setWaiting_core_waiting (s : State) (w : List WaitEntry) : (s.setWaiting w).core.waiting = w := rfl
@[simp] theorem setJunction_junctions_pointer (s : State) (j : Nat) (r : Option JunctionRec) : (s.setJunction j r).junctions.pointer = s.junctions.pointer := rfl
@[simp] theorem setJunction_junctions_interval (s : State) (j : Nat) (r : Option JunctionRec) : (s.setJunction j r).junctions.interval = s.junctions.interval := rfl
@[simp] theorem setPointer_junctions_recs (s : State) (p : Option Nat) : (s.setPointer p).junctions.recs = s.junctions.recs := rfl
@[simp] theorem setPointer_junctions_pointer (s : State) (p : Option Nat) : (s.setPointer p).junctions.pointer = p := rfl
@[simp] theorem setPointer_junctions_interval (s : State) (p : Option Nat) : (s.setPointer p).junctions.interval = s.junctions.interval := rfl
@[simp] theorem setInterval_junctions_recs (s : State) (x : Timer) : (s.setInterval x).junctions.recs = s.junctions.recs := rfl
@[simp] theorem setInterval_junctions_pointer (s : State) (x : Timer) : (s.setInterval x).junctions.pointer = s.junctions.pointer := rfl
@[simp] theorem setInterval_junctions_interval (s : State) (x : Timer) : (s.setInterval x).junctions.interval = x := rfl
@[simp] theorem setOrder_orders_refs (s : State) (k : Nat) (o : Option Order) : (s.setOrder k o).orders.refs = s.orders.refs := rfl
@[simp] theorem setRefs_orders_slots (s : State) (t : Nat) (r : OrderRefs) : (s.setRefs t r).orders.slots = s.orders.slots := rfl
@[simp] theorem setPad_transfer_telescopes (s : State) (p : Nat) (r : PadRec) : (s.setPad p r).transfer.telescopes = s.transfer.telescopes := rfl
@[simp] theorem setPad_transfer_loads (s : State) (p : Nat) (r : PadRec) : (s.setPad p r).transfer.loads = s.transfer.loads := rfl
@[simp] theorem setPad_transfer_transfers (s : State) (p : Nat) (r : PadRec) : (s.setPad p r).transfer.transfers = s.transfer.transfers := rfl
@[simp] theorem setPlacement_transfer_pads (s : State) (x : Nat) (p : Placement) : (s.setPlacement x p).transfer.pads = s.transfer.pads := rfl
@[simp] theorem setPlacement_transfer_loads (s : State) (x : Nat) (p : Placement) : (s.setPlacement x p).transfer.loads = s.transfer.loads := rfl
@[simp] theorem setPlacement_transfer_transfers (s : State) (x : Nat) (p : Placement) : (s.setPlacement x p).transfer.transfers = s.transfer.transfers := rfl
@[simp] theorem setLoad_transfer_pads (s : State) (t : Nat) (l : Option Load) : (s.setLoad t l).transfer.pads = s.transfer.pads := rfl
@[simp] theorem setLoad_transfer_telescopes (s : State) (t : Nat) (l : Option Load) : (s.setLoad t l).transfer.telescopes = s.transfer.telescopes := rfl
@[simp] theorem setLoad_transfer_transfers (s : State) (t : Nat) (l : Option Load) : (s.setLoad t l).transfer.transfers = s.transfer.transfers := rfl
@[simp] theorem setTransfer_transfer_pads (s : State) (p : Nat) (r : Option TransferRec) : (s.setTransfer p r).transfer.pads = s.transfer.pads := rfl
@[simp] theorem setTransfer_transfer_telescopes (s : State) (p : Nat) (r : Option TransferRec) : (s.setTransfer p r).transfer.telescopes = s.transfer.telescopes := rfl
@[simp] theorem setTransfer_transfer_loads (s : State) (p : Nat) (r : Option TransferRec) : (s.setTransfer p r).transfer.loads = s.transfer.loads := rfl
@[simp] theorem setTrain_polls_pointer (s : State) (t : Nat) (r : Option TransporterRec) : (s.setTrain t r).polls.pointer = s.polls.pointer := rfl
@[simp] theorem setTrain_polls_outstanding (s : State) (t : Nat) (r : Option TransporterRec) : (s.setTrain t r).polls.outstanding = s.polls.outstanding := rfl
@[simp] theorem setTrain_polls_nextSequence (s : State) (t : Nat) (r : Option TransporterRec) : (s.setTrain t r).polls.nextSequence = s.polls.nextSequence := rfl
@[simp] theorem setTrain_polls_window (s : State) (t : Nat) (r : Option TransporterRec) : (s.setTrain t r).polls.window = s.polls.window := rfl
@[simp] theorem setTrain_polls_gap (s : State) (t : Nat) (r : Option TransporterRec) : (s.setTrain t r).polls.gap = s.polls.gap := rfl
@[simp] theorem setTrain_polls_quiet (s : State) (t : Nat) (r : Option TransporterRec) : (s.setTrain t r).polls.quiet = s.polls.quiet := rfl
@[simp] theorem setGrantMap_guards_fences (s : State) (k : Nat) (m : GrantMap) : (s.setGrantMap k m).guards.fences = s.guards.fences := rfl
@[simp] theorem setGrantMap_guards_fenced (s : State) (k : Nat) (m : GrantMap) : (s.setGrantMap k m).guards.fenced = s.guards.fenced := rfl
@[simp] theorem setGrantMap_guards_hold (s : State) (k : Nat) (m : GrantMap) : (s.setGrantMap k m).guards.hold = s.guards.hold := rfl
@[simp] theorem setFence_guards_maps (s : State) (k : Nat) (f : Option Fence) : (s.setFence k f).guards.maps = s.guards.maps := rfl
@[simp] theorem setFence_guards_fenced (s : State) (k : Nat) (f : Option Fence) : (s.setFence k f).guards.fenced = s.guards.fenced := rfl
@[simp] theorem setFence_guards_hold (s : State) (k : Nat) (f : Option Fence) : (s.setFence k f).guards.hold = s.guards.hold := rfl
@[simp] theorem setFenced_guards_maps (s : State) (l : List FencedEntry) : (s.setFenced l).guards.maps = s.guards.maps := rfl
@[simp] theorem setFenced_guards_fences (s : State) (l : List FencedEntry) : (s.setFenced l).guards.fences = s.guards.fences := rfl
@[simp] theorem setFenced_guards_fenced (s : State) (l : List FencedEntry) : (s.setFenced l).guards.fenced = l := rfl
@[simp] theorem setFenced_guards_hold (s : State) (l : List FencedEntry) : (s.setFenced l).guards.hold = s.guards.hold := rfl
@[simp] theorem setHold_guards_maps (s : State) (x : HoldSources) : (s.setHold x).guards.maps = s.guards.maps := rfl
@[simp] theorem setHold_guards_fences (s : State) (x : HoldSources) : (s.setHold x).guards.fences = s.guards.fences := rfl
@[simp] theorem setHold_guards_fenced (s : State) (x : HoldSources) : (s.setHold x).guards.fenced = s.guards.fenced := rfl
@[simp] theorem setHold_guards_hold (s : State) (x : HoldSources) : (s.setHold x).guards.hold = x := rfl
@[simp] theorem setOutQueue_wayside_inQueue (s : State) (q : List OutMessage) : (s.setOutQueue q).wayside.inQueue = s.wayside.inQueue := rfl
@[simp] theorem setOutQueue_wayside_pause (s : State) (q : List OutMessage) : (s.setOutQueue q).wayside.pause = s.wayside.pause := rfl
@[simp] theorem setOutQueue_wayside_receiver (s : State) (q : List OutMessage) : (s.setOutQueue q).wayside.receiver = s.wayside.receiver := rfl
@[simp] theorem setOutQueue_wayside_silence (s : State) (q : List OutMessage) : (s.setOutQueue q).wayside.silence = s.wayside.silence := rfl
@[simp] theorem setOutQueue_wayside_link (s : State) (q : List OutMessage) : (s.setOutQueue q).wayside.link = s.wayside.link := rfl
@[simp] theorem setOutQueue_wayside_outQueue (s : State) (q : List OutMessage) : (s.setOutQueue q).wayside.outQueue = q := rfl
@[simp] theorem setOutQueue_wayside_transmitter (s : State) (q : List OutMessage) : (s.setOutQueue q).wayside.transmitter = s.wayside.transmitter := rfl
@[simp] theorem setTransmitter_wayside_inQueue (s : State) (x : Transmitter) : (s.setTransmitter x).wayside.inQueue = s.wayside.inQueue := rfl
@[simp] theorem setTransmitter_wayside_pause (s : State) (x : Transmitter) : (s.setTransmitter x).wayside.pause = s.wayside.pause := rfl
@[simp] theorem setTransmitter_wayside_receiver (s : State) (x : Transmitter) : (s.setTransmitter x).wayside.receiver = s.wayside.receiver := rfl
@[simp] theorem setTransmitter_wayside_silence (s : State) (x : Transmitter) : (s.setTransmitter x).wayside.silence = s.wayside.silence := rfl
@[simp] theorem setTransmitter_wayside_link (s : State) (x : Transmitter) : (s.setTransmitter x).wayside.link = s.wayside.link := rfl
@[simp] theorem setTransmitter_wayside_outQueue (s : State) (x : Transmitter) : (s.setTransmitter x).wayside.outQueue = s.wayside.outQueue := rfl
@[simp] theorem setTransmitter_wayside_transmitter (s : State) (x : Transmitter) : (s.setTransmitter x).wayside.transmitter = x := rfl
@[simp] theorem setReceiver_wayside_inQueue (s : State) (r : Receiver) : (s.setReceiver r).wayside.inQueue = s.wayside.inQueue := rfl
@[simp] theorem setReceiver_wayside_pause (s : State) (r : Receiver) : (s.setReceiver r).wayside.pause = s.wayside.pause := rfl
@[simp] theorem setReceiver_wayside_receiver (s : State) (r : Receiver) : (s.setReceiver r).wayside.receiver = r := rfl
@[simp] theorem setReceiver_wayside_silence (s : State) (r : Receiver) : (s.setReceiver r).wayside.silence = s.wayside.silence := rfl
@[simp] theorem setReceiver_wayside_link (s : State) (r : Receiver) : (s.setReceiver r).wayside.link = s.wayside.link := rfl
@[simp] theorem setReceiver_wayside_outQueue (s : State) (r : Receiver) : (s.setReceiver r).wayside.outQueue = s.wayside.outQueue := rfl
@[simp] theorem setReceiver_wayside_transmitter (s : State) (r : Receiver) : (s.setReceiver r).wayside.transmitter = s.wayside.transmitter := rfl
@[simp] theorem setInQueue_wayside_inQueue (s : State) (q : List InMessage) : (s.setInQueue q).wayside.inQueue = q := rfl
@[simp] theorem setInQueue_wayside_pause (s : State) (q : List InMessage) : (s.setInQueue q).wayside.pause = decide (12 ≤ q.length) := rfl
@[simp] theorem setInQueue_wayside_receiver (s : State) (q : List InMessage) : (s.setInQueue q).wayside.receiver = s.wayside.receiver := rfl
@[simp] theorem setInQueue_wayside_silence (s : State) (q : List InMessage) : (s.setInQueue q).wayside.silence = s.wayside.silence := rfl
@[simp] theorem setInQueue_wayside_link (s : State) (q : List InMessage) : (s.setInQueue q).wayside.link = s.wayside.link := rfl
@[simp] theorem setInQueue_wayside_outQueue (s : State) (q : List InMessage) : (s.setInQueue q).wayside.outQueue = s.wayside.outQueue := rfl
@[simp] theorem setInQueue_wayside_transmitter (s : State) (q : List InMessage) : (s.setInQueue q).wayside.transmitter = s.wayside.transmitter := rfl
@[simp] theorem setRequests_port_requests (s : State) (q : List QueuedRequest) : (s.setRequests q).port.requests = q := rfl
@[simp] theorem setRequests_port_answers (s : State) (q : List QueuedRequest) : (s.setRequests q).port.answers = s.port.answers := rfl
@[simp] theorem setRequests_port_window (s : State) (q : List QueuedRequest) : (s.setRequests q).port.window = s.port.window := rfl
@[simp] theorem setRequests_port_flags (s : State) (q : List QueuedRequest) : (s.setRequests q).port.flags = s.port.flags := rfl
@[simp] theorem setRequests_port_notices (s : State) (q : List QueuedRequest) : (s.setRequests q).port.notices = s.port.notices := rfl
@[simp] theorem setRequests_port_enables (s : State) (q : List QueuedRequest) : (s.setRequests q).port.enables = s.port.enables := rfl
@[simp] theorem setRequests_port_params (s : State) (q : List QueuedRequest) : (s.setRequests q).port.params = s.port.params := rfl
@[simp] theorem setRequests_port_cause (s : State) (q : List QueuedRequest) : (s.setRequests q).port.cause = s.port.cause := rfl
@[simp] theorem setRequests_port_attention (s : State) (q : List QueuedRequest) : (s.setRequests q).port.attention = s.port.attention := rfl
@[simp] theorem setAnswers_port_requests (s : State) (q : List Answer) : (s.setAnswers q).port.requests = s.port.requests := rfl
@[simp] theorem setAnswers_port_answers (s : State) (q : List Answer) : (s.setAnswers q).port.answers = q := rfl
@[simp] theorem setAnswers_port_window (s : State) (q : List Answer) : (s.setAnswers q).port.window = s.port.window := rfl
@[simp] theorem setAnswers_port_flags (s : State) (q : List Answer) : (s.setAnswers q).port.flags = s.port.flags := rfl
@[simp] theorem setAnswers_port_notices (s : State) (q : List Answer) : (s.setAnswers q).port.notices = s.port.notices := rfl
@[simp] theorem setAnswers_port_enables (s : State) (q : List Answer) : (s.setAnswers q).port.enables = s.port.enables := rfl
@[simp] theorem setAnswers_port_params (s : State) (q : List Answer) : (s.setAnswers q).port.params = s.port.params := rfl
@[simp] theorem setAnswers_port_cause (s : State) (q : List Answer) : (s.setAnswers q).port.cause = s.port.cause := rfl
@[simp] theorem setAnswers_port_attention (s : State) (q : List Answer) : (s.setAnswers q).port.attention = s.port.attention := rfl
@[simp] theorem setWindow_port_requests (s : State) (w : Window) : (s.setWindow w).port.requests = s.port.requests := rfl
@[simp] theorem setWindow_port_answers (s : State) (w : Window) : (s.setWindow w).port.answers = s.port.answers := rfl
@[simp] theorem setWindow_port_window (s : State) (w : Window) : (s.setWindow w).port.window = w := rfl
@[simp] theorem setWindow_port_flags (s : State) (w : Window) : (s.setWindow w).port.flags = s.port.flags := rfl
@[simp] theorem setWindow_port_notices (s : State) (w : Window) : (s.setWindow w).port.notices = s.port.notices := rfl
@[simp] theorem setWindow_port_enables (s : State) (w : Window) : (s.setWindow w).port.enables = s.port.enables := rfl
@[simp] theorem setWindow_port_params (s : State) (w : Window) : (s.setWindow w).port.params = s.port.params := rfl
@[simp] theorem setWindow_port_cause (s : State) (w : Window) : (s.setWindow w).port.cause = s.port.cause := rfl
@[simp] theorem setWindow_port_attention (s : State) (w : Window) : (s.setWindow w).port.attention = s.port.attention := rfl
@[simp] theorem setFlags_port_requests (s : State) (f : StickyFlags) : (s.setFlags f).port.requests = s.port.requests := rfl
@[simp] theorem setFlags_port_answers (s : State) (f : StickyFlags) : (s.setFlags f).port.answers = s.port.answers := rfl
@[simp] theorem setFlags_port_window (s : State) (f : StickyFlags) : (s.setFlags f).port.window = s.port.window := rfl
@[simp] theorem setFlags_port_flags (s : State) (f : StickyFlags) : (s.setFlags f).port.flags = f := rfl
@[simp] theorem setFlags_port_notices (s : State) (f : StickyFlags) : (s.setFlags f).port.notices = s.port.notices := rfl
@[simp] theorem setFlags_port_enables (s : State) (f : StickyFlags) : (s.setFlags f).port.enables = s.port.enables := rfl
@[simp] theorem setFlags_port_params (s : State) (f : StickyFlags) : (s.setFlags f).port.params = s.port.params := rfl
@[simp] theorem setFlags_port_cause (s : State) (f : StickyFlags) : (s.setFlags f).port.cause = s.port.cause := rfl
@[simp] theorem setFlags_port_attention (s : State) (f : StickyFlags) : (s.setFlags f).port.attention = s.port.attention := rfl
@[simp] theorem setNotices_port_requests (s : State) (l : List Notice) : (s.setNotices l).port.requests = s.port.requests := rfl
@[simp] theorem setNotices_port_answers (s : State) (l : List Notice) : (s.setNotices l).port.answers = s.port.answers := rfl
@[simp] theorem setNotices_port_window (s : State) (l : List Notice) : (s.setNotices l).port.window = s.port.window := rfl
@[simp] theorem setNotices_port_flags (s : State) (l : List Notice) : (s.setNotices l).port.flags = s.port.flags := rfl
@[simp] theorem setNotices_port_notices (s : State) (l : List Notice) : (s.setNotices l).port.notices = l := rfl
@[simp] theorem setNotices_port_enables (s : State) (l : List Notice) : (s.setNotices l).port.enables = s.port.enables := rfl
@[simp] theorem setNotices_port_params (s : State) (l : List Notice) : (s.setNotices l).port.params = s.port.params := rfl
@[simp] theorem setNotices_port_cause (s : State) (l : List Notice) : (s.setNotices l).port.cause = s.port.cause := rfl
@[simp] theorem setNotices_port_attention (s : State) (l : List Notice) : (s.setNotices l).port.attention = s.port.attention := rfl
@[simp] theorem emit_agenda (s : State) (xs : List Task) : (s.emit xs).agenda = s.agenda ++ xs := rfl
@[simp] theorem makeDue_due (s : State) (k : Nat) : (s.makeDue k).due = insertSorted k s.due := rfl
@[simp] theorem answerAfter_late (s : State) (x : LateAnswer) : (s.answerAfter x).late = some x := rfl
@[simp] theorem setHoldEnding_holdEnding (s : State) (v : Bool) : (s.setHoldEnding v).holdEnding = v := rfl
@[simp] theorem drawn_freeCount (s : State) : s.drawn.freeCount = s.freeCount + 1 := rfl

/-! ### Records read after a write of another table -/

@[simp] theorem setDecl_seg (s : State) (n : Nat) (d : Option SegDecl) (i : Nat) : (s.setDecl n d).seg i = s.seg i := rfl
@[simp] theorem setDecl_run (s : State) (n : Nat) (d : Option SegDecl) (i : Nat) : (s.setDecl n d).run i = s.run i := rfl
@[simp] theorem setDecl_junction (s : State) (n : Nat) (d : Option SegDecl) (i : Nat) : (s.setDecl n d).junction i = s.junction i := rfl
@[simp] theorem setDecl_order (s : State) (n : Nat) (d : Option SegDecl) (i : Nat) : (s.setDecl n d).order i = s.order i := rfl
@[simp] theorem setDecl_orderRefs (s : State) (n : Nat) (d : Option SegDecl) (i : Nat) : (s.setDecl n d).orderRefs i = s.orderRefs i := rfl
@[simp] theorem setDecl_pad (s : State) (n : Nat) (d : Option SegDecl) (i : Nat) : (s.setDecl n d).pad i = s.pad i := rfl
@[simp] theorem setDecl_placement (s : State) (n : Nat) (d : Option SegDecl) (i : Nat) : (s.setDecl n d).placement i = s.placement i := rfl
@[simp] theorem setDecl_load (s : State) (n : Nat) (d : Option SegDecl) (i : Nat) : (s.setDecl n d).load i = s.load i := rfl
@[simp] theorem setDecl_transferAt (s : State) (n : Nat) (d : Option SegDecl) (i : Nat) : (s.setDecl n d).transferAt i = s.transferAt i := rfl
@[simp] theorem setDecl_train (s : State) (n : Nat) (d : Option SegDecl) (i : Nat) : (s.setDecl n d).train i = s.train i := rfl
@[simp] theorem setDecl_grantMap (s : State) (n : Nat) (d : Option SegDecl) (i : Nat) : (s.setDecl n d).grantMap i = s.grantMap i := rfl
@[simp] theorem setDecl_fence (s : State) (n : Nat) (d : Option SegDecl) (i : Nat) : (s.setDecl n d).fence i = s.fence i := rfl
@[simp] theorem setSeg_decl (s : State) (n : Nat) (r : SegDyn) (i : Nat) : (s.setSeg n r).decl i = s.decl i := rfl
@[simp] theorem setSeg_run (s : State) (n : Nat) (r : SegDyn) (i : Nat) : (s.setSeg n r).run i = s.run i := rfl
@[simp] theorem setSeg_junction (s : State) (n : Nat) (r : SegDyn) (i : Nat) : (s.setSeg n r).junction i = s.junction i := rfl
@[simp] theorem setSeg_order (s : State) (n : Nat) (r : SegDyn) (i : Nat) : (s.setSeg n r).order i = s.order i := rfl
@[simp] theorem setSeg_orderRefs (s : State) (n : Nat) (r : SegDyn) (i : Nat) : (s.setSeg n r).orderRefs i = s.orderRefs i := rfl
@[simp] theorem setSeg_pad (s : State) (n : Nat) (r : SegDyn) (i : Nat) : (s.setSeg n r).pad i = s.pad i := rfl
@[simp] theorem setSeg_placement (s : State) (n : Nat) (r : SegDyn) (i : Nat) : (s.setSeg n r).placement i = s.placement i := rfl
@[simp] theorem setSeg_load (s : State) (n : Nat) (r : SegDyn) (i : Nat) : (s.setSeg n r).load i = s.load i := rfl
@[simp] theorem setSeg_transferAt (s : State) (n : Nat) (r : SegDyn) (i : Nat) : (s.setSeg n r).transferAt i = s.transferAt i := rfl
@[simp] theorem setSeg_train (s : State) (n : Nat) (r : SegDyn) (i : Nat) : (s.setSeg n r).train i = s.train i := rfl
@[simp] theorem setSeg_grantMap (s : State) (n : Nat) (r : SegDyn) (i : Nat) : (s.setSeg n r).grantMap i = s.grantMap i := rfl
@[simp] theorem setSeg_fence (s : State) (n : Nat) (r : SegDyn) (i : Nat) : (s.setSeg n r).fence i = s.fence i := rfl
@[simp] theorem setRun_decl (s : State) (t : Nat) (r : Option RunRec) (i : Nat) : (s.setRun t r).decl i = s.decl i := rfl
@[simp] theorem setRun_seg (s : State) (t : Nat) (r : Option RunRec) (i : Nat) : (s.setRun t r).seg i = s.seg i := rfl
@[simp] theorem setRun_junction (s : State) (t : Nat) (r : Option RunRec) (i : Nat) : (s.setRun t r).junction i = s.junction i := rfl
@[simp] theorem setRun_order (s : State) (t : Nat) (r : Option RunRec) (i : Nat) : (s.setRun t r).order i = s.order i := rfl
@[simp] theorem setRun_orderRefs (s : State) (t : Nat) (r : Option RunRec) (i : Nat) : (s.setRun t r).orderRefs i = s.orderRefs i := rfl
@[simp] theorem setRun_pad (s : State) (t : Nat) (r : Option RunRec) (i : Nat) : (s.setRun t r).pad i = s.pad i := rfl
@[simp] theorem setRun_placement (s : State) (t : Nat) (r : Option RunRec) (i : Nat) : (s.setRun t r).placement i = s.placement i := rfl
@[simp] theorem setRun_load (s : State) (t : Nat) (r : Option RunRec) (i : Nat) : (s.setRun t r).load i = s.load i := rfl
@[simp] theorem setRun_transferAt (s : State) (t : Nat) (r : Option RunRec) (i : Nat) : (s.setRun t r).transferAt i = s.transferAt i := rfl
@[simp] theorem setRun_train (s : State) (t : Nat) (r : Option RunRec) (i : Nat) : (s.setRun t r).train i = s.train i := rfl
@[simp] theorem setRun_grantMap (s : State) (t : Nat) (r : Option RunRec) (i : Nat) : (s.setRun t r).grantMap i = s.grantMap i := rfl
@[simp] theorem setRun_fence (s : State) (t : Nat) (r : Option RunRec) (i : Nat) : (s.setRun t r).fence i = s.fence i := rfl
@[simp] theorem setWaiting_decl (s : State) (w : List WaitEntry) (i : Nat) : (s.setWaiting w).decl i = s.decl i := rfl
@[simp] theorem setWaiting_seg (s : State) (w : List WaitEntry) (i : Nat) : (s.setWaiting w).seg i = s.seg i := rfl
@[simp] theorem setWaiting_run (s : State) (w : List WaitEntry) (i : Nat) : (s.setWaiting w).run i = s.run i := rfl
@[simp] theorem setWaiting_junction (s : State) (w : List WaitEntry) (i : Nat) : (s.setWaiting w).junction i = s.junction i := rfl
@[simp] theorem setWaiting_order (s : State) (w : List WaitEntry) (i : Nat) : (s.setWaiting w).order i = s.order i := rfl
@[simp] theorem setWaiting_orderRefs (s : State) (w : List WaitEntry) (i : Nat) : (s.setWaiting w).orderRefs i = s.orderRefs i := rfl
@[simp] theorem setWaiting_pad (s : State) (w : List WaitEntry) (i : Nat) : (s.setWaiting w).pad i = s.pad i := rfl
@[simp] theorem setWaiting_placement (s : State) (w : List WaitEntry) (i : Nat) : (s.setWaiting w).placement i = s.placement i := rfl
@[simp] theorem setWaiting_load (s : State) (w : List WaitEntry) (i : Nat) : (s.setWaiting w).load i = s.load i := rfl
@[simp] theorem setWaiting_transferAt (s : State) (w : List WaitEntry) (i : Nat) : (s.setWaiting w).transferAt i = s.transferAt i := rfl
@[simp] theorem setWaiting_train (s : State) (w : List WaitEntry) (i : Nat) : (s.setWaiting w).train i = s.train i := rfl
@[simp] theorem setWaiting_grantMap (s : State) (w : List WaitEntry) (i : Nat) : (s.setWaiting w).grantMap i = s.grantMap i := rfl
@[simp] theorem setWaiting_fence (s : State) (w : List WaitEntry) (i : Nat) : (s.setWaiting w).fence i = s.fence i := rfl
@[simp] theorem setJunction_decl (s : State) (j : Nat) (r : Option JunctionRec) (i : Nat) : (s.setJunction j r).decl i = s.decl i := rfl
@[simp] theorem setJunction_seg (s : State) (j : Nat) (r : Option JunctionRec) (i : Nat) : (s.setJunction j r).seg i = s.seg i := rfl
@[simp] theorem setJunction_run (s : State) (j : Nat) (r : Option JunctionRec) (i : Nat) : (s.setJunction j r).run i = s.run i := rfl
@[simp] theorem setJunction_order (s : State) (j : Nat) (r : Option JunctionRec) (i : Nat) : (s.setJunction j r).order i = s.order i := rfl
@[simp] theorem setJunction_orderRefs (s : State) (j : Nat) (r : Option JunctionRec) (i : Nat) : (s.setJunction j r).orderRefs i = s.orderRefs i := rfl
@[simp] theorem setJunction_pad (s : State) (j : Nat) (r : Option JunctionRec) (i : Nat) : (s.setJunction j r).pad i = s.pad i := rfl
@[simp] theorem setJunction_placement (s : State) (j : Nat) (r : Option JunctionRec) (i : Nat) : (s.setJunction j r).placement i = s.placement i := rfl
@[simp] theorem setJunction_load (s : State) (j : Nat) (r : Option JunctionRec) (i : Nat) : (s.setJunction j r).load i = s.load i := rfl
@[simp] theorem setJunction_transferAt (s : State) (j : Nat) (r : Option JunctionRec) (i : Nat) : (s.setJunction j r).transferAt i = s.transferAt i := rfl
@[simp] theorem setJunction_train (s : State) (j : Nat) (r : Option JunctionRec) (i : Nat) : (s.setJunction j r).train i = s.train i := rfl
@[simp] theorem setJunction_grantMap (s : State) (j : Nat) (r : Option JunctionRec) (i : Nat) : (s.setJunction j r).grantMap i = s.grantMap i := rfl
@[simp] theorem setJunction_fence (s : State) (j : Nat) (r : Option JunctionRec) (i : Nat) : (s.setJunction j r).fence i = s.fence i := rfl
@[simp] theorem setPointer_decl (s : State) (p : Option Nat) (i : Nat) : (s.setPointer p).decl i = s.decl i := rfl
@[simp] theorem setPointer_seg (s : State) (p : Option Nat) (i : Nat) : (s.setPointer p).seg i = s.seg i := rfl
@[simp] theorem setPointer_run (s : State) (p : Option Nat) (i : Nat) : (s.setPointer p).run i = s.run i := rfl
@[simp] theorem setPointer_junction (s : State) (p : Option Nat) (i : Nat) : (s.setPointer p).junction i = s.junction i := rfl
@[simp] theorem setPointer_order (s : State) (p : Option Nat) (i : Nat) : (s.setPointer p).order i = s.order i := rfl
@[simp] theorem setPointer_orderRefs (s : State) (p : Option Nat) (i : Nat) : (s.setPointer p).orderRefs i = s.orderRefs i := rfl
@[simp] theorem setPointer_pad (s : State) (p : Option Nat) (i : Nat) : (s.setPointer p).pad i = s.pad i := rfl
@[simp] theorem setPointer_placement (s : State) (p : Option Nat) (i : Nat) : (s.setPointer p).placement i = s.placement i := rfl
@[simp] theorem setPointer_load (s : State) (p : Option Nat) (i : Nat) : (s.setPointer p).load i = s.load i := rfl
@[simp] theorem setPointer_transferAt (s : State) (p : Option Nat) (i : Nat) : (s.setPointer p).transferAt i = s.transferAt i := rfl
@[simp] theorem setPointer_train (s : State) (p : Option Nat) (i : Nat) : (s.setPointer p).train i = s.train i := rfl
@[simp] theorem setPointer_grantMap (s : State) (p : Option Nat) (i : Nat) : (s.setPointer p).grantMap i = s.grantMap i := rfl
@[simp] theorem setPointer_fence (s : State) (p : Option Nat) (i : Nat) : (s.setPointer p).fence i = s.fence i := rfl
@[simp] theorem setInterval_decl (s : State) (x : Timer) (i : Nat) : (s.setInterval x).decl i = s.decl i := rfl
@[simp] theorem setInterval_seg (s : State) (x : Timer) (i : Nat) : (s.setInterval x).seg i = s.seg i := rfl
@[simp] theorem setInterval_run (s : State) (x : Timer) (i : Nat) : (s.setInterval x).run i = s.run i := rfl
@[simp] theorem setInterval_junction (s : State) (x : Timer) (i : Nat) : (s.setInterval x).junction i = s.junction i := rfl
@[simp] theorem setInterval_order (s : State) (x : Timer) (i : Nat) : (s.setInterval x).order i = s.order i := rfl
@[simp] theorem setInterval_orderRefs (s : State) (x : Timer) (i : Nat) : (s.setInterval x).orderRefs i = s.orderRefs i := rfl
@[simp] theorem setInterval_pad (s : State) (x : Timer) (i : Nat) : (s.setInterval x).pad i = s.pad i := rfl
@[simp] theorem setInterval_placement (s : State) (x : Timer) (i : Nat) : (s.setInterval x).placement i = s.placement i := rfl
@[simp] theorem setInterval_load (s : State) (x : Timer) (i : Nat) : (s.setInterval x).load i = s.load i := rfl
@[simp] theorem setInterval_transferAt (s : State) (x : Timer) (i : Nat) : (s.setInterval x).transferAt i = s.transferAt i := rfl
@[simp] theorem setInterval_train (s : State) (x : Timer) (i : Nat) : (s.setInterval x).train i = s.train i := rfl
@[simp] theorem setInterval_grantMap (s : State) (x : Timer) (i : Nat) : (s.setInterval x).grantMap i = s.grantMap i := rfl
@[simp] theorem setInterval_fence (s : State) (x : Timer) (i : Nat) : (s.setInterval x).fence i = s.fence i := rfl
@[simp] theorem setOrder_decl (s : State) (k : Nat) (o : Option Order) (i : Nat) : (s.setOrder k o).decl i = s.decl i := rfl
@[simp] theorem setOrder_seg (s : State) (k : Nat) (o : Option Order) (i : Nat) : (s.setOrder k o).seg i = s.seg i := rfl
@[simp] theorem setOrder_run (s : State) (k : Nat) (o : Option Order) (i : Nat) : (s.setOrder k o).run i = s.run i := rfl
@[simp] theorem setOrder_junction (s : State) (k : Nat) (o : Option Order) (i : Nat) : (s.setOrder k o).junction i = s.junction i := rfl
@[simp] theorem setOrder_orderRefs (s : State) (k : Nat) (o : Option Order) (i : Nat) : (s.setOrder k o).orderRefs i = s.orderRefs i := rfl
@[simp] theorem setOrder_pad (s : State) (k : Nat) (o : Option Order) (i : Nat) : (s.setOrder k o).pad i = s.pad i := rfl
@[simp] theorem setOrder_placement (s : State) (k : Nat) (o : Option Order) (i : Nat) : (s.setOrder k o).placement i = s.placement i := rfl
@[simp] theorem setOrder_load (s : State) (k : Nat) (o : Option Order) (i : Nat) : (s.setOrder k o).load i = s.load i := rfl
@[simp] theorem setOrder_transferAt (s : State) (k : Nat) (o : Option Order) (i : Nat) : (s.setOrder k o).transferAt i = s.transferAt i := rfl
@[simp] theorem setOrder_train (s : State) (k : Nat) (o : Option Order) (i : Nat) : (s.setOrder k o).train i = s.train i := rfl
@[simp] theorem setOrder_grantMap (s : State) (k : Nat) (o : Option Order) (i : Nat) : (s.setOrder k o).grantMap i = s.grantMap i := rfl
@[simp] theorem setOrder_fence (s : State) (k : Nat) (o : Option Order) (i : Nat) : (s.setOrder k o).fence i = s.fence i := rfl
@[simp] theorem setRefs_decl (s : State) (t : Nat) (r : OrderRefs) (i : Nat) : (s.setRefs t r).decl i = s.decl i := rfl
@[simp] theorem setRefs_seg (s : State) (t : Nat) (r : OrderRefs) (i : Nat) : (s.setRefs t r).seg i = s.seg i := rfl
@[simp] theorem setRefs_run (s : State) (t : Nat) (r : OrderRefs) (i : Nat) : (s.setRefs t r).run i = s.run i := rfl
@[simp] theorem setRefs_junction (s : State) (t : Nat) (r : OrderRefs) (i : Nat) : (s.setRefs t r).junction i = s.junction i := rfl
@[simp] theorem setRefs_order (s : State) (t : Nat) (r : OrderRefs) (i : Nat) : (s.setRefs t r).order i = s.order i := rfl
@[simp] theorem setRefs_pad (s : State) (t : Nat) (r : OrderRefs) (i : Nat) : (s.setRefs t r).pad i = s.pad i := rfl
@[simp] theorem setRefs_placement (s : State) (t : Nat) (r : OrderRefs) (i : Nat) : (s.setRefs t r).placement i = s.placement i := rfl
@[simp] theorem setRefs_load (s : State) (t : Nat) (r : OrderRefs) (i : Nat) : (s.setRefs t r).load i = s.load i := rfl
@[simp] theorem setRefs_transferAt (s : State) (t : Nat) (r : OrderRefs) (i : Nat) : (s.setRefs t r).transferAt i = s.transferAt i := rfl
@[simp] theorem setRefs_train (s : State) (t : Nat) (r : OrderRefs) (i : Nat) : (s.setRefs t r).train i = s.train i := rfl
@[simp] theorem setRefs_grantMap (s : State) (t : Nat) (r : OrderRefs) (i : Nat) : (s.setRefs t r).grantMap i = s.grantMap i := rfl
@[simp] theorem setRefs_fence (s : State) (t : Nat) (r : OrderRefs) (i : Nat) : (s.setRefs t r).fence i = s.fence i := rfl
@[simp] theorem setPad_decl (s : State) (p : Nat) (r : PadRec) (i : Nat) : (s.setPad p r).decl i = s.decl i := rfl
@[simp] theorem setPad_seg (s : State) (p : Nat) (r : PadRec) (i : Nat) : (s.setPad p r).seg i = s.seg i := rfl
@[simp] theorem setPad_run (s : State) (p : Nat) (r : PadRec) (i : Nat) : (s.setPad p r).run i = s.run i := rfl
@[simp] theorem setPad_junction (s : State) (p : Nat) (r : PadRec) (i : Nat) : (s.setPad p r).junction i = s.junction i := rfl
@[simp] theorem setPad_order (s : State) (p : Nat) (r : PadRec) (i : Nat) : (s.setPad p r).order i = s.order i := rfl
@[simp] theorem setPad_orderRefs (s : State) (p : Nat) (r : PadRec) (i : Nat) : (s.setPad p r).orderRefs i = s.orderRefs i := rfl
@[simp] theorem setPad_placement (s : State) (p : Nat) (r : PadRec) (i : Nat) : (s.setPad p r).placement i = s.placement i := rfl
@[simp] theorem setPad_load (s : State) (p : Nat) (r : PadRec) (i : Nat) : (s.setPad p r).load i = s.load i := rfl
@[simp] theorem setPad_transferAt (s : State) (p : Nat) (r : PadRec) (i : Nat) : (s.setPad p r).transferAt i = s.transferAt i := rfl
@[simp] theorem setPad_train (s : State) (p : Nat) (r : PadRec) (i : Nat) : (s.setPad p r).train i = s.train i := rfl
@[simp] theorem setPad_grantMap (s : State) (p : Nat) (r : PadRec) (i : Nat) : (s.setPad p r).grantMap i = s.grantMap i := rfl
@[simp] theorem setPad_fence (s : State) (p : Nat) (r : PadRec) (i : Nat) : (s.setPad p r).fence i = s.fence i := rfl
@[simp] theorem setPlacement_decl (s : State) (x : Nat) (p : Placement) (i : Nat) : (s.setPlacement x p).decl i = s.decl i := rfl
@[simp] theorem setPlacement_seg (s : State) (x : Nat) (p : Placement) (i : Nat) : (s.setPlacement x p).seg i = s.seg i := rfl
@[simp] theorem setPlacement_run (s : State) (x : Nat) (p : Placement) (i : Nat) : (s.setPlacement x p).run i = s.run i := rfl
@[simp] theorem setPlacement_junction (s : State) (x : Nat) (p : Placement) (i : Nat) : (s.setPlacement x p).junction i = s.junction i := rfl
@[simp] theorem setPlacement_order (s : State) (x : Nat) (p : Placement) (i : Nat) : (s.setPlacement x p).order i = s.order i := rfl
@[simp] theorem setPlacement_orderRefs (s : State) (x : Nat) (p : Placement) (i : Nat) : (s.setPlacement x p).orderRefs i = s.orderRefs i := rfl
@[simp] theorem setPlacement_pad (s : State) (x : Nat) (p : Placement) (i : Nat) : (s.setPlacement x p).pad i = s.pad i := rfl
@[simp] theorem setPlacement_load (s : State) (x : Nat) (p : Placement) (i : Nat) : (s.setPlacement x p).load i = s.load i := rfl
@[simp] theorem setPlacement_transferAt (s : State) (x : Nat) (p : Placement) (i : Nat) : (s.setPlacement x p).transferAt i = s.transferAt i := rfl
@[simp] theorem setPlacement_train (s : State) (x : Nat) (p : Placement) (i : Nat) : (s.setPlacement x p).train i = s.train i := rfl
@[simp] theorem setPlacement_grantMap (s : State) (x : Nat) (p : Placement) (i : Nat) : (s.setPlacement x p).grantMap i = s.grantMap i := rfl
@[simp] theorem setPlacement_fence (s : State) (x : Nat) (p : Placement) (i : Nat) : (s.setPlacement x p).fence i = s.fence i := rfl
@[simp] theorem setLoad_decl (s : State) (t : Nat) (l : Option Load) (i : Nat) : (s.setLoad t l).decl i = s.decl i := rfl
@[simp] theorem setLoad_seg (s : State) (t : Nat) (l : Option Load) (i : Nat) : (s.setLoad t l).seg i = s.seg i := rfl
@[simp] theorem setLoad_run (s : State) (t : Nat) (l : Option Load) (i : Nat) : (s.setLoad t l).run i = s.run i := rfl
@[simp] theorem setLoad_junction (s : State) (t : Nat) (l : Option Load) (i : Nat) : (s.setLoad t l).junction i = s.junction i := rfl
@[simp] theorem setLoad_order (s : State) (t : Nat) (l : Option Load) (i : Nat) : (s.setLoad t l).order i = s.order i := rfl
@[simp] theorem setLoad_orderRefs (s : State) (t : Nat) (l : Option Load) (i : Nat) : (s.setLoad t l).orderRefs i = s.orderRefs i := rfl
@[simp] theorem setLoad_pad (s : State) (t : Nat) (l : Option Load) (i : Nat) : (s.setLoad t l).pad i = s.pad i := rfl
@[simp] theorem setLoad_placement (s : State) (t : Nat) (l : Option Load) (i : Nat) : (s.setLoad t l).placement i = s.placement i := rfl
@[simp] theorem setLoad_transferAt (s : State) (t : Nat) (l : Option Load) (i : Nat) : (s.setLoad t l).transferAt i = s.transferAt i := rfl
@[simp] theorem setLoad_train (s : State) (t : Nat) (l : Option Load) (i : Nat) : (s.setLoad t l).train i = s.train i := rfl
@[simp] theorem setLoad_grantMap (s : State) (t : Nat) (l : Option Load) (i : Nat) : (s.setLoad t l).grantMap i = s.grantMap i := rfl
@[simp] theorem setLoad_fence (s : State) (t : Nat) (l : Option Load) (i : Nat) : (s.setLoad t l).fence i = s.fence i := rfl
@[simp] theorem setTransfer_decl (s : State) (p : Nat) (r : Option TransferRec) (i : Nat) : (s.setTransfer p r).decl i = s.decl i := rfl
@[simp] theorem setTransfer_seg (s : State) (p : Nat) (r : Option TransferRec) (i : Nat) : (s.setTransfer p r).seg i = s.seg i := rfl
@[simp] theorem setTransfer_run (s : State) (p : Nat) (r : Option TransferRec) (i : Nat) : (s.setTransfer p r).run i = s.run i := rfl
@[simp] theorem setTransfer_junction (s : State) (p : Nat) (r : Option TransferRec) (i : Nat) : (s.setTransfer p r).junction i = s.junction i := rfl
@[simp] theorem setTransfer_order (s : State) (p : Nat) (r : Option TransferRec) (i : Nat) : (s.setTransfer p r).order i = s.order i := rfl
@[simp] theorem setTransfer_orderRefs (s : State) (p : Nat) (r : Option TransferRec) (i : Nat) : (s.setTransfer p r).orderRefs i = s.orderRefs i := rfl
@[simp] theorem setTransfer_pad (s : State) (p : Nat) (r : Option TransferRec) (i : Nat) : (s.setTransfer p r).pad i = s.pad i := rfl
@[simp] theorem setTransfer_placement (s : State) (p : Nat) (r : Option TransferRec) (i : Nat) : (s.setTransfer p r).placement i = s.placement i := rfl
@[simp] theorem setTransfer_load (s : State) (p : Nat) (r : Option TransferRec) (i : Nat) : (s.setTransfer p r).load i = s.load i := rfl
@[simp] theorem setTransfer_train (s : State) (p : Nat) (r : Option TransferRec) (i : Nat) : (s.setTransfer p r).train i = s.train i := rfl
@[simp] theorem setTransfer_grantMap (s : State) (p : Nat) (r : Option TransferRec) (i : Nat) : (s.setTransfer p r).grantMap i = s.grantMap i := rfl
@[simp] theorem setTransfer_fence (s : State) (p : Nat) (r : Option TransferRec) (i : Nat) : (s.setTransfer p r).fence i = s.fence i := rfl
@[simp] theorem setTrain_decl (s : State) (t : Nat) (r : Option TransporterRec) (i : Nat) : (s.setTrain t r).decl i = s.decl i := rfl
@[simp] theorem setTrain_seg (s : State) (t : Nat) (r : Option TransporterRec) (i : Nat) : (s.setTrain t r).seg i = s.seg i := rfl
@[simp] theorem setTrain_run (s : State) (t : Nat) (r : Option TransporterRec) (i : Nat) : (s.setTrain t r).run i = s.run i := rfl
@[simp] theorem setTrain_junction (s : State) (t : Nat) (r : Option TransporterRec) (i : Nat) : (s.setTrain t r).junction i = s.junction i := rfl
@[simp] theorem setTrain_order (s : State) (t : Nat) (r : Option TransporterRec) (i : Nat) : (s.setTrain t r).order i = s.order i := rfl
@[simp] theorem setTrain_orderRefs (s : State) (t : Nat) (r : Option TransporterRec) (i : Nat) : (s.setTrain t r).orderRefs i = s.orderRefs i := rfl
@[simp] theorem setTrain_pad (s : State) (t : Nat) (r : Option TransporterRec) (i : Nat) : (s.setTrain t r).pad i = s.pad i := rfl
@[simp] theorem setTrain_placement (s : State) (t : Nat) (r : Option TransporterRec) (i : Nat) : (s.setTrain t r).placement i = s.placement i := rfl
@[simp] theorem setTrain_load (s : State) (t : Nat) (r : Option TransporterRec) (i : Nat) : (s.setTrain t r).load i = s.load i := rfl
@[simp] theorem setTrain_transferAt (s : State) (t : Nat) (r : Option TransporterRec) (i : Nat) : (s.setTrain t r).transferAt i = s.transferAt i := rfl
@[simp] theorem setTrain_grantMap (s : State) (t : Nat) (r : Option TransporterRec) (i : Nat) : (s.setTrain t r).grantMap i = s.grantMap i := rfl
@[simp] theorem setTrain_fence (s : State) (t : Nat) (r : Option TransporterRec) (i : Nat) : (s.setTrain t r).fence i = s.fence i := rfl
@[simp] theorem setGrantMap_decl (s : State) (k : Nat) (m : GrantMap) (i : Nat) : (s.setGrantMap k m).decl i = s.decl i := rfl
@[simp] theorem setGrantMap_seg (s : State) (k : Nat) (m : GrantMap) (i : Nat) : (s.setGrantMap k m).seg i = s.seg i := rfl
@[simp] theorem setGrantMap_run (s : State) (k : Nat) (m : GrantMap) (i : Nat) : (s.setGrantMap k m).run i = s.run i := rfl
@[simp] theorem setGrantMap_junction (s : State) (k : Nat) (m : GrantMap) (i : Nat) : (s.setGrantMap k m).junction i = s.junction i := rfl
@[simp] theorem setGrantMap_order (s : State) (k : Nat) (m : GrantMap) (i : Nat) : (s.setGrantMap k m).order i = s.order i := rfl
@[simp] theorem setGrantMap_orderRefs (s : State) (k : Nat) (m : GrantMap) (i : Nat) : (s.setGrantMap k m).orderRefs i = s.orderRefs i := rfl
@[simp] theorem setGrantMap_pad (s : State) (k : Nat) (m : GrantMap) (i : Nat) : (s.setGrantMap k m).pad i = s.pad i := rfl
@[simp] theorem setGrantMap_placement (s : State) (k : Nat) (m : GrantMap) (i : Nat) : (s.setGrantMap k m).placement i = s.placement i := rfl
@[simp] theorem setGrantMap_load (s : State) (k : Nat) (m : GrantMap) (i : Nat) : (s.setGrantMap k m).load i = s.load i := rfl
@[simp] theorem setGrantMap_transferAt (s : State) (k : Nat) (m : GrantMap) (i : Nat) : (s.setGrantMap k m).transferAt i = s.transferAt i := rfl
@[simp] theorem setGrantMap_train (s : State) (k : Nat) (m : GrantMap) (i : Nat) : (s.setGrantMap k m).train i = s.train i := rfl
@[simp] theorem setGrantMap_fence (s : State) (k : Nat) (m : GrantMap) (i : Nat) : (s.setGrantMap k m).fence i = s.fence i := rfl
@[simp] theorem setFence_decl (s : State) (k : Nat) (f : Option Fence) (i : Nat) : (s.setFence k f).decl i = s.decl i := rfl
@[simp] theorem setFence_seg (s : State) (k : Nat) (f : Option Fence) (i : Nat) : (s.setFence k f).seg i = s.seg i := rfl
@[simp] theorem setFence_run (s : State) (k : Nat) (f : Option Fence) (i : Nat) : (s.setFence k f).run i = s.run i := rfl
@[simp] theorem setFence_junction (s : State) (k : Nat) (f : Option Fence) (i : Nat) : (s.setFence k f).junction i = s.junction i := rfl
@[simp] theorem setFence_order (s : State) (k : Nat) (f : Option Fence) (i : Nat) : (s.setFence k f).order i = s.order i := rfl
@[simp] theorem setFence_orderRefs (s : State) (k : Nat) (f : Option Fence) (i : Nat) : (s.setFence k f).orderRefs i = s.orderRefs i := rfl
@[simp] theorem setFence_pad (s : State) (k : Nat) (f : Option Fence) (i : Nat) : (s.setFence k f).pad i = s.pad i := rfl
@[simp] theorem setFence_placement (s : State) (k : Nat) (f : Option Fence) (i : Nat) : (s.setFence k f).placement i = s.placement i := rfl
@[simp] theorem setFence_load (s : State) (k : Nat) (f : Option Fence) (i : Nat) : (s.setFence k f).load i = s.load i := rfl
@[simp] theorem setFence_transferAt (s : State) (k : Nat) (f : Option Fence) (i : Nat) : (s.setFence k f).transferAt i = s.transferAt i := rfl
@[simp] theorem setFence_train (s : State) (k : Nat) (f : Option Fence) (i : Nat) : (s.setFence k f).train i = s.train i := rfl
@[simp] theorem setFence_grantMap (s : State) (k : Nat) (f : Option Fence) (i : Nat) : (s.setFence k f).grantMap i = s.grantMap i := rfl
@[simp] theorem setFenced_decl (s : State) (l : List FencedEntry) (i : Nat) : (s.setFenced l).decl i = s.decl i := rfl
@[simp] theorem setFenced_seg (s : State) (l : List FencedEntry) (i : Nat) : (s.setFenced l).seg i = s.seg i := rfl
@[simp] theorem setFenced_run (s : State) (l : List FencedEntry) (i : Nat) : (s.setFenced l).run i = s.run i := rfl
@[simp] theorem setFenced_junction (s : State) (l : List FencedEntry) (i : Nat) : (s.setFenced l).junction i = s.junction i := rfl
@[simp] theorem setFenced_order (s : State) (l : List FencedEntry) (i : Nat) : (s.setFenced l).order i = s.order i := rfl
@[simp] theorem setFenced_orderRefs (s : State) (l : List FencedEntry) (i : Nat) : (s.setFenced l).orderRefs i = s.orderRefs i := rfl
@[simp] theorem setFenced_pad (s : State) (l : List FencedEntry) (i : Nat) : (s.setFenced l).pad i = s.pad i := rfl
@[simp] theorem setFenced_placement (s : State) (l : List FencedEntry) (i : Nat) : (s.setFenced l).placement i = s.placement i := rfl
@[simp] theorem setFenced_load (s : State) (l : List FencedEntry) (i : Nat) : (s.setFenced l).load i = s.load i := rfl
@[simp] theorem setFenced_transferAt (s : State) (l : List FencedEntry) (i : Nat) : (s.setFenced l).transferAt i = s.transferAt i := rfl
@[simp] theorem setFenced_train (s : State) (l : List FencedEntry) (i : Nat) : (s.setFenced l).train i = s.train i := rfl
@[simp] theorem setFenced_grantMap (s : State) (l : List FencedEntry) (i : Nat) : (s.setFenced l).grantMap i = s.grantMap i := rfl
@[simp] theorem setFenced_fence (s : State) (l : List FencedEntry) (i : Nat) : (s.setFenced l).fence i = s.fence i := rfl
@[simp] theorem setHold_decl (s : State) (x : HoldSources) (i : Nat) : (s.setHold x).decl i = s.decl i := rfl
@[simp] theorem setHold_seg (s : State) (x : HoldSources) (i : Nat) : (s.setHold x).seg i = s.seg i := rfl
@[simp] theorem setHold_run (s : State) (x : HoldSources) (i : Nat) : (s.setHold x).run i = s.run i := rfl
@[simp] theorem setHold_junction (s : State) (x : HoldSources) (i : Nat) : (s.setHold x).junction i = s.junction i := rfl
@[simp] theorem setHold_order (s : State) (x : HoldSources) (i : Nat) : (s.setHold x).order i = s.order i := rfl
@[simp] theorem setHold_orderRefs (s : State) (x : HoldSources) (i : Nat) : (s.setHold x).orderRefs i = s.orderRefs i := rfl
@[simp] theorem setHold_pad (s : State) (x : HoldSources) (i : Nat) : (s.setHold x).pad i = s.pad i := rfl
@[simp] theorem setHold_placement (s : State) (x : HoldSources) (i : Nat) : (s.setHold x).placement i = s.placement i := rfl
@[simp] theorem setHold_load (s : State) (x : HoldSources) (i : Nat) : (s.setHold x).load i = s.load i := rfl
@[simp] theorem setHold_transferAt (s : State) (x : HoldSources) (i : Nat) : (s.setHold x).transferAt i = s.transferAt i := rfl
@[simp] theorem setHold_train (s : State) (x : HoldSources) (i : Nat) : (s.setHold x).train i = s.train i := rfl
@[simp] theorem setHold_grantMap (s : State) (x : HoldSources) (i : Nat) : (s.setHold x).grantMap i = s.grantMap i := rfl
@[simp] theorem setHold_fence (s : State) (x : HoldSources) (i : Nat) : (s.setHold x).fence i = s.fence i := rfl
@[simp] theorem setOutQueue_decl (s : State) (q : List OutMessage) (i : Nat) : (s.setOutQueue q).decl i = s.decl i := rfl
@[simp] theorem setOutQueue_seg (s : State) (q : List OutMessage) (i : Nat) : (s.setOutQueue q).seg i = s.seg i := rfl
@[simp] theorem setOutQueue_run (s : State) (q : List OutMessage) (i : Nat) : (s.setOutQueue q).run i = s.run i := rfl
@[simp] theorem setOutQueue_junction (s : State) (q : List OutMessage) (i : Nat) : (s.setOutQueue q).junction i = s.junction i := rfl
@[simp] theorem setOutQueue_order (s : State) (q : List OutMessage) (i : Nat) : (s.setOutQueue q).order i = s.order i := rfl
@[simp] theorem setOutQueue_orderRefs (s : State) (q : List OutMessage) (i : Nat) : (s.setOutQueue q).orderRefs i = s.orderRefs i := rfl
@[simp] theorem setOutQueue_pad (s : State) (q : List OutMessage) (i : Nat) : (s.setOutQueue q).pad i = s.pad i := rfl
@[simp] theorem setOutQueue_placement (s : State) (q : List OutMessage) (i : Nat) : (s.setOutQueue q).placement i = s.placement i := rfl
@[simp] theorem setOutQueue_load (s : State) (q : List OutMessage) (i : Nat) : (s.setOutQueue q).load i = s.load i := rfl
@[simp] theorem setOutQueue_transferAt (s : State) (q : List OutMessage) (i : Nat) : (s.setOutQueue q).transferAt i = s.transferAt i := rfl
@[simp] theorem setOutQueue_train (s : State) (q : List OutMessage) (i : Nat) : (s.setOutQueue q).train i = s.train i := rfl
@[simp] theorem setOutQueue_grantMap (s : State) (q : List OutMessage) (i : Nat) : (s.setOutQueue q).grantMap i = s.grantMap i := rfl
@[simp] theorem setOutQueue_fence (s : State) (q : List OutMessage) (i : Nat) : (s.setOutQueue q).fence i = s.fence i := rfl
@[simp] theorem setTransmitter_decl (s : State) (x : Transmitter) (i : Nat) : (s.setTransmitter x).decl i = s.decl i := rfl
@[simp] theorem setTransmitter_seg (s : State) (x : Transmitter) (i : Nat) : (s.setTransmitter x).seg i = s.seg i := rfl
@[simp] theorem setTransmitter_run (s : State) (x : Transmitter) (i : Nat) : (s.setTransmitter x).run i = s.run i := rfl
@[simp] theorem setTransmitter_junction (s : State) (x : Transmitter) (i : Nat) : (s.setTransmitter x).junction i = s.junction i := rfl
@[simp] theorem setTransmitter_order (s : State) (x : Transmitter) (i : Nat) : (s.setTransmitter x).order i = s.order i := rfl
@[simp] theorem setTransmitter_orderRefs (s : State) (x : Transmitter) (i : Nat) : (s.setTransmitter x).orderRefs i = s.orderRefs i := rfl
@[simp] theorem setTransmitter_pad (s : State) (x : Transmitter) (i : Nat) : (s.setTransmitter x).pad i = s.pad i := rfl
@[simp] theorem setTransmitter_placement (s : State) (x : Transmitter) (i : Nat) : (s.setTransmitter x).placement i = s.placement i := rfl
@[simp] theorem setTransmitter_load (s : State) (x : Transmitter) (i : Nat) : (s.setTransmitter x).load i = s.load i := rfl
@[simp] theorem setTransmitter_transferAt (s : State) (x : Transmitter) (i : Nat) : (s.setTransmitter x).transferAt i = s.transferAt i := rfl
@[simp] theorem setTransmitter_train (s : State) (x : Transmitter) (i : Nat) : (s.setTransmitter x).train i = s.train i := rfl
@[simp] theorem setTransmitter_grantMap (s : State) (x : Transmitter) (i : Nat) : (s.setTransmitter x).grantMap i = s.grantMap i := rfl
@[simp] theorem setTransmitter_fence (s : State) (x : Transmitter) (i : Nat) : (s.setTransmitter x).fence i = s.fence i := rfl
@[simp] theorem setReceiver_decl (s : State) (r : Receiver) (i : Nat) : (s.setReceiver r).decl i = s.decl i := rfl
@[simp] theorem setReceiver_seg (s : State) (r : Receiver) (i : Nat) : (s.setReceiver r).seg i = s.seg i := rfl
@[simp] theorem setReceiver_run (s : State) (r : Receiver) (i : Nat) : (s.setReceiver r).run i = s.run i := rfl
@[simp] theorem setReceiver_junction (s : State) (r : Receiver) (i : Nat) : (s.setReceiver r).junction i = s.junction i := rfl
@[simp] theorem setReceiver_order (s : State) (r : Receiver) (i : Nat) : (s.setReceiver r).order i = s.order i := rfl
@[simp] theorem setReceiver_orderRefs (s : State) (r : Receiver) (i : Nat) : (s.setReceiver r).orderRefs i = s.orderRefs i := rfl
@[simp] theorem setReceiver_pad (s : State) (r : Receiver) (i : Nat) : (s.setReceiver r).pad i = s.pad i := rfl
@[simp] theorem setReceiver_placement (s : State) (r : Receiver) (i : Nat) : (s.setReceiver r).placement i = s.placement i := rfl
@[simp] theorem setReceiver_load (s : State) (r : Receiver) (i : Nat) : (s.setReceiver r).load i = s.load i := rfl
@[simp] theorem setReceiver_transferAt (s : State) (r : Receiver) (i : Nat) : (s.setReceiver r).transferAt i = s.transferAt i := rfl
@[simp] theorem setReceiver_train (s : State) (r : Receiver) (i : Nat) : (s.setReceiver r).train i = s.train i := rfl
@[simp] theorem setReceiver_grantMap (s : State) (r : Receiver) (i : Nat) : (s.setReceiver r).grantMap i = s.grantMap i := rfl
@[simp] theorem setReceiver_fence (s : State) (r : Receiver) (i : Nat) : (s.setReceiver r).fence i = s.fence i := rfl
@[simp] theorem setInQueue_decl (s : State) (q : List InMessage) (i : Nat) : (s.setInQueue q).decl i = s.decl i := rfl
@[simp] theorem setInQueue_seg (s : State) (q : List InMessage) (i : Nat) : (s.setInQueue q).seg i = s.seg i := rfl
@[simp] theorem setInQueue_run (s : State) (q : List InMessage) (i : Nat) : (s.setInQueue q).run i = s.run i := rfl
@[simp] theorem setInQueue_junction (s : State) (q : List InMessage) (i : Nat) : (s.setInQueue q).junction i = s.junction i := rfl
@[simp] theorem setInQueue_order (s : State) (q : List InMessage) (i : Nat) : (s.setInQueue q).order i = s.order i := rfl
@[simp] theorem setInQueue_orderRefs (s : State) (q : List InMessage) (i : Nat) : (s.setInQueue q).orderRefs i = s.orderRefs i := rfl
@[simp] theorem setInQueue_pad (s : State) (q : List InMessage) (i : Nat) : (s.setInQueue q).pad i = s.pad i := rfl
@[simp] theorem setInQueue_placement (s : State) (q : List InMessage) (i : Nat) : (s.setInQueue q).placement i = s.placement i := rfl
@[simp] theorem setInQueue_load (s : State) (q : List InMessage) (i : Nat) : (s.setInQueue q).load i = s.load i := rfl
@[simp] theorem setInQueue_transferAt (s : State) (q : List InMessage) (i : Nat) : (s.setInQueue q).transferAt i = s.transferAt i := rfl
@[simp] theorem setInQueue_train (s : State) (q : List InMessage) (i : Nat) : (s.setInQueue q).train i = s.train i := rfl
@[simp] theorem setInQueue_grantMap (s : State) (q : List InMessage) (i : Nat) : (s.setInQueue q).grantMap i = s.grantMap i := rfl
@[simp] theorem setInQueue_fence (s : State) (q : List InMessage) (i : Nat) : (s.setInQueue q).fence i = s.fence i := rfl
@[simp] theorem setRequests_decl (s : State) (q : List QueuedRequest) (i : Nat) : (s.setRequests q).decl i = s.decl i := rfl
@[simp] theorem setRequests_seg (s : State) (q : List QueuedRequest) (i : Nat) : (s.setRequests q).seg i = s.seg i := rfl
@[simp] theorem setRequests_run (s : State) (q : List QueuedRequest) (i : Nat) : (s.setRequests q).run i = s.run i := rfl
@[simp] theorem setRequests_junction (s : State) (q : List QueuedRequest) (i : Nat) : (s.setRequests q).junction i = s.junction i := rfl
@[simp] theorem setRequests_order (s : State) (q : List QueuedRequest) (i : Nat) : (s.setRequests q).order i = s.order i := rfl
@[simp] theorem setRequests_orderRefs (s : State) (q : List QueuedRequest) (i : Nat) : (s.setRequests q).orderRefs i = s.orderRefs i := rfl
@[simp] theorem setRequests_pad (s : State) (q : List QueuedRequest) (i : Nat) : (s.setRequests q).pad i = s.pad i := rfl
@[simp] theorem setRequests_placement (s : State) (q : List QueuedRequest) (i : Nat) : (s.setRequests q).placement i = s.placement i := rfl
@[simp] theorem setRequests_load (s : State) (q : List QueuedRequest) (i : Nat) : (s.setRequests q).load i = s.load i := rfl
@[simp] theorem setRequests_transferAt (s : State) (q : List QueuedRequest) (i : Nat) : (s.setRequests q).transferAt i = s.transferAt i := rfl
@[simp] theorem setRequests_train (s : State) (q : List QueuedRequest) (i : Nat) : (s.setRequests q).train i = s.train i := rfl
@[simp] theorem setRequests_grantMap (s : State) (q : List QueuedRequest) (i : Nat) : (s.setRequests q).grantMap i = s.grantMap i := rfl
@[simp] theorem setRequests_fence (s : State) (q : List QueuedRequest) (i : Nat) : (s.setRequests q).fence i = s.fence i := rfl
@[simp] theorem setAnswers_decl (s : State) (q : List Answer) (i : Nat) : (s.setAnswers q).decl i = s.decl i := rfl
@[simp] theorem setAnswers_seg (s : State) (q : List Answer) (i : Nat) : (s.setAnswers q).seg i = s.seg i := rfl
@[simp] theorem setAnswers_run (s : State) (q : List Answer) (i : Nat) : (s.setAnswers q).run i = s.run i := rfl
@[simp] theorem setAnswers_junction (s : State) (q : List Answer) (i : Nat) : (s.setAnswers q).junction i = s.junction i := rfl
@[simp] theorem setAnswers_order (s : State) (q : List Answer) (i : Nat) : (s.setAnswers q).order i = s.order i := rfl
@[simp] theorem setAnswers_orderRefs (s : State) (q : List Answer) (i : Nat) : (s.setAnswers q).orderRefs i = s.orderRefs i := rfl
@[simp] theorem setAnswers_pad (s : State) (q : List Answer) (i : Nat) : (s.setAnswers q).pad i = s.pad i := rfl
@[simp] theorem setAnswers_placement (s : State) (q : List Answer) (i : Nat) : (s.setAnswers q).placement i = s.placement i := rfl
@[simp] theorem setAnswers_load (s : State) (q : List Answer) (i : Nat) : (s.setAnswers q).load i = s.load i := rfl
@[simp] theorem setAnswers_transferAt (s : State) (q : List Answer) (i : Nat) : (s.setAnswers q).transferAt i = s.transferAt i := rfl
@[simp] theorem setAnswers_train (s : State) (q : List Answer) (i : Nat) : (s.setAnswers q).train i = s.train i := rfl
@[simp] theorem setAnswers_grantMap (s : State) (q : List Answer) (i : Nat) : (s.setAnswers q).grantMap i = s.grantMap i := rfl
@[simp] theorem setAnswers_fence (s : State) (q : List Answer) (i : Nat) : (s.setAnswers q).fence i = s.fence i := rfl
@[simp] theorem setWindow_decl (s : State) (w : Window) (i : Nat) : (s.setWindow w).decl i = s.decl i := rfl
@[simp] theorem setWindow_seg (s : State) (w : Window) (i : Nat) : (s.setWindow w).seg i = s.seg i := rfl
@[simp] theorem setWindow_run (s : State) (w : Window) (i : Nat) : (s.setWindow w).run i = s.run i := rfl
@[simp] theorem setWindow_junction (s : State) (w : Window) (i : Nat) : (s.setWindow w).junction i = s.junction i := rfl
@[simp] theorem setWindow_order (s : State) (w : Window) (i : Nat) : (s.setWindow w).order i = s.order i := rfl
@[simp] theorem setWindow_orderRefs (s : State) (w : Window) (i : Nat) : (s.setWindow w).orderRefs i = s.orderRefs i := rfl
@[simp] theorem setWindow_pad (s : State) (w : Window) (i : Nat) : (s.setWindow w).pad i = s.pad i := rfl
@[simp] theorem setWindow_placement (s : State) (w : Window) (i : Nat) : (s.setWindow w).placement i = s.placement i := rfl
@[simp] theorem setWindow_load (s : State) (w : Window) (i : Nat) : (s.setWindow w).load i = s.load i := rfl
@[simp] theorem setWindow_transferAt (s : State) (w : Window) (i : Nat) : (s.setWindow w).transferAt i = s.transferAt i := rfl
@[simp] theorem setWindow_train (s : State) (w : Window) (i : Nat) : (s.setWindow w).train i = s.train i := rfl
@[simp] theorem setWindow_grantMap (s : State) (w : Window) (i : Nat) : (s.setWindow w).grantMap i = s.grantMap i := rfl
@[simp] theorem setWindow_fence (s : State) (w : Window) (i : Nat) : (s.setWindow w).fence i = s.fence i := rfl
@[simp] theorem setFlags_decl (s : State) (f : StickyFlags) (i : Nat) : (s.setFlags f).decl i = s.decl i := rfl
@[simp] theorem setFlags_seg (s : State) (f : StickyFlags) (i : Nat) : (s.setFlags f).seg i = s.seg i := rfl
@[simp] theorem setFlags_run (s : State) (f : StickyFlags) (i : Nat) : (s.setFlags f).run i = s.run i := rfl
@[simp] theorem setFlags_junction (s : State) (f : StickyFlags) (i : Nat) : (s.setFlags f).junction i = s.junction i := rfl
@[simp] theorem setFlags_order (s : State) (f : StickyFlags) (i : Nat) : (s.setFlags f).order i = s.order i := rfl
@[simp] theorem setFlags_orderRefs (s : State) (f : StickyFlags) (i : Nat) : (s.setFlags f).orderRefs i = s.orderRefs i := rfl
@[simp] theorem setFlags_pad (s : State) (f : StickyFlags) (i : Nat) : (s.setFlags f).pad i = s.pad i := rfl
@[simp] theorem setFlags_placement (s : State) (f : StickyFlags) (i : Nat) : (s.setFlags f).placement i = s.placement i := rfl
@[simp] theorem setFlags_load (s : State) (f : StickyFlags) (i : Nat) : (s.setFlags f).load i = s.load i := rfl
@[simp] theorem setFlags_transferAt (s : State) (f : StickyFlags) (i : Nat) : (s.setFlags f).transferAt i = s.transferAt i := rfl
@[simp] theorem setFlags_train (s : State) (f : StickyFlags) (i : Nat) : (s.setFlags f).train i = s.train i := rfl
@[simp] theorem setFlags_grantMap (s : State) (f : StickyFlags) (i : Nat) : (s.setFlags f).grantMap i = s.grantMap i := rfl
@[simp] theorem setFlags_fence (s : State) (f : StickyFlags) (i : Nat) : (s.setFlags f).fence i = s.fence i := rfl
@[simp] theorem setNotices_decl (s : State) (l : List Notice) (i : Nat) : (s.setNotices l).decl i = s.decl i := rfl
@[simp] theorem setNotices_seg (s : State) (l : List Notice) (i : Nat) : (s.setNotices l).seg i = s.seg i := rfl
@[simp] theorem setNotices_run (s : State) (l : List Notice) (i : Nat) : (s.setNotices l).run i = s.run i := rfl
@[simp] theorem setNotices_junction (s : State) (l : List Notice) (i : Nat) : (s.setNotices l).junction i = s.junction i := rfl
@[simp] theorem setNotices_order (s : State) (l : List Notice) (i : Nat) : (s.setNotices l).order i = s.order i := rfl
@[simp] theorem setNotices_orderRefs (s : State) (l : List Notice) (i : Nat) : (s.setNotices l).orderRefs i = s.orderRefs i := rfl
@[simp] theorem setNotices_pad (s : State) (l : List Notice) (i : Nat) : (s.setNotices l).pad i = s.pad i := rfl
@[simp] theorem setNotices_placement (s : State) (l : List Notice) (i : Nat) : (s.setNotices l).placement i = s.placement i := rfl
@[simp] theorem setNotices_load (s : State) (l : List Notice) (i : Nat) : (s.setNotices l).load i = s.load i := rfl
@[simp] theorem setNotices_transferAt (s : State) (l : List Notice) (i : Nat) : (s.setNotices l).transferAt i = s.transferAt i := rfl
@[simp] theorem setNotices_train (s : State) (l : List Notice) (i : Nat) : (s.setNotices l).train i = s.train i := rfl
@[simp] theorem setNotices_grantMap (s : State) (l : List Notice) (i : Nat) : (s.setNotices l).grantMap i = s.grantMap i := rfl
@[simp] theorem setNotices_fence (s : State) (l : List Notice) (i : Nat) : (s.setNotices l).fence i = s.fence i := rfl
@[simp] theorem emit_decl (s : State) (xs : List Task) (i : Nat) : (s.emit xs).decl i = s.decl i := rfl
@[simp] theorem emit_seg (s : State) (xs : List Task) (i : Nat) : (s.emit xs).seg i = s.seg i := rfl
@[simp] theorem emit_run (s : State) (xs : List Task) (i : Nat) : (s.emit xs).run i = s.run i := rfl
@[simp] theorem emit_junction (s : State) (xs : List Task) (i : Nat) : (s.emit xs).junction i = s.junction i := rfl
@[simp] theorem emit_order (s : State) (xs : List Task) (i : Nat) : (s.emit xs).order i = s.order i := rfl
@[simp] theorem emit_orderRefs (s : State) (xs : List Task) (i : Nat) : (s.emit xs).orderRefs i = s.orderRefs i := rfl
@[simp] theorem emit_pad (s : State) (xs : List Task) (i : Nat) : (s.emit xs).pad i = s.pad i := rfl
@[simp] theorem emit_placement (s : State) (xs : List Task) (i : Nat) : (s.emit xs).placement i = s.placement i := rfl
@[simp] theorem emit_load (s : State) (xs : List Task) (i : Nat) : (s.emit xs).load i = s.load i := rfl
@[simp] theorem emit_transferAt (s : State) (xs : List Task) (i : Nat) : (s.emit xs).transferAt i = s.transferAt i := rfl
@[simp] theorem emit_train (s : State) (xs : List Task) (i : Nat) : (s.emit xs).train i = s.train i := rfl
@[simp] theorem emit_grantMap (s : State) (xs : List Task) (i : Nat) : (s.emit xs).grantMap i = s.grantMap i := rfl
@[simp] theorem emit_fence (s : State) (xs : List Task) (i : Nat) : (s.emit xs).fence i = s.fence i := rfl
@[simp] theorem makeDue_decl (s : State) (k : Nat) (i : Nat) : (s.makeDue k).decl i = s.decl i := rfl
@[simp] theorem makeDue_seg (s : State) (k : Nat) (i : Nat) : (s.makeDue k).seg i = s.seg i := rfl
@[simp] theorem makeDue_run (s : State) (k : Nat) (i : Nat) : (s.makeDue k).run i = s.run i := rfl
@[simp] theorem makeDue_junction (s : State) (k : Nat) (i : Nat) : (s.makeDue k).junction i = s.junction i := rfl
@[simp] theorem makeDue_order (s : State) (k : Nat) (i : Nat) : (s.makeDue k).order i = s.order i := rfl
@[simp] theorem makeDue_orderRefs (s : State) (k : Nat) (i : Nat) : (s.makeDue k).orderRefs i = s.orderRefs i := rfl
@[simp] theorem makeDue_pad (s : State) (k : Nat) (i : Nat) : (s.makeDue k).pad i = s.pad i := rfl
@[simp] theorem makeDue_placement (s : State) (k : Nat) (i : Nat) : (s.makeDue k).placement i = s.placement i := rfl
@[simp] theorem makeDue_load (s : State) (k : Nat) (i : Nat) : (s.makeDue k).load i = s.load i := rfl
@[simp] theorem makeDue_transferAt (s : State) (k : Nat) (i : Nat) : (s.makeDue k).transferAt i = s.transferAt i := rfl
@[simp] theorem makeDue_train (s : State) (k : Nat) (i : Nat) : (s.makeDue k).train i = s.train i := rfl
@[simp] theorem makeDue_grantMap (s : State) (k : Nat) (i : Nat) : (s.makeDue k).grantMap i = s.grantMap i := rfl
@[simp] theorem makeDue_fence (s : State) (k : Nat) (i : Nat) : (s.makeDue k).fence i = s.fence i := rfl
@[simp] theorem answerAfter_decl (s : State) (x : LateAnswer) (i : Nat) : (s.answerAfter x).decl i = s.decl i := rfl
@[simp] theorem answerAfter_seg (s : State) (x : LateAnswer) (i : Nat) : (s.answerAfter x).seg i = s.seg i := rfl
@[simp] theorem answerAfter_run (s : State) (x : LateAnswer) (i : Nat) : (s.answerAfter x).run i = s.run i := rfl
@[simp] theorem answerAfter_junction (s : State) (x : LateAnswer) (i : Nat) : (s.answerAfter x).junction i = s.junction i := rfl
@[simp] theorem answerAfter_order (s : State) (x : LateAnswer) (i : Nat) : (s.answerAfter x).order i = s.order i := rfl
@[simp] theorem answerAfter_orderRefs (s : State) (x : LateAnswer) (i : Nat) : (s.answerAfter x).orderRefs i = s.orderRefs i := rfl
@[simp] theorem answerAfter_pad (s : State) (x : LateAnswer) (i : Nat) : (s.answerAfter x).pad i = s.pad i := rfl
@[simp] theorem answerAfter_placement (s : State) (x : LateAnswer) (i : Nat) : (s.answerAfter x).placement i = s.placement i := rfl
@[simp] theorem answerAfter_load (s : State) (x : LateAnswer) (i : Nat) : (s.answerAfter x).load i = s.load i := rfl
@[simp] theorem answerAfter_transferAt (s : State) (x : LateAnswer) (i : Nat) : (s.answerAfter x).transferAt i = s.transferAt i := rfl
@[simp] theorem answerAfter_train (s : State) (x : LateAnswer) (i : Nat) : (s.answerAfter x).train i = s.train i := rfl
@[simp] theorem answerAfter_grantMap (s : State) (x : LateAnswer) (i : Nat) : (s.answerAfter x).grantMap i = s.grantMap i := rfl
@[simp] theorem answerAfter_fence (s : State) (x : LateAnswer) (i : Nat) : (s.answerAfter x).fence i = s.fence i := rfl
@[simp] theorem setHoldEnding_decl (s : State) (v : Bool) (i : Nat) : (s.setHoldEnding v).decl i = s.decl i := rfl
@[simp] theorem setHoldEnding_seg (s : State) (v : Bool) (i : Nat) : (s.setHoldEnding v).seg i = s.seg i := rfl
@[simp] theorem setHoldEnding_run (s : State) (v : Bool) (i : Nat) : (s.setHoldEnding v).run i = s.run i := rfl
@[simp] theorem setHoldEnding_junction (s : State) (v : Bool) (i : Nat) : (s.setHoldEnding v).junction i = s.junction i := rfl
@[simp] theorem setHoldEnding_order (s : State) (v : Bool) (i : Nat) : (s.setHoldEnding v).order i = s.order i := rfl
@[simp] theorem setHoldEnding_orderRefs (s : State) (v : Bool) (i : Nat) : (s.setHoldEnding v).orderRefs i = s.orderRefs i := rfl
@[simp] theorem setHoldEnding_pad (s : State) (v : Bool) (i : Nat) : (s.setHoldEnding v).pad i = s.pad i := rfl
@[simp] theorem setHoldEnding_placement (s : State) (v : Bool) (i : Nat) : (s.setHoldEnding v).placement i = s.placement i := rfl
@[simp] theorem setHoldEnding_load (s : State) (v : Bool) (i : Nat) : (s.setHoldEnding v).load i = s.load i := rfl
@[simp] theorem setHoldEnding_transferAt (s : State) (v : Bool) (i : Nat) : (s.setHoldEnding v).transferAt i = s.transferAt i := rfl
@[simp] theorem setHoldEnding_train (s : State) (v : Bool) (i : Nat) : (s.setHoldEnding v).train i = s.train i := rfl
@[simp] theorem setHoldEnding_grantMap (s : State) (v : Bool) (i : Nat) : (s.setHoldEnding v).grantMap i = s.grantMap i := rfl
@[simp] theorem setHoldEnding_fence (s : State) (v : Bool) (i : Nat) : (s.setHoldEnding v).fence i = s.fence i := rfl
@[simp] theorem drawn_decl (s : State) (i : Nat) : s.drawn.decl i = s.decl i := rfl
@[simp] theorem drawn_seg (s : State) (i : Nat) : s.drawn.seg i = s.seg i := rfl
@[simp] theorem drawn_run (s : State) (i : Nat) : s.drawn.run i = s.run i := rfl
@[simp] theorem drawn_junction (s : State) (i : Nat) : s.drawn.junction i = s.junction i := rfl
@[simp] theorem drawn_order (s : State) (i : Nat) : s.drawn.order i = s.order i := rfl
@[simp] theorem drawn_orderRefs (s : State) (i : Nat) : s.drawn.orderRefs i = s.orderRefs i := rfl
@[simp] theorem drawn_pad (s : State) (i : Nat) : s.drawn.pad i = s.pad i := rfl
@[simp] theorem drawn_placement (s : State) (i : Nat) : s.drawn.placement i = s.placement i := rfl
@[simp] theorem drawn_load (s : State) (i : Nat) : s.drawn.load i = s.load i := rfl
@[simp] theorem drawn_transferAt (s : State) (i : Nat) : s.drawn.transferAt i = s.transferAt i := rfl
@[simp] theorem drawn_train (s : State) (i : Nat) : s.drawn.train i = s.train i := rfl
@[simp] theorem drawn_grantMap (s : State) (i : Nat) : s.drawn.grantMap i = s.grantMap i := rfl
@[simp] theorem drawn_fence (s : State) (i : Nat) : s.drawn.fence i = s.fence i := rfl

/-! ### Records read after a write of their own table -/

theorem setDecl_decl (s : State) (n : Nat) (d : Option SegDecl) (i : Nat) : (s.setDecl n d).decl i = if i = n then d else s.decl i :=
  get_put _ _ _ _ _
@[simp] theorem setDecl_decl_same (s : State) (n : Nat) (d : Option SegDecl) : (s.setDecl n d).decl n = d := by simp [setDecl_decl]
theorem setSeg_seg (s : State) (n : Nat) (r : SegDyn) (i : Nat) : (s.setSeg n r).seg i = if i = n then r else s.seg i :=
  get_put _ _ _ _ _
@[simp] theorem setSeg_seg_same (s : State) (n : Nat) (r : SegDyn) : (s.setSeg n r).seg n = r := by simp [setSeg_seg]
theorem setRun_run (s : State) (t : Nat) (r : Option RunRec) (i : Nat) : (s.setRun t r).run i = if i = t then r else s.run i :=
  get_put _ _ _ _ _
@[simp] theorem setRun_run_same (s : State) (t : Nat) (r : Option RunRec) : (s.setRun t r).run t = r := by simp [setRun_run]
theorem setJunction_junction (s : State) (j : Nat) (r : Option JunctionRec) (i : Nat) : (s.setJunction j r).junction i = if i = j then r else s.junction i :=
  get_put _ _ _ _ _
@[simp] theorem setJunction_junction_same (s : State) (j : Nat) (r : Option JunctionRec) : (s.setJunction j r).junction j = r := by simp [setJunction_junction]
theorem setOrder_order (s : State) (k : Nat) (o : Option Order) (i : Nat) : (s.setOrder k o).order i = if i = k then o else s.order i :=
  get_put _ _ _ _ _
@[simp] theorem setOrder_order_same (s : State) (k : Nat) (o : Option Order) : (s.setOrder k o).order k = o := by simp [setOrder_order]
theorem setRefs_orderRefs (s : State) (t : Nat) (r : OrderRefs) (i : Nat) : (s.setRefs t r).orderRefs i = if i = t then r else s.orderRefs i :=
  get_put _ _ _ _ _
@[simp] theorem setRefs_orderRefs_same (s : State) (t : Nat) (r : OrderRefs) : (s.setRefs t r).orderRefs t = r := by simp [setRefs_orderRefs]
theorem setPad_pad (s : State) (p : Nat) (r : PadRec) (i : Nat) : (s.setPad p r).pad i = if i = p then r else s.pad i :=
  get_put _ _ _ _ _
@[simp] theorem setPad_pad_same (s : State) (p : Nat) (r : PadRec) : (s.setPad p r).pad p = r := by simp [setPad_pad]
theorem setPlacement_placement (s : State) (x : Nat) (p : Placement) (i : Nat) : (s.setPlacement x p).placement i = if i = x then p else s.placement i :=
  get_put _ _ _ _ _
@[simp] theorem setPlacement_placement_same (s : State) (x : Nat) (p : Placement) : (s.setPlacement x p).placement x = p := by simp [setPlacement_placement]
theorem setLoad_load (s : State) (t : Nat) (l : Option Load) (i : Nat) : (s.setLoad t l).load i = if i = t then l else s.load i :=
  get_put _ _ _ _ _
@[simp] theorem setLoad_load_same (s : State) (t : Nat) (l : Option Load) : (s.setLoad t l).load t = l := by simp [setLoad_load]
theorem setTransfer_transferAt (s : State) (p : Nat) (r : Option TransferRec) (i : Nat) : (s.setTransfer p r).transferAt i = if i = p then r else s.transferAt i :=
  get_put _ _ _ _ _
@[simp] theorem setTransfer_transferAt_same (s : State) (p : Nat) (r : Option TransferRec) : (s.setTransfer p r).transferAt p = r := by simp [setTransfer_transferAt]
theorem setTrain_train (s : State) (t : Nat) (r : Option TransporterRec) (i : Nat) : (s.setTrain t r).train i = if i = t then r else s.train i :=
  get_put _ _ _ _ _
@[simp] theorem setTrain_train_same (s : State) (t : Nat) (r : Option TransporterRec) : (s.setTrain t r).train t = r := by simp [setTrain_train]
theorem setGrantMap_grantMap (s : State) (k : Nat) (m : GrantMap) (i : Nat) : (s.setGrantMap k m).grantMap i = if i = k then m else s.grantMap i :=
  get_put _ _ _ _ _
@[simp] theorem setGrantMap_grantMap_same (s : State) (k : Nat) (m : GrantMap) : (s.setGrantMap k m).grantMap k = m := by simp [setGrantMap_grantMap]
theorem setFence_fence (s : State) (k : Nat) (f : Option Fence) (i : Nat) : (s.setFence k f).fence i = if i = k then f else s.fence i :=
  get_put _ _ _ _ _
@[simp] theorem setFence_fence_same (s : State) (k : Nat) (f : Option Fence) : (s.setFence k f).fence k = f := by simp [setFence_fence]

end Sys2Proof.Laws
end

