-- ==== Sys2Proof/Laws/Kept.lean ====
section
/-!
SUPPORT. Laws/Kept.lean: `Kept` and `Calm` are reflexive and transitive, and hold of the writes to records. The lemmas for the blocks' own operations
stand in Laws/Work.lean.
-/

namespace Sys2Proof.Laws

open Sys2Proof Sys2Proof.Machine

/-! ### Reflexive and transitive -/

theorem StationKept.refl (a : Option JunctionRec) : StationKept a a := by
  cases a with
  | none => trivial
  | some r => exact fun h => ⟨h, rfl, fun h => h⟩

theorem StationKept.trans {a b c : Option JunctionRec} (h1 : StationKept a b) (h2 : StationKept b c) : StationKept a c := by
  cases a <;> cases b <;> cases c <;> simp only [StationKept] at *
  intro h
  obtain ⟨l1, b1, r1⟩ := h1 h
  obtain ⟨l2, b2, r2⟩ := h2 l1
  exact ⟨l2, b2.trans b1, fun h => r2 (r1 h)⟩

theorem ConditionKept.refl (a : Option TransporterRec) : ConditionKept a a := by
  cases a with
  | none => trivial
  | some r => exact .inl rfl

theorem ConditionKept.trans {a b c : Option TransporterRec} (h1 : ConditionKept a b) (h2 : ConditionKept b c) : ConditionKept a c := by
  cases a <;> cases b <;> cases c <;> simp only [ConditionKept] at *
  rcases h1 with h1 | ⟨h1, h1'⟩ <;> rcases h2 with h2 | ⟨h2, h2'⟩
  · exact .inl (h2.trans h1)
  · exact .inr ⟨h1 ▸ h2, h2'⟩
  · exact .inr ⟨h1, h2.trans h1'⟩
  · rw [h1'] at h2; exact absurd h2 (by decide)

theorem ConditionKept.of_map {a b : Option TransporterRec} (h : b.map (·.condition) = a.map (·.condition)) : ConditionKept a b := by
  cases a <;> cases b <;> simp_all [ConditionKept]

theorem PadCalm.refl (r : PadRec) : PadCalm r r := fun _ => .inl rfl

theorem PadCalm.trans {a b c : PadRec} (h1 : PadCalm a b) (h2 : PadCalm b c) : PadCalm a c := by
  intro h
  rcases h1 h with e | ⟨hs, x, e⟩
  · subst e; exact h2 h
  · subst e
    rcases h2 h with e | ⟨-, y, e⟩
    · exact .inr ⟨hs, x, e⟩
    · exact .inr ⟨hs, y, by rw [e]⟩

theorem Kept.refl (s : State) : Kept s s :=
  { layout := rfl, maps := rfl, fences := rfl, hold := rfl, inQueue := rfl, pause := rfl, receiver := rfl, silence := rfl, link := rfl
    requests := rfl, answers := rfl, window := rfl, flags := rfl, enables := rfl, params := rfl, cause := rfl, pending := rfl, late := rfl
    notices := fun _ h => h, ordered := fun h => h, sending := fun _ h => h, sensors := fun _ => rfl, holders := fun _ _ _ h => h, shapes := fun _ => rfl
    stations := fun _ => .refl _, pads := fun _ => rfl, declared := fun _ h => h, claims := fun _ _ h => h, trains := fun _ => rfl
    conditions := fun _ => .refl _, runs := fun _ => rfl, quiet := .inl rfl, canonical := fun h => h, distinct := fun h => h
    agenda := fun _ h => .inl h }

theorem Kept.trans {a b c : State} (h1 : Kept a b) (h2 : Kept b c) : Kept a c :=
  { layout := h2.layout.trans h1.layout, maps := h2.maps.trans h1.maps, fences := h2.fences.trans h1.fences, hold := h2.hold.trans h1.hold
    inQueue := h2.inQueue.trans h1.inQueue, pause := h2.pause.trans h1.pause, receiver := h2.receiver.trans h1.receiver
    silence := h2.silence.trans h1.silence, link := h2.link.trans h1.link, requests := h2.requests.trans h1.requests
    answers := h2.answers.trans h1.answers, window := h2.window.trans h1.window, flags := h2.flags.trans h1.flags
    enables := h2.enables.trans h1.enables, params := h2.params.trans h1.params, cause := h2.cause.trans h1.cause
    pending := h2.pending.trans h1.pending, late := h2.late.trans h1.late
    notices := fun n h => h2.notices n (h1.notices n h), ordered := fun h => h2.ordered (h1.ordered h)
    sending := fun m h => h2.sending m (h1.sending m h), sensors := fun n => (h2.sensors n).trans (h1.sensors n)
    holders := fun h n u hu => h1.holders h n u (h2.holders (by rw [State.holdActive, h1.hold]; exact h) n u hu)
    shapes := fun k => (h2.shapes k).trans (h1.shapes k), stations := fun j => (h1.stations j).trans (h2.stations j)
    pads := fun p => (h2.pads p).trans (h1.pads p), declared := fun p h => h2.declared p (h1.declared p h), claims := fun p k h => h1.claims p k (h2.claims p k h)
    trains := fun i => (h2.trains i).trans (h1.trains i), conditions := fun i => (h1.conditions i).trans (h2.conditions i)
    runs := fun i => (h2.runs i).trans (h1.runs i)
    quiet := by
      rcases h1.quiet with h | ⟨h, h'⟩ <;> rcases h2.quiet with g | ⟨g, g'⟩
      · exact .inl (g.trans h)
      · exact .inr ⟨h ▸ g, g'⟩
      · exact .inr ⟨h, g.trans h'⟩
      · rw [h'] at g; exact absurd g (by decide)
    canonical := fun h => h2.canonical (h1.canonical h), distinct := fun h => h2.distinct (h1.distinct h)
    agenda := fun x h => (h2.agenda x h).elim (h1.agenda x) .inr }

theorem Calm.refl (s : State) : Calm s s :=
  { toKept := .refl s, loads := rfl, telescopes := rfl, standing := fun _ => rfl, stands := fun _ => rfl, padsCalm := fun _ => .refl _ }

theorem Calm.trans {a b c : State} (h1 : Calm a b) (h2 : Calm b c) : Calm a c :=
  { toKept := h1.toKept.trans h2.toKept, loads := h2.loads.trans h1.loads, telescopes := h2.telescopes.trans h1.telescopes
    standing := fun i => (h2.standing i).trans (h1.standing i), stands := fun i => (h2.stands i).trans (h1.stands i)
    padsCalm := fun p => (h1.padsCalm p).trans (h2.padsCalm p) }

theorem Calm.foldl {α : Type} {f : State → α → State} (h : ∀ s x, Calm s (f s x)) (l : List α) (s : State) : Calm s (l.foldl f s) := by
  induction l generalizing s with
  | nil => exact .refl s
  | cons x rest ih => exact (h s x).trans (ih _)

theorem Kept.frame {s t : State} (h : Kept s t) : Frame s t :=
  { h with enrolled := fun i => by have := congrArg Option.isSome (h.trains i); simpa using this }

/-! ### The writes -/

theorem calm_emit (s : State) {xs : List Task} (h : ∀ x ∈ xs, inReport x = false) : Calm s (s.emit xs) :=
  { Calm.refl s with agenda := fun x hx => (List.mem_append.1 hx).imp_right (h x) }

theorem calm_makeDue (s : State) (k : Nat) : Calm s (s.makeDue k) := { Calm.refl s with }

theorem calm_dropDue (s : State) (l : List Nat) : Calm s { s with due := l } := { Calm.refl s with }

theorem calm_setHoldEnding (s : State) (v : Bool) : Calm s (s.setHoldEnding v) := { Calm.refl s with }

theorem calm_drawn (s : State) : Calm s s.drawn := { Calm.refl s with }

theorem calm_setWaiting (s : State) (w : List WaitEntry) : Calm s (s.setWaiting w) := { Calm.refl s with }

theorem calm_setFenced (s : State) (l : List FencedEntry) : Calm s (s.setFenced l) := { Calm.refl s with }

theorem calm_setPointer (s : State) (p : Option Nat) : Calm s (s.setPointer p) := { Calm.refl s with }

theorem calm_setInterval (s : State) (x : Timer) : Calm s (s.setInterval x) := { Calm.refl s with }

theorem calm_setTransmitter (s : State) (x : Transmitter) (h : s.wayside.transmitter = .idle) : Calm s (s.setTransmitter x) :=
  { Calm.refl s with sending := fun m hm => by rw [h] at hm; cases hm }

theorem calm_setOutQueue (s : State) {q : List OutMessage} (h : distinctObjects s.wayside.outQueue → distinctObjects q) :
    Calm s (s.setOutQueue q) := { Calm.refl s with distinct := h }

theorem calm_setSeg (s : State) (n : Nat) {r : SegDyn} (h : r.sensor = (s.seg n).sensor)
    (hh : s.holdActive = true → ∀ u, r.holder = some u → (s.seg n).holder = some u) : Calm s (s.setSeg n r) :=
  { Calm.refl s with
    sensors := fun m => by rw [setSeg_seg]; split <;> simp_all
    holders := fun ha m u hu => by
      rw [setSeg_seg] at hu
      split at hu
      · next e => subst e; exact hh ha u hu
      · exact hu
    canonical := fun hc => ⟨hc.1, wf_put hc.2.1 _ _, hc.2.2⟩ }

theorem calm_setRun (s : State) (t : Nat) {r : Option RunRec} (h : r.isSome = (s.run t).isSome) : Calm s (s.setRun t r) :=
  { Calm.refl s with
    runs := fun i => by rw [setRun_run]; split <;> simp_all
    canonical := fun hc => ⟨hc.1, hc.2.1, wf_put hc.2.2.1 _ _, hc.2.2.2⟩ }

theorem calm_setJunction (s : State) (j : Nat) {r : Option JunctionRec} (h : StationKept (s.junction j) r) : Calm s (s.setJunction j r) :=
  { Calm.refl s with
    stations := fun i => by
      rw [setJunction_junction]
      split
      · next e => subst e; exact h
      · exact .refl _
    canonical := fun hc => ⟨hc.1, hc.2.1, hc.2.2.1, wf_put hc.2.2.2.1 _ _, hc.2.2.2.2⟩ }

theorem calm_setOrder (s : State) (k : Nat) {o : Option Order} (h : o.map shape = (s.order k).map shape) : Calm s (s.setOrder k o) :=
  { Calm.refl s with
    shapes := fun i => by
      rw [setOrder_order]
      split
      · next e => subst e; exact h
      · rfl
    canonical := fun ⟨a, b, c, d, e, f⟩ => ⟨a, b, c, d, wf_put e _ _, f⟩ }

theorem calm_setRefs (s : State) (t : Nat) (r : OrderRefs) : Calm s (s.setRefs t r) :=
  { Calm.refl s with canonical := fun ⟨a, b, c, d, e, f, g⟩ => ⟨a, b, c, d, e, wf_put f _ _, g⟩ }

theorem calm_setTransfer (s : State) (p : Nat) (r : Option TransferRec) : Calm s (s.setTransfer p r) :=
  { Calm.refl s with canonical := fun ⟨a, b, c, d, e, f, g, h, i, j, k⟩ => ⟨a, b, c, d, e, f, g, h, i, wf_put j _ _, k⟩ }

theorem kept_setPad (s : State) (p : Nat) {r : PadRec} (h : padShape r = padShape (s.pad p))
    (hd : (s.pad p).state ≠ .undeclared → r.state ≠ .undeclared)
    (hc : ∀ k, r.claim = some k → (s.pad p).claim = some k) : Kept s (s.setPad p r) :=
  { Kept.refl s with
    pads := fun i => by
      rw [setPad_pad]
      split
      · next e => subst e; exact h
      · rfl
    declared := fun i hi => by
      rw [setPad_pad]
      split
      · next e => subst e; exact hd hi
      · exact hi
    claims := fun i k hk => by
      rw [setPad_pad] at hk
      split at hk
      · next e => subst e; exact hc k hk
      · exact hk
    canonical := fun ⟨a, b, c, d, e, f, g, x⟩ => ⟨a, b, c, d, e, f, wf_put g _ _, x⟩ }

theorem calm_setPad (s : State) (p : Nat) {r : PadRec} (h : padShape r = padShape (s.pad p))
    (hd : (s.pad p).state ≠ .undeclared → r.state ≠ .undeclared)
    (hc : ∀ k, r.claim = some k → (s.pad p).claim = some k) (hp : PadCalm (s.pad p) r) : Calm s (s.setPad p r) :=
  { kept_setPad s p h hd hc with
    loads := rfl, telescopes := rfl, standing := fun _ => rfl, stands := fun _ => rfl
    padsCalm := fun i => by
      rw [setPad_pad]
      split
      · next e => subst e; exact hp
      · exact .refl _ }

theorem kept_setLoad (s : State) (t : Nat) (l : Option Load) : Kept s (s.setLoad t l) :=
  { Kept.refl s with canonical := fun ⟨a, b, c, d, e, f, g, h, i, j⟩ => ⟨a, b, c, d, e, f, g, h, wf_put i _ _, j⟩ }

theorem kept_setPlacement (s : State) (x : Nat) (p : Placement) : Kept s (s.setPlacement x p) :=
  { Kept.refl s with canonical := fun ⟨a, b, c, d, e, f, g, h, i⟩ => ⟨a, b, c, d, e, f, g, wf_put h _ _, i⟩ }

theorem kept_setTrain (s : State) (t : Nat) {r : Option TransporterRec} (h : r.map trainShape = (s.train t).map trainShape)
    (hc : ConditionKept (s.train t) r) : Kept s (s.setTrain t r) :=
  { Kept.refl s with
    trains := fun i => by
      rw [setTrain_train]
      split
      · next e => subst e; exact h
      · rfl
    conditions := fun i => by
      rw [setTrain_train]
      split
      · next e => subst e; exact hc
      · exact .refl _
    canonical := fun ⟨a, b, c, d, e, f, g, h, i, j, k, l⟩ => ⟨a, b, c, d, e, f, g, h, i, j, wf_put k _ _, l⟩ }

theorem calm_setTrain (s : State) (t : Nat) {r : Option TransporterRec} (h : r.map trainShape = (s.train t).map trainShape)
    (hc : r.map (·.condition) = (s.train t).map (·.condition)) (hq : r.map (·.quietStand) = (s.train t).map (·.quietStand)) :
    Calm s (s.setTrain t r) :=
  { kept_setTrain s t h (.of_map hc) with
    loads := rfl, telescopes := rfl
    standing := fun i => by
      rw [setTrain_train]
      split
      · next e => subst e; exact hc
      · rfl
    stands := fun i => by
      rw [setTrain_train]
      split
      · next e => subst e; exact hq
      · rfl
    padsCalm := fun _ => .refl _ }

theorem mem_insertNotice (n m : Notice) (l : List Notice) (h : m ∈ l) : m ∈ insertNotice n l := by
  induction l with
  | nil => cases h
  | cons x rest ih =>
    unfold insertNotice
    split
    · exact List.mem_cons_of_mem _ h
    · split
      · exact h
      · rcases List.mem_cons.1 h with rfl | h
        · exact List.mem_cons_self
        · exact List.mem_cons_of_mem _ (ih h)

theorem self_mem_insertNotice (n : Notice) (l : List Notice) : n ∈ insertNotice n l := by
  induction l with
  | nil => simp [insertNotice]
  | cons x rest ih =>
    unfold insertNotice
    split
    · exact List.mem_cons_self
    · split
      · next h => exact h ▸ List.mem_cons_self
      · exact List.mem_cons_of_mem _ ih

theorem eq_or_mem_of_mem_insertNotice {n m : Notice} {l : List Notice} (h : m ∈ insertNotice n l) : m = n ∨ m ∈ l := by
  induction l with
  | nil => exact .inl (List.mem_singleton.1 h)
  | cons x rest ih =>
    unfold insertNotice at h
    split at h
    · exact List.mem_cons.1 h
    · split at h
      · exact .inr h
      · rcases List.mem_cons.1 h with rfl | h
        · exact .inr List.mem_cons_self
        · exact (ih h).imp_right (List.mem_cons_of_mem _)

theorem before_trans {a b c : Notice} (h1 : a.before b = true) (h2 : b.before c = true) : a.before c = true := by
  simp only [Notice.before, Bool.or_eq_true, decide_eq_true_eq, Bool.and_eq_true] at *
  omega

/-- Two notices stand in order one way or the other, or are the same kind and subject. -/
theorem before_total {a b : Notice} (h1 : a.before b = false) (h2 : a ≠ b) : b.before a = true := by
  obtain ⟨k, n⟩ := a
  obtain ⟨k', n'⟩ := b
  have hk : k.number = k'.number → k = k' := by cases k <;> cases k' <;> decide
  simp only [Notice.before, Bool.or_eq_true, decide_eq_true_eq, Bool.and_eq_true, Bool.or_eq_false_iff, decide_eq_false_iff_not,
    Bool.and_eq_false_iff] at *
  by_cases e : k.number = k'.number
  · have := hk e
    subst this
    have : n ≠ n' := fun h => h2 (by rw [h])
    omega
  · omega

theorem ordered_insertNotice (n : Notice) (l : List Notice) (h : noticesOrdered l) : noticesOrdered (insertNotice n l) := by
  unfold noticesOrdered at *
  induction l with
  | nil => simp [insertNotice]
  | cons x rest ih =>
    have hx := List.pairwise_cons.1 h
    unfold insertNotice
    split
    · next hb =>
      refine List.pairwise_cons.2 ⟨fun y hy => ?_, h⟩
      rcases List.mem_cons.1 hy with rfl | hy
      · exact hb
      · exact before_trans hb (hx.1 y hy)
    · next hb =>
      split
      · exact h
      · next hne =>
        refine List.pairwise_cons.2 ⟨fun y hy => ?_, ih hx.2⟩
        rcases eq_or_mem_of_mem_insertNotice hy with rfl | hy
        · exact before_total (by simpa using hb) hne
        · exact hx.1 y hy

/-- A notice raised is pending. -/
theorem mem_raise (s : State) (k : NoticeKind) (n : Nat) : ⟨k, n⟩ ∈ (s.raise k n).port.notices := self_mem_insertNotice _ _

theorem calm_raise (s : State) (k : NoticeKind) (n : Nat) : Calm s (s.raise k n) :=
  { Calm.refl s with notices := fun _ h => mem_insertNotice _ _ _ h, ordered := ordered_insertNotice _ _ }

end Sys2Proof.Laws
end

