-- ==== Sys2Proof/Laws/Work.lean ====
section
/-!
SUPPORT. Laws/Work.lean: every operation of the blocks that one event works off is `Calm`, or, for the stages of a report, `Kept`.
-/

namespace Sys2Proof.Laws

open Sys2Proof Sys2Proof.Machine

/-! ### The out-queue -/

theorem distinct_sublist {q q' : List OutMessage} (h : q'.Sublist q) (hq : distinctObjects q) : distinctObjects q' :=
  List.Nodup.sublist (h.map _) hq

theorem eraseFirst_sublist {α : Type} (p : α → Bool) (l : List α) : (eraseFirst p l).Sublist l := by
  induction l with
  | nil => exact .slnil
  | cons x rest ih =>
    unfold eraseFirst
    split
    · exact List.sublist_cons_self _ _
    · exact ih.cons_cons _

theorem distinct_placeOut {q : List OutMessage} (m : OutMessage) (hq : distinctObjects q) : distinctObjects (placeOut q m) := by
  have hmap : distinctObjects (q.map fun x => if outObject x = outObject m then m else x) := by
    unfold distinctObjects at *
    rw [List.map_map]
    have : (outObject ∘ fun x => if outObject x = outObject m then m else x) = outObject := by
      funext x
      simp only [Function.comp]
      split
      · next h => exact h.symm
      · rfl
    rwa [this]
  unfold placeOut
  split
  · split
    · exact hq
    · exact hmap
  · next h =>
    unfold distinctObjects at *
    rw [List.map_append, List.map_singleton]
    refine List.Nodup.append hq (by simp) ?_
    intro a ha hb
    rw [List.mem_singleton] at hb
    obtain ⟨x, hx, rfl⟩ := List.mem_map.1 ha
    exact h (List.any_eq_true.2 ⟨x, hx, by simpa using hb⟩)

theorem station_phase (r : JunctionRec) (op : Operation) (ph : Phase) (x : Timer) (h : r.operation = some op) :
    StationKept (some r) (some { r with operation := some { op with phase := ph, timer := x } }) := by
  obtain ⟨position, operation, hold, waiters, untrusted, underHolder⟩ := r
  subst h
  obtain ⟨req, ph', x'⟩ := op
  intro hl
  refine ⟨?_, ?_, ?_⟩
  · cases req <;> exact hl
  · cases req <;> rfl
  · intro hr
    cases req with
    | throw a b => simp [isRecovery] at hr
    | prove o => cases o <;> simp_all [isRecovery]

theorem calm_operationSent (s : State) (j : Nat) : Calm s (s.operationSent j) := by
  unfold State.operationSent
  split
  · next r hr =>
    split
    · next op hop => exact calm_setJunction s j (by rw [hr]; exact station_phase r op _ _ hop)
    · exact .refl s
  · exact .refl s

theorem calm_transmitted (s : State) (m : OutMessage) : Calm s (s.transmitted m) := by
  unfold State.transmitted
  cases m with
  | throw j x => exact calm_operationSent s j
  | prove j => exact calm_operationSent s j
  | couple p =>
    dsimp only
    split
    · next h =>
      exact calm_setPad s p rfl (by exact fun h => h) (by exact fun _ h => h) fun _ => .inr ⟨h, _, rfl⟩
    · exact .refl s
  | uncouple p => exact .refl s

theorem calm_commit (s : State) : Calm s s.commit := by
  unfold State.commit
  split
  · exact .refl s
  · next h =>
    split
    · exact .refl s
    · exact ((calm_setOutQueue s (distinct_sublist (eraseFirst_sublist _ _))).trans (calm_setTransmitter _ _ h)).trans (calm_transmitted _ _)

theorem calm_handOut (s : State) (m : OutMessage) : Calm s (s.handOut m) :=
  (calm_setOutQueue s (distinct_placeOut m)).trans (calm_commit _)

theorem calm_takeBack (s : State) (p : OutMessage → Bool) : Calm s (s.takeBack p) :=
  calm_setOutQueue s (distinct_sublist List.filter_sublist)

/-! ### The Junction Controller -/

theorem calm_tellHolder (s : State) (j : Nat) : Calm s (s.tellHolder j) := by
  unfold State.tellHolder
  split
  · exact calm_emit s (by simp [inReport])
  · exact .refl s

theorem calm_rotationEnds (s : State) (op : Option Operation) : Calm s (s.rotationEnds op) := by
  unfold State.rotationEnds
  split
  · exact calm_setInterval s _
  · exact .refl s

@[simp] theorem rotationEnds_junction (s : State) (op : Option Operation) (i : Nat) : (s.rotationEnds op).junction i = s.junction i := by
  unfold State.rotationEnds
  split <;> rfl

/-- A record whose operation is no throw stands in its own position. -/
theorem basis_of_settled {r : JunctionRec} (hl : r.lawful) (h : settled r.position = true) : basis r = r.position := by
  unfold basis
  split
  · next a b c d e =>
    unfold JunctionRec.lawful at hl
    rw [e] at hl
    rw [hl.1] at h
    exact absurd h (by decide)
  · rfl

theorem calm_queueThrow (s : State) (j : Nat) (target : SwitchSetting)
    (h : ∀ r, s.junction j = some r → settled r.position = true ∧ isRecovery r.operation = false) : Calm s (s.queueThrow j target) := by
  unfold State.queueThrow
  split
  · exact .refl s
  · next r hr =>
    obtain ⟨hs, hrec⟩ := h r hr
    refine (((calm_rotationEnds s _).trans (calm_setJunction _ j ?_)).trans (calm_handOut _ _)).trans (calm_tellHolder _ _)
    rw [rotationEnds_junction, hr]
    intro hl
    refine ⟨?_, ?_, ?_⟩
    · exact ⟨rfl, hs⟩
    · rw [basis_of_settled hl hs]; rfl
    · intro h'; rw [hrec] at h'; exact absurd h' (by decide)

theorem calm_throwCheck (s : State) (j : Nat) : Calm s (s.throwCheck j) := by
  unfold State.throwCheck
  split
  · next t r ht hr =>
    split
    · split
      · next h =>
        refine calm_queueThrow s j _ fun r' hr' => ?_
        rw [hr] at hr'
        cases hr'
        refine ⟨h.2.1, ?_⟩
        have := h.2.2.2.1
        unfold proveAllowsThrow at this
        unfold isRecovery
        split at this <;> simp_all
      · exact .refl s
    · exact .refl s
  · exact .refl s

theorem calm_restDecision (s : State) (j : Nat) : Calm s (s.restDecision j) := by
  unfold State.restDecision
  split
  · next r d hr hd =>
    split
    · split
      · next h =>
        refine calm_queueThrow s j _ fun r' hr' => ?_
        rw [hr] at hr'
        cases hr'
        exact ⟨h.2.2.2.2.1, by rw [h.2.2.2.1]; rfl⟩
      · exact .refl s
    · exact .refl s
  · exact .refl s

theorem calm_withdrawThrow (s : State) (j : Nat) : Calm s (s.withdrawThrow j) := by
  unfold State.withdrawThrow
  split
  · next r hr =>
    split
    · next a prior x hop =>
      refine (((calm_takeBack s _).trans (calm_setJunction _ j ?_)).trans (calm_tellHolder _ _)).trans (calm_emit _ (by simp [inReport]))
      show StationKept (s.junction j) _
      rw [hr]
      intro hl
      refine ⟨?_, ?_, ?_⟩
      · unfold JunctionRec.lawful at hl ⊢
        rw [hop] at hl
        intro (e : prior = .moving)
        have h2 : settled prior = true := hl.2
        rw [e] at h2
        exact absurd h2 (by decide)
      · simp [basis, hop]
      · intro h'; rw [hop] at h'; exact absurd h' (by simp [isRecovery])
    · exact .refl s
  · exact .refl s

/-- A record whose hold, waiters or trust alone change is kept. -/
theorem station_aside (r r' : JunctionRec) (hp : r'.position = r.position) (ho : r'.operation = r.operation) :
    StationKept (some r) (some r') := by
  intro hl
  refine ⟨?_, ?_, ?_⟩
  · unfold JunctionRec.lawful at *; rw [hp, ho]; exact hl
  · unfold basis; rw [hp, ho]
  · rw [ho]; exact fun h => h

theorem calm_junctionReleased (s : State) (j : Nat) : Calm s (s.junctionReleased j) := by
  unfold State.junctionReleased
  split
  · next r hr => exact (calm_setJunction s j (by rw [hr]; exact station_aside _ _ rfl rfl)).trans (calm_withdrawThrow _ _)
  · exact .refl s

theorem calm_junctionGranted (s : State) (j : Nat) : Calm s (s.junctionGranted j) := by
  unfold State.junctionGranted
  split
  · next r hr =>
    exact ((calm_setJunction s j (by rw [hr]; exact station_aside _ _ rfl rfl)).trans (calm_withdrawThrow _ _)).trans
      (calm_emit _ (by simp [inReport]))
  · exact .refl s

theorem calm_dropUnneededThrow (s : State) (t j : Nat) : Calm s (s.dropUnneededThrow t j) := by
  unfold State.dropUnneededThrow
  split
  · split
    · split
      · exact .refl s
      · exact calm_withdrawThrow s j
    · exact .refl s
  · exact .refl s

theorem calm_reviewJunctions (s : State) (t : Nat) : Calm s (s.reviewJunctions t) :=
  Calm.foldl (fun s j => (calm_dropUnneededThrow s t j).trans (calm_emit _ (by simp [inReport]))) _ s

theorem rotationNext_eligible {s : State} {j : Nat} {r : JunctionRec} (h : s.rotationNext = some j) (hr : s.junction j = some r) :
    s.rotationEligible j r = true := by
  have key : ∀ i, i ∈ ((Table.keys s.junctions.recs).filter fun j => match s.junction j with
      | some r => s.rotationEligible j r
      | none => false) → i = j → s.rotationEligible j r = true := by
    rintro i hi rfl
    have := (List.mem_filter.1 hi).2
    rwa [hr] at this
  unfold State.rotationNext at h
  dsimp only at h
  split at h
  · exact key j (List.mem_of_mem_head? h) rfl
  · rcases Option.or_eq_some_iff.1 h with h | ⟨-, h⟩
    · exact key j (List.mem_of_find?_eq_some h) rfl
    · exact key j (List.mem_of_mem_head? h) rfl

theorem calm_rotation (s : State) : Calm s s.rotation := by
  unfold State.rotation
  split
  · split
    · exact .refl s
    · next j hj =>
      split
      · exact .refl s
      · next r hr =>
        refine ((calm_setJunction s j ?_).trans (calm_setPointer _ _)).trans (calm_handOut _ _)
        rw [hr]
        have he := rotationNext_eligible hj hr
        simp only [State.rotationEligible, Bool.and_eq_true, Option.isNone_iff_eq_none] at he
        obtain ⟨⟨-, hs⟩, hop⟩ := he
        intro hl
        refine ⟨?_, ?_, ?_⟩
        · intro (e : r.position = .moving)
          rw [e] at hs
          exact absurd hs (by decide)
        · simp [basis, hop]
        · rw [hop]; intro h; exact absurd h (by simp [isRecovery])
  · exact .refl s

/-! ### The Interlock Core -/

theorem calm_ite {s : State} {p : Prop} [Decidable p] {a b : State} (ha : p → Calm s a) (hb : ¬p → Calm s b) : Calm s (if p then a else b) := by
  split
  · exact ha ‹_›
  · exact hb ‹_›

theorem calm_unlistHead (s : State) (slot : Nat) : Calm s (s.unlistHead slot) := by
  unfold State.unlistHead
  refine ((calm_setWaiting s _).trans (calm_setFenced _ _)).trans { Calm.refl _ with stations := ?_, canonical := ?_ }
  · intro j
    show StationKept (Table.get none _ j) (Table.get none (Table.mapRecords none _ _) j)
    rw [get_mapRecords _ _ (by simp)]
    generalize Table.get none _ j = r
    cases r with
    | none => trivial
    | some r => exact station_aside _ _ rfl rfl
  · exact fun ⟨a, b, c, _, d⟩ => ⟨a, b, c, wf_mapRecords _ _ _, d⟩

theorem calm_setConfirm (s : State) (t : Nat) (c : Confirm) : Calm s (s.setConfirm t c) := by
  unfold State.setConfirm
  split
  · next r hr => exact calm_setRun s t (by rw [hr]; rfl)
  · exact .refl s

theorem calm_settleConfirm (s : State) (t : Nat) : Calm s (s.settleConfirm t) := by
  unfold State.settleConfirm
  exact calm_ite (fun _ => calm_setConfirm s t _) (fun _ => .refl s)

theorem calm_mark (s : State) (t : Nat) (ns : List Nat) (d : Disposition) : Calm s (s.mark t ns d) := by
  unfold State.mark
  refine Calm.foldl (fun s n => ?_) ns s
  dsimp only
  split
  · exact calm_setSeg s n (by rfl) (by exact fun _ _ h => h)
  · exact .refl s

theorem calm_unmark (s : State) (ns : List Nat) : Calm s (s.unmark ns) :=
  Calm.foldl (fun s n => calm_setSeg s n (by rfl) (by exact fun _ _ h => h)) ns s

theorem calm_makeActiveDue (s : State) (t : Nat) : Calm s (s.makeActiveDue t) := by
  unfold State.makeActiveDue
  split
  · exact calm_makeDue s _
  · exact .refl s

theorem calm_reviseMarks (s : State) (t : Nat) : Calm s (s.reviseMarks t) := by
  unfold State.reviseMarks
  dsimp only
  split
  · split
    · exact .refl s
    · exact ((calm_mark s t _ _).trans (calm_setConfirm _ t _)).trans (calm_emit _ (by simp [inReport]))
  · split
    · exact .refl s
    · exact ((calm_unmark s _).trans (calm_settleConfirm _ t)).trans (calm_makeActiveDue _ t)

theorem calm_withdraw (s : State) (t k : Nat) : Calm s (s.withdraw t k) := by
  unfold State.withdraw
  dsimp only
  have step : Calm s (if k < s.sentReach t then
      if s.heldBeyond t k = [] then s
      else
        if s.releaseCause t then
          ((s.mark t (s.heldBeyond t k) (if s.releaseCause t then .release else .keep)).setConfirm t .awaitingPoll).emit [.reviewJunctions t]
        else (s.mark t (s.heldBeyond t k) (if s.releaseCause t then .release else .keep)).setConfirm t .awaitingPoll
    else if s.releaseCause t then s.emit (((s.heldBeyond t k).filter (s.yieldsAtOnce t)).map fun n => .release n t)
    else s.mark t ((s.heldBeyond t k).filter (s.keepCause t)) .keep) := by
    refine calm_ite (fun _ => calm_ite (fun _ => .refl s) fun _ => calm_ite (fun _ => ?_) fun _ => ?_)
      fun _ => calm_ite (fun _ => ?_) fun _ => ?_
    · exact ((calm_mark s t _ _).trans (calm_setConfirm _ t _)).trans (calm_emit _ (by simp [inReport]))
    · exact (calm_mark s t _ _).trans (calm_setConfirm _ t _)
    · exact calm_emit s (by
        intro x hx
        obtain ⟨n, -, rfl⟩ := List.mem_map.1 hx
        rfl)
    · exact calm_mark s t _ _
  refine calm_ite (fun _ => ?_) fun _ => step
  exact step.trans (calm_emit _ (by simp [inReport]))

theorem calm_recompute (s : State) (t : Nat) : Calm s (s.recompute t) := by
  unfold State.recompute
  split
  · exact .refl s
  · dsimp only
    split
    · exact calm_reviseMarks s t
    · next r hr => exact ((calm_reviseMarks s t).trans (calm_setRun _ t (by rw [hr]; rfl))).trans (calm_withdraw _ t _)

theorem calm_reshape (s : State) (k : Nat) {o o' : Order} (h : s.order k = some o) (hs : shape o' = shape o) :
    Calm s (s.setOrder k (some o')) := calm_setOrder s k (by rw [h]; exact congrArg some hs)

theorem active_order {s : State} {t k : Nat} {o : Order} (h : s.active t = some (k, o)) : s.order k = some o := by
  unfold State.active at h
  split at h
  · obtain ⟨x, hx, he⟩ := Option.map_eq_some_iff.1 h
    cases he
    exact hx
  · cases h

theorem calm_fallBack (s : State) (t n : Nat) : Calm s (s.fallBack t n) := by
  unfold State.fallBack
  split
  · exact .refl s
  · next slot o h =>
    split
    · exact .refl s
    · dsimp only
      split
      · exact (calm_reshape s slot (active_order h) (by rfl)).trans (calm_makeDue _ _)
      · exact .refl s

/-- A grant, where the array hold is not active or the transporter already holds the segment. -/
theorem calm_grant (s : State) (t n : Nat) (h : s.holdActive = false ∨ (s.seg n).holder = some t) : Calm s (s.grant t n) := by
  unfold State.grant
  have h1 : Calm s (s.setSeg n { s.seg n with holder := some t }) := by
    refine calm_setSeg s n rfl fun ha u hu => ?_
    rcases h with h | h
    · rw [h] at ha; cases ha
    · exact h.trans hu
  exact (h1.trans (calm_emit _ (by simp [inReport]))).trans (calm_junctionGranted _ _)

theorem calm_release (s : State) (n t : Nat) : Calm s (s.release n t) := by
  unfold State.release
  dsimp only
  refine calm_ite (fun _ => .refl s) fun _ => ?_
  refine Calm.trans ?_ (calm_emit _ (by simp [inReport]))
  have h1 : Calm s (s.setSeg n { s.seg n with holder := none, leaving := false, withdrawing := none }) :=
    calm_setSeg s n (by rfl) (by intro _ u hu; cases hu)
  have h2 := h1.trans (calm_ite (p := (s.seg n).withdrawing.isSome = true) (fun _ => calm_settleConfirm _ t) (fun _ => .refl _))
  have h3 := (h2.trans (calm_fallBack _ t n)).trans (calm_junctionReleased _ n)
  exact h3.trans (calm_ite (fun _ => calm_raise _ _ _) (fun _ => calm_emit _ (by simp [inReport])))

theorem calm_tailRelease (s : State) (n t : Nat) : Calm s (s.tailRelease n t) := by
  unfold State.tailRelease
  exact calm_ite (fun _ => calm_emit s (by simp [inReport])) (fun _ => .refl s)

theorem calm_enqueue (s : State) (t n : Nat) : Calm s (s.enqueue t n) := calm_setSeg s n (by rfl) (by exact fun _ _ h => h)

theorem calm_waitFor (s : State) (slot n : Nat) (c : WaitCause) : Calm s (s.waitFor slot n c) := calm_setWaiting s _

theorem claimResult_granted {s : State} {t n : Nat} (h : s.claimResult t n = .granted) :
    (s.seg n).holder = some t ∨ ((s.seg n).holder = none ∧ s.holdActive = false) := by
  unfold State.claimResult at h
  dsimp only at h
  by_cases h1 : (s.seg n).holder = some t
  · exact .inl h1
  · rw [if_neg h1] at h
    right
    split at h
    · cases h
    · split at h
      · cases h
      · split at h
        · cases h
        · split at h
          · next hn =>
            refine ⟨hn, ?_⟩
            split at h
            · cases h
            · split at h
              · cases h
              · split at h
                · cases h
                · next hq => simpa using (not_or.1 hq).1
          · split at h <;> cases h

theorem calm_claimEffect (s : State) (t slot n : Nat) (x : ClaimResult) (h : s.claimResult t n = x) : Calm s (s.claimEffect t slot n x) := by
  cases x with
  | granted =>
    simp only [State.claimEffect]
    refine calm_ite (fun _ => ?_) fun hn => calm_grant s t n ?_
    · exact (calm_setSeg s n (by rfl) (by exact fun _ _ h => h)).trans (calm_emit _ (by simp [inReport]))
    · rcases claimResult_granted h with h | h
      · exact .inr h
      · exact .inl h.2
  | queued => exact calm_enqueue s t n
  | waitSensor => exact calm_waitFor s _ _ _
  | waitIntrusion => exact calm_waitFor s _ _ _
  | waitSwitch =>
    simp only [State.claimEffect]
    split
    · next r hr => exact calm_setJunction s n (by rw [hr]; exact station_aside _ _ rfl rfl)
    · exact .refl s
  | refusedFenced => exact (calm_setFenced s _).trans (calm_raise _ _ _)
  | refusedCycle => exact (calm_waitFor s _ _ _).trans (calm_raise _ _ _)
  | full => exact calm_waitFor s _ _ _

theorem calm_applyResult (s : State) (slot n : Nat) (x : ClaimResult) : Calm s (s.applyResult slot n x) := by
  unfold State.applyResult
  split
  · exact .refl s
  · next o ho =>
    dsimp only
    have h1 : ∀ o', shape o' = shape o → Calm s (s.setOrder slot (some o')) := fun o' h => calm_reshape s slot ho h
    exact calm_ite (fun _ => (h1 _ (by rfl)).trans (calm_makeDue _ _)) (fun _ => h1 _ (by rfl))

theorem calm_decideClaim (s : State) (slot n : Nat) : Calm s (s.decideClaim slot n) := by
  unfold State.decideClaim
  split
  · exact .refl s
  · exact (calm_claimEffect s _ slot n _ rfl).trans (calm_applyResult _ _ _ _)

theorem calm_claim (s : State) (slot : Nat) : Calm s (s.claim slot) := by
  unfold State.claim
  split
  · exact .refl s
  · split
    · exact .refl s
    · exact calm_decideClaim s _ _

theorem calm_represent (s : State) (slot n : Nat) : Calm s (s.represent slot n) := by
  unfold State.represent
  exact calm_ite (fun _ => (calm_unlistHead s _).trans (calm_decideClaim _ _ _)) (fun _ => .refl s)

theorem calm_extend (s : State) : Calm s s.extend := by
  unfold State.extend
  split
  · exact .refl s
  · refine calm_ite (fun _ => calm_emit s (by simp [inReport])) (fun _ => ?_)
    exact (calm_dropDue s _).trans (calm_emit _ (by simp [inReport]))

theorem calm_serve (s : State) (n : Nat) : Calm s (s.serve n) := by
  unfold State.serve
  refine calm_ite (fun h => ?_) (fun _ => .refl s)
  split
  · exact .refl s
  · next t rest hq =>
    have hh : s.holdActive = false := by
      unfold State.servable at h
      simp only [Bool.and_eq_true, Bool.not_eq_true'] at h
      exact h.2
    dsimp only
    refine Calm.trans ?_ (calm_emit _ (by simp [inReport]))
    have h1 : Calm s ((s.setSeg n { s.seg n with queue := rest }).grant t n) :=
      (calm_setSeg s n (by rfl) (by exact fun _ _ h => h)).trans (calm_grant _ t n (.inl hh))
    split
    · exact h1.trans (calm_applyResult _ _ _ _)
    · exact h1

theorem calm_serveAll (s : State) : Calm s s.serveAll :=
  calm_emit s (by
    intro x hx
    obtain ⟨n, -, rfl⟩ := List.mem_map.1 hx
    rfl)

theorem calm_retry (s : State) (n : Nat) (cs : List WaitCause) : Calm s (s.retry n cs) :=
  calm_emit s (by
    intro x hx
    obtain ⟨e, -, rfl⟩ := List.mem_map.1 hx
    rfl)

theorem calm_retryAll (s : State) : Calm s s.retryAll :=
  calm_emit s (by
    intro x hx
    obtain ⟨e, -, rfl⟩ := List.mem_map.1 hx
    rfl)

theorem calm_confirm (s : State) (t : Nat) : Calm s (s.confirm t) := by
  unfold State.confirm
  split
  · exact .refl s
  · dsimp only
    refine calm_ite (fun _ => calm_emit s ?_) (fun _ => .refl s)
    intro x hx
    rcases List.mem_append.1 hx with hx | hx
    · obtain ⟨n, -, rfl⟩ := List.mem_map.1 hx
      rfl
    · rw [List.mem_singleton] at hx
      subst hx
      rfl

theorem calm_confirmed (s : State) (t : Nat) : Calm s (s.confirmed t) := by
  unfold State.confirmed
  split
  · exact .refl s
  · refine calm_ite (fun _ => ?_) (fun _ => calm_emit s (by simp [inReport]))
    exact (calm_setConfirm s t _).trans (calm_emit _ (by simp [inReport]))

theorem calm_confirmPolled (s : State) (t : Nat) : Calm s (s.confirmPolled t) := by
  unfold State.confirmPolled
  split
  · exact calm_ite (fun _ => calm_setConfirm s t _) (fun _ => .refl s)
  · exact .refl s

theorem calm_confirmMissed (s : State) (t : Nat) : Calm s (s.confirmMissed t) := by
  unfold State.confirmMissed
  split
  · exact calm_ite (fun _ => calm_setConfirm s t _) (fun _ => .refl s)
  · exact .refl s

/-! ### The Order Table -/

theorem calm_leaveQueue (s : State) (t n : Nat) : Calm s (s.leaveQueue t n) := by
  unfold State.leaveQueue
  dsimp only
  refine calm_ite (fun _ => ?_) (fun _ => .refl s)
  have h1 : Calm s (s.setSeg n { s.seg n with queue := (s.seg n).queue.filter fun u => decide (u ≠ t) }) :=
    calm_setSeg s n rfl (fun _ _ h => h)
  exact calm_ite (fun _ => h1.trans (calm_emit _ (by simp [inReport]))) (fun _ => h1)

theorem calm_leaveQueues (s : State) (t : Nat) : Calm s (s.leaveQueues t) :=
  (Calm.foldl (fun s n => calm_leaveQueue s t n) _ s).trans (Calm.foldl calm_unlistHead _ _)

theorem calm_reshape_of {s s' : State} (hs : Calm s s') (k : Nat) {o o' : Order} (h : s.order k = some o) (ho : shape o' = shape o) :
    Calm s (s'.setOrder k (some o')) :=
  hs.trans (calm_setOrder s' k (by rw [hs.shapes k, h]; exact congrArg some ho))

theorem calm_removeHead (s : State) (slot : Nat) : Calm s (s.removeHead slot) := by
  unfold State.removeHead
  split
  · exact .refl s
  · next o ho =>
    dsimp only
    refine calm_reshape_of ?_ slot ho rfl
    split
    · exact (calm_unlistHead s slot).trans (calm_leaveQueue _ _ _)
    · exact calm_unlistHead s slot

theorem padCalm_of_claim {r r' : PadRec} {k : Nat} (h : r.claim = some k) : PadCalm r r' := fun hn => by rw [h] at hn; cases hn

theorem withoutClaim_kept (r : PadRec) (slot : Nat) :
    padShape (r.withoutClaim slot) = padShape r ∧ (r.state ≠ .undeclared → (r.withoutClaim slot).state ≠ .undeclared)
      ∧ (∀ k, (r.withoutClaim slot).claim = some k → r.claim = some k) ∧ PadCalm r (r.withoutClaim slot)
      ∧ (r.withoutClaim slot).claim ≠ some slot := by
  unfold PadRec.withoutClaim
  split
  · next h => exact ⟨rfl, fun h => h, fun _ h => h, .refl _, h⟩
  · next h =>
    have h : r.claim = some slot := not_not.1 h
    split
    · refine ⟨rfl, fun _ => by simp, ?_, padCalm_of_claim h, by simp⟩
      intro k hk; cases hk
    · refine ⟨rfl, fun h => h, ?_, padCalm_of_claim h, by simp⟩
      intro k hk; cases hk

theorem withoutClaim_undeclared (slot : Nat) : PadRec.undeclared.withoutClaim slot = PadRec.undeclared := rfl

@[simp] theorem dropClaim_pad (s : State) (slot p : Nat) : (s.dropClaim slot).pad p = (s.pad p).withoutClaim slot :=
  get_mapRecords PadRec.undeclared (fun _ r => r.withoutClaim slot) (fun _ => rfl) _ p

theorem calm_dropClaim (s : State) (slot : Nat) : Calm s (s.dropClaim slot) :=
  { Calm.refl s with
    pads := fun p => by rw [dropClaim_pad]; exact (withoutClaim_kept _ _).1
    declared := fun p h => by rw [dropClaim_pad]; exact (withoutClaim_kept _ _).2.1 h
    claims := fun p k h => by rw [dropClaim_pad] at h; exact (withoutClaim_kept _ _).2.2.1 k h
    canonical := fun ⟨a, b, c, d, e, f, _, h⟩ => ⟨a, b, c, d, e, f, wf_mapRecords _ _ _, h⟩
    padsCalm := fun p => by rw [dropClaim_pad]; exact (withoutClaim_kept _ _).2.2.2.1 }

theorem calm_endOrder (s : State) (slot : Nat) (x : OrderOutcome) : Calm s (s.endOrder slot x) := by
  unfold State.endOrder
  have h0 : Calm s ((s.removeHead slot).dropClaim slot) := (calm_removeHead s slot).trans (calm_dropClaim _ _)
  dsimp only
  split
  · exact h0
  · next o ho =>
    refine Calm.trans ?_ (calm_emit _ (by simp [inReport]))
    refine Calm.trans ((h0.trans (calm_reshape _ slot ho ?_)).trans (calm_setRefs _ _ _)) (calm_ite (fun _ => calm_raise _ _ _) (fun _ => calm_raise _ _ _))
    rfl

theorem calm_failOrder (s : State) (slot : Nat) (c : FailureCause) : Calm s (s.failOrder slot c) := by
  unfold State.failOrder
  split
  · exact .refl s
  · next o ho =>
    exact ((calm_reshape s slot ho (by rfl)).trans (calm_raise _ _ _)).trans (calm_emit _ (by simp [inReport]))

/-! ### The Transfer Unit: starting -/

theorem startCheck_claim {s : State} {slot t : Nat} {f : Finish} {x : Nat} (h : s.startCheck slot t f = some x) :
    ∀ p, finishPad f = some p → (s.pad p).claim = some slot ∧ (s.pad p).state ≠ .undeclared := by
  intro p hp
  cases f with
  | none => cases hp
  | lift q =>
    cases hp
    simp only [State.startCheck] at h
    split at h
    · next hc => exact ⟨hc.2.1, by rw [hc.1]; decide⟩
    · cases h
  | setDown q =>
    cases hp
    simp only [State.startCheck] at h
    split at h
    · next hc => exact ⟨hc.2.1, by rw [hc.1]; decide⟩
    · cases h

theorem calm_beginTransfer (s : State) (slot t : Nat) (f : Finish) : Calm s (s.beginTransfer slot t f) := by
  unfold State.beginTransfer
  split
  · next p x hx =>
    obtain ⟨hc, hd⟩ := startCheck_claim hx p rfl
    refine ((calm_setTransfer s p _).trans (calm_setPad _ p (by rfl) (by simp) (by simp) ?_)).trans (calm_handOut _ _)
    exact padCalm_of_claim (k := slot) (by simpa using hc)
  · next p x hx =>
    obtain ⟨hc, hd⟩ := startCheck_claim hx p rfl
    refine (calm_setTransfer s p _).trans (calm_setPad _ p (by rfl) (by exact fun h => h) (by exact fun _ h => h) ?_)
    exact padCalm_of_claim (k := slot) (by simpa using hc)
  · dsimp only
    refine Calm.trans ?_ (calm_failOrder _ _ _)
    split
    · next p hp =>
      refine calm_ite (fun hc => ?_) (fun _ => .refl s)
      exact calm_setPad s p rfl (fun h => h) (fun k hk => by cases hk) (padCalm_of_claim hc)
    · exact .refl s

theorem calm_startTransfers (s : State) : Calm s s.startTransfers := by
  unfold State.startTransfers
  split
  · exact .refl s
  · next slot _ =>
    split
    · exact .refl s
    · next o ho =>
      exact (((calm_reshape s slot ho (by rfl)).trans (calm_emit _ (by simp [inReport]))).trans (calm_beginTransfer _ _ _ _)).trans
        (calm_emit _ (by simp [inReport]))

theorem calm_resumeTimers (s : State) : Calm s s.resumeTimers := by
  unfold State.resumeTimers
  refine Calm.foldl (fun s p => ?_) _ s
  split
  · split
    · exact calm_setTransfer s p _
    · exact .refl s
  · exact .refl s

theorem calm_suspendTransfers (s : State) : Calm s s.suspendTransfers := by
  unfold State.suspendTransfers
  refine Calm.foldl (fun s p => ?_) _ s
  split
  · split
    · exact (calm_setTransfer s p _).trans (calm_drawn _)
    · exact .refl s
  · exact .refl s

theorem calm_resumeTransfers (s : State) : Calm s s.resumeTransfers := by
  unfold State.resumeTransfers
  exact calm_ite (fun _ => calm_setHoldEnding s false)
    (fun _ => ((calm_setHoldEnding s false).trans (calm_resumeTimers _)).trans (calm_commit _))

/-! ### Refuges -/

theorem calm_popTo (s : State) (t : Nat) (x : Place) : Calm s (s.popTo t x) := by
  unfold State.popTo
  split
  · exact .refl s
  · next slot rest _ =>
    split
    · exact .refl s
    · next o ho =>
      exact ((calm_reshape s slot ho (by rfl)).trans (calm_setRefs _ _ _)).trans (calm_makeDue _ _)

theorem calm_rejoin (s : State) (t slot : Nat) (o : Order) : Calm s (s.rejoin t slot o) := by
  unfold State.rejoin
  dsimp only
  have h0 := calm_endOrder s slot .done
  split
  · exact h0
  · next place _ =>
    have h1 := h0.trans (calm_popTo _ t place)
    split
    · exact h1
    · exact h1.trans (calm_ite (fun _ => calm_emit _ (by simp [inReport])) (fun _ => calm_emit _ (by simp [inReport])))

theorem calm_arrival (s : State) (t : Nat) : Calm s (s.arrival t) := by
  unfold State.arrival
  split
  · exact .refl s
  · next slot o h =>
    have ho := active_order h
    refine calm_ite (fun _ => .refl s) fun _ => calm_ite (fun _ => ?_) fun _ => calm_ite (fun _ => ?_) fun _ => .refl s
    · refine calm_ite (fun _ => calm_rejoin s t slot o) fun _ => calm_ite (fun _ => ?_) fun _ => .refl s
      exact ((calm_reshape s slot ho (by rfl)).trans (calm_removeHead _ slot)).trans (calm_emit _ (by simp [inReport]))
    · dsimp only
      have h1 : Calm s ((s.setOrder slot (some { o with state := .arrived })).emit [.recompute t, .reviewJunctions t]) :=
        (calm_reshape s slot ho (by rfl)).trans (calm_emit _ (by intro x hx; simp at hx; rcases hx with rfl | rfl <;> rfl))
      exact calm_ite (fun _ => h1.trans (calm_endOrder _ _ _)) (fun _ => h1)

theorem calm_startDivert (s : State) (t slot : Nat) (refuge : Order) (place : Place) (h : (s.order slot).map shape = some (shape refuge)) :
    Calm s (s.startDivert t slot refuge place) := by
  unfold State.startDivert
  dsimp only
  refine Calm.trans ?_ (calm_emit _ (by simp [inReport]))
  have h1 : Calm s (s.setOrder slot (some { refuge with state := .starting, rejoin := some place })) :=
    calm_setOrder s slot (by rw [h]; rfl)
  split
  · exact h1.trans (calm_removeHead _ _)
  · exact h1

theorem calm_takeUpDivert (s : State) (t slot : Nat) (refuge : Order) (h : s.order slot = some refuge) :
    Calm s (s.takeUpDivert t slot refuge) := by
  unfold State.takeUpDivert
  dsimp only
  split
  · exact .refl s
  · next a o ha =>
    have ho := active_order ha
    have h1 : Calm s (s.setOrder a (some { o with state := .suspended, claim := o.cursor })) := calm_reshape s a ho rfl
    have h2 : Calm s ((s.setOrder a (some { o with state := .suspended, claim := o.cursor })).setOrder slot
        (some { refuge with state := .running })) := calm_reshape_of h1 slot h rfl
    refine calm_ite (fun _ => Calm.trans ?_ (calm_emit _ (by simp [inReport]))) fun _ => ?_
    all_goals
      refine (((h2.trans (calm_setRefs _ _ _)).trans (calm_emit _ ?_)).trans (calm_emit _ (by simp [inReport]))).trans (calm_makeDue _ _)
      intro x hx
      obtain ⟨n, -, rfl⟩ := List.mem_map.1 hx
      rfl

theorem calm_voidDivert (s : State) (t slot : Nat) : Calm s (s.voidDivert t slot) :=
  ((calm_endOrder s slot .void).trans (calm_makeActiveDue _ t)).trans (calm_emit _ (by simp [inReport]))

theorem calm_complete (s : State) (t : Nat) : Calm s (s.complete t) := by
  unfold State.complete
  refine calm_ite (fun _ => .refl s) fun _ => ?_
  split
  · split
    · exact .refl s
    · next refuge hr => exact calm_ite (fun _ => calm_takeUpDivert s t _ refuge hr) (fun _ => calm_voidDivert s t _)
  · split
    · exact calm_ite (fun _ => calm_endOrder s _ _) (fun _ => .refl s)
    · exact .refl s

theorem calm_takeUpPending (s : State) (t : Nat) : Calm s (s.takeUpPending t) := by
  unfold State.takeUpPending
  split
  · exact .refl s
  · next slot _ =>
    split
    · exact .refl s
    · next refuge hr =>
      dsimp only
      split
      · refine calm_ite (fun _ => ?_) (fun _ => calm_endOrder s _ _)
        exact (calm_setRefs s t _).trans (calm_startDivert _ t slot refuge _ (by rw [setRefs_order, hr]; rfl))
      · exact calm_endOrder s _ _

/-! ### The Poll Engine -/

theorem calm_updateTrain (s : State) (t : Nat) (f : TransporterRec → TransporterRec)
    (h : ∀ r, trainShape (f r) = trainShape r ∧ (f r).condition = r.condition ∧ (f r).quietStand = r.quietStand) :
    Calm s (s.updateTrain t f) := by
  unfold State.updateTrain
  split
  · next r hr =>
    obtain ⟨a, b, c⟩ := h r
    exact calm_setTrain s t (by rw [hr]; exact congrArg some a) (by rw [hr]; exact congrArg some b) (by rw [hr]; exact congrArg some c)
  · exact .refl s

theorem calm_progressTest (s : State) (t : Nat) : Calm s (s.progressTest t) :=
  calm_updateTrain s t _ fun _ => ⟨rfl, rfl, rfl⟩

theorem calm_progressReport (s : State) (t : Nat) (moved inMotion : Bool) : Calm s (s.progressReport t moved inMotion) := by
  unfold State.progressReport
  refine calm_ite (fun _ => .refl s) fun _ => (calm_progressTest s t).trans (calm_updateTrain _ t _ fun r => ?_)
  dsimp only
  split
  · exact ⟨rfl, rfl, rfl⟩
  · split <;> exact ⟨rfl, rfl, rfl⟩

theorem calm_poll (s : State) (t : Nat) : Calm s (s.poll t) := by
  unfold State.poll
  split
  · exact .refl s
  · dsimp only
    refine Calm.trans (Calm.trans (Calm.trans ?_ (calm_updateTrain _ t _ ?_)) (calm_confirmPolled _ t)) (calm_progressTest _ t)
    · exact { Calm.refl s with }
    · exact fun _ => ⟨rfl, rfl, rfl⟩

theorem calm_pollNext (s : State) : Calm s s.pollNext := by
  unfold State.pollNext
  refine calm_ite (fun _ => .refl s) fun _ => ?_
  split
  · exact calm_poll s _
  · exact .refl s

theorem calm_quietTest (s : State) : Calm s s.quietTest := by
  unfold State.quietTest
  refine calm_ite (fun h => Calm.trans ?_ (calm_raise _ _ _)) fun _ => .refl s
  exact { Calm.refl s with quiet := .inr ⟨h.1, rfl⟩, canonical := fun hc => hc }

end Sys2Proof.Laws
end

