-- ==== Sys2Proof/Laws/Reports.lean ====
section
/-!
SUPPORT. Laws/Reports.lean: the stages of a report that follow its position (R139 stages 5 to 7) are `Kept`.
-/

namespace Sys2Proof.Laws

open Sys2Proof Sys2Proof.Machine

theorem kept_ite {s : State} {p : Prop} [Decidable p] {a b : State} (ha : p → Kept s a) (hb : ¬p → Kept s b) : Kept s (if p then a else b) := by
  split
  · exact ha ‹_›
  · exact hb ‹_›

/-! ### Stage 5: a drive fault -/

theorem kept_stall (s : State) (t : Nat) (h : s.hasCondition t .normal = true) : Kept s (s.stall t) := by
  unfold State.stall State.setCondition
  refine Kept.trans ?_ (calm_emit _ (by
    intro x hx
    obtain ⟨n, -, rfl⟩ := List.mem_map.1 hx
    rfl)).toKept
  refine Kept.trans ?_ (calm_emit _ (by simp [inReport])).toKept
  refine (calm_raise s .transporterStalled t).toKept.trans ?_
  unfold State.updateTrain
  split
  · next r hr =>
    have hr' : s.train t = some r := hr
    refine kept_setTrain _ t (by rw [hr]; rfl) ?_
    rw [hr]
    refine .inr ⟨?_, rfl⟩
    unfold State.hasCondition at h
    rw [hr'] at h
    simpa using h
  · exact .refl _

theorem kept_driveFault (s : State) (t : Nat) : Kept s (s.driveFault t) := by
  unfold State.driveFault
  exact kept_ite (kept_stall s t) (fun _ => .refl s)

/-! ### Stage 6: the load event -/

theorem kept_changeLoad (s : State) (t : Nat) (l : Load) : Kept s (s.changeLoad t l) :=
  (kept_setLoad s t _).trans (calm_emit _ (by simp [inReport])).toKept

theorem calm_takeBackUncouple (s : State) (p : Nat) : Calm s (s.takeBackUncouple p) := calm_takeBack s _

theorem calm_takeBackCouple (s : State) (p : Nat) : Calm s (s.takeBackCouple p) := calm_takeBack s _

/-- A pad's record when a telescope is placed elsewhere or on it: its last-occupant mark may go. -/
def unmarked (x : Nat) (p : Placement) (r : PadRec) : PadRec :=
  if p ≠ .unplaced ∧ r.lastOccupant = some x then { r with lastOccupant := none } else r

theorem placeTelescope_pad (s : State) (x : Nat) (p : Placement) (q : Nat) : (s.placeTelescope x p).pad q = unmarked x p (s.pad q) := by
  unfold State.placeTelescope unmarked
  cases p with
  | unplaced => simp
  | onPad y =>
    refine (get_mapRecords PadRec.undeclared _ (fun _ => by simp [PadRec.undeclared]) _ q).trans ?_
    by_cases h : (Table.get PadRec.undeclared s.transfer.pads q).lastOccupant = some x <;> simp [State.pad, State.setPlacement, h]
  | onTransporter y =>
    refine (get_mapRecords PadRec.undeclared _ (fun _ => by simp [PadRec.undeclared]) _ q).trans ?_
    by_cases h : (Table.get PadRec.undeclared s.transfer.pads q).lastOccupant = some x <;> simp [State.pad, State.setPlacement, h]

theorem unmarked_fields (x : Nat) (p : Placement) (r : PadRec) :
    padShape (unmarked x p r) = padShape r ∧ (unmarked x p r).state = r.state ∧ (unmarked x p r).claim = r.claim := by
  unfold unmarked
  split <;> exact ⟨rfl, rfl, rfl⟩

theorem kept_placeTelescope (s : State) (x : Nat) (p : Placement) : Kept s (s.placeTelescope x p) := by
  have h1 := kept_setPlacement s x p
  have hp := placeTelescope_pad s x p
  cases p with
  | unplaced => exact h1
  | onPad y =>
    exact { h1 with
      pads := fun q => by rw [hp]; exact (unmarked_fields _ _ _).1
      declared := fun q h => by rw [hp, (unmarked_fields _ _ _).2.1]; exact h
      claims := fun q k h => by rw [hp, (unmarked_fields _ _ _).2.2] at h; exact h
      canonical := fun hc => by
        obtain ⟨a, b, c, d, e, f, g, h, i⟩ := h1.canonical hc
        exact ⟨a, b, c, d, e, f, wf_mapRecords _ _ _, h, i⟩ }
  | onTransporter y =>
    exact { h1 with
      pads := fun q => by rw [hp]; exact (unmarked_fields _ _ _).1
      declared := fun q h => by rw [hp, (unmarked_fields _ _ _).2.1]; exact h
      claims := fun q k h => by rw [hp, (unmarked_fields _ _ _).2.2] at h; exact h
      canonical := fun hc => by
        obtain ⟨a, b, c, d, e, f, g, h, i⟩ := h1.canonical hc
        exact ⟨a, b, c, d, e, f, wf_mapRecords _ _ _, h, i⟩ }

/-- A pad's record replaced, its declaration kept and its claim kept or dropped. -/
theorem kept_putPad {s s' : State} (hs : Kept s s') (p : Nat) {r : PadRec} (h : padShape r = padShape (s'.pad p))
    (hd : (s'.pad p).state ≠ .undeclared → r.state ≠ .undeclared) (hc : ∀ k, r.claim = some k → (s'.pad p).claim = some k) :
    Kept s (s'.setPad p r) := hs.trans (kept_setPad s' p h hd hc)

theorem kept_settleTransfer (s : State) (p : Nat) (x : TransferRec) (b : Bool) : Kept s (s.settleTransfer p x b) := by
  unfold State.settleTransfer
  have h0 : Kept s (s.setTransfer p none) := (calm_setTransfer s p none).toKept
  dsimp only
  split
  · have h1 : Kept s (((s.setTransfer p none).setPad p (((s.setTransfer p none).pad p).unsettledWith (some x.telescope))).takeBackUncouple p) :=
      (kept_putPad h0 p (by rfl) (by simp [PadRec.unsettledWith]) (by intro k hk; cases hk)).trans (calm_takeBackUncouple _ _).toKept
    have h2 := h1.trans (kept_placeTelescope _ x.telescope .unplaced)
    exact kept_ite (fun _ => h2.trans (kept_changeLoad _ _ _)) (fun _ => h2)
  · split
    · exact (kept_putPad h0 p (by rfl) (by simp) (by intro k hk; cases hk)).trans (calm_takeBackUncouple _ _).toKept
    · exact h0

theorem kept_failTransfer (s : State) (p : Nat) (x : TransferRec) (b : Bool) (c : FailureCause) : Kept s (s.failTransfer p x b c) :=
  (kept_settleTransfer s p x b).trans (calm_failOrder _ _ _).toKept

theorem kept_stationFails (s : State) (p : Nat) (x : TransferRec) : Kept s (s.stationFails p x) :=
  (calm_raise s _ _).toKept.trans (kept_failTransfer _ _ _ _ _)

theorem kept_transporterFails (s : State) (p : Nat) (x : TransferRec) : Kept s (s.transporterFails p x) := kept_failTransfer s p _ _ _

theorem kept_endPad {s s' : State} (hs : Kept s s') (p : Nat) {r : PadRec} (h : padShape r = padShape (s'.pad p))
    (hd : r.state ≠ .undeclared) (hc : r.claim = none) : Kept s (s'.setPad p r) :=
  kept_putPad hs p h (fun _ => hd) (fun k hk => by rw [hc] at hk; cases hk)

theorem kept_completeLift (s : State) (p : Nat) (x : TransferRec) : Kept s (s.completeLift p x) := by
  unfold State.completeLift
  dsimp only
  refine Kept.trans ?_ (calm_endOrder _ _ _).toKept
  refine Kept.trans ?_ (kept_changeLoad _ _ _)
  refine Kept.trans ?_ (kept_placeTelescope _ _ _)
  refine kept_endPad (calm_setTransfer s p none).toKept p ?_ ?_ rfl
  · rfl
  · simp

theorem kept_completeSetDown (s : State) (p : Nat) (x : TransferRec) : Kept s (s.completeSetDown p x) := by
  unfold State.completeSetDown
  dsimp only
  refine Kept.trans ?_ (calm_endOrder _ _ _).toKept
  refine Kept.trans ?_ (calm_handOut _ _).toKept
  refine Kept.trans ?_ (kept_changeLoad _ _ _)
  refine Kept.trans ?_ (kept_placeTelescope _ _ _)
  refine kept_endPad (calm_setTransfer s p none).toKept p ?_ ?_ rfl
  · rfl
  · simp

theorem kept_completeIfConfirmed (s : State) (p : Nat) (x : TransferRec) : Kept s (s.completeIfConfirmed p x) := by
  unfold State.completeIfConfirmed
  split
  · split
    · exact kept_completeLift s p x
    · exact kept_completeSetDown s p x
  · exact .refl s

theorem kept_stationConfirms (s : State) (p : Nat) (x : TransferRec) : Kept s (s.stationConfirms p x) :=
  (kept_setPad s p (by rfl) (by exact fun h => h) (by exact fun _ h => h)).trans (kept_completeIfConfirmed _ _ _)

theorem kept_transporterConfirms (s : State) (p : Nat) (x : TransferRec) : Kept s (s.transporterConfirms p x) :=
  (kept_setPad s p (by rfl) (by exact fun h => h) (by exact fun _ h => h)).trans (kept_completeIfConfirmed _ _ _)

theorem kept_transferLoadEvent (s : State) (p : Nat) (x : TransferRec) (e : LoadEvent) : Kept s (s.transferLoadEvent p x e) := by
  unfold State.transferLoadEvent
  split
  · exact .refl s
  · exact kept_ite (fun _ => (calm_setTransfer s p _).toKept.trans (kept_transporterConfirms _ _ _)) (fun _ => kept_transporterFails s p x)
  · exact (calm_setTransfer s p _).toKept.trans (kept_transporterConfirms _ _ _)
  · exact kept_transporterFails s p x

theorem kept_strayLoadEvent (s : State) (t : Nat) : Kept s (s.strayLoadEvent t) := by
  unfold State.strayLoadEvent
  dsimp only
  have h0 : Kept s (match s.load t with
      | some (.telescope x) => s.placeTelescope x .unplaced
      | _ => s) := by
    split
    · exact kept_placeTelescope s _ _
    · exact .refl s
  have h1 := h0.trans (kept_changeLoad _ t .unverified)
  split
  · exact h1
  · exact (kept_putPad h1 _ (by rfl) (by simp [PadRec.unsettledWith]) (by intro k hk; cases hk)).trans (calm_raise _ _ _).toKept

theorem kept_takeLoadEvent (s : State) (r : Report) : Kept s (s.takeLoadEvent r) := by
  unfold State.takeLoadEvent
  refine kept_ite (fun _ => .refl s) fun _ => ?_
  split
  · exact kept_ite (fun _ => kept_transferLoadEvent s _ _ _) (fun _ => kept_transporterFails s _ _)
  · exact kept_ite (fun _ => .refl s) (fun _ => kept_strayLoadEvent s _)

/-! ### Stage 7: the quiet stand -/

theorem kept_updateTrain (s : State) (t : Nat) (f : TransporterRec → TransporterRec)
    (h : ∀ r, trainShape (f r) = trainShape r ∧ (f r).condition = r.condition) : Kept s (s.updateTrain t f) := by
  unfold State.updateTrain
  split
  · next r hr =>
    obtain ⟨a, b⟩ := h r
    exact kept_setTrain s t (by rw [hr]; exact congrArg some a) (by rw [hr]; exact .inl b)
  · exact .refl s

theorem kept_quietStand (s : State) (r : Report) (b : Bool) : Kept s (s.quietStand r b) := by
  unfold State.quietStand
  refine kept_ite (fun _ => .refl s) fun _ => ?_
  refine Kept.trans ?_ (calm_emit _ (xs := [.quietTest]) (by simp [inReport])).toKept
  exact kept_updateTrain s _ _ (fun _ => ⟨rfl, rfl⟩)

end Sys2Proof.Laws
end

