-- ==== Sys2Proof/Laws/Cascade.lean ====
section
/-!
SUPPORT. Laws/Cascade.lean: what working off an event can do, as one law for the whole of it.
-/

namespace Sys2Proof.Laws

open Sys2Proof Sys2Proof.Machine

theorem calm_runTask (x : Task) (s : State) (h : inReport x = false) : Calm s (runTask x s) := by
  cases x <;> first | (simp [inReport] at h; done) | skip
  case recompute t => exact calm_recompute s t
  case release n t => exact calm_release s n t
  case tailRelease n t => exact calm_tailRelease s n t
  case serve n => exact calm_serve s n
  case serveAll => exact calm_serveAll s
  case retry n cs => exact calm_retry s n cs
  case retryAll => exact calm_retryAll s
  case represent slot n => exact calm_represent s slot n
  case claim slot => exact calm_claim s slot
  case extend => exact calm_extend s
  case throwCheck j => exact calm_throwCheck s j
  case restDecision j => exact calm_restDecision s j
  case reviewJunctions t => exact calm_reviewJunctions s t
  case rotation => exact calm_rotation s
  case confirm t => exact calm_confirm s t
  case confirmed t => exact calm_confirmed s t
  case complete t => exact calm_complete s t
  case arrival t => exact calm_arrival s t
  case takeUpPending t => exact calm_takeUpPending s t
  case startTransfers => exact calm_startTransfers s
  case quietTest => exact calm_quietTest s
  case pollNext => exact calm_pollNext s
  case resumeTransfers => exact calm_resumeTransfers s

theorem kept_runTask (x : Task) (s : State) : Kept s (runTask x s) := by
  by_cases h : inReport x = false
  · exact (calm_runTask x s h).toKept
  · cases x <;> first | exact absurd rfl h | skip
    case progressReport t a b => exact (calm_progressReport s t a b).toKept
    case driveFault t => exact kept_driveFault s t
    case loadEvent r => exact kept_takeLoadEvent s r
    case quietStand r b => exact kept_quietStand s r b

theorem kept_settleOne (s : State) : Kept s (settleOne s) := by
  unfold settleOne
  split
  · exact .refl s
  · next x rest hx =>
    have h := kept_runTask x { s with agenda := [] }
    exact { h with
      agenda := fun y hy => by
        rcases List.mem_append.1 hy with hy | hy
        · rcases h.agenda y hy with hy | hy
          · cases hy
          · exact .inr hy
        · exact .inl (hx ▸ List.mem_cons_of_mem _ hy) }

/-- No stage of a report is listed. -/
def noReport (s : State) : Prop := ∀ x ∈ s.agenda, inReport x = false

theorem calm_settleOne (s : State) (hs : noReport s) : Calm s (settleOne s) := by
  have hk := kept_settleOne s
  unfold settleOne at *
  split at hk
  · exact .refl s
  · next x rest hx =>
    have h := calm_runTask x { s with agenda := [] } (hs x (hx ▸ List.mem_cons_self))
    exact { h with toKept := hk }

theorem noReport_kept {s t : State} (h : Kept s t) (hs : noReport s) : noReport t :=
  fun x hx => (h.agenda x hx).elim (hs x) id

theorem kept_settle (n : Nat) (s : State) : Kept s (settle n s) := by
  induction n generalizing s with
  | zero => exact .refl s
  | succ n ih =>
    unfold settle
    exact kept_ite (fun _ => .refl s) (fun _ => (kept_settleOne s).trans (ih _))

theorem calm_settle (n : Nat) (s : State) (hs : noReport s) : Calm s (settle n s) := by
  induction n generalizing s with
  | zero => exact .refl s
  | succ n ih =>
    unfold settle
    refine calm_ite (fun _ => .refl s) (fun _ => ?_)
    have h := calm_settleOne s hs
    exact h.trans (ih _ (noReport_kept h.toKept hs))

/-- What an event's work keeps. -/
theorem kept_workOff (s : State) : Kept s (workOff s) := (calm_emit s (by simp [inReport])).toKept.trans (kept_settle _ _)

theorem calm_workOff (s : State) (hs : noReport s) : Calm s (workOff s) := by
  have h := calm_emit s (xs := [.extend, .startTransfers, .rotation]) (by simp [inReport])
  exact h.trans (calm_settle _ _ (noReport_kept h.toKept hs))

/-! ### An event of the blocks -/

theorem noReport_of_empty {s : State} (h : s.agenda = []) : noReport s := fun x hx => by rw [h] at hx; cases hx

theorem noReport_emit {s : State} (h : noReport s) {xs : List Task} (hx : ∀ x ∈ xs, inReport x = false) : noReport (s.emit xs) :=
  fun x hm => (List.mem_append.1 hm).elim (h x) (hx x)

/-- The end of an event changes the ATTENTION line and puts the waiting commands back, and nothing else. -/
theorem calm_closeEvent (s : State) (p : List Instr) (h : s.pending = p) : Calm s (closeEvent p s) :=
  { Calm.refl s with pending := h.symm ▸ rfl, canonical := fun hc => hc }

theorem kept_runEvent (act : State → State) (s : State) (h : (act s).pending = s.pending) : Kept (act s) (runEvent act s) := by
  have hw := kept_workOff (act s)
  exact hw.trans (calm_closeEvent _ _ (by rw [hw.pending, h])).toKept

theorem calm_runEvent (act : State → State) (s : State) (h : (act s).pending = s.pending) (hr : noReport (act s)) :
    Calm (act s) (runEvent act s) := by
  have hw := calm_workOff (act s) hr
  exact hw.trans (calm_closeEvent _ _ (by rw [hw.pending, h]))

theorem closeEvent_notices (l : List Instr) (s : State) : (closeEvent l s).port.notices = s.port.notices := rfl

theorem closeEvent_order (l : List Instr) (s : State) (k : Nat) : (closeEvent l s).order k = s.order k := rfl

theorem closeEvent_pad (l : List Instr) (s : State) (p : Nat) : (closeEvent l s).pad p = s.pad p := rfl

end Sys2Proof.Laws
end

