-- ==== Sys2Proof/Laws/Marks.lean ====
section
/-!
SUPPORT. Laws/Marks.lean: what setting and clearing withdrawing marks leaves of the records, and what a recomputation of a limit records.
-/

namespace Sys2Proof.Laws

open Sys2Proof Sys2Proof.Machine

/-! ### What the operations on marks leave -/

/-- Only withdrawing marks, confirmation states and the work listed differ. -/
structure MarksOnly (s t : State) : Prop where
  layout : t.layout = s.layout
  waiting : t.core.waiting = s.core.waiting
  junctions : t.junctions = s.junctions
  orders : t.orders = s.orders
  transfer : t.transfer = s.transfer
  polls : t.polls = s.polls
  guards : t.guards = s.guards
  wayside : t.wayside = s.wayside
  port : t.port = s.port
  segs : ∀ n, t.seg n = { s.seg n with withdrawing := (t.seg n).withdrawing }
  runs : ∀ i, (t.run i).map (fun r => (r.limit, r.ceiling)) = (s.run i).map fun r => (r.limit, r.ceiling)

theorem MarksOnly.refl (s : State) : MarksOnly s s := ⟨rfl, rfl, rfl, rfl, rfl, rfl, rfl, rfl, rfl, fun _ => rfl, fun _ => rfl⟩

theorem MarksOnly.trans {a b c : State} (h : MarksOnly a b) (k : MarksOnly b c) : MarksOnly a c :=
  ⟨k.layout.trans h.layout, k.waiting.trans h.waiting, k.junctions.trans h.junctions, k.orders.trans h.orders, k.transfer.trans h.transfer
  , k.polls.trans h.polls, k.guards.trans h.guards, k.wayside.trans h.wayside, k.port.trans h.port
  , fun n => by rw [k.segs n, h.segs n], fun i => (k.runs i).trans (h.runs i)⟩

section
variable {s t : State} (h : MarksOnly s t)
include h

theorem MarksOnly.train (i : Nat) : t.train i = s.train i := by unfold State.train; rw [h.polls]

theorem MarksOnly.holder (n : Nat) : (t.seg n).holder = (s.seg n).holder := by rw [h.segs n]

theorem MarksOnly.holds (i n : Nat) : t.holds i n = s.holds i n := by unfold State.holds; rw [h.holder n]

theorem MarksOnly.active (i : Nat) : t.active i = s.active i := by unfold State.active State.orderRefs State.order; rw [h.orders]

theorem MarksOnly.position (i : Nat) : t.position i = s.position i := by unfold State.position; rw [h.train]

theorem MarksOnly.routeAhead (i : Nat) : t.routeAhead i = s.routeAhead i := by unfold State.routeAhead; rw [h.active, h.position]

theorem MarksOnly.trackAhead (i : Nat) : t.trackAhead i = s.trackAhead i := by unfold State.trackAhead; rw [h.active]

theorem MarksOnly.junction (j : Nat) : t.junction j = s.junction j := by unfold State.junction; rw [h.junctions]

theorem MarksOnly.agrees (x : RoutePos) : t.agrees x = s.agrees x := by unfold State.agrees; rw [h.junction]

theorem MarksOnly.startingDivert (i : Nat) : t.startingDivert i = s.startingDivert i := by
  unfold State.startingDivert State.order; rw [h.orders]

theorem MarksOnly.hasCondition (i : Nat) (c : Condition) : t.hasCondition i c = s.hasCondition i c := by
  unfold State.hasCondition; rw [h.train]

theorem MarksOnly.holdActive : t.holdActive = s.holdActive := by unfold State.holdActive; rw [h.guards]

theorem MarksOnly.faultedUnder (i : Nat) : t.faultedUnder i = s.faultedUnder i := by
  unfold State.faultedUnder; simp only [h.position, h.holds, h.junction]

theorem MarksOnly.forced (i : Nat) : t.forced i = s.forced i := by
  unfold State.forced State.quietOn
  rw [h.holdActive, h.polls, h.hasCondition, h.startingDivert, h.faultedUnder, h.active]

theorem MarksOnly.load (i : Nat) : t.load i = s.load i := by unfold State.load; rw [h.transfer]

theorem MarksOnly.isCreep (n : Nat) : t.isCreep n = s.isCreep n := by unfold State.isCreep State.decl; rw [h.layout]

theorem MarksOnly.extent (i k : Nat) : t.extent i k = s.extent i k := by unfold State.extent; rw [h.position, h.routeAhead]

theorem MarksOnly.heldBeyond (i k : Nat) : t.heldBeyond i k = s.heldBeyond i k := by
  unfold State.heldBeyond; simp only [h.trackAhead, h.holds, h.position]

end

theorem marks_emit (s : State) (xs : List Task) : MarksOnly s (s.emit xs) :=
  ⟨rfl, rfl, rfl, rfl, rfl, rfl, rfl, rfl, rfl, fun _ => rfl, fun _ => rfl⟩

theorem marks_makeActiveDue (s : State) (t : Nat) : MarksOnly s (s.makeActiveDue t) := by
  unfold State.makeActiveDue
  split
  · exact ⟨rfl, rfl, rfl, rfl, rfl, rfl, rfl, rfl, rfl, fun _ => rfl, fun _ => rfl⟩
  · exact .refl s

theorem marks_setConfirm (s : State) (t : Nat) (c : Confirm) : MarksOnly s (s.setConfirm t c) := by
  unfold State.setConfirm
  split
  · next r hr =>
    refine ⟨rfl, rfl, rfl, rfl, rfl, rfl, rfl, rfl, rfl, fun _ => rfl, fun i => ?_⟩
    rw [setRun_run]
    split
    · next e => subst e; rw [hr]; rfl
    · rfl
  · exact .refl s

theorem marks_settleConfirm (s : State) (t : Nat) : MarksOnly s (s.settleConfirm t) := by
  unfold State.settleConfirm
  split
  · exact marks_setConfirm s t _
  · exact .refl s

theorem marks_setSeg (s : State) (n : Nat) (w : Option Disposition) : MarksOnly s (s.setSeg n { s.seg n with withdrawing := w }) := by
  refine ⟨rfl, rfl, rfl, rfl, rfl, rfl, rfl, rfl, rfl, fun m => ?_, fun _ => rfl⟩
  rw [setSeg_seg]
  split
  · next e => subst e; rfl
  · rfl

theorem marks_foldl {α : Type} {f : State → α → State} (hf : ∀ s x, MarksOnly s (f s x)) (l : List α) (s : State) : MarksOnly s (l.foldl f s) := by
  induction l generalizing s with
  | nil => exact .refl s
  | cons x rest ih => exact (hf s x).trans (ih _)

theorem marks_mark (s : State) (t : Nat) (ns : List Nat) (d : Disposition) : MarksOnly s (s.mark t ns d) := by
  refine marks_foldl (fun s n => ?_) ns s
  dsimp only
  split
  · exact marks_setSeg s n _
  · exact .refl s

theorem marks_unmark (s : State) (ns : List Nat) : MarksOnly s (s.unmark ns) := marks_foldl (fun s n => marks_setSeg s n _) ns s

/-- The mark of each segment after a marking: the segments listed that the transporter holds take it, but for RELEASE marks, which stay. -/
theorem mark_seg (s : State) (t : Nat) (ns : List Nat) (d : Disposition) (n : Nat) :
    ((s.mark t ns d).seg n).withdrawing
      = if n ∈ ns ∧ (s.seg n).holder = some t ∧ (s.seg n).withdrawing ≠ some .release then some d else (s.seg n).withdrawing := by
  induction ns generalizing s with
  | nil => simp [State.mark]
  | cons m rest ih =>
    unfold State.mark at ih ⊢
    rw [List.foldl_cons, ih]
    dsimp only
    by_cases hm : (s.seg m).holder = some t ∧ (s.seg m).withdrawing ≠ some .release
    · rw [if_pos hm]
      by_cases e : n = m
      · subst e
        cases d <;> simp [hm]
      · simp [setSeg_seg, e]
    · rw [if_neg hm]
      by_cases e : n = m
      · subst e
        by_cases hr : n ∈ rest <;> simp [hm, hr]
      · simp [e]

theorem unmark_seg (s : State) (ns : List Nat) (n : Nat) :
    ((s.unmark ns).seg n).withdrawing = if n ∈ ns then none else (s.seg n).withdrawing := by
  induction ns generalizing s with
  | nil => simp [State.unmark]
  | cons m rest ih =>
    unfold State.unmark at ih ⊢
    rw [List.foldl_cons, ih]
    by_cases e : n = m
    · subst e
      by_cases hr : n ∈ rest <;> simp [hr]
    · simp [setSeg_seg, e]

theorem marks_reviseMarks (s : State) (t : Nat) : MarksOnly s (s.reviseMarks t) := by
  unfold State.reviseMarks
  dsimp only
  split
  · split
    · exact .refl s
    · exact ((marks_mark s t _ _).trans (marks_setConfirm _ t _)).trans (marks_emit _ _)
  · split
    · exact .refl s
    · exact ((marks_unmark s _).trans (marks_settleConfirm _ t)).trans (marks_makeActiveDue _ t)

/-- What is released at once: an unmarked segment, where the track is given up or the segment has a leaving mark (R26, R38). -/
theorem yieldsAtOnce_iff {s : State} {t n : Nat} :
    s.yieldsAtOnce t n = true ↔ (s.seg n).withdrawing = none ∧ (s.givenUp t = true ∨ (s.seg n).leaving = true) := by
  unfold State.yieldsAtOnce; simp

/-- Where a RELEASE cause stands and no limit sent reaches beyond the new one, a withdrawal lists the releases of what yields at once, and then the
completion, and changes nothing else (R38). -/
theorem withdraw_unsent {s : State} {t k : Nat} (hk : s.sentReach t ≤ k) (hr : s.releaseCause t = true) :
    s.withdraw t k = (s.emit (((s.heldBeyond t k).filter (s.yieldsAtOnce t)).map fun n => .release n t)).emit [.complete t] := by
  unfold State.withdraw
  dsimp only
  rw [if_neg (Nat.not_lt.2 hk), if_pos hr, if_pos hr]

theorem marks_withdraw (s : State) (t k : Nat) : MarksOnly s (s.withdraw t k) := by
  unfold State.withdraw
  dsimp only
  have key : ∀ u, MarksOnly s u → MarksOnly s (if s.releaseCause t then u.emit [.complete t] else u) := by
    intro u hu
    split
    · exact hu.trans (marks_emit _ _)
    · exact hu
  refine key _ ?_
  split
  · split
    · exact .refl s
    · have h := fun d => (marks_mark s t (s.heldBeyond t k) d).trans (marks_setConfirm _ t .awaitingPoll)
      split
      · exact (h _).trans (marks_emit _ _)
      · exact h _
  · split
    · exact marks_emit _ _
    · exact marks_mark s t _ _

@[simp] theorem setConfirm_seg (s : State) (t : Nat) (c : Confirm) (n : Nat) : (s.setConfirm t c).seg n = s.seg n := by
  unfold State.setConfirm; split <;> rfl

@[simp] theorem settleConfirm_seg (s : State) (t n : Nat) : (s.settleConfirm t).seg n = s.seg n := by
  unfold State.settleConfirm; split <;> simp

@[simp] theorem makeActiveDue_seg (s : State) (t n : Nat) : (s.makeActiveDue t).seg n = s.seg n := by
  unfold State.makeActiveDue; split <;> rfl

/-- A withdrawal marks no segment but those held beyond the new limit. -/
theorem withdraw_seg (s : State) (t k n : Nat) (h : n ∉ s.heldBeyond t k) : (s.withdraw t k).seg n = s.seg n := by
  have e : ((s.withdraw t k).seg n).withdrawing = (s.seg n).withdrawing := by
    have hm : ∀ (ns : List Nat) (d : Disposition), n ∉ ns → ((s.mark t ns d).seg n).withdrawing = (s.seg n).withdrawing := by
      intro ns d hn
      rw [mark_seg, if_neg fun h => hn h.1]
    unfold State.withdraw
    dsimp only
    have key : ∀ u : State, (u.seg n).withdrawing = (s.seg n).withdrawing →
        ((if s.releaseCause t then u.emit [.complete t] else u).seg n).withdrawing = (s.seg n).withdrawing := by
      intro u hu
      split <;> simpa using hu
    refine key _ ?_
    split
    · split
      · rfl
      · split <;> simpa using hm _ _ h
    · split
      · rfl
      · exact hm _ _ fun h' => h (List.mem_filter.1 h').1
  have := (marks_withdraw s t k).segs n
  rw [this, e]

/-- A marked segment stays marked through a withdrawal. -/
theorem withdraw_marked (s : State) (t k n : Nat) (h : (s.seg n).withdrawing ≠ none) : ((s.withdraw t k).seg n).withdrawing ≠ none := by
  have hm : ∀ (ns : List Nat) (d : Disposition), ((s.mark t ns d).seg n).withdrawing ≠ none := by
    intro ns d
    rw [mark_seg]
    split
    · simp
    · exact h
  unfold State.withdraw
  dsimp only
  have key : ∀ u : State, (u.seg n).withdrawing ≠ none → ((if s.releaseCause t then u.emit [.complete t] else u).seg n).withdrawing ≠ none := by
    intro u hu
    split <;> simpa using hu
  refine key _ ?_
  split
  · split
    · exact h
    · split <;> simpa using hm _ _
  · split
    · exact h
    · exact hm _ _

/-! ### The limit recorded -/

theorem limitAt_zero (s : State) (t p : Nat) (h : s.position t = some p) : s.limitAt t 0 = p := by
  unfold State.limitAt State.extent; simp [h]

theorem limitAt_succ (s : State) (t k : Nat) (x : RoutePos) (h : (s.routeAhead t)[k]? = some x) : s.limitAt t (k + 1) = x.segment := by
  obtain ⟨hk, e⟩ := List.getElem?_eq_some_iff.1 h
  unfold State.limitAt State.extent
  rw [List.getLast?_append, List.getLast?_map, List.take_add_one, h]
  simp

theorem reach_le (s : State) (t : Nat) : s.reach t ≤ (s.routeAhead t).length := by
  unfold State.reach
  split
  · exact Nat.zero_le _
  · exact (List.takeWhile_sublist _).length_le

theorem recompute_of_run {s : State} {t : Nat} {r : RunRec} (h : (s.recompute t).run t = some r) :
    ∃ r0 : RunRec, s.recompute t
      = ((s.reviseMarks t).setRun t (some { r0 with
          limit := (s.reviseMarks t).limitAt t ((s.reviseMarks t).reach t)
          ceiling := (s.reviseMarks t).ceilingAt t ((s.reviseMarks t).reach t) })).withdraw t ((s.reviseMarks t).reach t) ∧
      r.limit = (s.reviseMarks t).limitAt t ((s.reviseMarks t).reach t) ∧ r.ceiling = (s.reviseMarks t).ceilingAt t ((s.reviseMarks t).reach t) := by
  unfold State.recompute at h ⊢
  split at h
  · next hn => rw [hn] at h; cases h
  · next r1 hr1 =>
    dsimp only at h ⊢
    split at h
    · next hn => rw [hn] at h; cases h
    · next r0 hr0 =>
      have hm := (marks_withdraw ((s.reviseMarks t).setRun t (some { r0 with
        limit := (s.reviseMarks t).limitAt t ((s.reviseMarks t).reach t)
        ceiling := (s.reviseMarks t).ceilingAt t ((s.reviseMarks t).reach t) })) t ((s.reviseMarks t).reach t)).runs t
      rw [h, setRun_run_same] at hm
      simp only [Option.map_some, Option.some.injEq, Prod.mk.injEq] at hm
      exact ⟨r0, rfl, hm.1, hm.2⟩

theorem mem_holdings {s : State} {t n : Nat} (h : (s.seg n).holder = some t) : n ∈ s.holdings t := by
  refine List.mem_filter.2 ⟨?_, decide_eq_true h⟩
  refine mem_keys_of_get (d := SegDyn.initial) fun e => ?_
  have e : s.seg n = SegDyn.initial := e
  rw [e] at h
  cases h

theorem take_takeWhile {α : Type} (p : α → Bool) (l : List α) : l.take (l.takeWhile p).length = l.takeWhile p :=
  (List.prefix_iff_eq_take.1 (List.takeWhile_prefix p)).symm

theorem after_takeWhile {α : Type} (p : α → Bool) (l : List α) (x : α) (h : l[(l.takeWhile p).length]? = some x) : p x = false := by
  induction l with
  | nil => simp at h
  | cons a l ih =>
    by_cases ha : p a = true
    · rw [List.takeWhile_cons_of_pos ha, List.length_cons, List.getElem?_cons_succ] at h
      exact ih h
    · rw [List.takeWhile_cons_of_neg ha] at h
      simp only [List.length_nil, List.getElem?_cons_zero, Option.some.injEq] at h
      subst h
      simpa using ha

theorem between_reach (s : State) (i : Nat) (x : RoutePos) (h : x ∈ (s.routeAhead i).take (s.reach i)) :
    (s.seg x.segment).holder = some i ∧ (s.seg x.segment).withdrawing = none ∧ s.agrees x = true := by
  unfold State.reach at h
  split at h
  · simp at h
  · rw [take_takeWhile] at h
    have := List.mem_takeWhile_imp h
    simp only [Bool.and_eq_true, State.holds, decide_eq_true_eq, Option.isNone_iff_eq_none] at this
    exact ⟨this.1.1, this.1.2, this.2⟩

theorem trackAhead_of_mem {s : State} {i : Nat} {x : RoutePos} (h : x ∈ s.routeAhead i) : s.trackAhead i = s.routeAhead i := by
  unfold State.routeAhead at h ⊢
  unfold State.trackAhead
  split at h
  · next o ho =>
    split at h
    · next hc => rw [if_pos hc]
    · cases h
  · cases h

/-! ### The records that marks leave -/

/-- Marks change no run limit. -/
theorem mark_runs (s : State) (t : Nat) (ns : List Nat) (d : Disposition) : (s.mark t ns d).core.runs = s.core.runs := by
  unfold State.mark
  induction ns generalizing s with
  | nil => rfl
  | cons n ns ih =>
    rw [List.foldl_cons, ih]
    dsimp only
    split <;> rfl

theorem unmark_runs (s : State) (ns : List Nat) : (s.unmark ns).core.runs = s.core.runs := by
  unfold State.unmark
  induction ns generalizing s with
  | nil => rfl
  | cons n ns ih => rw [List.foldl_cons, ih]; rfl

theorem setConfirm_run {s : State} {t : Nat} {r : RunRec} (h : s.run t = some r) (c : Confirm) : s.setConfirm t c = s.setRun t (some { r with confirm := c }) := by
  unfold State.setConfirm; rw [h]

/-- The segments held beyond a limit are held. -/
theorem heldBeyond_holder {s : State} {t k n : Nat} (h : n ∈ s.heldBeyond t k) : (s.seg n).holder = some t := by
  have := (List.mem_filter.1 h).2
  rw [Bool.and_eq_true] at this
  simpa [State.holds] using this.1

/-- A mark edit leaves every segment's record but for the mark. -/
theorem MarksOnly.seg_eq {s u : State} (h : MarksOnly s u) (n : Nat) : { u.seg n with withdrawing := (s.seg n).withdrawing } = s.seg n := by
  rw [h.segs n]

end Sys2Proof.Laws
end

