-- ==== Sys2Proof/Laws/Requests.lean ====
section
/-!
SUPPORT. Laws/Requests.lean: a request, from its frame to its answer, in a state between events.
-/

namespace Sys2Proof.Laws

open Sys2Proof Sys2Proof.Machine

theorem extend_settled {s : State} (h : s.due = []) : s.extend = s := by
  unfold State.extend
  rw [h]

theorem startTransfers_settled {s : State} (h : slots.find? s.mayTransfer = none) : s.startTransfers = s := by
  unfold State.startTransfers
  rw [h]

theorem rotation_settled {s : State}
    (h : s.junctions.interval = .stopped → (∀ e ∈ s.junctions.recs, ∀ r, e.2 = some r → isRotation r.operation = false) → s.rotationNext = none) :
    s.rotation = s := by
  unfold State.rotation
  split
  · next hc =>
    rw [h hc.1 ?_]
    intro e he r hr
    have := List.all_eq_true.1 hc.2 e he
    rw [hr] at this
    simpa using this
  · rfl

theorem settleOne_cons {s t : State} {x : Task} {rest : List Task} (h : s.agenda = x :: rest) (ht : runTask x { s with agenda := [] } = t) :
    settleOne s = { t with agenda := t.agenda ++ rest } := by
  unfold settleOne
  rw [h]
  simp only [ht]

theorem settle_nil (n : Nat) {s : State} (h : s.agenda = []) : settle n s = s := by
  cases n with
  | zero => rfl
  | succ n => unfold settle; rw [h]; rfl

theorem settle_cons (n : Nat) {s : State} {x : Task} {rest : List Task} (h : s.agenda = x :: rest) : settle (n + 1) s = settle n (settleOne s) := by
  conv_lhs => unfold settle
  rw [h]
  rfl

/-- In a state in which the blocks find nothing to do, the tests at the end of an event change nothing. -/
theorem settle_settled {s : State} (h : s.Settled) (n : Nat) : settle (n + 1 + 1 + 1) (s.emit [.extend, .startTransfers, .rotation]) = s := by
  obtain ⟨ha, hd, ht, hr⟩ := h
  have h0 : ({ s with agenda := [] } : State) = s := by rw [← ha]
  rw [settle_cons _ (s := s.emit _) (x := .extend) (rest := [.startTransfers, .rotation]) (by simp [ha])]
  rw [settleOne_cons (t := s) (x := .extend) (rest := [.startTransfers, .rotation]) (by simp [ha])
    (by show State.extend { s with agenda := [] } = s; rw [h0]; exact extend_settled hd)]
  rw [settle_cons _ (x := .startTransfers) (rest := [.rotation]) (by simp [ha])]
  rw [settleOne_cons (t := s) (x := .startTransfers) (rest := [.rotation]) (by simp [ha])
    (by show State.startTransfers { s with agenda := [] } = s; rw [h0]; exact startTransfers_settled ht)]
  rw [settle_cons _ (x := .rotation) (rest := []) (by simp [ha])]
  rw [settleOne_cons (t := s) (x := .rotation) (rest := []) (by simp [ha])
    (by show State.rotation { s with agenda := [] } = s; rw [h0]; exact rotation_settled hr)]
  rw [settle_nil _ (by simp [ha])]
  simp

/-- In a state in which the blocks find nothing to do, an event's work changes nothing. -/
theorem workOff_settled {s : State} (h : s.Settled) : workOff s = s := settle_settled h 99997

/-- An event whose work is one task, which leaves the blocks nothing to do. -/
theorem workOff_once {s t : State} {x : Task} (ha : s.agenda = [x]) (ht : runTask x { s with agenda := [] } = t) (h : t.Settled) : workOff s = t := by
  have hb : Config.eventBound = 99996 + 1 + 1 + 1 + 1 := rfl
  unfold workOff
  rw [hb, settle_cons _ (s := s.emit _) (x := x) (rest := [.extend, .startTransfers, .rotation]) (by simp [ha])]
  rw [settleOne_cons (s := s.emit [.extend, .startTransfers, .rotation]) (rest := [.extend, .startTransfers, .rotation]) (by simp [ha]) ht]
  exact settle_settled h 99996

/-- An event in a state that it leaves settled does its own edit and nothing more. -/
theorem runEvent_settled {act : State → State} {s : State} (h : (act s).Settled) (hp : (act s).pending = s.pending) :
    runEvent act s = (act s).decideAttention := by
  unfold runEvent closeEvent
  rw [workOff_settled h, ← hp]
  rfl

/-- A request put to a part between events is decided at once; the blocks' work and an answer that waits for it follow. -/
theorem submit_ready {s : State} (hs : s.Ready) (h : Header) (r : Request) :
    submit h r s = closeEvent s.pending (workOff (s.decideValid ⟨h.tag, codeOf r⟩ h.originator r)).placeLate := by
  obtain ⟨-, -, hq, hr⟩ := hs
  have e : s.joinRequests { tag := h.tag, code := codeOf r, content := .valid h.originator r }
      = s.setRequests [{ tag := h.tag, code := codeOf r, content := .valid h.originator r }] := by
    unfold State.joinRequests
    rw [hq]
    rfl
  have e2 : (s.setRequests [{ tag := h.tag, code := codeOf r, content := .valid h.originator r }]).setRequests [] = s := by
    show { s with port := { s.port with requests := [] } } = s
    rw [← hq]
  unfold submit runPort
  dsimp only
  rw [e]
  show closeEvent s.pending (takeRequest _) = _
  unfold takeRequest
  show closeEvent s.pending (if s.port.answers.length < 8 then
    (workOff (State.decideRequest ((s.setRequests [_]).setRequests []) _)).placeLate else _) = _
  rw [if_pos hr, e2]
  rfl

/-- A request whose decision leaves nothing to do. -/
theorem submit_settled {s t : State} (hs : s.Ready) (h : Header) (r : Request) (ht : s.decideValid ⟨h.tag, codeOf r⟩ h.originator r = t)
    (hw : t.Settled) (hl : t.late = none) (hp : t.pending = s.pending) : submit h r s = t.decideAttention := by
  rw [submit_ready hs, ht, workOff_settled hw]
  unfold State.placeLate closeEvent
  rw [hl, ← hp]
  rfl

/-- An answer finds room. -/
theorem answer_room {s : State} (h : s.port.answers.length < 8) (q : Ask) (o : Outcome) (b : Body) :
    s.answer q o b = s.setAnswers (s.port.answers ++ [⟨q.tag, q.code, o, b⟩]) := by
  unfold State.answer State.place
  rw [if_pos h]

/-- A request that passes the class test, whose object at entry is not refused and which the layout state allows, is decided by its owner (R189). -/
theorem decideValid_owner {s : State} {q : Ask} {who : Originator} {r : Request} (hc : classAllows (classOf r) who = true)
    (ho : (entryObject r).bind (fun x => s.firstRefused who [x]) = none) (hl : s.layoutRefuses r = false) :
    s.decideValid q who r = s.owner q who r := by
  unfold State.decideValid
  rw [hc, ho, hl]
  rfl

/-- Whether a state is settled is decided by six of the blocks. -/
theorem settled_same {s t : State} (h : s.Settled) (h1 : t.core = s.core) (h2 : t.junctions = s.junctions) (h3 : t.orders = s.orders)
    (h4 : t.transfer = s.transfer) (h5 : t.polls = s.polls) (h6 : t.guards = s.guards) (h7 : t.agenda = s.agenda) (h8 : t.due = s.due) : t.Settled := by
  obtain ⟨a, b, c, d, e, f, g, x, y, z, w, u, l, n⟩ := s
  obtain ⟨a', b', c', d', e', f', g', x', y', z', w', u', l', n'⟩ := t
  dsimp only at h1 h2 h3 h4 h5 h6 h7 h8
  subst h1 h2 h3 h4 h5 h6 h7 h8
  exact ⟨h.agenda, h.due, h.transfers, h.rotation⟩

end Sys2Proof.Laws
end

