-- ==== Sys2Proof/Laws/Orders.lean ====
section
/-!
SUPPORT. Laws/Orders.lean: what working off an event does to the Order Table: `Waits` says it of the work that moves no order (heads and claim points
only), and the laws after it of the five tasks that do.
-/

namespace Sys2Proof.Laws

open Sys2Proof Sys2Proof.Machine

/-! ### The relation -/

/-- The claim point of an order stands in its route. -/
def claimIn (o : Order) : Prop := o.claim = o.placeOf (o.index o.claim) ∧ o.index o.claim < o.route.length

/-- An order after some work that moves no order: its head and its claim point alone may change. -/
def HeadStep : Option Order → Option Order → Prop
  | none, none => True
  | some o, some o' => o' = { o with claim := o'.claim, head := o'.head } ∧ (claimIn o → claimIn o')
  | _, _ => False

/-- A task that may be listed by work that moves no order: no stage of a report, no arrival test and no taking up of a pending divert. -/
def orderly : Task → Bool
  | .progressReport _ _ _ => false
  | .driveFault _ => false
  | .loadEvent _ => false
  | .quietStand _ _ => false
  | .arrival _ => false
  | .takeUpPending _ => false
  | .tailRelease _ _ => false
  | .confirm _ => false
  | _ => true

/-- What work that moves no order leaves: the references, each order but for its head and claim point, each pad that is not SEATED, and the holding of
segment `n` by transporter `i`. -/
structure Waits (i n : Nat) (s t : State) : Prop where
  refs : t.orders.refs = s.orders.refs
  orders : ∀ k, HeadStep (s.order k) (t.order k)
  pads : ∀ p, t.pad p = s.pad p ∨ (s.pad p).state = .seated
  holder : (s.seg n).holder = some i → (t.seg n).holder = some i
  agenda : ∀ x ∈ t.agenda, x ∈ s.agenda ∨ (orderly x = true ∧ (x = .release n i → (s.orderRefs i).active ≠ none))

theorem HeadStep.refl (a : Option Order) : HeadStep a a := by
  cases a with
  | none => trivial
  | some o => exact ⟨rfl, fun h => h⟩

theorem HeadStep.trans {a b c : Option Order} (h1 : HeadStep a b) (h2 : HeadStep b c) : HeadStep a c := by
  cases a <;> cases b <;> cases c <;> simp only [HeadStep] at *
  obtain ⟨e1, c1⟩ := h1
  obtain ⟨e2, c2⟩ := h2
  refine ⟨?_, fun h => c2 (c1 h)⟩
  rw [e2, e1]

variable {i n : Nat}

theorem Waits.refl (s : State) : Waits i n s s :=
  { refs := rfl, orders := fun _ => .refl _, pads := fun _ => .inl rfl, holder := fun h => h, agenda := fun _ h => .inl h }

theorem Waits.orderRefs {s t : State} (h : Waits i n s t) (u : Nat) : t.orderRefs u = s.orderRefs u := by
  unfold State.orderRefs
  rw [h.refs]

theorem Waits.trans {a b c : State} (h1 : Waits i n a b) (h2 : Waits i n b c) : Waits i n a c :=
  { refs := h2.refs.trans h1.refs
    orders := fun k => (h1.orders k).trans (h2.orders k)
    pads := fun p => by
      rcases h1.pads p with e | e
      · rcases h2.pads p with e' | e'
        · exact .inl (e'.trans e)
        · exact .inr (e ▸ e')
      · exact .inr e
    holder := fun h => h2.holder (h1.holder h)
    agenda := fun x hx => by
      rcases h2.agenda x hx with h | h
      · exact h1.agenda x h
      · exact .inr ⟨h.1, by rw [← h1.orderRefs]; exact h.2⟩ }

theorem Waits.foldl {α : Type} {f : State → α → State} (h : ∀ s x, Waits i n s (f s x)) (l : List α) (s : State) : Waits i n s (l.foldl f s) := by
  induction l generalizing s with
  | nil => exact .refl s
  | cons x rest ih => exact (h s x).trans (ih _)

theorem waits_ite {s : State} {p : Prop} [Decidable p] {a b : State} (ha : p → Waits i n s a) (hb : ¬p → Waits i n s b) :
    Waits i n s (if p then a else b) := by
  split
  · exact ha ‹_›
  · exact hb ‹_›

/-! ### The writes -/

/-- A write that reaches neither the orders, the pads, the holders nor the agenda. -/
theorem waits_aside {s t : State} (h1 : t.orders = s.orders) (h2 : t.transfer.pads = s.transfer.pads)
    (h3 : ∀ m, (t.seg m).holder = (s.seg m).holder) (h4 : t.agenda = s.agenda) : Waits i n s t :=
  { refs := by rw [h1]
    orders := fun k => by
      have : t.order k = s.order k := by unfold State.order; rw [h1]
      rw [this]
      exact .refl _
    pads := fun p => .inl (by unfold State.pad; rw [h2])
    holder := fun h => by rw [h3]; exact h
    agenda := fun x hx => .inl (h4 ▸ hx) }

theorem waits_emit (s : State) {xs : List Task} (h : ∀ x ∈ xs, orderly x = true ∧ (x = .release n i → (s.orderRefs i).active ≠ none)) :
    Waits i n s (s.emit xs) := { Waits.refl s with agenda := fun x hx => (List.mem_append.1 hx).imp_right (h x) }

theorem waits_setSeg (s : State) (m : Nat) {r : SegDyn} (h : m = n → (s.seg n).holder = some i → r.holder = some i) : Waits i n s (s.setSeg m r) :=
  { Waits.refl s with
    holder := fun hh => by
      rw [setSeg_seg]
      split
      · next e => exact h e.symm hh
      · exact hh }

theorem waits_setSeg_same (s : State) (m : Nat) {r : SegDyn} (h : r.holder = (s.seg m).holder) : Waits i n s (s.setSeg m r) :=
  waits_setSeg s m fun e hh => by rw [h, e]; exact hh

theorem waits_setOrder (s : State) (k : Nat) {o : Option Order} (h : HeadStep (s.order k) o) : Waits i n s (s.setOrder k o) :=
  { Waits.refl s with
    orders := fun j => by
      rw [setOrder_order]
      split
      · next e => subst e; exact h
      · exact .refl _ }

theorem waits_setPad (s : State) (p : Nat) (r : PadRec) (h : (s.pad p).state = .seated) : Waits i n s (s.setPad p r) :=
  { Waits.refl s with
    pads := fun q => by
      rw [setPad_pad]
      split
      · next e => subst e; exact .inr h
      · exact .inl rfl }

theorem waits_setOutQueue (s : State) (q : List OutMessage) : Waits i n s (s.setOutQueue q) := waits_aside rfl rfl (fun _ => rfl) rfl

theorem waits_setTransmitter (s : State) (x : Transmitter) : Waits i n s (s.setTransmitter x) := waits_aside rfl rfl (fun _ => rfl) rfl

theorem waits_setPointer (s : State) (p : Option Nat) : Waits i n s (s.setPointer p) := waits_aside rfl rfl (fun _ => rfl) rfl

theorem waits_dropDue (s : State) (l : List Nat) : Waits i n s { s with due := l } := waits_aside rfl rfl (fun _ => rfl) rfl

theorem waits_setPolls (s : State) (p : PollEngine) : Waits i n s { s with polls := p } := waits_aside rfl rfl (fun _ => rfl) rfl

/-! ### The out-queue and the Junction Controller -/

theorem waits_operationSent (s : State) (j : Nat) : Waits i n s (s.operationSent j) := by
  unfold State.operationSent
  split
  · split
    · exact waits_aside rfl rfl (fun _ => rfl) rfl
    · exact .refl s
  · exact .refl s

theorem waits_transmitted (s : State) (m : OutMessage) : Waits i n s (s.transmitted m) := by
  unfold State.transmitted
  cases m with
  | throw j x => exact waits_operationSent s j
  | prove j => exact waits_operationSent s j
  | couple p => exact waits_ite (fun h => waits_setPad s p _ h) (fun _ => .refl s)
  | uncouple p => exact .refl s

theorem waits_commit (s : State) : Waits i n s s.commit := by
  unfold State.commit
  split
  · exact .refl s
  · split
    · exact .refl s
    · exact ((waits_setOutQueue s _).trans (waits_setTransmitter _ _)).trans (waits_transmitted _ _)

theorem waits_handOut (s : State) (m : OutMessage) : Waits i n s (s.handOut m) :=
  (waits_setOutQueue s _).trans (waits_commit _)

theorem waits_takeBack (s : State) (p : OutMessage → Bool) : Waits i n s (s.takeBack p) := waits_aside rfl rfl (fun _ => rfl) rfl

theorem waits_tellHolder (s : State) (j : Nat) : Waits i n s (s.tellHolder j) := by
  unfold State.tellHolder
  split
  · exact waits_emit s (by simp [orderly])
  · exact .refl s

theorem waits_setJunction (s : State) (j : Nat) (r : Option JunctionRec) : Waits i n s (s.setJunction j r) :=
  waits_aside rfl rfl (fun _ => rfl) rfl

theorem waits_rotationEnds (s : State) (op : Option Operation) : Waits i n s (s.rotationEnds op) := by
  unfold State.rotationEnds
  exact waits_ite (fun _ => waits_aside rfl rfl (fun _ => rfl) rfl) (fun _ => .refl s)

theorem waits_queueThrow (s : State) (j : Nat) (target : SwitchSetting) : Waits i n s (s.queueThrow j target) := by
  unfold State.queueThrow
  split
  · exact .refl s
  · exact (((waits_rotationEnds s _).trans (waits_setJunction _ _ _)).trans (waits_handOut _ _)).trans (waits_tellHolder _ _)

theorem waits_throwCheck (s : State) (j : Nat) : Waits i n s (s.throwCheck j) := by
  unfold State.throwCheck
  split
  · split
    · exact waits_ite (fun _ => waits_queueThrow s j _) (fun _ => .refl s)
    · exact .refl s
  · exact .refl s

theorem waits_restDecision (s : State) (j : Nat) : Waits i n s (s.restDecision j) := by
  unfold State.restDecision
  split
  · split
    · exact waits_ite (fun _ => waits_queueThrow s j _) (fun _ => .refl s)
    · exact .refl s
  · exact .refl s

theorem waits_withdrawThrow (s : State) (j : Nat) : Waits i n s (s.withdrawThrow j) := by
  unfold State.withdrawThrow
  split
  · split
    · exact (((waits_takeBack s _).trans (waits_setJunction _ _ _)).trans (waits_tellHolder _ _)).trans (waits_emit _ (by simp [orderly]))
    · exact .refl s
  · exact .refl s

theorem waits_junctionReleased (s : State) (j : Nat) : Waits i n s (s.junctionReleased j) := by
  unfold State.junctionReleased
  split
  · exact (waits_setJunction s _ _).trans (waits_withdrawThrow _ _)
  · exact .refl s

theorem waits_junctionGranted (s : State) (j : Nat) : Waits i n s (s.junctionGranted j) := by
  unfold State.junctionGranted
  split
  · exact ((waits_setJunction s _ _).trans (waits_withdrawThrow _ _)).trans (waits_emit _ (by simp [orderly]))
  · exact .refl s

theorem waits_dropUnneededThrow (s : State) (t j : Nat) : Waits i n s (s.dropUnneededThrow t j) := by
  unfold State.dropUnneededThrow
  split
  · split
    · exact waits_ite (fun _ => .refl s) (fun _ => waits_withdrawThrow s j)
    · exact .refl s
  · exact .refl s

theorem waits_reviewJunctions (s : State) (t : Nat) : Waits i n s (s.reviewJunctions t) :=
  Waits.foldl (fun s j => (waits_dropUnneededThrow s t j).trans (waits_emit _ (by simp [orderly]))) _ s

theorem waits_rotation (s : State) : Waits i n s s.rotation := by
  unfold State.rotation
  refine waits_ite (fun _ => ?_) (fun _ => .refl s)
  split
  · exact .refl s
  · split
    · exact .refl s
    · exact ((waits_setJunction s _ _).trans (waits_setPointer _ _)).trans (waits_handOut _ _)

/-! ### The Interlock Core -/

theorem waits_setWaiting (s : State) (w : List WaitEntry) : Waits i n s (s.setWaiting w) := waits_aside rfl rfl (fun _ => rfl) rfl

theorem waits_setFenced (s : State) (l : List FencedEntry) : Waits i n s (s.setFenced l) := waits_aside rfl rfl (fun _ => rfl) rfl

theorem waits_makeDue (s : State) (k : Nat) : Waits i n s (s.makeDue k) := waits_aside rfl rfl (fun _ => rfl) rfl

theorem waits_raise (s : State) (k : NoticeKind) (m : Nat) : Waits i n s (s.raise k m) := waits_aside rfl rfl (fun _ => rfl) rfl

theorem waits_setRun (s : State) (t : Nat) (r : Option RunRec) : Waits i n s (s.setRun t r) := waits_aside rfl rfl (fun _ => rfl) rfl

theorem waits_unlistHead (s : State) (slot : Nat) : Waits i n s (s.unlistHead slot) := waits_aside rfl rfl (fun _ => rfl) rfl

theorem waits_setConfirm (s : State) (t : Nat) (c : Confirm) : Waits i n s (s.setConfirm t c) := by
  unfold State.setConfirm
  split
  · exact waits_setRun s _ _
  · exact .refl s

theorem waits_settleConfirm (s : State) (t : Nat) : Waits i n s (s.settleConfirm t) := by
  unfold State.settleConfirm
  exact waits_ite (fun _ => waits_setConfirm s _ _) (fun _ => .refl s)

theorem waits_mark (s : State) (t : Nat) (ns : List Nat) (d : Disposition) : Waits i n s (s.mark t ns d) := by
  unfold State.mark
  refine Waits.foldl (fun s m => ?_) _ s
  dsimp only
  exact waits_ite (fun _ => waits_setSeg_same s m (by rfl)) (fun _ => .refl s)

theorem waits_unmark (s : State) (ns : List Nat) : Waits i n s (s.unmark ns) :=
  Waits.foldl (fun s m => waits_setSeg_same s m (by rfl)) _ s

theorem waits_makeActiveDue (s : State) (t : Nat) : Waits i n s (s.makeActiveDue t) := by
  unfold State.makeActiveDue
  split
  · exact waits_makeDue s _
  · exact .refl s

theorem waits_reviseMarks (s : State) (t : Nat) : Waits i n s (s.reviseMarks t) := by
  unfold State.reviseMarks
  dsimp only
  refine waits_ite (fun _ => waits_ite (fun _ => .refl s) fun _ => ?_) (fun _ => waits_ite (fun _ => .refl s) fun _ => ?_)
  · exact ((waits_mark s t _ _).trans (waits_setConfirm _ t _)).trans (waits_emit _ (by simp [orderly]))
  · exact ((waits_unmark s _).trans (waits_settleConfirm _ t)).trans (waits_makeActiveDue _ t)

/-- Track is held beyond a place only where there is an active order. -/
theorem active_of_heldBeyond {s : State} {t k m : Nat} (h : m ∈ s.heldBeyond t k) : (s.orderRefs t).active ≠ none := by
  unfold State.heldBeyond State.trackAhead State.active at h
  intro e
  rw [e] at h
  simp at h

theorem waits_withdraw (s : State) (t k : Nat) : Waits i n s (s.withdraw t k) := by
  unfold State.withdraw
  dsimp only
  have step : Waits i n s (if k < s.sentReach t then
      if s.heldBeyond t k = [] then s
      else
        if s.releaseCause t then
          ((s.mark t (s.heldBeyond t k) (if s.releaseCause t then .release else .keep)).setConfirm t .awaitingPoll).emit [.reviewJunctions t]
        else (s.mark t (s.heldBeyond t k) (if s.releaseCause t then .release else .keep)).setConfirm t .awaitingPoll
    else if s.releaseCause t then s.emit (((s.heldBeyond t k).filter (s.yieldsAtOnce t)).map fun n => .release n t)
    else s.mark t ((s.heldBeyond t k).filter (s.keepCause t)) .keep) := by
    refine waits_ite (fun _ => waits_ite (fun _ => .refl s) fun _ => waits_ite (fun _ => ?_) fun _ => ?_)
      fun _ => waits_ite (fun _ => ?_) fun _ => ?_
    · exact ((waits_mark s t _ _).trans (waits_setConfirm _ t _)).trans (waits_emit _ (by simp [orderly]))
    · exact (waits_mark s t _ _).trans (waits_setConfirm _ t _)
    · refine waits_emit s fun x hx => ?_
      obtain ⟨m, hm, rfl⟩ := List.mem_map.1 hx
      refine ⟨rfl, fun e => ?_⟩
      cases e
      exact active_of_heldBeyond (List.mem_filter.1 hm).1
    · exact waits_mark s t _ _
  refine waits_ite (fun _ => ?_) fun _ => step
  exact step.trans (waits_emit _ (by simp [orderly]))

theorem waits_recompute (s : State) (t : Nat) : Waits i n s (s.recompute t) := by
  unfold State.recompute
  split
  · exact .refl s
  · dsimp only
    split
    · exact waits_reviseMarks s t
    · exact ((waits_reviseMarks s t).trans (waits_setRun _ t _)).trans (waits_withdraw _ t _)

theorem index_placeOf (o : Order) (k : Nat) : o.index (o.placeOf k) = k := by
  unfold Order.index Order.placeOf
  split
  · rfl
  · next h => simp; omega

/-- A claim point moved within the route. -/
theorem claimIn_move {o : Order} {k : Nat} {c : HeadCause} (h : k < o.route.length) : claimIn { o with claim := o.placeOf k, head := c } := by
  have e : Order.index { o with claim := o.placeOf k, head := c } (o.placeOf k) = k := index_placeOf o k
  refine ⟨?_, ?_⟩
  · show o.placeOf k = Order.placeOf { o with claim := o.placeOf k, head := c } (Order.index { o with claim := o.placeOf k, head := c } (o.placeOf k))
    rw [e]
    rfl
  · show Order.index { o with claim := o.placeOf k, head := c } (o.placeOf k) < _
    rw [e]
    exact h

theorem waits_fallBack (s : State) (t m : Nat) : Waits i n s (s.fallBack t m) := by
  unfold State.fallBack
  split
  · exact .refl s
  · next slot o h =>
    split
    · exact .refl s
    · next at_ _ =>
      dsimp only
      refine waits_ite (fun hlt => ?_) (fun _ => .refl s)
      refine (waits_setOrder s slot ?_).trans (waits_makeDue _ _)
      rw [active_order h]
      exact ⟨rfl, fun hc => claimIn_move (o := o) (c := o.head) (lt_trans hlt hc.2)⟩

theorem waits_grant (s : State) (t m : Nat) (h : m = n → (s.seg n).holder = some i → t = i) : Waits i n s (s.grant t m) := by
  unfold State.grant
  exact ((waits_setSeg s m fun e hh => by show some t = some i; rw [h e hh]).trans (waits_emit _ (by simp [orderly]))).trans
    (waits_junctionGranted _ _)

/-- A release of another segment, or for another transporter. -/
theorem waits_release (s : State) (m t : Nat) (h : ¬(m = n ∧ t = i)) : Waits i n s (s.release m t) := by
  unfold State.release
  dsimp only
  refine waits_ite (fun _ => .refl s) fun hh => ?_
  refine Waits.trans ?_ (waits_emit _ (by simp [orderly]))
  have h1 : Waits i n s (s.setSeg m { s.seg m with holder := none, leaving := false, withdrawing := none }) := by
    refine waits_setSeg s m fun e he => ?_
    subst e
    have : (s.seg m).holder = some t := not_not.1 hh
    rw [this] at he
    exact absurd ⟨rfl, Option.some.inj he⟩ h
  have h2 := h1.trans (waits_ite (p := (s.seg m).withdrawing.isSome = true) (fun _ => waits_settleConfirm _ t) (fun _ => .refl _))
  have h3 := (h2.trans (waits_fallBack _ t m)).trans (waits_junctionReleased _ m)
  exact h3.trans (waits_ite (fun _ => waits_raise _ _ _) (fun _ => waits_emit _ (by simp [orderly])))

theorem waits_claimEffect (s : State) (t slot m : Nat) (x : ClaimResult) (h : s.claimResult t m = x) : Waits i n s (s.claimEffect t slot m x) := by
  cases x with
  | granted =>
    simp only [State.claimEffect]
    refine waits_ite (fun _ => ?_) fun hn => waits_grant s t m fun e hh => ?_
    · exact (waits_setSeg_same s m (by rfl)).trans (waits_emit _ (by simp [orderly]))
    · subst e
      rcases claimResult_granted h with h | h
      · exact absurd h hn
      · rw [h.1] at hh; cases hh
  | queued => exact waits_setSeg_same s m (by rfl)
  | waitSensor => exact waits_setWaiting s _
  | waitIntrusion => exact waits_setWaiting s _
  | waitSwitch =>
    simp only [State.claimEffect]
    split
    · exact waits_setJunction s _ _
    · exact .refl s
  | refusedFenced => exact (waits_setFenced s _).trans (waits_raise _ _ _)
  | refusedCycle => exact (waits_setWaiting s _).trans (waits_raise _ _ _)
  | full => exact waits_setWaiting s _

theorem waits_applyResult (s : State) (slot m : Nat) (x : ClaimResult) : Waits i n s (s.applyResult slot m x) := by
  unfold State.applyResult
  split
  · exact .refl s
  · next o ho =>
    dsimp only
    have h1 : Waits i n s (s.setOrder slot (some { o with
        head := x.cause m
        claim := if x = .granted ∧ o.headPos.any (fun p => decide (p.segment = m)) then o.placeOf (o.index o.claim + 1) else o.claim })) := by
      refine waits_setOrder s slot ?_
      rw [ho]
      refine ⟨rfl, fun hc => ?_⟩
      split
      · next hh =>
        have : o.headPos ≠ none := by intro e; rw [e] at hh; simp at hh
        unfold Order.headPos at this
        exact claimIn_move (o := o) (c := x.cause m) (by
          by_contra hlt
          exact this (List.getElem?_eq_none (not_lt.1 hlt)))
      · exact hc
    exact waits_ite (fun _ => h1.trans (waits_makeDue _ _)) (fun _ => h1)

theorem waits_decideClaim (s : State) (slot m : Nat) : Waits i n s (s.decideClaim slot m) := by
  unfold State.decideClaim
  split
  · exact .refl s
  · exact (waits_claimEffect s _ slot m _ rfl).trans (waits_applyResult _ _ _ _)

theorem waits_claim (s : State) (slot : Nat) : Waits i n s (s.claim slot) := by
  unfold State.claim
  split
  · exact .refl s
  · split
    · exact .refl s
    · exact waits_decideClaim s _ _

theorem waits_represent (s : State) (slot m : Nat) : Waits i n s (s.represent slot m) := by
  unfold State.represent
  exact waits_ite (fun _ => (waits_unlistHead s _).trans (waits_decideClaim _ _ _)) (fun _ => .refl s)

theorem waits_extend (s : State) : Waits i n s s.extend := by
  unfold State.extend
  split
  · exact .refl s
  · refine waits_ite (fun _ => waits_emit s (by simp [orderly])) (fun _ => ?_)
    exact (waits_dropDue s _).trans (waits_emit _ (by simp [orderly]))

theorem waits_serve (s : State) (m : Nat) : Waits i n s (s.serve m) := by
  unfold State.serve
  refine waits_ite (fun h => ?_) (fun _ => .refl s)
  split
  · exact .refl s
  · next t rest hq =>
    have hh : (s.seg m).holder = none := by
      unfold State.servable at h
      simp only [Bool.and_eq_true, Option.isNone_iff_eq_none] at h
      exact h.1.1.1.1
    dsimp only
    refine Waits.trans ?_ (waits_emit _ (by simp [orderly]))
    have h1 : Waits i n s ((s.setSeg m { s.seg m with queue := rest }).grant t m) := by
      refine (waits_setSeg_same s m (by rfl)).trans (waits_grant _ t m fun e he => ?_)
      subst e
      rw [setSeg_seg_same] at he
      rw [hh] at he
      cases he
    split
    · exact h1.trans (waits_applyResult _ _ _ _)
    · exact h1

theorem waits_emit_map {α : Type} (s : State) (l : List α) (f : α → Task) (h : ∀ x, orderly (f x) = true ∧ f x ≠ .release n i) :
    Waits i n s (s.emit (l.map f)) :=
  waits_emit s fun x hx => by
    obtain ⟨y, -, rfl⟩ := List.mem_map.1 hx
    exact ⟨(h y).1, fun e => absurd e (h y).2⟩

theorem waits_confirmed (s : State) (t : Nat) : Waits i n s (s.confirmed t) := by
  unfold State.confirmed
  split
  · exact .refl s
  · refine waits_ite (fun _ => ?_) (fun _ => waits_emit s (by simp [orderly]))
    exact (waits_setConfirm s t _).trans (waits_emit _ (by simp [orderly]))

theorem waits_confirmPolled (s : State) (t : Nat) : Waits i n s (s.confirmPolled t) := by
  unfold State.confirmPolled
  split
  · exact waits_ite (fun _ => waits_setConfirm s _ _) (fun _ => .refl s)
  · exact .refl s

theorem waits_updateTrain (s : State) (t : Nat) (f : TransporterRec → TransporterRec) : Waits i n s (s.updateTrain t f) := by
  unfold State.updateTrain
  split
  · exact waits_aside rfl rfl (fun _ => rfl) rfl
  · exact .refl s

theorem waits_pollNext (s : State) : Waits i n s s.pollNext := by
  unfold State.pollNext
  refine waits_ite (fun _ => .refl s) (fun _ => ?_)
  split
  · unfold State.poll
    split
    · exact .refl s
    · dsimp only
      refine ((Waits.trans ?_ (waits_updateTrain _ _ _)).trans (waits_confirmPolled _ _)).trans (waits_updateTrain _ _ _)
      exact waits_setPolls s _
  · exact .refl s

theorem waits_quietTest (s : State) : Waits i n s s.quietTest := by
  unfold State.quietTest
  exact waits_ite (fun _ => (waits_setPolls s _).trans (waits_raise _ _ _))
    (fun _ => .refl s)

theorem waits_resumeTransfers (s : State) : Waits i n s s.resumeTransfers := by
  unfold State.resumeTransfers
  have h0 : Waits i n s (s.setHoldEnding false) := waits_aside rfl rfl (fun _ => rfl) rfl
  refine waits_ite (fun _ => h0) (fun _ => (h0.trans ?_).trans (waits_commit _))
  unfold State.resumeTimers
  refine Waits.foldl (fun s p => ?_) _ _
  split
  · split
    · exact waits_aside rfl rfl (fun _ => rfl) rfl
    · exact .refl s
  · exact .refl s

/-- A task that moves no order. -/
def headTask : Task → Bool
  | .arrival _ => false
  | .complete _ => false
  | .takeUpPending _ => false
  | .startTransfers => false
  | x => orderly x

/-- What a task that moves no order does. -/
theorem waits_runTask (x : Task) (s : State) (h : headTask x = true) (hr : x ≠ .release n i) : Waits i n s (runTask x s) := by
  cases x <;> first | (simp [headTask, orderly] at h; done) | skip
  case recompute t => exact waits_recompute s t
  case release m t => exact waits_release s m t (fun e => hr (by rw [e.1, e.2]))
  case serve m => exact waits_serve s m
  case serveAll => exact waits_emit_map s _ _ fun _ => ⟨rfl, by simp⟩
  case retry m cs => exact waits_emit_map s _ _ fun _ => ⟨rfl, by simp⟩
  case retryAll => exact waits_emit_map s _ _ fun _ => ⟨rfl, by simp⟩
  case represent slot m => exact waits_represent s slot m
  case claim slot => exact waits_claim s slot
  case extend => exact waits_extend s
  case throwCheck j => exact waits_throwCheck s j
  case restDecision j => exact waits_restDecision s j
  case reviewJunctions t => exact waits_reviewJunctions s t
  case rotation => exact waits_rotation s
  case confirmed t => exact waits_confirmed s t
  case quietTest => exact waits_quietTest s
  case pollNext => exact waits_pollNext s
  case resumeTransfers => exact waits_resumeTransfers s

/-! ### The tasks that move orders -/

theorem waits_leaveQueue (s : State) (t m : Nat) : Waits i n s (s.leaveQueue t m) := by
  unfold State.leaveQueue
  dsimp only
  refine waits_ite (fun _ => ?_) (fun _ => .refl s)
  have h1 : Waits i n s (s.setSeg m { s.seg m with queue := (s.seg m).queue.filter fun u => decide (u ≠ t) }) := waits_setSeg_same s m (by rfl)
  exact waits_ite (fun _ => h1.trans (waits_emit _ (by simp [orderly]))) (fun _ => h1)

@[simp] theorem unlistHead_order (s : State) (slot k : Nat) : (s.unlistHead slot).order k = s.order k := rfl

@[simp] theorem leaveQueue_order (s : State) (t m k : Nat) : (s.leaveQueue t m).order k = s.order k := by
  unfold State.leaveQueue
  dsimp only
  split
  · split <;> rfl
  · rfl

theorem removeHead_order (s : State) (slot k : Nat) :
    (s.removeHead slot).order k = if k = slot then (s.order slot).map fun o => { o with head := .none } else s.order k := by
  unfold State.removeHead
  split
  · next h =>
    split
    · next e => rw [e, h]; rfl
    · rfl
  · next o h =>
    rw [setOrder_order, h]
    split
    · rfl
    · split <;> simp

theorem waits_removeHead (s : State) (slot : Nat) : Waits i n s (s.removeHead slot) := by
  unfold State.removeHead
  split
  · exact .refl s
  · next o ho =>
    dsimp only
    have h1 : Waits i n s (match o.head with
        | .claiming m => (s.unlistHead slot).leaveQueue o.transporter m
        | _ => s.unlistHead slot) := by
      split
      · exact (waits_unlistHead s slot).trans (waits_leaveQueue _ _ _)
      · exact waits_unlistHead s slot
    refine h1.trans (waits_setOrder _ slot ?_)
    have e : (match o.head with
        | .claiming m => (s.unlistHead slot).leaveQueue o.transporter m
        | _ => s.unlistHead slot).order slot = some o := by
      split <;> simpa using ho
    rw [e]
    exact ⟨rfl, fun h => h⟩

/-- An order as it stands once it has ended (R81). -/
def Order.endedAs (o : Order) (x : OrderOutcome) : Order :=
  { o with head := .none, state := .ended, outcome := some x, failure := if x = .failed then o.failure else none }

theorem endOrder_order (s : State) (slot k : Nat) (x : OrderOutcome) :
    (s.endOrder slot x).order k = if k = slot then (s.order slot).map fun o => Order.endedAs o x else s.order k := by
  have h0 : ∀ j, ((s.removeHead slot).dropClaim slot).order j = (s.removeHead slot).order j := fun _ => rfl
  unfold State.endOrder
  dsimp only
  split
  · next h =>
    rw [h0, removeHead_order, if_pos rfl] at h
    rw [h0, removeHead_order]
    split
    · cases hs : s.order slot
      · rfl
      · rw [hs] at h; cases h
    · rfl
  · next o h =>
    rw [h0, removeHead_order, if_pos rfl] at h
    obtain ⟨o', ho', rfl⟩ := Option.map_eq_some_iff.1 h
    have key : ∀ s' : State, (∀ j, s'.order j = if j = slot then some (Order.endedAs o' x) else s.order j) →
        s'.order k = if k = slot then (s.order slot).map (fun o => Order.endedAs o x) else s.order k := by
      intro s' hs'
      rw [hs', ho']
      rfl
    have hset : ∀ j, (((s.removeHead slot).dropClaim slot).setOrder slot (some
        { ({ o' with head := .none } : Order) with
          state := .ended, outcome := some x, failure := if x = .failed then o'.failure else none })).order j
        = if j = slot then some (Order.endedAs o' x) else s.order j := by
      intro j
      rw [setOrder_order]
      split
      · rfl
      · next hj => rw [h0, removeHead_order, if_neg hj]
    split
    · exact key _ fun j => hset j
    · exact key _ fun j => hset j

theorem endOrder_orderRefs (s : State) (slot u : Nat) (x : OrderOutcome) :
    (s.endOrder slot x).orderRefs u
      = if (s.order slot).map (·.transporter) = some u then (s.orderRefs u).without slot else s.orderRefs u := by
  have hr : ∀ v, ((s.removeHead slot).dropClaim slot).orderRefs v = s.orderRefs v := fun v =>
    (waits_removeHead (i := 0) (n := 0) s slot).orderRefs v
  have h0 : ∀ j, ((s.removeHead slot).dropClaim slot).order j = (s.removeHead slot).order j := fun _ => rfl
  unfold State.endOrder
  dsimp only
  split
  · next h =>
    rw [h0, removeHead_order, if_pos rfl] at h
    have : s.order slot = none := by
      cases hs : s.order slot
      · rfl
      · rw [hs] at h; cases h
    rw [this, hr]
    simp
  · next o h =>
    rw [h0, removeHead_order, if_pos rfl] at h
    obtain ⟨o', ho', rfl⟩ := Option.map_eq_some_iff.1 h
    rw [ho']
    simp only [Option.map_some, Option.some.injEq]
    have key : ∀ w : State, (∀ v, w.orderRefs v = if v = o'.transporter then (s.orderRefs v).without slot else s.orderRefs v) →
        w.orderRefs u = if o'.transporter = u then (s.orderRefs u).without slot else s.orderRefs u := by
      intro w hw
      rw [hw]
      by_cases e : u = o'.transporter
      · rw [if_pos e, if_pos e.symm]
      · rw [if_neg e, if_neg (Ne.symm e)]
    have hset : ∀ v, ((((s.removeHead slot).dropClaim slot).setOrder slot (some
        { ({ o' with head := .none } : Order) with
          state := .ended, outcome := some x, failure := if x = .failed then o'.failure else none })).setRefs o'.transporter
            ((((s.removeHead slot).dropClaim slot).orderRefs o'.transporter).without slot)).orderRefs v
        = if v = o'.transporter then (s.orderRefs v).without slot else s.orderRefs v := by
      intro v
      rw [setRefs_orderRefs]
      split
      · next e => subst e; rw [hr]
      · exact hr v
    split
    · exact key _ fun v => hset v
    · exact key _ fun v => hset v

theorem endOrder_pad (s : State) (slot p : Nat) (x : OrderOutcome) : (s.endOrder slot x).pad p = (s.pad p).withoutClaim slot := by
  have h0 : ((s.removeHead slot).dropClaim slot).pad p = (s.pad p).withoutClaim slot := by
    rw [dropClaim_pad]
    congr 1
    unfold State.removeHead
    split
    · rfl
    · dsimp only
      rw [setOrder_pad]
      split
      · unfold State.leaveQueue
        dsimp only
        split
        · split <;> rfl
        · rfl
      · rfl
  unfold State.endOrder
  dsimp only
  split
  · exact h0
  · split
    · exact h0
    · exact h0

/-- What ending an order leaves of the holdings and lists to be done. -/
theorem endOrder_core (s : State) (slot : Nat) (x : OrderOutcome) :
    ((s.seg n).holder = some i → ((s.endOrder slot x).seg n).holder = some i)
      ∧ ∀ y ∈ (s.endOrder slot x).agenda, y ∈ s.agenda ∨ (orderly y = true ∧ (y = .release n i → (s.orderRefs i).active ≠ none)) := by
  have h0 := waits_removeHead (i := i) (n := n) s slot
  unfold State.endOrder
  dsimp only
  split
  · exact ⟨h0.holder, h0.agenda⟩
  · next o _ =>
    refine ⟨fun h => ?_, fun y hy => ?_⟩
    · split
      · exact h0.holder h
      · exact h0.holder h
    · have hy' : y ∈ ((s.removeHead slot).dropClaim slot).agenda ∨ y ∈ [Task.recompute o.transporter, Task.reviewJunctions o.transporter] := by
        split at hy
        · exact List.mem_append.1 hy
        · exact List.mem_append.1 hy
      rcases hy' with hy | hy
      · exact h0.agenda y hy
      · right
        simp only [List.mem_cons, List.not_mem_nil, or_false] at hy
        rcases hy with rfl | rfl <;> exact ⟨rfl, by simp⟩

/-! ### The references name live orders -/

theorem mem_named_without {r : OrderRefs} {slot k : Nat} : k ∈ (r.without slot).named ↔ k ∈ r.named ∧ k ≠ slot := by
  obtain ⟨a, st, pd⟩ := r
  unfold OrderRefs.without OrderRefs.named
  simp only [List.mem_append, Option.mem_toList, List.mem_filter, decide_eq_true_eq]
  constructor
  · rintro ((h | h) | h)
    · split at h
      · cases h
      · next hne => exact ⟨.inl (.inl h), fun e => hne (by rw [← e]; exact h)⟩
    · exact ⟨.inl (.inr h.1), h.2⟩
    · split at h
      · cases h
      · next hne => exact ⟨.inr h, fun e => hne (by rw [← e]; exact h)⟩
  · rintro ⟨(h | h) | h, hk⟩
    · left; left
      rw [if_neg]
      · exact h
      · intro e; rw [e] at h; exact hk (Option.some.inj h).symm
    · exact .inl (.inr ⟨h, hk⟩)
    · right
      rw [if_neg]
      · exact h
      · intro e; rw [e] at h; exact hk (Option.some.inj h).symm

theorem active_named {s : State} {u k : Nat} {o : Order} (h : s.active u = some (k, o)) : k ∈ (s.orderRefs u).named := by
  unfold State.active at h
  split at h
  · next slot hs =>
    obtain ⟨x, -, he⟩ := Option.map_eq_some_iff.1 h
    cases he
    simp [OrderRefs.named, hs]
  · cases h

theorem startingDivert_spec {s : State} {u k : Nat} (h : s.startingDivert u = some k) :
    ∃ o, s.order k = some o ∧ o.transporter = u ∧ o.state = .starting := by
  have := List.find?_some h
  split at this
  · next o ho => exact ⟨o, ho, by simpa using this⟩
  · cases this

theorem HeadStep.spec {o : Order} {b : Option Order} (h : HeadStep (some o) b) :
    ∃ o', b = some o' ∧ o'.state = o.state ∧ o'.transporter = o.transporter ∧ o' = { o with claim := o'.claim, head := o'.head } := by
  cases b with
  | none => exact h.elim
  | some o' => exact ⟨o', rfl, by rw [h.1], by rw [h.1], h.1⟩

theorem HeadStep.back {o' : Order} {a : Option Order} (h : HeadStep a (some o')) :
    ∃ o, a = some o ∧ o'.state = o.state ∧ o'.transporter = o.transporter ∧ o' = { o with claim := o'.claim, head := o'.head } := by
  cases a with
  | none => exact h.elim
  | some o => exact ⟨o, rfl, by rw [h.1], by rw [h.1], h.1⟩

theorem refsRight_waits {s t : State} (w : Waits i n s t) (h : s.refsRight) : t.refsRight := by
  intro u k hk
  rw [w.orderRefs] at hk
  obtain ⟨o, ho, ht, hl⟩ := h u k hk
  obtain ⟨o', ho', hs, ht', -⟩ := HeadStep.spec (ho ▸ w.orders k)
  exact ⟨o', ho', ht'.trans ht, by unfold Order.live at *; rw [hs]; exact hl⟩

theorem refsRight_endOrder {s : State} (h : s.refsRight) (slot : Nat) (x : OrderOutcome) : (s.endOrder slot x).refsRight := by
  intro u k hk
  rw [endOrder_orderRefs] at hk
  have key : k ∈ (s.orderRefs u).named → k ≠ slot → ∃ o, (s.endOrder slot x).order k = some o ∧ o.transporter = u ∧ o.live = true := by
    intro h1 h2
    obtain ⟨o, ho, h3⟩ := h u k h1
    exact ⟨o, by rw [endOrder_order, if_neg h2]; exact ho, h3⟩
  split at hk
  · obtain ⟨h1, h2⟩ := mem_named_without.1 hk
    exact key h1 h2
  · next hne =>
    refine key hk fun e => ?_
    obtain ⟨o, ho, ht, -⟩ := h u k hk
    exact hne (by rw [← e, ho]; exact congrArg some ht)

/-- Writing an order that stays live and its transporter's keeps the references right. -/
theorem refsRight_setOrder {s : State} (h : s.refsRight) (k : Nat) (o : Order) (hl : o.live = true)
    (ht : ∀ u, k ∈ (s.orderRefs u).named → o.transporter = u) : (s.setOrder k (some o)).refsRight := by
  intro u m hm
  by_cases e : m = k
  · subst e
    exact ⟨o, by rw [setOrder_order_same], ht u hm, hl⟩
  · obtain ⟨o', ho', h3⟩ := h u m hm
    exact ⟨o', by rw [setOrder_order, if_neg e]; exact ho', h3⟩

/-- Writing references that name live orders of their transporter keeps the references right. -/
theorem refsRight_setRefs {s : State} (h : s.refsRight) (t : Nat) (r : OrderRefs)
    (hr : ∀ k ∈ r.named, ∃ o, s.order k = some o ∧ o.transporter = t ∧ o.live = true) : (s.setRefs t r).refsRight := by
  intro u m hm
  rw [setRefs_orderRefs] at hm
  split at hm
  · next e =>
    subst e
    obtain ⟨o, ho, h3⟩ := hr m hm
    exact ⟨o, ho, h3⟩
  · obtain ⟨o, ho, h3⟩ := h u m hm
    exact ⟨o, ho, h3⟩

/-- References that stay right where the orders and the references are the same. -/
theorem refsRight_same {s t : State} (h : s.refsRight) (e : t.orders = s.orders) : t.refsRight := by
  intro u k hk
  have e1 : t.orderRefs u = s.orderRefs u := by unfold State.orderRefs; rw [e]
  have e2 : t.order k = s.order k := by unfold State.order; rw [e]
  rw [e1] at hk
  rw [e2]
  exact h u k hk

/-- The order named by a transporter's references is the one that stands in the slot. -/
theorem refsRight_of {s : State} (h : s.refsRight) {u k : Nat} {o : Order} (ho : s.order k = some o) (hk : k ∈ (s.orderRefs u).named) :
    o.transporter = u ∧ o.live = true := by
  obtain ⟨o', ho', h3⟩ := h u k hk
  rw [ho] at ho'
  cases ho'
  exact h3

theorem refsRight_failOrder {s : State} (h : s.refsRight) (slot : Nat) (c : FailureCause) : (s.failOrder slot c).refsRight := by
  unfold State.failOrder
  split
  · exact h
  · next o ho =>
    refine refsRight_same (s := s.setOrder slot _) ?_ rfl
    exact refsRight_setOrder h slot _ rfl fun u hk => (refsRight_of h ho hk).1

theorem refsRight_popTo {s : State} (h : s.refsRight) (t : Nat) (place : Place) : (s.popTo t place).refsRight := by
  unfold State.popTo
  split
  · exact h
  · next slot rest hst =>
    split
    · exact h
    · next o ho =>
      have hm : ∀ k ∈ slot :: rest, k ∈ (s.orderRefs t).named := by
        intro k hk
        unfold OrderRefs.named
        rw [hst]
        simp only [List.mem_append]
        exact .inl (.inr hk)
      refine refsRight_same (s := State.setRefs _ t _) ?_ rfl
      have h1 := refsRight_setOrder h slot
        { o with state := .running, cursor := place, claim := place, head := .none, resumed := o.resumed || decide (place.leg = 2) } rfl
        fun u hk => (refsRight_of h ho hk).1
      refine refsRight_setRefs h1 t _ fun k hk => ?_
      refine h1 t k ?_
      rw [setOrder_orderRefs] at *
      simp only [OrderRefs.named, List.mem_append, Option.mem_toList] at hk ⊢
      rw [hst]
      rcases hk with (hk | hk) | hk
      · cases hk; exact .inl (.inr List.mem_cons_self)
      · exact .inl (.inr (List.mem_cons_of_mem _ hk))
      · exact .inr hk

theorem refsRight_rejoin {s : State} (h : s.refsRight) (t slot : Nat) (o : Order) : (s.rejoin t slot o).refsRight := by
  unfold State.rejoin
  have h0 := refsRight_endOrder h slot .done
  dsimp only
  split
  · exact h0
  · next place _ =>
    have h1 := refsRight_popTo h0 t place
    split
    · exact h1
    · split
      · exact refsRight_same h1 rfl
      · exact refsRight_same h1 rfl

theorem refsRight_arrival {s : State} (h : s.refsRight) (t : Nat) : (s.arrival t).refsRight := by
  unfold State.arrival
  split
  · exact h
  · next slot o ha =>
    have ho := active_order ha
    have hs : ∀ o' : Order, o'.live = true → o'.transporter = o.transporter → (s.setOrder slot (some o')).refsRight :=
      fun o' hl ht => refsRight_setOrder h slot o' hl fun u hk => ht.trans (refsRight_of h ho hk).1
    split
    · exact h
    · split
      · split
        · exact refsRight_rejoin h t slot o
        · split
          · exact refsRight_same (refsRight_waits (waits_removeHead (i := 0) (n := 0) _ _) (hs { o with state := .dwelling } rfl rfl)) rfl
          · exact h
      · split
        · have h1 := refsRight_same (t := (s.setOrder slot (some { o with state := .arrived })).emit [.recompute t, .reviewJunctions t])
            (hs { o with state := .arrived } rfl rfl) rfl
          dsimp only
          split
          · exact refsRight_endOrder h1 _ _
          · exact h1
        · exact h

theorem refsRight_startDivert {s : State} (h : s.refsRight) (t slot : Nat) (refuge : Order) (place : Place)
    (ht : ∀ u, slot ∈ (s.orderRefs u).named → refuge.transporter = u) : (s.startDivert t slot refuge place).refsRight := by
  unfold State.startDivert
  have h1 := refsRight_setOrder h slot { refuge with state := .starting, rejoin := some place } rfl ht
  refine refsRight_same (s := match ((s.setOrder slot _).orderRefs t).active with
    | some a => (s.setOrder slot _).removeHead a
    | none => s.setOrder slot _) ?_ rfl
  split
  · exact refsRight_waits (waits_removeHead (i := 0) (n := 0) _ _) h1
  · exact h1

theorem refsRight_takeUpDivert {s : State} (h : s.refsRight) (t slot : Nat) (refuge : Order) (hr : s.order slot = some refuge)
    (ht : refuge.transporter = t) : (s.takeUpDivert t slot refuge).refsRight := by
  unfold State.takeUpDivert
  dsimp only
  split
  · exact h
  · next a o ha =>
    have ho := active_order ha
    have hta := refsRight_of h ho (active_named ha)
    have h1 := refsRight_setOrder h a { o with state := .suspended, claim := o.cursor } rfl fun u hk => (refsRight_of h ho hk).1
    have h2 := refsRight_setOrder h1 slot { refuge with state := .running } rfl fun u hk => (refsRight_of h hr hk).1
    have h3 := refsRight_setRefs h2 t { s.orderRefs t with active := some slot, stack := a :: (s.orderRefs t).stack } fun k hk => by
      simp only [OrderRefs.named, List.mem_append, Option.mem_toList, List.mem_cons] at hk
      have hslot : ∃ o', ((s.setOrder a (some { o with state := .suspended, claim := o.cursor })).setOrder slot
          (some { refuge with state := .running })).order slot = some o' ∧ o'.transporter = t ∧ o'.live = true :=
        ⟨_, setOrder_order_same _ _ _, ht, rfl⟩
      have named : k ∈ (s.orderRefs t).named → ∃ o', ((s.setOrder a (some { o with state := .suspended, claim := o.cursor })).setOrder slot
          (some { refuge with state := .running })).order k = some o' ∧ o'.transporter = t ∧ o'.live = true := fun hk => h2 t k hk
      rcases hk with (hk | hk | hk) | hk
      · cases hk; exact hslot
      · subst hk; exact named (active_named ha)
      · exact named (by simp [OrderRefs.named, hk])
      · exact named (by simp [OrderRefs.named, hk])
    split
    · exact refsRight_same h3 rfl
    · exact refsRight_same h3 rfl

theorem refsRight_complete {s : State} (h : s.refsRight) (t : Nat) : (s.complete t).refsRight := by
  unfold State.complete
  split
  · exact h
  · split
    · next slot hsd =>
      obtain ⟨o, ho, ht, -⟩ := startingDivert_spec hsd
      split
      · exact h
      · next refuge hr =>
        rw [ho] at hr
        cases hr
        split
        · exact refsRight_takeUpDivert h t slot o ho ht
        · unfold State.voidDivert
          refine refsRight_same (s := (s.endOrder slot .void).makeActiveDue t) ?_ rfl
          exact refsRight_waits (waits_makeActiveDue (i := 0) (n := 0) _ t) (refsRight_endOrder h slot .void)
    · split
      · split
        · exact refsRight_endOrder h _ _
        · exact h
      · exact h

theorem refsRight_takeUpPending {s : State} (h : s.refsRight) (t : Nat) : (s.takeUpPending t).refsRight := by
  unfold State.takeUpPending
  split
  · exact h
  · next slot hp =>
    have hn : slot ∈ (s.orderRefs t).named := by simp [OrderRefs.named, hp]
    split
    · exact h
    · next refuge hr =>
      have ht := (refsRight_of h hr hn).1
      dsimp only
      split
      · split
        · refine refsRight_startDivert (refsRight_setRefs h t _ fun k hk => ?_) t slot refuge _ fun u hk => ?_
          · refine h t k ?_
            simp only [OrderRefs.named, List.mem_append, Option.mem_toList] at hk ⊢
            rcases hk with hk | hk
            · exact .inl hk
            · cases hk
          · rw [setRefs_orderRefs] at hk
            split at hk
            · next e => subst e; exact ht
            · exact (refsRight_of h hr hk).1
        · exact refsRight_endOrder h _ _
      · exact refsRight_endOrder h _ _

theorem refsRight_beginTransfer {s : State} (h : s.refsRight) (slot t : Nat) (f : Finish) : (s.beginTransfer slot t f).refsRight := by
  unfold State.beginTransfer
  split
  · exact refsRight_waits (waits_handOut (i := 0) (n := 0) _ _) (refsRight_same (s := s) h rfl)
  · exact refsRight_same (s := s) h rfl
  · dsimp only
    refine refsRight_failOrder ?_ _ _
    split
    · split
      · exact refsRight_same (s := s) h rfl
      · exact h
    · exact h

theorem refsRight_startTransfers {s : State} (h : s.refsRight) : s.startTransfers.refsRight := by
  unfold State.startTransfers
  split
  · exact h
  · next slot _ =>
    split
    · exact h
    · next o ho =>
      have h1 := refsRight_setOrder h slot { o with state := .transfer } rfl fun u hk => (refsRight_of h ho hk).1
      have h2 : ((s.setOrder slot (some { o with state := .transfer })).emit [.recompute o.transporter]).refsRight := refsRight_same h1 rfl
      have h3 := refsRight_beginTransfer h2 slot o.transporter (o.finish.getD .none)
      exact refsRight_same h3 rfl

end Sys2Proof.Laws
end

