-- ==== Sys2Proof/Laws/Movers.lean ====
section
/-!
SUPPORT. Laws/Movers.lean: what working off an event leaves of one order, of one transporter's references and of one holding, whatever the other
orders do meanwhile.
-/

namespace Sys2Proof.Laws

open Sys2Proof Sys2Proof.Machine

variable {i k n : Nat}

/-! ### Relations between a state and the state after some work -/

/-- The order in slot `k` moved by nothing, and the pads under its claim left, but for SEATED ones. -/
structure Leaves (k : Nat) (s t : State) : Prop where
  order : HeadStep (s.order k) (t.order k)
  pads : ∀ p, (s.pad p).claim = some k → t.pad p = s.pad p ∨ (s.pad p).state = .seated

/-- A task that makes no arrival test for transporter `i`, takes up no pending divert of it and is no stage of a report. -/
def apart (i : Nat) (x : Task) : Prop := inReport x = false ∧ x ≠ .arrival i ∧ x ≠ .takeUpPending i

/-- No order of transporter `i` set moving: the state of each is the same, or TRANSFER, FAILED or ENDED; and no task listed that would move one. -/
structure Quiet (i : Nat) (s t : State) : Prop where
  mine : ∀ m o, t.order m = some o → o.transporter = i → ∃ o0, s.order m = some o0 ∧ o0.transporter = i ∧
    (o.state = o0.state ∨ o.state = .transfer ∨ o.state = .failed ∨ o.state = .ended)
  agenda : ∀ x ∈ t.agenda, x ∈ s.agenda ∨ apart i x

theorem Leaves.refl (s : State) : Leaves k s s := ⟨.refl _, fun _ _ => .inl rfl⟩

theorem Leaves.trans {a b c : State} (h1 : Leaves k a b) (h2 : Leaves k b c) : Leaves k a c :=
  ⟨h1.order.trans h2.order, fun p hp => by
    rcases h1.pads p hp with e | e
    · rcases h2.pads p (by rw [e]; exact hp) with e' | e'
      · exact .inl (e'.trans e)
      · exact .inr (e ▸ e')
    · exact .inr e⟩

theorem Quiet.refl (s : State) : Quiet i s s := ⟨fun _ o h ht => ⟨o, h, ht, .inl rfl⟩, fun _ h => .inl h⟩

theorem Quiet.trans {a b c : State} (h1 : Quiet i a b) (h2 : Quiet i b c) : Quiet i a c :=
  ⟨fun m o ho ht => by
    obtain ⟨o1, ho1, ht1, e1⟩ := h2.mine m o ho ht
    obtain ⟨o0, ho0, ht0, e0⟩ := h1.mine m o1 ho1 ht1
    refine ⟨o0, ho0, ht0, ?_⟩
    rcases e1 with e1 | e1
    · rw [e1]; exact e0
    · exact .inr e1
  , fun x hx => (h2.agenda x hx).elim (h1.agenda x) .inr⟩

theorem leaves_waits {s t : State} (w : Waits i n s t) : Leaves k s t := ⟨w.orders k, fun p _ => w.pads p⟩

theorem apart_of_orderly {x : Task} (h : orderly x = true) : apart i x := by
  cases x <;> first | (simp [orderly] at h; done) | exact ⟨rfl, by simp, by simp⟩

theorem quiet_waits {s t : State} (w : Waits i n s t) : Quiet i s t :=
  ⟨fun m o ho ht => by
    obtain ⟨o0, ho0, hs, ht0, -⟩ := HeadStep.back (ho ▸ w.orders m)
    exact ⟨o0, ho0, ht0.symm.trans ht, .inl hs⟩
  , fun x hx => (w.agenda x hx).imp_right fun h => apart_of_orderly h.1⟩

/-- A write that leaves every order and every pad. -/
theorem leaves_same {s t : State} (h1 : ∀ m, t.order m = s.order m) (h2 : t.transfer.pads = s.transfer.pads) : Leaves k s t :=
  ⟨by rw [h1]; exact .refl _, fun p _ => .inl (by unfold State.pad; rw [h2])⟩

theorem quiet_same {s t : State} (h1 : ∀ m, t.order m = s.order m) (h2 : ∀ x ∈ t.agenda, x ∈ s.agenda ∨ apart i x) : Quiet i s t :=
  ⟨fun m o ho ht => ⟨o, by rw [← h1]; exact ho, ht, .inl rfl⟩, h2⟩

theorem quiet_emit (s : State) {xs : List Task} (h : ∀ x ∈ xs, apart i x) : Quiet i s (s.emit xs) :=
  quiet_same (fun _ => rfl) fun x hx => (List.mem_append.1 hx).imp_right (h x)

theorem leaves_setOrder (s : State) (m : Nat) (o : Option Order) (h : m ≠ k) : Leaves k s (s.setOrder m o) :=
  ⟨by rw [setOrder_order, if_neg (Ne.symm h)]; exact .refl _, fun _ _ => .inl rfl⟩

/-- An order written with its transporter and with one of the states of rest, or in another transporter's slot. -/
theorem quiet_setOrder (s : State) (m : Nat) (o : Order)
    (h : o.transporter = i → ∃ o0, s.order m = some o0 ∧ o0.transporter = i ∧
      (o.state = o0.state ∨ o.state = .transfer ∨ o.state = .failed ∨ o.state = .ended)) : Quiet i s (s.setOrder m (some o)) :=
  ⟨fun j o' ho ht => by
    rw [setOrder_order] at ho
    split at ho
    · next e => cases ho; subst e; exact h ht
    · exact ⟨o', ho, ht, .inl rfl⟩
  , fun _ hx => .inl hx⟩

theorem withoutClaim_other {r : PadRec} {slot : Nat} (h : r.claim ≠ some slot) : r.withoutClaim slot = r := by
  unfold PadRec.withoutClaim
  rw [if_pos h]

theorem leaves_endOrder (s : State) (slot : Nat) (x : OrderOutcome) (h : slot ≠ k) : Leaves k s (s.endOrder slot x) :=
  ⟨by rw [endOrder_order, if_neg (Ne.symm h)]; exact .refl _
  , fun p hp => .inl (by
      rw [endOrder_pad, withoutClaim_other]
      rw [hp]
      exact fun e => h (Option.some.inj e).symm)⟩

theorem quiet_endOrder (s : State) (slot : Nat) (x : OrderOutcome) : Quiet i s (s.endOrder slot x) :=
  ⟨fun m o ho ht => by
    rw [endOrder_order] at ho
    split at ho
    · next e =>
      subst e
      obtain ⟨o0, ho0, rfl⟩ := Option.map_eq_some_iff.1 ho
      exact ⟨o0, ho0, ht, .inr (.inr (.inr rfl))⟩
    · exact ⟨o, ho, ht, .inl rfl⟩
  , fun y hy => ((endOrder_core (i := i) (n := 0) s slot x).2 y hy).imp_right fun h => apart_of_orderly h.1⟩

theorem leaves_failOrder (s : State) (slot : Nat) (c : FailureCause) (h : slot ≠ k) : Leaves k s (s.failOrder slot c) := by
  unfold State.failOrder
  split
  · exact .refl s
  · exact (leaves_setOrder s slot _ h).trans (leaves_same (fun _ => rfl) rfl)

theorem quiet_failOrder (s : State) (slot : Nat) (c : FailureCause) : Quiet i s (s.failOrder slot c) := by
  unfold State.failOrder
  split
  · exact .refl s
  · next o ho =>
    refine (quiet_setOrder s slot { o with state := .failed, failure := some c } fun ht => ⟨o, ho, ht, .inr (.inr (.inl rfl))⟩).trans
      (quiet_same (fun _ => rfl) fun x hx => ?_)
    refine (List.mem_append.1 hx).imp_right fun h => ?_
    simp only [List.mem_cons, List.not_mem_nil, or_false] at h
    rcases h with rfl | rfl <;> exact ⟨rfl, by simp, by simp⟩

theorem leaves_popTo (s : State) (t : Nat) (place : Place) (h : ∀ m ∈ (s.orderRefs t).named, m ≠ k) : Leaves k s (s.popTo t place) := by
  unfold State.popTo
  split
  · exact .refl s
  · next slot rest hst =>
    split
    · exact .refl s
    · next o ho =>
      exact (leaves_setOrder s slot
        (some { o with state := .running, cursor := place, claim := place, head := .none, resumed := o.resumed || decide (place.leg = 2) })
        (h slot (by simp [OrderRefs.named, hst]))).trans (leaves_same (fun _ => rfl) rfl)

theorem quiet_popTo (s : State) (t : Nat) (place : Place) (hr : s.refsRight) (h : t ≠ i) : Quiet i s (s.popTo t place) := by
  unfold State.popTo
  split
  · exact .refl s
  · next slot rest hst =>
    split
    · exact .refl s
    · next o ho =>
      refine (quiet_setOrder s slot _ fun ht => ?_).trans (quiet_same (fun _ => rfl) fun x hx => .inl hx)
      have := (refsRight_of hr ho (u := t) (by simp [OrderRefs.named, hst])).1
      exact absurd (this.symm.trans ht) h

theorem leaves_rejoin (s : State) (t slot : Nat) (o : Order) (hs : slot ≠ k) (h : ∀ m ∈ (s.orderRefs t).named, m ≠ k) :
    Leaves k s (s.rejoin t slot o) := by
  unfold State.rejoin
  dsimp only
  have h0 := leaves_endOrder (k := k) s slot .done hs
  have hn : ∀ m ∈ ((s.endOrder slot .done).orderRefs t).named, m ≠ k := by
    intro m hm
    rw [endOrder_orderRefs] at hm
    split at hm
    · exact h m (mem_named_without.1 hm).1
    · exact h m hm
  split
  · exact h0
  · next place _ =>
    have h1 := h0.trans (leaves_popTo _ t place hn)
    split
    · exact h1
    · split
      · exact h1.trans (leaves_same (fun _ => rfl) rfl)
      · exact h1.trans (leaves_same (fun _ => rfl) rfl)

theorem quiet_rejoin (s : State) (t slot : Nat) (o : Order) (hr : s.refsRight) (h : t ≠ i) : Quiet i s (s.rejoin t slot o) := by
  unfold State.rejoin
  dsimp only
  have h0 := quiet_endOrder (i := i) s slot .done
  split
  · exact h0
  · next place _ =>
    have h1 := h0.trans (quiet_popTo _ t place (refsRight_endOrder hr slot .done) h)
    split
    · exact h1
    · split
      · exact h1.trans (quiet_emit _ (by simp [apart, inReport, h]))
      · exact h1.trans (quiet_emit _ (by simp [apart, inReport, h]))

theorem leaves_arrival (s : State) (t : Nat) (h : ∀ m ∈ (s.orderRefs t).named, m ≠ k) : Leaves k s (s.arrival t) := by
  unfold State.arrival
  split
  · exact .refl s
  · next slot o ha =>
    have hs : slot ≠ k := h slot (active_named ha)
    split
    · exact .refl s
    · split
      · split
        · exact leaves_rejoin s t slot o hs h
        · split
          · exact ((leaves_setOrder s slot _ hs).trans (leaves_waits (waits_removeHead (i := 0) (n := 0) _ _))).trans
              (leaves_same (fun _ => rfl) rfl)
          · exact .refl s
      · split
        · have h1 : Leaves k s ((s.setOrder slot (some { o with state := .arrived })).emit [.recompute t, .reviewJunctions t]) :=
            (leaves_setOrder s slot _ hs).trans (leaves_same (fun _ => rfl) rfl)
          dsimp only
          split
          · exact h1.trans (leaves_endOrder _ _ _ hs)
          · exact h1
        · exact .refl s

theorem quiet_arrival (s : State) (t : Nat) (hr : s.refsRight) (h : t ≠ i) : Quiet i s (s.arrival t) := by
  unfold State.arrival
  split
  · exact .refl s
  · next slot o ha =>
    have ht : o.transporter = t := (refsRight_of hr (active_order ha) (active_named ha)).1
    have hq : ∀ o' : Order, o'.transporter = o.transporter → Quiet i s (s.setOrder slot (some o')) := fun o' e =>
      quiet_setOrder s slot o' fun e' => absurd (ht.symm.trans (e.symm.trans e')) h
    have hset : ∀ o' : Order, o'.transporter = o.transporter →
        Quiet i s ((s.setOrder slot (some o')).emit [.recompute t, .reviewJunctions t]) := fun o' e =>
      (hq o' e).trans (quiet_emit _ (by simp [apart, inReport]))
    split
    · exact .refl s
    · split
      · split
        · exact quiet_rejoin s t slot o hr h
        · split
          · exact ((hq { o with state := .dwelling } rfl).trans (quiet_waits (waits_removeHead (i := i) (n := 0) _ _))).trans
              (quiet_emit _ (by simp [apart, inReport]))
          · exact .refl s
      · split
        · dsimp only
          split
          · exact (hset { o with state := .arrived } rfl).trans (quiet_endOrder _ _ _)
          · exact hset { o with state := .arrived } rfl
        · exact .refl s

theorem leaves_startDivert (s : State) (t slot : Nat) (refuge : Order) (place : Place) (hs : slot ≠ k) :
    Leaves k s (s.startDivert t slot refuge place) := by
  unfold State.startDivert
  dsimp only
  have h1 := leaves_setOrder (k := k) s slot (some { refuge with state := .starting, rejoin := some place }) hs
  refine Leaves.trans (b := match (State.orderRefs (s.setOrder slot (some { refuge with state := .starting, rejoin := some place })) t).active with
    | some a => (s.setOrder slot (some { refuge with state := .starting, rejoin := some place })).removeHead a
    | none => s.setOrder slot (some { refuge with state := .starting, rejoin := some place })) ?_ (leaves_same (fun _ => rfl) rfl)
  split
  · exact h1.trans (leaves_waits (waits_removeHead (i := 0) (n := 0) _ _))
  · exact h1

theorem quiet_startDivert (s : State) (t slot : Nat) (refuge : Order) (place : Place) (h : refuge.transporter ≠ i) :
    Quiet i s (s.startDivert t slot refuge place) := by
  unfold State.startDivert
  dsimp only
  have h1 : Quiet i s (s.setOrder slot (some { refuge with state := .starting, rejoin := some place })) :=
    quiet_setOrder s slot _ fun e => absurd e h
  refine Quiet.trans ?_ (quiet_emit _ (by simp [apart, inReport]))
  split
  · exact h1.trans (quiet_waits (waits_removeHead (i := i) (n := 0) _ _))
  · exact h1

theorem leaves_takeUpDivert (s : State) (t slot : Nat) (refuge : Order) (hs : slot ≠ k) (h : ∀ m ∈ (s.orderRefs t).named, m ≠ k) :
    Leaves k s (s.takeUpDivert t slot refuge) := by
  unfold State.takeUpDivert
  dsimp only
  split
  · exact .refl s
  · next a o ha =>
    have h2 := (leaves_setOrder (k := k) s a (some { o with state := .suspended, claim := o.cursor }) (h a (active_named ha))).trans
      (leaves_setOrder _ slot (some { refuge with state := .running }) hs)
    split
    · exact h2.trans (leaves_same (fun _ => rfl) rfl)
    · exact h2.trans (leaves_same (fun _ => rfl) rfl)

theorem quiet_takeUpDivert (s : State) (t slot : Nat) (refuge : Order) (hr : s.refsRight) (hrt : refuge.transporter = t) (h : t ≠ i) :
    Quiet i s (s.takeUpDivert t slot refuge) := by
  unfold State.takeUpDivert
  dsimp only
  split
  · exact .refl s
  · next a o ha =>
    have ht : o.transporter = t := (refsRight_of hr (active_order ha) (active_named ha)).1
    have h2 : Quiet i s ((s.setOrder a (some { o with state := .suspended, claim := o.cursor })).setOrder slot
        (some { refuge with state := .running })) :=
      (quiet_setOrder s a { o with state := .suspended, claim := o.cursor } fun e => absurd (ht.symm.trans e) h).trans
        (quiet_setOrder _ slot { refuge with state := .running } fun e => absurd (hrt.symm.trans e) h)
    have h3 : ∀ ns : List Nat, Quiet i s ((((((s.setOrder a (some { o with state := .suspended, claim := o.cursor })).setOrder slot
        (some { refuge with state := .running })).setRefs t { s.orderRefs t with active := some slot, stack := a :: (s.orderRefs t).stack }).emit
        (ns.map fun n => .release n t)).emit
        [.recompute t, .reviewJunctions t]).makeDue slot) := by
      intro ns
      refine h2.trans (quiet_same (fun _ => rfl) fun x hx => ?_)
      rcases List.mem_append.1 hx with hx | hx
      · rcases List.mem_append.1 hx with hx | hx
        · exact .inl hx
        · obtain ⟨m, -, rfl⟩ := List.mem_map.1 hx
          exact .inr ⟨rfl, by simp, by simp⟩
      · right
        simp only [List.mem_cons, List.not_mem_nil, or_false] at hx
        rcases hx with rfl | rfl <;> exact ⟨rfl, by simp, by simp⟩
    split
    · exact (h3 _).trans (quiet_emit _ (by simp [apart, inReport, h]))
    · exact h3 _

theorem leaves_voidDivert (s : State) (t slot : Nat) (hs : slot ≠ k) : Leaves k s (s.voidDivert t slot) :=
  ((leaves_endOrder s slot .void hs).trans (leaves_waits (waits_makeActiveDue (i := 0) (n := 0) _ t))).trans (leaves_same (fun _ => rfl) rfl)

theorem quiet_voidDivert (s : State) (t slot : Nat) (h : t ≠ i) : Quiet i s (s.voidDivert t slot) :=
  ((quiet_endOrder s slot .void).trans (quiet_waits (waits_makeActiveDue (i := i) (n := 0) _ t))).trans (quiet_emit _ (by simp [apart, inReport, h]))

theorem leaves_complete (s : State) (t : Nat) (h0 : ∀ slot, s.startingDivert t = some slot → slot ≠ k)
    (h : ∀ m ∈ (s.orderRefs t).named, m ≠ k) : Leaves k s (s.complete t) := by
  unfold State.complete
  split
  · exact .refl s
  · split
    · next slot hsd =>
      split
      · exact .refl s
      · split
        · exact leaves_takeUpDivert s t slot _ (h0 slot hsd) h
        · exact leaves_voidDivert s t slot (h0 slot hsd)
    · split
      · next slot o ha =>
        split
        · exact leaves_endOrder s slot _ (h slot (active_named ha))
        · exact .refl s
      · exact .refl s

theorem quiet_complete (s : State) (t : Nat) (hr : s.refsRight) (h : t ≠ i) : Quiet i s (s.complete t) := by
  unfold State.complete
  split
  · exact .refl s
  · split
    · next slot hsd =>
      obtain ⟨o, ho, ht, -⟩ := startingDivert_spec hsd
      split
      · exact .refl s
      · next refuge hre =>
        rw [ho] at hre
        cases hre
        split
        · exact quiet_takeUpDivert s t slot o hr ht h
        · exact quiet_voidDivert s t slot h
    · split
      · split
        · exact quiet_endOrder s _ _
        · exact .refl s
      · exact .refl s

theorem leaves_takeUpPending (s : State) (t : Nat) (h : ∀ m ∈ (s.orderRefs t).named, m ≠ k) : Leaves k s (s.takeUpPending t) := by
  unfold State.takeUpPending
  split
  · exact .refl s
  · next slot hp =>
    have hs : slot ≠ k := h slot (by simp [OrderRefs.named, hp])
    split
    · exact .refl s
    · dsimp only
      split
      · split
        · exact (leaves_same (s := s) (t := s.setRefs t { s.orderRefs t with pendingDivert := none }) (fun _ => rfl) rfl).trans (leaves_startDivert _ t slot _ _ hs)
        · exact leaves_endOrder s _ _ hs
      · exact leaves_endOrder s _ _ hs

theorem quiet_takeUpPending (s : State) (t : Nat) (hr : s.refsRight) (h : t ≠ i) : Quiet i s (s.takeUpPending t) := by
  unfold State.takeUpPending
  split
  · exact .refl s
  · next slot hp =>
    split
    · exact .refl s
    · next refuge ho =>
      have ht : refuge.transporter = t := (refsRight_of hr ho (u := t) (by simp [OrderRefs.named, hp])).1
      dsimp only
      split
      · split
        · exact (quiet_same (s := s) (t := s.setRefs t { s.orderRefs t with pendingDivert := none }) (fun _ => rfl) fun _ hx => .inl hx).trans
            (quiet_startDivert _ t slot refuge _ (ht ▸ h))
        · exact quiet_endOrder s _ _
      · exact quiet_endOrder s _ _

/-! ### The start of a transfer -/

theorem leaves_setPad (s : State) (p : Nat) (r : PadRec) (h : (s.pad p).claim ≠ some k) : Leaves k s (s.setPad p r) :=
  ⟨.refl _, fun q hq => .inl (by
    rw [setPad_pad, if_neg]
    intro e
    subst e
    exact h hq)⟩

theorem leaves_beginTransfer (s : State) (slot t : Nat) (f : Finish) (hs : slot ≠ k) : Leaves k s (s.beginTransfer slot t f) := by
  have other : ∀ p, (s.pad p).claim = some slot → (s.pad p).claim ≠ some k := fun p e e' => hs (by rw [e] at e'; exact Option.some.inj e')
  unfold State.beginTransfer
  split
  · next p x hx =>
    have hc := (startCheck_claim hx p rfl).1
    have h1 : Leaves k s ((s.setTransfer p (some (s.newTransfer slot t .lift .uncoupling x))).setPad p
        { s.pad p with state := .releasing, claim := none, confTransporter := false, confStation := false }) :=
      (leaves_same (s := s) (t := s.setTransfer p _) (fun _ => rfl) rfl).trans (leaves_setPad _ p _ (other p hc))
    exact h1.trans (leaves_waits (waits_handOut (i := 0) (n := 0) _ _))
  · next p x hx =>
    have hc := (startCheck_claim hx p rfl).1
    exact (leaves_same (s := s) (t := s.setTransfer p (some (s.newTransfer slot t .setDown .setting x))) (fun _ => rfl) rfl).trans
      (leaves_setPad _ p _ (other p hc))
  · dsimp only
    refine Leaves.trans ?_ (leaves_failOrder _ slot _ hs)
    split
    · next p _ =>
      split
      · next hc => exact leaves_setPad s p _ (other p hc)
      · exact .refl s
    · exact .refl s

theorem quiet_beginTransfer (s : State) (slot t : Nat) (f : Finish) : Quiet i s (s.beginTransfer slot t f) := by
  unfold State.beginTransfer
  split
  · next p x _ =>
    exact (quiet_same (s := s) (t := (s.setTransfer p (some (s.newTransfer slot t .lift .uncoupling x))).setPad p
        { s.pad p with state := .releasing, claim := none, confTransporter := false, confStation := false }) (fun _ => rfl)
      fun _ hx => .inl hx).trans (quiet_waits (waits_handOut (i := i) (n := 0) _ _))
  · exact quiet_same (s := s) (fun _ => rfl) fun _ hx => .inl hx
  · dsimp only
    refine Quiet.trans ?_ (quiet_failOrder _ slot _)
    split
    · split
      · exact quiet_same (s := s) (fun _ => rfl) fun _ hx => .inl hx
      · exact .refl s
    · exact .refl s

/-- An order that may become TRANSFER is ARRIVED. -/
theorem mayTransfer_arrived {s : State} {slot : Nat} (h : s.mayTransfer slot = true) : ∃ o, s.order slot = some o ∧ o.state = .arrived := by
  unfold State.mayTransfer at h
  split at h
  · cases h
  · next o ho => exact ⟨o, ho, by simp_all⟩

theorem leaves_startTransfers (s : State) (h : ∀ o, s.order k = some o → o.state ≠ .arrived) : Leaves k s s.startTransfers := by
  unfold State.startTransfers
  split
  · exact .refl s
  · next slot hf =>
    obtain ⟨o, ho, ha⟩ := mayTransfer_arrived (List.find?_some hf)
    have hs : slot ≠ k := fun e => h o (e ▸ ho) ha
    split
    · exact .refl s
    · next o _ =>
      have h1 : Leaves k s ((s.setOrder slot (some { o with state := .transfer })).emit [.recompute o.transporter]) :=
        (leaves_setOrder s slot (some { o with state := .transfer }) hs).trans (leaves_same (fun _ => rfl) rfl)
      have h2 := h1.trans (leaves_beginTransfer _ slot o.transporter (o.finish.getD .none) hs)
      exact h2.trans (leaves_same (fun _ => rfl) rfl)

theorem quiet_startTransfers (s : State) : Quiet i s s.startTransfers := by
  unfold State.startTransfers
  split
  · exact .refl s
  · next slot hf =>
    split
    · exact .refl s
    · next o ho =>
      have h1 : Quiet i s ((s.setOrder slot (some { o with state := .transfer })).emit [.recompute o.transporter]) :=
        (quiet_setOrder s slot { o with state := .transfer } fun ht => ⟨o, ho, ht, .inr (.inl rfl)⟩).trans
          (quiet_emit _ (by simp [apart, inReport]))
      have h2 := h1.trans (quiet_beginTransfer _ slot o.transporter (o.finish.getD .none))
      exact h2.trans (quiet_emit _ (by simp [apart, inReport]))

/-! ### Any task -/

/-- What a task that is no stage of a report leaves of an order that it does not move. -/
theorem leaves_runTask (x : Task) (s : State) (hx : inReport x = false) (ha : ∀ o, s.order k = some o → o.state ≠ .arrived)
    (hm : ∀ t, x = .arrival t ∨ x = .takeUpPending t ∨ x = .complete t →
      (∀ m ∈ (s.orderRefs t).named, m ≠ k) ∧ ∀ slot, s.startingDivert t = some slot → slot ≠ k) : Leaves k s (runTask x s) := by
  by_cases hd : headTask x = true
  · have ⟨i, n, hn⟩ : ∃ i n, x ≠ .release n i := by
      cases x
      case release m t => exact ⟨t, m + 1, by simp⟩
      all_goals exact ⟨0, 0, by simp⟩
    exact leaves_waits (waits_runTask (i := i) (n := n) x s hd hn)
  · cases x <;> first | exact absurd rfl hd | (simp [inReport] at hx; done) | skip
    case tailRelease m t =>
      show Leaves k s (s.tailRelease m t)
      unfold State.tailRelease
      dsimp only
      split
      · exact leaves_same (fun _ => rfl) rfl
      · exact .refl s
    case confirm t =>
      show Leaves k s (s.confirm t)
      unfold State.confirm
      split
      · exact .refl s
      · split
        · exact leaves_same (fun _ => rfl) rfl
        · exact .refl s
    case complete t => exact leaves_complete s t (hm t (.inr (.inr rfl))).2 (hm t (.inr (.inr rfl))).1
    case arrival t => exact leaves_arrival s t (hm t (.inl rfl)).1
    case takeUpPending t => exact leaves_takeUpPending s t (hm t (.inr (.inl rfl))).1
    case startTransfers => exact leaves_startTransfers s ha

/-- The end of an active order that is CANCELLING is all that a withdrawal completes where no divert is STARTING. -/
theorem quiet_complete_same (s : State) (h : s.startingDivert i = none) : Quiet i s (s.complete i) := by
  unfold State.complete
  split
  · exact .refl s
  · rw [h]
    dsimp only
    split
    · split
      · exact quiet_endOrder s _ _
      · exact .refl s
    · exact .refl s

/-- What a task apart from a transporter does to that transporter's orders, while no divert of it is STARTING. -/
theorem quiet_runTask (x : Task) (s : State) (hr : s.refsRight) (hx : apart i x) (hs : s.startingDivert i = none) : Quiet i s (runTask x s) := by
  by_cases hd : headTask x = true
  · have ⟨n, hn⟩ : ∃ n, x ≠ .release n i := by
      cases x
      case release m t => exact ⟨m + 1, by simp⟩
      all_goals exact ⟨0, by simp⟩
    exact quiet_waits (waits_runTask (i := i) (n := n) x s hd hn)
  · obtain ⟨hx1, hx2, hx3⟩ := hx
    cases x <;> first | exact absurd rfl hd | (simp [inReport] at hx1; done) | skip
    case tailRelease m t =>
      show Quiet i s (s.tailRelease m t)
      unfold State.tailRelease
      dsimp only
      split
      · exact quiet_emit s (by simp [apart, inReport])
      · exact .refl s
    case confirm t =>
      show Quiet i s (s.confirm t)
      unfold State.confirm
      split
      · exact .refl s
      · split
        · refine quiet_emit s fun y hy => ?_
          rcases List.mem_append.1 hy with hy | hy
          · obtain ⟨m, -, rfl⟩ := List.mem_map.1 hy
            exact ⟨rfl, by simp, by simp⟩
          · simp only [List.mem_singleton] at hy
            subst hy
            exact ⟨rfl, by simp, by simp⟩
        · exact .refl s
    case complete t =>
      by_cases e : t = i
      · subst e
        exact quiet_complete_same s hs
      · exact quiet_complete s t hr e
    case arrival t => exact quiet_arrival s t hr fun e => hx2 (by rw [e])
    case takeUpPending t => exact quiet_takeUpPending s t hr fun e => hx3 (by rw [e])
    case startTransfers => exact quiet_startTransfers s

/-- No divert of a transporter becomes STARTING by work that sets none of its orders moving. -/
theorem Quiet.startingDivert {s t : State} (q : Quiet i s t) (h : s.startingDivert i = none) : t.startingDivert i = none := by
  unfold State.startingDivert at *
  rw [List.find?_eq_none] at *
  intro m hm
  have h0 := h m hm
  cases ho : t.order m with
  | none => simp
  | some o =>
    dsimp only
    intro hc
    simp only [Bool.and_eq_true, decide_eq_true_eq] at hc
    obtain ⟨o0, ho0, ht0, hs0⟩ := q.mine m o ho hc.1
    rw [ho0] at h0
    rcases hs0 with e | e | e | e
    · exact h0 (by simp [ht0, ← e, hc.2])
    · rw [hc.2] at e; cases e
    · rw [hc.2] at e; cases e
    · rw [hc.2] at e; cases e

/-! ### A transporter's references -/

theorem refs_endOrder (s : State) (slot : Nat) (x : OrderOutcome) (h : slot ∉ (s.orderRefs i).named ∨ (s.order slot).map (·.transporter) ≠ some i) :
    (s.endOrder slot x).orderRefs i = s.orderRefs i := by
  rw [endOrder_orderRefs]
  split
  · next e =>
    rcases h with h | h
    · have : (s.orderRefs i).without slot = s.orderRefs i := by
        unfold OrderRefs.without
        unfold OrderRefs.named at h
        simp only [List.mem_append, not_or, Option.mem_toList] at h
        have h1 : (s.orderRefs i).active ≠ some slot := fun e => h.1.1 e
        have h2 : (s.orderRefs i).pendingDivert ≠ some slot := fun e => h.2 e
        have h3 : (s.orderRefs i).stack.filter (fun k => decide (k ≠ slot)) = (s.orderRefs i).stack :=
          List.filter_eq_self.2 fun a ha => by simpa using fun e : a = slot => h.1.2 (e ▸ ha)
        rw [if_neg h1, if_neg h2, h3]
      exact this
    · exact absurd e h
  · rfl

theorem refs_failOrder (s : State) (slot : Nat) (c : FailureCause) : (s.failOrder slot c).orderRefs i = s.orderRefs i := by
  unfold State.failOrder
  split <;> rfl

theorem refs_popTo (s : State) (t : Nat) (place : Place) (h : t ≠ i) : (s.popTo t place).orderRefs i = s.orderRefs i := by
  unfold State.popTo
  split
  · rfl
  · split
    · rfl
    · show ((s.setOrder _ _).setRefs t _).orderRefs i = _
      rw [setRefs_orderRefs, if_neg (Ne.symm h)]
      rfl

theorem refs_rejoin (s : State) (t slot : Nat) (o : Order) (h : t ≠ i) (ho : (s.order slot).map (·.transporter) ≠ some i) :
    (s.rejoin t slot o).orderRefs i = s.orderRefs i := by
  unfold State.rejoin
  dsimp only
  have h0 := refs_endOrder (i := i) s slot .done (.inr ho)
  split
  · exact h0
  · next place _ =>
    have h1 := (refs_popTo (s.endOrder slot .done) t place h).trans h0
    split
    · exact h1
    · split
      · exact h1
      · exact h1

theorem refs_arrival (s : State) (t : Nat) (hr : s.refsRight) (h : t ≠ i) : (s.arrival t).orderRefs i = s.orderRefs i := by
  unfold State.arrival
  split
  · rfl
  · next slot o ha =>
    have ht : (s.order slot).map (·.transporter) ≠ some i := by
      rw [active_order ha]
      exact fun e => h ((refsRight_of hr (active_order ha) (active_named ha)).1.symm.trans (Option.some.inj e))
    split
    · rfl
    · split
      · split
        · exact refs_rejoin s t slot o h ht
        · split
          · exact (waits_removeHead (i := 0) (n := 0) _ _).orderRefs i
          · rfl
      · split
        · dsimp only
          split
          · rw [refs_endOrder]
            · rfl
            · right
              rw [emit_order, setOrder_order_same]
              rw [active_order ha] at ht
              exact ht
          · rfl
        · rfl

theorem refs_startDivert (s : State) (t slot : Nat) (refuge : Order) (place : Place) :
    (s.startDivert t slot refuge place).orderRefs i = s.orderRefs i := by
  unfold State.startDivert
  dsimp only
  split
  · exact (waits_removeHead (i := 0) (n := 0) _ _).orderRefs i
  · rfl

theorem refs_takeUpDivert (s : State) (t slot : Nat) (refuge : Order) (h : t ≠ i) : (s.takeUpDivert t slot refuge).orderRefs i = s.orderRefs i := by
  unfold State.takeUpDivert
  dsimp only
  split
  · rfl
  · next a o _ =>
    have h1 : (((s.setOrder a (some { o with state := .suspended, claim := o.cursor })).setOrder slot (some { refuge with state := .running })).setRefs t
        { s.orderRefs t with active := some slot, stack := a :: (s.orderRefs t).stack }).orderRefs i = s.orderRefs i := by
      rw [setRefs_orderRefs, if_neg (Ne.symm h)]
      rfl
    split
    · exact h1
    · exact h1

/-- What the completion of a withdrawal leaves of the references of a transporter that has no divert STARTING and no active order CANCELLING. -/
theorem refs_complete (s : State) (t : Nat) (hr : s.refsRight)
    (h : t ≠ i ∨ (s.startingDivert i = none ∧ ∀ a o, s.active i = some (a, o) → o.state ≠ .cancelling)) :
    (s.complete t).orderRefs i = s.orderRefs i := by
  unfold State.complete
  split
  · rfl
  · split
    · next slot hsd =>
      have h : t ≠ i := by
        rcases h with h | h
        · exact h
        · rintro rfl
          rw [h.1] at hsd
          cases hsd
      obtain ⟨o, ho, ht, -⟩ := startingDivert_spec hsd
      split
      · rfl
      · split
        · exact refs_takeUpDivert s t slot _ h
        · refine ((waits_makeActiveDue (i := 0) (n := 0) (s.endOrder slot .void) t).orderRefs i).trans (refs_endOrder s slot .void (.inr ?_))
          rw [ho]
          exact fun e => h (ht.symm.trans (Option.some.inj e))
    · split
      · next slot o ha =>
        split
        · next hc =>
          rcases h with h | h
          · refine refs_endOrder s slot _ (.inr ?_)
            rw [active_order ha]
            exact fun e => h ((refsRight_of hr (active_order ha) (active_named ha)).1.symm.trans (Option.some.inj e))
          · by_cases e : t = i
            · subst e
              exact absurd hc (h.2 slot o ha)
            · refine refs_endOrder s slot _ (.inr ?_)
              rw [active_order ha]
              exact fun e' => e ((refsRight_of hr (active_order ha) (active_named ha)).1.symm.trans (Option.some.inj e'))
        · rfl
      · rfl

theorem refs_takeUpPending (s : State) (t : Nat) (hr : s.refsRight) (h : t ≠ i) : (s.takeUpPending t).orderRefs i = s.orderRefs i := by
  unfold State.takeUpPending
  split
  · rfl
  · next slot hp =>
    split
    · rfl
    · next refuge ho =>
      have ht : (s.order slot).map (·.transporter) ≠ some i := by
        rw [ho]
        exact fun e => h ((refsRight_of hr ho (u := t) (by simp [OrderRefs.named, hp])).1.symm.trans (Option.some.inj e))
      dsimp only
      split
      · split
        · rw [refs_startDivert, setRefs_orderRefs, if_neg (Ne.symm h)]
        · exact refs_endOrder s slot _ (.inr ht)
      · exact refs_endOrder s slot _ (.inr ht)

theorem refs_beginTransfer (s : State) (slot t : Nat) (f : Finish) : (s.beginTransfer slot t f).orderRefs i = s.orderRefs i := by
  unfold State.beginTransfer
  split
  · exact (waits_handOut (i := 0) (n := 0) _ _).orderRefs i
  · rfl
  · dsimp only
    rw [refs_failOrder]
    split
    · split <;> rfl
    · rfl

theorem refs_startTransfers (s : State) : s.startTransfers.orderRefs i = s.orderRefs i := by
  unfold State.startTransfers
  split
  · rfl
  · split
    · rfl
    · next slot _ _ o _ => exact refs_beginTransfer (i := i) ((s.setOrder slot (some { o with state := .transfer })).emit [.recompute o.transporter]) slot _ _

/-- What a task apart from a transporter leaves of that transporter's references, while no divert of it is STARTING and its active order is not
CANCELLING. -/
theorem refs_runTask (x : Task) (s : State) (hr : s.refsRight) (hx : apart i x) (hs : s.startingDivert i = none)
    (hc : ∀ a o, s.active i = some (a, o) → o.state ≠ .cancelling) : (runTask x s).orderRefs i = s.orderRefs i := by
  by_cases hd : headTask x = true
  · have ⟨n, hn⟩ : ∃ n, x ≠ .release n i := by
      cases x
      case release m t => exact ⟨m + 1, by simp⟩
      all_goals exact ⟨0, by simp⟩
    exact (waits_runTask (i := i) (n := n) x s hd hn).orderRefs i
  · obtain ⟨hx1, hx2, hx3⟩ := hx
    cases x <;> first | exact absurd rfl hd | (simp [inReport] at hx1; done) | skip
    case tailRelease m t =>
      show (s.tailRelease m t).orderRefs i = _
      unfold State.tailRelease
      dsimp only
      split <;> rfl
    case confirm t =>
      show (s.confirm t).orderRefs i = _
      unfold State.confirm
      split
      · rfl
      · split <;> rfl
    case complete t => exact refs_complete s t hr (.inr ⟨hs, hc⟩)
    case arrival t => exact refs_arrival s t hr fun e => hx2 (by rw [e])
    case takeUpPending t => exact refs_takeUpPending s t hr fun e => hx3 (by rw [e])
    case startTransfers => exact refs_startTransfers s

/-- The references stay right by every task that is no stage of a report. -/
theorem refsRight_runTask (x : Task) (s : State) (hr : s.refsRight) (hx : inReport x = false) : (runTask x s).refsRight := by
  by_cases hd : headTask x = true
  · have ⟨i, n, hn⟩ : ∃ i n, x ≠ .release n i := by
      cases x
      case release m t => exact ⟨t, m + 1, by simp⟩
      all_goals exact ⟨0, 0, by simp⟩
    exact refsRight_waits (waits_runTask (i := i) (n := n) x s hd hn) hr
  · cases x <;> first | exact absurd rfl hd | (simp [inReport] at hx; done) | skip
    case tailRelease m t =>
      show (s.tailRelease m t).refsRight
      unfold State.tailRelease
      dsimp only
      split
      · exact refsRight_same hr rfl
      · exact hr
    case confirm t =>
      show (s.confirm t).refsRight
      unfold State.confirm
      split
      · exact hr
      · split
        · exact refsRight_same hr rfl
        · exact hr
    case complete t => exact refsRight_complete hr t
    case arrival t => exact refsRight_arrival hr t
    case takeUpPending t => exact refsRight_takeUpPending hr t
    case startTransfers => exact refsRight_startTransfers hr

end Sys2Proof.Laws
end

