-- ==== Sys2Proof/Laws/Windows.lean ====
section
/-!
SUPPORT. Laws/Windows.lean: what a request command is, request by request, and the bytes of a window.
-/

namespace Sys2Proof.Laws

open Sys2Proof Sys2Proof.Machine

/-! ### Requests in a settled state -/

theorem settled_answered {s : State} (h : s.Settled) (a : List Answer) : (s.setAnswers a).Settled :=
  settled_same h rfl rfl rfl rfl rfl rfl rfl rfl

/-- A request command puts its request. -/
theorem exec_request {c : Instr} {h : Header} {r : Request} (hc : c.request? = some (h, r)) (s : State) : exec c s = .next (submit h r s) := by
  cases c <;> simp only [Instr.request?, Option.some.injEq, Prod.mk.injEq, reduceCtorEq] at hc <;> obtain ⟨rfl, rfl⟩ := hc <;> rfl

/-- A request that is answered and does nothing else. -/
theorem submit_answer {s : State} (hs : s.Ready) (hw : s.Settled) (h : Header) (r : Request) {o : Outcome} {b : Body}
    (ht : s.decideValid ⟨h.tag, codeOf r⟩ h.originator r = s.answer ⟨h.tag, codeOf r⟩ o b) :
    submit h r s = (s.answered h r o b).decideAttention := by
  rw [answer_room hs.room] at ht
  exact submit_settled hs h r ht (settled_answered hw _) hs.late rfl

/-- A read that may draw a free value. -/
theorem submit_answer_drawn {s : State} (hs : s.Ready) (hw : s.Settled) (h : Header) (r : Request) {o : Outcome} {b : Body} {v : Bool}
    (ht : s.decideValid ⟨h.tag, codeOf r⟩ h.originator r = (if v then s.drawn else s).answer ⟨h.tag, codeOf r⟩ o b) :
    ∃ k, submit h r s = State.decideAttention { s.answered h r o b with freeCount := k } := by
  cases v
  · exact ⟨s.freeCount, submit_answer hs hw h r ht⟩
  · refine ⟨s.freeCount + 1, ?_⟩
    rw [if_pos rfl, answer_room (s := s.drawn) hs.room] at ht
    exact submit_settled hs h r ht (settled_same hw rfl rfl rfl rfl rfl rfl rfl rfl) hs.late rfl

/-- A request without an object at entry that its owner decides, leaving the blocks settled. -/
theorem exec_owner {c : Instr} {h : Header} {r : Request} {s t : State} (hc : c.request? = some (h, r)) (hs : s.Ready)
    (h1 : classAllows (classOf r) h.originator = true) (h2 : entryObject r = none) (h3 : s.layoutRefuses r = false)
    (e : s.owner ⟨h.tag, codeOf r⟩ h.originator r = t) (ht : t.Settled) (hl : t.late = none) (hp : t.pending = s.pending) :
    exec c s = .next t.decideAttention := by
  rw [exec_request hc]
  exact congrArg _ (submit_settled hs h r ((decideValid_owner h1 (by rw [h2]; rfl) h3).trans e) ht hl hp)

/-- A request without an object at entry that its owner answers and no more. -/
theorem exec_answer {c : Instr} {h : Header} {r : Request} {s : State} (hc : c.request? = some (h, r)) (hs : s.Ready) (hw : s.Settled)
    (h1 : classAllows (classOf r) h.originator = true) (h2 : entryObject r = none) (h3 : s.layoutRefuses r = false) {o : Outcome} {b : Body}
    (e : s.owner ⟨h.tag, codeOf r⟩ h.originator r = s.answer ⟨h.tag, codeOf r⟩ o b) : exec c s = .next (s.answered h r o b).decideAttention := by
  rw [answer_room hs.room] at e
  exact exec_owner hc hs h1 h2 h3 e (settled_answered hw _) hs.late rfl

/-- A time left is at most the time that the timer was started with. -/
theorem timeLeft_le (s : State) (time : Nat) : s.timeLeft time ≤ time := by
  unfold State.timeLeft
  omega

/-! ### What an answer leaves -/

@[simp] theorem answered_layout (s : State) (h : Header) (r : Request) (o : Outcome) (b : Body) : (s.answered h r o b).layout = s.layout := rfl
@[simp] theorem answered_core (s : State) (h : Header) (r : Request) (o : Outcome) (b : Body) : (s.answered h r o b).core = s.core := rfl
@[simp] theorem answered_junctions (s : State) (h : Header) (r : Request) (o : Outcome) (b : Body) : (s.answered h r o b).junctions = s.junctions := rfl
@[simp] theorem answered_orders (s : State) (h : Header) (r : Request) (o : Outcome) (b : Body) : (s.answered h r o b).orders = s.orders := rfl
@[simp] theorem answered_transfer (s : State) (h : Header) (r : Request) (o : Outcome) (b : Body) : (s.answered h r o b).transfer = s.transfer := rfl
@[simp] theorem answered_polls (s : State) (h : Header) (r : Request) (o : Outcome) (b : Body) : (s.answered h r o b).polls = s.polls := rfl
@[simp] theorem answered_guards (s : State) (h : Header) (r : Request) (o : Outcome) (b : Body) : (s.answered h r o b).guards = s.guards := rfl
@[simp] theorem answered_wayside (s : State) (h : Header) (r : Request) (o : Outcome) (b : Body) : (s.answered h r o b).wayside = s.wayside := rfl
@[simp] theorem answered_pending (s : State) (h : Header) (r : Request) (o : Outcome) (b : Body) : (s.answered h r o b).pending = s.pending := rfl
@[simp] theorem answered_agenda (s : State) (h : Header) (r : Request) (o : Outcome) (b : Body) : (s.answered h r o b).agenda = s.agenda := rfl
@[simp] theorem answered_due (s : State) (h : Header) (r : Request) (o : Outcome) (b : Body) : (s.answered h r o b).due = s.due := rfl
@[simp] theorem answered_late (s : State) (h : Header) (r : Request) (o : Outcome) (b : Body) : (s.answered h r o b).late = s.late := rfl
@[simp] theorem answered_decl (s : State) (h : Header) (r : Request) (o : Outcome) (b : Body) (i : Nat) :
    (s.answered h r o b).decl i = s.decl i := rfl
@[simp] theorem answered_seg (s : State) (h : Header) (r : Request) (o : Outcome) (b : Body) (i : Nat) :
    (s.answered h r o b).seg i = s.seg i := rfl
@[simp] theorem answered_run (s : State) (h : Header) (r : Request) (o : Outcome) (b : Body) (i : Nat) :
    (s.answered h r o b).run i = s.run i := rfl
@[simp] theorem answered_junction (s : State) (h : Header) (r : Request) (o : Outcome) (b : Body) (i : Nat) :
    (s.answered h r o b).junction i = s.junction i := rfl
@[simp] theorem answered_order (s : State) (h : Header) (r : Request) (o : Outcome) (b : Body) (i : Nat) :
    (s.answered h r o b).order i = s.order i := rfl
@[simp] theorem answered_orderRefs (s : State) (h : Header) (r : Request) (o : Outcome) (b : Body) (i : Nat) :
    (s.answered h r o b).orderRefs i = s.orderRefs i := rfl
@[simp] theorem answered_pad (s : State) (h : Header) (r : Request) (o : Outcome) (b : Body) (i : Nat) :
    (s.answered h r o b).pad i = s.pad i := rfl
@[simp] theorem answered_placement (s : State) (h : Header) (r : Request) (o : Outcome) (b : Body) (i : Nat) :
    (s.answered h r o b).placement i = s.placement i := rfl
@[simp] theorem answered_load (s : State) (h : Header) (r : Request) (o : Outcome) (b : Body) (i : Nat) :
    (s.answered h r o b).load i = s.load i := rfl
@[simp] theorem answered_transferAt (s : State) (h : Header) (r : Request) (o : Outcome) (b : Body) (i : Nat) :
    (s.answered h r o b).transferAt i = s.transferAt i := rfl
@[simp] theorem answered_train (s : State) (h : Header) (r : Request) (o : Outcome) (b : Body) (i : Nat) :
    (s.answered h r o b).train i = s.train i := rfl
@[simp] theorem answered_grantMap (s : State) (h : Header) (r : Request) (o : Outcome) (b : Body) (i : Nat) :
    (s.answered h r o b).grantMap i = s.grantMap i := rfl
@[simp] theorem answered_fence (s : State) (h : Header) (r : Request) (o : Outcome) (b : Body) (i : Nat) :
    (s.answered h r o b).fence i = s.fence i := rfl
@[simp] theorem answered_answers (s : State) (h : Header) (r : Request) (o : Outcome) (b : Body) :
    (s.answered h r o b).port.answers = s.port.answers ++ [⟨h.tag, codeOf r, o, b⟩] := rfl
@[simp] theorem answered_notices (s : State) (h : Header) (r : Request) (o : Outcome) (b : Body) :
    (s.answered h r o b).port.notices = s.port.notices := rfl

/-- A pad that no order claims and that is not SEATED is left by the work. -/
theorem calm_pad {s t : State} (h : Calm s t) {p : Nat} (hc : (s.pad p).claim = none) (hs : (s.pad p).state ≠ .seated) : t.pad p = s.pad p := by
  rcases h.padsCalm p hc with e | ⟨e, -⟩
  · exact e
  · exact absurd e hs

theorem calm_placement {s t : State} (h : Calm s t) (x : Nat) : t.placement x = s.placement x := by
  unfold State.placement
  rw [h.telescopes]

theorem calm_load {s t : State} (h : Calm s t) (i : Nat) : t.load i = s.load i := by
  unfold State.load
  rw [h.loads]

theorem kept_fence {s t : State} (h : Kept s t) (k : Nat) : t.fence k = s.fence k := by
  unfold State.fence
  rw [h.fences]

theorem kept_grantMap {s t : State} (h : Kept s t) (k : Nat) : t.grantMap k = s.grantMap k := by
  unfold State.grantMap
  rw [h.maps]

/-- A telescope placed is read back, and no other moves. -/
theorem placeTelescope_placement (s : State) (x : Nat) (p : Placement) (i : Nat) :
    (s.placeTelescope x p).placement i = if i = x then p else s.placement i := by
  have h := setPlacement_placement s x p i
  cases p <;> exact h

/-- An answer placed on a state with as many answers as a ready one. -/
theorem answer_ready {s t : State} (hs : s.Ready) (ht : t.port.answers = s.port.answers) (h : Header) (r : Request) (o : Outcome) (b : Body) :
    t.answer ⟨h.tag, codeOf r⟩ o b = t.answered h r o b := answer_room (by rw [ht]; exact hs.room) _ _ _

/-! ### Requests that set off work -/

/-- A request whose decision leaves work to do, none of it a stage of a report, and no answer for later: the work is done on the edit `t`. -/
theorem submit_work {s t : State} (hs : s.Ready) (h : Header) (r : Request) (ht : s.decideValid ⟨h.tag, codeOf r⟩ h.originator r = t)
    (hr : noReport t) (hl : t.late = none) : submit h r s = closeEvent s.pending (workOff t) := by
  have hw := calm_workOff t hr
  rw [submit_ready hs, ht]
  have e : (workOff t).placeLate = workOff t := by
    unfold State.placeLate
    rw [hw.late, hl]
  rw [e]

theorem submit_calm {s t : State} (hs : s.Ready) (h : Header) (r : Request) (ht : s.decideValid ⟨h.tag, codeOf r⟩ h.originator r = t)
    (hr : noReport t) (hl : t.late = none) (hp : t.pending = s.pending) : Calm t (submit h r s) := by
  have hw := calm_workOff t hr
  rw [submit_work hs h r ht hr hl]
  exact hw.trans (calm_closeEvent _ _ (by rw [hw.pending, hp]))

/-- A request whose object at entry the check allows, that its owner decides with work left to do. -/
theorem exec_calm {c : Instr} {h : Header} {r : Request} {s t : State} (hc : c.request? = some (h, r)) (hs : s.Ready)
    (h1 : classAllows (classOf r) h.originator = true) (h2 : (entryObject r).bind (fun x => s.firstRefused h.originator [x]) = none)
    (h3 : s.layoutRefuses r = false) (e : s.owner ⟨h.tag, codeOf r⟩ h.originator r = t) (hr : noReport t) (hl : t.late = none)
    (hp : t.pending = s.pending) : ∃ u, exec c s = .next u ∧ Calm t u :=
  ⟨submit h r s, exec_request hc s, submit_calm hs h r ((decideValid_owner h1 h2 h3).trans e) hr hl hp⟩

/-- A request with an object at entry, that its owner answers and no more. -/
theorem exec_answer_entry {c : Instr} {h : Header} {r : Request} {s : State} (hc : c.request? = some (h, r)) (hs : s.Ready) (hw : s.Settled)
    (h1 : classAllows (classOf r) h.originator = true) (h2 : (entryObject r).bind (fun x => s.firstRefused h.originator [x]) = none)
    (h3 : s.layoutRefuses r = false) {o : Outcome} {b : Body}
    (e : s.owner ⟨h.tag, codeOf r⟩ h.originator r = s.answer ⟨h.tag, codeOf r⟩ o b) : exec c s = .next (s.answered h r o b).decideAttention := by
  rw [exec_request hc]
  exact congrArg _ (submit_answer hs hw h r ((decideValid_owner h1 h2 h3).trans e))

/-- An object that the check allows is not refused at entry. -/
theorem entry_allowed {s : State} {who : Originator} {k : ObjectKind} {n : Nat} (h : s.allows who k n = true) :
    (some (k, n)).bind (fun x => s.firstRefused who [x]) = none := by
  simp [State.firstRefused, h]

/-- MAINTENANCE is allowed every object (R155). -/
theorem allows_maintenance (s : State) (k : ObjectKind) (n : Nat) : s.allows .maintenance k n = true := by
  unfold State.allows
  split
  · rfl
  · simp [levelOf]

/-- MAINTENANCE is refused no object. -/
theorem firstRefused_maintenance (s : State) (l : List (ObjectKind × Nat)) : s.firstRefused .maintenance l = none := by
  simp [State.firstRefused, allows_maintenance]

theorem entry_maintenance (s : State) (x : Option (ObjectKind × Nat)) : x.bind (fun x => s.firstRefused .maintenance [x]) = none := by
  cases x with
  | none => rfl
  | some x => exact firstRefused_maintenance s _

/-- A request that the class test excludes. -/
theorem classDenied {s : State} {q : Ask} {who : Originator} {r : Request} (h : classAllows (classOf r) who = false) :
    s.decideValid q who r = s.answer q .denied .deniedClass := by
  unfold State.decideValid
  rw [if_pos h]

/-! ### Windows -/

/-- An event of the port that leaves no request waiting takes none. -/
theorem runPort_nil {act : State → State} {s : State} (h : (act s).port.requests = []) (hp : (act s).pending = s.pending) :
    runPort act s = (act s).decideAttention := by
  unfold runPort
  dsimp only
  rw [h]
  unfold closeEvent
  rw [← hp]
  rfl

theorem shiftBytes_append (s : State) (a b : List Byte) : s.shiftBytes (a ++ b) = (s.shiftBytes a).shiftBytes b := by simp [State.shiftBytes]

/-- Bytes that do not yet complete a frame are collected. -/
theorem shiftBytes_collecting (bs : List Byte) (n : Nat) : ∀ (s : State) (f : SentFrame) (sent : Bool) (acc : List Byte),
    s.port.window = .opened f sent (.collecting n acc) → acc.length + bs.length < n →
    s.shiftBytes bs = s.setWindow (.opened f sent (.collecting n (acc ++ bs))) := by
  induction bs with
  | nil =>
    intro s f sent acc h _
    simp only [State.shiftBytes, List.foldl_nil, List.append_nil]
    unfold State.setWindow
    rw [← h]
  | cons b bs ih =>
    intro s f sent acc h hn
    show (s.shiftIn b).shiftBytes bs = _
    have hn : acc.length + (bs.length + 1) < n := hn
    have e : s.shiftIn b = s.setWindow (.opened f sent (.collecting n (acc ++ [b]))) := by
      unfold State.shiftIn
      rw [h]
      dsimp only
      rw [if_pos (by omega)]
    rw [e, ih _ f sent (acc ++ [b]) rfl (by simp; omega)]
    simp [State.setWindow]

/-- A length byte that a frame can have begins a frame. -/
theorem shiftIn_length {s : State} {f : SentFrame} {sent : Bool} {b : Byte} (h : s.port.window = .opened f sent .awaitingLength) (h5 : 5 ≤ b.toNat)
    (h64 : b.toNat ≤ 64) : s.shiftIn b = s.setWindow (.opened f sent (.collecting b.toNat [b])) := by
  unfold State.shiftIn
  rw [h]
  dsimp only
  rw [if_neg (by omega), if_neg (by omega)]

/-- A whole frame, shifted in during a window that awaits a length byte. -/
theorem shiftBytes_frame {s : State} {f : SentFrame} {sent : Bool} {b : Byte} {rest : List Byte}
    (h : s.port.window = .opened f sent .awaitingLength) (h5 : 5 ≤ b.toNat) (h64 : b.toNat ≤ 64) (hn : rest.length + 1 = b.toNat) :
    s.shiftBytes (b :: rest) = (s.setWindow (.opened f sent .disregarded)).frameComplete (b :: rest) := by
  show (s.shiftIn b).shiftBytes rest = _
  rw [shiftIn_length h h5 h64]
  obtain ⟨init, l, rfl⟩ : ∃ init l, rest = init ++ [l] := by
    rcases List.eq_nil_or_concat rest with h | ⟨a, c, h⟩
    · subst h
      simp only [List.length_nil] at hn
      omega
    · exact ⟨a, c, by simpa using h⟩
  simp only [List.length_append, List.length_cons, List.length_nil] at hn
  rw [shiftBytes_append, shiftBytes_collecting init b.toNat _ f sent [b] rfl (by simp; omega)]
  simp only [State.shiftBytes, List.foldl_cons, List.foldl_nil]
  unfold State.shiftIn
  dsimp only [State.setWindow]
  rw [if_neg (by simp; omega)]
  rfl

/-- With the answer queue full no request is taken. -/
theorem takeRequests_full (n : Nat) (s : State) (h : 8 ≤ s.port.answers.length) : takeRequests n s = s := by
  induction n generalizing s with
  | zero => rfl
  | succ n ih =>
    unfold takeRequests
    have e : takeRequest s = s := by
      unfold takeRequest
      split
      · rfl
      · rw [if_neg (by omega)]
    rw [e, ih s h]

end Sys2Proof.Laws
end

