-- ==== Sys2Proof/Laws/Frames.lean ====
section
/-!
SUPPORT. Laws/Frames.lean: the frame of an event is the frame of its own edit and of the work that follows; and the frames of the edits that events make.
-/

namespace Sys2Proof.Laws

open Sys2Proof Sys2Proof.Machine

theorem Frame.trans {a b c : State} (h1 : Frame a b) (h2 : Frame b c) : Frame a c :=
  { layout := h2.layout.trans h1.layout
    maps := h2.maps.trans h1.maps
    fences := h2.fences.trans h1.fences
    requests := h2.requests.trans h1.requests
    answers := h2.answers.trans h1.answers
    window := h2.window.trans h1.window
    flags := h2.flags.trans h1.flags
    enables := h2.enables.trans h1.enables
    params := h2.params.trans h1.params
    cause := h2.cause.trans h1.cause
    pending := h2.pending.trans h1.pending
    notices := fun n h => h2.notices n (h1.notices n h)
    shapes := fun k => (h2.shapes k).trans (h1.shapes k)
    pads := fun p => (h2.pads p).trans (h1.pads p)
    enrolled := fun i => (h2.enrolled i).trans (h1.enrolled i) }

/-- The in-queue, the receiver and the silence timer are outside the frame. -/
theorem frame_setInQueue (s : State) (q : List InMessage) : Frame s (s.setInQueue q) := { (Kept.refl s).frame with }

theorem frame_setReceiver (s : State) (r : Receiver) : Frame s (s.setReceiver r) := { (Kept.refl s).frame with }

/-- What an event answers, where its edit lists no stage of a report. -/
theorem event_calm (act : State → State) {s t : State} (he : act s = t) (h : t.pending = s.pending) (hr : noReport t) : Calm t (runEvent act s) := by
  subst he
  exact calm_runEvent act s h hr

theorem event_kept (act : State → State) {s t : State} (he : act s = t) (h : t.pending = s.pending) : Kept t (runEvent act s) := by
  subst he
  exact kept_runEvent act s h

/-- What an event answers, where its edit leaves the blocks settled. -/
theorem event_settled (act : State → State) {s t : State} (he : act s = t) (h : t.Settled) (hp : t.pending = s.pending) :
    runEvent act s = t.decideAttention := by
  subst he
  exact runEvent_settled h hp

/-- An edit that leaves the state as it is. -/
theorem event_nothing (act : State → State) {s : State} (he : act s = s) (h : s.Settled) : runEvent act s = s.decideAttention :=
  event_settled act he h rfl

theorem noReport_of_kept {s t : State} (h : Kept s t) (ha : s.agenda = []) : noReport t := noReport_kept h (noReport_of_empty ha)

/-- What holds of two states holds of them with the same answer placed. -/
theorem calm_answered {s t : State} (h : Calm s t) (hd : Header) (r : Request) (o : Outcome) (b : Body) :
    Calm (s.answered hd r o b) (t.answered hd r o b) :=
  { h with
    answers := by rw [answered_answers, answered_answers, h.answers] }

/-- What holds of two states holds of them with the same answers. -/
theorem calm_setAnswers {s t : State} (h : Calm s t) (a : List Answer) : Calm (s.setAnswers a) (t.setAnswers a) := { h with answers := rfl }

/-- What a late answer becomes. -/
def lateAnswer (x : LateAnswer) (s : State) : State :=
  match x with
  | .cancel q slot => s.answerCancel q slot
  | .divert q slot => s.answerDivert q slot
  | .resume q slot => s.answerResume q slot
  | .quiet q => s.answerQuiet q

theorem placeLate_some {s : State} {x : LateAnswer} (h : s.late = some x) : s.placeLate = lateAnswer x { s with late := none } := by
  unfold State.placeLate
  rw [h]
  rfl

/-- The state in which the answer of a request that its work decides is placed: the work is done on the edit `t`. -/
def afterWork (t : State) (x : LateAnswer) : State := { workOff (t.answerAfter x) with late := none }

/-- A request whose answer the work decides: the work is done on the edit, and then the answer is placed. -/
theorem submit_late {s t : State} (hs : s.Ready) (h : Header) (r : Request) {x : LateAnswer}
    (ht : s.decideValid ⟨h.tag, codeOf r⟩ h.originator r = t.answerAfter x) (hr : noReport t) (hl : t.late = none) :
    Calm t (afterWork t x) ∧ submit h r s = closeEvent s.pending (lateAnswer x (afterWork t x)) := by
  have hw := calm_workOff (t.answerAfter x) hr
  refine ⟨{ hw with late := hl.symm }, ?_⟩
  rw [submit_ready hs, ht, placeLate_some (x := x) hw.late]
  rfl

/-! ### The array hold -/

/-- The hold-source set replaced: what follows its beginning or its end keeps what the work keeps. -/
theorem calm_changeHold (s : State) (h : HoldSources) : Calm (s.setHold h) (s.changeHold h) := by
  unfold State.changeHold State.holdBegins State.holdEnds
  dsimp only
  refine calm_ite (fun _ => ?_) (fun _ => calm_ite (fun _ => ?_) (fun _ => .refl _))
  · exact (calm_suspendTransfers _).trans (calm_emit _ (by simp [inReport]))
  · refine (calm_setHoldEnding _ true).trans (calm_emit _ fun x hx => ?_)
    rcases List.mem_append.1 hx with hx | hx
    · obtain ⟨_, _, rfl⟩ := List.mem_map.1 hx
      rfl
    · fin_cases hx <;> rfl

/-- A set that stays as it is. -/
theorem changeHold_same (s : State) : s.changeHold s.guards.hold = s := by
  unfold State.changeHold State.holdActive
  dsimp only
  show (if (!s.guards.hold.active && s.guards.hold.active) = true then _ else if (s.guards.hold.active && !s.guards.hold.active) = true then _ else _) = s
  cases s.guards.hold.active <;> rfl

end Sys2Proof.Laws
end

