-- ==== Sys2Proof/Laws/Settled.lean ====
section
/-!
SUPPORT. Laws/Settled.lean: edits that leave the blocks nothing to do, and work that ends with the rest decisions of unheld junctions.
-/

namespace Sys2Proof.Laws

open Sys2Proof Sys2Proof.Machine

/-! ### The coupling set -/

theorem keys_put_subset {α : Type} [DecidableEq α] (d : α) (t : Table α) (k : Nat) {v : α} (hv : v ≠ d) :
    ∀ j, j = k ∨ j ∈ Table.keys t → j ∈ Table.keys (Table.put d t k v) := by
  unfold Table.put
  rw [if_neg hv]
  induction t with
  | nil => simp [Table.insert, Table.keys]
  | cons e rest ih =>
    obtain ⟨i, w⟩ := e
    intro j hj
    simp only [Table.insert]
    simp only [Table.keys, List.map_cons, List.mem_cons] at hj ih
    split
    · simp only [Table.keys, List.map_cons, List.mem_cons]
      tauto
    · split
      · next e =>
        simp only [Table.keys, List.map_cons, List.mem_cons]
        rcases hj with h | h | h
        · exact .inl h
        · exact .inl (h.trans e)
        · exact .inr h
      · simp only [Table.keys, List.map_cons, List.mem_cons]
        rcases hj with h | h | h
        · exact .inr (ih j (.inl h))
        · exact .inl h
        · exact .inr (ih j (.inr h))

theorem couplingSet_nodup {s : State} (hs : s.canonical) : s.couplingSet.Nodup := by
  have h : Canonical PadRec.undeclared s.transfer.pads := (wf_iff _ _).1 hs.2.2.2.2.2.2.1
  unfold State.couplingSet
  refine List.Nodup.filter _ ?_
  exact h.1.imp fun a => Nat.ne_of_lt a

theorem couplingSet_le {s t : State} (hs : s.canonical) (h : ∀ p ∈ s.couplingSet, p ∈ t.couplingSet) : s.couplingSet.length ≤ t.couplingSet.length :=
  ((couplingSet_nodup hs).subperm h).length_le

/-- A pad written with a record that keeps it in the coupling set takes no pad out of it. -/
theorem couplingSet_setPad (s : State) (p : Nat) (r : PadRec) (hr : r ≠ PadRec.undeclared)
    (hp : p ∈ s.couplingSet → (s.transferAt p).isSome = true ∨ (r.state = .seated ∧ r.coupling ≠ .none)) :
    ∀ q ∈ s.couplingSet, q ∈ (s.setPad p r).couplingSet := by
  intro q hq
  have hq' := hq
  unfold State.couplingSet at hq ⊢
  rw [List.mem_filter] at hq ⊢
  refine ⟨keys_put_subset _ _ _ hr q (.inr hq.1), ?_⟩
  rw [show (s.setPad p r).transferAt q = s.transferAt q from rfl, setPad_pad]
  split
  · next e =>
    subst e
    rcases hp hq' with h | h
    · rw [h]; rfl
    · rw [h.1]; simp [h.2]
  · exact hq.2

/-- An order may become TRANSFER where no more room is left only if it could with more. -/
theorem mayTransfer_mono {s t : State} (h1 : t.orders = s.orders) (h2 : t.guards.hold = s.guards.hold) (h3 : t.polls = s.polls)
    (hc : s.couplingSet.length ≤ t.couplingSet.length) {slot : Nat} (h : t.mayTransfer slot = true) : s.mayTransfer slot = true := by
  have e : s.order slot = t.order slot := by unfold State.order; rw [h1]
  unfold State.mayTransfer at h ⊢
  rw [e]
  cases ho : t.order slot with
  | none => rw [ho] at h; cases h
  | some o =>
    rw [ho] at h
    dsimp only at h ⊢
    simp only [Bool.and_eq_true, decide_eq_true_eq] at h ⊢
    obtain ⟨h, h8⟩ := h
    refine ⟨?_, by omega⟩
    unfold State.holdActive State.quietOn State.hasCondition State.restsAt State.train at *
    rw [h2, h3] at h
    exact h

/-- Whether a state is settled: the pads play a part in it by the size of the coupling set alone. -/
theorem settled_pads {s t : State} (h : s.Settled) (hj : t.junctions = s.junctions) (hg : t.core = s.core) (h1 : t.orders = s.orders)
    (h2 : t.guards.hold = s.guards.hold) (h3 : t.polls = s.polls) (ha : t.agenda = s.agenda) (hd : t.due = s.due)
    (hc : s.couplingSet.length ≤ t.couplingSet.length) : t.Settled :=
  { agenda := ha.trans h.agenda
    due := hd.trans h.due
    transfers := by
      rw [List.find?_eq_none]
      intro slot hs hm
      exact List.find?_eq_none.1 h.transfers slot hs (mayTransfer_mono h1 h2 h3 hc hm)
    rotation := by
      have e : t.rotationNext = s.rotationNext := by
        unfold State.rotationNext State.rotationEligible State.junction State.seg
        rw [hj, hg]
      rw [hj, e]
      exact h.rotation }

/-- A pad written with a record that keeps it in the coupling set leaves the blocks nothing to do. -/
theorem settled_setPad {s : State} (h : s.Settled) (hs : s.canonical) (p : Nat) (r : PadRec) (hr : r ≠ PadRec.undeclared)
    (hp : p ∈ s.couplingSet → (s.transferAt p).isSome = true ∨ (r.state = .seated ∧ r.coupling ≠ .none)) : (s.setPad p r).Settled :=
  settled_pads h rfl rfl rfl rfl rfl rfl rfl (couplingSet_le hs (couplingSet_setPad s p r hr hp))

/-- The out-queue and the transmitter play no part in whether a state is settled. -/
theorem settled_wayside {s : State} (h : s.Settled) (w : WaysidePort) : ({ s with wayside := w } : State).Settled :=
  settled_same h rfl rfl rfl rfl rfl rfl rfl rfl

/-! ### The rotation -/

theorem get_of_mem {α : Type} [DecidableEq α] {d : α} {t : Table α} (h : Canonical d t) {e : Nat × α} (he : e ∈ t) : Table.get d t e.1 = e.2 := by
  obtain ⟨hp, -⟩ := h
  induction t with
  | nil => cases he
  | cons x rest ih =>
    obtain ⟨i, v⟩ := x
    rw [List.map_cons, List.pairwise_cons] at hp
    rw [get_cons]
    rcases List.mem_cons.1 he with rfl | he
    · exact if_pos rfl
    · rw [if_neg (Nat.ne_of_lt (hp.1 e.1 (List.mem_map.2 ⟨e, he, rfl⟩))), ih he hp.2]

theorem mem_of_get {α : Type} {d : α} {t : Table α} {k : Nat} (h : Table.get d t k ≠ d) : (k, Table.get d t k) ∈ t := by
  induction t with
  | nil => exact absurd rfl h
  | cons x rest ih =>
    obtain ⟨i, v⟩ := x
    rw [get_cons] at h ⊢
    by_cases e : i = k
    · rw [if_pos e, e]; exact List.mem_cons_self
    · rw [if_neg e] at h ⊢
      exact List.mem_cons_of_mem _ (ih h)

/-- The rotation finds no junction exactly where none is eligible. -/
theorem rotationNext_none (s : State) : s.rotationNext = none ↔ ∀ m r, s.junction m = some r → s.rotationEligible m r = false := by
  have e : s.rotationNext = none ↔ ((Table.keys s.junctions.recs).filter fun j => match s.junction j with
      | some r => s.rotationEligible j r
      | none => false) = [] := by
    unfold State.rotationNext
    dsimp only
    split
    · exact List.head?_eq_none_iff
    · rw [Option.or_eq_none_iff]
      constructor
      · exact fun h => List.head?_eq_none_iff.1 h.2
      · intro h
        erw [h]
        exact ⟨rfl, rfl⟩
  rw [e, List.filter_eq_nil_iff]
  constructor
  · intro h m r hm
    have := h m (mem_keys_of_get (d := none) (by show s.junction m ≠ none; rw [hm]; simp))
    rw [hm] at this
    simpa using this
  · intro h m _
    cases hm : s.junction m with
    | none => simp
    | some r => simp [h m r hm]

/-- Whether a rotation PROVE is outstanding, read through the junctions' records. -/
theorem rotationIdle_iff {s : State} (hs : s.canonical) :
    (∀ e ∈ s.junctions.recs, ∀ r, e.2 = some r → isRotation r.operation = false) ↔ ∀ m r, s.junction m = some r → isRotation r.operation = false := by
  constructor
  · intro h m r hm
    refine h (m, s.junction m) (mem_of_get (d := none) ?_) r hm
    show s.junction m ≠ none
    rw [hm]
    simp
  · intro h e he r hr
    refine h e.1 r ?_
    rw [← hr]
    exact get_of_mem ((wf_iff _ _).1 hs.2.2.2.1) he

/-- An operation told that it has been transmitted leaves the rotation nothing to do. -/
theorem settled_operationSent {s : State} (h : s.Settled) (hs : s.canonical) (j : Nat) : (s.operationSent j).Settled := by
  have hc : (s.operationSent j).canonical := (calm_operationSent s j).canonical hs
  unfold State.operationSent at hc ⊢
  split at hc
  · next r hr =>
    split at hc
    · next op hop =>
      have hget : ∀ m, (s.setJunction j (some { r with operation := some { op with phase := .sent, timer := .running s.params.throwTimeout } })).junction m
          = if m = j then some { r with operation := some { op with phase := .sent, timer := .running s.params.throwTimeout } } else s.junction m :=
        fun m => setJunction_junction _ _ _ _
      refine ⟨h.agenda, h.due, h.transfers, fun hi hn => ?_⟩
      rw [rotationIdle_iff hc] at hn
      have hnone := h.rotation hi ((rotationIdle_iff hs).2 fun m r' hm => by
        by_cases e : m = j
        · subst e
          rw [hr] at hm
          cases hm
          have := hn m _ (by rw [hget, if_pos rfl])
          rw [hop]
          obtain ⟨q, ph, x⟩ := op
          cases q with
          | throw _ _ => rfl
          | prove o => cases o <;> first | rfl | exact this
        · exact hn m r' (by rw [hget, if_neg e]; exact hm))
      rw [rotationNext_none] at hnone ⊢
      intro m r' hm
      rw [hget] at hm
      split at hm
      · cases hm
        unfold State.rotationEligible
        simp
      · exact hnone m r' hm
    · exact h
  · exact h

/-! ### Work of the switches alone -/

/-- What the commit, the rest decisions and the rotation leave: the Core, the orders, the guards, the polls and the Control Port, and the pads in the
coupling set; and they list nothing. -/
structure SwitchWork (s t : State) : Prop where
  core : t.core = s.core
  orders : t.orders = s.orders
  guards : t.guards = s.guards
  polls : t.polls = s.polls
  port : t.port = s.port
  due : t.due = s.due
  agenda : t.agenda = s.agenda
  coupling : ∀ p ∈ s.couplingSet, p ∈ t.couplingSet

theorem SwitchWork.refl (s : State) : SwitchWork s s := ⟨rfl, rfl, rfl, rfl, rfl, rfl, rfl, fun _ h => h⟩

theorem SwitchWork.trans {a b c : State} (h1 : SwitchWork a b) (h2 : SwitchWork b c) : SwitchWork a c :=
  ⟨h2.core.trans h1.core, h2.orders.trans h1.orders, h2.guards.trans h1.guards, h2.polls.trans h1.polls, h2.port.trans h1.port, h2.due.trans h1.due
  , h2.agenda.trans h1.agenda, fun p hp => h2.coupling p (h1.coupling p hp)⟩

theorem switchWork_commit (s : State) : SwitchWork s s.commit := by
  unfold State.commit
  split
  · exact .refl s
  · split
    · exact .refl s
    · next m _ =>
      have h0 : SwitchWork s ((s.setOutQueue (eraseFirst s.eligible s.wayside.outQueue)).setTransmitter (.sending m)) :=
        ⟨rfl, rfl, rfl, rfl, rfl, rfl, rfl, fun _ h => h⟩
      refine h0.trans ?_
      cases m with
      | throw j _ =>
        simp only [State.transmitted, State.operationSent]
        (repeat' split) <;> exact ⟨rfl, rfl, rfl, rfl, rfl, rfl, rfl, fun _ h => h⟩
      | prove j =>
        simp only [State.transmitted, State.operationSent]
        (repeat' split) <;> exact ⟨rfl, rfl, rfl, rfl, rfl, rfl, rfl, fun _ h => h⟩
      | uncouple p => exact .refl _
      | couple p =>
        simp only [State.transmitted]
        split
        · next hs =>
          refine ⟨rfl, rfl, rfl, rfl, rfl, rfl, rfl, couplingSet_setPad _ p _ ?_ fun _ => .inr ⟨hs, by simp⟩⟩
          intro e
          have := congrArg PadRec.state e
          rw [show _ = PadState.seated from hs] at this
          cases this
        · exact .refl _

theorem switchWork_handOut (s : State) (m : OutMessage) : SwitchWork s (s.handOut m) :=
  SwitchWork.trans (b := s.setOutQueue (placeOut s.wayside.outQueue m)) ⟨rfl, rfl, rfl, rfl, rfl, rfl, rfl, fun _ h => h⟩ (switchWork_commit _)

theorem switchWork_restDecision (s : State) (j : Nat) : SwitchWork s (s.restDecision j) := by
  have queue : ∀ target, (s.seg j).holder = none → SwitchWork s (s.queueThrow j target) := by
    intro target hh
    unfold State.queueThrow
    split
    · exact .refl s
    · next r _ =>
      dsimp only
      have h0 : SwitchWork s ((s.rotationEnds r.operation).setJunction j (some
          { r with position := .moving, operation := some ⟨.throw target r.position, .queued, .stopped⟩, untrusted := false, underHolder := false })) := by
        unfold State.rotationEnds
        split <;> exact ⟨rfl, rfl, rfl, rfl, rfl, rfl, rfl, fun _ h => h⟩
      have h1 := h0.trans (switchWork_handOut _ (.throw j target))
      have e : ∀ t : State, SwitchWork s t → t.tellHolder j = t := by
        intro t ht
        have : (t.seg j).holder = none := by unfold State.seg at hh ⊢; rw [ht.core]; exact hh
        unfold State.tellHolder
        rw [this]
      rw [e _ h1]
      exact h1
  unfold State.restDecision
  split
  · split
    · split
      · next hc => exact queue _ hc.1
      · exact .refl s
    · exact .refl s
  · exact .refl s

theorem switchWork_rotation (s : State) : SwitchWork s s.rotation := by
  unfold State.rotation
  split
  · split
    · exact .refl s
    · next j _ =>
      split
      · exact .refl s
      · next r _ =>
        exact SwitchWork.trans (b := (s.setJunction j (some { r with operation := some ⟨.prove .rotation, .queued, .stopped⟩ })).setPointer (some j))
          ⟨rfl, rfl, rfl, rfl, rfl, rfl, rfl, fun _ h => h⟩ (switchWork_handOut _ _)
  · exact .refl s

end Sys2Proof.Laws
end

