-- ==== Sys2Proof/Laws/Steady.lean ====
section
/-!
SUPPORT. Laws/Steady.lean: what working off a whole event leaves of an order, of a transporter's references and of a holding.
-/

namespace Sys2Proof.Laws

open Sys2Proof Sys2Proof.Machine

variable {i k n : Nat}

/-! ### A property kept through the work of an event -/

/-- A property of the records, with a test of the tasks listed, that every task keeps is kept by the whole of the work. -/
theorem settle_keeps {P : State → Prop} {ok : Task → Prop} (aside : ∀ s l, P s → P { s with agenda := l })
    (run : ∀ x s, ok x → s.agenda = [] → P s → P (runTask x s) ∧ ∀ y ∈ (runTask x s).agenda, ok y) (m : Nat) (s : State) (h : P s)
    (ha : ∀ x ∈ s.agenda, ok x) : P (settle m s) := by
  induction m generalizing s with
  | zero => exact h
  | succ m ih =>
    cases hs : s.agenda with
    | nil => rw [settle_nil _ hs]; exact h
    | cons x rest =>
      rw [settle_cons m hs, settleOne_cons hs rfl]
      have hx := run x { s with agenda := [] } (ha x (hs ▸ List.mem_cons_self)) rfl (aside s [] h)
      refine ih _ (aside _ _ hx.1) fun y hy => ?_
      rcases List.mem_append.1 hy with hy | hy
      · exact hx.2 y hy
      · exact ha y (hs ▸ List.mem_cons_of_mem _ hy)

theorem workOff_keeps {P : State → Prop} {ok : Task → Prop} (aside : ∀ s l, P s → P { s with agenda := l })
    (run : ∀ x s, ok x → s.agenda = [] → P s → P (runTask x s) ∧ ∀ y ∈ (runTask x s).agenda, ok y)
    (last : ok .extend ∧ ok .startTransfers ∧ ok .rotation) {s : State} (h : P s) (ha : ∀ x ∈ s.agenda, ok x) : P (workOff s) := by
  refine settle_keeps aside run _ _ (aside s _ h) fun x hx => ?_
  rcases List.mem_append.1 hx with hx | hx
  · exact ha x hx
  · simp only [List.mem_cons, List.not_mem_nil, or_false] at hx
    rcases hx with rfl | rfl | rfl
    · exact last.1
    · exact last.2.1
    · exact last.2.2

theorem calm_agenda_report {s : State} {x : Task} (ha : s.agenda = []) : ∀ y ∈ (runTask x s).agenda, inReport y = false := by
  intro y hy
  rcases (kept_runTask x s).agenda y hy with h | h
  · rw [ha] at h; cases h
  · exact h

/-! ### Orders -/

/-- The references stay right through an event's work that has no stage of a report. -/
theorem refsRight_workOff {s : State} (hr : s.refsRight) (hn : noReport s) : (workOff s).refsRight :=
  workOff_keeps (P := State.refsRight) (ok := fun x => inReport x = false) (fun _ _ h => refsRight_same h rfl)
    (fun x s hx ha h => ⟨refsRight_runTask x s h hx, calm_agenda_report ha⟩) ⟨rfl, rfl, rfl⟩ hr hn

/-- The record of an order in slot `k` is `o` but for its head and claim point. -/
def Stays (k : Nat) (o : Order) (s : State) : Prop := HeadStep (some o) (s.order k)

theorem Stays.spec {o : Order} {s : State} (h : Stays k o s) : ∃ o', s.order k = some o' ∧ o' = { o with claim := o'.claim, head := o'.head } := by
  obtain ⟨o', ho', -, -, e⟩ := HeadStep.spec h
  exact ⟨o', ho', e⟩

/-- No other transporter's references name an order that one transporter's do. -/
theorem named_apart {s : State} (hr : s.refsRight) {o : Order} (ho : s.order k = some o) {t : Nat} (h : o.transporter ≠ t ∨ o.live = false) :
    ∀ m ∈ (s.orderRefs t).named, m ≠ k := by
  rintro m hm rfl
  have := refsRight_of hr ho hm
  rcases h with h | h
  · exact h this.1
  · rw [this.2] at h; cases h

/-- The record of an ENDED order stays. -/
theorem ended_stays {s : State} (hr : s.refsRight) (hn : noReport s) {o : Order} (ho : s.order k = some o) (he : o.state = .ended) :
    Stays k o (workOff s) := by
  have key := workOff_keeps (P := fun s => s.refsRight ∧ Stays k o s) (ok := fun x => inReport x = false)
    (fun s l h => ⟨refsRight_same h.1 rfl, h.2⟩)
    (fun x s hx ha h => by
      obtain ⟨o', ho', e⟩ := h.2.spec
      have hst : o'.state = .ended := by rw [e]; exact he
      have hl := leaves_runTask (k := k) x s hx (fun o'' h'' => by rw [ho'] at h''; cases h''; rw [hst]; simp) fun t _ =>
        ⟨named_apart h.1 ho' (.inr (by simp [Order.live, hst])), by
          rintro slot hs rfl
          obtain ⟨x, hx, -, hxs⟩ := startingDivert_spec hs
          rw [ho'] at hx
          cases hx
          rw [hst] at hxs
          cases hxs⟩
      exact ⟨⟨refsRight_runTask x s h.1 hx, h.2.trans hl.order⟩, calm_agenda_report ha⟩)
    ⟨rfl, rfl, rfl⟩ ⟨hr, show HeadStep _ _ by rw [ho]; exact .refl _⟩ hn
  exact key.2

/-- An ENDED order stays ENDED. -/
theorem ended_workOff {s : State} (hr : s.refsRight) (hn : noReport s) {o : Order} (ho : s.order k = some o) (he : o.state = .ended) :
    ∃ o', (workOff s).order k = some o' ∧ o'.state = .ended := by
  obtain ⟨o', ho', e⟩ := (ended_stays hr hn ho he).spec
  exact ⟨o', ho', by rw [e]; exact he⟩

theorem apart_agenda {s t : State} (q : Quiet i s t) (ha : s.agenda = []) : ∀ y ∈ t.agenda, apart i y := by
  intro y hy
  rcases q.agenda y hy with h | h
  · rw [ha] at h; cases h
  · exact h

/-- While no divert of a transporter is STARTING, its active order not CANCELLING and no test of its arrival to be made, an order that its references name
keeps its record but for the head and the claim point, its references stand, and so do the pads that the order claims. -/
theorem undisturbed_workOff {s : State} (hr : s.refsRight) (hn : ∀ x ∈ s.agenda, apart i x) (hs : s.startingDivert i = none)
    (hc : ∀ a x, s.active i = some (a, x) → x.state ≠ .cancelling) (hk : k ∈ (s.orderRefs i).named) {o : Order} (ho : s.order k = some o)
    (h1 : o.state ≠ .arrived) :
    (workOff s).orderRefs i = s.orderRefs i ∧ Stays k o (workOff s) ∧
      ∀ p, (s.pad p).claim = some k → (workOff s).pad p = s.pad p ∨ (s.pad p).state = .seated := by
  have ht := (refsRight_of hr ho hk).1
  have key := workOff_keeps
    (P := fun t => (t.refsRight ∧ t.startingDivert i = none ∧ (∀ a x, t.active i = some (a, x) → x.state ≠ .cancelling)) ∧
      t.orderRefs i = s.orderRefs i ∧ Stays k o t ∧ ∀ p, (s.pad p).claim = some k → t.pad p = s.pad p ∨ (s.pad p).state = .seated)
    (ok := apart i) (fun t l h => ⟨⟨refsRight_same h.1.1 rfl, h.1.2⟩, h.2⟩)
    (fun x t hx ha h => by
      obtain ⟨⟨hr', hs', hc'⟩, hrefs, hstay, hpads⟩ := h
      obtain ⟨o', ho', e⟩ := hstay.spec
      have hst : o'.state = o.state := by rw [e]
      have htr : o'.transporter = i := by rw [e]; exact ht
      have hq := quiet_runTask x t hr' hx hs'
      have hrefs' := refs_runTask x t hr' hx hs' hc'
      have hl : Leaves k t (runTask x t) := by
        by_cases hcx : x = .complete i
        · subst hcx
          show Leaves k t (t.complete i)
          have : t.complete i = t := by
            unfold State.complete
            split
            · rfl
            · rw [hs']
              dsimp only
              split
              · next slot y hy => rw [if_neg (hc' slot y hy)]
              · rfl
          rw [this]
          exact .refl t
        · refine leaves_runTask x t hx.1 (fun o'' h'' => by rw [ho'] at h''; cases h''; rw [hst]; exact h1) fun u hu => ?_
          have hu : u ≠ i := by
            rintro rfl
            rcases hu with hu | hu | hu
            · exact hx.2.1 hu
            · exact hx.2.2 hu
            · exact hcx hu
          refine ⟨named_apart hr' ho' (.inl (htr ▸ Ne.symm hu)), ?_⟩
          rintro slot hsd rfl
          obtain ⟨y, hy, hyt, -⟩ := startingDivert_spec hsd
          rw [ho'] at hy
          cases hy
          exact hu (hyt.symm.trans htr)
      refine ⟨⟨⟨refsRight_runTask x t hr' hx.1, hq.startingDivert hs', fun a y hy => ?_⟩, hrefs'.trans hrefs, hstay.trans hl.order, fun p hp => ?_⟩
        , apart_agenda hq ha⟩
      · have hya := active_order hy
        have hna := active_named hy
        rw [hrefs'] at hna
        have hy2 := (refsRight_of (refsRight_runTask x t hr' hx.1) hya (by rw [hrefs']; exact hna)).1
        obtain ⟨y0, hy0, -, hs0⟩ := hq.mine a y hya hy2
        have hact : t.active i = some (a, y0) := by
          unfold State.active at hy ⊢
          rw [hrefs'] at hy
          split at hy
          · next slot hslot =>
            obtain ⟨z, -, hz⟩ := Option.map_eq_some_iff.1 hy
            cases hz
            rw [hy0]
            rfl
          · cases hy
        have h0 := hc' a y0 hact
        rcases hs0 with e' | e' | e' | e'
        · rw [e']; exact h0
        · rw [e']; simp
        · rw [e']; simp
        · rw [e']; simp
      · rcases hpads p hp with e' | e'
        · rcases hl.pads p (by rw [e']; exact hp) with e'' | e''
          · exact .inl (e''.trans e')
          · exact .inr (e' ▸ e'')
        · exact .inr e')
    ⟨⟨rfl, by simp, by simp⟩, ⟨rfl, by simp, by simp⟩, ⟨rfl, by simp, by simp⟩⟩
    ⟨⟨hr, hs, hc⟩, rfl, show HeadStep _ _ by rw [ho]; exact .refl _, fun _ _ => .inl rfl⟩ hn
  exact key.2

/-- An order that is CANCELLING is CANCELLING or ENDED after the work, while no divert of its transporter is STARTING and no test of its arrival is to be
made. -/
theorem ceasing_workOff {s : State} (hr : s.refsRight) (hn : ∀ x ∈ s.agenda, apart i x) (hs : s.startingDivert i = none) {o : Order}
    (ho : s.order k = some o) (ht : o.transporter = i) (hc : o.state = .cancelling) :
    ∃ o', (workOff s).order k = some o' ∧ (o'.state = .cancelling ∨ o'.state = .ended) := by
  have key := workOff_keeps
    (P := fun t => (t.refsRight ∧ t.startingDivert i = none) ∧ ∃ o', t.order k = some o' ∧ o'.transporter = i ∧ (o'.state = .cancelling ∨ o'.state = .ended))
    (ok := apart i) (fun t l h => ⟨⟨refsRight_same h.1.1 rfl, h.1.2⟩, h.2⟩)
    (fun x t hx ha h => by
      obtain ⟨⟨hr', hs'⟩, o', ho', htr, hst⟩ := h
      have hq := quiet_runTask x t hr' hx hs'
      refine ⟨⟨⟨refsRight_runTask x t hr' hx.1, hq.startingDivert hs'⟩, ?_⟩, apart_agenda hq ha⟩
      by_cases hcx : x = .complete i
      · subst hcx
        show ∃ y, (t.complete i).order k = some y ∧ _
        unfold State.complete
        split
        · exact ⟨o', ho', htr, hst⟩
        · rw [hs']
          dsimp only
          split
          · next slot y _ =>
            split
            · rw [endOrder_order]
              split
              · next e => subst e; rw [ho']; exact ⟨_, rfl, htr, .inr rfl⟩
              · exact ⟨o', ho', htr, hst⟩
            · exact ⟨o', ho', htr, hst⟩
          · exact ⟨o', ho', htr, hst⟩
      · have hl : Leaves k t (runTask x t) := by
          refine leaves_runTask x t hx.1 (fun o'' h'' => by rw [ho'] at h''; cases h''; rcases hst with e | e <;> rw [e] <;> simp) fun u hu => ?_
          have hu : u ≠ i := by
            rintro rfl
            rcases hu with hu | hu | hu
            · exact hx.2.1 hu
            · exact hx.2.2 hu
            · exact hcx hu
          refine ⟨named_apart hr' ho' (.inl (htr ▸ Ne.symm hu)), ?_⟩
          rintro slot hsd rfl
          obtain ⟨y, hy, hyt, -⟩ := startingDivert_spec hsd
          rw [ho'] at hy
          cases hy
          exact hu (hyt.symm.trans htr)
        obtain ⟨y, hy, hys, hyt, -⟩ := HeadStep.spec (ho' ▸ hl.order)
        exact ⟨y, hy, hyt.trans htr, by rw [hys]; exact hst⟩)
    ⟨⟨rfl, by simp, by simp⟩, ⟨rfl, by simp, by simp⟩, ⟨rfl, by simp, by simp⟩⟩ ⟨⟨hr, hs⟩, o, ho, ht, .inl hc⟩ hn
  obtain ⟨-, o', ho', -, h⟩ := key
  exact ⟨o', ho', h⟩

/-! ### Holdings -/

/-- A transporter without an active order holds a segment. -/
def Sits (i n : Nat) (s : State) : Prop := (s.orderRefs i).active = none ∧ (s.seg n).holder = some i

/-- A task that releases no segment `n` of transporter `i`. -/
def still (i n : Nat) (x : Task) : Prop := inReport x = false ∧ x ≠ .release n i ∧ x ≠ .tailRelease n i ∧ x ≠ .confirm i

/-- What keeps a transporter sitting, and lists nothing that would release the segment. -/
def KeepsSeat (i n : Nat) (s t : State) : Prop := Sits i n s → Sits i n t ∧ ∀ y ∈ t.agenda, y ∈ s.agenda ∨ still i n y

theorem KeepsSeat.refl (s : State) : KeepsSeat i n s s := fun h => ⟨h, fun _ hy => .inl hy⟩

theorem KeepsSeat.trans {a b c : State} (h1 : KeepsSeat i n a b) (h2 : KeepsSeat i n b c) : KeepsSeat i n a c := fun h =>
  ⟨(h2 (h1 h).1).1, fun y hy => ((h2 (h1 h).1).2 y hy).elim ((h1 h).2 y) .inr⟩

theorem still_of_orderly {x : Task} (h : orderly x = true) (hr : x ≠ .release n i) : still i n x := by
  cases x <;> first | (simp [orderly] at h; done) | exact ⟨rfl, hr, by simp, by simp⟩

theorem seat_waits {s t : State} (w : Waits i n s t) : KeepsSeat i n s t := fun h =>
  ⟨⟨by rw [w.orderRefs]; exact h.1, w.holder h.2⟩, fun y hy => (w.agenda y hy).imp_right fun hy =>
    still_of_orderly hy.1 fun e => hy.2 e h.1⟩

theorem seat_same {s t : State} (h1 : (t.orderRefs i).active = (s.orderRefs i).active) (h2 : (t.seg n).holder = (s.seg n).holder)
    (h3 : ∀ y ∈ t.agenda, y ∈ s.agenda ∨ still i n y) : KeepsSeat i n s t := fun h => ⟨⟨h1.trans h.1, h2.trans h.2⟩, h3⟩

theorem seat_emit (s : State) {xs : List Task} (h : ∀ x ∈ xs, still i n x) : KeepsSeat i n s (s.emit xs) :=
  seat_same rfl rfl fun x hx => (List.mem_append.1 hx).imp_right (h x)

theorem seat_endOrder (s : State) (slot : Nat) (x : OrderOutcome) : KeepsSeat i n s (s.endOrder slot x) := fun h =>
  ⟨⟨by
      rw [endOrder_orderRefs]
      split
      · show (if _ then none else _) = none
        split
        · rfl
        · exact h.1
      · exact h.1, (endOrder_core s slot x).1 h.2⟩
  , fun y hy => ((endOrder_core s slot x).2 y hy).imp_right fun hy => still_of_orderly hy.1 fun e => hy.2 e h.1⟩

theorem seat_failOrder (s : State) (slot : Nat) (c : FailureCause) : KeepsSeat i n s (s.failOrder slot c) := by
  unfold State.failOrder
  split
  · exact .refl s
  · refine seat_same rfl rfl fun x hx => (List.mem_append.1 hx).imp_right fun h => ?_
    simp only [List.mem_cons, List.not_mem_nil, or_false] at h
    rcases h with rfl | rfl <;> exact ⟨rfl, by simp, by simp, by simp⟩

theorem seat_popTo (s : State) (t : Nat) (place : Place) (h : t ≠ i) : KeepsSeat i n s (s.popTo t place) :=
  seat_same (by rw [refs_popTo s t place h]) (by unfold State.popTo; split <;> first | rfl | (split <;> rfl)) fun y hy => .inl (by
    unfold State.popTo at hy
    split at hy
    · exact hy
    · split at hy <;> exact hy)

theorem seat_rejoin (s : State) (t slot : Nat) (o : Order) (h : t ≠ i) : KeepsSeat i n s (s.rejoin t slot o) := by
  unfold State.rejoin
  dsimp only
  have h0 := seat_endOrder (i := i) (n := n) s slot .done
  split
  · exact h0
  · next place _ =>
    have h1 := h0.trans (seat_popTo _ t place h)
    split
    · exact h1
    · split
      · exact h1.trans (seat_emit _ (by simp [still, inReport]))
      · exact h1.trans (seat_emit _ (by simp [still, inReport]))

theorem not_active {s : State} {t : Nat} {x : Nat × Order} (hs : (s.orderRefs i).active = none) (ha : s.active t = some x) : t ≠ i := by
  rintro rfl
  unfold State.active at ha
  rw [hs] at ha
  cases ha

theorem seat_arrival (s : State) (t : Nat) : KeepsSeat i n s (s.arrival t) := by
  intro hs
  suffices KeepsSeat i n s (s.arrival t) from this hs
  unfold State.arrival
  split
  · exact .refl s
  · next slot o ha =>
    have h := not_active hs.1 ha
    have hset : ∀ o' : Order, KeepsSeat i n s ((s.setOrder slot (some o')).emit [.recompute t, .reviewJunctions t]) := fun o' =>
      seat_same rfl rfl fun x hx => (List.mem_append.1 hx).imp_right fun h => by
        simp only [List.mem_cons, List.not_mem_nil, or_false] at h
        rcases h with rfl | rfl <;> exact ⟨rfl, by simp, by simp, by simp⟩
    split
    · exact .refl s
    · split
      · split
        · exact seat_rejoin s t slot o h
        · split
          · have h1 : KeepsSeat i n s (s.setOrder slot (some { o with state := .dwelling })) := seat_same rfl rfl fun _ hx => .inl hx
            have h2 := h1.trans (seat_waits (waits_removeHead _ slot))
            exact h2.trans (seat_same rfl rfl fun x hx => (List.mem_append.1 hx).imp_right fun h => by
              simp only [List.mem_cons, List.not_mem_nil, or_false] at h
              rcases h with rfl | rfl <;> exact ⟨rfl, by simp, by simp, by simp⟩)
          · exact .refl s
      · split
        · dsimp only
          split
          · exact (hset { o with state := .arrived }).trans (seat_endOrder _ _ _)
          · exact hset { o with state := .arrived }
        · exact .refl s

theorem seat_startDivert (s : State) (t slot : Nat) (refuge : Order) (place : Place) : KeepsSeat i n s (s.startDivert t slot refuge place) := by
  unfold State.startDivert
  dsimp only
  have h1 : KeepsSeat i n s (s.setOrder slot (some { refuge with state := .starting, rejoin := some place })) := seat_same rfl rfl fun _ hx => .inl hx
  refine KeepsSeat.trans (b := match (State.orderRefs (s.setOrder slot (some { refuge with state := .starting, rejoin := some place })) t).active with
    | some a => (s.setOrder slot (some { refuge with state := .starting, rejoin := some place })).removeHead a
    | none => s.setOrder slot (some { refuge with state := .starting, rejoin := some place })) ?_ (seat_emit _ (by simp [still, inReport]))
  split
  · exact h1.trans (seat_waits (waits_removeHead _ _))
  · exact h1

theorem seat_takeUpDivert (s : State) (t slot : Nat) (refuge : Order) : KeepsSeat i n s (s.takeUpDivert t slot refuge) := by
  intro hs
  suffices KeepsSeat i n s (s.takeUpDivert t slot refuge) from this hs
  refine seat_same ?_ ?_ ?_
  · by_cases h : t = i
    · subst h
      unfold State.takeUpDivert
      dsimp only
      split
      · rfl
      · next ha => exact absurd rfl (not_active hs.1 ha)
    · rw [refs_takeUpDivert s t slot refuge h]
  · unfold State.takeUpDivert
    dsimp only
    split
    · rfl
    · split <;> rfl
  · intro y hy
    unfold State.takeUpDivert at hy
    dsimp only at hy
    split at hy
    · exact .inl hy
    · next ha =>
      have h := not_active hs.1 ha
      have main : ∀ l : List Nat, ∀ z ∈ (s.agenda ++ l.map fun m => Task.release m t) ++ [.recompute t, .reviewJunctions t], z ∈ s.agenda ∨ still i n z := by
        intro l z hz
        rcases List.mem_append.1 hz with hz | hz
        · rcases List.mem_append.1 hz with hz | hz
          · exact .inl hz
          · obtain ⟨m, -, rfl⟩ := List.mem_map.1 hz
            exact .inr ⟨rfl, fun e => h (by cases e; rfl), by simp, by simp⟩
        · right
          simp only [List.mem_cons, List.not_mem_nil, or_false] at hz
          rcases hz with rfl | rfl <;> exact ⟨rfl, by simp, by simp, by simp⟩
      split at hy
      · rcases List.mem_append.1 hy with hy | hy
        · exact main _ y hy
        · simp only [List.mem_singleton] at hy
          subst hy
          exact .inr ⟨rfl, by simp, by simp, by simp⟩
      · exact main _ y hy

theorem seat_complete (s : State) (t : Nat) : KeepsSeat i n s (s.complete t) := by
  unfold State.complete
  split
  · exact .refl s
  · split
    · split
      · exact .refl s
      · split
        · exact seat_takeUpDivert s t _ _
        · exact ((seat_endOrder s _ _).trans (seat_waits (waits_makeActiveDue _ t))).trans (seat_emit _ (by simp [still, inReport]))
    · split
      · split
        · exact seat_endOrder s _ _
        · exact .refl s
      · exact .refl s

theorem seat_takeUpPending (s : State) (t : Nat) : KeepsSeat i n s (s.takeUpPending t) := by
  unfold State.takeUpPending
  split
  · exact .refl s
  · next slot hp =>
    split
    · exact .refl s
    · dsimp only
      split
      · split
        · refine KeepsSeat.trans (b := s.setRefs t { s.orderRefs t with pendingDivert := none }) (seat_same ?_ rfl fun _ hx => .inl hx)
            (seat_startDivert _ _ _ _ _)
          rw [setRefs_orderRefs]
          split
          · next e => subst e; rfl
          · rfl
        · exact seat_endOrder s _ _
      · exact seat_endOrder s _ _

theorem seat_startTransfers (s : State) : KeepsSeat i n s s.startTransfers := by
  have begin_ : ∀ (s : State) (slot t : Nat) (f : Finish), KeepsSeat i n s (s.beginTransfer slot t f) := by
    intro s slot t f
    unfold State.beginTransfer
    split
    · next p x _ =>
      exact (seat_same (s := s) (t := (s.setTransfer p (some (s.newTransfer slot t .lift .uncoupling x))).setPad p
          { s.pad p with state := .releasing, claim := none, confTransporter := false, confStation := false }) rfl rfl fun _ hx => .inl hx).trans
        (seat_waits (waits_handOut _ _))
    · exact seat_same (s := s) rfl rfl fun _ hx => .inl hx
    · dsimp only
      refine KeepsSeat.trans ?_ (seat_failOrder _ _ _)
      split
      · split
        · exact seat_same (s := s) rfl rfl fun _ hx => .inl hx
        · exact .refl s
      · exact .refl s
  unfold State.startTransfers
  split
  · exact .refl s
  · next slot _ =>
    split
    · exact .refl s
    · next o _ =>
      have h1 : KeepsSeat i n s ((s.setOrder slot (some { o with state := .transfer })).emit [.recompute o.transporter]) :=
        (seat_same (s := s) (t := s.setOrder slot (some { o with state := .transfer })) rfl rfl fun _ hx => .inl hx).trans
          (seat_emit _ (by simp [still, inReport]))
      exact (h1.trans (begin_ _ slot o.transporter (o.finish.getD .none))).trans (seat_emit _ (by simp [still, inReport]))

theorem seat_runTask (x : Task) (s : State) (hx : still i n x) : KeepsSeat i n s (runTask x s) := by
  by_cases hd : headTask x = true
  · exact seat_waits (waits_runTask x s hd hx.2.1)
  · obtain ⟨hx1, hx2, hx3, hx4⟩ := hx
    cases x <;> first | exact absurd rfl hd | (simp [inReport] at hx1; done) | skip
    case tailRelease m t =>
      show KeepsSeat i n s (s.tailRelease m t)
      unfold State.tailRelease
      dsimp only
      split
      · refine seat_emit s fun y hy => ?_
        simp only [List.mem_singleton] at hy
        subst hy
        exact ⟨rfl, fun e => hx3 (by cases e; rfl), by simp, by simp⟩
      · exact .refl s
    case confirm t =>
      show KeepsSeat i n s (s.confirm t)
      unfold State.confirm
      split
      · exact .refl s
      · split
        · refine seat_emit s fun y hy => ?_
          rcases List.mem_append.1 hy with hy | hy
          · obtain ⟨m, -, rfl⟩ := List.mem_map.1 hy
            exact ⟨rfl, fun e => hx4 (by cases e; rfl), by simp, by simp⟩
          · simp only [List.mem_singleton] at hy
            subst hy
            exact ⟨rfl, by simp, by simp, by simp⟩
        · exact .refl s
    case complete t => exact seat_complete s t
    case arrival t => exact seat_arrival s t
    case takeUpPending t => exact seat_takeUpPending s t
    case startTransfers => exact seat_startTransfers s

/-- A transporter without an active order keeps the segment that it holds, where nothing listed releases it. -/
theorem holder_workOff {s : State} (h : Sits i n s) (hn : ∀ x ∈ s.agenda, still i n x) : Sits i n (workOff s) :=
  workOff_keeps (P := Sits i n) (ok := still i n) (fun _ _ h => h)
    (fun x s hx ha h => ⟨(seat_runTask x s hx h).1, fun y hy => ((seat_runTask x s hx h).2 y hy).elim (fun e => by rw [ha] at e; cases e) id⟩)
    ⟨⟨rfl, by simp, by simp, by simp⟩, ⟨rfl, by simp, by simp, by simp⟩, ⟨rfl, by simp, by simp, by simp⟩⟩ h hn

/-! ### Work that finds no orders -/

/-- No order stands anywhere, no head waits, and no segment has a claimant or a withdrawing mark. -/
structure Bare (s : State) : Prop where
  orders : s.orders = { slots := [], refs := [] }
  due : s.due = []
  waiting : s.core.waiting = []
  queues : ∀ m, (s.seg m).queue = []
  marks : ∀ m, (s.seg m).withdrawing = none

/-- The tasks that the work of a state without orders may list. -/
def bareTask : Task → Bool
  | .recompute _ => true
  | .restDecision _ => true
  | .complete _ => true
  | .serveAll => true
  | .retryAll => true
  | .extend => true
  | .startTransfers => true
  | .resumeTransfers => true
  | .pollNext => true
  | .rotation => true
  | _ => false

/-- What such work leaves: the holdings, the orders, the waiting list and the guards; and it lists nothing of another kind. -/
structure LeavesBare (s t : State) : Prop where
  segs : t.core.segs = s.core.segs
  waiting : t.core.waiting = s.core.waiting
  orders : t.orders = s.orders
  due : t.due = s.due
  guards : t.guards = s.guards
  agenda : ∀ x ∈ t.agenda, x ∈ s.agenda ∨ bareTask x = true

theorem LeavesBare.refl (s : State) : LeavesBare s s := ⟨rfl, rfl, rfl, rfl, rfl, fun _ h => .inl h⟩

theorem LeavesBare.trans {a b c : State} (h1 : LeavesBare a b) (h2 : LeavesBare b c) : LeavesBare a c :=
  ⟨h2.segs.trans h1.segs, h2.waiting.trans h1.waiting, h2.orders.trans h1.orders, h2.due.trans h1.due, h2.guards.trans h1.guards, fun x hx =>
    (h2.agenda x hx).elim (h1.agenda x) .inr⟩

theorem bare_of {s t : State} (h : LeavesBare s t) (hs : Bare s) : Bare t := by
  have e : ∀ m, t.seg m = s.seg m := fun m => by unfold State.seg; rw [h.segs]
  exact ⟨h.orders.trans hs.orders, h.due.trans hs.due, h.waiting.trans hs.waiting, fun m => by rw [e]; exact hs.queues m, fun m => by
    rw [e]; exact hs.marks m⟩

theorem bare_order {s : State} (h : Bare s) (m : Nat) : s.order m = none := by
  unfold State.order
  rw [h.orders]
  rfl

theorem bare_active {s : State} (h : Bare s) (t : Nat) : s.active t = none := by
  unfold State.active State.orderRefs
  rw [h.orders]
  rfl

theorem bare_startingDivert {s : State} (h : Bare s) (t : Nat) : s.startingDivert t = none := by
  unfold State.startingDivert
  rw [List.find?_eq_none]
  intro m _
  rw [bare_order h m]
  simp

theorem leavesBare_switches {s t : State} (h : SwitchWork s t) : LeavesBare s t :=
  ⟨by rw [h.core], by rw [h.core], h.orders, h.due, h.guards, fun x hx => .inl (h.agenda ▸ hx)⟩

theorem leavesBare_resumeTransfers (s : State) : LeavesBare s s.resumeTransfers := by
  have timers : ∀ s : State, LeavesBare s s.resumeTimers := by
    intro s
    unfold State.resumeTimers
    generalize Table.keys s.transfer.transfers = l
    induction l generalizing s with
    | nil => exact .refl s
    | cons p l ih =>
      refine LeavesBare.trans ?_ (ih _)
      dsimp only
      (repeat' split) <;> exact ⟨rfl, rfl, rfl, rfl, rfl, fun _ h => .inl h⟩
  unfold State.resumeTransfers
  dsimp only
  have h0 : LeavesBare s (s.setHoldEnding false) := ⟨rfl, rfl, rfl, rfl, rfl, fun _ h => .inl h⟩
  split
  · exact h0
  · exact h0.trans ((timers _).trans (leavesBare_switches (switchWork_commit _)))

theorem leavesBare_updateTrain (s : State) (t : Nat) (f : TransporterRec → TransporterRec) : LeavesBare s (s.updateTrain t f) := by
  unfold State.updateTrain
  split <;> exact ⟨rfl, rfl, rfl, rfl, rfl, fun _ h => .inl h⟩

theorem leavesBare_confirmPolled (s : State) (t : Nat) : LeavesBare s (s.confirmPolled t) := by
  unfold State.confirmPolled State.setConfirm
  (repeat' split) <;> exact ⟨rfl, rfl, rfl, rfl, rfl, fun _ h => .inl h⟩

theorem leavesBare_pollNext (s : State) : LeavesBare s s.pollNext := by
  unfold State.pollNext
  split
  · exact .refl s
  · split
    · next t _ =>
      unfold State.poll
      split
      · exact .refl s
      · dsimp only
        refine LeavesBare.trans ?_ ((leavesBare_updateTrain _ t _).trans ((leavesBare_confirmPolled _ t).trans (leavesBare_updateTrain _ t _)))
        exact ⟨rfl, rfl, rfl, rfl, rfl, fun _ h => .inl h⟩
    · exact .refl s

theorem leavesBare_recompute (s : State) (t : Nat) (h : Bare s) : LeavesBare s (s.recompute t) := by
  have keeps : (s.holdings t).filter (fun m => decide ((s.seg m).withdrawing = some .keep)) = [] :=
    List.filter_eq_nil_iff.2 fun m _ => by rw [h.marks]; simp
  have revise : s.reviseMarks t = s := by
    unfold State.reviseMarks
    dsimp only
    rw [keeps]
    split <;> rfl
  unfold State.recompute
  split
  · exact .refl s
  · dsimp only
    rw [revise]
    split
    · exact .refl s
    · next r _ =>
      have hb : Bare (s.setRun t (some { r with limit := s.limitAt t (s.reach t), ceiling := s.ceilingAt t (s.reach t) })) :=
        ⟨h.orders, h.due, h.waiting, h.queues, h.marks⟩
      refine LeavesBare.trans (b := s.setRun t (some { r with limit := s.limitAt t (s.reach t), ceiling := s.ceilingAt t (s.reach t) }))
        ⟨rfl, rfl, rfl, rfl, rfl, fun _ h => .inl h⟩ ?_
      generalize s.setRun t (some { r with limit := s.limitAt t (s.reach t), ceiling := s.ceilingAt t (s.reach t) }) = u at hb
      generalize s.reach t = c
      have ahead : u.trackAhead t = [] := by
        unfold State.trackAhead
        rw [bare_active hb]
      have beyond : u.heldBeyond t c = [] := by
        unfold State.heldBeyond
        rw [ahead]
        simp
      have sent : u.sentReach t = 0 := by
        unfold State.sentReach State.routeAhead
        rw [bare_active hb]
        split <;> rfl
      unfold State.withdraw
      dsimp only
      rw [beyond, sent, if_neg (Nat.not_lt_zero _)]
      have e : (if u.releaseCause t = true then u.emit ((([] : List Nat).filter (u.yieldsAtOnce t)).map fun n => Task.release n t)
          else u.mark t (([] : List Nat).filter (u.keepCause t)) .keep) = u := by
        have e0 : u.emit [] = u := by unfold State.emit; rw [List.append_nil]
        split
        · exact e0
        · rfl
      rw [e]
      split
      · exact ⟨rfl, rfl, rfl, rfl, rfl, fun x hx => (List.mem_append.1 hx).imp_right fun h => by simp only [List.mem_singleton] at h; subst h; rfl⟩
      · exact .refl u

theorem leavesBare_runTask (x : Task) (s : State) (hx : bareTask x = true) (h : Bare s) : LeavesBare s (runTask x s) := by
  have nothing : s.emit [] = s := by unfold State.emit; rw [List.append_nil]
  cases x <;> first | (simp [bareTask] at hx; done) | skip
  case recompute t => exact leavesBare_recompute s t h
  case restDecision j => exact leavesBare_switches (switchWork_restDecision s j)
  case complete t =>
    have e : s.complete t = s := by
      unfold State.complete
      rw [bare_startingDivert h, bare_active h]
      split <;> rfl
    show LeavesBare s (s.complete t)
    rw [e]
    exact .refl s
  case serveAll =>
    have e : s.serveAll = s := by
      unfold State.serveAll
      rw [List.filter_eq_nil_iff.2 fun m _ => by rw [h.queues]; simp]
      exact nothing
    show LeavesBare s s.serveAll
    rw [e]
    exact .refl s
  case retryAll =>
    have e : s.retryAll = s := by
      unfold State.retryAll
      rw [h.waiting]
      exact nothing
    show LeavesBare s s.retryAll
    rw [e]
    exact .refl s
  case extend =>
    show LeavesBare s s.extend
    rw [extend_settled h.due]
    exact .refl s
  case startTransfers =>
    show LeavesBare s s.startTransfers
    rw [startTransfers_settled (List.find?_eq_none.2 fun m _ => by unfold State.mayTransfer; rw [bare_order h m]; simp)]
    exact .refl s
  case resumeTransfers => exact leavesBare_resumeTransfers s
  case pollNext => exact leavesBare_pollNext s
  case rotation => exact leavesBare_switches (switchWork_rotation s)

/-- Where no order stands, an event's work leaves the holdings, the orders, the waiting list and the guards. -/
theorem bare_workOff {s : State} (h : Bare s) (hn : ∀ x ∈ s.agenda, bareTask x = true) :
    (workOff s).core.segs = s.core.segs ∧ (workOff s).core.waiting = s.core.waiting ∧ (workOff s).orders = s.orders ∧ (workOff s).guards = s.guards := by
  have key := workOff_keeps (P := fun t => Bare t ∧ t.core.segs = s.core.segs ∧ t.core.waiting = s.core.waiting ∧ t.orders = s.orders ∧ t.guards = s.guards)
    (ok := fun x => bareTask x = true) (fun t l h => ⟨⟨h.1.orders, h.1.due, h.1.waiting, h.1.queues, h.1.marks⟩, h.2⟩)
    (fun x t hx ha h => by
      have hl := leavesBare_runTask x t hx h.1
      exact ⟨⟨bare_of hl h.1, hl.segs.trans h.2.1, hl.waiting.trans h.2.2.1, hl.orders.trans h.2.2.2.1, hl.guards.trans h.2.2.2.2⟩, fun y hy => (hl.agenda y hy).elim (fun e => by
        rw [ha] at e; cases e) id⟩)
    ⟨rfl, rfl, rfl⟩ ⟨h, rfl, rfl, rfl, rfl⟩ hn
  exact key.2

/-! ### Rest decisions alone -/

/-- Where nothing but rest decisions is listed, no order has had an event of R72 and none may become TRANSFER, an event's work is that of the switches
alone. -/
theorem resting_workOff {s : State} (hc : s.canonical) (hd : s.due = []) (ht : slots.find? s.mayTransfer = none)
    (hn : ∀ x ∈ s.agenda, ∃ j, x = .restDecision j) :
    (workOff s).core = s.core ∧ (workOff s).orders = s.orders ∧ (workOff s).guards = s.guards ∧ (workOff s).polls = s.polls
      ∧ (workOff s).port = s.port := by
  have key := workOff_keeps
    (P := fun t => (t.due = [] ∧ slots.find? t.mayTransfer = none ∧ (∀ p ∈ s.couplingSet, p ∈ t.couplingSet)) ∧
      t.core = s.core ∧ t.orders = s.orders ∧ t.guards = s.guards ∧ t.polls = s.polls ∧ t.port = s.port)
    (ok := fun x => x = .extend ∨ x = .startTransfers ∨ x = .rotation ∨ ∃ j, x = .restDecision j) (fun t l h => h)
    (fun x t hx ha h => by
      obtain ⟨⟨h1, h2, h3⟩, h4, h5, h6, h7, h8⟩ := h
      have key : ∀ u, SwitchWork t u → (((u.due = [] ∧ slots.find? u.mayTransfer = none ∧ (∀ p ∈ s.couplingSet, p ∈ u.couplingSet)) ∧
          u.core = s.core ∧ u.orders = s.orders ∧ u.guards = s.guards ∧ u.polls = s.polls ∧ u.port = s.port) ∧
          ∀ y ∈ u.agenda, y = .extend ∨ y = .startTransfers ∨ y = .rotation ∨ ∃ j, y = .restDecision j) := by
        intro u w
        have hsub : ∀ p ∈ s.couplingSet, p ∈ u.couplingSet := fun p hp => w.coupling p (h3 p hp)
        refine ⟨⟨⟨w.due.trans h1, ?_, hsub⟩, w.core.trans h4, w.orders.trans h5, w.guards.trans h6, w.polls.trans h7, w.port.trans h8⟩, fun y hy => ?_⟩
        · rw [List.find?_eq_none]
          intro slot hs hm
          exact List.find?_eq_none.1 ht slot hs (mayTransfer_mono (w.orders.trans h5) (by rw [w.guards, h6]) (w.polls.trans h7) (couplingSet_le hc hsub) hm)
        · rw [w.agenda, ha] at hy
          cases hy
      rcases hx with rfl | rfl | rfl | ⟨j, rfl⟩
      · refine key _ ?_
        show SwitchWork t t.extend
        rw [extend_settled h1]
        exact .refl t
      · refine key _ ?_
        show SwitchWork t t.startTransfers
        rw [startTransfers_settled h2]
        exact .refl t
      · exact key _ (switchWork_rotation t)
      · exact key _ (switchWork_restDecision t j))
    ⟨.inl rfl, .inr (.inl rfl), .inr (.inr (.inl rfl))⟩ ⟨⟨hd, ht, fun _ h => h⟩, rfl, rfl, rfl, rfl, rfl⟩
    (fun x hx => .inr (.inr (.inr (hn x hx))))
  exact key.2

end Sys2Proof.Laws
end

