-- ==== Sys2Proof/Laws/References.lean ====
section
/-!
SUPPORT. Laws/References.lean: every edit of the Order Table leaves the references naming live orders of their transporters.
-/

namespace Sys2Proof.Laws

open Sys2Proof Sys2Proof.Machine

/-! ### Transfers -/

theorem placeTelescope_orders (s : State) (x : Nat) (p : Placement) : (s.placeTelescope x p).orders = s.orders := by
  unfold State.placeTelescope
  dsimp only
  split <;> rfl

theorem changeLoad_orders (s : State) (t : Nat) (l : Load) : (s.changeLoad t l).orders = s.orders := rfl

theorem settleTransfer_orders (s : State) (p : Nat) (x : TransferRec) (v : Bool) : (s.settleTransfer p x v).orders = s.orders := by
  unfold State.settleTransfer
  dsimp only
  split
  · split
    · exact (placeTelescope_orders _ _ _).trans rfl
    · exact (placeTelescope_orders _ _ _).trans rfl
  · split <;> rfl

theorem refsRight_failTransfer {s : State} (h : s.refsRight) (p : Nat) (x : TransferRec) (v : Bool) (c : FailureCause) :
    (s.failTransfer p x v c).refsRight := refsRight_failOrder (refsRight_same h (settleTransfer_orders s p x v)) _ _

theorem refsRight_completeIfConfirmed {s : State} (h : s.refsRight) (p : Nat) (x : TransferRec) : (s.completeIfConfirmed p x).refsRight := by
  unfold State.completeIfConfirmed
  split
  · split
    · unfold State.completeLift
      dsimp only
      refine refsRight_endOrder (refsRight_same h ?_) _ _
      rw [changeLoad_orders, placeTelescope_orders, setPad_orders, setTransfer_orders]
    · unfold State.completeSetDown
      dsimp only
      refine refsRight_endOrder (refsRight_waits (waits_handOut (i := 0) (n := 0) _ _) (refsRight_same h ?_)) _ _
      rw [changeLoad_orders, placeTelescope_orders, setPad_orders, setTransfer_orders]
  · exact h

theorem refsRight_takePadEvent {s : State} (h : s.refsRight) (p : Nat) (e : PadEventValue) : (s.takePadEvent p e).refsRight := by
  unfold State.takePadEvent
  split
  · next x _ =>
    have confirms : (s.stationConfirms p x).refsRight :=
      refsRight_completeIfConfirmed (refsRight_same (s := s) (t := s.setPad p _) h rfl) p x
    have fails : (s.stationFails p x).refsRight :=
      refsRight_failTransfer (refsRight_same (s := s) (t := s.raise .padFault p) h rfl) p x true .padFault
    unfold State.transferPadEvent
    split <;> first | exact confirms | exact fails | exact h | exact refsRight_same (s := s) h rfl | skip
    all_goals split <;> first | exact fails | exact h
  · unfold State.idlePadEvent
    dsimp only
    split <;> first | exact h | exact refsRight_same (s := s) h rfl | skip
    split <;> exact refsRight_same (s := s) h rfl

theorem refsRight_takeLoadEvent {s : State} (h : s.refsRight) (r : Report) : (s.takeLoadEvent r).refsRight := by
  unfold State.takeLoadEvent
  split
  · exact h
  · split
    · next p x _ =>
      have fails : (s.transporterFails p x).refsRight := refsRight_failTransfer h p _ _ _
      have confirms : ∀ y, ((s.setTransfer p (some y)).transporterConfirms p y).refsRight := fun y =>
        refsRight_completeIfConfirmed (refsRight_same (s := s) (t := (s.setTransfer p (some y)).setPad p _) h rfl) p y
      split
      · unfold State.transferLoadEvent
        split
        · exact h
        · split
          · exact confirms _
          · exact fails
        · exact confirms _
        · exact fails
      · exact fails
    · split
      · exact h
      · have place : ∀ (u : State) (l : Load), u.orders = s.orders → ((u.changeLoad r.transporter l).orders = s.orders) := fun _ _ e => e
        unfold State.strayLoadEvent
        dsimp only
        split <;> split <;> refine refsRight_same h ?_ <;> first | exact placeTelescope_orders _ _ _ | rfl

/-! ### Reports -/

theorem updateTrain_orders (s : State) (t : Nat) (f : TransporterRec → TransporterRec) : (s.updateTrain t f).orders = s.orders := by
  unfold State.updateTrain
  split <;> rfl

theorem setCondition_orders (s : State) (t : Nat) (c : Condition) : (s.setCondition t c).orders = s.orders := updateTrain_orders s t _

theorem refsRight_stall {s : State} (h : s.refsRight) (t : Nat) : (s.stall t).refsRight :=
  refsRight_same h ((setCondition_orders _ t .stalled).trans rfl)

/-- The references stay right by every task. -/
theorem refsRight_anyTask (x : Task) (s : State) (h : s.refsRight) : (runTask x s).refsRight := by
  by_cases hx : inReport x = false
  · exact refsRight_runTask x s h hx
  · cases x <;> first | exact absurd rfl hx | skip
    case progressReport t moved inMotion =>
      show (s.progressReport t moved inMotion).refsRight
      unfold State.progressReport
      split
      · exact h
      · exact refsRight_same h ((updateTrain_orders _ _ _).trans (updateTrain_orders _ _ _))
    case driveFault t =>
      show (s.driveFault t).refsRight
      unfold State.driveFault
      split
      · exact refsRight_stall h t
      · exact h
    case loadEvent r => exact refsRight_takeLoadEvent h r
    case quietStand r inQuiet =>
      show (s.quietStand r inQuiet).refsRight
      unfold State.quietStand
      split
      · exact h
      · exact refsRight_same h (updateTrain_orders s r.transporter _)

/-- The references stay right through the work of any event. -/
theorem refsRight_work {s : State} (h : s.refsRight) : (workOff s).refsRight :=
  workOff_keeps (P := State.refsRight) (ok := fun _ => True) (fun _ _ h => refsRight_same h rfl)
    (fun x s _ _ h => ⟨refsRight_anyTask x s h, fun _ _ => trivial⟩) ⟨trivial, trivial, trivial⟩ h fun _ _ => trivial

/-! ### Requests -/

/-- The slot that a new order takes is named by no transporter. -/
theorem freeSlot_unnamed {s : State} (h : s.refsRight) {k : Nat} (hk : s.freeSlot = some k) (u : Nat) : k ∉ (s.orderRefs u).named := by
  intro hn
  obtain ⟨o, ho, -, hl⟩ := h u k hn
  have := List.find?_some hk
  rw [ho] at this
  simp [hl] at this

/-- A new order in a free slot, named by its transporter's references. -/
theorem refsRight_newOrder {s : State} (h : s.refsRight) {k : Nat} (hk : s.freeSlot = some k) (o : Order) (hl : o.live = true) (r : OrderRefs)
    (hr : ∀ m ∈ r.named, m = k ∨ m ∈ (s.orderRefs o.transporter).named) : ((s.setOrder k (some o)).setRefs o.transporter r).refsRight := by
  have h1 := refsRight_setOrder h k o hl fun u hu => absurd hu (freeSlot_unnamed h hk u)
  refine refsRight_setRefs h1 o.transporter r fun m hm => ?_
  rcases hr m hm with rfl | hm
  · exact ⟨o, setOrder_order_same _ _ _, rfl, hl⟩
  · exact h1 o.transporter m hm

theorem takeClaim_orders (s : State) (k t : Nat) (f : Finish) : (s.takeClaim k t f).orders = s.orders := by
  unfold State.takeClaim
  split
  · rfl
  · rfl
  · split <;> rfl

theorem decideSubmission_slot {s : State} {who : Originator} {t : Nat} {kind : OrderKind} {f : Finish} {leg : List Stretch} {k : Nat}
    {route : List RoutePos} (h : s.decideSubmission who t kind f leg = .ok (k, route)) : s.freeSlot = some k := by
  unfold State.decideSubmission at h
  split at h
  · cases h
  · next slot hs =>
    split at h
    · cases h
    · split at h
      · cases h
      · split at h
        · cases h
        · split at h
          · cases h
          · split at h
            · cases h
            · split at h
              · cases h
              · split at h
                · cases h
                · cases h
                  exact hs

theorem decideDivert_slot {s : State} {who : Originator} {t : Nat} {a b : List Stretch} {k : Nat} {out back : List RoutePos} {plan : DivertPlan}
    (h : s.decideDivert who t a b = .ok (k, out, back, plan)) : s.freeSlot = some k := by
  unfold State.decideDivert at h
  split at h
  · cases h
  · next slot hs =>
    split at h
    · cases h
    · split at h
      · cases h
      · split at h
        · cases h
        · split at h
          · cases h
          · split at h
            · cases h
            · dsimp only at h
              split at h
              · cases h
              · split at h
                · cases h
                · split at h <;> cases h
                  exact hs
                · split at h <;> cases h
                  exact hs

theorem answer_orders (s : State) (q : Ask) (o : Outcome) (b : Body) : (s.answer q o b).orders = s.orders := by
  unfold State.answer State.place
  split <;> rfl

theorem refsRight_takeSubmitOrder {s : State} (h : s.refsRight) (q : Ask) (who : Originator) (t : Nat) (kind : OrderKind) (f : Finish)
    (leg : List Stretch) : (s.takeSubmitOrder q who t kind f leg).refsRight := by
  unfold State.takeSubmitOrder
  split
  · exact refsRight_same h (answer_orders _ _ _ _)
  · next k route hd =>
    dsimp only
    have h1 := refsRight_newOrder h (decideSubmission_slot hd) (newOrder t kind f route) rfl { s.orderRefs t with active := some k } fun m hm => by
      simp only [OrderRefs.named, List.mem_append, Option.mem_toList] at hm ⊢
      rcases hm with (hm | hm) | hm
      · cases hm; exact .inl rfl
      · exact .inr (.inl (.inr hm))
      · exact .inr (.inr hm)
    refine refsRight_same h1 ((answer_orders _ _ _ _).trans ?_)
    exact takeClaim_orders _ _ _ _

theorem refsRight_takeDivert {s : State} (h : s.refsRight) (q : Ask) (who : Originator) (t : Nat) (a b : List Stretch) :
    (s.takeDivert q who t a b).refsRight := by
  unfold State.takeDivert
  split
  · exact refsRight_same h (answer_orders _ _ _ _)
  · next k out back place hd =>
    refine refsRight_same (refsRight_startDivert h t k (newRefuge t out back) place fun u hu => ?_) rfl
    exact absurd hu (freeSlot_unnamed h (decideDivert_slot hd) u)
  · next k out back hd =>
    dsimp only
    have h1 := refsRight_newOrder h (decideDivert_slot hd) (newRefuge t out back) rfl { s.orderRefs t with pendingDivert := some k } fun m hm => by
      simp only [OrderRefs.named, List.mem_append, Option.mem_toList] at hm ⊢
      rcases hm with (hm | hm) | hm
      · exact .inr (.inl (.inl hm))
      · exact .inr (.inl (.inr hm))
      · cases hm; exact .inl rfl
    exact refsRight_same h1 (answer_orders _ _ _ _)

theorem dropClaim_orders (s : State) (k : Nat) : (s.dropClaim k).orders = s.orders := rfl

theorem refsRight_beginCancel {s : State} (h : s.refsRight) (q : Ask) (k : Nat) : (s.beginCancel q k).refsRight := by
  unfold State.beginCancel
  split
  · exact h
  · next o ho =>
    dsimp only
    have h1 := refsRight_setOrder h k { o with state := .cancelling } rfl fun u hu => (refsRight_of h ho hu).1
    exact refsRight_same (refsRight_waits (waits_removeHead (i := 0) (n := 0) _ k) h1) rfl

theorem refsRight_takeCancelOrder {s : State} (h : s.refsRight) (q : Ask) (k : Nat) : (s.takeCancelOrder q k).refsRight := by
  have refused : ∀ o b, (s.answer q o b).refsRight := fun o b => refsRight_same h (answer_orders s q o b)
  have refuge : ∀ t, (s.cancelRefuge q k t).refsRight := by
    intro t
    unfold State.cancelRefuge
    dsimp only
    generalize (s.orderRefs t).stack ++ (s.orderRefs t).pendingDivert.toList = l
    have h0 := refsRight_beginCancel h q k
    generalize s.beginCancel q k = u at h0
    induction l generalizing u with
    | nil => exact h0
    | cons x l ih => exact ih _ (refsRight_endOrder h0 x _)
  unfold State.takeCancelOrder
  split
  · exact refused _ _
  · split
    · exact refused _ _
    · dsimp only
      split
      · split
        · exact refused _ _
        · split
          · exact refuge _
          · exact refsRight_beginCancel h q k
      · split
        · exact refused _ _
        · exact refuge _
      · exact refsRight_beginCancel h q k
      · exact refsRight_same (refsRight_endOrder h k _) (answer_orders _ _ _ _)
      · exact refsRight_same (refsRight_waits (waits_makeActiveDue (i := 0) (n := 0) _ _) (refsRight_endOrder h k _)) (answer_orders _ _ _ _)
      · exact refused _ _

theorem refsRight_takeResumeRefuge {s : State} (h : s.refsRight) (q : Ask) (k : Nat) : (s.takeResumeRefuge q k).refsRight := by
  unfold State.takeResumeRefuge
  split
  · exact refsRight_same h (answer_orders _ _ _ _)
  · split
    · exact refsRight_same h (answer_orders _ _ _ _)
    · next o ho =>
      dsimp only
      split
      · exact refsRight_same h (answer_orders _ _ _ _)
      · exact refsRight_same (refsRight_setOrder h k { o with state := .running, resumed := true } rfl fun u hu => (refsRight_of h ho hu).1) rfl

theorem refsRight_endAllOrders {s : State} (h : s.refsRight) (t : Nat) : (s.endAllOrders t).refsRight := by
  unfold State.endAllOrders
  generalize s.liveSlots t = l
  induction l generalizing s with
  | nil => exact h
  | cons k l ih =>
    refine ih ?_
    dsimp only
    refine refsRight_endOrder ?_ k _
    split
    · split
      · exact refsRight_same h (settleTransfer_orders _ _ _ _)
      · exact h
    · exact h

theorem refsRight_moveCursor {s : State} (h : s.refsRight) (t n : Nat) : (s.moveCursor t n).refsRight := by
  unfold State.moveCursor
  split
  · exact h
  · next k o ha =>
    have ho := active_order ha
    have hl := (refsRight_of h ho (active_named ha)).2
    split
    · split
      · exact h
      · next c _ =>
        refine refsRight_same (refsRight_setOrder h k { o with cursor := c, state := if o.state = .dwelling then .running else o.state } ?_ fun u hu =>
          (refsRight_of h ho hu).1) rfl
        unfold Order.live at hl ⊢
        split
        · rfl
        · exact hl
    · exact h

end Sys2Proof.Laws
end

