-- ==== Sys2Proof/Laws/Switches.lean ====
section
/-!
SUPPORT. Laws/Switches.lean: throws queued and withdrawn (R49 to R51, R54), and what a release or a grant leaves in the records (R24, R28, R29).
-/

namespace Sys2Proof.Laws

open Sys2Proof Sys2Proof.Machine

/-- Telling a holder lists a recomputation and changes no record. -/
theorem tellHolder_emit (s : State) (j : Nat) : ∃ l, s.tellHolder j = s.emit l ∧ (∀ t, (s.seg j).holder = some t → l = [.recompute t]) ∧
    ((s.seg j).holder = none → l = []) := by
  unfold State.tellHolder
  cases h : (s.seg j).holder with
  | none => exact ⟨[], by unfold State.emit; simp, by simp, fun _ => rfl⟩
  | some t => exact ⟨_, rfl, by simp, by simp⟩

/-- The withdrawal of a queued throw (R51). -/
theorem withdrawThrow_some {s : State} {j : Nat} {r : JunctionRec} {target : SwitchSetting} {prior : SwitchPosition} {x : Timer}
    (hr : s.junction j = some r) (ho : r.operation = some ⟨.throw target prior, .queued, x⟩) :
    s.withdrawThrow j = (((s.takeBack fun m => decide (outObject m = .junction j)).setJunction j
      (some { r with position := prior, operation := none })).tellHolder j).emit [.throwCheck j, .restDecision j] := by
  unfold State.withdrawThrow
  rw [hr]
  dsimp only
  rw [ho]

theorem withdrawThrow_none {s : State} {j : Nat} {r : JunctionRec}
    (hr : s.junction j = some r) (ho : ∀ target prior x, r.operation ≠ some ⟨.throw target prior, .queued, x⟩) : s.withdrawThrow j = s := by
  unfold State.withdrawThrow
  rw [hr]
  dsimp only
  split
  · next h => exact absurd h (ho _ _ _)
  · rfl

@[simp] theorem withdrawThrow_core (s : State) (j : Nat) : (s.withdrawThrow j).core = s.core := by
  cases hr : s.junction j with
  | none => unfold State.withdrawThrow; rw [hr]
  | some r =>
    by_cases ho : ∀ target prior x, r.operation ≠ some ⟨.throw target prior, .queued, x⟩
    · rw [withdrawThrow_none hr ho]
    · push Not at ho
      obtain ⟨target, prior, x, ho⟩ := ho
      rw [withdrawThrow_some hr ho]
      obtain ⟨l, e, -⟩ := tellHolder_emit ((s.takeBack fun m => decide (outObject m = .junction j)).setJunction j
        (some { r with position := prior, operation := none })) j
      rw [e]; rfl

@[simp] theorem junctionReleased_core (s : State) (j : Nat) : (s.junctionReleased j).core = s.core := by
  unfold State.junctionReleased
  split
  · rw [withdrawThrow_core]; rfl
  · rfl

@[simp] theorem fallBack_core (s : State) (t n : Nat) : (s.fallBack t n).core = s.core := by
  unfold State.fallBack
  (repeat' split) <;> first | rfl | (dsimp only; split <;> rfl)

theorem release_core {s : State} {n t : Nat} (h : (s.seg n).holder = some t) :
    let u := s.setSeg n { s.seg n with holder := none, leaving := false, withdrawing := none }
    (s.release n t).core = (if (s.seg n).withdrawing.isSome then u.settleConfirm t else u).core := by
  dsimp only
  unfold State.release
  dsimp only
  rw [if_neg (by rw [h]; simp)]
  show (if _ then State.raise _ _ _ else State.emit _ _).core = _
  have : ∀ (c : Prop) [Decidable c] (v : State) k l, (if c then v.raise .trackIntrusion k else v.emit l).core = v.core := by
    intro c _ v k l; split <;> rfl
  rw [this, junctionReleased_core, fallBack_core]

/-! ### Throws queued -/

/-- Where a settled position differs from the one a setting proves. -/
theorem stands_iff (p : SwitchPosition) (target : SwitchSetting) : (settled p = true ∧ p ≠ settingPosition target) ↔
    ((p = .normal ∧ target = .reverse) ∨ (p = .reverse ∧ target = .normal) ∨ p = .unknown) := by
  cases p <;> cases target <;> decide

/-- No PROVE stands in a throw's way (R49). -/
theorem proveAllows_iff (op : Option Operation) : proveAllowsThrow op = true ↔
    ∀ origin phase timer, op = some ⟨.prove origin, phase, timer⟩ → origin = .rotation ∧ phase = .queued := by
  cases op with
  | none => simp [proveAllowsThrow]
  | some op =>
    obtain ⟨q, ph, x⟩ := op
    cases q with
    | throw a b => simp [proveAllowsThrow]
    | prove o => cases o <;> cases ph <;> simp [proveAllowsThrow]

/-- A throw queued (R50): the record, the message and the holder told. -/
theorem queueThrow_some {s : State} {j : Nat} {r : JunctionRec} (hr : s.junction j = some r) (target : SwitchSetting) :
    s.queueThrow j target = (((s.rotationEnds r.operation).setJunction j (some
      { r with position := .moving, operation := some ⟨.throw target r.position, .queued, .stopped⟩, untrusted := false, underHolder := false })).handOut
        (.throw j target)).tellHolder j := by
  unfold State.queueThrow
  rw [hr]

/-- The end of a rotation PROVE starts the interval timer and changes nothing else (R55). -/
theorem rotationEnds_same (s : State) (op : Option Operation) : (s.rotationEnds op).wayside = s.wayside ∧ (s.rotationEnds op).guards = s.guards ∧
    (s.rotationEnds op).holdEnding = s.holdEnding ∧ (s.rotationEnds op).core = s.core ∧ (s.rotationEnds op).orders = s.orders ∧
    (s.rotationEnds op).port = s.port ∧ (s.rotationEnds op).agenda = s.agenda ∧
    (isRotation op = true → (s.rotationEnds op).junctions.interval = .running s.port.params.proveInterval) := by
  unfold State.rotationEnds
  split
  · exact ⟨rfl, rfl, rfl, rfl, rfl, rfl, rfl, fun _ => rfl⟩
  · next h => exact ⟨rfl, rfl, rfl, rfl, rfl, rfl, rfl, fun h' => absurd h' h⟩

/-- A commit leaves the prove interval timer. -/
theorem commit_interval (s : State) : s.commit.junctions.interval = s.junctions.interval := by
  unfold State.commit State.transmitted State.operationSent
  dsimp only
  (repeat' split) <;> rfl

/-- Telling a holder changes nothing but the list of work. -/
theorem tellHolder_same (s : State) (j : Nat) : (s.tellHolder j).junctions = s.junctions ∧ (s.tellHolder j).wayside = s.wayside ∧
    (s.tellHolder j).core = s.core ∧ (s.tellHolder j).orders = s.orders ∧ ∀ t, (s.seg j).holder = some t → .recompute t ∈ (s.tellHolder j).agenda := by
  obtain ⟨l, e, h1, -⟩ := tellHolder_emit s j
  rw [e]
  exact ⟨rfl, rfl, rfl, rfl, fun t ht => by rw [h1 t ht]; exact List.mem_append_right _ (by simp)⟩

/-- A commit changes a junction's record only in the phase and the timer of an operation. -/
theorem commit_junction (s : State) (m : Nat) (r' : JunctionRec) (h : s.commit.junction m = some r') :
    ∃ r, s.junction m = some r ∧ r'.operation.isSome = r.operation.isSome ∧ isRotation r'.operation = isRotation r.operation ∧
      r'.position = r.position := by
  have key : ∀ (u : State) (j : Nat), (u.operationSent j).junction m = some r' →
      ∃ r, u.junction m = some r ∧ r'.operation.isSome = r.operation.isSome ∧ isRotation r'.operation = isRotation r.operation ∧
        r'.position = r.position := by
    intro u j hu
    unfold State.operationSent at hu
    split at hu
    · next r hr =>
      split at hu
      · next op hop =>
        rw [setJunction_junction] at hu
        split at hu
        · next e =>
          subst e
          cases hu
          refine ⟨r, hr, by rw [hop]; rfl, ?_, rfl⟩
          rw [hop]
          obtain ⟨q, ph, x⟩ := op
          cases q with
          | throw _ _ => rfl
          | prove o => cases o <;> rfl
        · exact ⟨r', hu, rfl, rfl, rfl⟩
      · exact ⟨r', hu, rfl, rfl, rfl⟩
    · exact ⟨r', hu, rfl, rfl, rfl⟩
  unfold State.commit at h
  split at h
  · exact ⟨r', h, rfl, rfl, rfl⟩
  · split at h
    · exact ⟨r', h, rfl, rfl, rfl⟩
    · unfold State.transmitted at h
      split at h
      · exact key ((s.setOutQueue (eraseFirst s.eligible s.wayside.outQueue)).setTransmitter (.sending _)) _ h
      · exact key ((s.setOutQueue (eraseFirst s.eligible s.wayside.outQueue)).setTransmitter (.sending _)) _ h
      · dsimp only at h
        split at h <;> exact ⟨r', h, rfl, rfl, rfl⟩
      · exact ⟨r', h, rfl, rfl, rfl⟩

/-- A throw queued to rest in a settled state leaves the blocks nothing to do (R54, R55). -/
theorem settled_queueThrow {s : State} (h : s.Settled) (hc : s.canonical) {j : Nat} {r : JunctionRec} (hr : s.junction j = some r) (ho : r.operation = none)
    (hp : settled r.position = true) (hh : (s.seg j).holder = none) (target : SwitchSetting) : (s.queueThrow j target).Settled := by
  have hcalm : Calm s (s.queueThrow j target) := calm_queueThrow s j target fun x hx => by
    rw [hr] at hx
    cases hx
    exact ⟨hp, by rw [ho]; rfl⟩
  have hcal := hcalm.canonical hc
  rw [queueThrow_some hr] at hcal hcalm ⊢
  have e0 : s.rotationEnds r.operation = s := by rw [ho]; rfl
  rw [e0] at hcal hcalm ⊢
  set a := s.setJunction j (some { r with position := .moving, operation := some ⟨.throw target r.position, .queued, .stopped⟩, untrusted := false, underHolder := false }) with ha
  have w := switchWork_handOut a (.throw j target)
  have hhold : ((a.handOut (.throw j target)).seg j).holder = none := by unfold State.seg; rw [w.core]; exact hh
  obtain ⟨l, e, -, e2⟩ := tellHolder_emit (a.handOut (.throw j target)) j
  have e3 : (a.handOut (.throw j target)).tellHolder j = a.handOut (.throw j target) := by
    rw [e, e2 hhold]; unfold State.emit; simp
  rw [e3] at hcal hcalm ⊢
  have sa : SwitchWork s a := ⟨rfl, rfl, rfl, rfl, rfl, rfl, rfl, fun _ h => h⟩
  have sw := sa.trans w
  have hi : (a.handOut (.throw j target)).junctions.interval = s.junctions.interval := commit_interval _
  refine ⟨sw.agenda.trans h.agenda, sw.due.trans h.due, ?_, fun hint hn => ?_⟩
  · rw [List.find?_eq_none]
    intro slot hs hm
    exact List.find?_eq_none.1 h.transfers slot hs (mayTransfer_mono sw.orders (by rw [sw.guards]) sw.polls (couplingSet_le hc sw.coupling) hm)
  · rw [rotationIdle_iff hcal] at hn
    have back : ∀ m r', (a.handOut (.throw j target)).junction m = some r' → ∃ r0, a.junction m = some r0 ∧ r'.operation.isSome = r0.operation.isSome ∧
        isRotation r'.operation = isRotation r0.operation ∧ r'.position = r0.position := fun m r' hm => commit_junction (a.setOutQueue (placeOut a.wayside.outQueue (.throw j target))) m r' hm
    have forth : ∀ m r0, s.junction m = some r0 → ∃ r', (a.handOut (.throw j target)).junction m = some r' := by
      intro m r0 hm
      have := hcalm.stations m
      rw [hm] at this
      cases hx : (a.handOut (.throw j target)).junction m with
      | none => rw [hx] at this; exact this.elim
      | some r' => exact ⟨r', rfl⟩
    have hnone := h.rotation (hi ▸ hint) ((rotationIdle_iff hc).2 fun m r0 hm => by
      obtain ⟨r', hr'⟩ := forth m r0 hm
      obtain ⟨r1, h1, -, h3, -⟩ := back m r' hr'
      by_cases em : m = j
      · subst em
        rw [hr] at hm
        cases hm
        rw [ho]; rfl
      · rw [ha, setJunction_junction, if_neg em, hm] at h1
        cases h1
        rw [← h3]
        exact hn m r' hr')
    rw [rotationNext_none] at hnone ⊢
    intro m r' hm
    obtain ⟨r1, h1, h2, -, h4⟩ := back m r' hm
    by_cases em : m = j
    · subst em
      rw [ha, setJunction_junction_same] at h1
      cases h1
      unfold State.rotationEligible
      have : r'.operation.isNone = false := by
        cases ho' : r'.operation with
        | none => rw [ho'] at h2; cases h2
        | some _ => rfl
      rw [this, Bool.and_false]
    · rw [ha, setJunction_junction, if_neg em] at h1
      have := hnone m r1 h1
      unfold State.rotationEligible at this ⊢
      rw [h4, show r'.operation.isNone = r1.operation.isNone by cases hx : r'.operation <;> cases hy : r1.operation <;> simp_all]
      unfold State.seg at this ⊢
      rw [sw.core]
      exact this

/-! ### Releases and grants -/

/-- A withdrawal of a throw leaves the orders and the Control Port, and serves no segment. -/
theorem withdrawThrow_same (s : State) (j : Nat) : (s.withdrawThrow j).orders = s.orders ∧ (s.withdrawThrow j).port = s.port ∧
    ∃ l, (s.withdrawThrow j).agenda = s.agenda ++ l ∧ ∀ n, .serve n ∉ l := by
  cases hr : s.junction j with
  | none => unfold State.withdrawThrow; rw [hr]; exact ⟨rfl, rfl, [], by simp, by simp⟩
  | some r =>
    by_cases ho : ∀ target prior x, r.operation ≠ some ⟨.throw target prior, .queued, x⟩
    · rw [withdrawThrow_none hr ho]; exact ⟨rfl, rfl, [], by simp, by simp⟩
    · push Not at ho
      obtain ⟨target, prior, x, ho⟩ := ho
      rw [withdrawThrow_some hr ho]
      set a := (s.takeBack fun m => decide (outObject m = .junction j)).setJunction j (some { r with position := prior, operation := none }) with ha
      obtain ⟨l, e, h1, h2⟩ := tellHolder_emit a j
      rw [e]
      refine ⟨rfl, rfl, l ++ [.throwCheck j, .restDecision j], ?_, fun n hn => ?_⟩
      · show (s.agenda ++ l) ++ _ = _
        rw [List.append_assoc]
      · rcases List.mem_append.1 hn with hn | hn
        · cases hh : (a.seg j).holder with
          | none => rw [h2 hh] at hn; cases hn
          | some t => rw [h1 t hh] at hn; simp at hn
        · simp at hn

/-- What the Junction Controller does when told of a release (R28, R53). -/
theorem junctionReleased_same (s : State) (j : Nat) : (s.junctionReleased j).orders = s.orders ∧ (s.junctionReleased j).port = s.port ∧
    (∃ l, (s.junctionReleased j).agenda = s.agenda ++ l ∧ ∀ n, .serve n ∉ l) ∧
    ∀ r, s.junction j = some r → ∃ r', (s.junctionReleased j).junction j = some r' ∧
      r'.hold = (if s.port.params.holdTime = 0 then .expired else .running s.port.params.holdTime) := by
  cases hr : s.junction j with
  | none =>
    unfold State.junctionReleased
    rw [hr]
    exact ⟨rfl, rfl, ⟨[], by simp, by simp⟩, by simp⟩
  | some r =>
    have e : s.junctionReleased j = (s.setJunction j (some { r with
        hold := (if s.port.params.holdTime = 0 then .expired else .running s.port.params.holdTime), underHolder := false })).withdrawThrow j := by
      unfold State.junctionReleased; rw [hr]; rfl
    set a := s.setJunction j (some { r with
        hold := (if s.port.params.holdTime = 0 then .expired else .running s.port.params.holdTime), underHolder := false }) with ha
    obtain ⟨h1, h2, h3⟩ := withdrawThrow_same a j
    have haj : a.junction j = some { r with
        hold := (if s.port.params.holdTime = 0 then .expired else .running s.port.params.holdTime), underHolder := false } := setJunction_junction_same _ _ _
    rw [e]
    refine ⟨h1, h2, h3, fun _ _ => ?_⟩
    by_cases ho : ∀ target prior x, r.operation ≠ some ⟨.throw target prior, .queued, x⟩
    · rw [withdrawThrow_none haj ho]
      exact ⟨_, haj, rfl⟩
    · push Not at ho
      obtain ⟨target, prior, x, ho⟩ := ho
      rw [withdrawThrow_some haj ho]
      refine ⟨{ r with
        hold := (if s.port.params.holdTime = 0 then .expired else .running s.port.params.holdTime), underHolder := false, position := prior, operation := none }, ?_, rfl⟩
      show (State.tellHolder _ j).junction j = _
      unfold State.junction
      rw [(tellHolder_same _ j).1]
      exact setJunction_junction_same _ _ _

/-- What it leaves when told of a grant. -/
theorem junctionGranted_same (s : State) (j : Nat) : (s.junctionGranted j).core = s.core ∧ (s.junctionGranted j).orders = s.orders ∧
    ∃ l, (s.junctionGranted j).agenda = s.agenda ++ l := by
  unfold State.junctionGranted
  split
  · next r _ =>
    dsimp only
    refine ⟨?_, ?_, ?_⟩
    · exact withdrawThrow_core _ j
    · exact (withdrawThrow_same _ j).1
    · have key : ∀ p, ∃ l, (((s.setJunction j p).withdrawThrow j).emit [.throwCheck j]).agenda = s.agenda ++ l := fun p => by
        obtain ⟨l, h, -⟩ := (withdrawThrow_same (s.setJunction j p) j).2.2
        exact ⟨l ++ [.throwCheck j], by
          show (State.withdrawThrow _ j).agenda ++ _ = _
          rw [h, List.append_assoc]; rfl⟩
      exact key _
  · exact ⟨rfl, rfl, [], by simp⟩

/-- A segment granted: its holder, the limit to recompute, and no order changed. -/
theorem grant_same (s : State) (t n : Nat) : (s.grant t n).core = (s.setSeg n { s.seg n with holder := some t }).core ∧ (s.grant t n).orders = s.orders ∧
    ∃ l, (s.grant t n).agenda = s.agenda ++ .recompute t :: l := by
  unfold State.grant
  obtain ⟨h1, h2, l, h3⟩ := junctionGranted_same ((s.setSeg n { s.seg n with holder := some t }).emit [.recompute t]) n
  refine ⟨h1, h2, l, ?_⟩
  rw [h3]
  show (s.agenda ++ [.recompute t]) ++ l = _
  simp

/-- The claim point after a release (R75). -/
theorem fallBack_first {s : State} {t n k : Nat} {o : Order} (ha : s.active t = some (k, o)) {i : Nat} (h1 : i < o.index o.claim - o.index o.cursor)
    (h2 : (o.beyond[i]?).map (·.segment) = some n) (h3 : ∀ i', i' < i → (o.beyond[i']?).map (·.segment) ≠ some n) :
    s.fallBack t n = (s.setOrder k (some { o with claim := o.placeOf (o.index o.cursor + i) })).makeDue k := by
  have e : findPlace (fun x => decide (x.segment = n)) o.beyond = some i := by
    rw [findPlace_some]
    obtain ⟨x, hx, hn⟩ := Option.map_eq_some_iff.1 h2
    refine ⟨⟨x, hx, by simpa using hn⟩, fun j y hj hy => ?_⟩
    have := h3 j hj
    rw [hy] at this
    simpa using this
  unfold State.fallBack
  rw [ha]
  dsimp only
  rw [e]
  dsimp only
  rw [if_pos (by omega)]

/-- A release off the claimed track leaves the claim point. -/
theorem fallBack_off {s : State} {t n k : Nat} {o : Order} (ha : s.active t = some (k, o))
    (h : n ∉ (o.beyond.take (o.index o.claim - o.index o.cursor)).map (·.segment)) : s.fallBack t n = s := by
  unfold State.fallBack
  rw [ha]
  dsimp only
  split
  · rfl
  · next i hi =>
    rw [if_neg]
    intro hlt
    rw [findPlace_some] at hi
    obtain ⟨⟨x, hx, hn⟩, -⟩ := hi
    refine h (List.mem_map.2 ⟨x, ?_, by simpa using hn⟩)
    refine List.mem_of_getElem? (i := i) ?_
    rw [List.getElem?_take, if_pos (by omega), hx]

/-- A fall back changes orders alone. -/
theorem fallBack_same (s : State) (t n : Nat) : (s.fallBack t n).port = s.port ∧ (s.fallBack t n).junctions = s.junctions ∧ (s.fallBack t n).agenda = s.agenda := by
  unfold State.fallBack
  split
  · exact ⟨rfl, rfl, rfl⟩
  · split
    · exact ⟨rfl, rfl, rfl⟩
    · dsimp only
      split <;> exact ⟨rfl, rfl, rfl⟩

/-- The end of a withdrawal changes the confirmation state alone. -/
theorem settleConfirm_same (s : State) (t : Nat) : (s.settleConfirm t).port = s.port ∧ (s.settleConfirm t).junctions = s.junctions ∧
    (s.settleConfirm t).agenda = s.agenda ∧ (s.settleConfirm t).orders = s.orders := by
  unfold State.settleConfirm State.setConfirm
  split
  · split <;> exact ⟨rfl, rfl, rfl, rfl⟩
  · exact ⟨rfl, rfl, rfl, rfl⟩

end Sys2Proof.Laws
end

