-- ==== Sys2Proof/Laws/Standing.lean ====
section
/-!
SUPPORT. Laws/Standing.lean: what the work of an event leaves of the transporters' conditions, and what the Transfer Unit leaves of the Poll Engine.
-/

namespace Sys2Proof.Laws

open Sys2Proof Sys2Proof.Machine

/-! ### The Transfer Unit and the Poll Engine -/

@[simp] theorem commit_polls (s : State) : s.commit.polls = s.polls := by
  unfold State.commit
  split
  · rfl
  · split
    · rfl
    · unfold State.transmitted
      split
      · unfold State.operationSent
        (repeat' split) <;> rfl
      · unfold State.operationSent
        (repeat' split) <;> rfl
      · dsimp only
        split <;> rfl
      · rfl

@[simp] theorem handOut_polls (s : State) (m : OutMessage) : (s.handOut m).polls = s.polls := commit_polls _

@[simp] theorem takeBackUncouple_polls (s : State) (p : Nat) : (s.takeBackUncouple p).polls = s.polls := rfl

@[simp] theorem takeBackCouple_polls (s : State) (p : Nat) : (s.takeBackCouple p).polls = s.polls := rfl

@[simp] theorem placeTelescope_polls (s : State) (x : Nat) (p : Placement) : (s.placeTelescope x p).polls = s.polls := by
  unfold State.placeTelescope
  split <;> rfl

@[simp] theorem changeLoad_polls (s : State) (t : Nat) (l : Load) : (s.changeLoad t l).polls = s.polls := rfl

@[simp] theorem failOrder_polls (s : State) (slot : Nat) (c : FailureCause) : (s.failOrder slot c).polls = s.polls := by
  unfold State.failOrder
  split <;> rfl

@[simp] theorem leaveQueue_polls (s : State) (t n : Nat) : (s.leaveQueue t n).polls = s.polls := by
  unfold State.leaveQueue
  dsimp only
  split
  · split <;> rfl
  · rfl

@[simp] theorem removeHead_polls (s : State) (slot : Nat) : (s.removeHead slot).polls = s.polls := by
  unfold State.removeHead
  split
  · rfl
  · dsimp only
    split
    · exact leaveQueue_polls _ _ _
    · rfl

@[simp] theorem endOrder_polls (s : State) (slot : Nat) (x : OrderOutcome) : (s.endOrder slot x).polls = s.polls := by
  unfold State.endOrder
  have h : ((s.removeHead slot).dropClaim slot).polls = s.polls := removeHead_polls s slot
  dsimp only
  split
  · exact h
  · split <;> exact h

@[simp] theorem settleTransfer_polls (s : State) (p : Nat) (x : TransferRec) (b : Bool) : (s.settleTransfer p x b).polls = s.polls := by
  unfold State.settleTransfer
  dsimp only
  split
  · split
    · exact placeTelescope_polls _ _ _
    · exact placeTelescope_polls _ _ _
  · split <;> rfl

@[simp] theorem failTransfer_polls (s : State) (p : Nat) (x : TransferRec) (b : Bool) (c : FailureCause) :
    (s.failTransfer p x b c).polls = s.polls := by
  unfold State.failTransfer
  rw [failOrder_polls, settleTransfer_polls]

@[simp] theorem completeIfConfirmed_polls (s : State) (p : Nat) (x : TransferRec) : (s.completeIfConfirmed p x).polls = s.polls := by
  unfold State.completeIfConfirmed
  split
  · split
    · unfold State.completeLift
      simp
    · unfold State.completeSetDown
      simp
  · rfl

@[simp] theorem takeLoadEvent_polls (s : State) (r : Report) : (s.takeLoadEvent r).polls = s.polls := by
  unfold State.takeLoadEvent
  split
  · rfl
  · split
    · split
      · unfold State.transferLoadEvent State.transporterConfirms State.transporterFails
        split
        · rfl
        · split <;> simp
        · simp
        · simp
      · unfold State.transporterFails
        simp
    · split
      · rfl
      · unfold State.strayLoadEvent
        dsimp only
        split <;> split <;> simp [State.raise]

/-! ### The stages of a position -/

@[simp] theorem setLeaving_polls (s : State) (ns : List Nat) (n : Nat) : (s.setLeaving ns n).polls = s.polls := by
  have key : ∀ (ns : List Nat) (s : State), (ns.foldl (fun s x => s.setSeg x { s.seg x with leaving := true }) s).polls = s.polls := by
    intro ns
    induction ns with
    | nil => intro s; rfl
    | cons y ns ih => intro s; rw [List.foldl_cons, ih]; rfl
  exact key ns s

theorem marks_overrun (s : State) (t n : Nat) (track : List Nat) : MarksOnly s (s.overrun t n track) := by
  unfold State.overrun
  split
  · exact (marks_unmark s _).trans (marks_settleConfirm _ t)
  · exact .refl s

@[simp] theorem moveCursor_polls (s : State) (t n : Nat) : (s.moveCursor t n).polls = s.polls := by
  unfold State.moveCursor
  split
  · rfl
  · split
    · split <;> rfl
    · rfl

/-! ### Conditions -/

/-- What a task leaves of a transporter's condition: all of it, but for the drive fault of that transporter. -/
theorem standing_runTask (x : Task) (s : State) (i : Nat) (h : x ≠ .driveFault i) :
    ((runTask x s).train i).map (·.condition) = (s.train i).map (·.condition) := by
  by_cases hr : inReport x = false
  · exact (calm_runTask x s hr).standing i
  · cases x <;> first | exact absurd rfl hr | skip
    case progressReport t a b => exact (calm_progressReport s t a b).standing i
    case driveFault t =>
      show ((s.driveFault t).train i).map (·.condition) = _
      have ht : t ≠ i := fun e => h (by rw [e])
      unfold State.driveFault
      split
      · unfold State.stall State.setCondition State.updateTrain
        split
        · show ((State.setTrain _ t _).train i).map _ = _
          rw [setTrain_train, if_neg (Ne.symm ht)]
          rfl
        · rfl
      · rfl
    case loadEvent r =>
      show ((s.takeLoadEvent r).train i).map (·.condition) = _
      unfold State.train
      rw [takeLoadEvent_polls]
    case quietStand r b =>
      show ((s.quietStand r b).train i).map (·.condition) = _
      unfold State.quietStand
      split
      · rfl
      · dsimp only
        rw [emit_train]
        unfold State.updateTrain
        split
        · next y hy =>
          rw [setTrain_train]
          split
          · next e => subst e; rw [hy]; rfl
          · rfl
        · rfl

/-- A transporter for which no drive fault is listed keeps its condition through the work of an event. -/
theorem standing_workOff {s : State} {i : Nat} (h : .driveFault i ∉ s.agenda) :
    ((workOff s).train i).map (·.condition) = (s.train i).map (·.condition) :=
  workOff_keeps (P := fun t => (t.train i).map (·.condition) = (s.train i).map (·.condition)) (ok := fun x => x ≠ .driveFault i)
    (fun _ _ h => h)
    (fun x t hx ha h => ⟨(standing_runTask x t i hx).trans h, fun y hy => by
      rintro rfl
      have := calm_agenda_report ha _ hy
      cases this⟩)
    ⟨by simp, by simp, by simp⟩ rfl (fun x hx e => h (e ▸ hx))

/-- Whatever is listed, a transporter that is not NORMAL keeps its condition through the work of an event. -/
theorem condition_workOff (s : State) (i : Nat) : ConditionKept (s.train i) ((workOff s).train i) := (kept_workOff s).conditions i

end Sys2Proof.Laws
end

