-- ==== Sys2Proof/Laws/Transfers.lean ====
section
/-!
SUPPORT. Laws/Transfers.lean: how a transfer ends: what completing it, and what settling it and failing its order, leave in the records.
-/

namespace Sys2Proof.Laws

open Sys2Proof Sys2Proof.Machine

/-! ### Telescopes, loads and messages -/

theorem placeTelescope_same (s : State) (x : Nat) (p : Placement) :
    (s.placeTelescope x p).transfer.loads = s.transfer.loads ∧ (s.placeTelescope x p).transfer.transfers = s.transfer.transfers ∧
      (s.placeTelescope x p).orders = s.orders ∧ (s.placeTelescope x p).port = s.port ∧ (s.placeTelescope x p).agenda = s.agenda := by
  unfold State.placeTelescope
  split <;> exact ⟨rfl, rfl, rfl, rfl, rfl⟩

theorem placeTelescope_pads (s : State) (x : Nat) : (s.placeTelescope x .unplaced).transfer.pads = s.transfer.pads := rfl

/-- What handing a message out leaves of the Transfer Unit but for a SEATED pad's coupling. -/
theorem commit_transfer (s : State) : s.commit.transfer.telescopes = s.transfer.telescopes ∧ s.commit.transfer.loads = s.transfer.loads ∧
    s.commit.transfer.transfers = s.transfer.transfers ∧
    ∀ p, s.commit.pad p = s.pad p ∨ ((s.pad p).state = .seated ∧ ∃ t, s.commit.pad p = { s.pad p with coupling := .sent, couplingTimer := t }) := by
  unfold State.commit
  split
  · exact ⟨rfl, rfl, rfl, fun _ => .inl rfl⟩
  · split
    · exact ⟨rfl, rfl, rfl, fun _ => .inl rfl⟩
    · unfold State.transmitted
      split
      · unfold State.operationSent
        (repeat' split) <;> exact ⟨rfl, rfl, rfl, fun _ => .inl rfl⟩
      · unfold State.operationSent
        (repeat' split) <;> exact ⟨rfl, rfl, rfl, fun _ => .inl rfl⟩
      · dsimp only
        split
        · next q hq =>
          refine ⟨rfl, rfl, rfl, fun p => ?_⟩
          rw [setPad_pad]
          split
          · next e => subst e; exact .inr ⟨hq, _, rfl⟩
          · exact .inl rfl
        · exact ⟨rfl, rfl, rfl, fun _ => .inl rfl⟩
      · exact ⟨rfl, rfl, rfl, fun _ => .inl rfl⟩

@[simp] theorem commit_orders (s : State) : s.commit.orders = s.orders := (switchWork_commit s).orders

@[simp] theorem commit_port (s : State) : s.commit.port = s.port := (switchWork_commit s).port

/-! ### Ending an order -/

/-- The notice that the end of an order raises (R81). -/
theorem endOrder_notice (s : State) (k : Nat) (x : OrderOutcome) (o : Order) (h : s.order k = some o) :
    (if x = .void then (⟨.divertVoid, o.transporter⟩ : Notice) else ⟨.orderEnded, k⟩) ∈ (s.endOrder k x).port.notices := by
  unfold State.endOrder
  have h0 : ((s.removeHead k).dropClaim k).order k = some { o with head := .none } := by
    show (s.removeHead k).order k = _
    rw [removeHead_order, if_pos rfl, h]; rfl
  dsimp only
  rw [h0]
  dsimp only
  split
  · exact mem_raise _ _ _
  · exact mem_raise _ _ _

/-- Where a record goes when it is reached only through the head of an order. -/
theorem removeHead_transfer (s : State) (k : Nat) : (s.removeHead k).transfer = s.transfer := by
  unfold State.removeHead
  split
  · rfl
  · dsimp only
    split
    · unfold State.leaveQueue
      dsimp only
      split
      · split <;> rfl
      · rfl
    · rfl

theorem endOrder_transfer (s : State) (k : Nat) (x : OrderOutcome) :
    (s.endOrder k x).transfer.telescopes = s.transfer.telescopes ∧ (s.endOrder k x).transfer.loads = s.transfer.loads ∧
      (s.endOrder k x).transfer.transfers = s.transfer.transfers := by
  have h := removeHead_transfer s k
  have h0 : ((s.removeHead k).dropClaim k).transfer.telescopes = s.transfer.telescopes ∧ ((s.removeHead k).dropClaim k).transfer.loads = s.transfer.loads ∧
      ((s.removeHead k).dropClaim k).transfer.transfers = s.transfer.transfers := by
    unfold State.dropClaim
    rw [h]
    exact ⟨rfl, rfl, rfl⟩
  unfold State.endOrder
  dsimp only
  split
  · exact h0
  · split <;> exact h0

/-! ### The ends of a transfer -/

/-- A transfer settled in the touched form (R121). -/
theorem settleTransfer_touched (s : State) (p : Nat) (x : TransferRec) :
    (s.settleTransfer p x true).transferAt p = none ∧ (s.settleTransfer p x true).pad p = (s.pad p).unsettledWith (some x.telescope) ∧
      (∀ q, q ≠ p → (s.settleTransfer p x true).pad q = s.pad q) ∧ (s.settleTransfer p x true).placement x.telescope = .unplaced ∧
      (∀ y, y ≠ x.telescope → (s.settleTransfer p x true).placement y = s.placement y) ∧
      (s.settleTransfer p x true).load x.transporter
        = (if x.transporterHeard = true ∨ s.load x.transporter = some (.telescope x.telescope) then some .unverified else s.load x.transporter) ∧
      (∀ i, i ≠ x.transporter → (s.settleTransfer p x true).load i = s.load i) ∧ (s.settleTransfer p x true).orders = s.orders ∧
      (s.settleTransfer p x true).port = s.port := by
  unfold State.settleTransfer
  dsimp only
  rw [if_pos rfl]
  have hl : (((((s.setTransfer p none).setPad p (((s.setTransfer p none).pad p).unsettledWith (some x.telescope))).takeBackUncouple p).placeTelescope
      x.telescope .unplaced)).load x.transporter = s.load x.transporter := by
    unfold State.load
    rw [(placeTelescope_same _ _ _).1]
    rfl
  have pad : ∀ q, ((((s.setTransfer p none).setPad p (((s.setTransfer p none).pad p).unsettledWith (some x.telescope))).takeBackUncouple p).placeTelescope
      x.telescope .unplaced).pad q = if q = p then (s.pad p).unsettledWith (some x.telescope) else s.pad q := by
    intro q
    unfold State.pad
    rw [placeTelescope_pads]
    exact setPad_pad _ p _ q
  rw [hl]
  split
  · refine ⟨?_, ?_, fun q hq => ?_, ?_, fun y hy => ?_, ?_, fun i hi => ?_, ?_, ?_⟩
    · exact setTransfer_transferAt_same s p none
    · exact (pad p).trans (if_pos rfl)
    · exact (pad q).trans (if_neg hq)
    · exact (placeTelescope_placement _ _ _ _).trans (if_pos rfl)
    · exact (placeTelescope_placement _ _ _ _).trans (if_neg hy)
    · exact setLoad_load_same _ _ _
    · exact (setLoad_load _ _ _ _).trans (if_neg hi)
    · rfl
    · rfl
  · refine ⟨?_, (pad p).trans (if_pos rfl), fun q hq => (pad q).trans (if_neg hq), (placeTelescope_placement _ _ _ _).trans (if_pos rfl), fun y hy =>
      (placeTelescope_placement _ _ _ _).trans (if_neg hy), hl, fun i _ => ?_, rfl, rfl⟩
    · exact setTransfer_transferAt_same s p none
    · rfl

/-- What failing an order leaves, and its record and notice (R80). -/
theorem failOrder_records (s : State) (k : Nat) (c : FailureCause) :
    (s.failOrder k c).transfer = s.transfer ∧ (s.failOrder k c).orders.refs = s.orders.refs ∧ (∀ m, m ≠ k → (s.failOrder k c).order m = s.order m) ∧
      ∀ o, s.order k = some o → (s.failOrder k c).order k = some { o with state := .failed, failure := some c } ∧
        ⟨.orderFailed, k⟩ ∈ (s.failOrder k c).port.notices ∧ (s.failOrder k c).port.notices = insertNotice ⟨.orderFailed, k⟩ s.port.notices := by
  unfold State.failOrder
  split
  · next h => exact ⟨rfl, rfl, fun _ _ => rfl, fun o ho => by rw [h] at ho; cases ho⟩
  · next o h =>
    refine ⟨rfl, rfl, fun m hm => ?_, fun o' ho => ?_⟩
    · rw [emit_order]
      show (s.setOrder k _).order m = _
      rw [setOrder_order, if_neg hm]
    · rw [h] at ho
      cases ho
      refine ⟨?_, mem_raise _ _ _, rfl⟩
      rw [emit_order]
      exact setOrder_order_same _ _ _

/-- A transfer failed in the touched form: R118 and R119. -/
theorem failTransfer_touched (s : State) (p : Nat) (x : TransferRec) (c : FailureCause) :
    (s.failTransfer p x true c).transferAt p = none ∧ (s.failTransfer p x true c).pad p = (s.pad p).unsettledWith (some x.telescope) ∧
      (∀ q, q ≠ p → (s.failTransfer p x true c).pad q = s.pad q) ∧ (s.failTransfer p x true c).placement x.telescope = .unplaced ∧
      (s.failTransfer p x true c).load x.transporter
        = (if x.transporterHeard = true ∨ s.load x.transporter = some (.telescope x.telescope) then some .unverified else s.load x.transporter) ∧
      (∀ i, i ≠ x.transporter → (s.failTransfer p x true c).load i = s.load i) ∧ (∀ m, m ≠ x.order → (s.failTransfer p x true c).order m = s.order m) ∧
      ∀ o, s.order x.order = some o → (s.failTransfer p x true c).order x.order = some { o with state := .failed, failure := some c } ∧
        ⟨.orderFailed, x.order⟩ ∈ (s.failTransfer p x true c).port.notices ∧
        (s.failTransfer p x true c).port.notices = insertNotice ⟨.orderFailed, x.order⟩ s.port.notices := by
  unfold State.failTransfer
  obtain ⟨h1, h2, h3, h4, -, h5, h6, h7, h8⟩ := settleTransfer_touched s p x
  obtain ⟨f1, f2, f3, f4⟩ := failOrder_records (s.settleTransfer p x true) x.order c
  have ho : ∀ m, (s.settleTransfer p x true).order m = s.order m := fun m => by unfold State.order; rw [h7]
  refine ⟨?_, ?_, fun q hq => ?_, ?_, ?_, fun i hi => ?_, fun m hm => (f3 m hm).trans (ho m), fun o hk => ?_⟩
  · unfold State.transferAt; rw [f1]; exact h1
  · unfold State.pad; rw [f1]; exact h2
  · unfold State.pad; rw [f1]; exact h3 q hq
  · unfold State.placement; rw [f1]; exact h4
  · have : ((s.settleTransfer p x true).failOrder x.order c).load x.transporter = (s.settleTransfer p x true).load x.transporter := by
      unfold State.load; rw [f1]
    rw [this, h5]
  · unfold State.load; rw [f1]; exact h6 i hi
  · obtain ⟨g1, g2, g3⟩ := f4 o ((ho _).trans hk)
    exact ⟨g1, g2, by rw [g3, h8]⟩

/-- A LIFT completed (R116). -/
theorem completeLift_records (s : State) (p : Nat) (x : TransferRec) :
    (s.completeLift p x).transferAt p = none ∧ ((s.completeLift p x).pad p).state = .vacant ∧ ((s.completeLift p x).pad p).occupant = none ∧
      ((s.completeLift p x).pad p).claim = none ∧ ((s.completeLift p x).pad p).confTransporter = false ∧
      ((s.completeLift p x).pad p).confStation = false ∧ (s.completeLift p x).placement x.telescope = .onTransporter x.transporter ∧
      (s.completeLift p x).load x.transporter = some (.telescope x.telescope) ∧ (∀ m, m ≠ x.order → (s.completeLift p x).order m = s.order m) ∧
      ∀ o, s.order x.order = some o →
        (s.completeLift p x).order x.order = some { o with head := .none, state := .ended, outcome := some .done, failure := none } ∧
          ⟨.orderEnded, x.order⟩ ∈ (s.completeLift p x).port.notices := by
  unfold State.completeLift
  dsimp only
  set e := ((((s.setTransfer p none).setPad p { (s.setTransfer p none).pad p with
      state := .vacant, occupant := none, claim := none, confTransporter := false, confStation := false }).placeTelescope x.telescope
        (.onTransporter x.transporter)).changeLoad x.transporter (.telescope x.telescope)) with he
  obtain ⟨t1, t2, t3⟩ := endOrder_transfer e x.order .done
  have ho : ∀ m, e.order m = s.order m := by
    intro m
    rw [he]
    show (State.placeTelescope _ _ _).order m = _
    unfold State.order
    rw [(placeTelescope_same _ _ _).2.2.1]
    rfl
  have hp : e.pad p = unmarked x.telescope (.onTransporter x.transporter) { s.pad p with
      state := .vacant, occupant := none, claim := none, confTransporter := false, confStation := false } := by
    rw [he]
    show (State.placeTelescope _ _ _).pad p = _
    rw [placeTelescope_pad, setPad_pad_same]
    rfl
  have hw : (e.pad p).withoutClaim x.order = e.pad p := withoutClaim_other (by rw [hp, (unmarked_fields _ _ _).2.2]; simp)
  have hpad : (e.endOrder x.order .done).pad p = e.pad p := (endOrder_pad e x.order p .done).trans hw
  refine ⟨?_, ?_, ?_, ?_, ?_, ?_, ?_, ?_, fun m hm => ?_, fun o hk => ?_⟩
  · unfold State.transferAt
    rw [t3, he]
    show Table.get none (State.placeTelescope _ _ _).transfer.transfers p = none
    rw [(placeTelescope_same _ _ _).2.1]
    exact setTransfer_transferAt_same s p none
  · rw [hpad, hp, (unmarked_fields _ _ _).2.1]
  · rw [hpad, hp]; unfold unmarked; split <;> rfl
  · rw [hpad, hp, (unmarked_fields _ _ _).2.2]
  · rw [hpad, hp]; unfold unmarked; split <;> rfl
  · rw [hpad, hp]; unfold unmarked; split <;> rfl
  · unfold State.placement
    rw [t1, he]
    exact (placeTelescope_placement _ _ _ _).trans (if_pos rfl)
  · unfold State.load
    rw [t2, he]
    exact setLoad_load_same _ _ _
  · rw [endOrder_order, if_neg hm, ho]
  · refine ⟨by rw [endOrder_order, if_pos rfl, ho, hk]; rfl, ?_⟩
    have := endOrder_notice e x.order .done o ((ho _).trans hk)
    simpa using this

/-- A SET-DOWN completed (R117). -/
theorem completeSetDown_records (s : State) (p : Nat) (x : TransferRec) :
    (s.completeSetDown p x).transferAt p = none ∧ ((s.completeSetDown p x).pad p).state = .seated ∧
      ((s.completeSetDown p x).pad p).occupant = some x.telescope ∧ ((s.completeSetDown p x).pad p).expected = none ∧
      ((s.completeSetDown p x).pad p).claim = none ∧ ((s.completeSetDown p x).pad p).confTransporter = false ∧
      ((s.completeSetDown p x).pad p).confStation = false ∧ ((s.completeSetDown p x).pad p).coupling ≠ .none ∧
      (s.completeSetDown p x).placement x.telescope = .onPad p ∧ (s.completeSetDown p x).load x.transporter = some .none ∧
      (∀ m, m ≠ x.order → (s.completeSetDown p x).order m = s.order m) ∧
      ∀ o, s.order x.order = some o →
        (s.completeSetDown p x).order x.order = some { o with head := .none, state := .ended, outcome := some .done, failure := none } ∧
          ⟨.orderEnded, x.order⟩ ∈ (s.completeSetDown p x).port.notices := by
  unfold State.completeSetDown
  dsimp only
  set e := ((((s.setTransfer p none).setPad p { (s.setTransfer p none).pad p with
      state := .seated, occupant := some x.telescope, expected := none, claim := none
      confTransporter := false, confStation := false, coupling := .queued }).placeTelescope x.telescope
        (.onPad p)).changeLoad x.transporter .none) with he
  have he' : e.handOut (.couple p) = (e.setOutQueue (placeOut e.wayside.outQueue (.couple p))).commit := rfl
  set f := e.setOutQueue (placeOut e.wayside.outQueue (.couple p)) with hf
  obtain ⟨c1, c2, c3, c4⟩ := commit_transfer f
  rw [he']
  obtain ⟨t1, t2, t3⟩ := endOrder_transfer f.commit x.order .done
  have ho : ∀ m, f.commit.order m = s.order m := by
    intro m
    have h1 : f.orders = s.orders := by
      rw [hf, he]
      show (State.placeTelescope _ _ _).orders = _
      rw [(placeTelescope_same _ _ _).2.2.1]
      rfl
    unfold State.order
    rw [commit_orders, h1]
  have hp : f.pad p = unmarked x.telescope (.onPad p) { s.pad p with
      state := .seated, occupant := some x.telescope, expected := none, claim := none
      confTransporter := false, confStation := false, coupling := .queued } := by
    rw [hf, he]
    show (State.placeTelescope _ _ _).pad p = _
    rw [placeTelescope_pad, setPad_pad_same]
    rfl
  have hc : f.commit.pad p = f.pad p ∨ ∃ t, f.commit.pad p = { f.pad p with coupling := .sent, couplingTimer := t } :=
    (c4 p).imp_right And.right
  have facts : (f.commit.pad p).state = .seated ∧ (f.commit.pad p).occupant = some x.telescope ∧ (f.commit.pad p).expected = none ∧
      (f.commit.pad p).claim = none ∧ (f.commit.pad p).confTransporter = false ∧ (f.commit.pad p).confStation = false ∧
      (f.commit.pad p).coupling ≠ .none := by
    rcases hc with h | ⟨t, h⟩ <;> rw [h, hp] <;> unfold unmarked <;> split <;> simp
  have hw : (f.commit.pad p).withoutClaim x.order = f.commit.pad p := withoutClaim_other (by rw [facts.2.2.2.1]; simp)
  have hpad : (f.commit.endOrder x.order .done).pad p = f.commit.pad p := (endOrder_pad _ x.order p .done).trans hw
  rw [hpad]
  obtain ⟨a1, a2, a3, a4, a5, a6, a7⟩ := facts
  refine ⟨?_, a1, a2, a3, a4, a5, a6, a7, ?_, ?_, fun m hm => ?_, fun o hk => ?_⟩
  · unfold State.transferAt
    rw [t3, c3, hf, he]
    show Table.get none (State.placeTelescope _ _ _).transfer.transfers p = none
    rw [(placeTelescope_same _ _ _).2.1]
    exact setTransfer_transferAt_same s p none
  · unfold State.placement
    rw [t1, c1, hf, he]
    exact (placeTelescope_placement _ _ _ _).trans (if_pos rfl)
  · unfold State.load
    rw [t2, c2, hf, he]
    exact setLoad_load_same _ _ _
  · rw [endOrder_order, if_neg hm, ho]
  · refine ⟨by rw [endOrder_order, if_pos rfl, ho, hk]; rfl, ?_⟩
    have := endOrder_notice f.commit x.order .done o ((ho _).trans hk)
    simpa using this

/-! ### Load events -/

/-- Where an event of a transfer is not the one its phase awaits, the transfer fails (R114, R119). -/
theorem takeLoadEvent_transfer {s : State} {r : Report} {p : Nat} {x : TransferRec} (hl : r.load ≠ .none) (hx : s.transferOf r.transporter = some (p, x)) :
    let due := r.atRest = true ∧ r.position = (s.pad p).access ∧
        ((x.phase = .lifting ∧ r.load = .loaded x.telescope) ∨ (x.phase = .setting ∧ r.load = .set))
    (due → s.takeLoadEvent r = (s.setTransfer p (some { x with transporterHeard := true })).transporterConfirms p { x with transporterHeard := true }) ∧
      (¬due → s.takeLoadEvent r = s.transporterFails p x) := by
  dsimp only
  unfold State.takeLoadEvent
  rw [if_neg hl, hx]
  dsimp only
  by_cases h : r.atRest = true ∧ r.position = (s.pad p).access
  · rw [if_pos h]
    unfold State.transferLoadEvent
    refine ⟨fun hd => ?_, fun hd => ?_⟩
    · rcases hd.2.2 with ⟨h1, h2⟩ | ⟨h1, h2⟩
      · rw [h1, h2]; simp
      · rw [h1, h2]
    · have hn : ¬((x.phase = .lifting ∧ r.load = .loaded x.telescope) ∨ (x.phase = .setting ∧ r.load = .set)) := fun e => hd ⟨h.1, h.2, e⟩
      cases h1 : x.phase <;> cases h2 : r.load <;> simp_all
  · rw [if_neg h]
    exact ⟨fun hd => absurd ⟨hd.1, hd.2.1⟩ h, fun _ => rfl⟩

/-- The transfer found for a transporter is one of its own. -/
theorem transferOf_transporter {s : State} {i p : Nat} {x : TransferRec} (h : s.transferOf i = some (p, x)) : x.transporter = i := by
  unfold State.transferOf at h
  obtain ⟨e, -, he⟩ := List.exists_of_findSome?_eq_some h
  split at he
  · split at he
    · cases he; assumption
    · cases he
  · cases he

/-- The INBOUND pads that a live order of a transporter claims. -/
theorem inboundClaim_iff {s : State} (hc : s.canonical) (i : Nat) :
    let claims : Nat → Prop := fun q => (s.pad q).state = .inbound ∧
        ∃ k o, (s.pad q).claim = some k ∧ s.order k = some o ∧ o.transporter = i ∧ o.state ≠ .ended
    ((∀ q, ¬claims q) → s.inboundClaim i = none) ∧ (∀ q, s.inboundClaim i = some q → claims q) ∧
      ∀ q, claims q → s.inboundClaim i ≠ none := by
  dsimp only
  have hw := hc.2.2.2.2.2.2.1
  have hget : ∀ e ∈ s.transfer.pads, s.pad e.1 = e.2 := fun e he => get_of_mem ((wf_iff _ _).1 hw) he
  have htest : ∀ e ∈ s.transfer.pads, (decide (e.2.state = .inbound) && (e.2.claim.any fun slot =>
    match s.order slot with
    | some o => decide (o.transporter = i) && o.live
    | none => false)) = true ↔ ((s.pad e.1).state = .inbound ∧
        ∃ k o, (s.pad e.1).claim = some k ∧ s.order k = some o ∧ o.transporter = i ∧ o.state ≠ .ended) := by
    intro e he
    rw [hget e he, Bool.and_eq_true, decide_eq_true_eq]
    refine and_congr_right fun _ => ?_
    cases e.2.claim with
    | none => simp
    | some k =>
      simp only [Option.any_some, Option.some.injEq, existsAndEq]
      cases s.order k with
      | none => simp
      | some o => simp [Order.live]
  have hmem : ∀ q, ((s.pad q).state = .inbound ∧
        ∃ k o, (s.pad q).claim = some k ∧ s.order k = some o ∧ o.transporter = i ∧ o.state ≠ .ended) → ∃ e ∈ s.transfer.pads, e.1 = q := by
    rintro q ⟨h1, -⟩
    refine ⟨_, mem_of_get (d := PadRec.undeclared) (k := q) ?_, rfl⟩
    show s.pad q ≠ _
    intro e
    rw [e] at h1
    cases h1
  unfold State.inboundClaim
  refine ⟨fun h => ?_, fun q h => ?_, fun q h => ?_⟩
  · rw [Option.map_eq_none_iff, List.find?_eq_none]
    intro e he ht
    exact h _ ((htest e he).1 ht)
  · obtain ⟨e, he, rfl⟩ := Option.map_eq_some_iff.1 h
    exact (htest e (List.mem_of_find?_eq_some he)).1 (by simpa using List.find?_some (p := fun (e : Nat × PadRec) => decide (e.2.state = .inbound) && (e.2.claim.any fun slot => match s.order slot with | some o => decide (o.transporter = i) && o.live | none => false)) he)
  · intro e
    rw [Option.map_eq_none_iff, List.find?_eq_none] at e
    obtain ⟨x, hx, rfl⟩ := hmem q h
    exact e x hx ((htest x hx).2 h)

/-! ### The orders of transfers through the work that follows -/

/-- The order of a failed transfer stays FAILED through the work that follows, and so does an INBOUND pad that it claims. -/
theorem failed_workOff {e : State} {k : Nat} {o : Order} (hr : e.refsRight) (ha : ∀ x ∈ e.agenda, apart o.transporter x)
    (hs : e.startingDivert o.transporter = none) (hk : (e.orderRefs o.transporter).active = some k) (ho : e.order k = some o) (hf : o.state = .failed) :
    Stays k o (workOff e) ∧ ∀ p, (e.pad p).claim = some k → (workOff e).pad p = e.pad p ∨ (e.pad p).state = .seated := by
  have h := undisturbed_workOff hr ha hs (fun a x hx => ?_) (k := k) (by unfold OrderRefs.named; rw [hk]; simp) ho (by rw [hf]; simp)
  · exact h.2
  · unfold State.active at hx
    rw [hk] at hx
    dsimp only at hx
    rw [ho] at hx
    cases hx
    rw [hf]; simp

/-- What a failed transfer leaves of the orders and of the work listed. -/
theorem failTransfer_orders (s : State) (p : Nat) (x : TransferRec) (touched : Bool) (c : FailureCause) (o : Order) (ho : s.order x.order = some o) :
    (s.failTransfer p x touched c).order x.order = some { o with state := .failed, failure := some c } ∧
      (∀ m, m ≠ x.order → (s.failTransfer p x touched c).order m = s.order m) ∧ (s.failTransfer p x touched c).orders.refs = s.orders.refs ∧
      ∀ y ∈ (s.failTransfer p x touched c).agenda, y ∈ s.agenda ∨ (∃ t, y = .recompute t) ∨ ∃ t, y = .reviewJunctions t := by
  have hs : (s.settleTransfer p x touched).orders = s.orders ∧ ∀ y ∈ (s.settleTransfer p x touched).agenda, y ∈ s.agenda ∨ ∃ t, y = .recompute t := by
    unfold State.settleTransfer
    dsimp only
    split
    · have h0 : ((((s.setTransfer p none).setPad p (((s.setTransfer p none).pad p).unsettledWith (some x.telescope))).takeBackUncouple p).placeTelescope
          x.telescope .unplaced).orders = s.orders := (placeTelescope_same _ _ _).2.2.1
      have h1 : ((((s.setTransfer p none).setPad p (((s.setTransfer p none).pad p).unsettledWith (some x.telescope))).takeBackUncouple p).placeTelescope
          x.telescope .unplaced).agenda = s.agenda := (placeTelescope_same _ _ _).2.2.2.2
      split
      · refine ⟨h0, fun y hy => ?_⟩
        unfold State.changeLoad at hy
        rcases List.mem_append.1 hy with hy | hy
        · exact .inl (h1 ▸ hy)
        · exact .inr ⟨_, by simpa using hy⟩
      · exact ⟨h0, fun y hy => .inl (h1 ▸ hy)⟩
    · split
      · exact ⟨rfl, fun y hy => .inl hy⟩
      · exact ⟨rfl, fun y hy => .inl hy⟩
  obtain ⟨f1, f2, f3, f4⟩ := failOrder_records (s.settleTransfer p x touched) x.order c
  have hord : ∀ m, (s.settleTransfer p x touched).order m = s.order m := fun m => by unfold State.order; rw [hs.1]
  refine ⟨(f4 o ((hord _).trans ho)).1, fun m hm => (f3 m hm).trans (hord m), f2.trans (by rw [hs.1]), fun y hy => ?_⟩
  unfold State.failTransfer State.failOrder at hy
  rw [hord, ho] at hy
  rcases List.mem_append.1 hy with hy | hy
  · rcases hs.2 y hy with h | h
    · exact .inl h
    · exact .inr (.inl h)
  · simp at hy
    rcases hy with rfl | rfl
    · exact .inr (.inl ⟨_, rfl⟩)
    · exact .inr (.inr ⟨_, rfl⟩)

/-- A transfer failed in the untouched form: R121. -/
theorem failTransfer_untouched (s : State) (p : Nat) (x : TransferRec) (c : FailureCause) :
    (s.failTransfer p x false c).transfer.loads = s.transfer.loads ∧ (x.kind = .setDown → ∀ q, (s.failTransfer p x false c).pad q = s.pad q) := by
  have h := (failOrder_records (s.settleTransfer p x false) x.order c).1
  unfold State.failTransfer
  have e : ∀ q, ((s.settleTransfer p x false).failOrder x.order c).pad q = (s.settleTransfer p x false).pad q := fun q => by unfold State.pad; rw [h]
  rw [h]
  refine ⟨?_, fun hk q => ?_⟩
  · unfold State.settleTransfer
    dsimp only
    rw [if_neg (by simp)]
    split <;> rfl
  · rw [e]
    unfold State.settleTransfer
    dsimp only
    rw [if_neg (by simp), hk]
    rfl

/-- The work that follows a failed transfer leaves its order FAILED. -/
theorem failing_event {s e : State} {k : Nat} {o : Order} {c : FailureCause} (hr : s.refsRight) (ha : s.agenda = []) (ho : s.order k = some o)
    (hk : (s.orderRefs o.transporter).active = some k) (hsd : s.startingDivert o.transporter = none)
    (e1 : e.order k = some { o with state := .failed, failure := some c }) (e2 : ∀ m, m ≠ k → e.order m = s.order m) (e3 : e.orders.refs = s.orders.refs)
    (e4 : ∀ y ∈ e.agenda, y ∈ s.agenda ∨ (∃ t, y = .recompute t) ∨ ∃ t, y = .reviewJunctions t) :
    (∃ o', (workOff e).order k = some o' ∧ o' = { o with state := .failed, failure := some c, claim := o'.claim, head := o'.head }) ∧
      ∀ p, (e.pad p).claim = some k → (workOff e).pad p = e.pad p ∨ (e.pad p).state = .seated := by
  have hrr : e.refsRight := by
    have := refsRight_setOrder hr k { o with state := .failed, failure := some c } rfl (fun u hu => (refsRight_of hr ho hu).1)
    intro u m hm
    have hm' : m ∈ ((s.setOrder k (some { o with state := .failed, failure := some c })).orderRefs u).named := by
      unfold State.orderRefs at hm ⊢; rw [e3] at hm; exact hm
    obtain ⟨y, hy, h1, h2⟩ := this u m hm'
    refine ⟨y, ?_, h1, h2⟩
    by_cases hmk : m = k
    · subst hmk; rw [e1]; rw [setOrder_order_same] at hy; exact hy
    · rw [e2 m hmk]; rw [setOrder_order, if_neg hmk] at hy; exact hy
  have hsd' : e.startingDivert o.transporter = none := by
    unfold State.startingDivert at hsd ⊢
    rw [List.find?_eq_none] at hsd ⊢
    intro m hm
    by_cases hmk : m = k
    · subst hmk; rw [e1]; simp
    · rw [e2 m hmk]; exact hsd m hm
  have hag : ∀ y ∈ e.agenda, apart o.transporter y := by
    intro y hy
    rcases e4 y hy with h | ⟨t, rfl⟩ | ⟨t, rfl⟩
    · rw [ha] at h; cases h
    · exact ⟨rfl, by simp, by simp⟩
    · exact ⟨rfl, by simp, by simp⟩
  have := failed_workOff (e := e) (k := k) (o := { o with state := .failed, failure := some c }) hrr hag hsd' (by unfold State.orderRefs at hk ⊢; rw [e3]; exact hk) e1 rfl
  obtain ⟨o', h1, h2⟩ := this.1.spec
  exact ⟨⟨o', h1, h2⟩, this.2⟩

/-- The event of a PAD-EVENT at the head of the in-queue. -/
theorem padEvent_run {s : State} {p : Nat} {v : PadEventValue} {rest : List InMessage} (hq : s.wayside.inQueue = .padEvent p v :: rest) :
    s.headPadEvent = (s.setInQueue rest).takePadEvent p v := by
  unfold State.headPadEvent
  rw [hq]
  show s.popMessage.takePadEvent p v = _
  unfold State.popMessage
  rw [hq]
  rfl

/-- What the end of a transfer's order leaves for the work that follows. -/
theorem ended_event {e : State} {k : Nat} {o : Order} (hr : e.refsRight) (hn : noReport e) (ho : e.order k = some o) (hst : o.state = .ended) :
    ∃ o', (workOff e).order k = some o' ∧ o' = { o with claim := o'.claim, head := o'.head } := (ended_stays hr hn ho hst).spec

end Sys2Proof.Laws
end

