-- ==== Sys2Proof/Laws/Parting.lean ====
section
/-!
SUPPORT. Laws/Parting.lean: a transporter without orders gains no segment and no place in a queue by an event's work, and what is listed to be done is
done where the work comes to its end.
-/

namespace Sys2Proof.Laws

open Sys2Proof Sys2Proof.Machine

variable {i : Nat} {K : Nat → Prop}

/-! ### What is listed is done -/

/-- A task listed is done, and what it leaves is kept, where the work comes to its end. -/
theorem settle_done {P Q : State → Prop} {ok : Task → Prop} (aside : ∀ s l, P s → P { s with agenda := l })
    (asideQ : ∀ s l, Q s → Q { s with agenda := l })
    (run : ∀ x s, ok x → s.agenda = [] → P s → P (runTask x s) ∧ ∀ y ∈ (runTask x s).agenda, ok y)
    (keep : ∀ x s, ok x → s.agenda = [] → P s → Q s → Q (runTask x s)) {z : Task} (hit : ∀ s, s.agenda = [] → P s → Q (runTask z s))
    (m : Nat) (s : State) (h : P s) (ha : ∀ x ∈ s.agenda, ok x) (hz : z ∈ s.agenda ∨ Q s) (hend : (settle m s).agenda = []) : Q (settle m s) := by
  induction m generalizing s with
  | zero =>
    rcases hz with hz | hz
    · rw [show s.agenda = [] from hend] at hz; cases hz
    · exact hz
  | succ m ih =>
    cases hs : s.agenda with
    | nil =>
      rw [settle_nil _ hs]
      rcases hz with hz | hz
      · rw [hs] at hz; cases hz
      · exact hz
    | cons x rest =>
      rw [settle_cons m hs] at hend ⊢
      rw [settleOne_cons hs rfl] at hend ⊢
      have hokx : ok x := ha x (hs ▸ List.mem_cons_self)
      have hx := run x { s with agenda := [] } hokx rfl (aside s [] h)
      refine ih _ (aside _ _ hx.1) (fun y hy => ?_) ?_ hend
      · rcases List.mem_append.1 hy with hy | hy
        · exact hx.2 y hy
        · exact ha y (hs ▸ List.mem_cons_of_mem _ hy)
      · rcases hz with hz | hz
        · rw [hs] at hz
          rcases List.mem_cons.1 hz with rfl | hz
          · exact .inr (asideQ _ _ (hit _ rfl (aside s [] h)))
          · exact .inl (List.mem_append_right _ hz)
        · exact .inr (asideQ _ _ (keep x _ hokx rfl (aside s [] h) (asideQ s [] hz)))

/-! ### What work leaves of a transporter without orders -/

/-- Transporter `i` gains no segment and no place in a queue, and no head of an order of `K` comes to wait anywhere or to be claimed for. -/
structure Yields (i : Nat) (K : Nat → Prop) (s t : State) : Prop where
  holders : ∀ m, (t.seg m).holder = some i → (s.seg m).holder = some i
  queues : ∀ m, i ∈ (t.seg m).queue → i ∈ (s.seg m).queue
  heads : ∀ k m, K k → t.waitsAt k m = true → s.waitsAt k m = true
  agenda : ∀ x ∈ t.agenda, x ∈ s.agenda ∨ ∀ k, K k → x ≠ .claim k

theorem Yields.refl (s : State) : Yields i K s s := ⟨fun _ h => h, fun _ h => h, fun _ _ _ h => h, fun _ h => .inl h⟩

theorem Yields.trans {a b c : State} (h1 : Yields i K a b) (h2 : Yields i K b c) : Yields i K a c :=
  ⟨fun m h => h1.holders m (h2.holders m h), fun m h => h1.queues m (h2.queues m h), fun k m hk h => h1.heads k m hk (h2.heads k m hk h)
  , fun x hx => (h2.agenda x hx).elim (h1.agenda x) .inr⟩

theorem Yields.foldl {α : Type} {f : State → α → State} (h : ∀ s x, Yields i K s (f s x)) (l : List α) (s : State) : Yields i K s (l.foldl f s) := by
  induction l generalizing s with
  | nil => exact .refl s
  | cons x rest ih => exact (h s x).trans (ih _)

theorem yields_ite {s : State} {p : Prop} [Decidable p] {a b : State} (ha : p → Yields i K s a) (hb : ¬p → Yields i K s b) :
    Yields i K s (if p then a else b) := by
  split
  · exact ha ‹_›
  · exact hb ‹_›

/-! ### The writes -/

theorem waitsAt_same {s t : State} (h1 : t.core.waiting = s.core.waiting) (h2 : t.guards.fenced = s.guards.fenced)
    (h3 : ∀ j, (t.junction j).map (·.waiters) = (s.junction j).map (·.waiters)) (k m : Nat) : t.waitsAt k m = s.waitsAt k m := by
  unfold State.waitsAt
  rw [h1, h2]
  congr 1
  have := h3 m
  cases hs : s.junction m <;> cases ht : t.junction m <;> rw [hs, ht] at this <;> simp at this ⊢
  rw [this]

/-- A write that reaches neither the segments nor a list on which heads wait. -/
theorem yields_aside {s t : State} (h1 : t.core.segs = s.core.segs) (h2 : t.core.waiting = s.core.waiting) (h3 : t.guards.fenced = s.guards.fenced)
    (h4 : ∀ j, (t.junction j).map (·.waiters) = (s.junction j).map (·.waiters)) (h5 : t.agenda = s.agenda) : Yields i K s t := by
  have e : ∀ m, t.seg m = s.seg m := fun m => by unfold State.seg; rw [h1]
  exact ⟨fun m h => (by rw [← e]; exact h), fun m h => (by rw [← e]; exact h), fun k m _ h => (by rw [← waitsAt_same h2 h3 h4]; exact h),
    fun x hx => .inl (h5 ▸ hx)⟩

theorem yields_emit (s : State) {xs : List Task} (h : ∀ x ∈ xs, ∀ k, K k → x ≠ .claim k) : Yields i K s (s.emit xs) :=
  ⟨fun _ h => h, fun _ h => h, fun _ _ _ h => h, fun x hx => (List.mem_append.1 hx).imp_right (h x)⟩

theorem yields_emit_map {α : Type} (s : State) (l : List α) (f : α → Task) (h : ∀ x k, f x ≠ .claim k) : Yields i K s (s.emit (l.map f)) :=
  yields_emit s fun x hx k _ => by
    obtain ⟨y, -, rfl⟩ := List.mem_map.1 hx
    exact h y k

theorem yields_setSeg (s : State) (m : Nat) {r : SegDyn} (h1 : r.holder = some i → (s.seg m).holder = some i)
    (h2 : i ∈ r.queue → i ∈ (s.seg m).queue) : Yields i K s (s.setSeg m r) :=
  { Yields.refl (i := i) (K := K) s with
    holders := fun j h => by
      rw [setSeg_seg] at h
      split at h
      · next e => subst e; exact h1 h
      · exact h
    queues := fun j h => by
      rw [setSeg_seg] at h
      split at h
      · next e => subst e; exact h2 h
      · exact h }

theorem yields_setSeg_same (s : State) (m : Nat) {r : SegDyn} (h1 : r.holder = (s.seg m).holder) (h2 : r.queue = (s.seg m).queue) :
    Yields i K s (s.setSeg m r) := yields_setSeg s m (fun h => h1 ▸ h) (fun h => h2 ▸ h)

theorem yields_setTransfer (s : State) (p : Nat) (x : Option TransferRec) : Yields i K s (s.setTransfer p x) :=
  yields_aside rfl rfl rfl (fun _ => rfl) rfl

theorem yields_setOrder (s : State) (k : Nat) (o : Option Order) : Yields i K s (s.setOrder k o) := yields_aside rfl rfl rfl (fun _ => rfl) rfl

theorem yields_setRefs (s : State) (t : Nat) (r : OrderRefs) : Yields i K s (s.setRefs t r) := yields_aside rfl rfl rfl (fun _ => rfl) rfl

theorem yields_setPad (s : State) (p : Nat) (r : PadRec) : Yields i K s (s.setPad p r) := yields_aside rfl rfl rfl (fun _ => rfl) rfl

theorem yields_setJunction {s : State} {j : Nat} {r r' : JunctionRec} (hr : s.junction j = some r) (h : r'.waiters = r.waiters) :
    Yields i K s (s.setJunction j (some r')) :=
  yields_aside rfl rfl rfl (fun m => by
    rw [setJunction_junction]
    split
    · next e => subst e; rw [hr]; simp [h]
    · rfl) rfl

theorem yields_makeDue (s : State) (k : Nat) : Yields i K s (s.makeDue k) := yields_aside rfl rfl rfl (fun _ => rfl) rfl

theorem yields_raise (s : State) (k : NoticeKind) (m : Nat) : Yields i K s (s.raise k m) := yields_aside rfl rfl rfl (fun _ => rfl) rfl

theorem yields_setOutQueue (s : State) (q : List OutMessage) : Yields i K s (s.setOutQueue q) := yields_aside rfl rfl rfl (fun _ => rfl) rfl

/-! ### The out-queue and the Junction Controller -/

theorem yields_operationSent (s : State) (j : Nat) : Yields i K s (s.operationSent j) := by
  unfold State.operationSent
  split
  · next r hr =>
    split
    · exact yields_setJunction hr (by rfl)
    · exact .refl s
  · exact .refl s

theorem yields_commit (s : State) : Yields i K s s.commit := by
  unfold State.commit
  split
  · exact .refl s
  · split
    · exact .refl s
    · next m _ =>
      refine Yields.trans (b := (s.setOutQueue (eraseFirst s.eligible s.wayside.outQueue)).setTransmitter (.sending m))
        (yields_aside rfl rfl rfl (fun _ => rfl) rfl) ?_
      generalize (s.setOutQueue (eraseFirst s.eligible s.wayside.outQueue)).setTransmitter (.sending m) = u
      cases m with
      | throw j _ => exact yields_operationSent u j
      | prove j => exact yields_operationSent u j
      | couple p => exact yields_ite (fun _ => yields_setPad u p _) (fun _ => .refl u)
      | uncouple p => exact .refl u

theorem yields_handOut (s : State) (m : OutMessage) : Yields i K s (s.handOut m) := (yields_setOutQueue s _).trans (yields_commit _)

theorem yields_takeBack (s : State) (p : OutMessage → Bool) : Yields i K s (s.takeBack p) := yields_setOutQueue s _

theorem yields_tellHolder (s : State) (j : Nat) : Yields i K s (s.tellHolder j) := by
  unfold State.tellHolder
  split
  · exact yields_emit s (by simp)
  · exact .refl s

theorem yields_rotationEnds (s : State) (op : Option Operation) : Yields i K s (s.rotationEnds op) :=
  yields_ite (fun _ => yields_aside rfl rfl rfl (fun _ => rfl) rfl) (fun _ => .refl s)

theorem yields_queueThrow (s : State) (j : Nat) (target : SwitchSetting) : Yields i K s (s.queueThrow j target) := by
  unfold State.queueThrow
  split
  · exact .refl s
  · next r hr =>
    have hr' : (s.rotationEnds r.operation).junction j = some r := by
      unfold State.rotationEnds
      split <;> exact hr
    exact (((yields_rotationEnds s _).trans (yields_setJunction hr' (by rfl))).trans (yields_handOut _ _)).trans (yields_tellHolder _ _)

theorem yields_throwCheck (s : State) (j : Nat) : Yields i K s (s.throwCheck j) := by
  unfold State.throwCheck
  split
  · split
    · exact yields_ite (fun _ => yields_queueThrow s j _) (fun _ => .refl s)
    · exact .refl s
  · exact .refl s

theorem yields_restDecision (s : State) (j : Nat) : Yields i K s (s.restDecision j) := by
  unfold State.restDecision
  split
  · split
    · exact yields_ite (fun _ => yields_queueThrow s j _) (fun _ => .refl s)
    · exact .refl s
  · exact .refl s

theorem yields_withdrawThrow (s : State) (j : Nat) : Yields i K s (s.withdrawThrow j) := by
  unfold State.withdrawThrow
  split
  · next r hr =>
    split
    · exact (((yields_takeBack s _).trans (yields_setJunction (r := r) hr (by rfl))).trans (yields_tellHolder _ _)).trans (yields_emit _ (by simp))
    · exact .refl s
  · exact .refl s

theorem yields_junctionReleased (s : State) (j : Nat) : Yields i K s (s.junctionReleased j) := by
  unfold State.junctionReleased
  split
  · next r hr => exact (yields_setJunction hr (by rfl)).trans (yields_withdrawThrow _ _)
  · exact .refl s

theorem yields_junctionGranted (s : State) (j : Nat) : Yields i K s (s.junctionGranted j) := by
  unfold State.junctionGranted
  split
  · next r hr => exact ((yields_setJunction hr (by rfl)).trans (yields_withdrawThrow _ _)).trans (yields_emit _ (by simp))
  · exact .refl s

theorem yields_reviewJunctions (s : State) (t : Nat) : Yields i K s (s.reviewJunctions t) := by
  refine Yields.foldl (fun s j => ?_) _ s
  refine Yields.trans ?_ (yields_emit _ (by simp))
  unfold State.dropUnneededThrow
  split
  · split
    · exact yields_ite (fun _ => .refl s) (fun _ => yields_withdrawThrow s j)
    · exact .refl s
  · exact .refl s

theorem yields_rotation (s : State) : Yields i K s s.rotation := by
  unfold State.rotation
  refine yields_ite (fun _ => ?_) (fun _ => .refl s)
  split
  · exact .refl s
  · next j _ =>
    split
    · exact .refl s
    · next r hr =>
      dsimp only
      generalize hu : s.setJunction j (some { r with operation := some ⟨.prove .rotation, .queued, .stopped⟩ }) = u
      have hj : Yields i K s u := hu ▸ yields_setJunction hr (by rfl)
      exact hj.trans (Yields.trans (b := u.setPointer (some j)) (yields_aside rfl rfl rfl (fun _ => rfl) rfl) (yields_handOut _ _))

/-! ### The Interlock Core -/

theorem yields_setRun (s : State) (t : Nat) (r : Option RunRec) : Yields i K s (s.setRun t r) := yields_aside rfl rfl rfl (fun _ => rfl) rfl

theorem yields_setConfirm (s : State) (t : Nat) (c : Confirm) : Yields i K s (s.setConfirm t c) := by
  unfold State.setConfirm
  split
  · exact yields_setRun s _ _
  · exact .refl s

theorem yields_settleConfirm (s : State) (t : Nat) : Yields i K s (s.settleConfirm t) :=
  yields_ite (fun _ => yields_setConfirm s _ _) (fun _ => .refl s)

theorem yields_mark (s : State) (t : Nat) (ns : List Nat) (d : Disposition) : Yields i K s (s.mark t ns d) :=
  Yields.foldl (fun s m => yields_ite (fun _ => yields_setSeg_same s m (by rfl) (by rfl)) (fun _ => .refl s)) _ s

theorem yields_unmark (s : State) (ns : List Nat) : Yields i K s (s.unmark ns) := Yields.foldl (fun s m => yields_setSeg_same s m (by rfl) (by rfl)) _ s

theorem yields_makeActiveDue (s : State) (t : Nat) : Yields i K s (s.makeActiveDue t) := by
  unfold State.makeActiveDue
  split
  · exact yields_makeDue s _
  · exact .refl s

theorem yields_reviseMarks (s : State) (t : Nat) : Yields i K s (s.reviseMarks t) := by
  unfold State.reviseMarks
  dsimp only
  refine yields_ite (fun _ => yields_ite (fun _ => .refl s) fun _ => ?_) (fun _ => yields_ite (fun _ => .refl s) fun _ => ?_)
  · exact ((yields_mark s t _ _).trans (yields_setConfirm _ t _)).trans (yields_emit _ (by simp))
  · exact ((yields_unmark s _).trans (yields_settleConfirm _ t)).trans (yields_makeActiveDue _ t)

theorem yields_withdraw (s : State) (t k : Nat) : Yields i K s (s.withdraw t k) := by
  unfold State.withdraw
  dsimp only
  have step : Yields i K s (if k < s.sentReach t then
      if s.heldBeyond t k = [] then s
      else
        if s.releaseCause t then
          ((s.mark t (s.heldBeyond t k) (if s.releaseCause t then .release else .keep)).setConfirm t .awaitingPoll).emit [.reviewJunctions t]
        else (s.mark t (s.heldBeyond t k) (if s.releaseCause t then .release else .keep)).setConfirm t .awaitingPoll
    else if s.releaseCause t then s.emit (((s.heldBeyond t k).filter (s.yieldsAtOnce t)).map fun n => .release n t)
    else s.mark t ((s.heldBeyond t k).filter (s.keepCause t)) .keep) := by
    refine yields_ite (fun _ => yields_ite (fun _ => .refl s) fun _ => yields_ite (fun _ => ?_) fun _ => ?_)
      fun _ => yields_ite (fun _ => ?_) fun _ => ?_
    · exact ((yields_mark s t _ _).trans (yields_setConfirm _ t _)).trans (yields_emit _ (by simp))
    · exact (yields_mark s t _ _).trans (yields_setConfirm _ t _)
    · exact yields_emit_map s _ _ (by simp)
    · exact yields_mark s t _ _
  exact yields_ite (fun _ => step.trans (yields_emit _ (by simp))) fun _ => step

theorem yields_recompute (s : State) (t : Nat) : Yields i K s (s.recompute t) := by
  unfold State.recompute
  split
  · exact .refl s
  · dsimp only
    split
    · exact yields_reviseMarks s t
    · exact ((yields_reviseMarks s t).trans (yields_setRun _ t _)).trans (yields_withdraw _ t _)

theorem yields_fallBack (s : State) (t m : Nat) : Yields i K s (s.fallBack t m) := by
  unfold State.fallBack
  split
  · exact .refl s
  · split
    · exact .refl s
    · exact yields_ite (fun _ => (yields_setOrder s _ _).trans (yields_makeDue _ _)) (fun _ => .refl s)

theorem yields_grant (s : State) (t m : Nat) (h : t ≠ i) : Yields i K s (s.grant t m) := by
  unfold State.grant
  have h1 : Yields i K s (s.setSeg m { s.seg m with holder := some t }) :=
    yields_setSeg s m (fun e => absurd (Option.some.inj e) h) (fun hq => hq)
  exact (h1.trans (yields_emit _ (xs := [.recompute t]) (by simp))).trans (yields_junctionGranted _ _)

theorem yields_release (s : State) (m t : Nat) : Yields i K s (s.release m t) := by
  unfold State.release
  dsimp only
  refine yields_ite (fun _ => .refl s) fun _ => ?_
  refine Yields.trans ?_ (yields_emit _ (by simp))
  have h1 : Yields i K s (s.setSeg m { s.seg m with holder := none, leaving := false, withdrawing := none }) :=
    yields_setSeg s m (fun e => (by cases e)) (fun hq => hq)
  have h2 := h1.trans (yields_ite (p := (s.seg m).withdrawing.isSome = true) (fun _ => yields_settleConfirm _ t) (fun _ => .refl _))
  have h3 := (h2.trans (yields_fallBack _ t m)).trans (yields_junctionReleased _ m)
  exact h3.trans (yields_ite (fun _ => yields_raise _ _ _) (fun _ => yields_emit _ (by simp)))

/-! ### Claims -/

theorem mem_insertWait {e x : WaitEntry} {l : List WaitEntry} (h : x ∈ insertWait e l) : x = e ∨ x ∈ l := by
  induction l with
  | nil => simpa [insertWait] using h
  | cons y rest ih =>
    unfold insertWait at h
    split at h
    · rcases List.mem_cons.1 h with h | h
      · exact .inl h
      · exact .inr h
    · split at h
      · rcases List.mem_cons.1 h with h | h
        · exact .inl h
        · exact .inr (List.mem_cons_of_mem _ h)
      · rcases List.mem_cons.1 h with h | h
        · exact .inr (h ▸ List.mem_cons_self)
        · exact (ih h).imp_right (List.mem_cons_of_mem _)

theorem eq_or_mem_insertFenced {e x : FencedEntry} {l : List FencedEntry} (h : x ∈ insertFenced e l) : x = e ∨ x ∈ l := by
  induction l with
  | nil => simpa [insertFenced] using h
  | cons y rest ih =>
    unfold insertFenced at h
    split at h
    · rcases List.mem_cons.1 h with h | h
      · exact .inl h
      · exact .inr h
    · split at h
      · rcases List.mem_cons.1 h with h | h
        · exact .inl h
        · exact .inr (List.mem_cons_of_mem _ h)
      · rcases List.mem_cons.1 h with h | h
        · exact .inr (h ▸ List.mem_cons_self)
        · exact (ih h).imp_right (List.mem_cons_of_mem _)

theorem eq_or_mem_insertSorted {n x : Nat} {l : List Nat} (h : x ∈ insertSorted n l) : x = n ∨ x ∈ l := by
  induction l with
  | nil => simpa [insertSorted] using h
  | cons y rest ih =>
    unfold insertSorted at h
    split at h
    · rcases List.mem_cons.1 h with h | h
      · exact .inl h
      · exact .inr h
    · split at h
      · exact .inr h
      · rcases List.mem_cons.1 h with h | h
        · exact .inr (h ▸ List.mem_cons_self)
        · exact (ih h).imp_right (List.mem_cons_of_mem _)

/-- Lists on which no head of `K` comes to wait. -/
theorem yields_lists {s t : State} (h1 : t.core.segs = s.core.segs) (h2 : ∀ e ∈ t.core.waiting, e ∈ s.core.waiting ∨ ¬K e.slot)
    (h3 : ∀ e ∈ t.guards.fenced, e ∈ s.guards.fenced ∨ ¬K e.slot)
    (h4 : ∀ j r, t.junction j = some r → ∃ r0, s.junction j = some r0 ∧ ∀ k ∈ r.waiters, k ∈ r0.waiters ∨ ¬K k) (h5 : t.agenda = s.agenda) :
    Yields i K s t := by
  have e : ∀ m, t.seg m = s.seg m := fun m => by unfold State.seg; rw [h1]
  refine ⟨fun m h => (by rw [← e]; exact h), fun m h => (by rw [← e]; exact h), fun k m hk h => ?_, fun x hx => .inl (h5 ▸ hx)⟩
  unfold State.waitsAt at h ⊢
  simp only [Bool.or_eq_true, List.any_eq_true, decide_eq_true_eq] at h ⊢
  rcases h with (⟨x, hx, hxk⟩ | ⟨x, hx, hxk⟩) | h
  · exact .inl (.inl ⟨x, (h2 x hx).resolve_right (by rw [hxk.1]; exact not_not.2 hk), hxk⟩)
  · exact .inl (.inr ⟨x, (h3 x hx).resolve_right (by rw [hxk.1]; exact not_not.2 hk), hxk⟩)
  · right
    cases ht : t.junction m with
    | none => rw [ht] at h; cases h
    | some r =>
      rw [ht] at h
      obtain ⟨r0, hr0, hw⟩ := h4 m r ht
      rw [hr0]
      exact decide_eq_true ((hw k (of_decide_eq_true h)).resolve_right (not_not.2 hk))

theorem yields_waitFor (s : State) (slot n : Nat) (c : WaitCause) (h : ¬K slot) : Yields i K s (s.waitFor slot n c) :=
  yields_lists rfl (fun e he => (mem_insertWait he).symm.imp_right fun e' => by rw [e']; exact h) (fun _ h => .inl h)
    (fun j r hj => ⟨r, hj, fun _ h => .inl h⟩) rfl

theorem yields_unlistHead (s : State) (slot : Nat) : Yields i K s (s.unlistHead slot) :=
  yields_lists rfl (fun e he => .inl (List.mem_of_mem_filter he)) (fun e he => .inl (List.mem_of_mem_filter he))
    (fun j r hj => by
      have e : (s.unlistHead slot).junction j = (s.junction j).map fun j => { j with waiters := j.waiters.filter fun k => decide (k ≠ slot) } := by
        show Table.get none (Table.mapRecords none _ s.junctions.recs) j = _
        rw [get_mapRecords _ _ (by intro k; rfl)]
        rfl
      rw [e] at hj
      obtain ⟨r0, hr0, rfl⟩ := Option.map_eq_some_iff.1 hj
      exact ⟨r0, hr0, fun k hk => .inl (List.mem_of_mem_filter hk)⟩) rfl

theorem yields_claimEffect (s : State) (t slot m : Nat) (x : ClaimResult) (ht : t ≠ i) (hk : ¬K slot) : Yields i K s (s.claimEffect t slot m x) := by
  cases x with
  | granted =>
    refine yields_ite (fun _ => ?_) fun _ => yields_grant s t m ht
    exact (yields_setSeg_same s m (by rfl) (by rfl)).trans (yields_emit _ (xs := [.recompute t, .throwCheck m]) (by simp))
  | queued =>
    refine yields_setSeg s m (fun hq => hq) fun h => ?_
    rcases List.mem_append.1 h with h | h
    · exact h
    · exact absurd (List.mem_singleton.1 h).symm ht
  | waitSensor => exact yields_waitFor s slot m _ hk
  | waitIntrusion => exact yields_waitFor s slot m _ hk
  | waitSwitch =>
    simp only [State.claimEffect]
    split
    · next r hr =>
      refine yields_lists rfl (fun _ h => .inl h) (fun _ h => .inl h) (fun j r' hj => ?_) rfl
      rw [setJunction_junction] at hj
      split at hj
      · next e =>
        subst e
        cases hj
        exact ⟨r, hr, fun k hk' => (eq_or_mem_insertSorted hk').symm.imp_right fun e => by rw [e]; exact hk⟩
      · exact ⟨r', hj, fun _ h => .inl h⟩
    · exact .refl s
  | refusedFenced =>
    refine Yields.trans (b := s.setFenced (insertFenced ⟨slot, m⟩ s.guards.fenced)) ?_ (yields_raise _ _ _)
    exact yields_lists rfl (fun _ h => .inl h) (fun e he => (eq_or_mem_insertFenced he).symm.imp_right fun e' => by rw [e']; exact hk)
      (fun j r hj => ⟨r, hj, fun _ h => .inl h⟩) rfl
  | refusedCycle => exact (yields_waitFor s slot m _ hk).trans (yields_raise _ _ _)
  | full => exact yields_waitFor s slot m _ hk

theorem yields_applyResult (s : State) (slot m : Nat) (x : ClaimResult) : Yields i K s (s.applyResult slot m x) := by
  unfold State.applyResult
  split
  · exact .refl s
  · exact yields_ite (fun _ => (yields_setOrder s _ _).trans (yields_makeDue _ _)) (fun _ => yields_setOrder s _ _)

/-! ### A transporter without orders -/

/-- Transporter `i` has no active order, stands in no queue, and no head of its orders, which stand in the slots of `K`, waits. -/
structure Orderless (i : Nat) (K : Nat → Prop) (s : State) : Prop where
  active : (s.orderRefs i).active = none
  mine : ∀ k, K k ↔ ∃ o, s.order k = some o ∧ o.transporter = i
  queues : ∀ m, i ∉ (s.seg m).queue
  heads : ∀ k m, K k → s.waitsAt k m = false

theorem yields_decideClaim (s : State) (slot m : Nat) (h : ∀ o, s.order slot = some o → o.transporter ≠ i) (hk : ¬K slot) :
    Yields i K s (s.decideClaim slot m) := by
  unfold State.decideClaim
  split
  · exact .refl s
  · next o ho => exact (yields_claimEffect s _ slot m _ (h o ho) hk).trans (yields_applyResult _ _ _ _)

theorem Orderless.other {s : State} (h : Orderless i K s) {k : Nat} (hk : ¬K k) : ∀ o, s.order k = some o → o.transporter ≠ i :=
  fun o ho e => hk ((h.mine k).2 ⟨o, ho, e⟩)

theorem yields_leaveQueue (s : State) (t m : Nat) : Yields i K s (s.leaveQueue t m) := by
  unfold State.leaveQueue
  dsimp only
  refine yields_ite (fun _ => ?_) (fun _ => .refl s)
  have h1 : Yields i K s (s.setSeg m { s.seg m with queue := (s.seg m).queue.filter fun u => decide (u ≠ t) }) :=
    yields_setSeg s m (fun hq => hq) List.mem_of_mem_filter
  exact yields_ite (fun _ => h1.trans (yields_emit _ (by simp))) (fun _ => h1)

theorem yields_removeHead (s : State) (slot : Nat) : Yields i K s (s.removeHead slot) := by
  unfold State.removeHead
  split
  · exact .refl s
  · dsimp only
    refine Yields.trans ?_ (yields_setOrder _ _ _)
    split
    · exact (yields_unlistHead s slot).trans (yields_leaveQueue _ _ _)
    · exact yields_unlistHead s slot

theorem yields_endOrder (s : State) (slot : Nat) (x : OrderOutcome) : Yields i K s (s.endOrder slot x) := by
  have h0 : Yields i K s ((s.removeHead slot).dropClaim slot) := (yields_removeHead s slot).trans (yields_aside rfl rfl rfl (fun _ => rfl) rfl)
  unfold State.endOrder
  dsimp only
  split
  · exact h0
  · refine Yields.trans ?_ (yields_emit _ (by simp))
    have h1 : ∀ (k : NoticeKind) (m : Nat) (o' : Option Order) (u : Nat) (r : OrderRefs),
        Yields i K s (((((s.removeHead slot).dropClaim slot).setOrder slot o').setRefs u r).raise k m) := fun k m o' u r =>
      ((h0.trans (yields_setOrder _ slot o')).trans (yields_setRefs _ u r)).trans (yields_raise _ k m)
    split
    · exact h1 _ _ _ _ _
    · exact h1 _ _ _ _ _

theorem yields_failOrder (s : State) (slot : Nat) (c : FailureCause) : Yields i K s (s.failOrder slot c) := by
  unfold State.failOrder
  split
  · exact .refl s
  · exact ((yields_setOrder s slot _).trans (yields_raise _ _ _)).trans (yields_emit _ (by simp))

theorem yields_popTo (s : State) (t : Nat) (place : Place) : Yields i K s (s.popTo t place) := by
  unfold State.popTo
  split
  · exact .refl s
  · split
    · exact .refl s
    · exact ((yields_setOrder s _ _).trans (yields_setRefs _ _ _)).trans (yields_makeDue _ _)

theorem yields_arrival (s : State) (t : Nat) : Yields i K s (s.arrival t) := by
  unfold State.arrival
  split
  · exact .refl s
  · next slot o _ =>
    refine yields_ite (fun _ => .refl s) fun _ => yields_ite (fun _ => yields_ite (fun _ => ?_) fun _ => yields_ite (fun _ => ?_) fun _ => .refl s)
      fun _ => yields_ite (fun _ => ?_) fun _ => .refl s
    · unfold State.rejoin
      dsimp only
      have h0 := yields_endOrder (i := i) (K := K) s slot .done
      split
      · exact h0
      · next place _ =>
        have h1 := h0.trans (yields_popTo _ t place)
        split
        · exact h1
        · exact yields_ite (fun _ => h1.trans (yields_emit _ (by simp))) (fun _ => h1.trans (yields_emit _ (by simp)))
    · exact ((yields_setOrder s slot _).trans (yields_removeHead _ _)).trans (yields_emit _ (by simp))
    · have h1 : Yields i K s ((s.setOrder slot (some { o with state := .arrived })).emit [.recompute t, .reviewJunctions t]) :=
        (yields_setOrder s slot _).trans (yields_emit _ (by simp))
      exact yields_ite (fun _ => h1.trans (yields_endOrder _ _ _)) (fun _ => h1)

theorem yields_startDivert (s : State) (t slot : Nat) (refuge : Order) (place : Place) : Yields i K s (s.startDivert t slot refuge place) := by
  unfold State.startDivert
  dsimp only
  refine Yields.trans ?_ (yields_emit _ (by simp))
  split
  · exact (yields_setOrder s slot _).trans (yields_removeHead _ _)
  · exact yields_setOrder s slot _

theorem yields_complete (s : State) (t : Nat) : Yields i K s (s.complete t) := by
  unfold State.complete
  refine yields_ite (fun _ => .refl s) fun _ => ?_
  split
  · next slot _ =>
    split
    · exact .refl s
    · next refuge _ =>
      refine yields_ite (fun _ => ?_) fun _ => ?_
      · unfold State.takeUpDivert
        dsimp only
        split
        · exact .refl s
        · next a o _ =>
          have h1 : Yields i K s (((s.setOrder a (some { o with state := .suspended, claim := o.cursor })).setOrder slot
              (some { refuge with state := .running })).setRefs t { s.orderRefs t with active := some slot, stack := a :: (s.orderRefs t).stack }) :=
            ((yields_setOrder s a _).trans (yields_setOrder _ slot _)).trans (yields_setRefs _ _ _)
          have h2 := h1.trans (yields_emit_map _ ((o.claimedTrack.filter fun n => State.holds (((s.setOrder a (some { o with
              state := .suspended, claim := o.cursor })).setOrder slot (some { refuge with state := .running })).setRefs t
                { s.orderRefs t with active := some slot, stack := a :: (s.orderRefs t).stack }) t n && decide (State.position (((s.setOrder a (some
                  { o with state := .suspended, claim := o.cursor })).setOrder slot (some { refuge with state := .running })).setRefs t
                    { s.orderRefs t with active := some slot, stack := a :: (s.orderRefs t).stack }) t ≠ some n))) (fun n => Task.release n t) (by simp))
          have h3 := (h2.trans (yields_emit _ (xs := [.recompute t, .reviewJunctions t]) (by simp))).trans (yields_makeDue _ slot)
          exact yields_ite (fun _ => h3.trans (yields_emit _ (by simp))) (fun _ => h3)
      · exact ((yields_endOrder s slot .void).trans (yields_makeActiveDue _ t)).trans (yields_emit _ (by simp))
  · split
    · exact yields_ite (fun _ => yields_endOrder s _ _) (fun _ => .refl s)
    · exact .refl s

theorem yields_takeUpPending (s : State) (t : Nat) : Yields i K s (s.takeUpPending t) := by
  unfold State.takeUpPending
  split
  · exact .refl s
  · split
    · exact .refl s
    · dsimp only
      split
      · exact yields_ite (fun _ => (yields_setRefs s _ _).trans (yields_startDivert _ _ _ _ _)) (fun _ => yields_endOrder s _ _)
      · exact yields_endOrder s _ _

theorem yields_startTransfers (s : State) : Yields i K s s.startTransfers := by
  have begin_ : ∀ (s : State) (slot t : Nat) (f : Finish), Yields i K s (s.beginTransfer slot t f) := by
    intro s slot t f
    unfold State.beginTransfer
    split
    · next p x _ =>
      exact ((yields_setTransfer s p _).trans (yields_setPad _ p _)).trans (yields_handOut _ _)
    · next p x _ =>
      exact (yields_setTransfer s p _).trans (yields_setPad _ p _)
    · dsimp only
      refine Yields.trans ?_ (yields_failOrder _ _ _)
      split
      · exact yields_ite (fun _ => yields_setPad s _ _) (fun _ => .refl s)
      · exact .refl s
  unfold State.startTransfers
  split
  · exact .refl s
  · split
    · exact .refl s
    · exact (((yields_setOrder s _ _).trans (yields_emit _ (by simp))).trans (begin_ _ _ _ _)).trans (yields_emit _ (by simp))

theorem yields_updateTrain (s : State) (t : Nat) (f : TransporterRec → TransporterRec) : Yields i K s (s.updateTrain t f) := by
  unfold State.updateTrain
  split
  · exact yields_aside rfl rfl rfl (fun _ => rfl) rfl
  · exact .refl s

theorem yields_confirmPolled (s : State) (t : Nat) : Yields i K s (s.confirmPolled t) := by
  unfold State.confirmPolled
  split
  · exact yields_ite (fun _ => yields_setConfirm s _ _) (fun _ => .refl s)
  · exact .refl s

theorem yields_pollNext (s : State) : Yields i K s s.pollNext := by
  unfold State.pollNext
  refine yields_ite (fun _ => .refl s) (fun _ => ?_)
  split
  · unfold State.poll
    split
    · exact .refl s
    · dsimp only
      refine ((Yields.trans ?_ (yields_updateTrain _ _ _)).trans (yields_confirmPolled _ _)).trans (yields_updateTrain _ _ _)
      exact yields_aside rfl rfl rfl (fun _ => rfl) rfl
  · exact .refl s

theorem yields_resumeTransfers (s : State) : Yields i K s s.resumeTransfers := by
  unfold State.resumeTransfers
  have h0 : Yields i K s (s.setHoldEnding false) := yields_aside rfl rfl rfl (fun _ => rfl) rfl
  refine yields_ite (fun _ => h0) (fun _ => (h0.trans ?_).trans (yields_commit _))
  unfold State.resumeTimers
  refine Yields.foldl (fun s p => ?_) _ _
  split
  · split
    · exact yields_aside rfl rfl rfl (fun _ => rfl) rfl
    · exact .refl s
  · exact .refl s

/-- What a task does while a transporter has no orders. -/
theorem yields_runTask (x : Task) (s : State) (hx : inReport x = false) (hc : ∀ k, K k → x ≠ .claim k) (h : Orderless i K s) :
    Yields i K s (runTask x s) := by
  cases x <;> first | (simp [inReport] at hx; done) | skip
  case recompute t => exact yields_recompute s t
  case release m t => exact yields_release s m t
  case tailRelease m t => exact yields_ite (fun _ => yields_emit s (by simp)) (fun _ => .refl s)
  case serve m =>
    show Yields i K s (s.serve m)
    unfold State.serve
    refine yields_ite (fun _ => ?_) (fun _ => .refl s)
    split
    · exact .refl s
    · next t rest hq =>
      have ht : t ≠ i := fun e => h.queues m (by rw [hq, e]; exact List.mem_cons_self)
      dsimp only
      refine Yields.trans ?_ (yields_emit _ (by simp))
      have h0 : Yields i K s (s.setSeg m { s.seg m with queue := rest }) :=
        yields_setSeg s m (fun h => h) fun hm => by rw [hq]; exact List.mem_cons_of_mem _ hm
      have h1 := h0.trans (yields_grant _ t m ht)
      split
      · exact h1.trans (yields_applyResult _ _ _ _)
      · exact h1
  case serveAll => exact yields_emit_map s _ _ (by simp)
  case retry m cs => exact yields_emit_map s _ _ (by simp)
  case retryAll => exact yields_emit_map s _ _ (by simp)
  case represent slot m =>
    refine yields_ite (fun hw => ?_) (fun _ => .refl s)
    have hk : ¬K slot := fun hk => by rw [h.heads slot m hk] at hw; cases hw
    exact (yields_unlistHead s slot).trans (yields_decideClaim _ slot m (h.other hk) hk)
  case claim slot =>
    have hk : ¬K slot := fun hk => hc slot hk rfl
    show Yields i K s (s.claim slot)
    unfold State.claim
    split
    · exact .refl s
    · split
      · exact .refl s
      · exact yields_decideClaim s slot _ (h.other hk) hk
  case extend =>
    show Yields i K s s.extend
    unfold State.extend
    split
    · exact .refl s
    · next slot rest _ =>
      refine yields_ite (fun hm => ?_) (fun _ => Yields.trans (b := { s with due := rest }) (yields_aside rfl rfl rfl (fun _ => rfl) rfl)
        (yields_emit _ (by simp)))
      refine yields_emit s fun x hx k hk e => ?_
      subst e
      simp only [List.mem_cons, Task.claim.injEq, List.not_mem_nil, or_false, reduceCtorEq] at hx
      subst hx
      obtain ⟨o, ho, ht⟩ := (h.mine k).1 hk
      unfold State.mayExtend at hm
      rw [ho] at hm
      simp only [ht, h.active] at hm
      simp at hm
  case throwCheck j => exact yields_throwCheck s j
  case restDecision j => exact yields_restDecision s j
  case reviewJunctions t => exact yields_reviewJunctions s t
  case rotation => exact yields_rotation s
  case confirm t =>
    show Yields i K s (s.confirm t)
    unfold State.confirm
    split
    · exact .refl s
    · refine yields_ite (fun _ => yields_emit s fun x hx k _ e => ?_) (fun _ => .refl s)
      subst e
      rcases List.mem_append.1 hx with hx | hx
      · obtain ⟨_, -, e⟩ := List.mem_map.1 hx
        cases e
      · simp at hx
  case confirmed t =>
    show Yields i K s (s.confirmed t)
    unfold State.confirmed
    split
    · exact .refl s
    · exact yields_ite (fun _ => (yields_setConfirm s t _).trans (yields_emit _ (by simp))) (fun _ => yields_emit s (by simp))
  case complete t => exact yields_complete s t
  case arrival t => exact yields_arrival s t
  case takeUpPending t => exact yields_takeUpPending s t
  case startTransfers => exact yields_startTransfers s
  case quietTest =>
    show Yields i K s s.quietTest
    unfold State.quietTest
    refine yields_ite (fun _ => ?_) (fun _ => .refl s)
    refine Yields.trans ?_ (yields_raise _ _ _)
    exact yields_aside rfl rfl rfl (fun _ => rfl) rfl
  case pollNext => exact yields_pollNext s
  case resumeTransfers => exact yields_resumeTransfers s

/-! ### The work of an event -/

/-- A task that is none of transporter `i`'s arrival, and claims for none of its orders. -/
def foreign (i : Nat) (K : Nat → Prop) (x : Task) : Prop := apart i x ∧ ∀ k, K k → x ≠ .claim k

/-- Transporter `i` without orders, the references naming live orders and no divert of it STARTING. -/
structure Parted (i : Nat) (K : Nat → Prop) (s : State) : Prop where
  refs : s.refsRight
  starting : s.startingDivert i = none
  orderless : Orderless i K s

/-- The orders stand, the transporter joins no queue and no head of its orders comes to wait. -/
theorem parted_of {s t : State} (h : Parted i K s) (h1 : t.orders = s.orders) (h2 : ∀ m, i ∈ (t.seg m).queue → i ∈ (s.seg m).queue)
    (h3 : ∀ k m, K k → t.waitsAt k m = true → s.waitsAt k m = true) : Parted i K t := by
  have eo : ∀ k, t.order k = s.order k := fun k => by unfold State.order; rw [h1]
  refine ⟨refsRight_same h.refs h1, ?_, ⟨?_, fun k => ?_, fun m hm => h.orderless.queues m (h2 m hm), fun k m hk => ?_⟩⟩
  · have := h.starting
    unfold State.startingDivert at this ⊢
    simp only [eo]
    exact this
  · have := h.orderless.active
    unfold State.orderRefs at this ⊢
    rw [h1]
    exact this
  · rw [eo]; exact h.orderless.mine k
  · cases hw : t.waitsAt k m with
    | false => rfl
    | true =>
      have := h3 k m hk hw
      rw [h.orderless.heads k m hk] at this
      cases this

theorem parted_yields {s t : State} (h : Parted i K s) (h1 : t.orders = s.orders) (y : Yields i K s t) : Parted i K t :=
  parted_of h h1 y.queues y.heads

theorem parted_aside {s t : State} (h : Parted i K s) (h1 : t.orders = s.orders) (h2 : t.core = s.core) (h3 : t.junctions = s.junctions)
    (h4 : t.guards = s.guards) : Parted i K t := by
  have es : ∀ m, t.seg m = s.seg m := fun m => by unfold State.seg; rw [h2]
  refine parted_of h h1 (fun m hm => by rw [← es]; exact hm) fun k m _ hw => ?_
  rw [← waitsAt_same (s := s) (by rw [h2]) (by rw [h4]) (fun j => by unfold State.junction; rw [h3])]
  exact hw

theorem parted_runTask (x : Task) (s : State) (hx : foreign i K x) (ha : s.agenda = []) (h : Parted i K s) :
    Parted i K (runTask x s) ∧ (∀ y ∈ (runTask x s).agenda, foreign i K y) ∧ Yields i K s (runTask x s) := by
  have hq := quiet_runTask x s h.refs hx.1 h.starting
  have hy := yields_runTask x s hx.1.1 hx.2 h.orderless
  have hrefs := refs_runTask x s h.refs hx.1 h.starting fun a o ha => by
    unfold State.active at ha
    rw [h.orderless.active] at ha
    cases ha
  have hshape := (kept_runTask x s).shapes
  refine ⟨⟨refsRight_runTask x s h.refs hx.1.1, hq.startingDivert h.starting, ⟨by rw [hrefs]; exact h.orderless.active, fun k => ?_, fun m hm =>
    h.orderless.queues m (hy.queues m hm), fun k m hk => ?_⟩⟩, fun y hy' => ⟨?_, ?_⟩, hy⟩
  · rw [h.orderless.mine]
    have hk := hshape k
    constructor
    · rintro ⟨o, ho, ht⟩
      rw [ho] at hk
      obtain ⟨o', ho', e⟩ := Option.map_eq_some_iff.1 hk
      exact ⟨o', ho', (congrArg Prod.fst e).trans ht⟩
    · rintro ⟨o', ho', ht⟩
      rw [ho'] at hk
      obtain ⟨o, ho, e⟩ := Option.map_eq_some_iff.1 hk.symm
      exact ⟨o, ho, (congrArg Prod.fst e).trans ht⟩
  · cases hw : (runTask x s).waitsAt k m with
    | false => rfl
    | true =>
      have := hy.heads k m hk hw
      rw [h.orderless.heads k m hk] at this
      cases this
  · rcases hq.agenda y hy' with e | e
    · rw [ha] at e; cases e
    · exact e
  · rcases hy.agenda y hy' with e | e
    · rw [ha] at e; cases e
    · exact e

theorem release_gone (s : State) (m t : Nat) : ((s.release m t).seg m).holder ≠ some t := by
  have hy : ∀ u : State, (u.seg m).holder ≠ some t → ∀ w : State, Yields t (fun _ => False) u w → (w.seg m).holder ≠ some t :=
    fun u hu w hw h => hu (hw.holders m h)
  unfold State.release
  dsimp only
  split
  · next h => exact h
  · have h0 : ((s.setSeg m { s.seg m with holder := none, leaving := false, withdrawing := none }).seg m).holder ≠ some t := by
      rw [setSeg_seg_same]
      simp
    refine hy _ h0 _ (Yields.trans ?_ (yields_emit _ (by simp)))
    refine Yields.trans (Yields.trans ((yields_ite (p := (s.seg m).withdrawing.isSome = true) (fun _ => yields_settleConfirm _ t) (fun _ => .refl _)).trans
      (yields_fallBack _ t m)) (yields_junctionReleased _ m)) ?_
    exact yields_ite (fun _ => yields_raise _ _ _) (fun _ => yields_emit _ (by simp))

/-- What the work of an event leaves of a transporter without orders: it stands in no queue and gains no segment, and the segments whose release is
listed are gone where the work comes to its end. -/
theorem parted_workOff {s : State} (h : Parted i K s) (hn : ∀ x ∈ s.agenda, foreign i K x) :
    Parted i K (workOff s) ∧ (∀ m, ((workOff s).seg m).holder = some i → (s.seg m).holder = some i) ∧
      ((workOff s).agenda = [] → ∀ m, Task.release m i ∈ s.agenda → ((workOff s).seg m).holder ≠ some i) := by
  have aside : ∀ (s : State) l, Parted i K s → Parted i K { s with agenda := l } := fun s l h => parted_aside h rfl rfl rfl rfl
  have last : ∀ x ∈ (s.emit [.extend, .startTransfers, .rotation]).agenda, foreign i K x := by
    intro x hx
    rcases List.mem_append.1 hx with hx | hx
    · exact hn x hx
    · simp only [List.mem_cons, List.not_mem_nil, or_false] at hx
      rcases hx with rfl | rfl | rfl <;> exact ⟨⟨rfl, by simp, by simp⟩, by simp⟩
  have h0 : Parted i K (s.emit [.extend, .startTransfers, .rotation]) := aside s _ h
  have run : ∀ x (s : State), foreign i K x → s.agenda = [] → Parted i K s → Parted i K (runTask x s) ∧ ∀ y ∈ (runTask x s).agenda, foreign i K y :=
    fun x s hx ha h => ⟨(parted_runTask x s hx ha h).1, (parted_runTask x s hx ha h).2.1⟩
  refine ⟨settle_keeps aside run _ _ h0 last, fun m hm => ?_, fun hend m hm => ?_⟩
  · by_contra hne
    have key := settle_keeps (P := fun t => Parted i K t ∧ (t.seg m).holder ≠ some i) (ok := foreign i K) (fun t l h => ⟨aside t l h.1, h.2⟩)
      (fun x t hx ha h => ⟨⟨(run x t hx ha h.1).1, fun e => h.2 ((parted_runTask x t hx ha h.1).2.2.holders m e)⟩, (run x t hx ha h.1).2⟩)
      Config.eventBound _ ⟨h0, hne⟩ last
    exact key.2 hm
  · exact settle_done (P := Parted i K) (Q := fun t => (t.seg m).holder ≠ some i) (ok := foreign i K) aside (fun _ _ h => h) run
      (fun x t hx ha h hq e => hq ((parted_runTask x t hx ha h).2.2.holders m e)) (z := .release m i) (fun t _ _ => release_gone t m i)
      Config.eventBound _ h0 last (.inl (List.mem_append_left _ hm)) hend

/-! ### The end of a transporter's orders, and its queues -/

theorem settleTransfer_order (s : State) (p : Nat) (x : TransferRec) (v : Bool) (k : Nat) : (s.settleTransfer p x v).order k = s.order k := by
  unfold State.order
  rw [settleTransfer_orders]

/-- One order of those that end with their transporter's record (R87). -/
def endOne (t : Nat) (s : State) (slot : Nat) : State :=
  (match s.transferOf t with
    | some (p, x) => if x.order = slot then s.abandonTransfer p x else s
    | none => s).endOrder slot .cancelled

theorem endAllOrders_eq (s : State) (t : Nat) : s.endAllOrders t = (s.liveSlots t).foldl (endOne t) s := rfl

theorem abandoned_order (t : Nat) (s : State) (slot k : Nat) :
    (match s.transferOf t with
      | some (p, x) => if x.order = slot then s.abandonTransfer p x else s
      | none => s).order k = s.order k := by
  split
  · split
    · exact settleTransfer_order _ _ _ _ _
    · rfl
  · rfl

theorem endOne_order (t : Nat) (s : State) (slot k : Nat) :
    (endOne t s slot).order k = if k = slot then (s.order slot).map fun o => Order.endedAs o .cancelled else s.order k := by
  unfold endOne
  rw [endOrder_order, abandoned_order, abandoned_order]

theorem endAll_order (t : Nat) (l : List Nat) (s : State) (k : Nat) (hl : l.Nodup) :
    (l.foldl (endOne t) s).order k = if k ∈ l then (s.order k).map fun o => Order.endedAs o .cancelled else s.order k := by
  induction l generalizing s with
  | nil => simp
  | cons x rest ih =>
    obtain ⟨hx, hr⟩ := List.nodup_cons.1 hl
    rw [List.foldl_cons, ih _ hr, endOne_order]
    by_cases hk : k = x
    · subst hk
      simp [hx]
    · simp [hk]

theorem mem_liveSlots {s : State} {t k : Nat} : k ∈ s.liveSlots t ↔ k ≤ 7 ∧ ∃ o, s.order k = some o ∧ o.transporter = t ∧ o.live = true := by
  unfold State.liveSlots
  rw [List.mem_filter]
  have : k ∈ slots ↔ k ≤ 7 := by
    unfold slots
    simp only [List.mem_cons, List.not_mem_nil, or_false]
    omega
  rw [this]
  refine and_congr Iff.rfl ?_
  split
  · next o ho => simp [ho]
  · next ho => simp [ho]

theorem liveSlots_nodup (s : State) (t : Nat) : (s.liveSlots t).Nodup := List.Nodup.filter _ (by decide)

/-- Every live order of the transporter is ENDED as CANCELLED, and no other order changes (R87). -/
theorem endAllOrders_order (s : State) (t k : Nat) :
    (s.endAllOrders t).order k = if k ∈ s.liveSlots t then (s.order k).map fun o => Order.endedAs o .cancelled else s.order k :=
  endAll_order t _ s k (liveSlots_nodup s t)

/-- What ending orders and leaving queues list: limits, throw checks and rest decisions. -/
def plainTask : Task → Bool
  | .recompute _ => true
  | .reviewJunctions _ => true
  | .restDecision _ => true
  | .quietTest => true
  | .release _ _ => true
  | .throwCheck _ => true
  | _ => false

theorem foreign_plain {x : Task} (h : plainTask x = true) : foreign i K x := by
  cases x <;> first | (simp [plainTask] at h; done) | exact ⟨⟨rfl, by simp, by simp⟩, by simp⟩

/-- Only plain tasks are listed. -/
def Plain (s t : State) : Prop := ∀ x ∈ t.agenda, x ∈ s.agenda ∨ plainTask x = true

theorem Plain.trans {a b c : State} (h : Plain a b) (k : Plain b c) : Plain a c := fun x hx => (k x hx).elim (h x) .inr

theorem plain_same {s t : State} (h : t.agenda = s.agenda) : Plain s t := fun _ hx => .inl (h ▸ hx)

theorem plain_emit (s : State) {xs : List Task} (h : ∀ x ∈ xs, plainTask x = true) : Plain s (s.emit xs) := fun x hx =>
  (List.mem_append.1 hx).imp_right (h x)

theorem plain_foldl {α : Type} {f : State → α → State} (h : ∀ s x, Plain s (f s x)) (l : List α) (s : State) : Plain s (l.foldl f s) := by
  induction l generalizing s with
  | nil => exact plain_same rfl
  | cons x rest ih => exact (h s x).trans (ih _)

theorem plain_leaveQueue (s : State) (t m : Nat) : Plain s (s.leaveQueue t m) := by
  unfold State.leaveQueue
  dsimp only
  split
  · split
    · exact plain_emit _ (by simp [plainTask])
    · exact plain_same rfl
  · exact plain_same rfl

theorem plain_removeHead (s : State) (slot : Nat) : Plain s (s.removeHead slot) := by
  unfold State.removeHead
  split
  · exact plain_same rfl
  · dsimp only
    split
    · exact plain_leaveQueue (s.unlistHead slot) _ _
    · exact plain_same rfl

theorem plain_endOrder (s : State) (slot : Nat) (x : OrderOutcome) : Plain s (s.endOrder slot x) := by
  have h0 : Plain s ((s.removeHead slot).dropClaim slot) := plain_removeHead s slot
  unfold State.endOrder
  dsimp only
  split
  · exact h0
  · split
    · exact h0.trans (plain_emit _ (by simp [plainTask]))
    · exact h0.trans (plain_emit _ (by simp [plainTask]))

theorem plain_settleTransfer (s : State) (p : Nat) (x : TransferRec) (v : Bool) : Plain s (s.settleTransfer p x v) := by
  unfold State.settleTransfer
  dsimp only
  split
  · split
    · exact plain_emit (s := ((((s.setTransfer p none).setPad p (((s.setTransfer p none).pad p).unsettledWith (some x.telescope))).takeBackUncouple
        p).placeTelescope x.telescope .unplaced).setLoad x.transporter (some .unverified)) (by simp [plainTask])
    · exact plain_same rfl
  · split
    · exact plain_same rfl
    · exact plain_same rfl

theorem plain_endAllOrders (s : State) (t : Nat) : Plain s (s.endAllOrders t) := by
  rw [endAllOrders_eq]
  refine plain_foldl (fun s slot => ?_) _ s
  unfold endOne
  refine Plain.trans ?_ (plain_endOrder _ _ _)
  split
  · split
    · exact plain_settleTransfer _ _ _ _
    · exact plain_same rfl
  · exact plain_same rfl

theorem plain_leaveQueues (s : State) (t : Nat) : Plain s (s.leaveQueues t) :=
  (plain_foldl (fun s n => plain_leaveQueue s t n) _ s).trans (plain_foldl (f := State.unlistHead) (fun _ _ => plain_same (by rfl)) _ _)

/-! The segments that a transporter holds stand while its orders end and it leaves its queues. -/

theorem leaveQueue_seg (s : State) (t m n : Nat) :
    (s.leaveQueue t m).seg n = if n = m then { s.seg m with queue := (s.seg m).queue.filter fun u => decide (u ≠ t) } else s.seg n := by
  unfold State.leaveQueue
  dsimp only
  by_cases ht : t ∈ (s.seg m).queue
  · rw [if_pos ht]
    have : ∀ u : State, u.core = (s.setSeg m { s.seg m with queue := (s.seg m).queue.filter fun u => decide (u ≠ t) }).core → u.seg n =
        if n = m then { s.seg m with queue := (s.seg m).queue.filter fun u => decide (u ≠ t) } else s.seg n := fun u hu => by
      have e : u.seg n = (s.setSeg m { s.seg m with queue := (s.seg m).queue.filter fun u => decide (u ≠ t) }).seg n :=
        congrArg (fun c : InterlockCore => Table.get SegDyn.initial c.segs n) hu
      rw [e, setSeg_seg]
    split
    · exact this _ rfl
    · exact this _ rfl
  · rw [if_neg ht]
    split
    · next e =>
      subst e
      have : (s.seg n).queue.filter (fun u => decide (u ≠ t)) = (s.seg n).queue :=
        List.filter_eq_self.2 fun u hu => decide_eq_true fun e => ht (by rw [← e]; exact hu)
      rw [this]
    · rfl

/-- The holders stand, and no transporter joins a queue. -/
def SameHolders (s t : State) : Prop := ∀ n, (t.seg n).holder = (s.seg n).holder ∧ ∀ u ∈ (t.seg n).queue, u ∈ (s.seg n).queue

theorem SameHolders.trans {a b c : State} (h : SameHolders a b) (k : SameHolders b c) : SameHolders a c := fun n =>
  ⟨(k n).1.trans (h n).1, fun u hu => (h n).2 u ((k n).2 u hu)⟩

theorem sameHolders_of {s t : State} (h : t.core.segs = s.core.segs) : SameHolders s t := fun n => by
  unfold State.seg
  rw [h]
  exact ⟨rfl, fun _ h => h⟩

theorem sameHolders_foldl {α : Type} {f : State → α → State} (h : ∀ s x, SameHolders s (f s x)) (l : List α) (s : State) :
    SameHolders s (l.foldl f s) := by
  induction l generalizing s with
  | nil => exact sameHolders_of rfl
  | cons x rest ih => exact (h s x).trans (ih _)

theorem sameHolders_leaveQueue (s : State) (t m : Nat) : SameHolders s (s.leaveQueue t m) := fun n => by
  rw [leaveQueue_seg]
  split
  · next e => subst e; exact ⟨rfl, fun u hu => List.mem_of_mem_filter hu⟩
  · exact ⟨rfl, fun _ h => h⟩

theorem sameHolders_endOrder (s : State) (slot : Nat) (x : OrderOutcome) : SameHolders s (s.endOrder slot x) := by
  have h0 : SameHolders s ((s.removeHead slot).dropClaim slot) := by
    unfold State.removeHead
    split
    · exact sameHolders_of rfl
    · dsimp only
      split
      · exact (sameHolders_leaveQueue (s.unlistHead slot) _ _)
      · exact sameHolders_of rfl
  unfold State.endOrder
  dsimp only
  split
  · exact h0
  · split
    · exact h0
    · exact h0

theorem settleTransfer_core (s : State) (p : Nat) (x : TransferRec) (v : Bool) : (s.settleTransfer p x v).core = s.core := by
  unfold State.settleTransfer
  dsimp only
  split
  · split <;> rfl
  · split <;> rfl

theorem sameHolders_endAllOrders (s : State) (t : Nat) : SameHolders s (s.endAllOrders t) := by
  rw [endAllOrders_eq]
  refine sameHolders_foldl (fun s slot => ?_) _ s
  unfold endOne
  refine SameHolders.trans ?_ (sameHolders_endOrder _ _ _)
  split
  · split
    · exact sameHolders_of (by rw [show (s.abandonTransfer _ _).core = _ from settleTransfer_core _ _ _ _])
    · exact sameHolders_of rfl
  · exact sameHolders_of rfl

theorem leaveQueues_seg (s : State) (t n : Nat) : (s.leaveQueues t).seg n = ((Table.keys s.core.segs).foldl (fun s n => s.leaveQueue t n) s).seg n := by
  unfold State.leaveQueues
  generalize (Table.keys s.core.segs).foldl (fun s n => s.leaveQueue t n) s = u
  generalize s.slotsOf t = l
  induction l generalizing u with
  | nil => rfl
  | cons k rest ih => exact ih (u.unlistHead k)

theorem leaveQueues_same (s : State) (t : Nat) : SameHolders s (s.leaveQueues t) := fun n => by
  rw [leaveQueues_seg]
  exact sameHolders_foldl (fun s m => sameHolders_leaveQueue s t m) _ s n

/-- The transporter stands in no queue any more. -/
theorem leaveQueues_queue (s : State) (t n : Nat) : t ∉ ((s.leaveQueues t).seg n).queue := by
  rw [leaveQueues_seg]
  have key : ∀ (l : List Nat) (u : State), (n ∈ l ∨ t ∉ (u.seg n).queue) → t ∉ ((l.foldl (fun s n => s.leaveQueue t n) u).seg n).queue := by
    intro l
    induction l with
    | nil => intro u h; exact h.resolve_left (by simp)
    | cons m rest ih =>
      intro u h
      refine ih _ ?_
      by_cases hm : n = m
      · subst hm
        right
        rw [leaveQueue_seg, if_pos rfl]
        simp
      · rcases h with h | h
        · rcases List.mem_cons.1 h with e | h
          · exact absurd e hm
          · exact .inl h
        · right
          rw [leaveQueue_seg, if_neg hm]
          exact h
  refine key _ s ?_
  by_cases hq : t ∈ (s.seg n).queue
  · left
    refine mem_keys_of_get (d := SegDyn.initial) fun e => ?_
    have e' : s.seg n = SegDyn.initial := e
    rw [e'] at hq
    cases hq
  · exact .inr hq

theorem unlistHead_waitsAt (s : State) (slot k m : Nat) : (s.unlistHead slot).waitsAt k m = (!decide (k = slot) && s.waitsAt k m) := by
  have e : (s.unlistHead slot).junction m = (s.junction m).map fun j => { j with waiters := j.waiters.filter fun k => decide (k ≠ slot) } := by
    show Table.get none (Table.mapRecords none _ s.junctions.recs) m = _
    rw [get_mapRecords _ _ (by intro k; rfl)]
    rfl
  unfold State.waitsAt
  rw [e, Bool.eq_iff_iff]
  simp only [State.unlistHead, Bool.or_eq_true, Bool.and_eq_true, List.any_eq_true, decide_eq_true_eq, Bool.not_eq_true', decide_eq_false_iff_not]
  constructor
  · rintro ((⟨x, hx, h⟩ | ⟨x, hx, h⟩) | h)
    · have hx := List.mem_filter.1 hx
      exact ⟨by rw [← h.1]; simpa using hx.2, .inl (.inl ⟨x, hx.1, h⟩)⟩
    · have hx := List.mem_filter.1 hx
      exact ⟨by rw [← h.1]; simpa using hx.2, .inl (.inr ⟨x, hx.1, h⟩)⟩
    · cases hj : s.junction m with
      | none => rw [hj] at h; cases h
      | some r =>
        rw [hj] at h
        have := List.mem_filter.1 (of_decide_eq_true h)
        exact ⟨by simpa using this.2, .inr (decide_eq_true this.1)⟩
  · rintro ⟨hk, (⟨x, hx, h⟩ | ⟨x, hx, h⟩) | h⟩
    · exact .inl (.inl ⟨x, List.mem_filter.2 ⟨hx, by simp [h.1, hk]⟩, h⟩)
    · exact .inl (.inr ⟨x, List.mem_filter.2 ⟨hx, by simp [h.1, hk]⟩, h⟩)
    · right
      cases hj : s.junction m with
      | none => rw [hj] at h; cases h
      | some r =>
        rw [hj] at h
        exact decide_eq_true (List.mem_filter.2 ⟨of_decide_eq_true h, by simp [hk]⟩)

theorem leaveQueues_order (s : State) (t k : Nat) : (s.leaveQueues t).order k = s.order k := by
  unfold State.leaveQueues
  have h1 : ∀ (l : List Nat) (u : State), (l.foldl (fun s n => s.leaveQueue t n) u).order k = u.order k := by
    intro l
    induction l with
    | nil => intro u; rfl
    | cons m rest ih => intro u; rw [List.foldl_cons, ih, leaveQueue_order]
  have h2 : ∀ (l : List Nat) (u : State), (l.foldl State.unlistHead u).order k = u.order k := by
    intro l
    induction l with
    | nil => intro u; rfl
    | cons m rest ih => intro u; rw [List.foldl_cons, ih]; rfl
  rw [h2, h1]

theorem leaveQueues_orders (s : State) (t : Nat) : (s.leaveQueues t).orders = s.orders := by
  unfold State.leaveQueues
  have h1 : ∀ (l : List Nat) (u : State), (l.foldl (fun s n => s.leaveQueue t n) u).orders = u.orders := by
    intro l
    induction l with
    | nil => intro u; rfl
    | cons m rest ih =>
      intro u
      rw [List.foldl_cons, ih]
      unfold State.leaveQueue
      dsimp only
      split
      · split <;> rfl
      · rfl
  have h2 : ∀ (l : List Nat) (u : State), (l.foldl State.unlistHead u).orders = u.orders := by
    intro l
    induction l with
    | nil => intro u; rfl
    | cons m rest ih => intro u; rw [List.foldl_cons, ih]; rfl
  rw [h2, h1]

/-- No head of the transporter's orders waits any more. -/
theorem leaveQueues_heads (s : State) (t : Nat) {k : Nat} {o : Order} (ho : s.order k = some o) (ht : o.transporter = t) (m : Nat) :
    (s.leaveQueues t).waitsAt k m = false := by
  unfold State.leaveQueues
  have hk : k ∈ s.slotsOf t := by
    unfold State.slotsOf
    refine List.mem_filter.2 ⟨mem_keys_of_get (d := none) (by rw [show Table.get none s.orders.slots k = _ from ho]; simp), ?_⟩
    rw [ho]
    exact decide_eq_true ht
  generalize (Table.keys s.core.segs).foldl (fun s n => s.leaveQueue t n) s = u
  have key : ∀ (l : List Nat) (u : State), (k ∈ l ∨ u.waitsAt k m = false) → (l.foldl State.unlistHead u).waitsAt k m = false := by
    intro l
    induction l with
    | nil => intro u h; exact h.resolve_left (by simp)
    | cons x rest ih =>
      intro u h
      refine ih _ ?_
      by_cases hx : k = x
      · right
        rw [unlistHead_waitsAt]
        simp [hx]
      · rcases h with h | h
        · rcases List.mem_cons.1 h with e | h
          · exact absurd e hx
          · exact .inl h
        · right
          rw [unlistHead_waitsAt, h]
          simp
  exact key _ u (.inl hk)

/-- A transporter whose orders have ended and that has left its queues has parted with them. -/
theorem parted_left {s : State} (hr : s.refsRight) (hs : s.slotsRight) (t : Nat) :
    Parted t (fun k => ∃ o, s.order k = some o ∧ o.transporter = t) ((s.endAllOrders t).leaveQueues t) := by
  have ended : ∀ k o, (s.endAllOrders t).order k = some o → o.transporter = t → o.state = .ended := by
    intro k o ho ht
    rw [endAllOrders_order] at ho
    split at ho
    · obtain ⟨o', -, rfl⟩ := Option.map_eq_some_iff.1 ho
      rfl
    · next hk =>
      by_contra hne
      exact hk (mem_liveSlots.2 ⟨hs k o ho, o, ho, ht, by simp [Order.live, hne]⟩)
  have hr1 := refsRight_endAllOrders hr t
  have hmine : ∀ k, (∃ o, s.order k = some o ∧ o.transporter = t) ↔ ∃ o, (s.endAllOrders t).order k = some o ∧ o.transporter = t := by
    intro k
    rw [endAllOrders_order]
    split
    · constructor
      · rintro ⟨o, ho, ht⟩
        exact ⟨Order.endedAs o .cancelled, by rw [ho]; rfl, ht⟩
      · rintro ⟨o, ho, ht⟩
        obtain ⟨o', ho', rfl⟩ := Option.map_eq_some_iff.1 ho
        exact ⟨o', ho', ht⟩
    · exact Iff.rfl
  refine ⟨refsRight_same hr1 (leaveQueues_orders _ _), ?_, ⟨?_, fun k => ?_, fun m => leaveQueues_queue _ t m, fun k m hk => ?_⟩⟩
  · unfold State.startingDivert
    rw [List.find?_eq_none]
    intro k _
    rw [leaveQueues_order]
    cases ho : (s.endAllOrders t).order k with
    | none => simp
    | some o =>
      dsimp only
      by_cases ht : o.transporter = t
      · rw [ended k o ho ht]; simp
      · simp [ht]
  · have e : ((s.endAllOrders t).leaveQueues t).orderRefs t = (s.endAllOrders t).orderRefs t := by
      unfold State.orderRefs
      rw [leaveQueues_orders]
    rw [e]
    cases ha : ((s.endAllOrders t).orderRefs t).active with
    | none => rfl
    | some k =>
      obtain ⟨o, ho, ht, hl⟩ := hr1 t k (by simp [OrderRefs.named, ha])
      unfold Order.live at hl
      rw [ended k o ho ht] at hl
      cases hl
  · rw [leaveQueues_order]
    exact hmine k
  · obtain ⟨o, ho, ht⟩ := (hmine k).1 hk
    exact leaveQueues_heads _ t ho ht m

/-! ### What is left once the work is done -/

theorem refs_empty {s : State} (h : s.refsRight) (he : ∀ k o, s.order k = some o → o.transporter = i → o.state = .ended) :
    s.orderRefs i = { active := none, stack := [], pendingDivert := none } := by
  have hn : ∀ k, k ∉ (s.orderRefs i).named := by
    intro k hk
    obtain ⟨o, ho, ht, hl⟩ := h i k hk
    unfold Order.live at hl
    rw [he k o ho ht] at hl
    cases hl
  cases hr : s.orderRefs i with
  | mk a st pd =>
    rw [hr] at hn
    unfold OrderRefs.named at hn
    cases a with
    | some k => exact absurd (by simp) (hn k)
    | none => cases pd with
      | some k => exact absurd (by simp) (hn k)
      | none => cases st with
        | nil => rfl
        | cons k l => exact absurd (by simp) (hn k)

/-- Where a transporter has parted with its orders, all ended, the event's work leaves them so, and it holds no segment whose release was listed. -/
theorem parted_result {s : State} (h : Parted i K s) (hn : ∀ x ∈ s.agenda, foreign i K x)
    (he : ∀ k o, s.order k = some o → o.transporter = i → o.state = .ended) :
    (∀ k o, s.order k = some o → o.transporter = i → ∃ o', (workOff s).order k = some o' ∧ o'.state = .ended ∧ o'.outcome = o.outcome) ∧
      (workOff s).orderRefs i = { active := none, stack := [], pendingDivert := none } ∧ (∀ m, i ∉ ((workOff s).seg m).queue) ∧
      (∀ m, ((workOff s).seg m).holder = some i → (s.seg m).holder = some i) ∧
      ((workOff s).agenda = [] → ∀ m, Task.release m i ∈ s.agenda → ((workOff s).seg m).holder ≠ some i) := by
  obtain ⟨h1, h2, h3⟩ := parted_workOff h hn
  have hnr : noReport s := fun x hx => (hn x hx).1.1
  have hst : ∀ k o, s.order k = some o → o.transporter = i → ∃ o', (workOff s).order k = some o' ∧ o' = { o with claim := o'.claim, head := o'.head } :=
    fun k o ho ht => (ended_stays h.refs hnr ho (he k o ho ht)).spec
  refine ⟨fun k o ho ht => ?_, refs_empty h1.refs fun k o' ho' ht' => ?_, h1.orderless.queues, h2, h3⟩
  · obtain ⟨o', ho', e⟩ := hst k o ho ht
    exact ⟨o', ho', by rw [e]; exact he k o ho ht, by rw [e]⟩
  · obtain ⟨o, ho, ht⟩ := (h.orderless.mine k).1 ((h1.orderless.mine k).2 ⟨o', ho', ht'⟩)
    obtain ⟨o'', ho'', e⟩ := hst k o ho ht
    rw [ho'] at ho''
    cases ho''
    rw [e]
    exact he k o ho ht

theorem kept_endOne (t : Nat) (s : State) (slot : Nat) : Kept s (endOne t s slot) := by
  unfold endOne
  refine Kept.trans ?_ (calm_endOrder _ _ _).toKept
  split
  · split
    · exact kept_settleTransfer _ _ _ _
    · exact .refl s
  · exact .refl s

theorem kept_endAllOrders (s : State) (t : Nat) : Kept s (s.endAllOrders t) := by
  rw [endAllOrders_eq]
  generalize s.liveSlots t = l
  induction l generalizing s with
  | nil => exact .refl s
  | cons x rest ih => exact (kept_endOne t s x).trans (ih _)

/-- An ORDER-ENDED for each live order that ends with its transporter's record (R87). -/
theorem endAllOrders_notices (s : State) (t : Nat) : ∀ k ∈ s.liveSlots t, ⟨.orderEnded, k⟩ ∈ (s.endAllOrders t).port.notices := by
  rw [endAllOrders_eq]
  have live : ∀ k ∈ s.liveSlots t, (s.order k).isSome = true := fun k hk => by
    obtain ⟨-, o, ho, -⟩ := mem_liveSlots.1 hk
    rw [ho]
    rfl
  generalize s.liveSlots t = l at live
  have keeps : ∀ (l : List Nat) (s : State) n, n ∈ s.port.notices → n ∈ (l.foldl (endOne t) s).port.notices := by
    intro l
    induction l with
    | nil => intro s n h; exact h
    | cons x rest ih => intro s n h; exact ih _ n ((kept_endOne t s x).notices n h)
  induction l generalizing s with
  | nil => intro k hk; cases hk
  | cons x rest ih =>
    intro k hk
    rw [List.foldl_cons]
    rcases List.mem_cons.1 hk with rfl | hk
    · refine keeps rest _ _ ?_
      obtain ⟨o, ho⟩ := Option.isSome_iff_exists.1 (live k List.mem_cons_self)
      have := endOrder_notice (match s.transferOf t with
        | some (p, x) => if x.order = k then s.abandonTransfer p x else s
        | none => s) k .cancelled o (by rw [abandoned_order]; exact ho)
      simpa [endOne] using this
    · refine ih (endOne t s x) (fun m hm => ?_) k hk
      rw [endOne_order]
      have := live m (List.mem_cons_of_mem _ hm)
      split
      · next e => subst e; rw [Option.isSome_map]; exact this
      · exact this

/-- Once the orders of a transporter have ended and it has left its queues, and the work that remains concerns no order of it: what that work leaves (R87,
R134, R143). -/
theorem left_work {s u : State} {i : Nat} (hl : s.slotsRight) (ho : u.orders = ((s.endAllOrders i).leaveQueues i).orders)
    (hp : Parted i (fun k => ∃ o, s.order k = some o ∧ o.transporter = i) u)
    (ha : ∀ x ∈ u.agenda, foreign i (fun k => ∃ o, s.order k = some o ∧ o.transporter = i) x)
    (hn : ∀ n ∈ (s.endAllOrders i).port.notices, n ∈ u.port.notices) :
    (∀ k o, s.order k = some o → o.transporter = i → o.live = true →
      (∃ o', (workOff u).order k = some o' ∧ o'.state = .ended ∧ o'.outcome = some .cancelled) ∧ ⟨.orderEnded, k⟩ ∈ (workOff u).port.notices) ∧
      (workOff u).orderRefs i = { active := none, stack := [], pendingDivert := none } ∧ (∀ m, i ∉ ((workOff u).seg m).queue) ∧
      (∀ m, ((workOff u).seg m).holder = some i → (u.seg m).holder = some i) ∧
      ((workOff u).agenda = [] → ∀ m, Task.release m i ∈ u.agenda → ((workOff u).seg m).holder ≠ some i) := by
  have eo : ∀ k, u.order k = (s.endAllOrders i).order k := fun k => by
    unfold State.order
    rw [ho, leaveQueues_orders]
  have he : ∀ k o, u.order k = some o → o.transporter = i → o.state = .ended := by
    intro k o h ht
    rw [eo, endAllOrders_order] at h
    split at h
    · obtain ⟨o', -, rfl⟩ := Option.map_eq_some_iff.1 h
      rfl
    · next hk =>
      by_contra hne
      exact hk (mem_liveSlots.2 ⟨hl k o h, o, h, ht, by unfold Order.live; simp [hne]⟩)
  obtain ⟨h1, h2, h3, h4, h5⟩ := parted_result hp ha he
  refine ⟨fun k o h ht hlive => ?_, h2, h3, h4, h5⟩
  have hk : k ∈ s.liveSlots i := mem_liveSlots.2 ⟨hl k o h, o, h, ht, hlive⟩
  have hu : u.order k = some (Order.endedAs o .cancelled) := by
    rw [eo, endAllOrders_order, if_pos hk, h]
    rfl
  obtain ⟨o', e1, e2, e3⟩ := h1 k _ hu ht
  exact ⟨⟨o', e1, e2, e3⟩, (calm_workOff u fun x hx => (ha x hx).1.1).toKept.notices _ (hn _ (endAllOrders_notices s i k hk))⟩

/-! ### The two records that end so -/

/-- What removing a record leaves (R134). -/
theorem removeTrain_same (s : State) (i : Nat) : (s.removeTrain i).orders = s.orders ∧ (s.removeTrain i).core.segs = s.core.segs ∧
    (s.removeTrain i).core.waiting = s.core.waiting ∧
    (s.removeTrain i).junctions = s.junctions ∧ (s.removeTrain i).guards = s.guards ∧ (s.removeTrain i).agenda = s.agenda ∧ (s.removeTrain i).port = s.port ∧
    (s.removeTrain i).late = s.late := by
  unfold State.removeTrain
  dsimp only
  split <;> split <;> exact ⟨rfl, rfl, rfl, rfl, rfl, rfl, rfl, rfl⟩

theorem plain_tellHolder (s : State) (j : Nat) : Plain s (s.tellHolder j) := by
  unfold State.tellHolder
  split
  · exact plain_emit s (by simp [plainTask])
  · exact plain_same rfl

theorem plain_withdrawThrow (s : State) (j : Nat) : Plain s (s.withdrawThrow j) := by
  unfold State.withdrawThrow
  split
  · split
    · exact (Plain.trans (plain_same (by rfl)) (plain_tellHolder _ j)).trans (plain_emit _ (by simp [plainTask]))
    · exact plain_same rfl
  · exact plain_same rfl

theorem plain_junctionGranted (s : State) (j : Nat) : Plain s (s.junctionGranted j) := by
  unfold State.junctionGranted
  split
  · exact (Plain.trans (plain_same (by rfl)) (plain_withdrawThrow _ j)).trans (plain_emit _ (by simp [plainTask]))
  · exact plain_same rfl


/-- What a transporter put on its segment leaves: the orders, its queues and lists, and no segment but that one. -/
structure PutOn (i n : Nat) (K : Nat → Prop) (s t : State) : Prop where
  orders : t.orders = s.orders
  queues : ∀ m, i ∈ (t.seg m).queue → i ∈ (s.seg m).queue
  heads : ∀ k m, K k → t.waitsAt k m = true → s.waitsAt k m = true
  holders : ∀ m, m ≠ n → (t.seg m).holder = (s.seg m).holder
  plain : Plain s t
  answers : t.port.answers = s.port.answers
  late : t.late = s.late
  notices : ∀ x ∈ s.port.notices, x ∈ t.port.notices

theorem PutOn.trans {a b c : State} (h : PutOn i n K a b) (k : PutOn i n K b c) : PutOn i n K a c :=
  ⟨k.orders.trans h.orders, fun m hm => h.queues m (k.queues m hm), fun j m hj hw => h.heads j m hj (k.heads j m hj hw),
    fun m hm => (k.holders m hm).trans (h.holders m hm), h.plain.trans k.plain, k.answers.trans h.answers, k.late.trans h.late,
    fun x hx => k.notices x (h.notices x hx)⟩

theorem putOn_setSeg (s : State) (n : Nat) {r : SegDyn} (h : r.queue = (s.seg n).queue) : PutOn i n K s (s.setSeg n r) :=
  ⟨rfl, fun m hm => (by
      rw [setSeg_seg] at hm
      split at hm
      · next e => subst e; exact h ▸ hm
      · exact hm), fun _ _ _ h => h, fun m hm => (by rw [setSeg_seg, if_neg hm]), plain_same rfl, rfl, rfl, fun _ h => h⟩

theorem putOn_aside {s t : State} (h0 : t.orders = s.orders) (h1 : t.core.segs = s.core.segs) (h2 : t.core.waiting = s.core.waiting)
    (h3 : t.guards = s.guards) (h4 : t.junctions = s.junctions) (h5 : Plain s t) (h6 : t.port = s.port) (h7 : t.late = s.late) : PutOn i n K s t :=
  have y : Yields i K s { t with agenda := s.agenda } := yields_aside h1 h2 (by rw [show State.guards { t with agenda := s.agenda } = _ from h3])
    (fun j => by unfold State.junction; rw [show State.junctions { t with agenda := s.agenda } = _ from h4]) rfl
  ⟨h0, y.queues, y.heads, fun m _ => by unfold State.seg; rw [h1], h5, by rw [h6], h7, fun x hx => by rw [h6]; exact hx⟩

theorem putOn_junctionGranted (s : State) (n : Nat) : PutOn i n K s (s.junctionGranted n) :=
  have y := yields_junctionGranted (i := i) (K := K) s n
  have c := calm_junctionGranted s n
  ⟨(junctionGranted_same s n).2.1, y.queues, y.heads, fun m _ => by unfold State.seg; rw [(junctionGranted_same s n).1], plain_junctionGranted s n,
    c.answers, c.late, c.toKept.notices⟩

/-- The transporter put on its segment after `clear-astray` (R143). -/
theorem putOn_putTrain (s : State) (n : Nat) : PutOn i n K s (s.putTrain i n) := by
  have confirm : ∀ (u : State) c, PutOn i n K u (u.setConfirm i c) := fun u c => by
    unfold State.setConfirm
    split <;> exact putOn_aside rfl rfl rfl rfl rfl (plain_same rfl) rfl rfl
  have renew : ∀ (u : State) f, PutOn i n K u (u.updateTrain i f) := fun u f => by
    unfold State.updateTrain
    split <;> exact putOn_aside rfl rfl rfl rfl rfl (plain_same rfl) rfl rfl
  have emits : ∀ (u : State), PutOn i n K u (u.emit [.recompute i]) := fun u =>
    putOn_aside rfl rfl rfl rfl rfl (plain_emit u (by simp [plainTask])) rfl rfl
  unfold State.putTrain
  dsimp only
  refine PutOn.trans (PutOn.trans (PutOn.trans ?_ (renew _ _)) (confirm _ _)) (emits _)
  split
  · exact putOn_setSeg s n rfl
  · exact ((putOn_setSeg s n (r := { s.seg n with holder := some i }) rfl).trans (emits _)).trans (putOn_junctionGranted _ n)

end Sys2Proof.Laws
end

