-- ==== Sys2Proof/Laws/Braking.lean ====
section
/-!
SUPPORT. Laws/Braking.lean: while the array hold is active an event's work moves no run limit but to the transporter's position, and touches no transfer
record (R120, R167, R168).
-/

namespace Sys2Proof.Laws

open Sys2Proof.Machine

/-- The run limits and the transfer records stand. -/
structure Braked (s t : State) : Prop where
  transfers : t.transfer.transfers = s.transfer.transfers
  limits : ∀ i, (t.run i).map (·.limit) = (s.run i).map (·.limit)

theorem Braked.refl (s : State) : Braked s s := ⟨rfl, fun _ => rfl⟩

theorem Braked.trans {a b c : State} (h : Braked a b) (k : Braked b c) : Braked a c :=
  ⟨k.transfers.trans h.transfers, fun i => (k.limits i).trans (h.limits i)⟩

theorem Braked.foldl {α : Type} {f : State → α → State} (h : ∀ s x, Braked s (f s x)) (l : List α) (s : State) : Braked s (l.foldl f s) := by
  induction l generalizing s with
  | nil => exact .refl s
  | cons x rest ih => exact (h s x).trans (ih _)

theorem braked_ite {s : State} {p : Prop} [Decidable p] {a b : State} (ha : p → Braked s a) (hb : ¬p → Braked s b) :
    Braked s (if p then a else b) := by
  split
  · exact ha ‹_›
  · exact hb ‹_›

/-! ### The writes -/

theorem braked_aside {s t : State} (h1 : t.transfer.transfers = s.transfer.transfers) (h2 : t.core.runs = s.core.runs) : Braked s t :=
  ⟨h1, fun i => by unfold State.run; rw [h2]⟩

theorem braked_emit (s : State) (xs : List Task) : Braked s (s.emit xs) := braked_aside rfl rfl

theorem braked_setSeg (s : State) (m : Nat) (r : SegDyn) : Braked s (s.setSeg m r) := braked_aside rfl rfl

theorem braked_setOrder (s : State) (k : Nat) (o : Option Order) : Braked s (s.setOrder k o) := braked_aside rfl rfl

theorem braked_setRefs (s : State) (t : Nat) (r : OrderRefs) : Braked s (s.setRefs t r) := braked_aside rfl rfl

theorem braked_setPad (s : State) (p : Nat) (r : PadRec) : Braked s (s.setPad p r) := braked_aside rfl rfl

theorem braked_setJunction (s : State) (j : Nat) (r : Option JunctionRec) : Braked s (s.setJunction j r) := braked_aside rfl rfl

theorem braked_makeDue (s : State) (k : Nat) : Braked s (s.makeDue k) := braked_aside rfl rfl

theorem braked_raise (s : State) (k : NoticeKind) (m : Nat) : Braked s (s.raise k m) := braked_aside rfl rfl

theorem braked_setOutQueue (s : State) (q : List OutMessage) : Braked s (s.setOutQueue q) := braked_aside rfl rfl

theorem braked_unlistHead (s : State) (slot : Nat) : Braked s (s.unlistHead slot) := braked_aside rfl rfl

/-! ### The out-queue and the Junction Controller -/

theorem braked_operationSent (s : State) (j : Nat) : Braked s (s.operationSent j) := by
  unfold State.operationSent
  split
  · next r hr =>
    split
    · exact braked_setJunction _ _ _
    · exact .refl s
  · exact .refl s

theorem braked_commit (s : State) : Braked s s.commit := by
  unfold State.commit
  split
  · exact .refl s
  · split
    · exact .refl s
    · next m _ =>
      refine Braked.trans (b := (s.setOutQueue (eraseFirst s.eligible s.wayside.outQueue)).setTransmitter (.sending m))
        (braked_aside rfl rfl) ?_
      generalize (s.setOutQueue (eraseFirst s.eligible s.wayside.outQueue)).setTransmitter (.sending m) = u
      cases m with
      | throw j _ => exact braked_operationSent u j
      | prove j => exact braked_operationSent u j
      | couple p => exact braked_ite (fun _ => braked_setPad u p _) (fun _ => .refl u)
      | uncouple p => exact .refl u

theorem braked_handOut (s : State) (m : OutMessage) : Braked s (s.handOut m) := (braked_setOutQueue s _).trans (braked_commit _)

theorem braked_takeBack (s : State) (p : OutMessage → Bool) : Braked s (s.takeBack p) := braked_setOutQueue s _

theorem braked_tellHolder (s : State) (j : Nat) : Braked s (s.tellHolder j) := by
  unfold State.tellHolder
  split
  · exact braked_emit s _
  · exact .refl s

theorem braked_rotationEnds (s : State) (op : Option Operation) : Braked s (s.rotationEnds op) :=
  braked_ite (fun _ => braked_aside rfl rfl) (fun _ => .refl s)

theorem braked_queueThrow (s : State) (j : Nat) (target : SwitchSetting) : Braked s (s.queueThrow j target) := by
  unfold State.queueThrow
  split
  · exact .refl s
  · next r hr =>
    have hr' : (s.rotationEnds r.operation).junction j = some r := by
      unfold State.rotationEnds
      split <;> exact hr
    exact (((braked_rotationEnds s _).trans (braked_setJunction _ _ _)).trans (braked_handOut _ _)).trans (braked_tellHolder _ _)

theorem braked_throwCheck (s : State) (j : Nat) : Braked s (s.throwCheck j) := by
  unfold State.throwCheck
  split
  · split
    · exact braked_ite (fun _ => braked_queueThrow s j _) (fun _ => .refl s)
    · exact .refl s
  · exact .refl s

theorem braked_restDecision (s : State) (j : Nat) : Braked s (s.restDecision j) := by
  unfold State.restDecision
  split
  · split
    · exact braked_ite (fun _ => braked_queueThrow s j _) (fun _ => .refl s)
    · exact .refl s
  · exact .refl s

theorem braked_withdrawThrow (s : State) (j : Nat) : Braked s (s.withdrawThrow j) := by
  unfold State.withdrawThrow
  split
  · next r hr =>
    split
    · exact (((braked_takeBack s _).trans (braked_setJunction _ _ _)).trans (braked_tellHolder _ _)).trans (braked_emit _ _)
    · exact .refl s
  · exact .refl s

theorem braked_junctionReleased (s : State) (j : Nat) : Braked s (s.junctionReleased j) := by
  unfold State.junctionReleased
  split
  · next r hr => exact (braked_setJunction _ _ _).trans (braked_withdrawThrow _ _)
  · exact .refl s

theorem braked_junctionGranted (s : State) (j : Nat) : Braked s (s.junctionGranted j) := by
  unfold State.junctionGranted
  split
  · next r hr => exact ((braked_setJunction _ _ _).trans (braked_withdrawThrow _ _)).trans (braked_emit _ _)
  · exact .refl s

theorem braked_reviewJunctions (s : State) (t : Nat) : Braked s (s.reviewJunctions t) := by
  refine Braked.foldl (fun s j => ?_) _ s
  refine Braked.trans ?_ (braked_emit _ _)
  unfold State.dropUnneededThrow
  split
  · split
    · exact braked_ite (fun _ => .refl s) (fun _ => braked_withdrawThrow s j)
    · exact .refl s
  · exact .refl s

theorem braked_rotation (s : State) : Braked s s.rotation := by
  unfold State.rotation
  refine braked_ite (fun _ => ?_) (fun _ => .refl s)
  split
  · exact .refl s
  · next j _ =>
    split
    · exact .refl s
    · next r hr =>
      dsimp only
      generalize hu : s.setJunction j (some { r with operation := some ⟨.prove .rotation, .queued, .stopped⟩ }) = u
      have hj : Braked s u := hu ▸ braked_setJunction _ _ _
      exact hj.trans (Braked.trans (b := u.setPointer (some j)) (braked_aside rfl rfl) (braked_handOut _ _))

/-! ### The Interlock Core -/

/-- A run record with the limit that it had. -/
theorem braked_setRun (s : State) (t : Nat) {r : RunRec} (h : (s.run t).map (·.limit) = some r.limit) : Braked s (s.setRun t (some r)) :=
  ⟨rfl, fun i => by
    rw [setRun_run]
    split
    · next e => subst e; exact h.symm
    · rfl⟩

theorem braked_setConfirm (s : State) (t : Nat) (c : Confirm) : Braked s (s.setConfirm t c) := by
  unfold State.setConfirm
  split
  · next r hr => exact braked_setRun s t (by rw [hr]; rfl)
  · exact .refl s

theorem braked_settleConfirm (s : State) (t : Nat) : Braked s (s.settleConfirm t) :=
  braked_ite (fun _ => braked_setConfirm s _ _) (fun _ => .refl s)

theorem braked_mark (s : State) (t : Nat) (ns : List Nat) (d : Disposition) : Braked s (s.mark t ns d) :=
  Braked.foldl (fun s m => braked_ite (fun _ => braked_setSeg s m _) (fun _ => .refl s)) _ s

theorem braked_unmark (s : State) (ns : List Nat) : Braked s (s.unmark ns) := Braked.foldl (fun s m => braked_setSeg s m _) _ s

theorem braked_makeActiveDue (s : State) (t : Nat) : Braked s (s.makeActiveDue t) := by
  unfold State.makeActiveDue
  split
  · exact braked_makeDue s _
  · exact .refl s

theorem braked_reviseMarks (s : State) (t : Nat) : Braked s (s.reviseMarks t) := by
  unfold State.reviseMarks
  dsimp only
  refine braked_ite (fun _ => braked_ite (fun _ => .refl s) fun _ => ?_) (fun _ => braked_ite (fun _ => .refl s) fun _ => ?_)
  · exact ((braked_mark s t _ _).trans (braked_setConfirm _ t _)).trans (braked_emit _ _)
  · exact ((braked_unmark s _).trans (braked_settleConfirm _ t)).trans (braked_makeActiveDue _ t)

theorem braked_withdraw (s : State) (t k : Nat) : Braked s (s.withdraw t k) := by
  unfold State.withdraw
  dsimp only
  have step : Braked s (if k < s.sentReach t then
      if s.heldBeyond t k = [] then s
      else
        if s.releaseCause t then
          ((s.mark t (s.heldBeyond t k) (if s.releaseCause t then .release else .keep)).setConfirm t .awaitingPoll).emit [.reviewJunctions t]
        else (s.mark t (s.heldBeyond t k) (if s.releaseCause t then .release else .keep)).setConfirm t .awaitingPoll
    else if s.releaseCause t then s.emit (((s.heldBeyond t k).filter (s.yieldsAtOnce t)).map fun n => .release n t)
    else s.mark t ((s.heldBeyond t k).filter (s.keepCause t)) .keep) := by
    refine braked_ite (fun _ => braked_ite (fun _ => .refl s) fun _ => braked_ite (fun _ => ?_) fun _ => ?_)
      fun _ => braked_ite (fun _ => ?_) fun _ => ?_
    · exact ((braked_mark s t _ _).trans (braked_setConfirm _ t _)).trans (braked_emit _ _)
    · exact (braked_mark s t _ _).trans (braked_setConfirm _ t _)
    · exact braked_emit s _
    · exact braked_mark s t _ _
  exact braked_ite (fun _ => step.trans (braked_emit _ _)) fun _ => step

theorem braked_fallBack (s : State) (t m : Nat) : Braked s (s.fallBack t m) := by
  unfold State.fallBack
  split
  · exact .refl s
  · split
    · exact .refl s
    · exact braked_ite (fun _ => (braked_setOrder s _ _).trans (braked_makeDue _ _)) (fun _ => .refl s)

theorem braked_grant (s : State) (t m : Nat) : Braked s (s.grant t m) := by
  unfold State.grant
  have h1 : Braked s (s.setSeg m { s.seg m with holder := some t }) :=
    braked_setSeg s m _
  exact (h1.trans (braked_emit _ [.recompute t])).trans (braked_junctionGranted _ _)

theorem braked_release (s : State) (m t : Nat) : Braked s (s.release m t) := by
  unfold State.release
  dsimp only
  refine braked_ite (fun _ => .refl s) fun _ => ?_
  refine Braked.trans ?_ (braked_emit _ _)
  have h1 : Braked s (s.setSeg m { s.seg m with holder := none, leaving := false, withdrawing := none }) :=
    braked_setSeg s m _
  have h2 := h1.trans (braked_ite (p := (s.seg m).withdrawing.isSome = true) (fun _ => braked_settleConfirm _ t) (fun _ => .refl _))
  have h3 := (h2.trans (braked_fallBack _ t m)).trans (braked_junctionReleased _ m)
  exact h3.trans (braked_ite (fun _ => braked_raise _ _ _) (fun _ => braked_emit _ _))

/-! ### Claims -/

theorem braked_applyResult (s : State) (slot m : Nat) (x : ClaimResult) : Braked s (s.applyResult slot m x) := by
  unfold State.applyResult
  split
  · exact .refl s
  · exact braked_ite (fun _ => (braked_setOrder s _ _).trans (braked_makeDue _ _)) (fun _ => braked_setOrder s _ _)

theorem braked_leaveQueue (s : State) (t m : Nat) : Braked s (s.leaveQueue t m) := by
  unfold State.leaveQueue
  dsimp only
  refine braked_ite (fun _ => ?_) (fun _ => .refl s)
  have h1 : Braked s (s.setSeg m { s.seg m with queue := (s.seg m).queue.filter fun u => decide (u ≠ t) }) :=
    braked_setSeg s m _
  exact braked_ite (fun _ => h1.trans (braked_emit _ _)) (fun _ => h1)

theorem braked_removeHead (s : State) (slot : Nat) : Braked s (s.removeHead slot) := by
  unfold State.removeHead
  split
  · exact .refl s
  · dsimp only
    refine Braked.trans ?_ (braked_setOrder _ _ _)
    split
    · exact (braked_unlistHead s slot).trans (braked_leaveQueue _ _ _)
    · exact braked_unlistHead s slot

theorem braked_endOrder (s : State) (slot : Nat) (x : OrderOutcome) : Braked s (s.endOrder slot x) := by
  have h0 : Braked s ((s.removeHead slot).dropClaim slot) := (braked_removeHead s slot).trans (braked_aside rfl rfl)
  unfold State.endOrder
  dsimp only
  split
  · exact h0
  · refine Braked.trans ?_ (braked_emit _ _)
    have h1 : ∀ (k : NoticeKind) (m : Nat) (o' : Option Order) (u : Nat) (r : OrderRefs),
        Braked s (((((s.removeHead slot).dropClaim slot).setOrder slot o').setRefs u r).raise k m) := fun k m o' u r =>
      ((h0.trans (braked_setOrder _ slot o')).trans (braked_setRefs _ u r)).trans (braked_raise _ k m)
    split
    · exact h1 _ _ _ _ _
    · exact h1 _ _ _ _ _

theorem braked_failOrder (s : State) (slot : Nat) (c : FailureCause) : Braked s (s.failOrder slot c) := by
  unfold State.failOrder
  split
  · exact .refl s
  · exact ((braked_setOrder s slot _).trans (braked_raise _ _ _)).trans (braked_emit _ _)

theorem braked_popTo (s : State) (t : Nat) (place : Place) : Braked s (s.popTo t place) := by
  unfold State.popTo
  split
  · exact .refl s
  · split
    · exact .refl s
    · exact ((braked_setOrder s _ _).trans (braked_setRefs _ _ _)).trans (braked_makeDue _ _)

theorem braked_arrival (s : State) (t : Nat) : Braked s (s.arrival t) := by
  unfold State.arrival
  split
  · exact .refl s
  · next slot o _ =>
    refine braked_ite (fun _ => .refl s) fun _ => braked_ite (fun _ => braked_ite (fun _ => ?_) fun _ => braked_ite (fun _ => ?_) fun _ => .refl s)
      fun _ => braked_ite (fun _ => ?_) fun _ => .refl s
    · unfold State.rejoin
      dsimp only
      have h0 := braked_endOrder  s slot .done
      split
      · exact h0
      · next place _ =>
        have h1 := h0.trans (braked_popTo _ t place)
        split
        · exact h1
        · exact braked_ite (fun _ => h1.trans (braked_emit _ _)) (fun _ => h1.trans (braked_emit _ _))
    · exact ((braked_setOrder s slot _).trans (braked_removeHead _ _)).trans (braked_emit _ _)
    · have h1 : Braked s ((s.setOrder slot (some { o with state := .arrived })).emit [.recompute t, .reviewJunctions t]) :=
        (braked_setOrder s slot _).trans (braked_emit _ _)
      exact braked_ite (fun _ => h1.trans (braked_endOrder _ _ _)) (fun _ => h1)

theorem braked_startDivert (s : State) (t slot : Nat) (refuge : Order) (place : Place) : Braked s (s.startDivert t slot refuge place) := by
  unfold State.startDivert
  dsimp only
  refine Braked.trans ?_ (braked_emit _ _)
  split
  · exact (braked_setOrder s slot _).trans (braked_removeHead _ _)
  · exact braked_setOrder s slot _

theorem braked_complete (s : State) (t : Nat) : Braked s (s.complete t) := by
  unfold State.complete
  refine braked_ite (fun _ => .refl s) fun _ => ?_
  split
  · next slot _ =>
    split
    · exact .refl s
    · next refuge _ =>
      refine braked_ite (fun _ => ?_) fun _ => ?_
      · unfold State.takeUpDivert
        dsimp only
        split
        · exact .refl s
        · next a o _ =>
          have h1 : Braked s (((s.setOrder a (some { o with state := .suspended, claim := o.cursor })).setOrder slot
              (some { refuge with state := .running })).setRefs t { s.orderRefs t with active := some slot, stack := a :: (s.orderRefs t).stack }) :=
            ((braked_setOrder s a _).trans (braked_setOrder _ slot _)).trans (braked_setRefs _ _ _)
          have h2 := fun xs => ((h1.trans (braked_emit _ xs)).trans (braked_emit _ [.recompute t, .reviewJunctions t])).trans (braked_makeDue _ slot)
          exact braked_ite (fun _ => (h2 _).trans (braked_emit _ _)) (fun _ => h2 _)
      · exact ((braked_endOrder s slot .void).trans (braked_makeActiveDue _ t)).trans (braked_emit _ _)
  · split
    · exact braked_ite (fun _ => braked_endOrder s _ _) (fun _ => .refl s)
    · exact .refl s

theorem braked_takeUpPending (s : State) (t : Nat) : Braked s (s.takeUpPending t) := by
  unfold State.takeUpPending
  split
  · exact .refl s
  · split
    · exact .refl s
    · dsimp only
      split
      · exact braked_ite (fun _ => (braked_setRefs s _ _).trans (braked_startDivert _ _ _ _ _)) (fun _ => braked_endOrder s _ _)
      · exact braked_endOrder s _ _

/-- No ARRIVED order starts its transfer under the hold (R79, R168). -/
theorem startTransfers_held {s : State} (h : s.holdActive = true) : s.startTransfers = s := by
  have e : slots.find? s.mayTransfer = none := by
    rw [List.find?_eq_none]
    intro k _
    unfold State.mayTransfer
    rw [h]
    split <;> simp
  unfold State.startTransfers
  rw [e]

theorem braked_updateTrain (s : State) (t : Nat) (f : TransporterRec → TransporterRec) : Braked s (s.updateTrain t f) := by
  unfold State.updateTrain
  split
  · exact braked_aside rfl rfl
  · exact .refl s

theorem braked_confirmPolled (s : State) (t : Nat) : Braked s (s.confirmPolled t) := by
  unfold State.confirmPolled
  split
  · exact braked_ite (fun _ => braked_setConfirm s _ _) (fun _ => .refl s)
  · exact .refl s

theorem braked_pollNext (s : State) : Braked s s.pollNext := by
  unfold State.pollNext
  refine braked_ite (fun _ => .refl s) (fun _ => ?_)
  split
  · unfold State.poll
    split
    · exact .refl s
    · dsimp only
      refine ((Braked.trans ?_ (braked_updateTrain _ _ _)).trans (braked_confirmPolled _ _)).trans (braked_updateTrain _ _ _)
      exact braked_aside rfl rfl
  · exact .refl s

theorem resumeTransfers_held {s : State} (h : s.holdActive = true) : s.resumeTransfers = s.setHoldEnding false := by
  unfold State.resumeTransfers
  exact if_pos h

theorem braked_claimEffect (s : State) (t slot m : Nat) (x : ClaimResult) : Braked s (s.claimEffect t slot m x) := by
  cases x with
  | granted =>
    refine braked_ite (fun _ => ?_) fun _ => braked_grant s t m
    exact (braked_setSeg s m _).trans (braked_emit _ [.recompute t, .throwCheck m])
  | queued => exact braked_setSeg s m _
  | waitSensor => exact braked_aside rfl rfl
  | waitIntrusion => exact braked_aside rfl rfl
  | waitSwitch =>
    simp only [State.claimEffect]
    split
    · exact braked_setJunction _ _ _
    · exact .refl s
  | refusedFenced => exact Braked.trans (b := s.setFenced (insertFenced ⟨slot, m⟩ s.guards.fenced)) (braked_aside rfl rfl) (braked_raise _ _ _)
  | refusedCycle => exact Braked.trans (b := s.waitFor slot m .cycle) (braked_aside rfl rfl) (braked_raise _ _ _)
  | full => exact braked_aside rfl rfl

theorem braked_decideClaim (s : State) (slot m : Nat) : Braked s (s.decideClaim slot m) := by
  unfold State.decideClaim
  split
  · exact .refl s
  · exact (braked_claimEffect s _ slot m _).trans (braked_applyResult _ _ _ _)

/-! ### A task -/

/-- Under the hold, a task that recomputes no limit moves none, and no task touches a transfer. -/
theorem braked_runTask (x : Task) (s : State) (hh : s.holdActive = true) (hx : inReport x = false) (hr : ∀ t, x ≠ .recompute t) :
    Braked s (runTask x s) := by
  cases x <;> first | (simp [inReport] at hx; done) | skip
  case recompute t => exact absurd rfl (hr t)
  case release m t => exact braked_release s m t
  case tailRelease m t => exact braked_ite (fun _ => braked_emit s _) (fun _ => .refl s)
  case serve m =>
    show Braked s (s.serve m)
    unfold State.serve
    refine braked_ite (fun _ => ?_) (fun _ => .refl s)
    split
    · exact .refl s
    · next t rest hq =>
      dsimp only
      refine Braked.trans ?_ (braked_emit _ _)
      have h1 : Braked s ((s.setSeg m { s.seg m with queue := rest }).grant t m) := (braked_setSeg s m _).trans (braked_grant _ t m)
      split
      · exact h1.trans (braked_applyResult _ _ _ _)
      · exact h1
  case serveAll => exact braked_emit s _
  case retry m cs => exact braked_emit s _
  case retryAll => exact braked_emit s _
  case represent slot m => exact braked_ite (fun _ => (braked_unlistHead s slot).trans (braked_decideClaim _ slot m)) (fun _ => .refl s)
  case claim slot =>
    show Braked s (s.claim slot)
    unfold State.claim
    split
    · exact .refl s
    · split
      · exact .refl s
      · exact braked_decideClaim s slot _
  case extend =>
    show Braked s s.extend
    unfold State.extend
    split
    · exact .refl s
    · exact braked_ite (fun _ => braked_emit s _) (fun _ => braked_aside rfl rfl)
  case throwCheck j => exact braked_throwCheck s j
  case restDecision j => exact braked_restDecision s j
  case reviewJunctions t => exact braked_reviewJunctions s t
  case rotation => exact braked_rotation s
  case confirm t =>
    show Braked s (s.confirm t)
    unfold State.confirm
    split
    · exact .refl s
    · exact braked_ite (fun _ => braked_emit s _) (fun _ => .refl s)
  case confirmed t =>
    show Braked s (s.confirmed t)
    unfold State.confirmed
    split
    · exact .refl s
    · exact braked_ite (fun _ => (braked_setConfirm s t _).trans (braked_emit _ _)) (fun _ => braked_emit s _)
  case complete t => exact braked_complete s t
  case arrival t => exact braked_arrival s t
  case takeUpPending t => exact braked_takeUpPending s t
  case startTransfers =>
    show Braked s s.startTransfers
    rw [startTransfers_held hh]
    exact .refl s
  case quietTest =>
    show Braked s s.quietTest
    unfold State.quietTest
    refine braked_ite (fun _ => ?_) (fun _ => .refl s)
    refine Braked.trans ?_ (braked_raise _ _ _)
    exact braked_aside rfl rfl
  case pollNext => exact braked_pollNext s
  case resumeTransfers =>
    show Braked s s.resumeTransfers
    rw [resumeTransfers_held hh]
    exact braked_aside rfl rfl

/-- The limit of a transporter, where it has one, is its position (R35). -/
def AtStand (i : Nat) (s : State) : Prop := ∀ r y, s.run i = some r → s.train i = some y → r.limit = y.position

theorem trainShape_position {s t : State} (h : ∀ i, (t.train i).map trainShape = (s.train i).map trainShape) {i : Nat} {y : TransporterRec}
    (hy : t.train i = some y) : ∃ y0, s.train i = some y0 ∧ y0.position = y.position := by
  have h := h i
  rw [hy] at h
  obtain ⟨y0, h0, e⟩ := Option.map_eq_some_iff.1 h.symm
  unfold trainShape at e
  simp only [Prod.mk.injEq] at e
  exact ⟨y0, h0, e.1⟩

theorem atStand_braked {s t : State} {i : Nat} (h : AtStand i s) (b : Braked s t) (c : Calm s t) : AtStand i t := by
  intro r y hr hy
  obtain ⟨y0, h0, e⟩ := trainShape_position c.trains hy
  have hl := b.limits i
  rw [hr] at hl
  obtain ⟨r0, hr0, e'⟩ := Option.map_eq_some_iff.1 hl.symm
  exact (e' : r0.limit = r.limit).symm.trans ((h r0 y0 hr0 h0).trans e)

/-- A recomputation under the hold: the transporter's limit is its position, and no other limit moves (R35, R37). -/
theorem recompute_held {s : State} (hh : s.holdActive = true) (t : Nat) :
    (s.recompute t).transfer.transfers = s.transfer.transfers ∧ AtStand t (s.recompute t) ∧
      ∀ i, i ≠ t → ((s.recompute t).run i).map (·.limit) = (s.run i).map (·.limit) := by
  refine ⟨?_, ?_, ?_⟩
  · unfold State.recompute
    split
    · rfl
    · dsimp only
      split
      · exact (braked_reviseMarks s t).transfers
      · exact (braked_withdraw _ t _).transfers.trans (braked_reviseMarks s t).transfers
  · intro r y hr hy
    obtain ⟨y0, h0, e⟩ := trainShape_position (calm_recompute s t).trains hy
    have hm := marks_reviseMarks s t
    have hf : (s.reviseMarks t).reach t = 0 := by
      unfold State.reach State.forced
      rw [hm.holdActive, hh]
      rfl
    obtain ⟨r0, -, hl, -⟩ := recompute_of_run hr
    rw [hl, hf, limitAt_zero _ t y0.position ?_, e]
    unfold State.position State.train
    rw [hm.polls]
    exact congrArg (Option.map _) h0
  · intro i hi
    unfold State.recompute
    split
    · rfl
    · dsimp only
      split
      · exact (braked_reviseMarks s t).limits i
      · rw [(braked_withdraw _ t _).limits i, setRun_run, if_neg hi]
        exact (braked_reviseMarks s t).limits i

/-! ### The work of an event -/

/-- What an event's work leaves under the hold: no transfer is touched, a transporter at a stand stays so, and one whose limit is listed to be recomputed
comes to it (R35, R120, R167). -/
theorem held_workOff {s : State} (hh : s.holdActive = true) (hn : noReport s) :
    (workOff s).transfer.transfers = s.transfer.transfers ∧ (∀ i, AtStand i s → AtStand i (workOff s)) ∧
      ∀ i, .recompute i ∈ s.agenda → (workOff s).agenda = [] → AtStand i (workOff s) := by
  have holds : ∀ {u v : State}, Calm u v → u.holdActive = true → v.holdActive = true := fun c h => by
    unfold State.holdActive at h ⊢
    rw [c.hold]
    exact h
  have step : ∀ x (u : State), inReport x = false → u.holdActive = true →
      (runTask x u).transfer.transfers = u.transfer.transfers ∧ ∀ i, AtStand i u → AtStand i (runTask x u) := by
    intro x u hx hu
    by_cases hr : ∃ t, x = .recompute t
    · obtain ⟨t, rfl⟩ := hr
      obtain ⟨h1, h2, h3⟩ := recompute_held hu t
      refine ⟨h1, fun i h => ?_⟩
      by_cases e : i = t
      · subst e; exact h2
      · intro r y hr hy
        obtain ⟨y0, h0, e0⟩ := trainShape_position (calm_recompute u t).trains hy
        have hl := h3 i e
        rw [show (u.recompute t).run i = some r from hr] at hl
        obtain ⟨r0, hr0, e'⟩ := Option.map_eq_some_iff.1 hl.symm
        exact (e' : r0.limit = r.limit).symm.trans ((h r0 y0 hr0 h0).trans e0)
    · have b := braked_runTask x u hu hx fun t e => hr ⟨t, e⟩
      exact ⟨b.transfers, fun i h => atStand_braked h b (calm_runTask x u hx)⟩
  have last : ∀ x ∈ (s.emit [.extend, .startTransfers, .rotation]).agenda, inReport x = false := by
    intro x hx
    rcases List.mem_append.1 hx with hx | hx
    · exact hn x hx
    · simp only [List.mem_cons, List.not_mem_nil, or_false] at hx
      rcases hx with rfl | rfl | rfl <;> rfl
  let P : State → Prop := fun t => t.holdActive = true ∧ t.transfer.transfers = s.transfer.transfers
  have run : ∀ x (u : State), inReport x = false → u.agenda = [] → P u → P (runTask x u) ∧ ∀ y ∈ (runTask x u).agenda, inReport y = false :=
    fun x u hx ha h => ⟨⟨holds (calm_runTask x u hx) h.1, (step x u hx h.1).1.trans h.2⟩, fun y hy =>
      ((calm_runTask x u hx).agenda y hy).elim (fun e => by rw [ha] at e; cases e) id⟩
  have h0 : P (s.emit [.extend, .startTransfers, .rotation]) := ⟨hh, rfl⟩
  refine ⟨(settle_keeps (P := P) (ok := fun x => inReport x = false) (fun _ _ h => h) run _ _ h0 last).2, fun i h => ?_, fun i hi hend => ?_⟩
  · exact (settle_keeps (P := fun t => P t ∧ AtStand i t) (ok := fun x => inReport x = false) (fun _ _ h => h)
      (fun x u hx ha h => ⟨⟨(run x u hx ha h.1).1, (step x u hx h.1.1).2 i h.2⟩, (run x u hx ha h.1).2⟩) Config.eventBound _ ⟨h0, h⟩ last).2
  · exact settle_done (P := P) (Q := AtStand i) (ok := fun x => inReport x = false) (fun _ _ h => h) (fun _ _ h => h) run
      (fun x u hx _ h hq => (step x u hx h.1).2 i hq) (z := .recompute i) (fun u _ h => (recompute_held h.1 i).2.1)
      Config.eventBound _ h0 last (.inl (List.mem_append_left _ hi)) hend

/-! ### The transfer timers -/

/-- A transfer as the beginning of the hold leaves it: a running timer suspended with a time left, any other transfer as it was (R120). -/
def Paused (a b : Option TransferRec) : Prop :=
  (a = none → b = none) ∧ ∀ x, a = some x →
    (∀ time, x.timer = .running time → ∃ left, left ≤ time ∧ b = some { x with timer := .suspended left }) ∧
    (∀ time, x.timer = .suspended time → b = some x)

/-- One transfer timer suspended. -/
def pauseOne (s : State) (p : Nat) : State :=
  match s.transferAt p with
  | some x =>
    match x.timer with
    | .running time => (s.setTransfer p (some { x with timer := .suspended (s.timeLeft time) })).drawn
    | .suspended _ => s
  | none => s

theorem pauseOne_other (s : State) {p q : Nat} (h : q ≠ p) : (pauseOne s p).transferAt q = s.transferAt q := by
  unfold pauseOne
  split
  · split
    · show (s.setTransfer p _).transferAt q = _
      rw [setTransfer_transferAt, if_neg h]
    · rfl
  · rfl

theorem pauseOne_same (s : State) (p : Nat) : Paused (s.transferAt p) ((pauseOne s p).transferAt p) := by
  refine ⟨fun h => ?_, fun x h => ⟨fun time ht => ⟨s.timeLeft time, Nat.sub_le _ _, ?_⟩, fun time ht => ?_⟩⟩
  · unfold pauseOne; rw [h]; exact h
  · unfold pauseOne; rw [h]; simp only [ht]
    exact setTransfer_transferAt_same _ _ _
  · unfold pauseOne; rw [h]; simp only [ht]; exact h

theorem paused_again {a b c : Option TransferRec} (h : Paused a b) (k : c = b ∨ Paused b c) : Paused a c := by
  rcases k with rfl | k
  · exact h
  · refine ⟨fun e => k.1 (h.1 e), fun x e => ⟨fun time ht => ?_, fun time ht => ?_⟩⟩
    · obtain ⟨left, hl, hb⟩ := (h.2 x e).1 time ht
      exact ⟨left, hl, (k.2 _ hb).2 left rfl⟩
    · exact (k.2 x ((h.2 x e).2 time ht)).2 time ht

theorem pauseAll (l : List Nat) (s : State) (q : Nat) :
    ((l.foldl pauseOne s).transferAt q = s.transferAt q ∨ Paused (s.transferAt q) ((l.foldl pauseOne s).transferAt q)) ∧
      (q ∈ l → Paused (s.transferAt q) ((l.foldl pauseOne s).transferAt q)) := by
  induction l generalizing s with
  | nil => exact ⟨.inl rfl, fun h => by cases h⟩
  | cons p rest ih =>
    obtain ⟨h1, h2⟩ := ih (pauseOne s p)
    rw [List.foldl_cons]
    by_cases e : q = p
    · subst e
      have := paused_again (pauseOne_same s q) h1
      exact ⟨.inr this, fun _ => this⟩
    · rw [pauseOne_other s e] at h1 h2
      exact ⟨h1, fun hq => h2 ((List.mem_cons.1 hq).resolve_left e)⟩

/-- Every running transfer timer is suspended, and nothing else of the blocks changes but the free values drawn (R120, R167). -/
theorem suspendTransfers_transferAt (s : State) (p : Nat) : Paused (s.transferAt p) (s.suspendTransfers.transferAt p) := by
  have h := pauseAll (Table.keys s.transfer.transfers) s p
  by_cases hp : s.transferAt p = none
  · rcases h.1 with h1 | h1
    · refine ⟨fun _ => h1.trans hp, fun x e => by rw [hp] at e; cases e⟩
    · exact h1
  · exact h.2 (mem_keys_of_get hp)

theorem suspendTransfers_same (s : State) : s.suspendTransfers.core = s.core ∧ s.suspendTransfers.orders = s.orders ∧
    s.suspendTransfers.wayside = s.wayside ∧ s.suspendTransfers.guards = s.guards ∧ s.suspendTransfers.agenda = s.agenda ∧
    s.suspendTransfers.polls = s.polls ∧ s.suspendTransfers.late = s.late ∧ s.suspendTransfers.pending = s.pending ∧ s.suspendTransfers.port = s.port := by
  have key : ∀ (l : List Nat) (u : State), (l.foldl pauseOne u).core = u.core ∧ (l.foldl pauseOne u).orders = u.orders ∧
      (l.foldl pauseOne u).wayside = u.wayside ∧ (l.foldl pauseOne u).guards = u.guards ∧ (l.foldl pauseOne u).agenda = u.agenda ∧
      (l.foldl pauseOne u).polls = u.polls ∧ (l.foldl pauseOne u).late = u.late ∧ (l.foldl pauseOne u).pending = u.pending ∧
      (l.foldl pauseOne u).port = u.port := by
    intro l
    induction l with
    | nil => intro u; exact ⟨rfl, rfl, rfl, rfl, rfl, rfl, rfl, rfl, rfl⟩
    | cons p rest ih =>
      intro u
      have h : (pauseOne u p).core = u.core ∧ (pauseOne u p).orders = u.orders ∧ (pauseOne u p).wayside = u.wayside ∧ (pauseOne u p).guards = u.guards ∧
          (pauseOne u p).agenda = u.agenda ∧ (pauseOne u p).polls = u.polls ∧ (pauseOne u p).late = u.late ∧ (pauseOne u p).pending = u.pending ∧
          (pauseOne u p).port = u.port := by
        unfold pauseOne
        split
        · split <;> exact ⟨rfl, rfl, rfl, rfl, rfl, rfl, rfl, rfl, rfl⟩
        · exact ⟨rfl, rfl, rfl, rfl, rfl, rfl, rfl, rfl, rfl⟩
      obtain ⟨a1, a2, a3, a4, a5, a6, a7, a8, a9⟩ := ih (pauseOne u p)
      obtain ⟨b1, b2, b3, b4, b5, b6, b7, b8, b9⟩ := h
      exact ⟨a1.trans b1, a2.trans b2, a3.trans b3, a4.trans b4, a5.trans b5, a6.trans b6, a7.trans b7, a8.trans b8, a9.trans b9⟩
  exact key _ s

/-- One transfer timer timerResumed. -/
def resumeOne (s : State) (p : Nat) : State :=
  match s.transferAt p with
  | some x =>
    match x.timer with
    | .suspended time => s.setTransfer p (some { x with timer := .running time })
    | .running _ => s
  | none => s

/-- A transfer as the end of the hold leaves it. -/
def timerResumed (x : TransferRec) : TransferRec :=
  match x.timer with
  | .suspended time => { x with timer := .running time }
  | .running _ => x

theorem resumeOne_transferAt (s : State) (p q : Nat) : (resumeOne s p).transferAt q = if q = p then (s.transferAt q).map timerResumed else s.transferAt q := by
  by_cases e : q = p
  · subst e
    rw [if_pos rfl]
    unfold resumeOne
    cases h : s.transferAt q with
    | none => exact h
    | some x =>
      cases ht : x.timer with
      | running time => simp only [ht, Option.map_some, timerResumed]; exact h
      | suspended time => simp [ht, timerResumed]
  · rw [if_neg e]
    unfold resumeOne
    split
    · split
      · rw [setTransfer_transferAt, if_neg e]
      · rfl
    · rfl

theorem timerResumed_twice (x : TransferRec) : timerResumed (timerResumed x) = timerResumed x := by
  unfold timerResumed
  cases h : x.timer <;> simp [h]

theorem resumeTimers_transferAt (s : State) (p : Nat) : s.resumeTimers.transferAt p = (s.transferAt p).map timerResumed := by
  have key : ∀ (l : List Nat) (u : State), (p ∈ l ∨ (u.transferAt p).map timerResumed = u.transferAt p) → (l.foldl resumeOne u).transferAt p = (u.transferAt p).map timerResumed := by
    intro l
    induction l with
    | nil => intro u h; exact (h.resolve_left (by simp)).symm
    | cons q rest ih =>
      intro u h
      rw [List.foldl_cons]
      by_cases e : p = q
      · subst e
        rw [ih _ (.inr (by rw [resumeOne_transferAt, if_pos rfl, Option.map_map]; congr 1; funext x; exact timerResumed_twice x)),
          resumeOne_transferAt, if_pos rfl, Option.map_map]
        congr 1; funext x; exact timerResumed_twice x
      · have e' : (resumeOne u q).transferAt p = u.transferAt p := by rw [resumeOne_transferAt, if_neg e]
        rw [ih _ (by rw [e']; exact h.imp_left fun h => (List.mem_cons.1 h).resolve_left e), e']
  refine key _ s ?_
  by_cases hp : s.transferAt p = none
  · rw [hp]; exact .inr rfl
  · exact .inl (mem_keys_of_get hp)

theorem resumeTimers_same (s : State) : s.resumeTimers.wayside = s.wayside ∧ s.resumeTimers.guards = s.guards ∧ s.resumeTimers.holdEnding = s.holdEnding := by
  have key : ∀ (l : List Nat) (u : State), (l.foldl resumeOne u).wayside = u.wayside ∧ (l.foldl resumeOne u).guards = u.guards ∧
      (l.foldl resumeOne u).holdEnding = u.holdEnding := by
    intro l
    induction l with
    | nil => intro u; exact ⟨rfl, rfl, rfl⟩
    | cons p rest ih =>
      intro u
      have h : (resumeOne u p).wayside = u.wayside ∧ (resumeOne u p).guards = u.guards ∧ (resumeOne u p).holdEnding = u.holdEnding := by
        unfold resumeOne
        split
        · split <;> exact ⟨rfl, rfl, rfl⟩
        · exact ⟨rfl, rfl, rfl⟩
      obtain ⟨a1, a2, a3⟩ := ih (resumeOne u p)
      exact ⟨a1.trans h.1, a2.trans h.2.1, a3.trans h.2.2⟩
  exact key _ s

/-! ### The commit -/

theorem transmitted_facts (s : State) (m : OutMessage) : (s.transmitted m).holdEnding = s.holdEnding ∧ (s.transmitted m).guards = s.guards ∧
    (s.transmitted m).wayside = s.wayside := by
  unfold State.transmitted
  split
  · unfold State.operationSent
    (repeat' split) <;> exact ⟨rfl, rfl, rfl⟩
  · unfold State.operationSent
    (repeat' split) <;> exact ⟨rfl, rfl, rfl⟩
  · dsimp only
    split <;> exact ⟨rfl, rfl, rfl⟩
  · exact ⟨rfl, rfl, rfl⟩

/-- The commit leaves the guards; an IDLE transmitter takes an eligible entry at the head of the out-queue. -/
theorem commit_facts (s : State) : s.commit.holdEnding = s.holdEnding ∧ s.commit.guards = s.guards ∧
    (∀ m rest, s.wayside.transmitter = .idle → s.wayside.outQueue = m :: rest → s.eligible m = true →
      s.commit.wayside.transmitter = .sending m ∧ s.commit.wayside.outQueue = rest) ∧
    (∀ m, s.wayside.transmitter = .sending m → s.commit = s) := by
  refine ⟨?_, ?_, fun m rest h1 h2 h3 => ?_, fun m h1 => ?_⟩
  · unfold State.commit
    split
    · rfl
    · split
      · rfl
      · exact (transmitted_facts _ _).1
  · unfold State.commit
    split
    · rfl
    · split
      · rfl
      · exact (transmitted_facts _ _).2.1
  · have hf : s.wayside.outQueue.find? s.eligible = some m := by rw [h2]; simp [h3]
    unfold State.commit
    rw [h1]
    dsimp only
    rw [hf]
    dsimp only
    rw [(transmitted_facts _ m).2.2]
    refine ⟨rfl, ?_⟩
    show eraseFirst s.eligible s.wayside.outQueue = rest
    rw [h2]
    simp [eraseFirst, h3]
  · unfold State.commit
    rw [h1]

end Sys2Proof.Laws
end

