-- ==== Sys2Proof/Laws/Fences.lean ====
section
/-!
SUPPORT. Laws/Fences.lean: what a new fence does at the segments that it is the first to cover.
-/

namespace Sys2Proof.Laws

open Sys2Proof Sys2Proof.Machine

theorem mem_insertSorted {k n : Nat} {l : List Nat} : k ∈ insertSorted n l ↔ k = n ∨ k ∈ l := by
  induction l with
  | nil => simp [insertSorted]
  | cons m rest ih =>
    simp only [insertSorted]
    split
    · simp
    · split
      · next h => subst h; simp
      · simp only [List.mem_cons, ih]
        tauto

theorem mem_toSet {k : Nat} {l : List Nat} : k ∈ toSet l ↔ k ∈ l := by
  induction l with
  | nil => rfl
  | cons n rest ih =>
    show k ∈ insertSorted n (toSet rest) ↔ _
    rw [mem_insertSorted, ih, List.mem_cons]

/-- The heads that a new fence over a segment turns away: of its claimants, of those that wait there but not for a sensor, and its switch waiters. -/
theorem mem_headsAt {s : State} {n k : Nat} : k ∈ s.headsAt n ↔
    (∃ t ∈ (s.seg n).queue, (s.orderRefs t).active = some k) ∨ (∃ e ∈ s.core.waiting, e.segment = n ∧ e.cause ≠ .sensor ∧ e.slot = k) ∨
      ∃ r, s.junction n = some r ∧ k ∈ r.waiters := by
  unfold State.headsAt
  rw [mem_toSet, List.mem_append, List.mem_append, List.mem_filterMap, List.mem_filterMap, or_assoc]
  refine or_congr Iff.rfl (or_congr ?_ ?_)
  · constructor
    · rintro ⟨e, he, h⟩
      split at h
      · next hc => exact ⟨e, he, hc.1, hc.2, Option.some.inj h⟩
      · cases h
    · rintro ⟨e, he, h1, h2, h3⟩
      exact ⟨e, he, by rw [if_pos ⟨h1, h2⟩, h3]⟩
  · cases s.junction n with
    | none => simp
    | some r => simp

/-! ### One head -/

@[simp] theorem unlistHead_seg (s : State) (slot n : Nat) : (s.unlistHead slot).seg n = s.seg n := rfl

theorem unlistHead_junction (s : State) (slot n : Nat) : (s.unlistHead slot).junction n
    = (s.junction n).map fun j => { j with waiters := j.waiters.filter fun k => decide (k ≠ slot) } :=
  get_mapRecords none _ (fun _ => rfl) _ _

theorem mem_insertFenced {e x : FencedEntry} {l : List FencedEntry} (h : x ∈ l) (hne : x.slot ≠ e.slot) : x ∈ insertFenced e l := by
  induction l with
  | nil => cases h
  | cons y rest ih =>
    simp only [insertFenced]
    split
    · exact List.mem_cons_of_mem _ h
    · split
      · next he =>
        rcases List.mem_cons.1 h with rfl | h
        · exact absurd he.symm hne
        · exact List.mem_cons_of_mem _ h
      · rcases List.mem_cons.1 h with rfl | h
        · exact List.mem_cons_self
        · exact List.mem_cons_of_mem _ (ih h)

theorem insertFenced_self (e : FencedEntry) (l : List FencedEntry) : e ∈ insertFenced e l := by
  induction l with
  | nil => exact List.mem_cons_self
  | cons y rest ih =>
    simp only [insertFenced]
    split
    · exact List.mem_cons_self
    · split
      · exact List.mem_cons_self
      · exact List.mem_cons_of_mem _ ih

/-- What turning heads away leaves: the holdings and queues, the references, every order but for its head, and the other entries of the fenced set; and it
lists rest decisions alone. -/
structure Fencing (s t : State) : Prop where
  refs : t.orders.refs = s.orders.refs
  holders : ∀ m, (t.seg m).holder = (s.seg m).holder
  orders : ∀ k, t.order k = s.order k ∨ t.order k = (s.order k).map fun o => { o with head := .fenced }
  notices : ∀ x ∈ s.port.notices, x ∈ t.port.notices
  waiting : ∀ e ∈ t.core.waiting, e ∈ s.core.waiting
  waiters : ∀ n r', t.junction n = some r' → ∃ r, s.junction n = some r ∧ ∀ k ∈ r'.waiters, k ∈ r.waiters
  transfer : t.transfer = s.transfer
  polls : t.polls = s.polls
  hold : t.guards.hold = s.guards.hold
  due : t.due = s.due
  agenda : ∀ x ∈ t.agenda, x ∈ s.agenda ∨ ∃ j, x = .restDecision j

theorem Fencing.refl (s : State) : Fencing s s :=
  ⟨rfl, fun _ => rfl, fun _ => .inl rfl, fun _ h => h, fun _ h => h, fun _ r h => ⟨r, h, fun _ hk => hk⟩, rfl, rfl, rfl, rfl, fun _ h => .inl h⟩

theorem Fencing.trans {a b c : State} (h1 : Fencing a b) (h2 : Fencing b c) : Fencing a c :=
  { refs := h2.refs.trans h1.refs
    holders := fun m => (h2.holders m).trans (h1.holders m)
    orders := fun k => by
      rcases h2.orders k with e | e <;> rcases h1.orders k with e' | e'
      · exact .inl (e.trans e')
      · exact .inr (e.trans e')
      · exact .inr (by rw [e, e'])
      · exact .inr (by rw [e, e', Option.map_map]; rfl)
    notices := fun x hx => h2.notices x (h1.notices x hx)
    waiting := fun e he => h1.waiting e (h2.waiting e he)
    waiters := fun n r' h => by
      obtain ⟨r1, e1, w1⟩ := h2.waiters n r' h
      obtain ⟨r0, e0, w0⟩ := h1.waiters n r1 e1
      exact ⟨r0, e0, fun k hk => w0 k (w1 k hk)⟩
    transfer := h2.transfer.trans h1.transfer
    polls := h2.polls.trans h1.polls
    hold := h2.hold.trans h1.hold
    due := h2.due.trans h1.due
    agenda := fun x hx => (h2.agenda x hx).elim (h1.agenda x) .inr }

theorem turnAway_order (s : State) (slot n k : Nat) :
    (s.turnAway slot n).order k = if k = slot then (s.order slot).map fun o => { o with head := .fenced } else s.order k := by
  unfold State.turnAway
  split
  · next h =>
    split
    · next e => rw [e, h]; rfl
    · rfl
  · next o ho =>
    rw [ho]
    exact setOrder_order _ _ _ _

/-- One head turned away at segment `n`. -/
theorem fencing_turnAway (s : State) (slot n : Nat) : Fencing s (s.turnAway slot n) := by
  have ho := turnAway_order s slot n
  unfold State.turnAway at ho ⊢
  split
  · exact .refl s
  · next o h =>
    refine ⟨rfl, fun _ => rfl, fun k => ?_, fun x hx => mem_insertNotice _ _ _ hx, fun e he => List.mem_of_mem_filter he, fun m r' h => ?_, rfl, rfl, rfl
      , rfl, fun _ h => .inl h⟩
    · rw [h] at ho
      rw [show _ = _ from ho k]
      split
      · next e => subst e; right; rw [h]
      · exact .inl rfl
    · have h' : (s.unlistHead slot).junction m = some r' := h
      rw [unlistHead_junction] at h'
      obtain ⟨r, hr, rfl⟩ := Option.map_eq_some_iff.1 h'
      exact ⟨r, hr, fun k hk => List.mem_of_mem_filter hk⟩

theorem Fencing.headsAt {s t : State} (h : Fencing s t) {m k : Nat} (hq : (t.seg m).queue = (s.seg m).queue) (hk : k ∈ t.headsAt m) : k ∈ s.headsAt m := by
  rw [mem_headsAt] at hk ⊢
  rcases hk with ⟨u, hu, ha⟩ | ⟨e, he, h3⟩ | ⟨r', hr', hk⟩
  · refine .inl ⟨u, hq ▸ hu, ?_⟩
    unfold State.orderRefs at ha ⊢
    rw [← h.refs]
    exact ha
  · exact .inr (.inl ⟨e, h.waiting e he, h3⟩)
  · obtain ⟨r, hr, hw⟩ := h.waiters m r' hr'
    exact .inr (.inr ⟨r, hr, hw k hk⟩)

/-- Turning heads away makes no order able to become TRANSFER, nor unable. -/
theorem Fencing.mayTransfer {s t : State} (h : Fencing s t) (slot : Nat) : t.mayTransfer slot = s.mayTransfer slot := by
  have e : ∀ o : Order, s.order slot = some o → ∃ o', t.order slot = some o' ∧ o'.state = o.state ∧ o'.finish = o.finish
      ∧ o'.transporter = o.transporter ∧ o'.lastSegment = o.lastSegment := by
    intro o ho
    rcases h.orders slot with e | e <;> rw [ho] at e
    · exact ⟨o, e, rfl, rfl, rfl, rfl⟩
    · exact ⟨_, e, rfl, rfl, rfl, rfl⟩
  unfold State.mayTransfer
  cases ho : s.order slot with
  | none =>
    have : t.order slot = none := by
      rcases h.orders slot with e | e <;> rw [e, ho]
      rfl
    rw [this]
  | some o =>
    obtain ⟨o', h1, h2, h3, h4, h5⟩ := e o ho
    rw [h1]
    dsimp only
    rw [h2, h3, h4, h5]
    unfold State.holdActive State.quietOn State.hasCondition State.restsAt State.train State.couplingSet State.transferAt State.pad
    rw [h.transfer, h.polls, h.hold]

/-! ### The heads at one segment -/

/-- The heads of the slots in `l` turned away at the segments in `ns`. -/
structure TurnedAway (l ns : List Nat) (s t : State) : Prop extends Fencing s t where
  turned : ∀ k, t.order k = if k ∈ l then (s.order k).map fun o => { o with head := .fenced } else s.order k
  listed : ∀ k ∈ l, (s.order k).isSome = true → (∃ e ∈ t.guards.fenced, e.slot = k ∧ e.segment ∈ ns) ∧ ⟨.routeFenced, k⟩ ∈ t.port.notices
  others : ∀ e ∈ s.guards.fenced, e.slot ∉ l → e ∈ t.guards.fenced

theorem turnedAway_one (s : State) (slot n : Nat) : TurnedAway [slot] [n] s (s.turnAway slot n) := by
  refine { fencing_turnAway s slot n with turned := fun k => ?_, listed := fun k hk ho => ?_, others := fun e he hs => ?_ }
  · rw [turnAway_order]
    by_cases e : k = slot
    · subst e; simp
    · simp [e]
  · simp only [List.mem_singleton] at hk
    subst hk
    unfold State.turnAway
    obtain ⟨o, h⟩ := Option.isSome_iff_exists.1 ho
    rw [h]
    exact ⟨⟨⟨k, n⟩, insertFenced_self _ _, rfl, by simp⟩, mem_raise _ _ _⟩
  · simp only [List.mem_singleton] at hs
    unfold State.turnAway
    split
    · exact he
    · refine mem_insertFenced ?_ hs
      exact List.mem_filter.2 ⟨he, by simpa using hs⟩

theorem TurnedAway.trans {l1 l2 ns1 ns2 : List Nat} {a b c : State} (h1 : TurnedAway l1 ns1 a b) (h2 : TurnedAway l2 ns2 b c) :
    TurnedAway (l1 ++ l2) (ns1 ++ ns2) a c := by
  refine { h1.toFencing.trans h2.toFencing with turned := fun k => ?_, listed := fun k hk ho => ?_, others := fun e he hs => ?_ }
  · rw [h2.turned, h1.turned]
    by_cases e1 : k ∈ l1 <;> by_cases e2 : k ∈ l2 <;> simp [e1, e2, Function.comp_def]
  · have hb : (b.order k).isSome = true := by
      rw [h1.turned]
      split <;> simp [ho]
    by_cases e2 : k ∈ l2
    · obtain ⟨⟨e, he, hs, hn⟩, hx⟩ := h2.listed k e2 hb
      exact ⟨⟨e, he, hs, List.mem_append.2 (.inr hn)⟩, hx⟩
    · obtain ⟨⟨e, he, hs, hn⟩, hx⟩ := h1.listed k ((List.mem_append.1 hk).resolve_right e2) ho
      exact ⟨⟨e, h2.others e he (hs ▸ e2), hs, List.mem_append.2 (.inl hn)⟩, h2.notices _ hx⟩
  · simp only [List.mem_append, not_or] at hs
    exact h2.others e (h1.others e he hs.1) hs.2

theorem turnedAway_nil (s : State) : TurnedAway [] [] s s :=
  { Fencing.refl s with
    turned := fun _ => by simp
    listed := fun _ h => by cases h
    others := fun _ h _ => h }

/-- What was turned away at some segments was turned away at more. -/
theorem TurnedAway.mono {l ns ms : List Nat} {s t : State} (h : TurnedAway l ns s t) (hs : ∀ n ∈ ns, n ∈ ms) : TurnedAway l ms s t :=
  { h with
    listed := fun k hk ho => by
      obtain ⟨⟨e, he, h1, h2⟩, hx⟩ := h.listed k hk ho
      exact ⟨⟨e, he, h1, hs _ h2⟩, hx⟩ }

theorem turnedAway_fold (l : List Nat) (n : Nat) (s : State) : TurnedAway l [n] s (l.foldl (fun s slot => s.turnAway slot n) s) := by
  induction l generalizing s with
  | nil => exact (turnedAway_nil s).mono (by simp)
  | cons k l ih => exact ((turnedAway_one s k n).trans (ih _)).mono (by simp)

theorem foldTurn_seg (l : List Nat) (n m : Nat) (s : State) : (l.foldl (fun s slot => s.turnAway slot n) s).seg m = s.seg m := by
  induction l generalizing s with
  | nil => rfl
  | cons k l ih =>
    refine (ih _).trans ?_
    show (s.turnAway k n).seg m = _
    unfold State.turnAway
    split <;> rfl

/-- A head that waits at a segment and is not turned away elsewhere goes on waiting there. -/
theorem headsAt_turnAway (s : State) (slot n m k : Nat) (hk : k ∈ s.headsAt m) (hne : k ≠ slot) : k ∈ (s.turnAway slot n).headsAt m := by
  unfold State.turnAway
  split
  · exact hk
  · rw [mem_headsAt] at hk ⊢
    rcases hk with ⟨u, hu, ha⟩ | ⟨e, he, h1, h2, h3⟩ | ⟨r, hr, hw⟩
    · exact .inl ⟨u, hu, ha⟩
    · exact .inr (.inl ⟨e, List.mem_filter.2 ⟨he, by rw [h3]; simpa using hne⟩, h1, h2, h3⟩)
    · refine .inr (.inr ⟨{ r with waiters := r.waiters.filter fun k => decide (k ≠ slot) }, ?_, List.mem_filter.2 ⟨hw, by simpa using hne⟩⟩)
      show (s.unlistHead slot).junction m = _
      rw [unlistHead_junction, hr]
      rfl

theorem headsAt_fold (l : List Nat) (n m k : Nat) (s : State) (hk : k ∈ s.headsAt m) (hne : k ∉ l) :
    k ∈ (l.foldl (fun s slot => s.turnAway slot n) s).headsAt m := by
  induction l generalizing s with
  | nil => exact hk
  | cons x l ih =>
    simp only [List.mem_cons, not_or] at hne
    exact ih _ (headsAt_turnAway s x n m k hk hne.1) hne.2

/-! ### One segment, and a range of them -/

theorem fenceSegment_spec (s : State) (n : Nat) :
    TurnedAway (s.headsAt n) [n] s (s.fenceSegment n) ∧ (∀ m, (s.fenceSegment n).seg m = if m = n then { s.seg n with queue := [] } else s.seg m) ∧
      ∀ m k, m ≠ n → k ∈ s.headsAt m → k ∉ s.headsAt n → k ∈ (s.fenceSegment n).headsAt m := by
  have hf : Fencing s (s.setSeg n { s.seg n with queue := [] }) := by
    refine { Fencing.refl s with holders := fun m => ?_ }
    rw [setSeg_seg]
    split
    · next e => rw [e]
    · rfl
  have h0 : TurnedAway [] [] s (s.setSeg n { s.seg n with queue := [] }) :=
    { hf with
      turned := fun _ => by simp
      listed := fun _ h => by cases h
      others := fun _ h _ => h }
  have h1 := (h0.trans (turnedAway_fold (s.headsAt n) n _)).mono (ms := [n]) (by simp)
  have hseg : ∀ m, (((s.headsAt n).foldl (fun s slot => s.turnAway slot n) (s.setSeg n { s.seg n with queue := [] })).seg m)
      = if m = n then { s.seg n with queue := [] } else s.seg m := fun m => by rw [foldTurn_seg, setSeg_seg]
  have hheads : ∀ m k, m ≠ n → k ∈ s.headsAt m → k ∉ s.headsAt n →
      k ∈ ((s.headsAt n).foldl (fun s slot => s.turnAway slot n) (s.setSeg n { s.seg n with queue := [] })).headsAt m := by
    intro m k hm hk hn
    refine headsAt_fold _ _ _ _ _ ?_ hn
    rw [mem_headsAt] at hk ⊢
    rw [setSeg_seg, if_neg hm]
    exact hk
  unfold State.fenceSegment
  dsimp only
  split
  · refine ⟨?_, hseg, hheads⟩
    exact { h1 with
      agenda := fun x hx => by
        rcases List.mem_append.1 hx with hx | hx
        · exact h1.agenda x hx
        · simp only [List.mem_singleton] at hx
          exact .inr ⟨n, hx⟩ }
  · exact ⟨h1, hseg, hheads⟩

/-- A new fence at the segments `ns` that it is the first to cover. -/
theorem fenceSegments_spec (ns : List Nat) (hd : ns.Nodup) (s : State) :
    Fencing s (ns.foldl (fun s n => s.fenceSegment n) s) ∧
      (∀ m, (ns.foldl (fun s n => s.fenceSegment n) s).seg m = if m ∈ ns then { s.seg m with queue := [] } else s.seg m) ∧
      (∀ k, (∃ n ∈ ns, k ∈ s.headsAt n) → ∀ o, s.order k = some o →
        (ns.foldl (fun s n => s.fenceSegment n) s).order k = some { o with head := .fenced } ∧
          (∃ e ∈ (ns.foldl (fun s n => s.fenceSegment n) s).guards.fenced, e.slot = k ∧ e.segment ∈ ns) ∧
          ⟨.routeFenced, k⟩ ∈ (ns.foldl (fun s n => s.fenceSegment n) s).port.notices) ∧
      (∀ k, (∀ n ∈ ns, k ∉ s.headsAt n) → (ns.foldl (fun s n => s.fenceSegment n) s).order k = s.order k) ∧
      ∀ e ∈ s.guards.fenced, (∀ n ∈ ns, e.slot ∉ s.headsAt n) → e ∈ (ns.foldl (fun s n => s.fenceSegment n) s).guards.fenced := by
  induction ns generalizing s with
  | nil =>
    refine ⟨.refl s, fun m => by simp, ?_, fun _ _ => rfl, fun _ h _ => h⟩
    rintro k ⟨n, hn, -⟩
    cases hn
  | cons n ns ih =>
    obtain ⟨hn, hd⟩ := List.nodup_cons.1 hd
    obtain ⟨t1, g1, w1⟩ := fenceSegment_spec s n
    obtain ⟨f2, g2, l2, r2, o2⟩ := ih hd (s.fenceSegment n)
    have back : ∀ m ∈ ns, ∀ k, k ∈ (s.fenceSegment n).headsAt m → k ∈ s.headsAt m := fun m hm k hk =>
      t1.toFencing.headsAt (by rw [g1, if_neg (fun e : m = n => hn (e ▸ hm))]) hk
    refine ⟨t1.toFencing.trans f2, fun m => ?_, ?_, fun k hk => ?_, fun e he hs => ?_⟩
    · show (ns.foldl (fun s n => s.fenceSegment n) (s.fenceSegment n)).seg m = _
      rw [g2, g1]
      by_cases e : m = n
      · subst e; simp [hn]
      · simp [e]
    · rintro k ⟨m, hm, hk⟩ o ho
      show (ns.foldl _ (s.fenceSegment n)).order k = _ ∧ _
      by_cases h2 : ∃ m ∈ ns, k ∈ (s.fenceSegment n).headsAt m
      · have ho1 : ∃ o1, (s.fenceSegment n).order k = some o1 ∧ ({ o1 with head := .fenced } : Order) = { o with head := .fenced } := by
          rw [t1.turned, ho]
          split <;> exact ⟨_, rfl, rfl⟩
        obtain ⟨o1, h1, e1⟩ := ho1
        obtain ⟨a, ⟨e, he, hs, hg⟩, c⟩ := l2 k h2 o1 h1
        exact ⟨a.trans (congrArg some e1), ⟨e, he, hs, List.mem_cons_of_mem _ hg⟩, c⟩
      · have hkn : k ∈ s.headsAt n := by
          by_contra hc
          rcases List.mem_cons.1 hm with rfl | hm'
          · exact hc hk
          · exact h2 ⟨m, hm', w1 m k (fun e : m = n => hn (e ▸ hm')) hk hc⟩
        have hnot : ∀ m ∈ ns, k ∉ (s.fenceSegment n).headsAt m := fun m hm hk => h2 ⟨m, hm, hk⟩
        obtain ⟨⟨e, he, hs, hg⟩, c⟩ := t1.listed k hkn (by rw [ho]; rfl)
        refine ⟨?_, ⟨e, o2 e he fun m hm => hs ▸ hnot m hm, hs, ?_⟩, f2.notices _ c⟩
        · rw [r2 k hnot, t1.turned, if_pos hkn, ho]
          rfl
        · simp only [List.mem_singleton] at hg
          rw [hg]
          exact List.mem_cons_self
    · show (ns.foldl _ (s.fenceSegment n)).order k = _
      rw [r2 k fun m hm hk' => hk m (List.mem_cons_of_mem _ hm) (back m hm k hk'), t1.turned, if_neg (hk n List.mem_cons_self)]
    · show e ∈ (ns.foldl _ (s.fenceSegment n)).guards.fenced
      exact o2 e (t1.others e he (hs n List.mem_cons_self)) fun m hm hk' => hs m (List.mem_cons_of_mem _ hm) (back m hm _ hk')

end Sys2Proof.Laws
end

