-- ==== Sys2Proof/Laws/Geometry.lean ====
section
/-!
SUPPORT. Laws/Geometry.lean: what the tests of `close-layout` find, and what an accepted leg is made of.
-/

namespace Sys2Proof.Laws

open Sys2Proof Sys2Proof.Machine

/-! ### Searches over a table -/

/-- A table in canonical form lists a record under a number exactly where the number reads it. -/
theorem mem_iff_get {α : Type} [DecidableEq α] {d : α} {t : Table α} (h : Canonical d t) {n : Nat} {v : α} :
    (n, v) ∈ t ↔ v ≠ d ∧ Table.get d t n = v := by
  induction t with
  | nil => simp [eq_comm]
  | cons e rest ih =>
    obtain ⟨i, w⟩ := e
    obtain ⟨hs, hd⟩ := h
    have hr : Canonical d rest := ⟨(List.pairwise_cons.1 hs).2, fun e he => hd e (List.mem_cons_of_mem _ he)⟩
    have hw : w ≠ d := hd (i, w) List.mem_cons_self
    rw [List.mem_cons, ih hr, get_cons, Prod.mk.injEq]
    by_cases hi : i = n
    · subst hi
      rw [if_pos rfl]
      have hnot : ∀ v, (i, v) ∉ rest := fun v hv => absurd ((List.pairwise_cons.1 hs).1 i (List.mem_map.2 ⟨_, hv, rfl⟩)) (Nat.lt_irrefl _)
      constructor
      · rintro (⟨-, rfl⟩ | hm)
        · exact ⟨hw, rfl⟩
        · exact absurd ((ih hr).2 hm) (hnot v)
      · rintro ⟨-, rfl⟩
        exact .inl ⟨rfl, rfl⟩
    · rw [if_neg hi]
      constructor
      · rintro (⟨e, -⟩ | hm)
        · exact absurd e.symm hi
        · exact hm
      · exact .inr

/-- A search over a table in canonical form finds nothing exactly where no record gives anything. -/
theorem findSome_none {α β : Type} [DecidableEq α] {d : α} {t : Table α} (h : Canonical d t) (f : Nat × α → Option β) :
    t.findSome? f = none ↔ ∀ n v, v ≠ d → Table.get d t n = v → f (n, v) = none := by
  rw [List.findSome?_eq_none_iff]
  exact ⟨fun hn n v hv hg => hn _ ((mem_iff_get h).2 ⟨hv, hg⟩), fun hn e he => hn e.1 e.2 ((mem_iff_get h).1 he).1 ((mem_iff_get h).1 he).2⟩

/-- A search over a table in canonical form finds what the lowest number that gives anything gives. -/
theorem findSome_some {α β : Type} [DecidableEq α] {d : α} {t : Table α} (h : Canonical d t) {f : Nat × α → Option β} {n : Nat} {v : α} {b : β}
    (hv : v ≠ d) (hg : Table.get d t n = v) (hf : f (n, v) = some b)
    (hb : ∀ m w, m < n → w ≠ d → Table.get d t m = w → f (m, w) = none) : t.findSome? f = some b := by
  obtain ⟨l1, l2, e⟩ := List.append_of_mem ((mem_iff_get h).2 ⟨hv, hg⟩)
  refine List.findSome?_eq_some_iff.2 ⟨l1, (n, v), l2, e, hf, fun x hx => ?_⟩
  have hm : x ∈ t := e ▸ List.mem_append_left _ hx
  have hlt : x.1 < n := by
    have hs := h.1
    rw [e, List.map_append, List.pairwise_append] at hs
    exact hs.2.2 x.1 (List.mem_map.2 ⟨x, hx, rfl⟩) n (by simp)
  exact hb x.1 x.2 hlt ((mem_iff_get h).1 hm).1 ((mem_iff_get h).1 hm).2

/-! ### The tests of `close-layout` -/

/-- Whether a segment of a kind has an end (R2). -/
def hasEnd (k : SegKind) (e : TrackEnd) : Prop := e = .a ∨ if k = .junction then e = .bNormal ∨ e = .bReverse else e = .b

theorem mem_endsOf (k : SegKind) (e : TrackEnd) : e ∈ endsOf k ↔ hasEnd k e := by
  cases k <;> cases e <;> simp [endsOf, hasEnd]

theorem linkAt_hasEnd {d : SegDecl} {e : TrackEnd} {l : Link} (h : d.linkAt e = some l) : hasEnd d.kind e := by
  unfold SegDecl.linkAt at h
  cases hk : d.kind <;> cases e <;> rw [hk] at h <;> simp_all [hasEnd]

/-- An end passes the four tests of R10. -/
def EndPasses (s : State) (n : Nat) (d : SegDecl) (e : TrackEnd) : Prop :=
  ∀ l, d.linkAt e = some l → ∃ far, s.decl l.neighbour = some far ∧ hasEnd far.kind l.farEnd ∧ far.linkAt l.farEnd = some ⟨n, e⟩ ∧
    ∀ e' l', e' ≠ e → d.linkAt e' = some l' → l'.neighbour ≠ l.neighbour

theorem endFault_eq (s : State) (n : Nat) (d : SegDecl) (e : TrackEnd) {l : Link} (hl : d.linkAt e = some l) :
    (s.decl l.neighbour = none → s.endFault n d e = some .undeclaredNeighbour) ∧
    ∀ far, s.decl l.neighbour = some far →
      (¬ hasEnd far.kind l.farEnd → s.endFault n d e = some .noSuchEnd) ∧
      (hasEnd far.kind l.farEnd → (far.linkAt l.farEnd ≠ some ⟨n, e⟩ → s.endFault n d e = some .notReciprocal) ∧
        (far.linkAt l.farEnd = some ⟨n, e⟩ →
          ((∃ e' l', e' ≠ e ∧ d.linkAt e' = some l' ∧ l'.neighbour = l.neighbour) → s.endFault n d e = some .doubleLink) ∧
          ((∀ e' l', e' ≠ e → d.linkAt e' = some l' → l'.neighbour ≠ l.neighbour) → s.endFault n d e = none))) := by
  unfold State.endFault
  rw [hl]
  dsimp only
  refine ⟨fun h => by rw [h], fun far hf => ?_⟩
  rw [hf]
  dsimp only
  refine ⟨fun h => if_pos fun h' => h ((mem_endsOf _ _).1 h'), fun h => ?_⟩
  rw [if_neg (not_not.2 ((mem_endsOf _ _).2 h))]
  refine ⟨fun h1 => if_pos h1, fun h1 => ?_⟩
  rw [if_neg (not_not.2 h1)]
  have key : ((endsOf d.kind).any fun e' => decide (e' ≠ e) && (d.linkAt e').any fun l' => decide (l'.neighbour = l.neighbour)) = true
      ↔ ∃ e' l', e' ≠ e ∧ d.linkAt e' = some l' ∧ l'.neighbour = l.neighbour := by
    rw [List.any_eq_true]
    constructor
    · rintro ⟨e', -, h2⟩
      rw [Bool.and_eq_true, decide_eq_true_eq, Option.any_eq_true] at h2
      obtain ⟨h3, l', h4, h5⟩ := h2
      exact ⟨e', l', h3, h4, of_decide_eq_true h5⟩
    · rintro ⟨e', l', h3, h4, h5⟩
      exact ⟨e', (mem_endsOf _ _).2 (linkAt_hasEnd h4), by rw [h4]; simp [h3, h5]⟩
  refine ⟨fun h2 => if_pos (key.2 h2), fun h2 => if_neg fun h3 => ?_⟩
  obtain ⟨e', l', a, b, c⟩ := key.1 h3
  exact h2 e' l' a b c

theorem endFault_none (s : State) (n : Nat) (d : SegDecl) (e : TrackEnd) : s.endFault n d e = none ↔ EndPasses s n d e := by
  cases hl : d.linkAt e with
  | none =>
    exact ⟨fun _ l h => (by rw [hl] at h; cases h), fun _ => (by unfold State.endFault; rw [hl])⟩
  | some l =>
    obtain ⟨h1, h2⟩ := endFault_eq s n d e hl
    constructor
    · intro h l' hl'
      rw [hl] at hl'
      cases hl'
      cases hf : s.decl l.neighbour with
      | none => rw [h1 hf] at h; cases h
      | some far =>
        obtain ⟨h3, h4⟩ := h2 far hf
        by_cases he : hasEnd far.kind l.farEnd
        · obtain ⟨h5, h6⟩ := h4 he
          by_cases hr : far.linkAt l.farEnd = some ⟨n, e⟩
          · refine ⟨far, rfl, he, hr, fun e' l' a b c => ?_⟩
            rw [(h6 hr).1 ⟨e', l', a, b, c⟩] at h
            cases h
          · rw [h5 hr] at h; cases h
        · rw [h3 he] at h; cases h
    · intro h
      obtain ⟨far, hf, he, hr, hd⟩ := h l hl
      exact (((h2 far hf).2 he).2 hr).2 hd

/-- One of the ends of a segment stands before another in the order of R10. -/
def endBefore (e' e : TrackEnd) : Prop := (e' = .a ∧ e ≠ .a) ∨ (e' = .bNormal ∧ e = .bReverse)

/-- The first end that fails, where the ends before it pass. -/
theorem firstEnd (s : State) (n : Nat) (d : SegDecl) {e : TrackEnd} {l : Link} {r : LayoutReason} (hl : d.linkAt e = some l)
    (hr : s.endFault n d e = some r) (hb : ∀ e', endBefore e' e → EndPasses s n d e') : s.segmentFault n d = some (some e, r) := by
  have hh := linkAt_hasEnd hl
  have hn : ∀ e', endBefore e' e → s.endFault n d e' = none := fun e' h => (endFault_none s n d e').2 (hb e' h)
  unfold State.segmentFault
  have : ((endsOf d.kind).findSome? fun e => (s.endFault n d e).map fun r => (some e, r)) = some (some e, r) := by
    unfold hasEnd at hh
    have ha : e ≠ .a → s.endFault n d .a = none := fun h => hn .a (.inl ⟨rfl, h⟩)
    have hb : e = .bReverse → s.endFault n d .bNormal = none := fun h => hn .bNormal (.inr ⟨rfl, h⟩)
    cases hk : d.kind <;> rw [hk] at hh <;> cases e <;> simp at hh ha hb <;> simp [endsOf, List.findSome?, hr, ha, hb]
  rw [this]

theorem segmentFault_none (s : State) (n : Nat) (d : SegDecl) :
    s.segmentFault n d = none ↔ (∀ e, EndPasses s n d e) ∧ (d.kind = .spur → (d.linkAt .a).isSome ≠ (d.linkAt .b).isSome) := by
  have ends : (∀ e, EndPasses s n d e) ↔ ((endsOf d.kind).findSome? fun e => (s.endFault n d e).map fun r => (some e, r)) = none := by
    rw [List.findSome?_eq_none_iff]
    constructor
    · intro h e _
      rw [(endFault_none s n d e).2 (h e)]
      rfl
    · intro h e l hl
      have := h e ((mem_endsOf _ _).2 (linkAt_hasEnd hl))
      exact (endFault_none s n d e).1 (Option.map_eq_none_iff.1 this) l hl
  rw [ends]
  unfold State.segmentFault
  split
  · next f hf => simp [hf]
  · next hf =>
    rw [hf]
    simp only [true_and]
    by_cases hk : d.kind = .spur
    · simp only [hk, endsOf, true_and]
      cases ha : d.linkAt .a <;> cases hb : d.linkAt .b <;> simp [List.filter, ha, hb]
    · simp [hk]

theorem spurFault (s : State) (n : Nat) (d : SegDecl) (h : ∀ e, EndPasses s n d e) (hk : d.kind = .spur)
    (hs : (d.linkAt .a).isSome = (d.linkAt .b).isSome) : s.segmentFault n d = some (none, .spurEnds) := by
  have ends : ((endsOf d.kind).findSome? fun e => (s.endFault n d e).map fun r => (some e, r)) = none := by
    rw [List.findSome?_eq_none_iff]
    intro e _
    rw [(endFault_none s n d e).2 (h e)]
    rfl
  unfold State.segmentFault
  rw [ends]
  simp only [hk, endsOf, true_and]
  revert hs
  cases ha : d.linkAt .a <;> cases hb : d.linkAt .b <;> simp [List.filter, ha, hb]

/-- A segment passes the tests of R10. -/
def SegmentPasses (s : State) (n : Nat) : Prop :=
  ∀ d, s.decl n = some d → (∀ e, EndPasses s n d e) ∧ (d.kind = .spur → (d.linkAt .a).isSome ≠ (d.linkAt .b).isSome)

/-- The layout has no fault exactly where a segment is declared and every declared one passes. -/
theorem layoutFault_none {s : State} (h : Canonical none s.layout.decls) :
    s.layoutFault = none ↔ (∃ n d, s.decl n = some d) ∧ ∀ n, SegmentPasses s n := by
  unfold State.layoutFault
  split
  · next e =>
    refine ⟨fun h => (by cases h), fun ⟨⟨n, d, hd⟩, _⟩ => ?_⟩
    unfold State.decl at hd
    rw [e] at hd
    cases hd
  · next e =>
    rw [findSome_none h]
    constructor
    · intro hn
      obtain ⟨x, rest, hx⟩ := List.exists_cons_of_ne_nil e
      have hm := (mem_iff_get h).1 (show (x.1, x.2) ∈ s.layout.decls by rw [hx]; exact List.mem_cons_self)
      obtain ⟨d, hd⟩ := Option.ne_none_iff_exists'.1 hm.1
      refine ⟨⟨x.1, d, hm.2.trans hd⟩, fun n d hd => ?_⟩
      have := hn n (some d) (by simp) hd
      exact (segmentFault_none s n d).1 (Option.map_eq_none_iff.1 this)
    · rintro ⟨-, hp⟩ n v hv hg
      obtain ⟨d, rfl⟩ := Option.ne_none_iff_exists'.1 hv
      show (s.segmentFault n d).map _ = none
      rw [(segmentFault_none s n d).2 (hp n d hg)]
      rfl

/-- The first segment that fails gives the layout its fault. -/
theorem layoutFault_some {s : State} (h : Canonical none s.layout.decls) {n : Nat} {d : SegDecl} {e : Option TrackEnd} {r : LayoutReason}
    (hd : s.decl n = some d) (hf : s.segmentFault n d = some (e, r)) (hb : ∀ m, m < n → SegmentPasses s m) :
    s.layoutFault = some (some n, e, r) := by
  unfold State.layoutFault
  have hne : s.layout.decls ≠ [] := fun e => by unfold State.decl at hd; rw [e] at hd; cases hd
  rw [if_neg hne]
  refine findSome_some h (n := n) (v := some d) (by simp) hd (by dsimp only; rw [hf]; rfl) fun m w hm hw hg => ?_
  obtain ⟨d', rfl⟩ := Option.ne_none_iff_exists'.1 hw
  show (s.segmentFault m d').map _ = none
  rw [(segmentFault_none s m d').2 (hb m hm d' hg)]
  rfl

/-! ### An accepted leg -/

/-- Two positions are joined: the leaving end of the one carries a link that names the other and its entering end (R13). -/
def Joins (s : State) (x y : RoutePos) : Prop :=
  ∃ d e e', s.decl x.segment = some d ∧ d.linkAt e = some ⟨y.segment, e'⟩ ∧ x.leaving = some e ∧ y.entering = some e'

theorem joined_some {s : State} {m n : Nat} {p : TrackEnd × TrackEnd} (h : s.joined m n = some p) :
    ∃ d, s.decl m = some d ∧ d.linkAt p.1 = some ⟨n, p.2⟩ := by
  unfold State.joined at h
  split at h
  · cases h
  · next d hd =>
    obtain ⟨e, -, he⟩ := List.exists_of_findSome?_eq_some h
    split at he
    · next l hl =>
      split at he
      · next hn =>
        cases he
        subst hn
        exact ⟨d, hd, hl⟩
      · cases he
    · cases he

/-- What a walk has passed, the last position first; `start` is the entering end with which it began (R12 to R16, R89). -/
structure Walked (s : State) (start : Option TrackEnd) (w : List RoutePos) : Prop where
  chain : w.IsChain fun y x => Joins s x y
  through : ∀ x ∈ w, ∀ d e e', s.decl x.segment = some d → x.entering = some e → x.leaving = some e' → reverses d.kind e e' = false
  declared : ∀ x ∈ w, x.segment ≤ 127 ∧ (s.decl x.segment).isSome = true
  nodup : (w.map (·.segment)).Nodup
  plain : ∀ x ∈ w, x.needed = none
  last : ∀ x, w.head? = some x → x.leaving = none
  first : ∀ x d, w.getLast? = some x → s.decl x.segment = some d →
    (x.leaving = none → x.entering = start) ∧ ∀ e, x.leaving = some e → x.entering = start.or (takenEntering d.kind e)

theorem reverses_taken (k : SegKind) {e e' : TrackEnd} (h : takenEntering k e = some e') : reverses k e' e = false := by
  cases k <;> cases e <;> simp [takenEntering, reverses] at h ⊢ <;> subst h <;> decide

theorem walked_one {s : State} {start : Option TrackEnd} {n : Nat} (hn : n ≤ 127) (hd : (s.decl n).isSome = true) :
    Walked s start [⟨n, start, none, none⟩] :=
  { chain := List.isChain_singleton _
    through := fun x hx d e e' _ _ hl => by
      rw [List.mem_singleton] at hx
      subst hx
      cases hl
    declared := fun x hx => by
      rw [List.mem_singleton] at hx
      subst hx
      exact ⟨hn, hd⟩
    nodup := by simp
    plain := fun x hx => by
      rw [List.mem_singleton] at hx
      subst hx
      rfl
    last := fun x hx => by
      cases hx
      rfl
    first := fun x d hx _ => by
      cases hx
      exact ⟨fun _ => rfl, fun e he => by cases he⟩ }

/-- One step of a walk. -/
theorem walked_step {s : State} {start : Option TrackEnd} {prev : RoutePos} {before : List RoutePos} (h : Walked s start (prev :: before)) {n : Nat}
    (hn : n ≤ 127) (hd : (s.decl n).isSome = true) (hnew : ∀ x ∈ prev :: before, x.segment ≠ n) {d : SegDecl} (hp : s.decl prev.segment = some d)
    {e e' : TrackEnd} (hj : s.joined prev.segment n = some (e, e')) 
    (hr : ∀ e1, prev.entering.or (takenEntering d.kind e) = some e1 → reverses d.kind e1 e = false) :
    Walked s start (⟨n, some e', none, none⟩ :: { prev with entering := prev.entering.or (takenEntering d.kind e), leaving := some e } :: before) := by
  obtain ⟨d0, hd0, hl0⟩ := joined_some hj
  have hentry : ∀ e1, prev.entering = some e1 → prev.entering.or (takenEntering d.kind e) = some e1 := fun e1 he => by rw [he]; rfl
  refine { chain := ?_, through := ?_, declared := ?_, nodup := ?_, plain := ?_, last := ?_, first := ?_ }
  · rw [List.isChain_cons_cons]
    refine ⟨⟨d0, e, e', hd0, hl0, rfl, rfl⟩, ?_⟩
    have hc := h.chain
    cases before with
    | nil => exact List.isChain_singleton _
    | cons x rest =>
      rw [List.isChain_cons_cons] at hc ⊢
      obtain ⟨⟨d1, e1, e2, h1, h2, h3, h4⟩, h5⟩ := hc
      exact ⟨⟨d1, e1, e2, h1, h2, h3, hentry e2 h4⟩, h5⟩
  · intro x hx d' e1 e2 hx1 hx2 hx3
    rcases List.mem_cons.1 hx with rfl | hx
    · cases hx3
    rcases List.mem_cons.1 hx with rfl | hx
    · cases hx3
      rw [show s.decl prev.segment = some d' from hx1] at hp
      cases hp
      exact hr e1 hx2
    · exact h.through x (List.mem_cons_of_mem _ hx) d' e1 e2 hx1 hx2 hx3
  · intro x hx
    rcases List.mem_cons.1 hx with rfl | hx
    · exact ⟨hn, hd⟩
    rcases List.mem_cons.1 hx with rfl | hx
    · exact h.declared prev List.mem_cons_self
    · exact h.declared x (List.mem_cons_of_mem _ hx)
  · rw [List.map_cons, List.nodup_cons]
    refine ⟨fun hm => ?_, h.nodup⟩
    obtain ⟨x, hx, hxs⟩ := List.mem_map.1 hm
    rcases List.mem_cons.1 hx with rfl | hx
    · exact hnew prev List.mem_cons_self hxs
    · exact hnew x (List.mem_cons_of_mem _ hx) hxs
  · intro x hx
    rcases List.mem_cons.1 hx with rfl | hx
    · rfl
    rcases List.mem_cons.1 hx with rfl | hx
    · exact h.plain prev List.mem_cons_self
    · exact h.plain x (List.mem_cons_of_mem _ hx)
  · intro x hx
    cases hx
    rfl
  · intro x d' hx hx1
    cases before with
    | nil =>
      cases hx
      rw [show s.decl prev.segment = some d' from hx1] at hp
      cases hp
      refine ⟨fun h0 => (by cases h0), fun e1 he1 => ?_⟩
      cases he1
      show prev.entering.or _ = _
      rw [(h.first prev d rfl hx1).1 (h.last prev rfl)]
    | cons y rest => exact h.first x d' hx hx1

/-- What a walk accepts: its positions are what it passed, and those that the candidates name. -/
theorem walk_ok {s : State} {start : Option TrackEnd} {cs : List Candidate} {p : Nat} {w route : List RoutePos}
    (hw : Walked s start w) (hp : w.length = p) (h0 : 0 < p) (h48 : p ≤ 48) (hb : ∀ c ∈ cs, ∀ n, c.segment = some n → n ≤ 127)
    (h : s.walk cs p w = .ok route) :
    ∃ w', Walked s start w' ∧ w' ≠ [] ∧ w'.length ≤ 48 ∧ route = s.accepted w' ∧
      w'.reverse.map (fun x => some x.segment) = w.reverse.map (fun x => some x.segment) ++ cs.map (·.segment) ∧ ∀ c ∈ cs, c.stretchOk = true := by
  induction cs generalizing p w with
  | nil =>
    unfold State.walk at h
    cases h
    exact ⟨w, hw, by rintro rfl; simp at hp; omega, by omega, rfl, by simp, by simp⟩
  | cons c rest ih =>
    unfold State.walk at h
    split at h
    · cases h
    next n hn =>
    split at h
    · cases h
    next h1 =>
    split at h
    · cases h
    next h2 =>
    split at h
    · cases h
    next h3 =>
    split at h
    · cases h
    next h4 =>
    cases w with
    | nil => simp at hp; omega
    | cons prev before =>
      dsimp only at h
      split at h
      · next leaving entering d hj hd =>
        split at h
        · cases h
        · next hr =>
          have hstep := walked_step hw (hb c List.mem_cons_self n hn) (Option.isSome_iff_ne_none.2 (by simpa using h3)) (fun x hx e => h4 (List.any_eq_true.2 ⟨x, hx, by simp [e]⟩)) hd hj
            (fun e1 he1 => by
              rw [he1] at hr
              simpa using hr)
          obtain ⟨w', a1, a2, a3, a4, a5, a6⟩ := ih hstep (by simp at hp ⊢; omega) (by omega) (by omega)
            (fun c hc => hb c (List.mem_cons_of_mem _ hc)) h
          refine ⟨w', a1, a2, a3, a4, ?_, fun x hx => ?_⟩
          · rw [a5]
            simp [hn]
          · rcases List.mem_cons.1 hx with rfl | hx
            · simpa using h2
            · exact a6 x hx
      · cases h

theorem stretchAt_le {x : Stretch} {k n : Nat} (h : stretchAt x k = some n) : n ≤ 127 := by
  unfold stretchAt at h
  split at h
  · split at h
    · cases h; assumption
    · cases h
  · split at h
    · cases h; omega
    · cases h

theorem candidates_le (leg : List Stretch) : ∀ c ∈ candidates leg, ∀ n, c.segment = some n → n ≤ 127 := by
  intro c hc n hn
  obtain ⟨x, -, hx⟩ := List.mem_flatMap.1 hc
  unfold stretchCandidates at hx
  split at hx
  · rw [List.mem_singleton] at hx
    subst hx
    exact stretchAt_le hn
  · obtain ⟨k, -, rfl⟩ := List.mem_map.1 hx
    exact stretchAt_le hn

/-- The needed position that the table of R15 gives a position of a leg. -/
def TableNeeds (k : SegKind) (entering leaving : Option TrackEnd) : Option SwitchSetting :=
  if k = .junction then
    if entering = some .bNormal ∨ leaving = some .bNormal then some .normal
    else if entering = some .bReverse ∨ leaving = some .bReverse then some .reverse else none
  else none

/-- An accepted leg, in words of its positions (R12 to R16); `start` is the entering end with which its walk began (R13, R89). -/
structure LegMade (s : State) (start : Option TrackEnd) (route : List RoutePos) : Prop where
  length : 1 ≤ route.length ∧ route.length ≤ 48
  nodup : (route.map (·.segment)).Nodup
  declared : ∀ x ∈ route, x.segment ≤ 127 ∧ (s.decl x.segment).isSome = true
  joins : ∀ k x y, route[k]? = some x → route[k + 1]? = some y → Joins s x y
  through : ∀ x ∈ route, ∀ d e e', s.decl x.segment = some d → x.entering = some e → x.leaving = some e' → reverses d.kind e e' = false
  last : ∀ x, route.getLast? = some x → x.leaving = none
  first : ∀ x d, route.head? = some x → s.decl x.segment = some d →
    (x.leaving = none → x.entering = start) ∧ ∀ e, x.leaving = some e → x.entering = start.or (takenEntering d.kind e)
  needed : ∀ x ∈ route, ∀ d, s.decl x.segment = some d → x.needed = TableNeeds d.kind x.entering x.leaving

theorem isJunction_iff {s : State} {n : Nat} {d : SegDecl} (h : s.decl n = some d) : s.isJunction n = decide (d.kind = .junction) := by
  unfold State.isJunction
  rw [h]

theorem neededThrough_eq {k : SegKind} (hk : k = .junction) {e e' : Option TrackEnd}
    (h : ∀ x y, e = some x → e' = some y → reverses k x y = false) : neededThrough e e' = TableNeeds k e e' := by
  subst hk
  unfold TableNeeds
  rcases e with _ | x <;> rcases e' with _ | y
  · rfl
  · cases y <;> rfl
  · cases x <;> rfl
  · have := h x y rfl rfl
    cases x <;> cases y <;> first | rfl | (simp [reverses] at this)

theorem legMade {s : State} {start : Option TrackEnd} {w : List RoutePos} (h : Walked s start w) (h1 : w ≠ []) (h2 : w.length ≤ 48) :
    LegMade s start (s.accepted w) := by
  let g : RoutePos → RoutePos := fun x => if s.isJunction x.segment then { x with needed := neededThrough x.entering x.leaving } else x
  have hg : ∀ x, (g x).segment = x.segment ∧ (g x).entering = x.entering ∧ (g x).leaving = x.leaving := fun x => by
    show (if s.isJunction x.segment then { x with needed := neededThrough x.entering x.leaving } else x).segment = _ ∧ _
    by_cases hj : s.isJunction x.segment = true <;> simp [g, hj]
  have hmem : ∀ y ∈ s.accepted w, ∃ x ∈ w, y = g x := fun y hy => by
    obtain ⟨x, hx, rfl⟩ := List.mem_map.1 hy
    exact ⟨x, List.mem_reverse.1 hx, rfl⟩
  have hacc : s.accepted w = w.reverse.map g := rfl
  refine { length := ?_, nodup := ?_, declared := ?_, joins := ?_, through := ?_, last := ?_, first := ?_, needed := ?_ }
  · rw [hacc, List.length_map, List.length_reverse]
    exact ⟨List.length_pos_of_ne_nil h1, h2⟩
  · rw [hacc, List.map_map]
    have : ((fun x => x.segment) ∘ g) = fun x : RoutePos => x.segment := funext fun x => (hg x).1
    rw [this, List.map_reverse]
    exact List.nodup_reverse.2 h.nodup
  · intro y hy
    obtain ⟨x, hx, rfl⟩ := hmem y hy
    rw [(hg x).1]
    exact h.declared x hx
  · intro k x y hx hy
    have hc : w.reverse.IsChain (Joins s) := List.isChain_reverse.2 h.chain
    rw [hacc, List.getElem?_map] at hx hy
    obtain ⟨x0, hx0, rfl⟩ := Option.map_eq_some_iff.1 hx
    obtain ⟨y0, hy0, rfl⟩ := Option.map_eq_some_iff.1 hy
    obtain ⟨hk, hky⟩ := List.getElem?_eq_some_iff.1 hy0
    obtain ⟨hk', hkx⟩ := List.getElem?_eq_some_iff.1 hx0
    obtain ⟨d, e, e', a1, a2, a3, a4⟩ := List.isChain_iff_getElem.1 hc k hk
    rw [hkx] at a1 a3
    rw [hky] at a2 a4
    exact ⟨d, e, e', by rw [(hg x0).1]; exact a1, by rw [(hg y0).1]; exact a2, by rw [(hg x0).2.2]; exact a3, by rw [(hg y0).2.1]; exact a4⟩
  · intro y hy d e e' hd
    obtain ⟨x, hx, rfl⟩ := hmem y hy
    rw [(hg x).1] at hd
    rw [(hg x).2.1, (hg x).2.2]
    exact h.through x hx d e e' hd
  · intro y hy
    rw [hacc, List.getLast?_map, List.getLast?_reverse] at hy
    obtain ⟨x, hx, rfl⟩ := Option.map_eq_some_iff.1 hy
    rw [(hg x).2.2]
    exact h.last x hx
  · intro y d hy hd
    rw [hacc, List.head?_map, List.head?_reverse] at hy
    obtain ⟨x, hx, rfl⟩ := Option.map_eq_some_iff.1 hy
    rw [(hg x).1] at hd
    rw [(hg x).2.1, (hg x).2.2]
    exact h.first x d hx hd
  · intro y hy d hd
    obtain ⟨x, hx, rfl⟩ := hmem y hy
    rw [(hg x).1] at hd
    rw [(hg x).2.1, (hg x).2.2]
    by_cases hk : d.kind = .junction
    · have hj : s.isJunction x.segment = true := by rw [isJunction_iff hd]; simpa using hk
      have : (g x).needed = neededThrough x.entering x.leaving := by simp [g, hj]
      rw [this, neededThrough_eq hk fun e e' he he' => h.through x hx d e e' hd he he']
    · have hj : s.isJunction x.segment = false := by rw [isJunction_iff hd]; simpa using hk
      have : (g x).needed = x.needed := by simp [g, hj]
      rw [this, h.plain x hx]
      unfold TableNeeds
      rw [if_neg hk]

theorem accepted_segments (s : State) (w : List RoutePos) : (s.accepted w).map (fun x => some x.segment) = w.reverse.map fun x => some x.segment := by
  unfold State.accepted
  rw [List.map_map]
  refine List.map_congr_left fun x _ => ?_
  show some (if s.isJunction x.segment then { x with needed := neededThrough x.entering x.leaving } else x).segment = some x.segment
  split <;> rfl

/-- What the geometry check of a leg accepts (R12 to R17). -/
theorem checkLeg_ok {s : State} {leg : List Stretch} {route : List RoutePos} (h : s.checkLeg leg = .ok route) :
    LegMade s none route ∧ route.map (fun x => some x.segment) = (candidates leg).map (·.segment) ∧ ∀ c ∈ candidates leg, c.stretchOk = true := by
  unfold State.checkLeg at h
  split at h
  · cases h
  next hne =>
  have hle := candidates_le leg
  have hcne : candidates leg ≠ [] := by
    cases leg with
    | nil => exact absurd rfl hne
    | cons x rest =>
      unfold candidates
      rw [List.flatMap_cons]
      intro e
      have e' := (List.append_eq_nil_iff.1 e).1
      unfold stretchCandidates at e'
      split at e'
      · cases e'
      · next hx =>
        rw [List.map_eq_nil_iff, List.range_eq_nil] at e'
        exact hx (.inl e')
  generalize candidates leg = cs at *
  cases cs with
  | nil => exact absurd rfl hcne
  | cons c rest =>
    unfold State.walk at h
    split at h
    · cases h
    next n hn =>
    rw [if_neg (by decide)] at h
    split at h
    · cases h
    next h2 =>
    split at h
    · cases h
    next h3 =>
    rw [if_neg (by simp)] at h
    obtain ⟨w', a1, a2, a3, a4, a5, a6⟩ := walk_ok (walked_one (start := none) (hle c List.mem_cons_self n hn) (Option.isSome_iff_ne_none.2 (by simpa using h3)))
      rfl Nat.one_pos (by simp) (fun c hc => hle c (List.mem_cons_of_mem _ hc)) h
    subst a4
    refine ⟨legMade a1 a2 a3, ?_, fun x hx => ?_⟩
    · rw [accepted_segments, a5]
      simp [hn]
    · rcases List.mem_cons.1 hx with rfl | hx
      · simpa using h2
      · exact a6 x hx

/-- What the geometry check of a back leg accepts (R89). -/
theorem checkBackLeg_ok {s : State} {out : List RoutePos} {leg : List Stretch} {route : List RoutePos} (h : s.checkBackLeg out leg = .ok route) :
    ∃ dwell d e e', out.getLast? = some dwell ∧ s.decl dwell.segment = some d ∧ (∀ x, route.head? = some x → d.linkAt e = some ⟨x.segment, e'⟩) ∧
      (∀ e0, dwell.entering = some e0 → e0 = e) ∧ LegMade s (some e') route ∧
      route.map (fun x => some x.segment) = (candidates leg).map (·.segment) ∧ ∀ c ∈ candidates leg, c.stretchOk = true := by
  unfold State.checkBackLeg at h
  have hle := candidates_le leg
  generalize candidates leg = cs at *
  split at h
  · next c rest dwell hout =>
    split at h
    · cases h
    next n hn =>
    split at h
    · cases h
    next h2 =>
    split at h
    · cases h
    next h3 =>
    split at h
    · cases h
    next leaving entering hj =>
    split at h
    · cases h
    next h4 =>
    obtain ⟨d, hd, hl⟩ := joined_some hj
    obtain ⟨w', a1, a2, a3, a4, a5, a6⟩ := walk_ok (walked_one (start := some entering) (hle c List.mem_cons_self n hn) (Option.isSome_iff_ne_none.2 (by simpa using h3)))
      rfl Nat.one_pos (by simp) (fun c hc => hle c (List.mem_cons_of_mem _ hc)) h
    subst a4
    have hsegs : (s.accepted w').map (fun x => some x.segment) = (c :: rest).map (·.segment) := by
      rw [accepted_segments, a5]
      simp [hn]
    refine ⟨dwell, d, leaving, entering, hout, hd, fun x hx => ?_, fun e0 he0 => ?_, legMade a1 a2 a3, hsegs, fun x hx => ?_⟩
    · have := congrArg List.head? hsegs
      rw [List.head?_map, hx] at this
      simp [hn] at this
      rw [this]
      exact hl
    · rw [he0] at h4
      simpa using h4
    · rcases List.mem_cons.1 hx with rfl | hx
      · simpa using h2
      · exact a6 x hx
  · cases h

/-- The segments that the stretches of an accepted leg name, in order (R12). -/
def expansion (leg : List Stretch) : List Nat :=
  leg.flatMap fun x => (List.range x.count).map fun k => match x.sense with
    | .up => x.first + k
    | .down => x.first - k

theorem expansion_of {leg : List Stretch} {route : List RoutePos} (hs : ∀ c ∈ candidates leg, c.stretchOk = true)
    (h : route.map (fun x => some x.segment) = (candidates leg).map (·.segment)) :
    route.map (·.segment) = expansion leg ∧ (leg ≠ [] → leg.length ≤ 8) ∧ (∀ x ∈ leg, 1 ≤ x.count ∧ x.count ≤ 16) := by
  have hcount : ∀ x ∈ leg, 1 ≤ x.count ∧ x.count ≤ 16 := by
    intro x hx
    by_contra hc
    have hc' : x.count = 0 ∨ 16 < x.count := by omega
    have := hs ⟨stretchAt x 0, false⟩ (List.mem_flatMap.2 ⟨x, hx, by unfold stretchCandidates; rw [if_pos hc']; exact List.mem_singleton.2 rfl⟩)
    cases this
  refine ⟨?_, fun hne => ?_, hcount⟩
  · have hmap : (candidates leg).map (·.segment) = leg.flatMap fun x => (List.range x.count).map fun k => stretchAt x k := by
      unfold candidates
      rw [List.map_flatMap]
      refine List.flatMap_congr fun x hx => ?_
      have := hcount x hx
      unfold stretchCandidates
      rw [if_neg (by omega), List.map_map]
      rfl
    have hall : ∀ o ∈ (leg.flatMap fun x => (List.range x.count).map fun k => stretchAt x k), ∃ n, o = some n := by
      intro o ho
      rw [← hmap, ← h] at ho
      obtain ⟨x, -, rfl⟩ := List.mem_map.1 ho
      exact ⟨_, rfl⟩
    have hexp : (leg.flatMap fun x => (List.range x.count).map fun k => stretchAt x k) = (expansion leg).map some := by
      unfold expansion
      rw [List.map_flatMap]
      refine List.flatMap_congr fun x hx => ?_
      rw [List.map_map]
      refine List.map_congr_left fun k hk => ?_
      obtain ⟨n, hn⟩ := hall (stretchAt x k) (List.mem_flatMap.2 ⟨x, hx, List.mem_map.2 ⟨k, hk, rfl⟩⟩)
      rw [hn]
      unfold stretchAt at hn
      show _ = some (match x.sense with | .up => x.first + k | .down => x.first - k)
      split at hn <;> split at hn <;> cases hn <;> simp_all
    rw [hmap, hexp] at h
    have h' : (route.map (·.segment)).map some = (expansion leg).map some := by rw [List.map_map]; exact h
    exact List.map_injective_iff.2 (Option.some_injective Nat) h'
  · obtain ⟨x, rest, rfl⟩ := List.exists_cons_of_ne_nil hne
    have := hcount x List.mem_cons_self
    have hm := hs ⟨stretchAt x 0, decide ((x :: rest).length ≤ 8)⟩ (List.mem_flatMap.2 ⟨x, List.mem_cons_self, by
      unfold stretchCandidates
      rw [if_neg (by omega)]
      exact List.mem_map.2 ⟨0, List.mem_range.2 (by omega), rfl⟩⟩)
    exact of_decide_eq_true hm

end Sys2Proof.Laws
end

