-- ==== Sys2Proof/Laws/PerInstr.lean ====
section
/-!
SUPPORT. Laws/PerInstr.lean: for every command, that the frame of a well-formed request command is 5 to 64 bytes and that its length byte says so
(R185, R187). A command that is no request carries none.
-/

namespace Sys2Proof.Laws

open Sys2Proof Sys2Proof.Machine

/-- A frame is its body and two check bytes. -/
theorem requestFrame_length (h : Header) (r : Request) : (requestFrame h r).length = (paramBytes r).length + 5 := by
  simp [requestFrame, withCheck, frameBody, wordBytes]

theorem stretches_length (l : List Stretch) : (l.flatMap stretchBytes).length = 3 * l.length := by
  induction l with
  | nil => rfl
  | cons x l ih => rw [List.flatMap_cons, List.length_append, ih]; simp [stretchBytes]; omega

theorem linkBytes_length (l : Option Link) : (linkBytes l).length = 2 := by cases l <;> rfl

theorem finishBytes_length (f : Finish) : (finishBytes f).length = 2 := by cases f <;> rfl

theorem loadBytes_length (l : LoadTarget) : (loadBytes l).length = 2 := by cases l <;> rfl

theorem padTargetBytes_length (x : PadTarget) : (padTargetBytes x).length = 2 := by cases x <;> rfl

/-- A well-formed request has at most 59 parameter bytes. -/
theorem paramBytes_length {r : Request} (h : r.wf = true) : (paramBytes r).length ≤ 59 := by
  cases r with
  | readOrder n p => cases p <;> simp [paramBytes]
  | submitOrder t k f leg =>
    simp only [Request.wf, Bool.and_eq_true, decide_eq_true_eq] at h
    simp only [paramBytes, List.length_cons, List.length_append, stretches_length, finishBytes_length]
    omega
  | divert t o b =>
    simp only [Request.wf, Bool.and_eq_true, decide_eq_true_eq] at h
    simp only [paramBytes, List.length_cons, List.length_append, stretches_length]
    omega
  | setGrants w p g =>
    simp only [Request.wf, Bool.and_eq_true, decide_eq_true_eq] at h
    simp only [paramBytes, List.length_cons, List.length_append, List.length_map]
    omega
  | _ => simp [paramBytes, wordBytes, linkBytes_length, loadBytes_length, padTargetBytes_length]

/-- The frame of a request fits, and its first byte is its length. -/
def FrameFits (h : Header) (r : Request) : Prop :=
  5 ≤ (requestFrame h r).length ∧ (requestFrame h r).length ≤ 64 ∧ ((requestFrame h r).head?).map (·.toNat) = some (requestFrame h r).length

theorem frameFits {r : Request} (h : Header) (hr : r.wf = true) : FrameFits h r := by
  have hl := paramBytes_length hr
  unfold FrameFits
  rw [requestFrame_length]
  refine ⟨by omega, by omega, ?_⟩
  simp only [requestFrame, withCheck, frameBody, List.cons_append, List.head?_cons, Option.map_some, byteOf, BitVec.toNat_ofNat]
  congr 1
  omega

/-- What the family says of one command. -/
def FrameLengths.Statement (c : Instr) : Prop := c.wf = true → ∀ h r, c.request? = some (h, r) → FrameFits h r

theorem frameLengths_request {c : Instr} {h : Header} {r : Request} (hc : c.request? = some (h, r)) : FrameLengths.Statement c := by
  intro hw h' r' hc'
  have hwr : c.wf = (h.wf && r.wf) := by
    unfold Instr.wf
    rw [hc]
  rw [hwr, Bool.and_eq_true] at hw
  rw [hc] at hc'
  cases hc'
  exact frameFits h hw.2

theorem frameLengths_event {c : Instr} (hc : c.request? = none) : FrameLengths.Statement c := by
  intro _ h r h'
  rw [hc] at h'
  cases h'

theorem FrameLengths.powerOn : FrameLengths.Statement .powerOn := frameLengths_event rfl
theorem FrameLengths.resetLine : FrameLengths.Statement .resetLine := frameLengths_event rfl
theorem FrameLengths.holdAsserted : FrameLengths.Statement .holdAsserted := frameLengths_event rfl
theorem FrameLengths.holdDeasserted : FrameLengths.Statement .holdDeasserted := frameLengths_event rfl
theorem FrameLengths.windowBegin : FrameLengths.Statement .windowBegin := frameLengths_event rfl
theorem FrameLengths.windowEnd (bytes : List Byte) : FrameLengths.Statement (.windowEnd bytes) := frameLengths_event rfl
theorem FrameLengths.requestFrameComplete (bytes : List Byte) : FrameLengths.Statement (.requestFrameComplete bytes) := frameLengths_event rfl
theorem FrameLengths.answerSent : FrameLengths.Statement .answerSent := frameLengths_event rfl
theorem FrameLengths.readStatus (h : Header) : FrameLengths.Statement (.readStatus h) := frameLengths_request rfl
theorem FrameLengths.readSegment (h : Header) (segment : Nat) : FrameLengths.Statement (.readSegment h segment) := frameLengths_request rfl
theorem FrameLengths.readPad (h : Header) (pad : Nat) : FrameLengths.Statement (.readPad h pad) := frameLengths_request rfl
theorem FrameLengths.readTransporter (h : Header) (t : Nat) : FrameLengths.Statement (.readTransporter h t) := frameLengths_request rfl
theorem FrameLengths.readOrder (h : Header) (slot : Nat) (part : Option Nat) :
    FrameLengths.Statement (.readOrder h slot part) := frameLengths_request rfl
theorem FrameLengths.readTelescope (h : Header) (x : Nat) : FrameLengths.Statement (.readTelescope h x) := frameLengths_request rfl
theorem FrameLengths.sweepPads (h : Header) (first count : Nat) (sense : Sense) :
    FrameLengths.Statement (.sweepPads h first count sense) := frameLengths_request rfl
theorem FrameLengths.fetchNotice (h : Header) : FrameLengths.Statement (.fetchNotice h) := frameLengths_request rfl
theorem FrameLengths.setNoticeEnables (h : Header) (enables : Word16) :
    FrameLengths.Statement (.setNoticeEnables h enables) := frameLengths_request rfl
theorem FrameLengths.clearPort (h : Header) : FrameLengths.Statement (.clearPort h) := frameLengths_request rfl
theorem FrameLengths.setParameter (h : Header) (number value : Nat) :
    FrameLengths.Statement (.setParameter h number value) := frameLengths_request rfl
theorem FrameLengths.restart (h : Header) : FrameLengths.Statement (.restart h) := frameLengths_request rfl
theorem FrameLengths.declareSegment (h : Header) (segment : Nat) (kind : SegKind) (guard : Nat) (speed : SpeedClass) (rest : RestPosition)
    (first second third : Option Link) :
    FrameLengths.Statement (.declareSegment h segment kind guard speed rest first second third) := frameLengths_request rfl
theorem FrameLengths.closeLayout (h : Header) : FrameLengths.Statement (.closeLayout h) := frameLengths_request rfl
theorem FrameLengths.clearSwitch (h : Header) (segment : Nat) : FrameLengths.Statement (.clearSwitch h segment) := frameLengths_request rfl
theorem FrameLengths.submitOrder (h : Header) (t : Nat) (kind : OrderKind) (finish : Finish) (leg : List Stretch) :
    FrameLengths.Statement (.submitOrder h t kind finish leg) := frameLengths_request rfl
theorem FrameLengths.cancelOrder (h : Header) (slot : Nat) : FrameLengths.Statement (.cancelOrder h slot) := frameLengths_request rfl
theorem FrameLengths.divert (h : Header) (t : Nat) (outLeg backLeg : List Stretch) :
    FrameLengths.Statement (.divert h t outLeg backLeg) := frameLengths_request rfl
theorem FrameLengths.resumeRefuge (h : Header) (slot : Nat) : FrameLengths.Statement (.resumeRefuge h slot) := frameLengths_request rfl
theorem FrameLengths.declarePad (h : Header) (pad access guard : Nat) (initial : PadTarget) :
    FrameLengths.Statement (.declarePad h pad access guard initial) := frameLengths_request rfl
theorem FrameLengths.settlePad (h : Header) (pad : Nat) (target : PadTarget) :
    FrameLengths.Statement (.settlePad h pad target) := frameLengths_request rfl
theorem FrameLengths.settleLoad (h : Header) (t : Nat) (target : LoadTarget) :
    FrameLengths.Statement (.settleLoad h t target) := frameLengths_request rfl
theorem FrameLengths.barPad (h : Header) (pad : Nat) : FrameLengths.Statement (.barPad h pad) := frameLengths_request rfl
theorem FrameLengths.unbarPad (h : Header) (pad : Nat) : FrameLengths.Statement (.unbarPad h pad) := frameLengths_request rfl
theorem FrameLengths.recouplePad (h : Header) (pad : Nat) : FrameLengths.Statement (.recouplePad h pad) := frameLengths_request rfl
theorem FrameLengths.enrollTransporter (h : Header) (t position : Nat) (load : LoadTarget) :
    FrameLengths.Statement (.enrollTransporter h t position load) := frameLengths_request rfl
theorem FrameLengths.disenrollTransporter (h : Header) (t : Nat) : FrameLengths.Statement (.disenrollTransporter h t) := frameLengths_request rfl
theorem FrameLengths.clearAstray (h : Header) (t segment : Nat) : FrameLengths.Statement (.clearAstray h t segment) := frameLengths_request rfl
theorem FrameLengths.proceed (h : Header) (t : Nat) : FrameLengths.Statement (.proceed h t) := frameLengths_request rfl
theorem FrameLengths.enterQuiet (h : Header) : FrameLengths.Statement (.enterQuiet h) := frameLengths_request rfl
theorem FrameLengths.leaveQuiet (h : Header) : FrameLengths.Statement (.leaveQuiet h) := frameLengths_request rfl
theorem FrameLengths.setGrants (h : Header) (who : Nat) (padGroups segmentGroups : List Nat) :
    FrameLengths.Statement (.setGrants h who padGroups segmentGroups) := frameLengths_request rfl
theorem FrameLengths.setFence (h : Header) (slot base size : Nat) : FrameLengths.Statement (.setFence h slot base size) := frameLengths_request rfl
theorem FrameLengths.clearFence (h : Header) (slot : Nat) : FrameLengths.Statement (.clearFence h slot) := frameLengths_request rfl
theorem FrameLengths.hold (h : Header) : FrameLengths.Statement (.hold h) := frameLengths_request rfl
theorem FrameLengths.releaseHold (h : Header) : FrameLengths.Statement (.releaseHold h) := frameLengths_request rfl
theorem FrameLengths.clearWayside (h : Header) : FrameLengths.Statement (.clearWayside h) := frameLengths_request rfl
theorem FrameLengths.gapTimerExpiry : FrameLengths.Statement .gapTimerExpiry := frameLengths_event rfl
theorem FrameLengths.pollTransmitted : FrameLengths.Statement .pollTransmitted := frameLengths_event rfl
theorem FrameLengths.transporterReport (bytes : List Byte) : FrameLengths.Statement (.transporterReport bytes) := frameLengths_event rfl
theorem FrameLengths.replyWindowExpiry : FrameLengths.Statement .replyWindowExpiry := frameLengths_event rfl
theorem FrameLengths.progressTimerExpiry (t : Nat) : FrameLengths.Statement (.progressTimerExpiry t) := frameLengths_event rfl
theorem FrameLengths.waysideFrame (bytes : List Byte) : FrameLengths.Statement (.waysideFrame bytes) := frameLengths_event rfl
theorem FrameLengths.waysideByteGapTimeout : FrameLengths.Statement .waysideByteGapTimeout := frameLengths_event rfl
theorem FrameLengths.silenceTimerExpiry : FrameLengths.Statement .silenceTimerExpiry := frameLengths_event rfl
theorem FrameLengths.sensor : FrameLengths.Statement .sensor := frameLengths_event rfl
theorem FrameLengths.detection : FrameLengths.Statement .detection := frameLengths_event rfl
theorem FrameLengths.padEvent : FrameLengths.Statement .padEvent := frameLengths_event rfl
theorem FrameLengths.waysideSendComplete : FrameLengths.Statement .waysideSendComplete := frameLengths_event rfl
theorem FrameLengths.operationTimerExpiry (j : Nat) : FrameLengths.Statement (.operationTimerExpiry j) := frameLengths_event rfl
theorem FrameLengths.junctionHoldExpiry (j : Nat) : FrameLengths.Statement (.junctionHoldExpiry j) := frameLengths_event rfl
theorem FrameLengths.proveIntervalExpiry : FrameLengths.Statement .proveIntervalExpiry := frameLengths_event rfl
theorem FrameLengths.transferTimerExpiry (pad : Nat) : FrameLengths.Statement (.transferTimerExpiry pad) := frameLengths_event rfl
theorem FrameLengths.couplingTimerExpiry (pad : Nat) : FrameLengths.Statement (.couplingTimerExpiry pad) := frameLengths_event rfl
theorem FrameLengths.byteInHunting (byte : Byte) : FrameLengths.Statement (.byteInHunting byte) := frameLengths_event rfl
theorem FrameLengths.lengthByteFraming (byte : Byte) : FrameLengths.Statement (.lengthByteFraming byte) := frameLengths_event rfl

end Sys2Proof.Laws
end

