-- ==== Sys2Proof/Laws/Positions.lean ====
section
/-!
SUPPORT. Laws/Positions.lean: what a report of a position does: the leaving marks (R31), the track run onto (R41), the cursor (R73), and the conditions
of the transporters (R139, R141, R142).
-/

namespace Sys2Proof.Laws

open Sys2Proof Sys2Proof.Machine

/-! ### Lists with a first occurrence -/

theorem append_of_mem_first {l : List Nat} {n : Nat} (h : n ∈ l) : ∃ a b, l = a ++ n :: b ∧ n ∉ a := by
  induction l with
  | nil => cases h
  | cons y l ih =>
    by_cases e : y = n
    · exact ⟨[], l, by rw [e]; rfl, by simp⟩
    · obtain ⟨a, b, h1, h2⟩ := ih ((List.mem_cons.1 h).resolve_left fun e' => e e'.symm)
      exact ⟨y :: a, b, by rw [h1]; rfl, by simp [h2, Ne.symm e]⟩

theorem before_iff (l : List Nat) (n x : Nat) :
    (x ∈ (if n ∈ l then l.takeWhile fun y => decide (y ≠ n) else [])) ↔ ∃ a b, l = a ++ n :: b ∧ n ∉ a ∧ x ∈ a := by
  constructor
  · intro h
    split at h
    · next hn =>
      induction l with
      | nil => cases hn
      | cons y l ih =>
        by_cases e : y = n
        · subst e
          simp at h
        · have hn' : n ∈ l := by
            rcases List.mem_cons.1 hn with e' | e'
            · exact absurd e'.symm e
            · exact e'
          rw [List.takeWhile_cons_of_pos (by simpa using e)] at h
          rcases List.mem_cons.1 h with rfl | h'
          · obtain ⟨a, b, hl, ha⟩ := append_of_mem_first hn'
            exact ⟨x :: a, b, by rw [hl]; rfl, by simp [ha, Ne.symm e], by simp⟩
          · obtain ⟨a, b, h1, h2, h3⟩ := ih hn' h'
            exact ⟨y :: a, b, by rw [h1]; rfl, by simp [h2, Ne.symm e], List.mem_cons_of_mem _ h3⟩
    · cases h
  · rintro ⟨a, b, rfl, hn, hx⟩
    rw [if_pos (by simp)]
    rw [List.takeWhile_append_of_pos]
    · exact List.mem_append_left _ hx
    · intro y hy
      simp only [decide_not, Bool.not_eq_eq_eq_not, Bool.not_true, decide_eq_false_iff_not]
      rintro rfl
      exact hn hy

theorem setLeaving_seg (s : State) (ns : List Nat) (n x : Nat) :
    (s.setLeaving ns n).seg x = { s.seg x with leaving := if x = n then false else (s.seg x).leaving || decide (x ∈ ns) } := by
  have key : ∀ (ns : List Nat) (s : State), (ns.foldl (fun s x => s.setSeg x { s.seg x with leaving := true }) s).seg x
      = { s.seg x with leaving := (s.seg x).leaving || decide (x ∈ ns) } := by
    intro ns
    induction ns with
    | nil => intro s; simp
    | cons y ns ih =>
      intro s
      rw [List.foldl_cons, ih, setSeg_seg]
      split
      · next e => subst e; simp
      · next e => simp [e]
  unfold State.setLeaving
  dsimp only
  rw [setSeg_seg]
  split
  · next e => subst e; rw [key]
  · rw [key]

theorem mem_leavingMarks (s : State) (t m n x : Nat) : x ∈ s.leavingMarks t m n ↔
    (x = m ∨ ∃ a b, (s.routeAhead t).map (·.segment) = a ++ n :: b ∧ n ∉ a ∧ x ∈ a) ∧ (s.seg x).holder = some t ∧ (s.seg x).leaving = false := by
  unfold State.leavingMarks
  dsimp only
  rw [List.mem_filter, List.mem_cons, before_iff]
  simp [State.holds]

theorem findPlace_take {α : Type} {p : α → Bool} {l : List α} {k i : Nat} :
    findPlace p (l.take k) = some i ↔ i < k ∧ (∃ x, l[i]? = some x ∧ p x = true) ∧ ∀ (j : Nat) (x : α), j < i → l[j]? = some x → p x = false := by
  rw [findPlace_some]
  constructor
  · rintro ⟨⟨x, hx, hp⟩, h⟩
    rw [List.getElem?_take] at hx
    split at hx
    · next hk => exact ⟨hk, ⟨x, hx, hp⟩, fun j y hj hy => h j y hj (by rw [List.getElem?_take, if_pos (by omega)]; exact hy)⟩
    · cases hx
  · rintro ⟨hk, ⟨x, hx, hp⟩, h⟩
    refine ⟨⟨x, by rw [List.getElem?_take, if_pos hk]; exact hx, hp⟩, fun j y hj hy => h j y hj ?_⟩
    rw [List.getElem?_take, if_pos (by omega)] at hy
    exact hy

theorem findPlace_take_none {α : Type} {p : α → Bool} {l : List α} {k : Nat} :
    findPlace p (l.take k) = none ↔ ∀ (i : Nat) (x : α), i < k → l[i]? = some x → p x = false := by
  rw [findPlace_none]
  constructor
  · intro h i x hi hx
    exact h i x (by rw [List.getElem?_take, if_pos hi]; exact hx)
  · intro h i x hx
    rw [List.getElem?_take] at hx
    split at hx
    · next hk => exact h i x hk hx
    · cases hx

/-- The cursor's new place on the claimed track. -/
theorem cursorFor_claimed (o : Order) (n j : Nat) (h : o.index o.cursor < j ∧ j ≤ o.index o.claim ∧ (o.route[j]?).map (·.segment) = some n)
    (hm : ∀ i, o.index o.cursor < i ∧ i ≤ o.index o.claim ∧ (o.route[i]?).map (·.segment) = some n → j ≤ i) : o.cursorFor n = some (o.placeOf j) := by
  have e : findPlace (fun x => decide (x.segment = n)) (o.beyond.take (o.index o.claim - o.index o.cursor)) = some (j - (o.index o.cursor + 1)) := by
    rw [findPlace_take]
    obtain ⟨h1, h2, h3⟩ := h
    obtain ⟨x, hx, hn⟩ := Option.map_eq_some_iff.1 h3
    refine ⟨by omega, ⟨x, ?_, by simpa using hn⟩, fun i y hi hy => ?_⟩
    · unfold Order.beyond
      rw [List.getElem?_drop, show o.index o.cursor + 1 + (j - (o.index o.cursor + 1)) = j by omega]
      exact hx
    · unfold Order.beyond at hy
      rw [List.getElem?_drop] at hy
      by_contra hc
      have := hm (o.index o.cursor + 1 + i) ⟨by omega, by omega, by rw [hy]; simpa using hc⟩
      omega
  unfold Order.cursorFor
  dsimp only
  rw [e]
  dsimp only
  rw [show o.index o.cursor + 1 + (j - (o.index o.cursor + 1)) = j by omega]

theorem cursorFor_unclaimed (o : Order) (n : Nat)
    (hm : ∀ i, ¬(o.index o.cursor < i ∧ i ≤ o.index o.claim ∧ (o.route[i]?).map (·.segment) = some n)) :
    o.cursorFor n = (findPlace (fun x => decide (x.segment = n)) ((if o.cursor.leg = 1 then o.leg1 else o.leg2).take o.cursor.pos)).map
      fun i => ⟨o.cursor.leg, i⟩ := by
  have e : findPlace (fun x => decide (x.segment = n)) (o.beyond.take (o.index o.claim - o.index o.cursor)) = none := by
    rw [findPlace_take_none]
    intro i x hi hx
    unfold Order.beyond at hx
    rw [List.getElem?_drop] at hx
    by_contra hc
    exact hm (o.index o.cursor + 1 + i) ⟨by omega, by omega, by rw [hx]; simpa using hc⟩
  unfold Order.cursorFor
  dsimp only
  rw [e]

/-! ### Orders, trains and limits -/

@[simp] theorem emit_emit (s : State) (a b : List Task) : (s.emit a).emit b = s.emit (a ++ b) := by
  unfold State.emit; simp

theorem due_order (u : State) (k m : Nat) : (u.makeDue k).order m = u.order m := rfl

theorem refs_order (u : State) (t : Nat) (r : OrderRefs) (m : Nat) : (u.setRefs t r).order m = u.order m := rfl

theorem restsAt_iff (s : State) (t : Nat) (n : Option Nat) : s.restsAt t n = true ↔ ∃ y, s.train t = some y ∧ y.atRest = true ∧ some y.position = n ∧ y.condition ≠ .astray := by
  unfold State.restsAt
  cases h : s.train t with
  | none => simp
  | some y => simp [and_assoc]

theorem forced_iff (s : State) (i : Nat) : s.forced i = true ↔ (s.holdActive = true ∨ s.polls.quiet ≠ .off ∨ s.hasCondition i .normal = false ∨ (s.startingDivert i).isSome = true ∨
      s.faultedUnder i = true ∨ ¬∃ k o, s.active i = some (k, o) ∧ o.state = .running) := by
  unfold State.forced State.quietOn
  cases ha : s.active i with
  | none => simp
  | some x =>
    obtain ⟨k, o⟩ := x
    simp only [Bool.or_eq_true, decide_eq_true_eq, Bool.not_eq_true', Option.some.injEq, Prod.mk.injEq]
    constructor
    · rintro (((((h | h) | h) | h) | h) | h)
      · exact .inl h
      · exact .inr (.inl h)
      · exact .inr (.inr (.inl h))
      · exact .inr (.inr (.inr (.inl h)))
      · exact .inr (.inr (.inr (.inr (.inl h))))
      · refine .inr (.inr (.inr (.inr (.inr ?_))))
        rintro ⟨k', o', ⟨rfl, rfl⟩, h'⟩
        exact h h'
    · rintro (h | h | h | h | h | h)
      · exact .inl (.inl (.inl (.inl (.inl h))))
      · exact .inl (.inl (.inl (.inl (.inr h))))
      · exact .inl (.inl (.inl (.inr h)))
      · exact .inl (.inl (.inr h))
      · exact .inl (.inr h)
      · exact .inr fun h' => h ⟨k, o, ⟨rfl, rfl⟩, h'⟩

theorem updateTrain_train (s : State) (t : Nat) (f : TransporterRec → TransporterRec) (i : Nat) :
    (s.updateTrain t f).train i = if i = t then (s.train i).map f else s.train i := by
  unfold State.updateTrain
  split
  · next r hr =>
    rw [setTrain_train]
    split
    · next e => subst e; rw [hr]; rfl
    · rfl
  · next hn =>
    split
    · next e => subst e; rw [hn]; rfl
    · rfl

theorem makeActiveDue_train (s : State) (t i : Nat) : (s.makeActiveDue t).train i = s.train i := by
  unfold State.makeActiveDue; split <;> rfl

theorem backToNormal_train (s : State) (t i : Nat) :
    (s.backToNormal t).train i = if i = t then (s.train i).map (fun r => { r with condition := .normal, grace := s.params.grace }) else s.train i := by
  unfold State.backToNormal
  rw [emit_train, makeActiveDue_train, updateTrain_train]

theorem takePosition_condition (s : State) (t m n i : Nat) :
    (((s.takePosition t m n).1).train i).map (·.condition) = (s.train i).map (·.condition) := by
  unfold State.takePosition
  split
  · rfl
  · dsimp only
    unfold State.train
    rw [moveCursor_polls, (marks_overrun _ _ _ _).polls]
    show ((State.updateTrain _ t _).train i).map _ = _
    rw [updateTrain_train]
    have : ∀ j, (s.setLeaving (s.leavingMarks t m n) n).train j = s.train j := fun j => by unfold State.train; rw [setLeaving_polls]
    rw [this]
    split
    · rw [Option.map_map]; rfl
    · rfl

theorem goAstray_other (s : State) (t i : Nat) (h : i ≠ t) : (s.goAstray t).train i = s.train i := by
  unfold State.goAstray State.setCondition
  rw [emit_train, updateTrain_train, if_neg h]; rfl

theorem reportPosition_other (s : State) (r : Report) (i : Nat) (h : i ≠ r.transporter) :
    ((s.reportPosition r).train i).map (·.condition) = (s.train i).map (·.condition) := by
  unfold State.reportPosition
  dsimp only
  split
  · rfl
  · split
    · rfl
    · split
      · rw [goAstray_other _ _ _ h]
      · rw [emit_train, takePosition_condition]
        split
        · rw [backToNormal_train, if_neg h]
        · rfl

theorem reportPosition_own (s : State) (r : Report) (x : TransporterRec) (hx : s.train r.transporter = some x) (ha : x.condition ≠ .astray)
    (hh : s.holds r.transporter r.position = true) :
    ((s.reportPosition r).train r.transporter).map (·.condition) = some (if x.condition = .lost then .normal else x.condition) := by
  unfold State.reportPosition
  dsimp only
  rw [hx]
  dsimp only
  rw [if_neg ha, hh]
  show ((State.emit _ _).train r.transporter).map _ = _
  rw [emit_train, takePosition_condition]
  split
  · rw [backToNormal_train, if_pos rfl, hx]; rfl
  · rw [hx]; rfl

theorem foldl_agenda {α : Type} (f : State → α → State) (hf : ∀ s x, (f s x).agenda = s.agenda) (l : List α) (s : State) :
    (l.foldl f s).agenda = s.agenda := by
  induction l generalizing s with
  | nil => rfl
  | cons x l ih => rw [List.foldl_cons, ih, hf]

theorem takePosition_agenda (s : State) (t m n : Nat) : (s.takePosition t m n).1.agenda = s.agenda := by
  have upd : ∀ (s : State) (t : Nat) (f : TransporterRec → TransporterRec), (s.updateTrain t f).agenda = s.agenda := by
    intro s t f; unfold State.updateTrain; split <;> rfl
  have leaving : ∀ (s : State) ns n, (s.setLeaving ns n).agenda = s.agenda := by
    intro s ns n
    exact foldl_agenda (fun s x => s.setSeg x { s.seg x with leaving := true }) (fun _ _ => rfl) ns s
  have unmark : ∀ (s : State) ns, (s.unmark ns).agenda = s.agenda := fun s ns =>
    foldl_agenda (fun s n => s.setSeg n { s.seg n with withdrawing := none }) (fun _ _ => rfl) ns s
  have confirm : ∀ (s : State) c, (s.setConfirm t c).agenda = s.agenda := by
    intro s c; unfold State.setConfirm; split <;> rfl
  have settle : ∀ s : State, (s.settleConfirm t).agenda = s.agenda := by
    intro s
    unfold State.settleConfirm
    split
    · exact confirm s _
    · rfl
  have overrun : ∀ (s : State) track, (s.overrun t n track).agenda = s.agenda := by
    intro s track
    unfold State.overrun
    split
    · exact (settle _).trans (unmark _ _)
    · rfl
  have cursor : ∀ s : State, (s.moveCursor t n).agenda = s.agenda := by
    intro s
    unfold State.moveCursor
    split
    · rfl
    · split
      · split <;> rfl
      · rfl
  unfold State.takePosition
  split
  · rfl
  · dsimp only
    rw [cursor, overrun, upd, leaving]

theorem reportPosition_agenda (s : State) (r : Report) : ∀ x ∈ (s.reportPosition r).agenda, x ∈ s.agenda ∨ inReport x = false := by
  have upd : ∀ (s : State) (t : Nat) (f : TransporterRec → TransporterRec), (s.updateTrain t f).agenda = s.agenda := by
    intro s t f; unfold State.updateTrain; split <;> rfl
  have due : ∀ (s : State) (t : Nat), (s.makeActiveDue t).agenda = s.agenda := by
    intro s t; unfold State.makeActiveDue; split <;> rfl
  have back : ∀ x ∈ (s.backToNormal r.transporter).agenda, x ∈ s.agenda ∨ inReport x = false := by
    intro x hx
    unfold State.backToNormal at hx
    rcases List.mem_append.1 hx with hx | hx
    · rw [due, upd] at hx; exact .inl hx
    · simp at hx; subst hx; exact .inr rfl
  have pos : ∀ (s : State) (m : Nat), ∀ x ∈ (s.takePosition r.transporter m r.position).1.agenda, x ∈ s.agenda ∨ inReport x = false := fun s m x hx => by
    rw [takePosition_agenda] at hx
    exact .inl hx
  unfold State.reportPosition
  dsimp only
  intro x hx
  split at hx
  · exact .inl hx
  · split at hx
    · exact .inl hx
    · split at hx
      · unfold State.goAstray State.setCondition at hx
        rcases List.mem_append.1 hx with hx | hx
        · rw [upd] at hx; exact .inl hx
        · simp at hx; subst hx; exact .inr rfl
      · rcases List.mem_append.1 hx with hx | hx
        · rcases pos _ _ _ hx with hx | hx
          · split at hx
            · exact back _ hx
            · exact .inl hx
          · exact .inr hx
        · right
          rcases List.mem_append.1 hx with hx | hx
          · obtain ⟨m, -, rfl⟩ := List.mem_map.1 hx; rfl
          · simp at hx; rcases hx with rfl | rfl | rfl | rfl | rfl | rfl <;> rfl

/-- When SENSOR(S, OCCUPIED) raises TRACK-INTRUSION(S) (R22). -/
theorem intrudes_iff (s : State) (n : Nat) : s.intrudes n = true ↔ (((s.seg n).holder = none ∧ (s.seg n).sensor ≠ .occupied) ∨
        ∃ i, (s.seg n).holder = some i ∧ (s.seg n).leaving = false ∧ s.position i ≠ some n ∧ n ∉ s.extent i (s.sentReach i)) := by
  unfold State.intrudes State.withinSent
  dsimp only
  cases (s.seg n).holder with
  | none => simp
  | some t => simp [and_assoc]

end Sys2Proof.Laws
end

