-- ==== Sys2Proof/Laws/Restart.lean ====
section
/-!
SUPPORT. Laws/Restart.lean: what the work of `restart` leaves: no transfer, no switch waiter, the notice set as it stood, and at most the new poll
outstanding.
-/

namespace Sys2Proof.Laws

open Sys2Proof Sys2Proof.Machine

theorem enrolledList_of_trains {s t : State} (h : ∀ i, (t.train i).map trainShape = (s.train i).map trainShape) : t.enrolledList = s.enrolledList := by
  unfold State.enrolledList
  refine List.filter_congr fun i _ => ?_
  have := congrArg Option.isSome (h i)
  rw [Option.isSome_map, Option.isSome_map] at this
  exact this

/-! ### What work leaves of the switch waiters -/

/-- The Control Port, the transfers, the states of the pads and the polls stand, and no junction gains a waiter. -/
structure Clean (s t : State) : Prop where
  port : t.port = s.port
  transfers : t.transfer.transfers = s.transfer.transfers
  pads : ∀ p, (t.pad p).state = (s.pad p).state
  polls : t.polls = s.polls
  waiters : (∀ j r, s.junction j = some r → r.waiters = []) → ∀ j r, t.junction j = some r → r.waiters = []

theorem Clean.refl (s : State) : Clean s s := ⟨rfl, rfl, fun _ => rfl, rfl, id⟩

theorem Clean.trans {a b c : State} (h : Clean a b) (k : Clean b c) : Clean a c :=
  ⟨k.port.trans h.port, k.transfers.trans h.transfers, fun p => (k.pads p).trans (h.pads p), k.polls.trans h.polls, fun hw => k.waiters (h.waiters hw)⟩

theorem clean_of {s t : State} (h1 : t.port = s.port) (h2 : t.transfer = s.transfer) (h3 : t.polls = s.polls)
    (h4 : t.junctions.recs = s.junctions.recs) : Clean s t :=
  ⟨h1, by rw [h2], fun p => by unfold State.pad; rw [h2], h3, fun hw j r hj => hw j r (by unfold State.junction at hj ⊢; rw [← h4]; exact hj)⟩

theorem clean_setJunction {s : State} {j : Nat} {r r' : JunctionRec} (hr : s.junction j = some r) (h : r'.waiters = r.waiters) :
    Clean s (s.setJunction j (some r')) :=
  ⟨rfl, rfl, fun _ => rfl, rfl, fun hw i x hi => by
    rw [setJunction_junction] at hi
    split at hi
    · cases hi; rw [h]; exact hw j r hr
    · exact hw i x hi⟩

theorem clean_commit (s : State) : Clean s s.commit := by
  unfold State.commit
  split
  · exact .refl s
  · split
    · exact .refl s
    · next m _ =>
      refine Clean.trans (b := (s.setOutQueue (eraseFirst s.eligible s.wayside.outQueue)).setTransmitter (.sending m)) (clean_of rfl rfl rfl rfl) ?_
      generalize (s.setOutQueue (eraseFirst s.eligible s.wayside.outQueue)).setTransmitter (.sending m) = u
      have sent : ∀ j, Clean u (u.operationSent j) := by
        intro j
        unfold State.operationSent
        split
        · next r hr =>
          split
          · exact clean_setJunction hr rfl
          · exact .refl u
        · exact .refl u
      cases m with
      | throw j _ => exact sent j
      | prove j => exact sent j
      | uncouple p => exact .refl u
      | couple p =>
        unfold State.transmitted
        dsimp only
        split
        · exact ⟨rfl, rfl, fun i => by
            rw [setPad_pad]
            split
            · next e => subst e; rfl
            · rfl, rfl, id⟩
        · exact .refl u

theorem clean_handOut (s : State) (m : OutMessage) : Clean s (s.handOut m) :=
  Clean.trans (b := s.setOutQueue (placeOut s.wayside.outQueue m)) (clean_of rfl rfl rfl rfl) (clean_commit _)

theorem clean_tellHolder (s : State) (j : Nat) : Clean s (s.tellHolder j) := by
  unfold State.tellHolder
  split
  · exact clean_of rfl rfl rfl rfl
  · exact .refl s

theorem clean_restDecision (s : State) (j : Nat) : Clean s (s.restDecision j) := by
  have queue : ∀ target, Clean s (s.queueThrow j target) := by
    intro target
    unfold State.queueThrow
    split
    · exact .refl s
    · next r hr =>
      dsimp only
      refine Clean.trans ?_ ((clean_handOut _ _).trans (clean_tellHolder _ j))
      have h0 : Clean s (s.rotationEnds r.operation) := by
        unfold State.rotationEnds
        split
        · exact clean_of rfl rfl rfl rfl
        · exact .refl s
      have hr' : (s.rotationEnds r.operation).junction j = some r := by
        unfold State.rotationEnds
        split <;> exact hr
      exact h0.trans (clean_setJunction hr' rfl)
  unfold State.restDecision
  (repeat' split) <;> first | exact queue _ | exact .refl s

theorem clean_rotation (s : State) : Clean s s.rotation := by
  unfold State.rotation
  split
  · split
    · exact .refl s
    · next j _ =>
      split
      · exact .refl s
      · next r hr =>
        dsimp only
        generalize hu : s.setJunction j (some { r with operation := some ⟨.prove .rotation, .queued, .stopped⟩ }) = u
        have hc : Clean s u := hu ▸ clean_setJunction hr rfl
        exact hc.trans (Clean.trans (b := u.setPointer (some j)) (clean_of rfl rfl rfl rfl) (clean_handOut _ _))
  · exact .refl s

theorem clean_recompute (s : State) (t : Nat) : Clean s (s.recompute t) := by
  have marks : ∀ {a b : State}, MarksOnly a b → Clean a b := fun h => clean_of h.port h.transfer h.polls (by rw [h.junctions])
  unfold State.recompute
  split
  · exact .refl s
  · dsimp only
    refine (marks (marks_reviseMarks s t)).trans ?_
    split
    · exact .refl _
    · next r _ =>
      refine Clean.trans (b := (s.reviseMarks t).setRun t (some { r with
        limit := (s.reviseMarks t).limitAt t ((s.reviseMarks t).reach t)
        ceiling := (s.reviseMarks t).ceilingAt t ((s.reviseMarks t).reach t) })) (clean_of rfl rfl rfl rfl) ?_
      exact marks (marks_withdraw _ t ((s.reviseMarks t).reach t))

/-! ### The state after restart -/

/-- No poll is outstanding and the rotation has not begun; or a poll not yet transmitted is outstanding, to the lowest-numbered transporter. -/
def FirstPoll (s : State) : Prop :=
  (s.polls.outstanding = none ∧ s.polls.pointer = none) ∨
    ∃ x, s.polls.outstanding = some x ∧ x.transmitted = false ∧ s.enrolledList.head? = some x.transporter

/-- What `restart` makes of the part and its work leaves so. -/
structure Afresh (s : State) : Prop where
  bare : Bare s
  transfers : s.transfer.transfers = []
  unseated : ∀ p, (s.pad p).state ≠ .seated
  waiters : ∀ j r, s.junction j = some r → r.waiters = []
  poll : FirstPoll s

theorem afresh_clean {s t : State} (h : Afresh s) (hb : Bare t) (hc : Clean s t) : Afresh t :=
  ⟨hb, hc.transfers.trans h.transfers, fun p => by rw [hc.pads]; exact h.unseated p, hc.waiters h.waiters, by
    have := h.poll
    unfold FirstPoll State.enrolledList State.enrolled State.train at this ⊢
    rw [hc.polls]
    exact this⟩

theorem resumeTimers_none {s : State} (h : s.transfer.transfers = []) : s.resumeTimers = s := by
  unfold State.resumeTimers
  rw [h]
  rfl

theorem updateTrain_only (s : State) (t : Nat) (f : TransporterRec → TransporterRec) :
    (s.updateTrain t f).port = s.port ∧ (s.updateTrain t f).transfer = s.transfer ∧ (s.updateTrain t f).junctions = s.junctions
      ∧ (s.updateTrain t f).polls.outstanding = s.polls.outstanding := by
  unfold State.updateTrain
  split <;> exact ⟨rfl, rfl, rfl, rfl⟩

theorem pollNext_afresh {s : State} (h : Afresh s) :
    s.pollNext.port = s.port ∧ s.pollNext.transfer = s.transfer ∧ s.pollNext.junctions = s.junctions ∧ FirstPoll s.pollNext := by
  have trains : s.pollNext.enrolledList = s.enrolledList := enrolledList_of_trains (kept_runTask .pollNext s).trains
  unfold FirstPoll
  rw [trains]
  unfold State.pollNext
  split
  · exact ⟨rfl, rfl, rfl, h.poll⟩
  · next hq =>
    have hp : s.polls.outstanding = none ∧ s.polls.pointer = none := h.poll.resolve_right fun ⟨x, hx, _⟩ => hq (.inr (by rw [hx]; simp))
    unfold State.nextInRotation
    rw [hp.2]
    dsimp only
    split
    · next t ht =>
      unfold State.poll
      split
      · exact ⟨rfl, rfl, rfl, h.poll⟩
      · next r _ =>
        dsimp only
        generalize hu : ({ s with polls := { s.polls with
          outstanding := some { transporter := t, sequence := s.polls.nextSequence, limit := r.limit, ceiling := r.ceiling, permission := s.permission t
                                transmitted := false, inQuiet := decide (s.polls.quiet = .pending) }
          nextSequence := s.polls.nextSequence + 1, pointer := some t } } : State) = u
        have h1 := updateTrain_only u t fun y => { y with lastSent := r.limit }
        have h2 : ∀ v : State, (v.confirmPolled t).port = v.port ∧ (v.confirmPolled t).transfer = v.transfer
            ∧ (v.confirmPolled t).junctions = v.junctions ∧ (v.confirmPolled t).polls = v.polls := by
          intro v
          unfold State.confirmPolled State.setConfirm
          (repeat' split) <;> exact ⟨rfl, rfl, rfl, rfl⟩
        have h2' := h2 (u.updateTrain t fun y => { y with lastSent := r.limit })
        have h3 := updateTrain_only ((u.updateTrain t fun y => { y with lastSent := r.limit }).confirmPolled t) t
          fun x => { x with progress := if ((u.updateTrain t fun y => { y with lastSent := r.limit }).confirmPolled t).progressRuns t = true then
              (match x.progress with
              | .stopped => .running ((u.updateTrain t fun y => { y with lastSent := r.limit }).confirmPolled t).params.progressTime
              | p => p) else .stopped }
        refine ⟨h3.1.trans (h2'.1.trans (h1.1.trans (by subst hu; rfl))), h3.2.1.trans (h2'.2.1.trans (h1.2.1.trans (by subst hu; rfl))),
          h3.2.2.1.trans (h2'.2.2.1.trans (h1.2.2.1.trans (by subst hu; rfl))), .inr ⟨_, h3.2.2.2.trans ((congrArg _ h2'.2.2.2).trans
          (h1.2.2.2.trans (by subst hu; rfl))), rfl, ht⟩⟩
    · exact ⟨rfl, rfl, rfl, h.poll⟩

theorem afresh_runTask (x : Task) (s : State) (hx : bareTask x = true) (h : Afresh s) : Afresh (runTask x s) ∧ (runTask x s).port = s.port := by
  have hb : Bare (runTask x s) := bare_of (leavesBare_runTask x s hx h.bare) h.bare
  have clean : Clean s (runTask x s) → Afresh (runTask x s) ∧ (runTask x s).port = s.port := fun hc => ⟨afresh_clean h hb hc, hc.port⟩
  have nothing : s.emit [] = s := by unfold State.emit; rw [List.append_nil]
  cases x <;> first | (simp [bareTask] at hx; done) | skip
  case recompute t => exact clean (clean_recompute s t)
  case restDecision j => exact clean (clean_restDecision s j)
  case rotation => exact clean (clean_rotation s)
  case complete t =>
    refine clean ?_
    have e : s.complete t = s := by
      unfold State.complete
      rw [bare_startingDivert h.bare, bare_active h.bare]
      split <;> rfl
    show Clean s (s.complete t)
    rw [e]
    exact .refl s
  case serveAll => exact clean (clean_of rfl rfl rfl rfl)
  case retryAll => exact clean (clean_of rfl rfl rfl rfl)
  case extend =>
    refine clean ?_
    show Clean s s.extend
    rw [extend_settled h.bare.due]
    exact .refl s
  case startTransfers =>
    refine clean ?_
    show Clean s s.startTransfers
    rw [startTransfers_settled (List.find?_eq_none.2 fun m _ => by unfold State.mayTransfer; rw [bare_order h.bare m]; simp)]
    exact .refl s
  case resumeTransfers =>
    refine clean ?_
    show Clean s s.resumeTransfers
    unfold State.resumeTransfers
    dsimp only
    have h0 : Clean s (s.setHoldEnding false) := clean_of rfl rfl rfl rfl
    split
    · exact h0
    · rw [resumeTimers_none (s := s.setHoldEnding false) h.transfers]
      exact h0.trans (clean_commit _)
  case pollNext =>
    obtain ⟨h1, h2, h3, h4⟩ := pollNext_afresh h
    exact ⟨⟨hb, by rw [show (runTask .pollNext s).transfer = _ from h2]; exact h.transfers, fun p => by
      unfold State.pad; rw [show (runTask .pollNext s).transfer = _ from h2]; exact h.unseated p, fun j r hj => h.waiters j r (by
      unfold State.junction at hj ⊢; rw [← h3]; exact hj), h4⟩, h1⟩

/-- The work of a part afresh leaves it so, and the Control Port as it stands. -/
theorem afresh_workOff {s : State} (h : Afresh s) (hn : ∀ x ∈ s.agenda, bareTask x = true) : Afresh (workOff s) ∧ (workOff s).port = s.port :=
  workOff_keeps (P := fun t => Afresh t ∧ t.port = s.port) (ok := fun x => bareTask x = true)
    (fun _ _ h => ⟨⟨⟨h.1.bare.orders, h.1.bare.due, h.1.bare.waiting, h.1.bare.queues, h.1.bare.marks⟩, h.1.transfers, h.1.unseated, h.1.waiters, h.1.poll⟩, h.2⟩)
    (fun x t hx ha h => by
      have hr := afresh_runTask x t hx h.1
      exact ⟨⟨hr.1, hr.2.trans h.2⟩, fun y hy => ((leavesBare_runTask x t hx h.1.bare).agenda y hy).elim (fun e => by rw [ha] at e; cases e) id⟩)
    ⟨rfl, rfl, rfl⟩ ⟨h, rfl⟩ hn

/-! ### The telescopes in doubt -/

theorem get_put_all (l : List Nat) (t : Table Placement) (x : Nat) :
    Table.get .unplaced (l.foldl (fun t x => Table.put .unplaced t x .unplaced) t) x = if x ∈ l then .unplaced else Table.get .unplaced t x := by
  induction l generalizing t with
  | nil => simp
  | cons y rest ih =>
    rw [List.foldl_cons, ih, get_put]
    by_cases h : x ∈ rest
    · simp [h]
    · by_cases h' : x = y <;> simp [h, h']

/-- The telescopes that the pads leave in doubt at `restart` are UNPLACED, and no other is moved (R128). -/
theorem restartTransfers_placement (s : State) (x : Nat) :
    (s.restartTransfers.placement x = .unplaced ∨ s.restartTransfers.placement x = s.placement x) ∧
    ((∃ p ∈ Table.keys s.transfer.pads, s.restartDoubt p = some (some x)) → s.restartTransfers.placement x = .unplaced) ∧
    ((∀ p, s.restartDoubt p ≠ some (some x)) → s.restartTransfers.placement x = s.placement x) := by
  have e : s.restartTransfers.placement x
      = if x ∈ (Table.keys s.transfer.pads).filterMap fun p => (s.restartDoubt p).bind id then .unplaced else s.placement x :=
    get_put_all _ _ _
  rw [e]
  refine ⟨?_, fun ⟨p, hp, hd⟩ => if_pos (List.mem_filterMap.2 ⟨p, hp, by rw [hd]; rfl⟩), fun h => if_neg fun hm => ?_⟩
  · split
    · exact .inl rfl
    · exact .inr rfl
  · obtain ⟨p, -, hp⟩ := List.mem_filterMap.1 hm
    cases hd : s.restartDoubt p with
    | none => rw [hd] at hp; cases hp
    | some y => rw [hd] at hp; exact h p (by rw [hd, show y = some x from hp])

/-! ### What the taking of restart makes -/

/-- The records as `restart` leaves them, before the hold loses DESK and the work listed is done. -/
def afterRestart (s : State) (q : Ask) : State :=
  let s := (s.answer q .done .empty).restartJunctions.restartTransfers.restartCore
  let s := { s with orders := { slots := [], refs := [] }, due := [] }
  (s.setFenced []).restartPolls.restartWayside.restartPort

/-- The work that `restart` lists before the hold loses DESK. -/
def restartWork (s : State) (q : Ask) : List Task :=
  (afterRestart s q).enrolledList.map .recompute ++ ((Table.keys s.core.segs).filter s.restartReleases).map .restDecision

theorem takeRestart_eq (s : State) (q : Ask) :
    s.takeRestart q
      = (State.changeHold ((afterRestart s q).emit (restartWork s q)) { (afterRestart s q).guards.hold with desk := false }).emit [.pollNext] := rfl

theorem afterRestart_seg (s : State) (q : Ask) (m : Nat) :
    (afterRestart s q).seg m
      = { s.seg m with
          holder := (s.seg m).holder.filter fun t => decide (s.position t = some m), queue := [], leaving := false, withdrawing := none } := by
  have e : (s.answer q .done .empty).core = s.core ∧ (s.answer q .done .empty).polls = s.polls := by
    unfold State.answer State.place
    split <;> exact ⟨rfl, rfl⟩
  show Table.get SegDyn.initial (Table.mapRecords SegDyn.initial _ (s.answer q .done .empty).core.segs) m = _
  rw [get_mapRecords _ _ (by intro k; rfl), e.1]
  have : ∀ t, (s.answer q .done .empty).position t = s.position t := fun t => by unfold State.position State.train; rw [e.2]
  have hf : (fun t => decide ((s.answer q .done .empty).position t = some m)) = fun t => decide (s.position t = some m) :=
    funext fun t => by rw [this t]
  show ({ holder := Option.filter (fun t => decide ((s.answer q .done .empty).position t = some m)) (s.seg m).holder, queue := []
          sensor := (s.seg m).sensor, leaving := false, withdrawing := none } : SegDyn) = _
  rw [hf]

theorem afterRestart_junction (s : State) (q : Ask) (j : Nat) :
    (afterRestart s q).junction j
      = (s.junction j).map fun x => x.restarted ((s.answer q .done .empty).restartReleases j) (s.answer q .done .empty).params.holdTime := by
  have e : (s.answer q .done .empty).junctions = s.junctions := by
    unfold State.answer State.place
    split <;> rfl
  show Table.get none (Table.mapRecords none _ (s.answer q .done .empty).junctions.recs) j = _
  rw [get_mapRecords _ _ (by intro k; rfl), e]
  rfl

theorem restartDoubt_of {s u : State} (h : u.transfer = s.transfer) (p : Nat) : u.restartDoubt p = s.restartDoubt p := by
  unfold State.restartDoubt State.pad State.transferAt
  rw [h]

theorem restartPad_of {s u : State} (h : u.transfer = s.transfer) (p : Nat) (r : PadRec) : u.restartPad p r = s.restartPad p r := by
  unfold State.restartPad
  rw [restartDoubt_of h]

theorem answer_transfer (s : State) (q : Ask) (o : Outcome) (b : Body) : (s.answer q o b).transfer = s.transfer := by
  unfold State.answer State.place
  split <;> rfl

/-- A pad after `restart` (R128). -/
theorem restartTransfers_pad (s : State) (p : Nat) : s.restartTransfers.pad p = s.restartPad p (s.pad p) := by
  show Table.get PadRec.undeclared (Table.mapRecords PadRec.undeclared s.restartPad s.transfer.pads) p = _
  rw [get_mapRecords_keys]
  split
  · rfl
  · next h =>
    have e : s.pad p = PadRec.undeclared := by
      by_contra hne
      exact h (mem_keys_of_get hne)
    unfold State.restartPad State.restartDoubt
    rw [e]
    rfl

/-- No pad is SEATED after `restart` (R128). -/
theorem restarted_unseated (s : State) (p : Nat) : (s.restartTransfers.pad p).state ≠ .seated := by
  rw [restartTransfers_pad]
  unfold State.restartPad State.restartDoubt PadRec.unsettledWith
  dsimp only
  cases h : (s.pad p).state <;> simp [h]
  cases h' : s.transferAt p <;> simp

theorem afterRestart_transfer (s : State) (q : Ask) :
    (afterRestart s q).transfer = (s.answer q .done .empty).restartJunctions.restartTransfers.transfer := rfl

theorem restartTransfers_of {s u : State} (h : u.transfer = s.transfer) : u.restartTransfers.transfer = s.restartTransfers.transfer := by
  have e1 : u.restartPad = s.restartPad := funext fun p => funext fun r => restartPad_of h p r
  have e2 : u.restartDoubt = s.restartDoubt := funext fun p => restartDoubt_of h p
  unfold State.restartTransfers
  dsimp only
  rw [e1, e2, h]

/-- The Transfer Unit after `restart` is what R128's table makes of it. -/
theorem afterRestart_tables (s : State) (q : Ask) : (afterRestart s q).transfer = s.restartTransfers.transfer :=
  (afterRestart_transfer s q).trans (restartTransfers_of (by show (s.answer q .done .empty).transfer = _; exact answer_transfer s q _ _))

theorem afterRestart_train (s : State) (q : Ask) (i : Nat) :
    (afterRestart s q).train i = (s.train i).map fun x => x.restarted (s.answer q .done .empty).params.grace := by
  have e : (s.answer q .done .empty).polls = s.polls := by
    unfold State.answer State.place
    split <;> rfl
  show Table.get none (Table.mapRecords none _ (s.answer q .done .empty).polls.recs) i = _
  rw [get_mapRecords _ _ (by intro k; rfl), e]
  rfl

theorem afterRestart_afresh (s : State) (q : Ask) : Afresh (afterRestart s q) :=
  ⟨⟨rfl, rfl, rfl, fun m => by rw [afterRestart_seg], fun m => by rw [afterRestart_seg]⟩, rfl, fun p => by
    unfold State.pad
    rw [afterRestart_tables]
    exact restarted_unseated s p, fun j r hj => by
    rw [afterRestart_junction] at hj
    obtain ⟨x, -, rfl⟩ := Option.map_eq_some_iff.1 hj
    rfl, .inl ⟨rfl, rfl⟩⟩

theorem afresh_guards {s : State} (h : Afresh s) (g : GuardUnit) (a : List Task) (e : Bool) : Afresh { s with guards := g, agenda := a, holdEnding := e } :=
  ⟨⟨h.bare.orders, h.bare.due, h.bare.waiting, h.bare.queues, h.bare.marks⟩, h.transfers, h.unseated, h.waiters, h.poll⟩

theorem bareTask_recompute (l : List Nat) : ∀ y ∈ l.map Task.recompute, bareTask y = true := by
  intro y hy
  obtain ⟨_, -, rfl⟩ := List.mem_map.1 hy
  rfl

/-- What the hold's change leaves afresh, and lists. -/
theorem changeHold_afresh {s : State} (h : Afresh s) (ha : ∀ x ∈ s.agenda, bareTask x = true) (v : HoldSources) :
    Afresh (s.changeHold v) ∧ (s.changeHold v).port = s.port ∧ ∀ x ∈ (s.changeHold v).agenda, bareTask x = true := by
  unfold State.changeHold
  dsimp only
  split
  · unfold State.holdBegins
    have e : (s.setHold v).suspendTransfers = s.setHold v := by
      unfold State.suspendTransfers
      rw [show (s.setHold v).transfer.transfers = [] from h.transfers]
      rfl
    rw [e]
    exact ⟨afresh_guards h _ _ _, rfl, fun x hx => (List.mem_append.1 hx).elim (ha x) (bareTask_recompute _ x)⟩
  · split
    · refine ⟨afresh_guards h _ _ _, rfl, fun x hx => ?_⟩
      rcases List.mem_append.1 hx with hx | hx
      · exact ha x hx
      rcases List.mem_append.1 hx with hx | hx
      · exact bareTask_recompute _ x hx
      · simp only [List.mem_cons, List.not_mem_nil, or_false] at hx
        rcases hx with rfl | rfl | rfl | rfl | rfl <;> rfl
    · exact ⟨afresh_guards h _ _ _, rfl, ha⟩

theorem takeRestart_afresh (s : State) (q : Ask) (ha : s.agenda = []) :
    Afresh (s.takeRestart q) ∧ (s.takeRestart q).port = (afterRestart s q).port ∧ ∀ x ∈ (s.takeRestart q).agenda, bareTask x = true := by
  have hag : (afterRestart s q).agenda = [] := by
    show (s.answer q .done .empty).agenda = []
    unfold State.answer State.place
    split <;> exact ha
  have h0 := afterRestart_afresh s q
  have hw : ∀ x ∈ ((afterRestart s q).emit (restartWork s q)).agenda, bareTask x = true := by
    intro x hx
    rcases List.mem_append.1 hx with hx | hx
    · rw [hag] at hx; cases hx
    rcases List.mem_append.1 hx with hx | hx
    · exact bareTask_recompute _ x hx
    · obtain ⟨_, -, rfl⟩ := List.mem_map.1 hx
      rfl
  obtain ⟨h1, h2, h3⟩ := changeHold_afresh (afresh_guards h0 _ ((afterRestart s q).emit (restartWork s q)).agenda _) hw
    { (afterRestart s q).guards.hold with desk := false }
  rw [takeRestart_eq]
  refine ⟨afresh_guards h1 _ _ _, h2, fun x hx => ?_⟩
  rcases List.mem_append.1 hx with hx | hx
  · exact h3 x hx
  · rw [List.mem_singleton] at hx
    subst hx
    rfl

/-- The work that `restart` lists keeps what calm work keeps. -/
theorem takeRestart_calm (s : State) (q : Ask) :
    Calm ((afterRestart s q).setHold { (afterRestart s q).guards.hold with desk := false }) (s.takeRestart q) := by
  rw [takeRestart_eq]
  refine Calm.trans ?_ (calm_emit _ (by simp [inReport]))
  refine Calm.trans ?_ (calm_changeHold _ _)
  refine { calm_emit ((afterRestart s q).setHold { (afterRestart s q).guards.hold with desk := false }) (xs := restartWork s q) ?_ with }
  intro x hx
  rcases List.mem_append.1 hx with hx | hx <;> obtain ⟨_, _, rfl⟩ := List.mem_map.1 hx <;> rfl

theorem afterRestart_rest (s : State) (q : Ask) (hr : s.port.answers.length < 8) :
    (afterRestart s q).late = s.late ∧ (afterRestart s q).pending = s.pending ∧ (afterRestart s q).agenda = s.agenda := by
  have e : s.answer q .done .empty = s.setAnswers (s.port.answers ++ [⟨q.tag, q.code, .done, .empty⟩]) := answer_room hr _ _ _
  refine ⟨?_, ?_, ?_⟩
  · show (s.answer q .done .empty).late = _
    rw [e]; rfl
  · show (s.answer q .done .empty).pending = _
    rw [e]; rfl
  · show (s.answer q .done .empty).agenda = _
    rw [e]; rfl

/-- What `restart` makes does not depend on the requests that wait (R204). -/
theorem takeRestart_requests (s : State) (q : Ask) (l : List QueuedRequest) (hr : s.port.answers.length < 8) :
    (s.setRequests l).takeRestart q = (s.setRequests []).takeRestart q := by
  have e : afterRestart (s.setRequests l) q = afterRestart (s.setRequests []) q := by
    have e1 : (s.setRequests l).answer q .done .empty = _ := answer_room (s := s.setRequests l) hr _ _ _
    have e2 : (s.setRequests []).answer q .done .empty = _ := answer_room (s := s.setRequests []) hr _ _ _
    unfold afterRestart
    rw [e1, e2]
    rfl
  have ew : restartWork (s.setRequests l) q = restartWork (s.setRequests []) q := by
    unfold restartWork
    rw [e]
    rfl
  rw [takeRestart_eq, takeRestart_eq, e, ew]

/-- With no request waiting none is taken. -/
theorem takeRequests_none (n : Nat) (s : State) (h : s.port.requests = []) : takeRequests n s = s := by
  induction n with
  | zero => rfl
  | succ n ih =>
    show takeRequests n (takeRequest s) = s
    have : takeRequest s = s := by unfold takeRequest; rw [h]
    rw [this, ih]

end Sys2Proof.Laws
end

