-- ==== Sys2Proof/Tests/Slice0.lean ====
section
/-!
SUPPORT. Tests/Slice0.lean: ill-formed commands that the check refuses; what commands do on small states; and for the hypotheses of the statements,
states and operands that meet them.
-/

set_option Elab.async false

namespace Sys2Proof.Tests

open Sys2Proof Sys2Proof.Machine Sys2Proof.Laws

/-! ### Small states -/

def hm : Header := ⟨7, .maintenance⟩
def ho : Header := ⟨8, .operator⟩
def hs : Header := ⟨9, .scheduler⟩

/-- The state after a command, where the part goes on. -/
def after (c : Instr) (s : State) : State :=
  match exec c s with
  | .next t => t
  | _ => s

def plainSeg (first second : Option Link) (guard : Nat) : SegDecl :=
  { kind := .plain, first := first, second := second, third := none, speed := .travel, guard := guard, rest := .none }

def switchSeg (rest : RestPosition) : SegDecl :=
  { kind := .junction, first := some ⟨2, .b⟩, second := some ⟨4, .a⟩, third := some ⟨5, .a⟩, speed := .creep, guard := 2, rest := rest }

/-- Segments 0 to 5: 0 to 2 in a line, junction 3 after them, 4 on its normal and 5 on its reverse branch. Segment 5 has guard level 0. -/
def decls : Table (Option SegDecl) :=
  [(0, some (plainSeg none (some ⟨1, .a⟩) 2)), (1, some (plainSeg (some ⟨0, .b⟩) (some ⟨2, .a⟩) 2)),
   (2, some (plainSeg (some ⟨1, .b⟩) (some ⟨3, .a⟩) 2)), (3, some (switchSeg .none)),
   (4, some (plainSeg (some ⟨3, .bNormal⟩) none 2)), (5, some (plainSeg (some ⟨3, .bReverse⟩) none 0))]

def clearSeg : SegDyn := { SegDyn.initial with sensor := .clear }

def idleSwitch (p : SwitchPosition) : JunctionRec := { position := p, operation := none, hold := .expired, waiters := [], untrusted := false, underHolder := false }

/-- The layout closed, every sensor CLEAR, junction 3 with the record given, the rotation waiting. -/
def road (j : JunctionRec) : State :=
  { State.reset with
    layout := { decls := decls, closed := true }
    core := { segs := [(0, clearSeg), (1, clearSeg), (2, clearSeg), (3, clearSeg), (4, clearSeg), (5, clearSeg)], runs := [], waiting := [] }
    junctions := { recs := [(3, some j)], pointer := none, interval := .running 30 } }

/-- The same declarations, the layout OPEN. -/
def draft : State := { State.reset with layout := { decls := decls, closed := false } }

def train (n : Nat) (c : Condition) : TransporterRec :=
  { position := n, atRest := true, inMotion := false, condition := c, missCount := 0, progress := .stopped, grace := 2, lastSent := n
    quietStand := false }

/-- Transporter 0 on segment 0, with the condition and the load given. -/
def manned (c : Condition) (l : Load) : State :=
  let s := road (idleSwitch .normal)
  { s with
    core := { s.core with segs := (0, { clearSeg with holder := some 0 }) :: s.core.segs.drop 1, runs := [(0, some ⟨0, .travel, .none⟩)] }
    transfer := { s.transfer with loads := [(0, some l)] }
    polls := { s.polls with recs := [(0, some (train 0 c))] } }

def pos (n : Nat) (e l : Option TrackEnd) : RoutePos := ⟨n, e, l, none⟩

def leg012 : List RoutePos := [pos 0 (some .a) (some .b), pos 1 (some .a) (some .b), pos 2 (some .a) none]

def anOrder (k : OrderKind) (f : Option Finish) (x : OrderState) : Order :=
  { transporter := 0, kind := k, finish := f, leg1 := leg012, leg2 := if k = .refuge then [pos 1 (some .b) none] else [], cursor := ⟨1, 0⟩
    claim := ⟨1, 0⟩, head := .none, state := x, failure := none, outcome := none, resumed := false, rejoin := none }

/-- Transporter 0 with an active order in slot 0. -/
def ordered (o : Order) : State :=
  ((manned .normal .none).setOrder 0 (some o)).setRefs 0 { active := some 0, stack := [], pendingDivert := none }

def aPad (x : PadState) : PadRec := { PadRec.undeclared with state := x, access := 4, guard := 2 }

/-- Transporter 0 and pad 20 at segment 4. -/
def station (r : PadRec) : State := (manned .normal .none).setPad 20 r

def aTransfer (k : TransferKind) (ph : TransferPhase) (x : TransferTimer) : TransferRec :=
  { order := 1, transporter := 0, kind := k, phase := ph, telescope := 33, stationHeard := false, transporterHeard := false, timer := x }

/-- A transfer in progress at pad 20. -/
def transferring (r : PadRec) (x : TransferRec) : State := (station r).setTransfer 20 (some x)

/-- A window open, awaiting its first byte. -/
def listening (s : State) : State := s.setWindow (.opened s.fixFrame false .awaitingLength)

def anAnswer : Answer := ⟨1, 43, .done, .empty⟩

/-- A full answer queue. -/
def full (s : State) : State := s.setAnswers (List.replicate 8 anAnswer)

/-- A state with one message in the in-queue. -/
def hears (s : State) (m : InMessage) : State := s.setInQueue [m]

/-! ### Between events -/

/-- What `Ready` and `Settled` ask, as one check. -/
def between (s : State) : Bool :=
  s.agenda.isEmpty && s.due.isEmpty && s.late.isNone && s.port.requests.isEmpty && decide (s.port.answers.length < 8)
    && (slots.find? s.mayTransfer).isNone && (decide (s.junctions.interval ≠ .stopped) || s.rotationNext.isNone)

theorem between_holds {s : State} (h : between s = true) : s.Ready ∧ s.Settled := by
  simp only [between, Bool.and_eq_true, Bool.or_eq_true, decide_eq_true_eq, List.isEmpty_iff, Option.isNone_iff_eq_none] at h
  obtain ⟨⟨⟨⟨⟨⟨h1, h2⟩, h3⟩, h4⟩, h5⟩, h6⟩, h7⟩ := h
  exact ⟨⟨h1, h3, h4, h5⟩, ⟨h1, h2, h6, fun hi _ => h7.elim (fun h => absurd hi h) id⟩⟩

/-- A state between events that meets a condition. -/
theorem meets {s : State} {p : Prop} [Decidable p] (h : (between s && decide p) = true) : s.Ready ∧ s.Settled ∧ p := by
  rw [Bool.and_eq_true, decide_eq_true_eq] at h
  exact ⟨(between_holds h.1).1, (between_holds h.1).2, h.2⟩

/-- What `refsRight` and `slotsRight` ask, as one check. -/
def referred (s : State) : Bool :=
  (s.orders.refs.all fun e => e.2.named.all fun k =>
    match s.order k with
    | some o => decide (o.transporter = e.1) && o.live
    | none => false)
  && s.orders.slots.all fun e => decide (e.1 ≤ 7)

theorem referred_holds {s : State} (h : referred s = true) : s.refsRight ∧ s.slotsRight := by
  simp only [referred, Bool.and_eq_true, List.all_eq_true, decide_eq_true_eq] at h
  obtain ⟨h1, h2⟩ := h
  refine ⟨fun u k hk => ?_, fun k o ho => ?_⟩
  · have hm : (u, s.orderRefs u) ∈ s.orders.refs := by
      refine mem_of_get (d := OrderRefs.initial) fun e => ?_
      rw [show s.orderRefs u = OrderRefs.initial from e] at hk
      cases hk
    have := h1 _ hm k hk
    split at this
    · next o ho =>
      rw [Bool.and_eq_true, decide_eq_true_eq] at this
      exact ⟨o, ho, this⟩
    · cases this
  · refine h2 (k, s.order k) (mem_of_get (d := none) ?_)
    show s.order k ≠ none
    rw [ho]
    simp

/-! ### Ill-formed commands are refused -/

theorem test_wf_tag : (Instr.hold ⟨256, .operator⟩).wf = false := by decide
theorem test_wf_byte_parameter : (Instr.readSegment hm 256).wf = false := by decide
theorem test_wf_optional_part : (Instr.readOrder hm 0 (some 256)).wf = false := by decide
theorem test_wf_word_parameter : (Instr.setParameter hm 1 65536).wf = false := by decide
theorem test_wf_sweep : (Instr.sweepPads hm 0 256 .up).wf = false := by decide
theorem test_wf_link : (Instr.declareSegment hm 0 .plain 0 .creep .none (some ⟨255, .a⟩) none none).wf = false := by decide
theorem test_wf_third_link : (Instr.declareSegment hm 0 .plain 0 .creep .none none none (some ⟨255, .a⟩)).wf = false := by decide
theorem test_wf_finish : (Instr.submitOrder hm 0 .emptyRun (.lift 256) []).wf = false := by decide
theorem test_wf_stretch : (Instr.submitOrder hm 0 .emptyRun .none [⟨0, 256, .up⟩]).wf = false := by decide
theorem test_wf_order_length : (Instr.submitOrder hm 0 .emptyRun .none (List.replicate 19 ⟨0, 1, .up⟩)).wf = false := by decide
theorem test_wf_order_longest : (Instr.submitOrder hm 0 .emptyRun .none (List.replicate 18 ⟨0, 1, .up⟩)).wf = true := by decide
theorem test_wf_divert_length : (Instr.divert hm 0 (List.replicate 9 ⟨0, 1, .up⟩) (List.replicate 10 ⟨0, 1, .up⟩)).wf = false := by decide
theorem test_wf_pad_target : (Instr.declarePad hm 0 0 0 (.anchored 256)).wf = false := by decide
theorem test_wf_load_target : (Instr.settleLoad hm 0 (.telescope 256)).wf = false := by decide
theorem test_wf_groups : (Instr.setGrants hm 0 [256] []).wf = false := by decide
theorem test_wf_grants_length : (Instr.setGrants hm 0 (List.replicate 57 0) []).wf = false := by decide
theorem test_wf_timer_of_a_transporter : (Instr.progressTimerExpiry 4).wf = false := by decide
theorem test_wf_timer_of_a_junction : (Instr.operationTimerExpiry 128).wf = false ∧ (Instr.junctionHoldExpiry 128).wf = false := by decide
theorem test_wf_timer_of_a_pad : (Instr.transferTimerExpiry 192).wf = false ∧ (Instr.couplingTimerExpiry 192).wf = false := by decide
theorem test_wf_wayside_frame : (Instr.waysideFrame [0xC3#8]).wf = false := by decide
theorem test_wf_report : (Instr.transporterReport [0#8]).wf = false := by decide
theorem test_wf_request_frame : (Instr.requestFrameComplete (List.replicate 65 0#8)).wf = false := by decide
theorem test_wf_hunting_byte : (Instr.byteInHunting 0xC3#8).wf = false := by decide
theorem test_wf_length_byte : (Instr.lengthByteFraming 5#8).wf = false ∧ (Instr.lengthByteFraming 0#8).wf = false := by decide
theorem test_no_word_spells_a_command : decodeTableWord 8 0 = none ∧ State.reset.withFetchWord 8 0 = State.reset := by decide

/-! ### What commands do on small states -/

theorem test_powerOn : (after .powerOn (manned .normal .none)).polls.recs = [] ∧ (after .resetLine (manned .normal .none)).port.cause = .line := by decide
theorem test_hold_input :
    (after .holdAsserted (manned .normal .none)).guards.hold = ⟨true, false, false⟩
      ∧ (after .holdDeasserted (after .holdAsserted (manned .normal .none))).guards.hold = ⟨false, false, false⟩ := by decide +kernel
theorem test_windowBegin : ((after .windowBegin (full draft)).port.window = .opened ⟨some anAnswer, (full draft).summary⟩ false .awaitingLength) := by
  decide +kernel
theorem test_frame_of_a_hold_request :
    (after (.requestFrameComplete (requestFrame ho .hold)) (listening (manned .normal .none))).port.answers
      = [⟨8, 43, .done, .holdSources ⟨false, true, false⟩⟩] := by decide +kernel
theorem test_zero_length_byte : (after (.windowEnd [0#8, 9#8]) (listening draft)).port.flags = StickyFlags.initial := by decide +kernel
theorem test_submitOrder_claims_the_track :
    let t := after (.submitOrder hs 0 .emptyRun .none [⟨0, 3, .up⟩]) (manned .normal .none)
    t.port.answers = [⟨9, 20, .accepted, .orderAccepted 0 3⟩] ∧ (t.order 0).map (·.claim) = some ⟨1, 2⟩ ∧ (t.seg 2).holder = some 0
      ∧ t.run 0 = some ⟨2, .travel, .none⟩ := by decide +kernel
theorem test_submitOrder_needs_the_junction_thrown :
    let t := after (.submitOrder hm 0 .emptyRun .none [⟨0, 4, .up⟩, ⟨5, 1, .up⟩])
      { manned .normal .none with port := { State.reset.port with params := { Params.initial with lead := 6 } } }
    (t.seg 3).holder = some 0 ∧ (t.junction 3).map (·.position) = some .moving ∧ (t.run 0).map (·.limit) = some 2 := by decide +kernel
theorem test_cancelOrder_ends_at_once :
    let t := after (.cancelOrder hs 0) (ordered (anOrder .emptyRun (some .none) .running))
    t.port.answers = [⟨9, 21, .done, .orderState .ended⟩] ∧ (t.orderRefs 0).active = none := by decide +kernel
theorem test_resumeRefuge :
    ((after (.resumeRefuge hs 0) ((ordered { anOrder .refuge none .dwelling with cursor := ⟨1, 2⟩, claim := ⟨1, 2⟩ }).setTrain 0
      (some (train 2 .normal)))).order 0).map (·.resumed) = some true := by decide +kernel
theorem test_divert_of_length_one_leg :
    (after (.divert hs 0 [⟨0, 1, .up⟩] [⟨1, 1, .up⟩]) (ordered (anOrder .emptyRun (some .none) .running))).port.answers
      = [⟨9, 22, .done, .refuge 1 1 1 .dwelling⟩] := by decide +kernel
theorem test_closeLayout : (after (.closeLayout hm) draft).layout.closed = true ∧ ((after (.closeLayout hm) draft).junction 3).isSome = true := by
  decide +kernel
theorem test_clearSwitch :
    ((after (.clearSwitch hm 3) (road (idleSwitch .faulted))).junction 3).map (·.operation)
      = some (some ⟨.prove .recovery, .sent, .running 12⟩) := by decide +kernel
theorem test_detection_of_a_throw :
    ((after .detection (hears (road { idleSwitch .moving with operation := some ⟨.throw .reverse .normal, .sent, .running 12⟩ })
      (.detection 3 .reverse))).junction 3) = some (idleSwitch .reverse) := by decide +kernel
theorem test_operation_times_out :
    (after (.operationTimerExpiry 3) (road { idleSwitch .normal with operation := some ⟨.prove .rotation, .sent, .running 12⟩ })).port.notices
      = [⟨.switchFault, 3⟩, ⟨.restarted, 0⟩] := by decide +kernel
theorem test_rest_decision :
    let s := road { idleSwitch .reverse with hold := .running 60 }
    ((after (.junctionHoldExpiry 3) (s.setDecl 3 (some (switchSeg .normal)))).junction 3).map (·.operation)
      = some (some ⟨.throw .normal .reverse, .sent, .running 12⟩) := by decide +kernel
theorem test_rotation : ((after .proveIntervalExpiry (road (idleSwitch .unknown))).junctions.pointer) = some 3 := by decide +kernel
theorem test_sensor :
    (after .sensor (hears (road (idleSwitch .normal)) (.sensor 1 true))).port.notices = [⟨.trackIntrusion, 1⟩, ⟨.restarted, 0⟩] := by decide +kernel
theorem test_lift_starts :
    let s := (ordered { anOrder .emptyRun (some (.lift 20)) .running with leg1 := [pos 4 none none] }).setTrain 0 (some { train 4 .normal with atRest := false })
    let s := (s.setPad 20 { aPad .anchored with occupant := some 33, claim := some 0 }).setPlacement 33 (.onPad 20)
    let s := { s with core := { s.core with segs := [(4, { clearSeg with holder := some 0 })] },
                      polls := { s.polls with outstanding := some ⟨0, 5#8, 4, .travel, .none, true, false⟩, window := .running 30 } }
    let t := after (.transporterReport (withCheck [0#8, 5#8, 4#8, 1#8, 0#8, 0#8, 0#8, 0#8])) s
    (t.pad 20).state = .releasing ∧ t.wayside.transmitter = .sending (.uncouple 20) ∧ (t.order 0).map (·.state) = some .transfer := by decide +kernel
theorem test_lift_completes :
    let s := hears (transferring { aPad .releasing with occupant := some 33, confTransporter := true } (aTransfer .lift .lifting (.running 180)))
      (.padEvent 20 .loadClear)
    (after .padEvent s).load 0 = some (.telescope 33) ∧ ((after .padEvent s).pad 20).state = .vacant := by decide +kernel
theorem test_transfer_times_out :
    let s := transferring { aPad .releasing with occupant := some 33 } (aTransfer .lift .uncoupling (.running 180))
    ((after (.transferTimerExpiry 20) s).pad 20).state = .anchored := by decide +kernel
theorem test_coupling_times_out :
    ((after (.couplingTimerExpiry 20) (station { aPad .seated with coupling := .sent, couplingTimer := .running 60 })).pad 20).coupling = .none := by
  decide +kernel
theorem test_recouplePad : ((after (.recouplePad hm 20) (station { aPad .seated with occupant := some 3 })).pad 20).coupling = .sent := by decide +kernel
theorem test_enrollTransporter :
    let t := after (.enrollTransporter hm 3 2 .none) (road (idleSwitch .normal))
    (t.seg 2).holder = some 3 ∧ (t.polls.outstanding.map (·.transporter)) = some 3 := by decide +kernel
theorem test_disenrollTransporter : (after (.disenrollTransporter hm 0) (manned .lost .none)).core.runs = [] := by decide +kernel
theorem test_clearAstray : ((after (.clearAstray hm 0 2) (manned .astray .none)).train 0).map (·.condition) = some .normal := by decide +kernel
theorem test_proceed : ((after (.proceed ho 0) (manned .stalled .none)).train 0).map (·.condition) = some .normal := by decide +kernel
theorem test_enterQuiet : (after (.enterQuiet ho) (road (idleSwitch .normal))).port.answers = [⟨8, 36, .done, .quiet .inForce none⟩] := by decide +kernel
theorem test_missed_reply_loses :
    let s := (manned .normal .none).setTrain 0 (some { train 0 .normal with missCount := 2 })
    let s := { s with polls := { s.polls with outstanding := some ⟨0, 5#8, 0, .travel, .none, true, false⟩, window := .running 30 } }
    ((after .replyWindowExpiry s).train 0).map (·.condition) = some .lost := by decide +kernel
theorem test_progress_times_out :
    let s := (manned .normal .none).setTrain 0 (some { train 0 .normal with progress := .running 40 })
    (after (.progressTimerExpiry 0) s).port.notices = [⟨.transporterStalled, 0⟩, ⟨.restarted, 0⟩] := by decide +kernel
theorem test_setFence : (after (.setFence ho 0 2 2) (manned .normal .none)).guards.fences = [(0, some ⟨2, 2⟩)] := by decide +kernel
theorem test_wayside_frame :
    (after (.waysideFrame (syncByte :: withCheck [1#8, 2#8, 1#8])) (road (idleSwitch .normal))).wayside.inQueue = [.sensor 2 true] := by decide +kernel
theorem test_byte_in_hunting : (after (.byteInHunting 0#8) (road (idleSwitch .normal))).guards.hold = ⟨false, false, true⟩ := by decide +kernel
theorem test_restart : (after (.restart hm) (ordered (anOrder .emptyRun (some .none) .running))).orders = ⟨[], []⟩ := by decide +kernel

theorem test_junction_faulted_under_its_holder :
    let s := (ordered { anOrder .emptyRun (some .none) .running with
        leg1 := leg012 ++ [⟨3, some .a, some .bNormal, some .normal⟩, pos 4 (some .a) none], cursor := ⟨1, 3⟩, claim := ⟨1, 4⟩ }).setTrain 0
          (some (train 3 .normal))
    let s := (s.setSeg 0 clearSeg).setSeg 3 { clearSeg with holder := some 0 }
    let s := ((s.setSeg 4 { clearSeg with holder := some 0 }).setJunction 3 (some { idleSwitch .normal with hold := .running 60 })).setRun 0
      (some ⟨4, .travel, .none⟩)
    let t := after .detection (hears s (.detection 3 .reverse))
    (t.junction 3).map (·.position) = some .faulted ∧ (t.run 0).map (·.limit) = some 3 ∧ (t.seg 4).withdrawing = some .keep
      ∧ (t.seg 4).holder = some 0 := by decide +kernel
theorem test_rejoin_not_at_the_position :
    let o := anOrder .emptyRun (some .none) .running
    (manned .normal .none).rejoinPlace 0 o [pos 1 none none] = some ⟨1, 1⟩
      ∧ ((manned .normal .none).setTrain 0 (some (train 1 .normal))).rejoinPlace 0 o [pos 1 none none] = none := by decide +kernel
theorem test_throws_wait_for_the_end_of_the_hold :
    let s := ((road (idleSwitch .normal)).setTransmitter .idle).setOutQueue [.throw 3 .normal, .prove 4]
    s.wayside.outQueue.find? s.eligible = some (.throw 3 .normal)
      ∧ (let u := s.setHoldEnding true
         u.wayside.outQueue.find? u.eligible = some (.prove 4)) := by decide +kernel
theorem test_length_of_the_status_answer :
    (exec (.readStatus hs) (road (idleSwitch .normal)) = .next (after (.readStatus hs) (road (idleSwitch .normal))))
      ∧ ((after (.readStatus hs) (road (idleSwitch .normal))).port.answers.map fun a => (bodyBytes a.body).length) = [63] := by
  refine ⟨rfl, by decide +kernel⟩
theorem test_bytes_of_positions : (bodyBytes (.orderPositions 1 0 leg012)).length = 9 ∧ (bodyBytes (.orderPositions 1 0 leg012)).take 4 = [1#8, 0#8, 3#8, 0#8] := by
  decide +kernel
/-! ### States and operands that meet the hypotheses of the statements, clause by clause -/

theorem test_meets_step : (⟨State.reset.layout, State.reset.core, State.reset.junctions, State.reset.orders, State.reset.transfer, State.reset.polls,
      State.reset.guards, State.reset.wayside, State.reset.port, [.windowBegin, .sensor], [], [], none, false, 0⟩ : State).pending = [.windowBegin, .sensor]
    ∧ State.reset.pending = [] := by decide

/-- A state with a command waiting. -/
def shelf : State := { State.reset with pending := [.windowBegin] }

theorem test_meets_sound : shelf.Sound ∧ ∃ t, step shelf = .next t := by
  refine ⟨⟨?_, ?_, ?_, ?_, ?_, ?_, ?_, ?_, ?_, ?_⟩, _, rfl⟩
  · unfold State.canonical; decide
  · intro j r h; cases h
  · unfold distinctObjects; decide
  · unfold State.queuesBounded; decide
  · exact .inl rfl
  · unfold State.attentionRight; decide
  · intro j r h; cases h
  · intro n v h
    by_cases hn : n < 14
    · interval_cases n <;> cases h <;> decide
    · have e : State.reset.port.params.value n = none := by
        obtain ⟨m, rfl⟩ : ∃ m, n = m + 14 := ⟨n - 14, by omega⟩
        rfl
      rw [show shelf.port.params.value n = none from e] at h
      cases h
  · intro k f h; cases h
  · unfold noticesOrdered; decide

theorem test_meets_attention : shelf.attentionRight ∧ ∃ t, step shelf = .next t := by
  refine ⟨?_, _, rfl⟩
  unfold State.attentionRight
  decide

theorem test_meets_noNewHolder :
    let s := hears ((manned .normal .none).setHold ⟨false, true, false⟩) (.sensor 0 false)
    s.port.requests = [] ∧ s.holdActive = true ∧ ∃ t, exec .sensor s = .next t ∧ t.holdActive = true := by
  refine ⟨by decide +kernel, by decide +kernel, _, rfl, by decide +kernel⟩

theorem test_meets_frames : (⟨255, .scheduler⟩ : Header).wf = true ∧ (Request.submitOrder 255 .refuge (.setDown 255) (List.replicate 18 ⟨255, 255, .down⟩)).wf = true
    ∧ (Request.setParameter 0 65535).wf = true ∧ (Request.declareSegment 0 .junction 0 .creep .none none (some ⟨254, .bReverse⟩) none).wf = true := by
  decide

theorem test_meets_frameCompletes :
    (Instr.hold ho).request? = some (ho, .hold) ∧ (Instr.hold ho).wf = true
      ∧ (listening draft).port.window = .opened draft.fixFrame false .awaitingLength := by decide

theorem test_meets_windowBegin :
    draft.port.window = .closed ∧ (listening draft).port.window = .opened draft.fixFrame false .awaitingLength := by decide

theorem test_meets_windowEnd :
    draft.port.requests = [] ∧ (listening draft).port.window = .opened draft.fixFrame false .awaitingLength
      ∧ (draft.setWindow (.opened draft.fixFrame false (.collecting 6 [6#8]))).port.window = .opened draft.fixFrame false (.collecting 6 [6#8])
      ∧ 5 ≤ (64#8).toNat ∧ (64#8).toNat ≤ 64 ∧ ([] : List Byte).length + 1 < (64#8).toNat ∧ draft.port.window = .closed := by decide

theorem test_meets_badFrames :
    (1 ≤ (1#8).toNat ∧ (4#8).toNat ≤ 4 ∧ 65 ≤ (65#8).toNat ∧ 65 ≤ (255#8).toNat)
      ∧ checkAgrees ([5#8, 1#8, 2#8, 0#8, 0#8].take 3) ([5#8, 1#8, 2#8, 0#8, 0#8].drop 3) = false
      ∧ (let s := listening ((full draft).setRequests (List.replicate 8 ⟨1, 63, .unknown⟩))
         s.port.requests.length = 8 ∧ s.port.answers.length = 8)
      ∧ (let b := requestFrame ho .hold; checkAgrees (b.take 3) (b.drop 3) = true ∧ b.length = 5)
      ∧ (readFrame (withCheck [5#8, 1#8, 63#8])).content = .unknown ∧ (readFrame (withCheck [5#8, 1#8, 0xC1#8])).content = .malformed
      ∧ between (listening draft) = true := by decide +kernel

theorem test_meets_answerLeaves :
    (let s := listening ((manned .normal .none).setAnswers [anAnswer])
     s.port.requests = [] ∧ s.port.window = .opened s.fixFrame false .awaitingLength ∧ s.fixFrame.answer = some anAnswer)
      ∧ draft.fixFrame.answer = none ∧ draft.port.window = .closed
      ∧ (let s := listening ((full draft).setRequests [⟨1, 63, .unknown⟩])
         between (s.setRequests []) = false ∧ s.agenda = [] ∧ s.due = [] ∧ s.late = none ∧ slots.find? s.mayTransfer = none ∧ s.rotationNext = none
           ∧ s.port.answers.length = 8 ∧ s.fixFrame.answer = some anAnswer) := by decide +kernel

theorem test_meets_classTest :
    draft.Ready ∧ draft.Settled ∧ (classOf (.closeLayout) = .maintenance ∧ ho.originator ≠ .maintenance) ∧ classOf .hold = .desk ∧ hs.originator = .scheduler :=
  meets (by decide +kernel)

theorem test_meets_objectCheck :
    let s := station { aPad .vacant with guard := 0 }
    s.Ready ∧ s.Settled ∧ classOf (.barPad 20) = .desk ∧ entryObject (.barPad 20) = some (.pad, 20) ∧ s.guardLevel .pad 20 = some 0
      ∧ 0 < levelOf ho.originator ∧ s.granted ho.originator .pad 20 = false := meets (by decide +kernel)

theorem test_meets_layoutClosed :
    (manned .normal .none).Ready ∧ (manned .normal .none).Settled ∧ (manned .normal .none).layout.closed = true
      ∧ classAllows (classOf .closeLayout) hm.originator = true ∧ entryObject .closeLayout = none := meets (by decide +kernel)

theorem test_meets_layoutOpen :
    draft.Ready ∧ draft.Settled ∧ draft.layout.closed = false ∧ classAllows (classOf (.submitOrder 0 .emptyRun .none [])) hs.originator = true
      ∧ entryObject (.enrollTransporter 0 5 .none) = some (.segment, 5) ∧ draft.allows hm.originator .segment 5 = true := meets (by decide +kernel)

theorem test_meets_reads :
    let s := transferring { aPad .releasing with occupant := some 33, lastOccupant := some 9 } (aTransfer .lift .lifting (.running 180))
    s.Ready ∧ s.Settled ∧ 127 < 128 ∧ 3 < 4 ∧ 191 < 192 ∧ 63 < 64 ∧ s.train 3 = none ∧ s.train 0 = some (train 0 .normal)
      ∧ s.isJunction 3 = true ∧ s.junction 3 = some (idleSwitch .normal) ∧ s.transferAt 20 = some (aTransfer .lift .lifting (.running 180))
      ∧ s.transferAt 191 = none ∧ s.placement 63 = .unplaced := meets (by decide +kernel)

theorem test_meets_reads_of_timers :
    (let s := (transferring (aPad .inbound) (aTransfer .setDown .setting (.suspended 90))).setTrain 0 (some { train 0 .normal with progress := .running 40 })
     s.Ready ∧ s.Settled ∧ s.transferAt 20 = some (aTransfer .setDown .setting (.suspended 90))
       ∧ (s.train 0).map (·.progress) = some (.running 40))
      ∧ (let s := road { idleSwitch .normal with hold := .running 60 }
         s.Ready ∧ s.Settled ∧ s.isJunction 3 = true ∧ (s.junction 3).map (·.hold) = some (.running 60)) :=
  ⟨meets (by decide +kernel), meets (by decide +kernel)⟩

theorem test_meets_canonical : (station { aPad .vacant with lastOccupant := some 9 }).canonical := by
  unfold State.canonical
  decide +kernel

theorem test_meets_readOrder :
    let s := ordered (anOrder .refuge none .running)
    s.Ready ∧ s.Settled ∧ 7 < 8 ∧ 4 < (some 5).getD 0 ∧ s.order 7 = none ∧ s.order 0 = some (anOrder .refuge none .running)
      ∧ (none : Option Nat).getD 0 = 0 ∧ (some 4).getD 0 ≤ 4 := meets (by decide +kernel)

theorem test_meets_sweep : draft.Ready ∧ draft.Settled ∧ 191 < 192 ∧ 8 < 9 ∧ 191 ≤ 191 ∧ 1 ≤ 1 ∧ 8 ≤ 8 := meets (by decide +kernel)

theorem test_meets_fetchNotice :
    draft.Ready ∧ draft.Settled ∧ draft.port.notices = [⟨.restarted, 0⟩] ∧ (draft.setNotices []).port.notices = [] ∧ noticesOrdered draft.port.notices := by
  have h : between draft = true := by decide +kernel
  exact ⟨(between_holds h).1, (between_holds h).2, by decide, by decide, by unfold noticesOrdered; decide⟩

theorem test_meets_enables : (0x1FFF#16).toNat < 8192 ∧ 8192 ≤ (0x2000#16).toNat := by decide

theorem test_meets_parameters :
    draft.Ready ∧ draft.Settled ∧ hm.originator = .maintenance
      ∧ (5, 10, 600) ∈ [(1, 1, 6), (2, 2, 30), (3, 0, 255), (4, 1, 255), (5, 10, 600), (6, 5, 300), (7, 5, 100), (8, 0, 250), (9, 1, 8), (10, 5, 250),
          (11, 0, 7), (12, 1, 30), (13, 1, 8)]
      ∧ draft.port.params.value 5 = some 180 ∧ 10 ≤ 10 ∧ 600 ≤ 600 ∧ 9 < 10 ∧ 600 < 601 ∧ 13 < 14 := meets (by decide +kernel)

theorem test_meets_restart : (ordered (anOrder .emptyRun (some .none) .running)).Ready ∧ (ordered (anOrder .emptyRun (some .none) .running)).canonical :=
  ⟨(between_holds (by decide +kernel)).1, by unfold State.canonical; decide +kernel⟩

theorem test_meets_restart_records :
    let s := (transferring { aPad .releasing with occupant := some 33 } (aTransfer .lift .lifting (.running 180))).setJunction 3
      (some { idleSwitch .moving with operation := some ⟨.throw .reverse .normal, .sent, .running 12⟩ })
    s.transferAt 20 = some (aTransfer .lift .lifting (.running 180)) ∧ s.load 0 = some .none ∧ (s.pad 20).state = .releasing
      ∧ (s.junction 3).map (·.position) = some .moving ∧ (s.transferAt 0) = none
      ∧ ((s.setPad 0 (aPad .inbound)).pad 0).state = .inbound ∧ ((s.setPad 0 (aPad .anchored)).pad 0).state = .anchored
      ∧ ((s.setPad 0 (aPad .unsettled)).pad 0).claim = none := by decide +kernel

theorem test_meets_declareSegment :
    let d := switchSeg .reverse
    let links := [d.first, d.second, d.third].filterMap id
    draft.Ready ∧ draft.Settled ∧ hm.originator = .maintenance ∧ draft.layout.closed = false ∧ 127 ≤ 127 ∧ d.guard ≤ 2 ∧ d.speed = .creep
      ∧ d.kind = .junction ∧ (∀ l ∈ links, l.neighbour ≤ 127 ∧ l.neighbour ≠ 127) ∧ (links.map (·.neighbour)).Nodup ∧ draft.junctionCount < 24
      ∧ firstFailing (draft.declareTests 128 d) = some 1 ∧ firstFailing (draft.declareTests 2 { d with third := some ⟨4, .b⟩ }) = some 7 :=
  meets (by decide +kernel)

theorem test_meets_closeLayout :
    draft.Ready ∧ draft.Settled ∧ draft.layout.closed = false ∧ draft.layoutFault = none ∧ draft.isJunction 3 = true
      ∧ State.reset.layoutFault = some (none, none, .empty) := meets (by decide +kernel)

theorem test_meets_closeLayout_canonical : draft.canonical := by
  unfold State.canonical
  decide +kernel

theorem test_meets_legs : (draft.checkLeg [⟨0, 3, .up⟩]).toOption = some leg012 := by decide +kernel

theorem test_meets_clearSwitch :
    (road (idleSwitch .faulted)).Ready ∧ (road (idleSwitch .faulted)).Settled ∧ (road (idleSwitch .faulted)).isJunction 3 = true
      ∧ (road (idleSwitch .faulted)).junction 3 = some (idleSwitch .faulted) ∧ (road (idleSwitch .normal)).junction 3 = some (idleSwitch .normal)
      ∧ 127 < 128 ∧ (road (idleSwitch .faulted)).isJunction 127 = false := meets (by decide +kernel)

/-- A junction with an operation outstanding. -/
def working (p : SwitchPosition) (q : SwitchRequest) (ph : Phase) (x : Timer) : JunctionRec := { idleSwitch p with operation := some ⟨q, ph, x⟩ }

theorem test_meets_detections :
    (hears (road (working .moving (.throw .reverse .normal) .sent (.running 12))) (.detection 3 .reverse)).agenda = []
      ∧ detectedPosition .reverse = some (settingPosition .reverse) ∧ detectedPosition .normal ≠ some (settingPosition .reverse)
      ∧ (hears (road (working .unknown (.prove .rotation) .sent (.running 12))) (.detection 3 .none)).wayside.inQueue = .detection 3 .none :: []
      ∧ detectedPosition .none = none := by decide +kernel

theorem test_meets_unsolicited :
    let s := hears (road (idleSwitch .normal)) (.detection 3 .reverse)
    s.Ready ∧ s.Settled ∧ s.junction 3 = some (idleSwitch .normal) ∧ (idleSwitch .normal).operation = none ∧ s.junction 4 = none
      ∧ detectedPosition .reverse ≠ some (idleSwitch .normal).position ∧ detectedPosition .normal = some (idleSwitch .normal).position
      ∧ basis (working .moving (.throw .reverse .normal) .queued .stopped) = .normal ∧ isRecovery (idleSwitch .unknown).operation = false
      ∧ isRecovery (some ⟨.prove .recovery, .queued, .stopped⟩) = true ∧ s.wayside.inQueue.length = 1 ∧ draft.wayside.inQueue = [] :=
  meets (by decide +kernel)

theorem test_meets_lawful :
    (idleSwitch .normal).lawful ∧ (idleSwitch .unknown).lawful ∧ (working .moving (.throw .reverse .normal) .queued .stopped).lawful :=
  ⟨(by decide : SwitchPosition.normal ≠ .moving), (by decide : SwitchPosition.unknown ≠ .moving), rfl, rfl⟩

theorem test_meets_operationTimeout :
    (road (working .normal (.prove .rotation) .sent (.running 12))).agenda = [] ∧ (road (idleSwitch .normal)).Settled
      ∧ (idleSwitch .normal).operation = none ∧ (working .normal (.prove .rotation) .queued .stopped).operation = some ⟨.prove .rotation, .queued, .stopped⟩ :=
  ⟨by decide, (between_holds (by decide +kernel)).2, by decide, by decide⟩

theorem test_meets_junctionHold :
    let r := { idleSwitch .normal with hold := .running 255 }
    (road r).Settled ∧ (road r).junction 3 = some r ∧ (road r).decl 3 = some (switchSeg .none) ∧ (road r).canonical :=
  ⟨(between_holds (by decide +kernel)).2, by decide, by decide, by unfold State.canonical; decide +kernel⟩

theorem test_meets_proveInterval :
    (road (idleSwitch .normal)).Settled ∧ (road (idleSwitch .normal)).junctions.interval = .running 30 ∧ (road (idleSwitch .normal)).rotationNext = some 3
      ∧ ((road (idleSwitch .normal)).junctions.recs.all fun e => match e.2 with | some r => !isRotation r.operation | none => true) = true
      ∧ (road (idleSwitch .faulted)).rotationNext = none :=
  ⟨(between_holds (by decide +kernel)).2, by decide, by decide, by decide, by decide⟩

theorem test_meets_submitOrder :
    let s := (manned .normal (.telescope 33)).setPad 20 { aPad .vacant with access := 2 }
    s.Ready ∧ s.Settled ∧ s.layout.closed = true ∧ s.freeSlot = some 0 ∧ s.hasCondition 0 .normal = true ∧ (s.orderRefs 0).active = none
      ∧ (s.orderRefs 0).pendingDivert = none ∧ (s.checkLeg [⟨0, 3, .up⟩]).toOption = some leg012 ∧ (leg012.head?).map (·.segment) = s.position 0
      ∧ s.kindAgrees 0 .loadedRun = true ∧ s.finishRefusal .loadedRun (.setDown 20) leg012 = none
      ∧ s.firstRefused hs.originator (submissionObjects leg012 (.setDown 20)) = none ∧ s.load 0 = some (.telescope 33) := meets (by decide +kernel)

theorem test_meets_submitOrder_refused :
    let s := manned .normal .none
    let ended := anOrder .emptyRun (some .none) .ended
    let busy := { s with orders := { s.orders with slots := (List.range 8).map fun k => (k, some { ended with state := .running }) } }
    s.Ready ∧ s.Settled ∧ s.layout.closed = true ∧ busy.freeSlot = none ∧ s.freeSlot = some 0 ∧ finishPad (.lift 192) = some 192 ∧ ¬ 4 ≤ 3
      ∧ (manned .stalled .none).hasCondition 0 .normal = false ∧ (s.checkLeg []).toOption = none ∧ (s.checkLeg [⟨1, 2, .up⟩]).isOk = true
      ∧ s.kindAgrees 0 .loadedRun = false ∧ s.finishRefusal .emptyRun (.lift 20) leg012 = some (.refusedState, .failedFinishTest 2)
      ∧ s.firstRefused hs.originator [(.segment, 5)] = some (.segment, 5) := meets (by decide +kernel)

theorem test_meets_cancelOrder :
    let s := ordered (anOrder .emptyRun (some .none) .running)
    s.Ready ∧ s.Settled ∧ 7 ≤ 7 ∧ s.order 0 = some (anOrder .emptyRun (some .none) .running) ∧ s.startingDivert 0 = none
      ∧ (ordered (anOrder .refuge none .dwelling)).startingDivert 0 = none ∧ s.order 7 = none ∧ 7 < 8
      ∧ between (ordered (anOrder .emptyRun (some .none) .arrived)) = true ∧ between (ordered (anOrder .emptyRun (some .none) .failed)) = true
      ∧ between (ordered (anOrder .refuge none .starting)) = true ∧ (ordered (anOrder .refuge none .starting)).startingDivert 0 = some 0
      ∧ between (ordered (anOrder .emptyRun (some .none) .cancelling)) = true := meets (by decide +kernel)

theorem test_meets_cancelOrder_claims :
    let s := (ordered (anOrder .emptyRun (some (.lift 20)) .running)).setPad 20 { aPad .anchored with occupant := some 33, claim := some 0 }
    (s.pad 20).claim = some 0 ∧ (s.pad 20).state = .anchored
      ∧ ((s.setPad 20 { aPad .inbound with expected := some 33, claim := some 0 }).pad 20).state = .inbound
      ∧ (let u := (ordered (anOrder .refuge none .dwelling)).setOrder 1 (some (anOrder .emptyRun (some .none) .suspended))
         let u := u.setRefs 0 { active := some 0, stack := [1], pendingDivert := none }
         1 ∈ (u.orderRefs 0).stack ∧ (u.order 1).isSome = true) := by decide +kernel

theorem test_meets_divert :
    let s := ordered (anOrder .emptyRun (some .none) .running)
    s.Ready ∧ s.Settled ∧ s.layout.closed = true
      ∧ ((s.decideDivert hs.originator 0 [⟨0, 1, .up⟩] [⟨1, 1, .up⟩]).toOption.map fun x => (x.1, x.2.2.2)) = some (1, .starting ⟨1, 1⟩)
      ∧ (((s.setRefs 0 { active := some 0, stack := [1, 2, 3], pendingDivert := none }).decideDivert hs.originator 0 [⟨0, 1, .up⟩] [⟨1, 1, .up⟩]).toOption.map
          fun x => (x.1, x.2.2.2)) = some (1, .pending)
      ∧ (s.decideDivert hs.originator 4 [⟨0, 1, .up⟩] [⟨1, 1, .up⟩]).isOk = false := meets (by decide +kernel)

theorem test_meets_resumeRefuge :
    let s := ordered (anOrder .refuge none .dwelling)
    s.Ready ∧ s.Settled ∧ s.order 0 = some (anOrder .refuge none .dwelling) ∧ (s.orderRefs 0).active = some 0 ∧ s.startingDivert 0 = none
      ∧ (anOrder .emptyRun none .running).kind ≠ .refuge ∧ s.order 7 = none ∧ 7 < 8 := meets (by decide +kernel)

theorem test_meets_claims :
    let s := manned .normal .none
    (s.seg 0).holder = some 0 ∧ (s.seg 1).holder = none ∧ (s.seg 1).sensor = .clear ∧ (s.seg 1).queue = [] ∧ s.holdActive = false ∧ s.fenceCount 1 = 0
      ∧ (s.seg 127).sensor = .unknown ∧ 0 < (s.setFence 1 (some ⟨1, 1⟩)).fenceCount 1
      ∧ ((road (idleSwitch .faulted)).junction 3).map (·.position) = some .faulted ∧ (s.seg 0).holder ≠ some 1
      ∧ ((s.setSeg 1 { clearSeg with sensor := .occupied }).seg 1).sensor = .occupied
      ∧ 3 ≤ ((s.setSeg 1 { clearSeg with queue := [1, 2, 3] }).seg 1).queue.length
      ∧ ((s.setSeg 1 { clearSeg with queue := [1, 2] }).seg 1).queue.length < 3 := by decide +kernel

theorem test_meets_limits :
    let s := (manned .normal .none).setHold ⟨true, false, false⟩
    s.holdActive = true ∧ s.train 0 = some (train 0 .normal) ∧ ((s.recompute 0).run 0).isSome = true ∧ (manned .lost .none).hasCondition 0 .lost = true := by
  decide +kernel

theorem test_meets_outQueue :
    (∀ x ∈ [OutMessage.couple 3], outObject x ≠ outObject (.prove 3)) ∧ (∃ x ∈ [OutMessage.throw 3 .normal], outObject x = outObject (.prove 3))
      ∧ (OutMessage.throw 3 .reverse) ≠ .prove 3 := by decide

theorem test_meets_declarePad :
    let s := manned .normal .none
    s.Ready ∧ s.Settled ∧ s.layout.closed = true ∧ 191 ≤ 191 ∧ 2 ≤ 2 ∧ s.decl 4 = some (plainSeg (some ⟨3, .bNormal⟩) none 2)
      ∧ (s.transfer.pads.filter fun e => decide (e.2.access = 4)).length < 3 ∧ 63 ≤ 63 ∧ s.placement 63 = .unplaced ∧ (s.pad 191).state = .undeclared
      ∧ firstFailing (s.declarePadTests 192 4 2 .vacant) = some 1 ∧ firstFailing (s.declarePadTests 0 3 2 .vacant) = some 3
      ∧ firstFailing ((s.setPad 0 (aPad .vacant)).declarePadTests 0 4 2 .vacant) = some 6 := meets (by decide +kernel)

theorem test_meets_padRequests :
    let s := station (aPad .vacant)
    s.Ready ∧ s.Settled ∧ s.allows ho.originator .pad 20 = true ∧ (s.pad 20).state = .vacant ∧ (s.pad 20).claim = none
      ∧ between (station (aPad .barred)) = true ∧ between (station (aPad .unsettled)) = true ∧ s.placement 63 = .unplaced ∧ 191 < 192
      ∧ (s.setPlacement 5 (.onPad 3)).placement 5 ≠ .unplaced ∧ (station { aPad .vacant with guard := 0 }).allows ho.originator .pad 20 = false :=
  meets (by decide +kernel)

theorem test_meets_settleLoad :
    let s := manned .normal .unverified
    s.Ready ∧ s.Settled ∧ s.enrolled 0 = true ∧ s.load 0 = some .unverified ∧ s.placement 63 = .unplaced ∧ s.enrolled 3 = false ∧ 3 < 4 :=
  meets (by decide +kernel)

theorem test_meets_recouple :
    let s := station (aPad .seated)
    s.Ready ∧ s.Settled ∧ (s.pad 20).state = .seated ∧ (s.pad 20).claim = none ∧ s.couplingSet.length < 8 ∧ s.allows ho.originator .pad 20 = true
      ∧ (station (aPad .vacant)).couplingSet = [] := meets (by decide +kernel)

theorem test_meets_padEvents :
    let s := hears (station (aPad .seated)) (.padEvent 20 .coupled)
    s.Ready ∧ s.Settled ∧ s.transferAt 20 = none ∧ (s.pad 20).state = .seated ∧ (s.pad 20).claim = none
      ∧ between (hears (station (aPad .barred)) (.padEvent 20 .fault)) = true
      ∧ ((station { aPad .seated with coupling := .sent }).pad 20).coupling ≠ .none := meets (by decide +kernel)

theorem test_meets_transferEvents :
    let s := hears (transferring { aPad .releasing with confTransporter := true } (aTransfer .lift .lifting (.running 180))) (.padEvent 20 .loadClear)
    s.Ready ∧ s.Settled ∧ s.transferAt 20 = some (aTransfer .lift .lifting (.running 180)) ∧ (s.pad 20).confTransporter = true
      ∧ between (hears (transferring (aPad .releasing) (aTransfer .lift .uncoupling (.running 180))) (.padEvent 20 .uncoupled)) = true
      ∧ between (hears (transferring (aPad .inbound) (aTransfer .setDown .setting (.running 180))) (.padEvent 20 .loadSensed)) = true
      ∧ ((transferring (aPad .inbound) (aTransfer .setDown .setting (.running 180))).pad 20).confStation = false := meets (by decide +kernel)

theorem test_meets_transferTimers :
    let s := transferring (aPad .releasing) (aTransfer .lift .uncoupling (.suspended 10))
    s.Ready ∧ s.Settled ∧ s.transferAt 20 = some (aTransfer .lift .uncoupling (.suspended 10))
      ∧ (transferring (aPad .releasing) (aTransfer .lift .uncoupling (.running 600))).agenda = []
      ∧ ((station { aPad .seated with coupling := .sent, couplingTimer := .running 60 }).pad 20).couplingTimer = .running 60
      ∧ (s.pad 20).couplingTimer = .stopped := meets (by decide +kernel)

theorem test_meets_couplingTimer :
    (station { aPad .seated with coupling := .sent, couplingTimer := .running 60 }).canonical
      ∧ (station { aPad .seated with coupling := .sent, couplingTimer := .running 60 }).orders.slots = [] := by
  unfold State.canonical
  decide +kernel

theorem test_meets_enroll :
    let s := manned .normal .none
    s.Ready ∧ s.Settled ∧ s.layout.closed = true ∧ 3 ≤ 3 ∧ (s.decl 2).isSome = true ∧ s.train 3 = none ∧ (s.seg 2).holder = none ∧ s.fenceCount 2 = 0
      ∧ s.placement 63 = .unplaced ∧ firstFailing (s.enrollTests 4 2 .none) = some 1 ∧ firstFailing (s.enrollTests 3 0 .none) = some 4 :=
  meets (by decide +kernel)

theorem test_meets_disenroll :
    let s := manned .lost (.telescope 33)
    s.Ready ∧ s.Settled ∧ s.train 0 = some (train 0 .lost) ∧ s.load 0 = some (.telescope 33) ∧ s.transfer.transfers = [] ∧ s.train 3 = none ∧ 3 < 4 :=
  meets (by decide +kernel)

theorem test_meets_disenroll_canonical : (manned .lost (.telescope 33)).canonical := by
  unfold State.canonical
  decide +kernel

theorem test_meets_clearAstray :
    let s := manned .astray .none
    s.Ready ∧ s.Settled ∧ s.train 0 = some (train 0 .astray) ∧ (s.decl 2).isSome = true ∧ (s.seg 0).holder = some 0 ∧ (s.seg 2).holder = none
      ∧ s.fenceCount 2 = 0 ∧ (manned .normal .none).hasCondition 0 .astray = false ∧ s.decl 127 = none := meets (by decide +kernel)

theorem test_meets_proceed :
    let s := manned .stalled .none
    s.Ready ∧ s.Settled ∧ s.train 0 = some (train 0 .stalled) ∧ (manned .normal .none).hasCondition 3 .stalled = false := meets (by decide +kernel)

theorem test_meets_quiet :
    let s := manned .normal .none
    s.Ready ∧ s.Settled ∧ s.polls.quiet = .off ∧ s.orders.slots = [] ∧ between { s with polls := { s.polls with quiet := .inForce } } = true
      ∧ between (ordered (anOrder .emptyRun (some (.lift 20)) .transfer)) = true := meets (by decide +kernel)

theorem test_meets_polls :
    let s := { manned .normal .none with polls := { (manned .normal .none).polls with gap := .running 20 } }
    s.Ready ∧ s.Settled ∧ s.polls.gap = .running 20 ∧ s.polls.quiet ≠ .inForce ∧ s.polls.outstanding = none ∧ s.nextInRotation = some 0
      ∧ s.run 0 = some ⟨0, .travel, .none⟩ ∧ s.train 0 = some (train 0 .normal) ∧ (road (idleSwitch .normal)).nextInRotation = none :=
  meets (by decide +kernel)

/-- Transporter 0 with a poll outstanding. -/
def polled (c : Condition) : State :=
  { manned c .none with
    polls := { (manned c .none).polls with outstanding := some ⟨0, 255#8, 0, .travel, .none, true, false⟩, window := .running 30 } }

theorem test_meets_polls_canonical :
    ({ manned .normal .none with polls := { (manned .normal .none).polls with gap := .running 20 } } : State).canonical := by
  unfold State.canonical
  decide +kernel

theorem test_meets_reports :
    let bytes := withCheck [0#8, 255#8, 0#8, 1#8, 0#8, 0#8, 0#8, 0#8]
    (polled .lost).Ready ∧ (polled .lost).Settled ∧ readReport bytes = some ⟨0, 255#8, 0, true, false, false, .none⟩
      ∧ (polled .lost).polls.outstanding = some ⟨0, 255#8, 0, .travel, .none, true, false⟩ ∧ (polled .lost).train 0 = some (train 0 .lost)
      ∧ ((polled .lost).seg 0).holder = some 0 ∧ ((polled .lost).seg 1).holder ≠ some 0 ∧ (polled .astray).train 0 = some (train 0 .astray)
      ∧ readReport [] = none ∧ (manned .normal .none).polls.outstanding = none := meets (by decide +kernel)

theorem test_meets_misses :
    (polled .normal).agenda = [] ∧ (polled .normal).polls.window = .running 30 ∧ (polled .normal).port.params.missLimit ≤ min 8 (2 + 1)
      ∧ min 8 (0 + 1) < (polled .normal).port.params.missLimit ∧ (train 0 .normal).progress = .stopped := by decide +kernel

theorem test_meets_grants :
    draft.Ready ∧ draft.Settled ∧ hm.originator = .maintenance ∧ 2 ≤ 2 ∧ (∀ g ∈ [23, 0], g ≤ 23) ∧ (∀ g ∈ [15], g ≤ 15) ∧ ¬ (∀ g ∈ [16], g ≤ 15)
      ∧ ho.originator ≠ .maintenance := meets (by decide +kernel)

theorem test_meets_fences :
    let s := (manned .normal .none).setFence 1 (some ⟨64, 64⟩)
    s.Ready ∧ s.Settled ∧ 64 ∈ [1, 2, 4, 8, 16, 32, 64] ∧ 127 % 1 = 0 ∧ s.fence 0 = none ∧ s.fence 1 = some ⟨64, 64⟩
      ∧ s.firstRefused ho.originator (s.fenceObjects ⟨64, 64⟩) = none ∧ s.firstRefused ho.originator (s.fenceObjects ⟨4, 2⟩) = some (.segment, 5)
      ∧ 3 ∉ [1, 2, 4, 8, 16, 32, 64] ∧ ¬ (1 % 2 = 0) ∧ 1 < 2 := meets (by decide +kernel)

theorem test_meets_holds :
    let s := (manned .normal .none).setHold ⟨true, true, true⟩
    s.Ready ∧ s.Settled ∧ ho.originator ≠ .scheduler ∧ s.guards.hold.desk = true ∧ s.guards.hold.line = true ∧ s.wayside.link = .live
      ∧ s.guards.hold.wayside = true ∧ (manned .normal .none).guards.hold = ⟨false, false, false⟩
      ∧ between { s with wayside := { s.wayside with link := .silent } } = true := meets (by decide +kernel)

theorem test_meets_waysideFrames :
    let s := road (idleSwitch .normal)
    s.Ready ∧ s.Settled ∧ s.wayside.receiver = .hunting ∧ (syncByte :: withCheck [1#8, 2#8, 1#8]).length = 6
      ∧ judgeFrame (syncByte :: withCheck [1#8, 2#8, 1#8]) = some (.message (.sensor 2 true)) ∧ s.messageDeclared (.sensor 2 true) = true
      ∧ s.messageDeclared (.sensor 127 true) = false ∧ judgeFrame (syncByte :: withCheck [4#8, 0#8, 0#8]) = some .status
      ∧ 16 ≤ (s.setInQueue (List.replicate 16 (.sensor 2 true))).wayside.inQueue.length
      ∧ judgeFrame [syncByte, 1#8, 2#8, 1#8, 0#8, 0#8] = none ∧ (0xC2#8) ≠ syncByte
      ∧ (s.setReceiver (.inFrame [syncByte])).wayside.receiver = .inFrame [syncByte] ∧ s.wayside.silence = .running 5
      ∧ between { s with wayside := { s.wayside with silence := .expired } } = true := meets (by decide +kernel)

theorem test_meets_sensor :
    let s := hears (road (idleSwitch .normal)) (.sensor 1 true)
    s.Ready ∧ s.Settled ∧ s.wayside.inQueue = .sensor 1 true :: [] ∧ (s.seg 1).holder = none ∧ (s.seg 1).sensor ≠ .occupied := meets (by decide +kernel)

theorem test_meets_sendComplete :
    let s := ((road (idleSwitch .normal)).setTransmitter (.sending (.couple 20))).setOutQueue [.throw 3 .normal, .prove 4]
    s.Ready ∧ s.Settled ∧ s.wayside.transmitter = .sending (.couple 20) ∧ s.wayside.outQueue.find? s.eligible = some (.throw 3 .normal)
      ∧ ((s.setHold ⟨true, false, false⟩).wayside.outQueue.find? (s.setHold ⟨true, false, false⟩).eligible) = some (.prove 4)
      ∧ (s.setOutQueue []).wayside.outQueue.find? s.eligible = none := meets (by decide +kernel)


/-! ### The clauses on references, answers and next states told exactly -/

theorem test_meets_references :
    shelf.refsRight ∧ shelf.slotsRight ∧ (ordered (anOrder .refuge none .dwelling)).refsRight ∧ (ordered (anOrder .refuge none .dwelling)).slotsRight :=
  ⟨(referred_holds (by decide +kernel)).1, (referred_holds (by decide +kernel)).2, (referred_holds (by decide +kernel)).1,
    (referred_holds (by decide +kernel)).2⟩

theorem test_meets_submitOrder_references :
    let s := (manned .normal (.telescope 33)).setPad 20 { aPad .vacant with access := 2 }
    let u := (manned .normal .none).setPad 20 { aPad .anchored with access := 2, occupant := some 33 }
    (referred s && referred u) = true ∧ s.startingDivert 0 = none ∧ u.startingDivert 0 = none ∧ u.kindAgrees 0 .emptyRun = true
      ∧ u.finishRefusal .emptyRun (.lift 20) leg012 = none ∧ u.firstRefused hs.originator (submissionObjects leg012 (.lift 20)) = none := by
  decide +kernel

theorem test_meets_cancelOrder_references :
    referred (ordered (anOrder .emptyRun (some .none) .failed)) = true ∧ referred (ordered (anOrder .emptyRun (some .none) .arrived)) = true
      ∧ (let s := (ordered (anOrder .emptyRun (some .none) .running)).setOrder 7 (some (anOrder .refuge none .starting))
         referred s = true ∧ between s = true ∧ s.startingDivert 0 = some 7 ∧ (s.order 7).map (·.state) = some .starting)
      ∧ (let s := (ordered (anOrder .refuge none .dwelling)).setOrder 1 (some (anOrder .emptyRun (some .none) .suspended))
         let s := (s.setOrder 2 (some (anOrder .refuge none .pending))).setRefs 0 { active := some 0, stack := [1], pendingDivert := some 2 }
         referred s = true ∧ between s = true ∧ s.startingDivert 0 = none ∧ s.order 0 = some (anOrder .refuge none .dwelling)) := by decide +kernel

/-- Three orders beneath a refuge. -/
def stacked : State :=
  let s := (ordered (anOrder .refuge none .running)).setOrder 1 (some (anOrder .emptyRun (some .none) .suspended))
  let s := (s.setOrder 2 (some (anOrder .refuge none .suspended))).setOrder 3 (some (anOrder .refuge none .suspended))
  s.setRefs 0 { active := some 0, stack := [3, 2, 1], pendingDivert := none }

theorem test_meets_divert_references :
    between stacked = true ∧ referred stacked = true ∧ stacked.layout.closed = true
      ∧ ((stacked.decideDivert hs.originator 0 [⟨0, 1, .up⟩] [⟨1, 1, .up⟩]).toOption.map fun x => (x.1, x.2.2.2)) = some (4, .pending) := by
  decide +kernel

theorem test_meets_clearAstray_references : referred (manned .astray .none) = true ∧ referred (ordered (anOrder .refuge none .dwelling)) = true := by
  decide +kernel

theorem test_meets_enroll_active : ((manned .normal .none).orderRefs 3).active = none ∧ referred (manned .normal .none) = true := by decide +kernel

theorem test_meets_readStatus :
    (ordered (anOrder .emptyRun (some .none) .running)).canonical ∧ (ordered (anOrder .emptyRun (some .none) .running)).slotsRight
      ∧ ((ordered (anOrder .emptyRun (some .none) .running)).order 0).map (·.state) = some .running :=
  ⟨by unfold State.canonical; decide +kernel, (referred_holds (by decide +kernel)).2, by decide +kernel⟩

theorem test_meets_readTelescope :
    let s := station { aPad .unsettled with lastOccupant := some 63 }
    s.Ready ∧ s.Settled ∧ 63 ≤ 63 ∧ s.placement 63 = .unplaced ∧ (s.pad 20).lastOccupant = some 63 ∧ (s.setPlacement 63 (.onPad 3)).placement 63 ≠ .unplaced :=
  meets (by decide +kernel)

theorem test_meets_readOrder_head :
    let s := (ordered { anOrder .refuge none .running with head := .sensor }).setWaiting [⟨0, 1, .sensor⟩]
    s.Ready ∧ s.Settled ∧ s.waitsAt 0 1 = true ∧ (s.order 0).map (·.head) = some .sensor ∧ (s.order 0).map (·.kind) = some .refuge
      ∧ ((ordered { anOrder .emptyRun (some .none) .running with head := .claiming 1 }).order 0).map (·.head) = some (.claiming 1) :=
  meets (by decide +kernel)

theorem test_meets_readOrder_canonical :
    ((ordered { anOrder .refuge none .running with head := .sensor }).setWaiting [⟨0, 1, .sensor⟩]).canonical := by
  unfold State.canonical
  decide +kernel

theorem test_meets_recouple_busy :
    let s := (station (aPad .seated)).setTransmitter (.sending (.prove 3))
    s.canonical ∧ between s = true ∧ s.wayside.transmitter = .sending (.prove 3) ∧ s.couplingSet.length < 8 := by
  unfold State.canonical
  decide +kernel

theorem test_meets_setting :
    let s := hears (transferring { aPad .inbound with claim := some 0, expected := some 33 } (aTransfer .setDown .setting (.running 180))) (.padEvent 20 .loadSensed)
    let u := hears (transferring { aPad .releasing with claim := some 0 } (aTransfer .lift .lifting (.running 180))) (.padEvent 20 .loadClear)
    s.canonical ∧ u.canonical ∧ between s = true ∧ between u = true ∧ (s.pad 20).confTransporter = false ∧ (u.pad 20).confTransporter = false := by
  unfold State.canonical
  decide +kernel

theorem test_meets_fences_heads :
    let s := (ordered { anOrder .emptyRun (some .none) .running with head := .intrusion }).setWaiting [⟨0, 1, .intrusion⟩]
    s.canonical ∧ between s = true ∧ s.headsAt 1 = [0] ∧ (s.setFence 0 (some ⟨0, 2⟩)).fenceCount 1 = 1
      ∧ s.firstRefused ho.originator (s.fenceObjects ⟨0, 2⟩) = none ∧ s.fence 0 = none := by
  unfold State.canonical
  decide +kernel

theorem test_meets_sendComplete_owners :
    let j := road (working .moving (.throw .reverse .normal) .queued .stopped)
    let s := (j.setTransmitter (.sending (.couple 20))).setOutQueue [.throw 3 .reverse]
    let v := ((road (working .normal (.prove .rotation) .queued .stopped)).setTransmitter (.sending (.couple 20))).setOutQueue [.prove 3]
    let u := ((station { aPad .seated with coupling := .queued }).setTransmitter (.sending (.prove 3))).setOutQueue [.couple 20]
    let w := ((station (aPad .releasing)).setTransmitter (.sending (.prove 3))).setOutQueue [.uncouple 20]
    s.canonical ∧ u.canonical ∧ between s = true ∧ between u = true ∧ between v = true ∧ between w = true
      ∧ s.wayside.outQueue.find? s.eligible = some (.throw 3 .reverse) ∧ v.wayside.outQueue.find? v.eligible = some (.prove 3)
      ∧ u.wayside.outQueue.find? u.eligible = some (.couple 20) ∧ w.wayside.outQueue.find? w.eligible = some (.uncouple 20)
      ∧ (s.junction 3).map (·.operation) = some (some ⟨.throw .reverse .normal, .queued, .stopped⟩) ∧ (u.pad 20).state = .seated := by
  unfold State.canonical
  decide +kernel

/-! ### The clauses on restarts, layouts, legs and throws -/

theorem test_meets_restart_waiting :
    let s := (listening (full (manned .normal .none))).setRequests [⟨3, codeOf .restart, .valid .maintenance .restart⟩, ⟨1, 63, .unknown⟩]
    s.agenda = [] ∧ s.late = none ∧ s.port.window = .opened (full (manned .normal .none)).fixFrame false .awaitingLength
      ∧ (full (manned .normal .none)).fixFrame.answer = some anAnswer ∧ s.port.answers.length = 8
      ∧ s.port.requests = ⟨3, codeOf .restart, .valid .maintenance .restart⟩ :: [⟨1, 63, .unknown⟩] := by decide +kernel

theorem test_meets_restart_transfer :
    let s := transferring { aPad .inbound with expected := some 33, claim := some 1 } (aTransfer .setDown .setting (.running 180))
    s.canonical ∧ between s = true ∧ (s.pad 20).state = .inbound ∧ s.transferAt 20 ≠ none ∧ (s.pad 20).expected = some 33
      ∧ s.placement 63 = .unplaced ∧ ((station { aPad .seated with occupant := some 33 }).pad 20).occupant = some 33
      ∧ s.enrolledList.head? = some 0 := by
  unfold State.canonical
  decide +kernel

/-- Segment 1 with one link replaced. -/
def misled (second : Option Link) : State := draft.setDecl 1 (some (plainSeg (some ⟨0, .b⟩) second 2))

theorem test_meets_layoutFault :
    draft.layoutFault = none ∧ (misled (some ⟨9, .a⟩)).layoutFault = some (some 1, some .b, .undeclaredNeighbour)
      ∧ (misled (some ⟨2, .bNormal⟩)).layoutFault = some (some 1, some .b, .noSuchEnd)
      ∧ (misled (some ⟨4, .a⟩)).layoutFault = some (some 1, some .b, .notReciprocal) := by decide +kernel

theorem test_meets_layoutFault_spurs :
    (draft.setDecl 5 (some { plainSeg none none 0 with kind := .spur })).layoutFault = some (some 3, some .bReverse, .notReciprocal)
      ∧ ((draft.setDecl 5 (some { plainSeg (some ⟨3, .bReverse⟩) none 0 with kind := .spur })).setDecl 6
          (some { plainSeg none none 0 with kind := .spur })).layoutFault = some (some 6, none, .spurEnds)
      ∧ State.reset.layoutFault = some (none, none, .empty) := by decide +kernel

theorem test_meets_layoutFault_double :
    let twice : State := { State.reset with layout := { decls := [(0, some (plainSeg (some ⟨1, .a⟩) (some ⟨1, .b⟩) 2)),
      (1, some (plainSeg (some ⟨0, .a⟩) (some ⟨0, .b⟩) 2))], closed := false } }
    twice.layoutFault = some (some 0, some .a, .doubleLink) ∧ twice.canonical ∧ (misled none).canonical := by
  unfold State.canonical
  decide +kernel

theorem test_meets_backLeg :
    (draft.checkBackLeg leg012 [⟨3, 1, .up⟩]).toOption = none
      ∧ ((draft.checkBackLeg leg012 [⟨1, 2, .down⟩]).toOption.map fun l => l.map (·.segment)) = some [1, 0] := by decide +kernel

/-- Transporter 0 on segment 2, holding junction 3 ahead of it, with a leg over it to segment 4. -/
def facing (j : JunctionRec) : State :=
  let s := ordered { anOrder .emptyRun (some .none) .running with
    leg1 := leg012 ++ [⟨3, some .a, some .bNormal, some .normal⟩, pos 4 (some .a) none], cursor := ⟨1, 2⟩, claim := ⟨1, 3⟩ }
  let s := ((s.setSeg 0 clearSeg).setSeg 2 { clearSeg with holder := some 0 }).setSeg 3 { clearSeg with holder := some 0 }
  (s.setTrain 0 (some (train 2 .normal))).setJunction 3 (some j)

theorem test_meets_throwCheck :
    let s := facing (idleSwitch .reverse)
    let u := facing { idleSwitch .reverse with operation := some ⟨.prove .rotation, .queued, .stopped⟩ }
    let v := facing { idleSwitch .reverse with operation := some ⟨.prove .rotation, .sent, .running 12⟩ }
    (s.seg 3).holder = some 0 ∧ s.neededAt 0 3 = some .normal ∧ (s.seg 3).withdrawing ≠ some .release ∧ (s.seg 3).sensor = .clear
      ∧ ((runTask (.throwCheck 3) s).junction 3).map (·.position) = some .moving ∧ ((runTask (.throwCheck 3) u).junction 3).map (·.position) = some .moving
      ∧ runTask (.throwCheck 3) v = v ∧ (road (idleSwitch .normal)).neededAt 0 3 = none ∧ ((road (idleSwitch .normal)).seg 3).holder = none := by
  decide +kernel

theorem test_meets_restDecision :
    let s := (road (idleSwitch .reverse)).setDecl 3 (some (switchSeg .normal))
    ((s.seg 3).holder = none ∧ (s.seg 3).queue = [] ∧ (s.seg 3).sensor = .clear) ∧ (s.decl 3).map (·.rest) = some .normal
      ∧ s.wayside.transmitter = .idle ∧ s.wayside.outQueue = [] ∧ s.transmissionBarred = false
      ∧ (s.setHold ⟨true, false, false⟩).transmissionBarred = true
      ∧ ((runTask (.restDecision 3) s).junction 3).map (·.operation) = some (some ⟨.throw .normal .reverse, .sent, .running 12⟩)
      ∧ isRotation (some ⟨.prove .rotation, .queued, .stopped⟩) = true := by decide +kernel

theorem test_meets_restDecision_expiry :
    let s := (road { idleSwitch .reverse with hold := .running 60 }).setDecl 3 (some (switchSeg .normal))
    s.canonical ∧ between s = true ∧ (s.seg 3).holder = none ∧ (s.seg 3).queue = [] ∧ (s.seg 3).sensor = .clear
      ∧ (s.decl 3).map (·.rest) = some .normal := by
  unfold State.canonical
  decide +kernel

theorem test_meets_withdrawnThrow :
    let s := (facing { idleSwitch .moving with operation := some ⟨.throw .normal .reverse, .queued, .stopped⟩ }).setOutQueue [.throw 3 .normal]
    s.neededAt 0 3 = some .normal ∧ (s.seg 3).withdrawing ≠ some .release ∧ s.neededAt 1 3 ≠ some .normal ∧ s.port.params.holdTime ≠ 0
      ∧ ((s.withdrawThrow 3).junction 3).map (·.position) = some .reverse ∧ (s.withdrawThrow 3).wayside.outQueue = [] := by decide +kernel

/-! ### The clauses on diverts, limits and withdrawals -/

theorem test_meets_divert_tests :
    let s := ordered (anOrder .emptyRun (some .none) .running)
    s.Ready ∧ s.Settled ∧ s.layout.closed = true ∧ s.freeSlot = some 1 ∧ s.hasCondition 0 .normal = true ∧ (s.orderRefs 0).active = some 0
      ∧ s.startingDivert 0 = none ∧ (s.orderRefs 0).pendingDivert = none ∧ s.checkLeg [⟨0, 49, .up⟩] = .error (0, .stretch)
      ∧ (s.checkLeg [⟨0, 1, .up⟩]).toOption = some [pos 0 none none] ∧ (s.orderRefs 0).stack.length < 3
      ∧ ((s.checkLeg [⟨1, 1, .up⟩]).toOption.bind List.head?).map (·.segment) ≠ s.position 0
      ∧ (s.setTrain 0 (some (train 0 .lost))).hasCondition 0 .normal = false ∧ 3 ≤ (stacked.orderRefs 0).stack.length
      ∧ s.firstRefused hs.originator [(.segment, 0)] = none := meets (by decide +kernel)

theorem test_meets_rejoin :
    let s := manned .normal .none
    [pos 1 none none].getLast? = some (pos 1 none none) ∧ s.position 0 ≠ some 1 ∧ (anOrder .emptyRun (some .none) .running).cursorSegment ≠ some 1
      ∧ s.rejoinPlace 0 (anOrder .emptyRun (some .none) .running) [pos 1 none none] = some ⟨1, 1⟩
      ∧ s.rejoinPlace 0 { anOrder .refuge none .running with resumed := true, cursor := ⟨2, 0⟩ } [pos 2 none none] = none
      ∧ s.rejoinPlace 0 { anOrder .refuge none .running with cursor := ⟨1, 2⟩ } [pos 1 none none] = some ⟨2, 0⟩ := by decide +kernel

/-- Transporter 0 on segment 0, holding 0 to 2 for its order, its limit last sent at 2. -/
def running (m : Option Disposition) : State :=
  let s := ordered { anOrder .emptyRun (some .none) .running with claim := ⟨1, 2⟩ }
  let s := (s.setSeg 1 { clearSeg with holder := some 0 }).setSeg 2 { clearSeg with holder := some 0, withdrawing := m }
  (s.setTrain 0 (some { train 0 .normal with lastSent := 2 })).setRun 0 (some ⟨2, .travel, if m.isSome then .awaitingReply else .none⟩)

theorem test_meets_limit_covers :
    let s := running none
    s.position 0 = some 0 ∧ (s.recompute 0).run 0 = some ⟨2, .travel, .none⟩ ∧ (s.routeAhead 0).map (·.segment) = [1, 2]
      ∧ ((s.routeAhead 0).map (·.segment)).Nodup ∧ s.hasCondition 0 .normal = true ∧ s.startingDivert 0 = none ∧ s.faultedUnder 0 = false
      ∧ s.holdActive = false ∧ s.polls.quiet = .off ∧ s.load 0 = some .none
      ∧ (((running (some .release)).recompute 0).run 0).map (·.limit) = some 1
      ∧ (((running none).setHold ⟨true, false, false⟩).recompute 0).run 0 = some ⟨0, .travel, .awaitingPoll⟩ := by decide +kernel

theorem test_meets_withdrawal :
    let s := (running none).setHold ⟨true, false, false⟩
    s.run 0 = some ⟨2, .travel, .none⟩ ∧ 0 < s.sentReach 0 ∧ s.heldBeyond 0 0 = [1, 2] ∧ s.heldBeyond 0 2 = [] ∧ s.releaseCause 0 = false
      ∧ ((s.withdraw 0 0).seg 1).withdrawing = some .keep
      ∧ ((ordered (anOrder .emptyRun (some .none) .cancelling)).givenUp 0) = true
      ∧ (ordered (anOrder .emptyRun (some .none) .cancelling)).sentReach 0 ≤ 0 := by decide +kernel

/-- A STALLED transporter that has rolled back to segment 0: it holds segment 1 with its leaving mark, and segment 2, granted since, without. -/
def rolledBack : State :=
  let s := (running none).setTrain 0 (some { train 0 .stalled with lastSent := 0 })
  s.setSeg 1 { s.seg 1 with leaving := true }

theorem test_stalled_keeps_its_grant :
    rolledBack.run 0 = some ⟨2, .travel, .none⟩ ∧ rolledBack.sentReach 0 ≤ 0 ∧ rolledBack.releaseCause 0 = true ∧ rolledBack.givenUp 0 = false
      ∧ rolledBack.agenda = [] ∧ rolledBack.heldBeyond 0 0 = [1, 2]
      ∧ (runTask (.recompute 0) rolledBack).agenda = [.release 1 0, .complete 0] := by decide +kernel

theorem test_meets_confirmation :
    let s := running (some .release)
    s.run 0 = some ⟨2, .travel, .awaitingReply⟩ ∧ (s.seg 2).holder = some 0 ∧ (s.seg 2).withdrawing = some .release
      ∧ (runTask (.confirm 0) s).agenda = [.release 2 0, .confirmed 0]
      ∧ (∀ m ∈ [0, 1, 3, 4, 5], (s.seg m).withdrawing = none)
      ∧ ((runTask (.release 2 0) s).run 0).map (·.confirm) = some .none
      ∧ (s.setConfirm 0 .awaitingPoll).run 0 = some ⟨2, .travel, .awaitingPoll⟩ := by decide +kernel

theorem test_marks_left_behind_wait_for_their_release :
    let s := (running none).setSeg 1 { clearSeg with holder := some 0, leaving := true, withdrawing := some .release }
    let s := ((s.setOrder 0 (some { anOrder .emptyRun (some .none) .running with cursor := ⟨1, 2⟩, claim := ⟨1, 2⟩ })).setTrain 0
      (some (train 2 .normal))).setRun 0 (some ⟨2, .travel, .awaitingReply⟩)
    (runTask (.confirm 0) s).agenda = [.confirmed 0] := by decide +kernel

/-! ### The clauses on transfers and load events -/

theorem test_meets_coupling_fault :
    let s := hears (station { aPad .seated with occupant := some 33, coupling := .sent, couplingTimer := .running 60 }) (.padEvent 20 .fault)
    s.canonical ∧ between s = true ∧ (s.pad 20).state = .seated ∧ (s.pad 20).coupling ≠ .none ∧ s.orders.slots = [] := by
  unfold State.canonical
  decide +kernel

/-- An order in TRANSFER at pad 20. -/
def handing (k : TransferKind) (ph : TransferPhase) (r : PadRec) (l : Load) : State :=
  let s := (ordered (anOrder .emptyRun (some (.lift 20)) .transfer)).setLoad 0 (some l)
  (s.setPad 20 { r with claim := some 0 }).setTransfer 20 (some { aTransfer k ph (.running 180) with order := 0 })

theorem test_meets_transfer_order :
    let s := handing .lift .lifting { aPad .releasing with occupant := some 33 } .none
    let u := handing .setDown .setting { aPad .inbound with expected := some 33 } (.telescope 33)
    referred s = true ∧ referred u = true ∧ (s.order 0).map (·.state) = some .transfer ∧ (s.orderRefs 0).active = some 0 ∧ s.startingDivert 0 = none
      ∧ (u.pad 20).state = .inbound ∧ (u.pad 20).claim = some 0 ∧ s.agenda = [] ∧ s.transferOf 0 = some (20, { aTransfer .lift .lifting (.running 180) with order := 0 }) := by
  decide +kernel

/-- A report of transporter 0 at rest on segment 4. -/
def aReport (x : LoadEvent) : Report :=
  { transporter := 0, sequence := 5#8, position := 4, atRest := true, inMotion := false, driveFault := false, load := x }

theorem test_meets_load_events :
    let s := handing .lift .lifting { aPad .releasing with occupant := some 33, confStation := true } .none
    let u := handing .setDown .setting { aPad .inbound with expected := some 33 } (.telescope 33)
    (s.pad 20).access = 4 ∧ (s.pad 20).confStation = true ∧ (u.pad 20).confStation = false
      ∧ ((runTask (.loadEvent (aReport (.loaded 33))) s).order 0).map (·.state) = some .ended
      ∧ ((runTask (.loadEvent (aReport .set)) u).pad 20).confTransporter = true
      ∧ ((runTask (.loadEvent (aReport (.loaded 9))) s).order 0).map (·.state) = some .failed
      ∧ (runTask (.loadEvent (aReport .none)) s).agenda = [] := by decide +kernel

theorem test_meets_stray_load_events :
    let s := manned .normal (.telescope 33)
    let u := (ordered (anOrder .emptyRun (some (.setDown 20)) .running)).setPad 20 { aPad .inbound with expected := some 33, claim := some 0 }
    s.transferOf 0 = none ∧ s.load 0 = some (.telescope 33) ∧ u.transferOf 0 = none ∧ u.load 0 = some .none ∧ s.canonical ∧ u.canonical
      ∧ (u.pad 20).state = .inbound ∧ (u.pad 20).claim = some 0 ∧ (u.order 0).map (·.transporter) = some 0
      ∧ (runTask (.loadEvent (aReport .set)) s).load 0 = some .unverified
      ∧ ((runTask (.loadEvent (aReport (.loaded 9))) u).pad 20).state = .unsettled := by
  unfold State.canonical
  decide +kernel

/-! ### The clauses on orders that end, reports and arrivals -/

theorem test_meets_orders_that_end :
    let s := (ordered (anOrder .emptyRun (some .none) .running)).setTrain 0 (some (train 0 .astray))
    let u := (ordered (anOrder .emptyRun (some .none) .running)).setTrain 0 (some (train 0 .lost))
    referred s = true ∧ referred u = true ∧ between s = true ∧ between u = true ∧ (s.order 0).map (·.live) = some true
      ∧ (after (.clearAstray hm 0 2) s).agenda = [] ∧ (after (.disenrollTransporter hm 0) u).agenda = []
      ∧ ((after (.clearAstray hm 0 2) s).seg 0).holder = none ∧ ((after (.disenrollTransporter hm 0) u).seg 0).holder = none := by decide +kernel

theorem test_meets_marks_of_a_report :
    let s := running none
    s.leavingMarks 0 0 2 = [0, 1] ∧ s.leavingMarks 0 0 1 = [0] ∧ ((running (some .keep)).seg 2).withdrawing ≠ none ∧ s.active 0 =
      some (0, { anOrder .emptyRun (some .none) .running with claim := ⟨1, 2⟩ })
      ∧ ((s.moveCursor 0 2).order 0).map (·.cursor) = some ⟨1, 2⟩
      ∧ (((s.setOrder 0 (some { anOrder .emptyRun (some .none) .running with cursor := ⟨1, 2⟩, claim := ⟨1, 2⟩ })).moveCursor 0 0).order 0).map (·.cursor)
        = some ⟨1, 0⟩
      ∧ s.moveCursor 0 5 = s := by decide +kernel

theorem test_meets_stages :
    let s := (polled .stalled).setSeg 1 { clearSeg with holder := some 0 }
    readReport (withCheck [0#8, 255#8, 1#8, 1#8, 0#8, 0#8, 0#8, 0#8]) = some ⟨0, 255#8, 1, true, false, false, .none⟩
      ∧ s.polls.outstanding = some ⟨0, 255#8, 0, .travel, .none, true, false⟩ ∧ s.train 0 = some (train 0 .stalled) ∧ (s.seg 1).holder = some 0
      ∧ (polled .normal).train 0 = some (train 0 .normal) ∧ ((polled .normal).seg 0).holder = some 0 := by decide +kernel

theorem test_meets_arrival :
    let s := (ordered (anOrder .emptyRun (some (.lift 20)) .running)).setTrain 0 (some (train 2 .normal))
    let r := (ordered (anOrder .refuge none .running)).setTrain 0 (some (train 2 .normal))
    s.active 0 = some (0, anOrder .emptyRun (some (.lift 20)) .running) ∧ s.startingDivert 0 = none ∧ s.train 0 = some (train 2 .normal)
      ∧ ((s.arrival 0).order 0).map (·.state) = some .arrived ∧ ((r.arrival 0).order 0).map (·.state) = some .dwelling
      ∧ ((((ordered (anOrder .emptyRun (some .none) .running)).setTrain 0 (some (train 2 .normal))).arrival 0).order 0).map (·.state) = some .ended := by
  decide +kernel

theorem test_dwelling_takes_the_head_off :
    let o := { anOrder .refuge none .running with claim := ⟨1, 1⟩, head := .sensor }
    let s := ((ordered o).setWaiting [⟨0, 2, .sensor⟩]).setTrain 0 (some (train 2 .normal))
    (s.arrival 0).core.waiting = [] ∧ ((s.arrival 0).order 0).map (·.head) = some .none := by decide +kernel

/-- A resumed refuge at the end of leg 2 over an interrupted order. -/
def homing : State :=
  let s := ordered { anOrder .refuge none .running with resumed := true, cursor := ⟨2, 0⟩, claim := ⟨2, 0⟩, rejoin := some ⟨1, 1⟩ }
  let s := (s.setOrder 1 (some (anOrder .emptyRun (some .none) .suspended))).setRefs 0 { active := some 0, stack := [1], pendingDivert := none }
  s.setTrain 0 (some (train 1 .normal))

theorem test_meets_rejoins :
    homing.active 0 = some (0, { anOrder .refuge none .running with resumed := true, cursor := ⟨2, 0⟩, claim := ⟨2, 0⟩, rejoin := some ⟨1, 1⟩ })
      ∧ (homing.orderRefs 0).stack = [1] ∧ homing.order 1 = some (anOrder .emptyRun (some .none) .suspended)
      ∧ ((homing.arrival 0).order 1).map (fun o => (o.state, o.cursor)) = some (.running, ⟨1, 1⟩) ∧ ((homing.arrival 0).orderRefs 0).active = some 1 := by
  decide +kernel

theorem test_meets_take_up :
    let s := (running none).setOrder 1 (some { anOrder .refuge none .starting with rejoin := some ⟨1, 1⟩ })
    s.startingDivert 0 = some 1 ∧ (((anOrder .refuge none .starting).leg1.head?).map (·.segment)) = s.position 0
      ∧ s.active 0 = some (0, { anOrder .emptyRun (some .none) .running with claim := ⟨1, 2⟩ })
      ∧ ((s.complete 0).order 0).map (·.state) = some .suspended ∧ (s.complete 0).orderRefs 0 = { active := some 1, stack := [0], pendingDivert := none }
      ∧ (((s.setTrain 0 (some (train 1 .normal))).complete 0).order 1).map (·.outcome) = some (some .void)
      ∧ (((running none).setOrder 0 (some (anOrder .emptyRun (some .none) .cancelling))).complete 0).order 0 ≠ none
      ∧ (running (some .release)).run 0 = some ⟨2, .travel, .awaitingReply⟩ := by decide +kernel

/-! ### The clauses on the hold, the sensors and the segments -/

theorem test_meets_hold_begins :
    let s := transferring (aPad .releasing) (aTransfer .lift .uncoupling (.running 600))
    s.holdActive = false ∧ s.agenda = [] ∧ between s = true ∧ s.transferAt 20 = some (aTransfer .lift .uncoupling (.running 600))
      ∧ (after .holdAsserted s).agenda = [] ∧ (after (.hold ho) s).agenda = [] ∧ (after .holdAsserted (running none)).agenda = []
      ∧ ((after .holdAsserted (running none)).run 0).map (·.limit) = some 0 ∧ HoldSources.active ⟨true, true, true⟩ = true := by decide +kernel

theorem test_meets_hold_ends :
    let s := ((running none).setTransfer 20 (some (aTransfer .lift .uncoupling (.suspended 10)))).setOutQueue [.throw 3 .normal]
    let u := s.setHold ⟨true, false, false⟩
    u.holdActive = true ∧ u.agenda = [] ∧ u.guards.hold.line = true ∧ HoldSources.active ⟨false, false, false⟩ = false ∧ s.holdActive = false
      ∧ s.wayside.transmitter = .idle ∧ s.canonical ∧ ((s.setSeg 4 { clearSeg with queue := [1] }).seg 4).queue ≠ []
      ∧ (runTask .resumeTransfers s).transferAt 20 = some (aTransfer .lift .uncoupling (.running 10))
      ∧ (runTask .resumeTransfers s).wayside.transmitter = .sending (.throw 3 .normal)
      ∧ ((after .holdDeasserted (after .holdAsserted (running none))).run 0).map (·.limit) = some 2 := by
  unfold State.canonical
  decide +kernel

theorem test_meets_sensor_clear :
    let s := (running none).setOrder 0 (some { anOrder .emptyRun (some .none) .running with cursor := ⟨1, 2⟩, claim := ⟨1, 2⟩ })
    let s := (s.setTrain 0 (some (train 2 .normal))).setSeg 1 { clearSeg with holder := some 0, leaving := true, sensor := .occupied }
    let s := hears s (.sensor 1 false)
    s.wayside.inQueue = [.sensor 1 false] ∧ (s.seg 1).holder = some 0 ∧ (s.seg 1).leaving = true ∧ (s.seg 2).leaving = false
      ∧ (s.seg 3).holder = none ∧ ((after .sensor s).seg 1).holder = none := by decide +kernel

theorem test_meets_sensor_intrusion :
    let s := hears ((running none).setSeg 4 { clearSeg with holder := some 0 }) (.sensor 4 true)
    (s.seg 4).holder = some 0 ∧ (s.seg 4).leaving = false ∧ s.position 0 ≠ some 4 ∧ 4 ∉ s.extent 0 (s.sentReach 0) ∧ 2 ∈ s.extent 0 (s.sentReach 0)
      ∧ (after .sensor s).port.notices = [⟨.trackIntrusion, 4⟩, ⟨.restarted, 0⟩] := by decide +kernel

theorem test_meets_release :
    let s := running none
    (s.seg 2).holder = some 0 ∧ (s.seg 2).sensor = .clear ∧ (s.setSeg 2 { clearSeg with holder := some 0, sensor := .occupied }).agenda = []
      ∧ ((runTask (.release 2 0) s).order 0).map (·.claim) = some ⟨1, 1⟩
      ∧ (({ anOrder .emptyRun (some .none) .running with claim := ⟨1, 2⟩ } : Order).beyond[1]?).map (·.segment) = some 2 ∧ runTask (.release 2 1) s = s := by decide +kernel

theorem test_meets_serve :
    let o := { anOrder .emptyRun (some .none) .running with head := .claiming 1 }
    let s := (ordered o).setSeg 1 { clearSeg with queue := [0, 2] }
    (s.seg 1).holder = none ∧ s.fenceCount 1 = 0 ∧ (s.seg 1).sensor = .clear ∧ s.holdActive = false ∧ (s.seg 1).queue = 0 :: [2]
      ∧ o.headPos.map (·.segment) = some 1 ∧ ((runTask (.serve 1) s).order 0).map (·.claim) = some ⟨1, 1⟩
      ∧ (s.setHold ⟨true, false, false⟩).holdActive = true
      ∧ (runTask (.tailRelease 1 0) ((running none).setSeg 1 { clearSeg with holder := some 0, leaving := true })).agenda = [.release 1 0] := by
  decide +kernel

/-! ### What a read carries -/

theorem test_track_left_behind_is_not_held_ahead :
    let o := { anOrder .refuge none .running with resumed := true, cursor := ⟨1, 2⟩, claim := ⟨1, 2⟩ }
    let s := ((ordered o).setTrain 0 (some (train 2 .normal))).setSeg 2 { clearSeg with holder := some 0 }
    s.setSeg 1 { clearSeg with holder := some 0, leaving := true } |>.heldAhead 0 = 0 := by decide +kernel

/-- The byte of `read-status` that carries the pause state. -/
def pauseByte (p : Bool) : List (Option Byte) :=
  (after (.readStatus hs) { road (idleSwitch .normal) with wayside := { State.reset.wayside with pause := p } }).port.answers.map fun a =>
    (bodyBytes a.body)[12]?

theorem test_pause_by_place : pauseByte true = [some 0#8] ∧ pauseByte false = [some 1#8] := by decide +kernel

end Sys2Proof.Tests
end

section
/-!
PROOFS. The track layout, its requests and the power-on state: POWER_ON and RESET_LINE; the refusals of stages 3 and 4 of R189; `declare-segment`;
`close-layout`; and what an accepted leg is made of.
-/

namespace Sys2Proof.Proofs

open Sys2Proof Sys2Proof.Machine Sys2Proof.Laws

/-! ### Power-on -/

/-- No fence is SET after power-on, so none contains a segment (R158). -/
theorem fenceCount_reset (n : Nat) : State.reset.fenceCount n = 0 := rfl

/-- Every kind of notice is enabled after power-on (R198). -/
theorem noticeEnabled_reset (k : NoticeKind) : noticeEnabled State.reset.port.enables k = true := by
  cases k <;> decide

/-- Settles O2: both resets are the reset state by definition, and every table of it is empty, so that each number reads its resting record. The
lines of the second part are the blocks in the order of the state's fields. -/
theorem powerOnAndResetLineRestoreTheResetState : Obligations.PowerOnAndResetLineRestoreTheResetState := by
  refine ⟨fun _ => ⟨rfl, rfl⟩, ?_⟩
  exact
    ⟨get_nil _, rfl,
      get_nil _, get_nil _, rfl,
      get_nil _, rfl, rfl,
      get_nil _, get_nil _,
      fun p => congrArg PadRec.state (get_nil PadRec.undeclared p), get_nil _, get_nil _, get_nil _, rfl,
      get_nil _, rfl, rfl, rfl, rfl, rfl, rfl,
      get_nil _, get_nil _, fenceCount_reset, rfl, rfl,
      rfl, rfl, rfl, rfl, rfl, rfl, rfl,
      rfl, rfl, rfl, rfl, rfl, noticeEnabled_reset, rfl, rfl, rfl, rfl⟩

/-! ### What stages 3 and 4 of R189 answer -/

/-- A request that its decision only answers, whatever stage decides it. -/
theorem exec_decided {c : Instr} {h : Header} {r : Request} {s : State} (hc : c.request? = some (h, r)) (hs : s.Ready) (hw : s.Settled)
    {o : Outcome} {b : Body} (e : s.decideValid ⟨h.tag, codeOf r⟩ h.originator r = s.answer ⟨h.tag, codeOf r⟩ o b) :
    exec c s = .next (s.answered h r o b).decideAttention := by
  rw [exec_request hc, submit_answer hs hw h r e]

/-- The originators that a class excludes (R153). -/
theorem classAllows_false {c : RequestClass} {who : Originator}
    (h : (c = .maintenance ∧ who ≠ .maintenance) ∨ (c = .desk ∧ who = .scheduler)) : classAllows c who = false := by
  rcases h with ⟨rfl, hw⟩ | ⟨rfl, rfl⟩
  · exact decide_eq_false hw
  · rfl

theorem classAllows_desk {who : Originator} (h : who ≠ .scheduler) : classAllows .desk who = true := decide_eq_true h

/-- An object whose guard level lies below the originator's level, and that is not granted, is refused (R155). -/
theorem allows_false {s : State} {who : Originator} {k : ObjectKind} {n g : Nat} (hg : s.guardLevel k n = some g) (hl : g < levelOf who)
    (hm : s.granted who k n = false) : s.allows who k n = false := by
  simp [State.allows, hg, hm, hl]

/-- A request that passes the class test and whose object at entry is refused. -/
theorem objectDenied {s : State} {q : Ask} {who : Originator} {r : Request} {k : ObjectKind} {n : Nat} (hc : classAllows (classOf r) who = true)
    (ho : entryObject r = some (k, n)) (ha : s.allows who k n = false) : s.decideValid q who r = s.answer q .denied (.deniedObject k n) := by
  simp [State.decideValid, hc, ho, State.firstRefused, ha]

/-- The object check at entry passes where every object that the request names there is allowed. -/
theorem entryPasses {s : State} {who : Originator} {r : Request} (h : ∀ k n, entryObject r = some (k, n) → s.allows who k n = true) :
    (entryObject r).bind (fun x => s.firstRefused who [x]) = none := by
  cases ho : entryObject r with
  | none => rfl
  | some x => exact entry_allowed (h x.1 x.2 ho)

/-- A request that passes the class test and the object check, and that the layout state refuses. -/
theorem layoutRefused {s : State} {q : Ask} {who : Originator} {r : Request} (hc : classAllows (classOf r) who = true)
    (ho : (entryObject r).bind (fun x => s.firstRefused who [x]) = none) (hl : s.layoutRefuses r = true) :
    s.decideValid q who r = s.answer q .refusedState .empty := by
  simp [State.decideValid, hc, ho, hl]

/-- The requests that a CLOSED layout refuses, by their codes (R4). -/
theorem layoutRefuses_closed {s : State} {r : Request} (hl : s.layout.closed = true) (hr : codeOf r = 16 ∨ codeOf r = 17) :
    s.layoutRefuses r = true := by
  cases r with
  | declareSegment => exact hl
  | closeLayout => exact hl
  | _ => simp [codeOf] at hr

/-- The requests that an OPEN layout refuses, by their codes (R4). -/
theorem layoutRefuses_open {s : State} {r : Request} (hl : s.layout.closed = false)
    (hr : codeOf r = 20 ∨ codeOf r = 22 ∨ codeOf r = 24 ∨ codeOf r = 32) : s.layoutRefuses r = true := by
  have hopen : (!s.layout.closed) = true := by rw [hl]; rfl
  cases r with
  | submitOrder => exact hopen
  | divert => exact hopen
  | declarePad => exact hopen
  | enrollTransporter => exact hopen
  | _ => simp [codeOf] at hr

/-- Settles O12: the class test, the object check at entry and the layout state are the stages of R189 before the owner, each of which only answers. -/
theorem classObjectAndLayoutStateRefuse : Obligations.ClassObjectAndLayoutStateRefuse := by
  refine ⟨fun c h r s hc hs hw hx => ?_, fun c h r s k n g hc hs hw hd hwho ho hg hlt hm => ?_, fun c h r s hc hs hw hcl hob hlay => ?_⟩
  · exact exec_decided hc hs hw (classDenied (classAllows_false hx))
  · have hclass : classAllows (classOf r) h.originator = true := hd ▸ classAllows_desk hwho
    exact exec_decided hc hs hw (objectDenied hclass ho (allows_false hg hlt hm))
  · have hl : s.layoutRefuses r = true := by
      rcases hlay with ⟨hclosed, hr⟩ | ⟨hopen, hr⟩
      · exact layoutRefuses_closed hclosed hr
      · exact layoutRefuses_open hopen hr
    exact exec_decided hc hs hw (layoutRefused hcl (entryPasses hob) hl)

/-! ### `declare-segment` -/

/-- No test of a list fails exactly where all of them hold. -/
theorem firstFailing_none {l : List Bool} : firstFailing l = none ↔ ∀ b ∈ l, b = true := by
  unfold firstFailing
  rw [Option.map_eq_none_iff, findPlace_none]
  constructor
  · intro h b hb
    obtain ⟨i, hi⟩ := List.mem_iff_getElem?.1 hb
    simpa using h i b hi
  · intro h i b hb
    simpa using h b (List.mem_of_getElem? hb)

theorem takeDeclareSegment_failed {s : State} {q : Ask} {n : Nat} {d : SegDecl} {k : Nat} (h : firstFailing (s.declareTests n d) = some k) :
    s.takeDeclareSegment q n d = s.answer q .refusedRange (.failedTest k) := by
  unfold State.takeDeclareSegment
  rw [h]

theorem takeDeclareSegment_passed {s : State} {q : Ask} {n : Nat} {d : SegDecl} (h : firstFailing (s.declareTests n d) = none) :
    s.takeDeclareSegment q n d = (s.setDecl n (some d)).answer q .done
      (.segmentCounts (s.setDecl n (some d)).segmentCount (s.setDecl n (some d)).junctionCount) := by
  unfold State.takeDeclareSegment
  rw [h]

/-- The nine tests of R6 and R7 pass. -/
theorem declareTests_pass {s : State} {n : Nat} {d : SegDecl} (hn : n ≤ 127) (hg : d.guard ≤ 2) (hv : d.kind = .plain ∨ d.speed = .creep)
    (hr : d.kind = .junction ∨ d.rest = .none) (ht : d.kind = .junction ∨ d.third = none)
    (hl : ∀ l ∈ [d.first, d.second, d.third].filterMap id, l.neighbour ≤ 127 ∧ l.neighbour ≠ n)
    (hd : (([d.first, d.second, d.third].filterMap id).map (·.neighbour)).Nodup)
    (hj : d.kind ≠ .junction ∨ s.isJunction n = true ∨ s.junctionCount < 24) : firstFailing (s.declareTests n d) = none := by
  rw [firstFailing_none]
  have hrange : ([d.first, d.second, d.third].filterMap id).all (fun l => decide (l.neighbour ≤ 127)) = true :=
    List.all_eq_true.2 fun l h => decide_eq_true (hl l h).1
  have hself : ([d.first, d.second, d.third].filterMap id).all (fun l => decide (l.neighbour ≠ n)) = true :=
    List.all_eq_true.2 fun l h => decide_eq_true (hl l h).2
  unfold State.declareTests
  dsimp only
  simp only [List.forall_mem_cons, hrange, hself, decide_eq_true hd]
  simp [hn, hg, hv, hr, ht, or_assoc, hj]

/-- A declaration alone leaves the blocks nothing to do, since no block but the Layout Table is touched. -/
theorem settled_declared {s : State} (h : s.Settled) (n : Nat) (d : Option SegDecl) (a : List Answer) : ((s.setDecl n d).setAnswers a).Settled :=
  settled_same h rfl rfl rfl rfl rfl rfl rfl rfl

/-- Settles O21: the request passes the first stages of R189 and its owner decides it by the nine tests. -/
theorem declareSegmentTakesTheRecord : Obligations.DeclareSegmentTakesTheRecord := by
  intro h n d s hs hw hm hopen r c links
  have hc : c.request? = some (h, r) := rfl
  have hclass : classAllows (classOf r) h.originator = true := decide_eq_true hm
  constructor
  · intro hn hg hv hr ht hl hd hj
    refine ⟨?_, setDecl_decl_same s n (some d), fun m hmn => by rw [setDecl_decl, if_neg hmn]⟩
    have e : s.owner ⟨h.tag, codeOf r⟩ h.originator r = (s.setDecl n (some d)).answered h r .done
        (.segmentCounts (s.setDecl n (some d)).segmentCount (s.setDecl n (some d)).junctionCount) :=
      (takeDeclareSegment_passed (declareTests_pass hn hg hv hr ht hl hd hj)).trans (answer_ready (t := s.setDecl n (some d)) hs rfl h r _ _)
    exact exec_owner hc hs hclass rfl hopen e (settled_declared hw _ _ _) hs.late rfl
  · intro k hk
    exact exec_answer hc hs hw hclass rfl hopen (takeDeclareSegment_failed hk)

/-! ### `close-layout` -/

/-- What the Junction Controller does for one listed segment of the layout (R11). -/
def takeUpOne (s : State) (e : Nat × Option SegDecl) : State :=
  if s.isJunction e.1 then s.setJunction e.1 (some JunctionRec.initial) else s

theorem takeUpJunctions_eq (s : State) : s.takeUpJunctions = s.layout.decls.foldl takeUpOne s := rfl

/-- Taking up segments writes the Junction Controller alone. -/
theorem takeUpFold_alone (l : Table (Option SegDecl)) (s : State) : ∃ c, l.foldl takeUpOne s = { s with junctions := c } := by
  induction l generalizing s with
  | nil => exact ⟨s.junctions, rfl⟩
  | cons e rest ih =>
    obtain ⟨c, hc⟩ := ih (takeUpOne s e)
    refine ⟨c, hc.trans ?_⟩
    unfold takeUpOne
    split <;> rfl

/-- A declared junction reads the initial record once its number has been taken up, and what it read before otherwise. -/
theorem takeUpFold_junction (l : Table (Option SegDecl)) (s : State) {j : Nat} (hj : s.isJunction j = true) :
    (l.foldl takeUpOne s).junction j = if j ∈ Table.keys l then some JunctionRec.initial else s.junction j := by
  induction l generalizing s with
  | nil => rfl
  | cons e rest ih =>
    have hsame : (takeUpOne s e).isJunction j = true := by
      unfold takeUpOne
      split <;> exact hj
    have hone : (takeUpOne s e).junction j = if j = e.1 then some JunctionRec.initial else s.junction j := by
      unfold takeUpOne
      split
      · exact setJunction_junction s e.1 _ j
      · next hn => rw [if_neg fun he : j = e.1 => hn (he ▸ hj)]
    rw [List.foldl_cons, ih _ hsame, hone]
    have hcons : j ∈ Table.keys (e :: rest) ↔ j = e.1 ∨ j ∈ Table.keys rest := List.mem_cons
    by_cases hr : j ∈ Table.keys rest <;> simp [hcons, hr]

/-- Every declared junction has the initial record when the layout has been taken up (R46). -/
theorem takeUpJunctions_junction {s : State} {j : Nat} (hj : s.isJunction j = true) : s.takeUpJunctions.junction j = some JunctionRec.initial := by
  have hdecl : s.decl j ≠ none := fun h => by
    unfold State.isJunction at hj
    rw [h] at hj
    cases hj
  rw [takeUpJunctions_eq, takeUpFold_junction _ _ hj, if_pos (mem_keys_of_get hdecl)]

/-- Work leaves a junction that has just been taken up UNKNOWN, or with UNKNOWN as the prior position of its throw. -/
theorem basis_of_initial {x : Option JunctionRec} (h : StationKept (some JunctionRec.initial) x) : x.map basis = some .unknown := by
  cases x with
  | none => exact h.elim
  | some r =>
    obtain ⟨-, hb, -⟩ := h (by unfold JunctionRec.lawful JunctionRec.initial; simp)
    exact congrArg some hb

/-- The Junction Controller is outside the frame. -/
theorem frame_junctions (s : State) (c : JunctionController) : Frame s { s with junctions := c } := { (Kept.refl s).frame with }

theorem takeCloseLayout_fault {s : State} {q : Ask} {n : Option Nat} {e : Option TrackEnd} {r : LayoutReason} (h : s.layoutFault = some (n, e, r)) :
    s.takeCloseLayout q = s.answer q .refusedLayout (.layoutFault n e r) := by
  unfold State.takeCloseLayout
  rw [h]

/-- The layout CLOSED (R11). -/
def closedLayout (s : State) : State := { s with layout := { s.layout with closed := true } }

theorem takeCloseLayout_sound {s : State} {q : Ask} (h : s.layoutFault = none) :
    s.takeCloseLayout q = (closedLayout s).takeUpJunctions.answer q .done .empty := by
  unfold State.takeCloseLayout
  rw [h]
  rfl

/-- `close-layout` of MAINTENANCE in an OPEN layout without fault. -/
theorem closeLayout_closes {h : Header} {s : State} (hs : s.Ready) (hm : h.originator = .maintenance) (hopen : s.layout.closed = false)
    (hf : s.layoutFault = none) :
    ∃ t : State, exec (.closeLayout h) s = .next t ∧ t.layout = { s.layout with closed := true } ∧
      t.port.answers = s.port.answers ++ [⟨h.tag, codeOf .closeLayout, .done, .empty⟩] ∧
      (∀ j, s.isJunction j = true → (t.junction j).map basis = some .unknown) ∧
      Frame { s with layout := t.layout, port := { s.port with answers := t.port.answers } } t := by
  obtain ⟨c, hup⟩ : ∃ c, (closedLayout s).takeUpJunctions = { closedLayout s with junctions := c } := takeUpFold_alone _ _
  have hanswer : (closedLayout s).takeUpJunctions.answer ⟨h.tag, codeOf .closeLayout⟩ .done .empty
      = (closedLayout s).takeUpJunctions.answered h .closeLayout .done .empty := answer_ready hs (by rw [hup]; rfl) _ _ _ _
  have howner := (takeCloseLayout_sound (q := ⟨h.tag, codeOf .closeLayout⟩) hf).trans hanswer
  have hrec : ∀ j, s.isJunction j = true → ((closedLayout s).takeUpJunctions.answered h .closeLayout .done .empty).junction j
      = some JunctionRec.initial := fun j hj => takeUpJunctions_junction (s := closedLayout s) hj
  rw [hup] at howner hrec
  obtain ⟨t, ht, hcalm⟩ := exec_calm (c := .closeLayout h) (h := h) (r := .closeLayout) rfl hs (decide_eq_true hm) rfl hopen howner
    (noReport_of_empty hs.agenda) hs.late rfl
  refine ⟨t, ht, hcalm.layout, hcalm.answers, fun j hj => ?_, ?_⟩
  · exact basis_of_initial (hrec j hj ▸ hcalm.stations j)
  · rw [hcalm.layout, hcalm.answers]
    exact (frame_junctions _ c).trans hcalm.frame

/-- Which fault an end of a declared segment has, told by the first of the four tests of R10 that its link fails. -/
theorem endFault_reason (s : State) (n : Nat) (d : SegDecl) (e : TrackEnd) {l : Link} (hl : d.linkAt e = some l) :
    (s.decl l.neighbour = none → s.endFault n d e = some .undeclaredNeighbour) ∧
    ∀ far, s.decl l.neighbour = some far →
      (¬ hasEnd far.kind l.farEnd → s.endFault n d e = some .noSuchEnd) ∧
      (hasEnd far.kind l.farEnd → far.linkAt l.farEnd ≠ some ⟨n, e⟩ → s.endFault n d e = some .notReciprocal) ∧
      (hasEnd far.kind l.farEnd → far.linkAt l.farEnd = some ⟨n, e⟩ →
        (¬ ∀ e' l', e' ≠ e → d.linkAt e' = some l' → l'.neighbour ≠ l.neighbour) → s.endFault n d e = some .doubleLink) := by
  obtain ⟨hnone, hfar⟩ := endFault_eq s n d e hl
  refine ⟨hnone, fun far hf => ?_⟩
  obtain ⟨hend, hlink⟩ := hfar far hf
  refine ⟨hend, fun he => (hlink he).1, fun he hb hs => ((hlink he).2 hb).1 ?_⟩
  push Not at hs
  exact hs

/-- The four tests of R10 at one end, each said by itself. -/
theorem endPasses_iff (s : State) (n : Nat) (d : SegDecl) (e : TrackEnd) :
    EndPasses s n d e ↔ ∀ l, d.linkAt e = some l → s.decl l.neighbour ≠ none ∧
      (∃ far, s.decl l.neighbour = some far ∧ hasEnd far.kind l.farEnd) ∧
      (∃ far, s.decl l.neighbour = some far ∧ far.linkAt l.farEnd = some ⟨n, e⟩) ∧
      ∀ e' l', e' ≠ e → d.linkAt e' = some l' → l'.neighbour ≠ l.neighbour := by
  refine forall₂_congr fun l _ => ?_
  constructor
  · rintro ⟨far, hf, he, hb, hs⟩
    exact ⟨by rw [hf]; simp, ⟨far, hf, he⟩, ⟨far, hf, hb⟩, hs⟩
  · rintro ⟨-, ⟨far, hf, he⟩, ⟨far', hf', hb⟩, hs⟩
    obtain rfl : far = far' := Option.some.inj (hf.symm.trans hf')
    exact ⟨far, hf, he, hb, hs⟩

/-- A layout in which nothing is declared has the fault EMPTY (R9). -/
theorem layoutFault_empty {s : State} (h : Canonical none s.layout.decls) (hn : ∀ n, s.decl n = none) : s.layoutFault = some (none, none, .empty) := by
  have he : s.layout.decls = [] := by
    refine List.eq_nil_iff_forall_not_mem.2 fun e he => ?_
    exact h.2 e he ((get_of_mem h he).symm.trans (hn e.1))
  unfold State.layoutFault
  rw [if_pos he]

/-- Settles O22: the first clause is the request's decision and the frame of its work; the others read `layoutFault` off the first segment, end and
test that fail. -/
theorem closeLayoutClosesOrNamesTheFault : Obligations.CloseLayoutClosesOrNamesTheFault := by
  refine ⟨fun h s hs hm hopen => ⟨fun hf _ => closeLayout_closes hs hm hopen hf, fun n e r hf hw => ?_⟩, ?_⟩
  · exact exec_answer (c := .closeLayout h) (h := h) (r := .closeLayout) rfl hs hw (decide_eq_true hm) rfl hopen (takeCloseLayout_fault hf)
  · intro s hcanon hasEnd' declared ended returned single passes sound before
    have htable : Canonical none s.layout.decls := (wf_iff _ _).1 hcanon.1
    have hpasses : ∀ n d e, EndPasses s n d e ↔ passes n d e := endPasses_iff s
    have hsound : ∀ n, SegmentPasses s n ↔ sound n := fun n => forall₂_congr fun d _ => and_congr_left' (forall_congr' (hpasses n d))
    refine ⟨layoutFault_empty htable, ?_, fun n d e l hd hl hlow hends => ?_, fun n d hd hlow hends hk hs => ?_⟩
    · rw [layoutFault_none htable]
      exact and_congr_right' (forall_congr' hsound)
    · have named : ∀ r, s.endFault n d e = some r → s.layoutFault = some (some n, some e, r) := fun r hr =>
        layoutFault_some htable hd (firstEnd s n d hl hr fun e' he' => (hpasses n d e').2 (hends e' he')) fun m hm => (hsound m).2 (hlow m hm)
      obtain ⟨hnone, hfar⟩ := endFault_reason s n d e hl
      refine ⟨fun h => named _ (hnone (not_not.1 h)), fun hdec hend => ?_, fun hend hret => ?_, fun hend hret hsingle => ?_⟩
      · obtain ⟨far, hf⟩ := Option.ne_none_iff_exists'.1 hdec
        exact named _ ((hfar far hf).1 fun he => hend ⟨far, hf, he⟩)
      · obtain ⟨far, hf, he⟩ := hend
        exact named _ ((hfar far hf).2.1 he fun hb => hret ⟨far, hf, hb⟩)
      · obtain ⟨far, hf, he⟩ := hend
        obtain ⟨far', hf', hb⟩ := hret
        obtain rfl : far = far' := Option.some.inj (hf.symm.trans hf')
        exact named _ ((hfar far hf).2.2 he hb hsingle)
    · exact layoutFault_some htable hd (spurFault s n d (fun e => (hpasses n d e).2 (hends e)) hk hs) fun m hm => (hsound m).2 (hlow m hm)

/-! ### An accepted leg -/

/-- No reversal: the two ends of a PLAIN or SPUR differ, and one end of a JUNCTION is the toe and the other is not (R14). -/
theorem reverses_false_iff (k : SegKind) (e e' : TrackEnd) :
    reverses k e e' = false ↔ if k = .junction then (e = .a ↔ e' ≠ .a) else e ≠ e' := by
  cases k with
  | junction => cases e <;> cases e' <;> decide
  | plain => simp [reverses]
  | spur => simp [reverses]

/-- The entering end taken from the leaving end (R13). -/
theorem takenEntering_eq (k : SegKind) (e : TrackEnd) :
    takenEntering k e = if k = .junction then (if e = .a then none else some .a) else if e = .a then some .b else some .a := by
  cases k <;> rfl

/-- The segments that a leg's stretches name, with the sense of each stretch tested (R12). -/
theorem expansion_eq (leg : List Stretch) :
    expansion leg = leg.flatMap fun x => (List.range x.count).map fun k => if x.sense = .up then x.first + k else x.first - k := by
  unfold expansion
  refine List.flatMap_congr fun x _ => List.map_congr_left fun k _ => ?_
  cases x.sense <;> rfl

/-- An accepted leg is not empty, keeps the bounds of R12, and its positions are the segments that it names. -/
theorem leg_expanded {s : State} {start : Option TrackEnd} {leg : List Stretch} {route : List RoutePos} (hm : LegMade s start route)
    (hs : route.map (fun x => some x.segment) = (candidates leg).map (·.segment)) (hok : ∀ c ∈ candidates leg, c.stretchOk = true) :
    1 ≤ leg.length ∧ leg.length ≤ 8 ∧ (∀ x ∈ leg, 1 ≤ x.count ∧ x.count ≤ 16) ∧
      route.map (·.segment) = leg.flatMap fun x => (List.range x.count).map fun k => if x.sense = .up then x.first + k else x.first - k := by
  obtain ⟨hsegs, h8, hcount⟩ := expansion_of hok hs
  have hne : leg ≠ [] := by
    rintro rfl
    have hlen : route.length = 0 := by simpa [candidates] using congrArg List.length hs
    have := hm.length.1
    omega
  exact ⟨List.length_pos_iff.2 hne, h8 hne, hcount, hsegs.trans (expansion_eq leg)⟩

/-- Settles O23: what the walk accepts is made as R12 to R16 say (`LegMade`), from no entering end for a leg and from the end that the dwell's link
names for a back leg. -/
theorem acceptedLegsAreWellMade : Obligations.AcceptedLegsAreWellMade := by
  intro s leg route made
  have hmade : ∀ {start : Option TrackEnd}, LegMade s start route → route.map (fun x => some x.segment) = (candidates leg).map (·.segment) →
      (∀ c ∈ candidates leg, c.stretchOk = true) → made := by
    intro start hm hs hok
    obtain ⟨h1, h8, hcount, hsegs⟩ := leg_expanded hm hs hok
    exact ⟨hm.length.1, hm.length.2, hm.nodup, hm.declared, h1, h8, hcount, hsegs, hm.joins, hm.last,
      fun x hx d e e' hd he he' => (reverses_false_iff d.kind e e').1 (hm.through x hx d e e' hd he he'), hm.needed⟩
  constructor
  · intro h
    obtain ⟨hm, hs, hok⟩ := checkLeg_ok h
    refine ⟨hmade hm hs hok, fun x d hx hd => ?_⟩
    obtain ⟨hstay, hleave⟩ := hm.first x d hx hd
    exact ⟨hstay, fun e he => (hleave e he).trans (takenEntering_eq d.kind e)⟩
  · intro out h
    obtain ⟨dwell, d, e, e', hout, hd, hl, hdwell, hm, hs, hok⟩ := checkBackLeg_ok h
    refine ⟨hmade hm hs hok, ?_⟩
    obtain ⟨x, hx⟩ : ∃ x, route.head? = some x := by
      cases route with
      | nil => exact absurd hm.length.1 (by decide)
      | cons x rest => exact ⟨x, rfl⟩
    obtain ⟨d', hd'⟩ := Option.isSome_iff_exists.1 (hm.declared x (List.mem_of_head? hx)).2
    obtain ⟨hstay, hleave⟩ := hm.first x d' hx hd'
    refine ⟨dwell, x, d, e, e', hout, hx, hd, hl x hx, ?_, hdwell⟩
    cases hlv : x.leaving with
    | none => exact hstay hlv
    | some e1 => exact hleave e1 hlv

end Sys2Proof.Proofs
end

section
/-!
PROOFS. Claims, run limits and withdrawals: the seven tests of R24; what a recomputation records; how a withdrawal is marked and confirmed.
-/

namespace Sys2Proof.Proofs

open Sys2Proof Sys2Proof.Machine Sys2Proof.Laws

/-! ### Claims -/

theorem switchFaulted_iff (s : State) (n : Nat) : s.switchFaulted n = true ↔ ∃ r, s.junction n = some r ∧ r.position = .faulted := by
  unfold State.switchFaulted
  cases s.junction n with
  | none => simp
  | some j => simp

theorem switchFaulted_false {s : State} {n : Nat} (h : ∀ r, s.junction n = some r → r.position ≠ .faulted) : s.switchFaulted n = false :=
  Bool.eq_false_iff.2 fun hf => by
    obtain ⟨r, hr, hp⟩ := (switchFaulted_iff s n).1 hf
    exact h r hr hp

theorem claimResult_held {s : State} {t n : Nat} (h : (s.seg n).holder = some t) : s.claimResult t n = .granted := by
  unfold State.claimResult
  exact if_pos h

theorem claimResult_unknown {s : State} {t n : Nat} (h : (s.seg n).holder ≠ some t) (hu : (s.seg n).sensor = .unknown) :
    s.claimResult t n = .waitSensor := by
  unfold State.claimResult
  dsimp only
  rw [if_neg h, if_pos hu]

theorem claimResult_fenced {s : State} {t n : Nat} (h : (s.seg n).holder ≠ some t) (hu : (s.seg n).sensor ≠ .unknown) (hf : 0 < s.fenceCount n) :
    s.claimResult t n = .refusedFenced := by
  unfold State.claimResult
  dsimp only
  rw [if_neg h, if_neg hu, if_pos hf]

theorem claimResult_switch {s : State} {t n : Nat} (h : (s.seg n).holder ≠ some t) (hu : (s.seg n).sensor ≠ .unknown) (hf : s.fenceCount n = 0)
    (hj : ∃ r, s.junction n = some r ∧ r.position = .faulted) : s.claimResult t n = .waitSwitch := by
  unfold State.claimResult
  dsimp only
  rw [if_neg h, if_neg hu, if_neg (by omega), if_pos ((switchFaulted_iff s n).2 hj)]

/-- Test 5 of R24, for a segment that another transporter holds. -/
theorem claimResult_rival {s : State} {t n u : Nat} (hh : (s.seg n).holder = some u) (hne : u ≠ t) (hu : (s.seg n).sensor ≠ .unknown)
    (hf : s.fenceCount n = 0) (hj : ∀ r, s.junction n = some r → r.position ≠ .faulted) :
    s.claimResult t n = if s.closesCycle t 4 u then .refusedCycle else .queued := by
  unfold State.claimResult
  dsimp only
  rw [if_neg (by simp [hh, hne]), if_neg hu, if_neg (by omega), if_neg (by simp [switchFaulted_false hj]), hh]

/-- Tests 6 and 7 of R24, for a segment without a holder. -/
theorem claimResult_unheld {s : State} {t n : Nat} (hh : (s.seg n).holder = none) (hu : (s.seg n).sensor ≠ .unknown) (hf : s.fenceCount n = 0)
    (hj : ∀ r, s.junction n = some r → r.position ≠ .faulted) :
    s.claimResult t n = if (s.seg n).sensor = .occupied then .waitIntrusion else if 3 ≤ (s.seg n).queue.length then .full
      else if s.holdActive ∨ (s.seg n).queue ≠ [] then .queued else .granted := by
  unfold State.claimResult
  dsimp only
  rw [if_neg (by simp [hh]), if_neg hu, if_neg (by omega), if_neg (by simp [switchFaulted_false hj]), hh]

/-- Settles O33: each test of R24 is read off `claimResult` where the tests before it do not decide. -/
theorem claimsAreDecidedInOrder : Obligations.ClaimsAreDecidedInOrder := by
  intro s t n
  refine ⟨claimResult_held, claimResult_unknown, claimResult_fenced, claimResult_switch, fun u => claimResult_rival, fun hh hf hj => ?_⟩
  have unheld : (s.seg n).sensor ≠ .unknown → _ := fun hu => claimResult_unheld (t := t) hh hu hf hj
  refine ⟨fun ho => ?_, fun hc hi hq => ?_, fun hc hq hl => ?_, fun hc hl => ?_⟩
  · rw [unheld (by simp [ho]), if_pos ho]
  · rw [unheld (by simp [hc])]
    simp [hc, hi, hq]
  · rw [unheld (by simp [hc]), if_neg (by simp [hc]), if_neg (by omega), if_pos hq]
  · rw [unheld (by simp [hc]), if_neg (by simp [hc]), if_pos hl]

/-! ### The limit that a recomputation records -/

theorem reach_forced {s : State} {i : Nat} (h : s.forced i = true) : s.reach i = 0 := by
  unfold State.reach
  exact if_pos h

/-- The position after those that an unforced limit covers fails one of the three tests of R33. -/
theorem reach_next {s : State} {i : Nat} (h : s.forced i = false) {x : RoutePos} (hx : (s.routeAhead i)[s.reach i]? = some x) :
    ¬((s.seg x.segment).holder = some i ∧ (s.seg x.segment).withdrawing = none ∧ s.agrees x = true) := by
  unfold State.reach at hx
  rw [if_neg (by simp [h])] at hx
  have hfail := after_takeWhile _ _ x hx
  rintro ⟨hh, hw, ha⟩
  simp [State.holds, hh, hw, ha] at hfail

theorem limitAt_eq {s : State} {i p : Nat} (hp : s.position i = some p) (k : Nat) :
    s.limitAt i k = ((((s.routeAhead i).take k).map (·.segment)).getLast?).getD p := by
  unfold State.limitAt State.extent
  rw [hp, List.getLast?_append]
  cases (((s.routeAhead i).take k).map (·.segment)).getLast? <;> rfl

/-- Whether a segment among those listed is declared CREEP. -/
theorem any_isCreep (s : State) (l : List Nat) : l.any s.isCreep = true ↔ ∃ n ∈ l, ∃ d, s.decl n = some d ∧ d.speed = .creep := by
  rw [List.any_eq_true]
  refine exists_congr fun n => and_congr_right fun _ => ?_
  unfold State.isCreep
  cases s.decl n with
  | none => simp
  | some d => simp

theorem ceilingAt_creep {s : State} {i k : Nat} (h : (s.extent i k).any s.isCreep = true) : s.ceilingAt i k = .creep := by
  unfold State.ceilingAt
  exact if_pos h

theorem ceilingAt_loaded {s : State} {i k : Nat} (h : ¬(s.extent i k).any s.isCreep = true)
    (hl : s.load i = some .unverified ∨ ∃ y, s.load i = some (.telescope y)) : s.ceilingAt i k = .loaded := by
  unfold State.ceilingAt
  rw [if_neg h]
  rcases hl with hl | ⟨y, hl⟩ <;> rw [hl]

theorem ceilingAt_travel {s : State} {i k : Nat} (h : ¬(s.extent i k).any s.isCreep = true) (hl : s.load i = some .none ∨ s.load i = none) :
    s.ceilingAt i k = .travel := by
  unfold State.ceilingAt
  rw [if_neg h]
  rcases hl with hl | hl <;> rw [hl]

/-! ### KEEP marks and the causes that stand -/

/-- The segments that a transporter holds with a KEEP mark. -/
theorem mem_keeps {s : State} {i n : Nat} (h : (s.seg n).holder = some i) :
    n ∈ (s.holdings i).filter (fun n => decide ((s.seg n).withdrawing = some .keep)) ↔ (s.seg n).withdrawing = some .keep := by
  rw [List.mem_filter, and_iff_right (mem_holdings h), decide_eq_true_iff]

/-- The mark of a held segment when the causes have been looked at: a KEEP mark turns to RELEASE, stays or is made absent, and no other mark changes
(R39, R42). -/
theorem reviseMarks_held {s : State} {i n : Nat} (h : (s.seg n).holder = some i) :
    ((s.reviseMarks i).seg n).withdrawing =
      if (s.seg n).withdrawing = some .keep then
        (if s.releaseCause i = true then some .release else if s.keepCause i n = true then some .keep else none)
      else (s.seg n).withdrawing := by
  have hk := mem_keeps h
  unfold State.reviseMarks
  dsimp only
  generalize (s.holdings i).filter (fun n => decide ((s.seg n).withdrawing = some .keep)) = keeps at hk
  by_cases hr : s.releaseCause i = true
  · rw [if_pos hr, if_pos hr]
    split
    · next he => rw [if_neg fun hw => by simpa [he] using hk.2 hw]
    · rw [emit_seg, setConfirm_seg, mark_seg]
      by_cases hw : (s.seg n).withdrawing = some .keep
      · rw [if_pos hw, if_pos ⟨hk.2 hw, h, by simp [hw]⟩]
      · rw [if_neg hw, if_neg fun hm => hw (hk.1 hm.1)]
  · rw [if_neg hr, if_neg hr]
    have hi : n ∈ keeps.filter (fun n => !s.keepCause i n) ↔ (s.seg n).withdrawing = some .keep ∧ s.keepCause i n = false := by
      rw [List.mem_filter, hk, Bool.not_eq_true']
    generalize keeps.filter (fun n => !s.keepCause i n) = idle at hi
    have hmark : (if n ∈ idle then none else (s.seg n).withdrawing)
        = if (s.seg n).withdrawing = some .keep then (if s.keepCause i n = true then some .keep else none) else (s.seg n).withdrawing := by
      by_cases hw : (s.seg n).withdrawing = some .keep <;> cases hc : s.keepCause i n <;> simp [hi, hw, hc]
    rw [← hmark]
    split
    · next he => rw [he, if_neg List.not_mem_nil]
    · rw [makeActiveDue_seg, settleConfirm_seg, unmark_seg]

/-! ### The track that a recorded limit covers -/

/-- Where no segment is named twice, none of the first `k` is named again behind them. -/
theorem not_mem_drop {l : List RoutePos} (h : (l.map (·.segment)).Nodup) {k : Nat} {x : RoutePos} (hx : x ∈ l.take k) :
    x.segment ∉ (l.drop k).map (·.segment) := by
  rw [← List.take_append_drop k l, List.map_append] at h
  exact fun hm => (List.nodup_append.1 h).2.2 _ (List.mem_map_of_mem hx) _ hm rfl

/-- What a recomputation leaves of the positions that its limit covers. -/
theorem recompute_covered {s : State} {i : Nat} {r : RunRec} (hr : (s.recompute i).run i = some r) {x : RoutePos}
    (hx : x ∈ (s.routeAhead i).take ((s.reviseMarks i).reach i)) :
    ((s.recompute i).seg x.segment).holder = some i ∧ ((s.reviseMarks i).seg x.segment).withdrawing = none ∧ (s.recompute i).agrees x = true ∧
      (((s.routeAhead i).map (·.segment)).Nodup → ((s.recompute i).seg x.segment).withdrawing = none) := by
  have hu := marks_reviseMarks s i
  obtain ⟨r0, e, -, -⟩ := recompute_of_run hr
  obtain ⟨hh, hw, ha⟩ := between_reach (s.reviseMarks i) i x ((hu.routeAhead i).symm ▸ hx)
  generalize hv : (s.reviseMarks i).setRun i _ = v at e
  have hseg : ∀ n, v.seg n = (s.reviseMarks i).seg n := fun n => by rw [← hv]; rfl
  have hagree : v.agrees x = (s.reviseMarks i).agrees x := by rw [← hv]; rfl
  have hroute : v.trackAhead i = s.trackAhead i := by rw [← hu.trackAhead, ← hv]; rfl
  have hm := marks_withdraw v i ((s.reviseMarks i).reach i)
  rw [e]
  refine ⟨by rw [hm.holder, hseg, hh], hw, by rw [hm.agrees, hagree, ha], fun hn => ?_⟩
  rw [withdraw_seg, hseg, hw]
  intro hb
  obtain ⟨hb, -⟩ := List.mem_filter.1 hb
  rw [hroute, trackAhead_of_mem (List.mem_of_mem_take hx)] at hb
  exact not_mem_drop hn hx hb

/-- Settles O34: the limit recorded covers `reach` positions of the route ahead, which is as it was before the marks were revised. -/
theorem runLimitCoversHeldTrackOnly : Obligations.RunLimitCoversHeldTrackOnly := by
  intro s i forced u t
  have hu : MarksOnly s u := marks_reviseMarks s i
  have hf : s.forced i = true ↔ forced := forced_iff s i
  have huf : forced → u.reach i = 0 := fun h => reach_forced ((hu.forced i).trans (hf.2 h))
  refine ⟨between_reach s i, fun h => reach_forced (hf.2 h), fun r y h hy hr => ?_, (calm_recompute s i).runs i, fun n => reviseMarks_held,
    fun r p hr hp => ⟨u.reach i, (hu.routeAhead i) ▸ reach_le u i, ?_⟩⟩
  · obtain ⟨-, -, hlim, -⟩ := recompute_of_run hr
    rw [hlim, huf h]
    exact limitAt_zero u i y.position (by rw [hu.position]; unfold State.position; rw [hy]; rfl)
  · obtain ⟨-, -, hlim, hceil⟩ := recompute_of_run hr
    have hcreep : (u.extent i (u.reach i)).any u.isCreep = true ↔
        ∃ n ∈ p :: ((s.routeAhead i).take (u.reach i)).map (·.segment), ∃ d, s.decl n = some d ∧ d.speed = .creep := by
      rw [hu.extent, funext hu.isCreep, any_isCreep]
      unfold State.extent
      rw [hp]
      rfl
    refine ⟨?_, fun x hx => recompute_covered hr hx, huf, fun h x hx => ?_, fun h => ?_, fun h hl => ?_, fun h hl => ?_⟩
    · rw [hlim, limitAt_eq ((hu.position i).trans hp), hu.routeAhead]
    · rw [← hu.routeAhead] at hx
      have hnext := reach_next ((hu.forced i).trans (Bool.eq_false_iff.2 (mt hf.1 h))) hx
      rwa [hu.holder, hu.agrees] at hnext
    · exact hceil.trans (ceilingAt_creep (hcreep.2 h))
    · exact hceil.trans (ceilingAt_loaded (mt hcreep.1 h) (by rwa [hu.load]))
    · exact hceil.trans (ceilingAt_travel (mt hcreep.1 h) (by rwa [hu.load]))

/-! ### Withdrawals -/

theorem mark_run (s : State) (t : Nat) (ns : List Nat) (d : Disposition) (i : Nat) : (s.mark t ns d).run i = s.run i := by
  unfold State.run
  rw [mark_runs]

/-- A limit that falls short of the one last sent, with track held beyond it: the marks and the confirmation state, and the work listed (R38, R40). -/
theorem withdraw_short {s : State} {t k : Nat} (hk : k < s.sentReach t) (hb : s.heldBeyond t k ≠ []) :
    ∃ l, s.withdraw t k
      = ((s.mark t (s.heldBeyond t k) (if s.releaseCause t = true then .release else .keep)).setConfirm t .awaitingPoll).emit l := by
  unfold State.withdraw
  dsimp only
  rw [if_pos hk, if_neg hb]
  by_cases hr : s.releaseCause t = true
  · exact ⟨[.reviewJunctions t, .complete t], by simp only [hr, if_true, emit_emit]; rfl⟩
  · exact ⟨[], by simp [hr, State.emit]⟩

/-- A limit that falls short of the one last sent, with no track held beyond it. -/
theorem withdraw_nothing_beyond {s : State} {t k : Nat} (hk : k < s.sentReach t) (hb : s.heldBeyond t k = []) :
    (s.withdraw t k).core = s.core := by
  unfold State.withdraw
  dsimp only
  rw [if_pos hk, if_pos hb]
  split <;> rfl

/-- Where no limit sent reaches beyond the new one and no RELEASE cause stands, KEEP marks are set by the causes that stand (R38, R39). -/
theorem withdraw_kept {s : State} {t k : Nat} (hk : s.sentReach t ≤ k) (hr : s.releaseCause t = false) :
    s.withdraw t k = s.mark t ((s.heldBeyond t k).filter (s.keepCause t)) .keep := by
  unfold State.withdraw
  dsimp only
  rw [if_neg (Nat.not_lt.2 hk), if_neg (by simp [hr]), if_neg (by simp [hr])]

/-- The releases that a withdrawal lists where no limit sent reaches beyond the new one (R38). -/
theorem release_mem_withdraw {s : State} {t k : Nat} (hk : s.sentReach t ≤ k) (hr : s.releaseCause t = true) (n i : Nat) :
    .release n i ∈ (s.withdraw t k).agenda ↔ .release n i ∈ s.agenda ∨
      i = t ∧ n ∈ s.heldBeyond t k ∧ (s.seg n).withdrawing = none ∧ (s.givenUp t = true ∨ (s.seg n).leaving = true) := by
  rw [withdraw_unsent hk hr]
  simp only [emit_agenda, List.mem_append, List.mem_map, List.mem_filter, yieldsAtOnce_iff, Task.release.injEq, List.mem_singleton, reduceCtorEq,
    or_false]
  refine or_congr_right ⟨?_, ?_⟩
  · rintro ⟨a, ha, rfl, rfl⟩
    exact ⟨rfl, ha⟩
  · rintro ⟨rfl, hn⟩
    exact ⟨n, hn, rfl, rfl⟩

/-! ### The confirmation -/

theorem confirmPolled_of_run {s : State} {t : Nat} {r : RunRec} (hr : s.run t = some r) :
    s.confirmPolled t = if r.confirm = .awaitingPoll then s.setRun t (some { r with confirm := .awaitingReply }) else s := by
  unfold State.confirmPolled
  rw [hr]
  dsimp only
  rw [setConfirm_run hr]

theorem confirmMissed_of_run {s : State} {t : Nat} {r : RunRec} (hr : s.run t = some r) :
    s.confirmMissed t = if r.confirm = .awaitingReply then s.setRun t (some { r with confirm := .awaitingPoll }) else s := by
  unfold State.confirmMissed
  rw [hr]
  dsimp only
  rw [setConfirm_run hr]

theorem confirmed_of_run {s : State} {t : Nat} {r : RunRec} (hr : s.run t = some r) :
    s.confirmed t = if r.confirm = .awaitingReply then (s.setRun t (some { r with confirm := .none })).emit [.complete t] else s.emit [.complete t] := by
  unfold State.confirmed
  rw [hr]
  dsimp only
  rw [setConfirm_run hr]

theorem confirm_idle {s : State} {t : Nat} {r : RunRec} (hr : s.run t = some r) (hc : r.confirm ≠ .awaitingReply) : s.confirm t = s := by
  unfold State.confirm
  rw [hr]
  exact if_neg hc

theorem mem_markedRelease {s : State} {t n : Nat} : n ∈ s.markedRelease t ↔ (s.seg n).holder = some t ∧ (s.seg n).withdrawing = some .release := by
  unfold State.markedRelease
  rw [List.mem_filter, decide_eq_true_iff]
  exact and_congr_left fun _ => ⟨fun h => of_decide_eq_true (List.mem_filter.1 h).2, mem_holdings⟩

/-- The releases of a confirmation: the RELEASE-marked segments of the track ahead in its order, and then the others that are not left behind (R40). -/
theorem confirm_answered {s : State} {t : Nat} {r : RunRec} (hr : s.run t = some r) (hc : r.confirm = .awaitingReply) :
    ∃ ahead others : List Nat, s.confirm t = s.emit ((ahead ++ others).map (fun n => .release n t) ++ [.confirmed t]) ∧
      ahead.Sublist ((s.trackAhead t).map (·.segment)) ∧
      (∀ n, n ∈ ahead ↔ n ∈ (s.trackAhead t).map (·.segment) ∧ (s.seg n).holder = some t ∧ (s.seg n).withdrawing = some .release) ∧
      ∀ n, n ∈ others ↔ n ∉ (s.trackAhead t).map (·.segment) ∧ ((s.seg n).holder = some t ∧ (s.seg n).withdrawing = some .release) ∧
        (s.seg n).leaving = false := by
  refine ⟨((s.trackAhead t).map (·.segment)).filter (s.markedRelease t).contains, (s.markedRelease t).filter fun n =>
    !(((s.trackAhead t).map (·.segment)).filter (s.markedRelease t).contains).contains n && !(s.seg n).leaving, ?_, List.filter_sublist,
    fun n => ?_, fun n => ?_⟩
  · unfold State.confirm
    rw [hr]
    exact if_pos hc
  · rw [List.mem_filter, List.contains_iff_mem, mem_markedRelease]
  · rw [List.mem_filter, ← mem_markedRelease]
    simp only [Bool.and_eq_true, Bool.not_eq_true', List.contains_eq_mem, decide_eq_false_iff_not, List.mem_filter, decide_eq_true_iff]
    tauto

theorem marked_nil {s : State} {t : Nat} (h : ∀ m, (s.seg m).holder = some t → (s.seg m).withdrawing = none) : s.marked t = [] := by
  refine List.filter_eq_nil_iff.2 fun m hm => ?_
  rw [h m (of_decide_eq_true (List.mem_filter.1 hm).2)]
  simp

/-- The release of the last marked segment ends the confirmation (R43). -/
theorem release_last_marked {s : State} {n t : Nat} {r : RunRec} (hr : s.run t = some r) (hh : (s.seg n).holder = some t)
    (hw : (s.seg n).withdrawing ≠ none) (hn : ∀ m, m ≠ n → (s.seg m).holder = some t → (s.seg m).withdrawing = none) :
    (s.release n t).run t = some { r with confirm := .none } := by
  have hcore := release_core hh
  dsimp only at hcore
  rw [if_pos (Option.isSome_iff_ne_none.2 hw)] at hcore
  generalize hu : s.setSeg n { s.seg n with holder := none, leaving := false, withdrawing := none } = u at hcore
  have hrun : u.run t = some r := by rw [← hu]; exact hr
  have hmarked : u.marked t = [] := marked_nil fun m hm => by
    subst hu
    rw [setSeg_seg] at hm ⊢
    split
    · rfl
    · next hne => exact hn m hne (by rwa [if_neg hne] at hm)
  unfold State.settleConfirm at hcore
  rw [if_pos hmarked, setConfirm_run hrun] at hcore
  unfold State.run
  rw [hcore]
  exact setRun_run_same u t _

/-- Settles O35: the branches of `withdraw`, and the moves of the confirmation state. -/
theorem withdrawalIsMarkedAndConfirmed : Obligations.WithdrawalIsMarkedAndConfirmed := by
  constructor
  · intro s t k r hr beyond u
    have hheld : ∀ {n}, n ∈ beyond → (s.seg n).holder = some t := heldBeyond_holder
    refine ⟨fun hk hb => ?_, withdraw_nothing_beyond, fun hk hc => ?_, fun hk hc => ?_⟩
    · obtain ⟨l, e⟩ := withdraw_short hk hb
      refine ⟨fun n => ?_, (marks_withdraw s t k).seg_eq, ?_⟩
      · rw [show u = _ from e, emit_seg, setConfirm_seg, mark_seg]
        refine if_congr ⟨fun ⟨h1, _, h2⟩ => ⟨h1, h2⟩, fun ⟨h1, h2⟩ => ⟨h1, hheld h1, h2⟩⟩ ?_ rfl
        split <;> rfl
      · rw [show u = _ from e, emit_run, setConfirm_run ((mark_run s t _ _ t).trans hr), setRun_run_same]
    · intro released
      have hrel := release_mem_withdraw hk hc
      refine ⟨by rw [show u = _ from withdraw_unsent hk hc]; rfl, fun n h => (hrel n t).2 (.inr ⟨rfl, h⟩), fun ha n i h => ?_⟩
      exact ((hrel n i).1 h).resolve_left (by simp [ha])
    · rw [show u = _ from withdraw_kept hk hc]
      refine ⟨fun n => ?_, (marks_mark s t _ _).seg_eq, (mark_run s t _ _ t).trans hr⟩
      rw [mark_seg]
      refine if_congr ⟨fun ⟨h1, _, h3⟩ => ?_, fun ⟨h1, h2, h3⟩ => ⟨List.mem_filter.2 ⟨h1, h2⟩, hheld h1, h3⟩⟩ rfl rfl
      obtain ⟨hb, hk⟩ := List.mem_filter.1 h1
      exact ⟨hb, hk, h3⟩
  · intro s t r hr
    exact
      ⟨fun h => (confirmPolled_of_run hr).trans (if_pos h), fun h => (confirmPolled_of_run hr).trans (if_neg h),
        fun h => (confirmMissed_of_run hr).trans (if_pos h), fun h => (confirmMissed_of_run hr).trans (if_neg h),
        confirm_idle hr, confirm_answered hr,
        fun h => (confirmed_of_run hr).trans (if_pos h), fun h => (confirmed_of_run hr).trans (if_neg h),
        fun n => release_last_marked hr⟩

end Sys2Proof.Proofs
end

section
/-!
PROOFS. The Junction Controller: throws queued, withdrawn and checked, the rest decision, the hold and the prove interval.
-/

namespace Sys2Proof.Proofs

open Sys2Proof Sys2Proof.Machine Sys2Proof.Laws

/-! ### The throw check and the rest decision -/

/-- What R49 asks of a junction whose holder needs the setting `target`. -/
def ThrowWanted (s : State) (j : Nat) (r : JunctionRec) (target : SwitchSetting) : Prop :=
  (s.seg j).withdrawing ≠ some .release ∧ settled r.position = true ∧ r.position ≠ settingPosition target ∧ proveAllowsThrow r.operation = true ∧
    (s.seg j).sensor = .clear

theorem throwCheck_needed {s : State} {j t : Nat} {r : JunctionRec} {target : SwitchSetting} (hh : (s.seg j).holder = some t)
    (hj : s.junction j = some r) (hn : s.neededAt t j = some target) :
    (ThrowWanted s j r target → s.throwCheck j = s.queueThrow j target) ∧ (¬ThrowWanted s j r target → s.throwCheck j = s) := by
  unfold State.throwCheck
  rw [hh, hj]
  dsimp only
  rw [hn]
  exact ⟨fun h => if_pos h, fun h => if_neg h⟩

theorem throwCheck_unneeded {s : State} {j t : Nat} (hh : (s.seg j).holder = some t) (hn : s.neededAt t j = none) : s.throwCheck j = s := by
  unfold State.throwCheck
  rw [hh]
  cases s.junction j with
  | none => rfl
  | some r =>
    dsimp only
    rw [hn]

theorem throwCheck_unheld {s : State} {j : Nat} (hh : (s.seg j).holder = none) : s.throwCheck j = s := by
  unfold State.throwCheck
  rw [hh]

/-- What R54 asks of a junction whose rest position is proved by the setting `target`. -/
def RestWanted (s : State) (j : Nat) (r : JunctionRec) (target : SwitchSetting) : Prop :=
  (s.seg j).holder = none ∧ (s.seg j).queue = [] ∧ r.hold = .expired ∧ r.operation = none ∧ settled r.position = true ∧
    r.position ≠ settingPosition target ∧ (s.seg j).sensor = .clear

theorem restDecision_some {s : State} {j : Nat} {r : JunctionRec} {d : SegDecl} {target : SwitchSetting} (hj : s.junction j = some r)
    (hd : s.decl j = some d) (ht : restSetting d.rest = some target) :
    (RestWanted s j r target → s.restDecision j = s.queueThrow j target) ∧ (¬RestWanted s j r target → s.restDecision j = s) := by
  unfold State.restDecision
  rw [hj, hd]
  dsimp only
  rw [ht]
  exact ⟨fun h => if_pos h, fun h => if_neg h⟩

theorem restDecision_none {s : State} {j : Nat} (h : ∀ d, s.decl j = some d → restSetting d.rest = none) : s.restDecision j = s := by
  unfold State.restDecision
  cases s.junction j with
  | none => rfl
  | some r =>
    cases hd : s.decl j with
    | none => rfl
    | some d =>
      dsimp only
      rw [h d hd]

/-- The rest decision leaves a junction that has no rest position or stands in it (R54). -/
theorem restDecision_resting {s : State} {j : Nat} {r : JunctionRec} (hj : s.junction j = some r)
    (h : ∀ d, s.decl j = some d → d.rest = .none ∨ (restSetting d.rest).map settingPosition = some r.position) : s.restDecision j = s := by
  by_cases hr : ∀ d, s.decl j = some d → restSetting d.rest = none
  · exact restDecision_none hr
  · push Not at hr
    obtain ⟨d, hd, hrest⟩ := hr
    obtain ⟨target, ht⟩ := Option.ne_none_iff_exists'.1 hrest
    refine (restDecision_some hj hd ht).2 fun ⟨_, _, _, _, _, hp, _⟩ => hp ?_
    have hstand := (h d hd).resolve_left fun e => hrest (by rw [e]; rfl)
    rw [ht] at hstand
    exact (Option.some.inj hstand).symm

theorem restSetting_iff (p : RestPosition) (target : SwitchSetting) :
    restSetting p = some target ↔ (p = .normal ∧ target = .normal) ∨ (p = .reverse ∧ target = .reverse) := by
  cases p <;> cases target <;> decide

/-! ### A throw handed to the out-queue -/

theorem commit_sending {s : State} {m : OutMessage} (h : s.wayside.transmitter = .sending m) : s.commit = s := by
  unfold State.commit
  rw [h]

theorem commit_barred {s : State} (h : s.wayside.outQueue.find? s.eligible = none) : s.commit = s := by
  unfold State.commit
  split
  · rfl
  · rw [h]

theorem commit_takes {s : State} {m : OutMessage} (h : s.wayside.transmitter = .idle) (hm : s.wayside.outQueue.find? s.eligible = some m) :
    s.commit = ((s.setOutQueue (eraseFirst s.eligible s.wayside.outQueue)).setTransmitter (.sending m)).transmitted m := by
  unfold State.commit
  rw [h]
  dsimp only
  rw [hm]

theorem operationSent_some {s : State} {j : Nat} {r : JunctionRec} {op : Operation} (hj : s.junction j = some r) (ho : r.operation = some op) :
    s.operationSent j = s.setJunction j (some { r with operation := some { op with phase := .sent, timer := .running s.port.params.throwTimeout } }) := by
  unfold State.operationSent
  rw [hj]
  dsimp only
  rw [ho]
  rfl

/-- A throw is eligible exactly where no hold bars it (R169). -/
theorem find_throw (s : State) (j : Nat) (target : SwitchSetting) :
    [OutMessage.throw j target].find? s.eligible = if s.transmissionBarred = true then none else some (.throw j target) := by
  cases h : s.transmissionBarred <;> simp [State.eligible, h]

/-- A throw handed to a port that sends another message waits in the out-queue (R178). -/
theorem handOut_sending {s : State} {m : OutMessage} (h : s.wayside.transmitter = .sending m) (x : OutMessage) :
    s.handOut x = s.setOutQueue (placeOut s.wayside.outQueue x) :=
  commit_sending (s := s.setOutQueue _) h

/-- A throw handed to a port with nothing waiting is kept by a hold. -/
theorem handOut_throw_barred {s : State} {j : Nat} {target : SwitchSetting} (hq : s.wayside.outQueue = []) (hb : s.transmissionBarred = true) :
    s.handOut (.throw j target) = s.setOutQueue [.throw j target] := by
  unfold State.handOut
  rw [hq]
  exact commit_barred (s := s.setOutQueue [.throw j target]) ((find_throw _ j target).trans (if_pos hb))

/-- A throw handed to an IDLE port with nothing waiting and no hold is transmitted at once, and its timer starts (R50, R178, R180). -/
theorem handOut_throw_sent {s : State} {j : Nat} {r : JunctionRec} {op : Operation} {target : SwitchSetting} (ht : s.wayside.transmitter = .idle)
    (hq : s.wayside.outQueue = []) (hb : s.transmissionBarred = false) (hj : s.junction j = some r) (ho : r.operation = some op) :
    s.handOut (.throw j target) = ((s.setOutQueue []).setTransmitter (.sending (.throw j target))).setJunction j
      (some { r with operation := some { op with phase := .sent, timer := .running s.port.params.throwTimeout } }) := by
  have hfind : [OutMessage.throw j target].find? (s.setOutQueue [.throw j target]).eligible = some (.throw j target) :=
    (find_throw _ j target).trans (if_neg (Bool.eq_false_iff.1 hb))
  have helig : (s.setOutQueue [.throw j target]).eligible (.throw j target) = true := List.find?_some hfind
  have herase : eraseFirst (s.setOutQueue [.throw j target]).eligible [.throw j target] = [] := by
    unfold eraseFirst
    exact if_pos helig
  unfold State.handOut
  rw [hq]
  exact (commit_takes (s := s.setOutQueue [.throw j target]) ht hfind).trans (by
    rw [show (s.setOutQueue [.throw j target]).wayside.outQueue = [.throw j target] from rfl, herase]
    exact operationSent_some (s := ((s.setOutQueue [.throw j target]).setOutQueue []).setTransmitter (.sending (.throw j target))) hj ho)

/-! ### A throw queued -/

/-- A junction's record with a throw queued (R50). -/
def throwQueued (r : JunctionRec) (target : SwitchSetting) : JunctionRec :=
  { r with position := .moving, operation := some ⟨.throw target r.position, .queued, .stopped⟩, untrusted := false, underHolder := false }

/-- What the out-queue is handed a throw in (R50). -/
def beforeThrow (s : State) (j : Nat) (r : JunctionRec) (target : SwitchSetting) : State :=
  (s.rotationEnds r.operation).setJunction j (some (throwQueued r target))

theorem beforeThrow_junction (s : State) (j : Nat) (r : JunctionRec) (target : SwitchSetting) :
    (beforeThrow s j r target).junction j = some (throwQueued r target) := setJunction_junction_same _ _ _

theorem beforeThrow_same (s : State) (j : Nat) (r : JunctionRec) (target : SwitchSetting) :
    (beforeThrow s j r target).wayside = s.wayside ∧ (beforeThrow s j r target).transmissionBarred = s.transmissionBarred ∧
      (beforeThrow s j r target).port = s.port ∧ (beforeThrow s j r target).core = s.core ∧ (beforeThrow s j r target).orders = s.orders := by
  obtain ⟨hw, hg, hh, hc, ho, hp, -, -⟩ := rotationEnds_same s r.operation
  refine ⟨hw, ?_, hp, hc, ho⟩
  show (s.rotationEnds r.operation).transmissionBarred = _
  unfold State.transmissionBarred State.holdActive
  rw [hg, hh]

/-- A throw queued is a throw handed out, and the holder told. -/
theorem queueThrow_eq {s : State} {j : Nat} {r : JunctionRec} (hj : s.junction j = some r) (target : SwitchSetting) :
    s.queueThrow j target = ((beforeThrow s j r target).handOut (.throw j target)).tellHolder j := queueThrow_some hj target

theorem queueThrow_junction {s : State} {j : Nat} {r : JunctionRec} (hj : s.junction j = some r) (target : SwitchSetting) :
    (s.queueThrow j target).junction j = ((beforeThrow s j r target).handOut (.throw j target)).junction j := by
  unfold State.junction
  rw [queueThrow_eq hj, (tellHolder_same _ j).1]

theorem queueThrow_wayside {s : State} {j : Nat} {r : JunctionRec} (hj : s.junction j = some r) (target : SwitchSetting) :
    (s.queueThrow j target).wayside = ((beforeThrow s j r target).handOut (.throw j target)).wayside := by
  rw [queueThrow_eq hj, (tellHolder_same _ j).2.1]

/-- A throw queued while another message is sent. -/
theorem queueThrow_sending {s : State} {j : Nat} {r : JunctionRec} {m : OutMessage} (hj : s.junction j = some r) (target : SwitchSetting)
    (ht : s.wayside.transmitter = .sending m) :
    (s.queueThrow j target).junction j = some (throwQueued r target) ∧
      (s.queueThrow j target).wayside = { s.wayside with outQueue := placeOut s.wayside.outQueue (.throw j target) } := by
  obtain ⟨hw, -⟩ := beforeThrow_same s j r target
  rw [queueThrow_junction hj, queueThrow_wayside hj, handOut_sending (hw ▸ ht), ← hw]
  exact ⟨beforeThrow_junction s j r target, rfl⟩

/-- A throw queued that a hold bars. -/
theorem queueThrow_barred {s : State} {j : Nat} {r : JunctionRec} (hj : s.junction j = some r) (target : SwitchSetting)
    (hq : s.wayside.outQueue = []) (hb : s.transmissionBarred = true) :
    (s.queueThrow j target).junction j = some (throwQueued r target) ∧
      (s.queueThrow j target).wayside = { s.wayside with outQueue := [.throw j target] } := by
  obtain ⟨hw, hbar, -⟩ := beforeThrow_same s j r target
  rw [queueThrow_junction hj, queueThrow_wayside hj, handOut_throw_barred (hw ▸ hq) (hbar ▸ hb), ← hw]
  exact ⟨beforeThrow_junction s j r target, rfl⟩

/-- A throw queued that is sent at once. -/
theorem queueThrow_sent {s : State} {j : Nat} {r : JunctionRec} (hj : s.junction j = some r) (target : SwitchSetting)
    (ht : s.wayside.transmitter = .idle) (hq : s.wayside.outQueue = []) (hb : s.transmissionBarred = false) :
    (s.queueThrow j target).junction j = some { throwQueued r target with
        operation := some ⟨.throw target r.position, .sent, .running s.port.params.throwTimeout⟩ } ∧
      (s.queueThrow j target).wayside = { s.wayside with outQueue := [], transmitter := .sending (.throw j target) } := by
  obtain ⟨hw, hbar, hp, -⟩ := beforeThrow_same s j r target
  rw [queueThrow_junction hj, queueThrow_wayside hj,
    handOut_throw_sent (hw ▸ ht) (hw ▸ hq) (hbar ▸ hb) (beforeThrow_junction s j r target) rfl, setJunction_junction_same, hp, ← hw]
  exact ⟨rfl, rfl⟩

/-- What a throw queued leaves, and what it lists: the interval timer of a rotation PROVE that it ends, and the holder's limit. -/
theorem queueThrow_same {s : State} {j : Nat} {r : JunctionRec} (hj : s.junction j = some r) (target : SwitchSetting) :
    (isRotation r.operation = true → (s.queueThrow j target).junctions.interval = .running s.port.params.proveInterval) ∧
    (∀ t, (s.seg j).holder = some t → .recompute t ∈ (s.queueThrow j target).agenda) ∧
    (s.queueThrow j target).core = s.core ∧ (s.queueThrow j target).orders = s.orders := by
  obtain ⟨-, -, -, hc, ho⟩ := beforeThrow_same s j r target
  have hwork := switchWork_handOut (beforeThrow s j r target) (.throw j target)
  obtain ⟨hjun, -, hcore, horders, hlist⟩ := tellHolder_same ((beforeThrow s j r target).handOut (.throw j target)) j
  rw [queueThrow_eq hj]
  refine ⟨fun hrot => ?_, fun t ht => hlist t ?_, hcore.trans (hwork.core.trans hc), horders.trans (hwork.orders.trans ho)⟩
  · obtain ⟨-, -, -, -, -, -, -, hint⟩ := rotationEnds_same s r.operation
    rw [hjun]
    exact (commit_interval _).trans (hint hrot)
  · unfold State.seg at ht ⊢
    rwa [hwork.core, hc]

/-! ### A throw withdrawn -/

/-- What the withdrawal of a queued throw leaves in the records, and what it lists (R51). -/
theorem withdrawThrow_queued {s : State} {j : Nat} {r : JunctionRec} {target : SwitchSetting} {prior : SwitchPosition} {x : Timer}
    (hj : s.junction j = some r) (ho : r.operation = some ⟨.throw target prior, .queued, x⟩) :
    (s.withdrawThrow j).junction j = some { r with position := prior, operation := none } ∧
    (s.withdrawThrow j).wayside.outQueue = s.wayside.outQueue.filter (fun m => decide (outObject m ≠ .junction j)) ∧
    .throwCheck j ∈ (s.withdrawThrow j).agenda ∧ .restDecision j ∈ (s.withdrawThrow j).agenda ∧
    (∀ t, (s.seg j).holder = some t → .recompute t ∈ (s.withdrawThrow j).agenda) ∧
    (s.withdrawThrow j).core = s.core ∧ (s.withdrawThrow j).orders = s.orders := by
  refine ⟨?_, ?_, ?_, ?_, fun t ht => ?_, withdrawThrow_core s j, (withdrawThrow_same s j).1⟩ <;> rw [withdrawThrow_some hj ho]
  · unfold State.junction
    rw [emit_junctions, (tellHolder_same _ j).1]
    exact setJunction_junction_same _ j _
  · rw [emit_wayside, (tellHolder_same _ j).2.1]
    exact List.filter_congr fun m _ => by simp
  · simp
  · simp
  · exact List.mem_append_left _ ((tellHolder_same _ j).2.2.2.2 t ht)

/-- A junction's record written, and then a throw queued in it withdrawn. -/
theorem setJunction_withdrawThrow {s : State} {j : Nat} {r : JunctionRec} {target : SwitchSetting} {prior : SwitchPosition} {x : Timer}
    (ho : r.operation = some ⟨.throw target prior, .queued, x⟩) :
    ((s.setJunction j (some r)).withdrawThrow j).junction j = some { r with position := prior, operation := none } :=
  (withdrawThrow_queued (setJunction_junction_same s j _) ho).1

/-- A junction's record written in which no throw is queued. -/
theorem setJunction_withdrawThrow_none {s : State} {j : Nat} {r : JunctionRec}
    (ho : ∀ target prior x, r.operation ≠ some ⟨.throw target prior, .queued, x⟩) :
    ((s.setJunction j (some r)).withdrawThrow j).junction j = some r := by
  rw [withdrawThrow_none (setJunction_junction_same s j _) ho, setJunction_junction_same]

/-- The Controller told of a release (R28, R53). -/
theorem junctionReleased_some {s : State} {j : Nat} {r : JunctionRec} (hj : s.junction j = some r) :
    s.junctionReleased j = (s.setJunction j (some { r with
      hold := (if s.port.params.holdTime = 0 then .expired else .running s.port.params.holdTime), underHolder := false })).withdrawThrow j := by
  unfold State.junctionReleased
  rw [hj]
  rfl

/-- Whether the operation is a PROVE. -/
def isProve (op : Option Operation) : Bool :=
  match op with
  | some ⟨.prove _, _, _⟩ => true
  | _ => false

/-- The Controller told of a grant (R51, R53, R57). -/
theorem junctionGranted_junction {s : State} {j : Nat} {r : JunctionRec} (hj : s.junction j = some r) :
    (s.junctionGranted j).junction j
      = ((s.setJunction j (some { r with hold := .expired, untrusted := isProve r.operation, underHolder := false })).withdrawThrow j).junction j := by
  unfold State.junctionGranted
  rw [hj]
  rfl

theorem dropUnneededThrow_queued {s : State} {t j : Nat} {r : JunctionRec} {target : SwitchSetting} {prior : SwitchPosition} {x : Timer}
    (hj : s.junction j = some r) (ho : r.operation = some ⟨.throw target prior, .queued, x⟩) :
    s.dropUnneededThrow t j = if s.neededAt t j = some target ∧ (s.seg j).withdrawing ≠ some .release then s else s.withdrawThrow j := by
  unfold State.dropUnneededThrow
  rw [hj]
  dsimp only
  rw [ho]

theorem dropUnneededThrow_none {s : State} {t j : Nat} {r : JunctionRec} (hj : s.junction j = some r)
    (ho : ∀ target prior x, r.operation ≠ some ⟨.throw target prior, .queued, x⟩) : s.dropUnneededThrow t j = s := by
  unfold State.dropUnneededThrow
  rw [hj]
  dsimp only
  split
  · next h => exact absurd h (ho _ _ _)
  · rfl

/-! ### The hold and the prove interval -/

/-- A junction's record written with its position and operation as they stand leaves the rotation nothing to do (R55). -/
theorem settled_setJunction_hold {s : State} (h : s.Settled) (hc : s.canonical) {j : Nat} {r : JunctionRec} (hj : s.junction j = some r)
    (x : JunctionHold) : (s.setJunction j (some { r with hold := x })).Settled := by
  have hread : ∀ m r', (s.setJunction j (some { r with hold := x })).junction m = some r' →
      ∃ r0, s.junction m = some r0 ∧ r'.position = r0.position ∧ r'.operation = r0.operation := by
    intro m r' hm
    rw [setJunction_junction] at hm
    split at hm
    · next e => cases hm; exact ⟨r, e ▸ hj, rfl, rfl⟩
    · exact ⟨r', hm, rfl, rfl⟩
  have hc' : (s.setJunction j (some { r with hold := x })).canonical :=
    (calm_setJunction s j (by rw [hj]; exact station_aside r _ rfl rfl)).canonical hc
  refine ⟨h.agenda, h.due, h.transfers, fun hint hidle => ?_⟩
  rw [rotationIdle_iff hc'] at hidle
  have hnone := h.rotation hint ((rotationIdle_iff hc).2 fun m r0 hm => by
    by_cases e : m = j
    · subst e
      rw [hj] at hm
      cases hm
      exact hidle m { r with hold := x } (setJunction_junction_same s m _)
    · exact hidle m r0 (by rw [setJunction_junction, if_neg e, hm]))
  rw [rotationNext_none] at hnone ⊢
  intro m r' hm
  obtain ⟨r0, h0, hp, ho⟩ := hread m r' hm
  have := hnone m r0 h0
  unfold State.rotationEligible at this ⊢
  rw [hp, ho]
  exact this

theorem holdExpiry_running {s : State} {j time : Nat} {r : JunctionRec} (hj : s.junction j = some r) (hh : r.hold = .running time) :
    s.holdExpiry j = (s.setJunction j (some { r with hold := .expired })).emit [.restDecision j] := by
  unfold State.holdExpiry
  rw [hj]
  dsimp only
  rw [hh]

/-- An event whose own edit lists one task, which leaves the blocks nothing to do. -/
theorem runEvent_once {act : State → State} {s e t : State} {x : Machine.Task} (hact : act s = e.emit [x]) (he : e.Settled) (hp : e.pending = s.pending)
    (hx : runTask x e = t) (ht : t.Settled) (htp : t.pending = e.pending) : runEvent act s = t.decideAttention := by
  have hw : workOff (e.emit [x]) = t := by
    refine workOff_once (x := x) (by simp [he.agenda]) ?_ ht
    rw [← hx, ← show e = { e.emit [x] with agenda := [] } by rw [← he.agenda]; rfl]
  unfold runEvent closeEvent
  rw [hact, hw, ← hp, ← htp]
  rfl

/-- Where only the rotation is left to do, an event's work is the rotation (R55). -/
theorem workOff_rotation {s : State} (ha : s.agenda = []) (hd : s.due = []) (ht : slots.find? s.mayTransfer = none) : workOff s = s.rotation := by
  have hb : Config.eventBound = 99997 + 1 + 1 + 1 := rfl
  have h0 : ({ s with agenda := [] } : State) = s := by rw [← ha]
  have hextend : runTask .extend { s with agenda := [] } = s := by rw [h0]; exact extend_settled hd
  have htransfers : runTask .startTransfers { s with agenda := [] } = s := by rw [h0]; exact startTransfers_settled ht
  have hrotation : runTask .rotation { s with agenda := [] } = s.rotation := by rw [h0]; rfl
  have hempty : s.rotation.agenda = [] := (switchWork_rotation s).agenda.trans ha
  unfold workOff
  rw [hb, settle_cons _ (s := s.emit _) (x := .extend) (rest := [.startTransfers, .rotation]) (by simp [ha]),
    settleOne_cons (x := .extend) (rest := [.startTransfers, .rotation]) (by simp [ha]) (by exact hextend),
    settle_cons _ (x := .startTransfers) (rest := [.rotation]) (by simp [ha]),
    settleOne_cons (x := .startTransfers) (rest := [.rotation]) (by simp [ha]) (by exact htransfers),
    settle_cons _ (x := .rotation) (rest := []) (by simp [ha]),
    settleOne_cons (x := .rotation) (rest := []) (by simp [ha]) (by exact hrotation),
    settle_nil _ (by simp [hempty]), List.append_nil]

/-- A junction's record with a rotation PROVE recorded (R55). -/
def proveQueued (r : JunctionRec) : JunctionRec := { r with operation := some ⟨.prove .rotation, .queued, .stopped⟩ }

/-- What the out-queue is handed a rotation PROVE in (R55). -/
def beforeProve (s : State) (j : Nat) (r : JunctionRec) : State := (s.setJunction j (some (proveQueued r))).setPointer (some j)

theorem beforeProve_junction (s : State) (j : Nat) (r : JunctionRec) : (beforeProve s j r).junction j = some (proveQueued r) :=
  setJunction_junction_same s j (some (proveQueued r))

theorem rotation_next {s : State} {j : Nat} {r : JunctionRec} (hi : s.junctions.interval = .stopped)
    (hidle : (s.junctions.recs.all fun e => match e.2 with | some r => !isRotation r.operation | none => true) = true)
    (hn : s.rotationNext = some j) (hj : s.junction j = some r) : s.rotation = (beforeProve s j r).handOut (.prove j) := by
  unfold State.rotation
  rw [if_pos ⟨hi, hidle⟩, hn]
  dsimp only
  rw [hj]
  rfl

theorem commit_pointer (s : State) : s.commit.junctions.pointer = s.junctions.pointer := by
  unfold State.commit State.transmitted State.operationSent
  dsimp only
  (repeat' split) <;> rfl

/-- A PROVE handed out stands recorded, in whatever phase, and its junction stands where it stood. -/
theorem handOut_prove_junction (s : State) {j : Nat} {r : JunctionRec} (hj : s.junction j = some r) (m : OutMessage) :
    ∃ r', (s.handOut m).junction j = some r' ∧ r'.position = r.position ∧ isRotation r'.operation = isRotation r.operation := by
  have hkept := (calm_handOut s m).stations j
  rw [hj] at hkept
  cases h : (s.handOut m).junction j with
  | none => rw [h] at hkept; exact hkept.elim
  | some r' =>
    obtain ⟨r0, h0, -, hrot, hpos⟩ := commit_junction (s.setOutQueue (placeOut s.wayside.outQueue m)) j r' h
    obtain rfl : r = r0 := Option.some.inj (hj.symm.trans h0)
    exact ⟨r', rfl, hpos, hrot⟩

/-- What a commit writes: the port, the junctions' operations and, for a COUPLE of a SEATED pad, the pad's coupling (R180). -/
theorem commit_writes (s : State) : ∃ w c x, s.commit = { s with wayside := w, junctions := c, transfer := x } ∧
    (x = s.transfer ∨ ∃ p y, (s.pad p).state = .seated ∧ x = (s.setPad p { s.pad p with coupling := .sent, couplingTimer := y }).transfer) := by
  unfold State.commit
  split
  · exact ⟨_, _, _, rfl, .inl rfl⟩
  · split
    · exact ⟨_, _, _, rfl, .inl rfl⟩
    · next m _ =>
      have sent : ∀ (u : State) (j : Nat), ∃ c, u.operationSent j = { u with junctions := c } := by
        intro u j
        unfold State.operationSent
        (repeat' split) <;> exact ⟨_, rfl⟩
      cases m with
      | throw j target =>
        obtain ⟨c, hc⟩ := sent ((s.setOutQueue (eraseFirst s.eligible s.wayside.outQueue)).setTransmitter (.sending (.throw j target))) j
        exact ⟨_, c, _, hc, .inl rfl⟩
      | prove j =>
        obtain ⟨c, hc⟩ := sent ((s.setOutQueue (eraseFirst s.eligible s.wayside.outQueue)).setTransmitter (.sending (.prove j))) j
        exact ⟨_, c, _, hc, .inl rfl⟩
      | uncouple p => exact ⟨_, _, _, rfl, .inl rfl⟩
      | couple p =>
        unfold State.transmitted
        dsimp only
        split
        · next hs => exact ⟨_, _, _, rfl, .inr ⟨p, _, hs, rfl⟩⟩
        · exact ⟨_, _, _, rfl, .inl rfl⟩

/-- Beside the port and the junctions, a message handed out leaves what calm work leaves. -/
theorem handOut_calm_beside (s : State) (m : OutMessage) :
    Calm { s with junctions := (s.handOut m).junctions, wayside := (s.handOut m).wayside } (s.handOut m) := by
  obtain ⟨w, c, x, he, hx⟩ := commit_writes (s.setOutQueue (placeOut s.wayside.outQueue m))
  rw [show s.handOut m = _ from he]
  rcases hx with rfl | ⟨p, y, hs, rfl⟩
  · exact .refl _
  · exact calm_setPad { s with junctions := c, wayside := w } p rfl (fun h => h) (fun _ h => h) fun _ => .inr ⟨hs, y, rfl⟩

/-- The work of an interval's expiry in which a junction is proved (R55). -/
theorem proveInterval_proves {s : State} {time j : Nat} {r : JunctionRec} (hs : s.Settled) (hi : s.junctions.interval = .running time)
    (hidle : (s.junctions.recs.all fun e => match e.2 with | some r => !isRotation r.operation | none => true) = true)
    (hn : s.rotationNext = some j) (hj : s.junction j = some r) :
    exec .proveIntervalExpiry s = .next (closeEvent s.pending ((beforeProve (s.setInterval .stopped) j r).handOut (.prove j))) := by
  have hact : s.intervalExpiry = s.setInterval .stopped := by
    unfold State.intervalExpiry
    rw [hi]
  have hwork : workOff (s.setInterval .stopped) = (s.setInterval .stopped).rotation := workOff_rotation hs.agenda hs.due hs.transfers
  show Host.Outcome.next (closeEvent s.pending (workOff s.intervalExpiry)) = _
  rw [hact, hwork, rotation_next (s := s.setInterval .stopped) rfl hidle hn hj]

/-! ### The clauses of O27 -/

/-- The hold time of a released junction passes (R53, R54). -/
theorem junctionHoldExpiry_clauses {s : State} {j time : Nat} {r : JunctionRec} (hs : s.Settled) (hj : s.junction j = some r)
    (hh : r.hold = .running time) :
    (s.canonical → (∀ d, s.decl j = some d → d.rest = .none ∨ (restSetting d.rest).map settingPosition = some r.position) →
      exec (.junctionHoldExpiry j) s = .next (s.setJunction j (some { r with hold := .expired })).decideAttention) ∧
    (∀ d target, s.canonical → s.decl j = some d → restSetting d.rest = some target → r.position = .normal ∨ r.position = .reverse ∨ r.position = .unknown →
      r.position ≠ settingPosition target → (s.seg j).holder = none → (s.seg j).queue = [] → r.operation = none → (s.seg j).sensor = .clear →
      exec (.junctionHoldExpiry j) s = .next (State.decideAttention ((s.setJunction j (some { r with hold := .expired })).queueThrow j target))) ∧
    (∃ t, exec (.junctionHoldExpiry j) s = .next t ∧ Calm (s.setJunction j (some { r with hold := .expired })) t) := by
  have hact := holdExpiry_running hj hh
  have hrec : (s.setJunction j (some { r with hold := .expired })).junction j = some { r with hold := .expired } := setJunction_junction_same s j _
  refine ⟨fun hc hd => ?_, fun d target hc hd ht hp hne hfree hq ho hclear => ?_, ?_⟩
  · have he := settled_setJunction_hold hs hc hj .expired
    exact congrArg _ (runEvent_once (act := fun s => s.holdExpiry j) (x := .restDecision j) hact he rfl (restDecision_resting hrec hd) he rfl)
  · have he := settled_setJunction_hold hs hc hj .expired
    have hce : (s.setJunction j (some { r with hold := .expired })).canonical :=
      (calm_setJunction s j (by rw [hj]; exact station_aside r _ rfl rfl)).canonical hc
    have hset : settled r.position = true := by rcases hp with h | h | h <;> rw [h] <;> rfl
    have hqueue := (restDecision_some hrec hd ht).1 ⟨hfree, hq, rfl, ho, hset, hne, hclear⟩
    refine congrArg _ (runEvent_once (act := fun s => s.holdExpiry j) (x := .restDecision j) hact he rfl hqueue (settled_queueThrow he hce hrec ho hset hfree target) ?_)
    exact (calm_queueThrow _ j target fun r' hr' => by
      obtain rfl := Option.some.inj (hrec.symm.trans hr')
      exact ⟨hset, by rw [show ({ r with hold := .expired } : JunctionRec).operation = none from ho]; rfl⟩).pending
  · have hemit : Calm (s.setJunction j (some { r with hold := .expired })) (s.holdExpiry j) := by
      rw [hact]
      exact calm_emit _ (by simp [inReport])
    refine ⟨_, rfl, hemit.trans (calm_runEvent (fun s => s.holdExpiry j) s hemit.pending ?_)⟩
    exact noReport_kept hemit.toKept (noReport_of_empty hs.agenda)

/-- The prove interval passes (R55). -/
theorem proveIntervalExpiry_clauses {s : State} {time : Nat} (hs : s.Settled) (hi : s.junctions.interval = .running time) :
    (∀ j r, (s.junctions.recs.all fun e => match e.2 with | some r => !isRotation r.operation | none => true) = true →
      s.rotationNext = some j → s.junction j = some r →
      ∃ t r', exec .proveIntervalExpiry s = .next t ∧ t.junctions.interval = .stopped ∧ t.junctions.pointer = some j ∧
        t.junction j = some r' ∧ r'.position = r.position ∧ isRotation r'.operation = true ∧ (s.seg j).holder = none ∧
        Calm { s with junctions := t.junctions, wayside := t.wayside } t) ∧
    (s.rotationNext = none →
      exec .proveIntervalExpiry s = .next (State.decideAttention { s with junctions := { s.junctions with interval := .stopped } })) := by
  constructor
  · intro j r hidle hn hj
    obtain ⟨r', hr', hpos, hrot⟩ := handOut_prove_junction _ (beforeProve_junction (s.setInterval .stopped) j r) (.prove j)
    have helig := rotationNext_eligible hn hj
    simp only [State.rotationEligible, Bool.and_eq_true, decide_eq_true_iff] at helig
    obtain ⟨⟨hfree, -⟩, -⟩ := helig
    refine ⟨_, r', proveInterval_proves hs hi hidle hn hj, commit_interval _, commit_pointer _, hr', hpos, hrot, hfree, ?_⟩
    have hbeside := handOut_calm_beside (beforeProve (s.setInterval .stopped) j r) (.prove j)
    exact hbeside.trans (calm_closeEvent _ _ hbeside.pending)
  · intro hn
    have hact : s.intervalExpiry = s.setInterval .stopped := by
      unfold State.intervalExpiry
      rw [hi]
    have hset : s.intervalExpiry.Settled := hact ▸ ⟨hs.agenda, hs.due, hs.transfers, fun _ _ => hn⟩
    refine congrArg _ ((runEvent_settled hset (by rw [hact]; rfl)).trans ?_)
    rw [hact]
    rfl

/-- Settles O27: the expiries, the throw check, the rest decision, and what queueing and withdrawing a throw leave. -/
theorem junctionHoldsProvesAndThrows : Obligations.JunctionHoldsProvesAndThrows := by
  refine ⟨fun s j time r => junctionHoldExpiry_clauses, fun s time => proveIntervalExpiry_clauses, ?_, fun s j => throwCheck_unheld, ?_, ?_, ?_⟩
  · intro s j t r hh hj stands free needs
    have hwant : ∀ target, needs target ↔ s.neededAt t j = some target ∧ ThrowWanted s j r target := fun target => by
      show _ ∧ _ ∧ _ ∧ _ ∧ _ ↔ _ ∧ _ ∧ _ ∧ _ ∧ _ ∧ _
      rw [show free ↔ proveAllowsThrow r.operation = true from (proveAllows_iff _).symm,
        show stands target ↔ settled r.position = true ∧ r.position ≠ settingPosition target from (stands_iff _ _).symm, and_assoc]
    constructor
    · intro target h
      obtain ⟨hn, hw⟩ := (hwant target).1 h
      exact (throwCheck_needed hh hj hn).1 hw
    · intro h
      cases hn : s.neededAt t j with
      | none => exact throwCheck_unneeded hh hn
      | some target => exact (throwCheck_needed hh hj hn).2 fun hw => h target ((hwant target).2 ⟨hn, hw⟩)
  · intro s j r d hj hd stands rests
    have hwant : ∀ target, rests target ↔ restSetting d.rest = some target ∧ RestWanted s j r target := fun target => by
      show _ ∧ _ ∧ _ ∧ _ ∧ _ ∧ _ ∧ _ ↔ _ ∧ _ ∧ _ ∧ _ ∧ _ ∧ _ ∧ _ ∧ _
      rw [restSetting_iff,
        show stands target ↔ settled r.position = true ∧ r.position ≠ settingPosition target from (stands_iff _ _).symm, and_assoc]
    constructor
    · intro target h
      obtain ⟨ht, hw⟩ := (hwant target).1 h
      exact (restDecision_some hj hd ht).1 hw
    · intro h
      cases ht : restSetting d.rest with
      | none => 
        refine restDecision_none fun d' hd' => ?_
        obtain rfl := Option.some.inj (hd.symm.trans hd')
        exact ht
      | some target => exact (restDecision_some hj hd ht).2 fun hw => h target ((hwant target).2 ⟨ht, hw⟩)
  · intro s j target r hj u thrown
    obtain ⟨hint, hlist, hcore, horders⟩ := queueThrow_same hj target
    refine ⟨fun m ht => ?_, fun ht hq hb => ?_, fun ht hq hb => ?_, hint, hlist, hcore, horders⟩
    · obtain ⟨h1, h2⟩ := queueThrow_sending hj target ht
      exact ⟨h1, congrArg (·.outQueue) h2, congrArg (·.transmitter) h2⟩
    · obtain ⟨h1, h2⟩ := queueThrow_sent hj target ht hq hb
      exact ⟨h1, congrArg (·.outQueue) h2, congrArg (·.transmitter) h2⟩
    · obtain ⟨h1, h2⟩ := queueThrow_barred hj target hq hb
      exact ⟨h1, congrArg (·.outQueue) h2, (congrArg (·.transmitter) h2).trans ht⟩
  · intro s j r hj
    constructor
    · intro target prior x ho back
      refine ⟨withdrawThrow_queued hj ho, ?_, ?_, fun t hn hw => ?_, fun t hn => ?_⟩
      · rw [junctionReleased_some hj]
        exact setJunction_withdrawThrow (by exact ho)
      · rw [junctionGranted_junction hj, show isProve r.operation = false by rw [ho]; rfl]
        exact setJunction_withdrawThrow (by exact ho)
      · exact (dropUnneededThrow_queued hj ho).trans (if_pos ⟨hn, hw⟩)
      · exact (dropUnneededThrow_queued hj ho).trans (if_neg (by tauto))
    · intro ho
      refine ⟨withdrawThrow_none hj ho, fun t => dropUnneededThrow_none hj ho, ?_, ?_⟩
      · rw [junctionReleased_some hj]
        exact setJunction_withdrawThrow_none ho
      · rw [junctionGranted_junction hj]
        exact setJunction_withdrawThrow_none ho

end Sys2Proof.Proofs
end

section
/-!
PROOFS. Reports of a position, and releases, serving and the SENSOR messages that set them off.
-/

namespace Sys2Proof.Proofs

open Sys2Proof Sys2Proof.Machine Sys2Proof.Laws

/-! ### The leaving marks and the track run onto -/

/-- Which segments have their leaving mark after a report that moves a transporter to `n` (R31). -/
theorem setLeaving_leaving_iff (s : State) (ns : List Nat) {n x : Nat} (h : x ≠ n) :
    ((s.setLeaving ns n).seg x).leaving = true ↔ (s.seg x).leaving = true ∨ x ∈ ns := by
  rw [setLeaving_seg]
  simp [h]

theorem overrun_unmarked {s : State} {t n : Nat} {track : List Nat} (h : (s.seg n).withdrawing = none) : s.overrun t n track = s := by
  unfold State.overrun
  exact if_neg (by simp [h])

/-- The marks after a report of a position on a withdrawing segment (R41). -/
theorem overrun_withdrawing {s : State} {t n : Nat} {track : List Nat} (h : (s.seg n).withdrawing ≠ none) (x : Nat) :
    ((s.overrun t n track).seg x).withdrawing =
      if (x = n ∨ x ∈ (if n ∈ track then track.takeWhile fun y => decide (y ≠ n) else [])) ∧ (s.seg x).holder = some t then none
      else (s.seg x).withdrawing := by
  unfold State.overrun
  dsimp only
  rw [if_pos (Option.isSome_iff_ne_none.2 h), settleConfirm_seg, unmark_seg]
  refine if_congr ?_ rfl rfl
  rw [List.mem_filter, List.mem_cons]
  exact and_congr_right fun _ => decide_eq_true_iff

/-- What a report of a position on a withdrawing segment does to one segment: those run over lose their marks, and no other changes (R41). -/
theorem overrun_clears {s : State} {t n : Nat} {track : List Nat} (h : (s.seg n).withdrawing ≠ none) (x : Nat) :
    ((s.seg x).holder = some t ∧ (x = n ∨ ∃ a b, track = a ++ n :: b ∧ n ∉ a ∧ x ∈ a) → ((s.overrun t n track).seg x).withdrawing = none) ∧
    (¬((s.seg x).holder = some t ∧ (x = n ∨ ∃ a b, track = a ++ n :: b ∧ n ∉ a ∧ x ∈ a)) → (s.overrun t n track).seg x = s.seg x) := by
  have hmark := overrun_withdrawing (track := track) (t := t) h x
  constructor
  · rintro ⟨hh, hx⟩
    rw [hmark, if_pos ⟨hx.imp_right (before_iff track n x).2, hh⟩]
  · intro hx
    rw [if_neg fun ⟨hx', hh⟩ => hx ⟨hh, hx'.imp_right (before_iff track n x).1⟩] at hmark
    rw [(marks_overrun s t n track).segs x, hmark]

/-! ### The cursor -/

/-- The states of an order whose cursor a report moves (R73). -/
def CursorMoves (o : Order) : Prop := o.state = .running ∨ o.state = .dwelling ∨ o.state = .arrived ∨ o.state = .cancelling

/-- The order with its cursor moved: a DWELLING refuge is RUNNING again (R98). -/
def movedTo (o : Order) (c : Place) : Order := { o with cursor := c, state := if o.state = .dwelling then .running else o.state }

theorem moveCursor_fixed {s : State} {t n k : Nat} {o : Order} (ha : s.active t = some (k, o)) (h : ¬CursorMoves o) : s.moveCursor t n = s := by
  unfold State.moveCursor
  rw [ha]
  exact if_neg h

theorem moveCursor_to {s : State} {t n k : Nat} {o : Order} {c : Place} (ha : s.active t = some (k, o)) (h : CursorMoves o)
    (hc : o.cursorFor n = some c) : s.moveCursor t n = (s.setOrder k (some (movedTo o c))).makeDue k := by
  unfold State.moveCursor
  rw [ha]
  dsimp only
  rw [if_pos (show _ ∨ _ from h), hc]
  rfl

theorem moveCursor_nowhere {s : State} {t n k : Nat} {o : Order} (ha : s.active t = some (k, o)) (h : CursorMoves o)
    (hc : o.cursorFor n = none) : s.moveCursor t n = s := by
  unfold State.moveCursor
  rw [ha]
  dsimp only
  rw [if_pos (show _ ∨ _ from h), hc]

/-- The cursor's move writes at most the record of the active order. -/
theorem moveCursor_writes {s : State} {t n k : Nat} {o : Order} (ha : s.active t = some (k, o)) :
    s.moveCursor t n = s ∨ ∃ o', s.moveCursor t n = (s.setOrder k (some o')).makeDue k := by
  by_cases h : CursorMoves o
  · cases hc : o.cursorFor n with
    | none => exact .inl (moveCursor_nowhere ha h hc)
    | some c => exact .inr ⟨_, moveCursor_to ha h hc⟩
  · exact .inl (moveCursor_fixed ha h)

theorem moveCursor_order {s : State} {t n k : Nat} {o : Order} {c : Place} (ha : s.active t = some (k, o)) (h : CursorMoves o)
    (hc : o.cursorFor n = some c) : (s.moveCursor t n).order k = some (movedTo o c) := by
  rw [moveCursor_to ha h hc]
  exact setOrder_order_same s k _

/-- Off the claimed track the cursor goes back to the first position of its leg before it that names the segment (R73). -/
theorem cursorFor_behind {o : Order} {n p : Nat}
    (hun : ∀ i, ¬(o.index o.cursor < i ∧ i ≤ o.index o.claim ∧ (o.route[i]?).map (·.segment) = some n))
    (hp : p < o.cursor.pos ∧ ((if o.cursor.leg = 1 then o.leg1 else o.leg2)[p]?).map (·.segment) = some n)
    (hmin : ∀ q, q < o.cursor.pos ∧ ((if o.cursor.leg = 1 then o.leg1 else o.leg2)[q]?).map (·.segment) = some n → p ≤ q) :
    o.cursorFor n = some ⟨o.cursor.leg, p⟩ := by
  obtain ⟨hlt, hseg⟩ := hp
  obtain ⟨x, hx, hn⟩ := Option.map_eq_some_iff.1 hseg
  rw [cursorFor_unclaimed o n hun, findPlace_take.2 ⟨hlt, ⟨x, hx, decide_eq_true hn⟩, fun q y hq hy => ?_⟩]
  · rfl
  · refine decide_eq_false fun hyn => absurd (hmin q ⟨by omega, by rw [hy]; exact congrArg some hyn⟩) (by omega)

theorem cursorFor_nowhere {o : Order} {n : Nat}
    (hun : ∀ i, ¬(o.index o.cursor < i ∧ i ≤ o.index o.claim ∧ (o.route[i]?).map (·.segment) = some n))
    (hp : ∀ p, ¬(p < o.cursor.pos ∧ ((if o.cursor.leg = 1 then o.leg1 else o.leg2)[p]?).map (·.segment) = some n)) :
    o.cursorFor n = none := by
  rw [cursorFor_unclaimed o n hun, findPlace_take_none.2 fun i y hi hy => ?_]
  · rfl
  · exact decide_eq_false fun hyn => hp i ⟨hi, by rw [hy]; exact congrArg some hyn⟩

/-! ### The stages of a report -/

theorem updateTrain_some {s : State} {t : Nat} {y : TransporterRec} (h : s.train t = some y) (f : TransporterRec → TransporterRec) :
    s.updateTrain t f = s.setTrain t (some (f y)) := by
  unfold State.updateTrain
  rw [h]

/-- The segments that a report marks leaving (R31). -/
def reportMarks (s : State) (t m n : Nat) : List Nat := if n = m then [] else s.leavingMarks t m n

/-- A new position handed to the Core and the Order Table (R31, R41, R73). -/
def positionTaken (s : State) (t n : Nat) (z : TransporterRec) (marks : List Nat) : State :=
  (((s.setLeaving marks n).setTrain t (some { z with position := n })).overrun t n ((s.trackAhead t).map (·.segment))).moveCursor t n

/-- The state after the position of a report that moves from `m` to `n`, or stays (R139 stage 3). -/
def reportedAt (s : State) (t m n : Nat) (z : TransporterRec) : State := if n = m then s else positionTaken s t n z (reportMarks s t m n)

theorem takePosition_eq {s : State} {t m n : Nat} {z : TransporterRec} (h : s.train t = some z) :
    s.takePosition t m n = (reportedAt s t m n z, reportMarks s t m n) := by
  have htrain : ∀ marks, (s.setLeaving marks n).train t = some z := fun marks => by
    unfold State.train
    rw [setLeaving_polls]
    exact h
  unfold State.takePosition reportedAt reportMarks
  by_cases hm : n = m
  · rw [if_pos hm, if_pos hm, if_pos hm.symm]
  · rw [if_neg hm, if_neg hm, if_neg (Ne.symm hm)]
    dsimp only
    rw [updateTrain_some (htrain _)]
    rfl

theorem positionTaken_position (s : State) (t n : Nat) (z : TransporterRec) (marks : List Nat) :
    (positionTaken s t n z marks).position t = some n := by
  unfold positionTaken State.position State.train
  rw [moveCursor_polls, (marks_overrun _ t n _).polls]
  exact congrArg (Option.map (·.position)) (setTrain_train_same _ t _)

/-- Whether a report has moved its transporter. -/
theorem reportedAt_position {s : State} {t n : Nat} {z : TransporterRec} (h : s.train t = some z) :
    (reportedAt s t z.position n z).position t = some n := by
  unfold reportedAt
  split
  · next e =>
    unfold State.position
    rw [h, e]
    rfl
  · exact positionTaken_position s t n z _

/-- The work of stage 3 of a report, in its order (R139, assumption 18). -/
def positionWork (marks : List Nat) (t : Nat) : List Machine.Task :=
  (marks.map fun k => Machine.Task.tailRelease k t) ++
    [.recompute t, .confirm t, .arrival t, .startTransfers, .reviewJunctions t, .extend]

/-- A position on held track reported by a NORMAL or STALLED transporter. -/
theorem reportPosition_held {s : State} {r : Report} {z : TransporterRec} (h : s.train r.transporter = some z)
    (hc : z.condition = .normal ∨ z.condition = .stalled) (hh : (s.seg r.position).holder = some r.transporter) :
    s.reportPosition r = (reportedAt s r.transporter z.position r.position z).emit
      (positionWork (reportMarks s r.transporter z.position r.position) r.transporter) := by
  have hastray : z.condition ≠ .astray := by rcases hc with e | e <;> rw [e] <;> decide
  have hlost : z.condition ≠ .lost := by rcases hc with e | e <;> rw [e] <;> decide
  have hholds : (!s.holds r.transporter r.position) = false := by simp [State.holds, hh]
  unfold State.reportPosition
  dsimp only
  rw [h]
  dsimp only
  rw [if_neg hastray, if_neg (by rw [hholds]; decide), if_neg hlost, takePosition_eq h]
  rfl

/-- A transporter's record after a report, but for the position (R139 stage 1). -/
def heardRecord (y : TransporterRec) (r : Report) : TransporterRec := { y with missCount := 0, atRest := r.atRest, inMotion := r.inMotion }

/-- The poll ended and the report recorded (R137, R139 stage 1). -/
def heardReport (s : State) (r : Report) (y : TransporterRec) : State := s.endPoll.setTrain r.transporter (some (heardRecord y r))

theorem heardReport_train (s : State) (r : Report) (y : TransporterRec) :
    (heardReport s r y).train r.transporter = some (heardRecord y r) := setTrain_train_same _ _ _

/-- The work of the stages of a report that follow its position, in their order (R139). -/
def laterWork (r : Report) (moved inQuiet : Bool) : List Machine.Task :=
  [.progressReport r.transporter moved r.inMotion] ++ (if r.driveFault then [.driveFault r.transporter] else []) ++ [.loadEvent r, .quietStand r inQuiet]

/-- A report taken, of a NORMAL or STALLED transporter from a position that it holds. -/
theorem takeReport_held {s : State} {r : Report} {x : Poll} {y : TransporterRec} (h : s.train r.transporter = some y)
    (hc : y.condition = .normal ∨ y.condition = .stalled) (hh : (s.seg r.position).holder = some r.transporter) :
    s.takeReport r x = (reportedAt (heardReport s r y) r.transporter y.position r.position (heardRecord y r)).emit
      (positionWork (reportMarks (heardReport s r y) r.transporter y.position r.position) r.transporter ++
        laterWork r (decide (r.position ≠ y.position)) x.inQuiet) := by
  have hheard : s.endPoll.updateTrain r.transporter (fun y => heardRecord y r) = heardReport s r y := updateTrain_some (s := s.endPoll) h _
  have hposition : (heardReport s r y).reportPosition r = _ := reportPosition_held (heardReport_train s r y) hc hh
  have hbefore : s.position r.transporter = some y.position := by
    unfold State.position
    rw [h]
    rfl
  have hafter : ((heardReport s r y).reportPosition r).position r.transporter = some r.position := by
    rw [hposition]
    exact reportedAt_position (heardReport_train s r y)
  have hstages : ∀ v : State, (s.endPoll.updateTrain r.transporter fun y => heardRecord y r).reportPosition r = v →
      s.takeReport r x = v.emit (laterWork r (decide (v.position r.transporter ≠ s.position r.transporter)) x.inQuiet) := by
    rintro _ rfl
    rfl
  rw [hstages _ (congrArg (State.reportPosition · r) hheard), hafter, hbefore, hposition, emit_emit]
  simp only [ne_eq, Option.some.injEq]
  rfl

/-- A report that answers the poll outstanding is taken (R138). -/
theorem hearFrame_answered {s : State} {bytes : List Byte} {r : Report} {x : Poll} (hr : readReport bytes = some r)
    (hx : s.polls.outstanding = some x) (ht : r.transporter = x.transporter) (hq : r.sequence = x.sequence) :
    s.hearFrame bytes = s.takeReport r x := by
  unfold State.hearFrame State.hearReport
  rw [hr]
  dsimp only
  rw [hx]
  exact if_pos ⟨ht, hq⟩

/-- Settles O51: the marks (R31), the track run onto (R41), the cursor (R73), and the stages in which a report is taken (R139). -/
theorem reportMovesTheTransporter : Obligations.ReportMovesTheTransporter := by
  refine ⟨⟨?_, ?_, ?_⟩, ?_⟩
  · intro s t m n before newly u
    have hnewly : ∀ x, x ∈ s.leavingMarks t m n ↔ newly x := mem_leavingMarks s t m n
    have hseg : ∀ x, u.seg x = _ := setLeaving_seg s (s.leavingMarks t m n) n
    refine ⟨hnewly, by rw [hseg]; exact if_pos rfl, fun x hx => ?_, fun x => by rw [hseg]⟩
    exact (setLeaving_leaving_iff s _ hx).trans (or_congr_right (hnewly x))
  · intro s t n track before u
    exact ⟨(marks_overrun s t n track).seg_eq, overrun_unmarked, overrun_clears⟩
  · intro s t n k o ha moves c u claimed leg behind state
    refine ⟨moveCursor_fixed ha, fun j hm hj hmin => moveCursor_order ha hm (cursorFor_claimed o n j hj hmin),
      fun p hm hun hp hmin => moveCursor_order ha hm (cursorFor_behind hun hp hmin),
      fun hm hun hp => moveCursor_nowhere ha hm (cursorFor_nowhere hun hp), ?_⟩
    obtain e | ⟨o', e⟩ := moveCursor_writes (n := n) ha
    · rw [show u = s from e]
      exact ⟨fun _ _ => rfl, rfl, rfl⟩
    · rw [show u = _ from e]
      exact ⟨fun m hm => (setOrder_order s k _ m).trans (if_neg hm), rfl, rfl⟩
  · intro s bytes r x y hr hx ht hq hy hc hh i m n z heard marks e
    have hheard : heardReport s r y = heard := rfl
    have he : reportedAt heard i m n z = e := rfl
    have hmarks : reportMarks heard i m n = marks := rfl
    have htaken := (hearFrame_answered hr hx ht hq).trans (takeReport_held hy hc hh)
    rw [hheard, show heardRecord y r = z from rfl, he, hmarks] at htaken
    show Host.Outcome.next (closeEvent s.pending (workOff (s.hearFrame bytes))) = _
    rw [htaken]
    simp only [positionWork, laterWork, List.append_assoc]
    rfl

/-! ### A SENSOR message at the head of the in-queue -/

/-- The message taken out of the in-queue and recorded (R21, R175). -/
def sensorTaken (s : State) (n : Nat) (v : Bool) (rest : List InMessage) : State :=
  (s.setInQueue rest).setSeg n { s.seg n with sensor := if v then .occupied else .clear }

section
variable {s : State} {n : Nat} {rest : List InMessage}

theorem headSensor_sensor {v : Bool} (h : s.wayside.inQueue = .sensor n v :: rest) : s.headSensor = (s.setInQueue rest).takeSensor n v := by
  unfold State.headSensor State.popMessage
  rw [h]
  rfl

/-- OCCUPIED (R22): the notice where the message tells of an intrusion, the heads that wait for the sensor, and the throw still queued (R51). -/
theorem headSensor_occupied (h : s.wayside.inQueue = .sensor n true :: rest) :
    s.headSensor = ((if s.intrudes n = true then (sensorTaken s n true rest).raise .trackIntrusion n else sensorTaken s n true rest).emit
      [.retry n [.sensor]]).withdrawThrow n := headSensor_sensor h

theorem headSensor_intruded (h : s.wayside.inQueue = .sensor n true :: rest) (hi : s.intrudes n = true) :
    s.headSensor = (((sensorTaken s n true rest).raise .trackIntrusion n).emit [.retry n [.sensor]]).withdrawThrow n := by
  rw [headSensor_occupied h, if_pos hi]

theorem headSensor_allowed (h : s.wayside.inQueue = .sensor n true :: rest) (hi : ¬s.intrudes n = true) :
    s.headSensor = ((sensorTaken s n true rest).emit [.retry n [.sensor]]).withdrawThrow n := by
  rw [headSensor_occupied h, if_neg hi]

/-- What CLEAR sets off at a segment with the record `r`: a segment left is released, and one that no one holds is served (R29, R32). -/
def clearFirst (n : Nat) (r : SegDyn) : List Machine.Task :=
  match r.holder with
  | some i => if r.leaving then [.release n i] else []
  | none => [.serve n]

/-- What CLEAR sets off at every segment. -/
def clearWork (n : Nat) : List Machine.Task := [.retry n [.sensor, .intrusion], .throwCheck n, .restDecision n]

theorem clearFirst_left {r : SegDyn} {i : Nat} (hh : r.holder = some i) (hl : r.leaving = true) : clearFirst n r = [.release n i] := by
  simp [clearFirst, hh, hl]

theorem clearFirst_held {r : SegDyn} {i : Nat} (hh : r.holder = some i) (hl : r.leaving = false) : clearFirst n r = [] := by
  simp [clearFirst, hh, hl]

theorem clearFirst_unheld {r : SegDyn} (hh : r.holder = none) : clearFirst n r = [.serve n] := by
  simp [clearFirst, hh]

theorem headSensor_clear (h : s.wayside.inQueue = .sensor n false :: rest) :
    s.headSensor = (sensorTaken s n false rest).emit (clearFirst n (s.seg n) ++ clearWork n) := by
  rw [headSensor_sensor h, ← emit_emit]
  unfold State.takeSensor sensorTaken clearFirst
  dsimp only [setInQueue_seg]
  generalize (s.setInQueue rest).setSeg n _ = e
  rw [if_neg (by decide)]
  have nothing : e = e.emit [] := by simp [State.emit]
  refine congrArg (State.emit · _) ?_
  cases (s.seg n).holder with
  | none => rfl
  | some i =>
    dsimp only
    split
    · rfl
    · exact nothing

/-- Beside the record, the taking of a SENSOR message leaves what calm work leaves. -/
theorem headSensor_calm {v : Bool} (h : s.wayside.inQueue = .sensor n v :: rest) : Calm (sensorTaken s n v rest) s.headSensor := by
  cases v with
  | true =>
    rw [headSensor_occupied h]
    refine (Calm.trans ?_ (calm_emit _ (by simp [inReport]))).trans (calm_withdrawThrow _ n)
    exact calm_ite (fun _ => calm_raise _ _ n) (fun _ => .refl _)
  | false =>
    rw [headSensor_clear h]
    refine calm_emit _ fun x hx => ?_
    rcases List.mem_append.1 hx with hx | hx
    · unfold clearFirst at hx
      split at hx
      · split at hx <;> simp at hx
        subst hx
        rfl
      · rw [List.mem_singleton.1 hx]
        rfl
    · simp only [clearWork, List.mem_cons, List.not_mem_nil, or_false] at hx
      rcases hx with rfl | rfl | rfl <;> rfl

/-- An intrusion is pending once the message is taken (R22). -/
theorem headSensor_notice (h : s.wayside.inQueue = .sensor n true :: rest) (hi : s.intrudes n = true) :
    ⟨.trackIntrusion, n⟩ ∈ s.headSensor.port.notices := by
  rw [headSensor_intruded h hi]
  exact (calm_withdrawThrow _ n).notices _ (mem_raise _ _ n)

end

theorem sensorTaken_sensor (s : State) (n : Nat) (v : Bool) (rest : List InMessage) (m : Nat) :
    ((sensorTaken s n v rest).seg m).sensor = if m = n then (if v then .occupied else .clear) else (s.seg m).sensor := by
  unfold sensorTaken
  rw [setSeg_seg]
  split
  · rfl
  · rfl

/-- The Core's segments are outside the frame. -/
theorem frame_sensorTaken (s : State) (n : Nat) (v : Bool) (rest : List InMessage) : Frame s (sensorTaken s n v rest) :=
  { (Kept.refl s).frame with }

/-! ### A release -/

theorem seg_of_core {a b : State} (h : a.core = b.core) (m : Nat) : a.seg m = b.seg m := by
  unfold State.seg
  rw [h]

/-- The release's own edit of the Core: the segment's record, and the confirmation state where the segment was marked (R28, R43). -/
def releasedSeg (s : State) (n t : Nat) : State :=
  let u := s.setSeg n { s.seg n with holder := none, leaving := false, withdrawing := none }
  if (s.seg n).withdrawing.isSome then u.settleConfirm t else u

/-- The records when a release has told the Order Table and the Junction Controller (R28, R75). -/
def releaseTold (s : State) (n t : Nat) : State := ((releasedSeg s n t).fallBack t n).junctionReleased n

theorem release_eq {s : State} {n t : Nat} (h : (s.seg n).holder = some t) :
    s.release n t = (if (s.seg n).sensor = .occupied then (releaseTold s n t).raise .trackIntrusion n else (releaseTold s n t).emit [.serve n]).emit
      [.retry n [.cycle, .full], .recompute t, .restDecision n] := by
  unfold State.release
  dsimp only
  rw [if_neg (by simp [h])]
  rfl

theorem release_unheld {s : State} {n t : Nat} (h : (s.seg n).holder ≠ some t) : s.release n t = s := by
  unfold State.release
  exact if_pos h

theorem releasedSeg_same (s : State) (n t : Nat) : (releasedSeg s n t).port = s.port ∧ (releasedSeg s n t).junctions = s.junctions ∧
    (releasedSeg s n t).agenda = s.agenda ∧ (releasedSeg s n t).orders = s.orders := by
  unfold releasedSeg
  dsimp only
  split
  · exact settleConfirm_same _ t
  · exact ⟨rfl, rfl, rfl, rfl⟩

/-- The segments after a release: the one released, and no other (R28). -/
theorem release_seg {s : State} {n t : Nat} (h : (s.seg n).holder = some t) (m : Nat) :
    (s.release n t).seg m = if m = n then { s.seg n with holder := none, leaving := false, withdrawing := none } else s.seg m := by
  have hcore := release_core h
  dsimp only at hcore
  rw [← setSeg_seg, seg_of_core hcore]
  split
  · exact settleConfirm_seg _ t m
  · rfl

/-- What a release leaves of the Control Port, the work and the orders before it raises or serves, and the hold that it starts. -/
theorem releaseTold_same (s : State) (n t : Nat) :
    (releaseTold s n t).port = s.port ∧ (∃ l, (releaseTold s n t).agenda = s.agenda ++ l ∧ ∀ m, .serve m ∉ l) ∧
    (releaseTold s n t).orders = ((releasedSeg s n t).fallBack t n).orders ∧
    ∀ j, s.junction n = some j → ∃ j', (releaseTold s n t).junction n = some j' ∧
      j'.hold = (if s.port.params.holdTime = 0 then .expired else .running s.port.params.holdTime) := by
  obtain ⟨hp, hj, ha, -⟩ := releasedSeg_same s n t
  obtain ⟨hp', hj', ha'⟩ := fallBack_same (releasedSeg s n t) t n
  obtain ⟨ho, hport, ⟨l, hl, hserve⟩, hhold⟩ := junctionReleased_same ((releasedSeg s n t).fallBack t n) n
  refine ⟨hport.trans (hp'.trans hp), ⟨l, hl.trans (by rw [ha', ha]), hserve⟩, ho, fun j h => ?_⟩
  obtain ⟨j', h', hh⟩ := hhold j (by unfold State.junction at h ⊢; rwa [hj', hj])
  exact ⟨j', h', by rw [hh, hp', hp]⟩

theorem releasedSeg_active (s : State) (n t i : Nat) : (releasedSeg s n t).active i = s.active i := by
  obtain ⟨-, -, -, ho⟩ := releasedSeg_same s n t
  unfold State.active State.orderRefs State.order
  rw [ho]

/-- Raising a notice or listing work leaves the orders and the junctions. -/
theorem raiseOrEmit_same (v : State) (c : Prop) [Decidable c] (k : NoticeKind) (n : Nat) (l l' : List Machine.Task) :
    ((if c then v.raise k n else v.emit l).emit l').orders = v.orders ∧ ((if c then v.raise k n else v.emit l).emit l').junctions = v.junctions := by
  split <;> exact ⟨rfl, rfl⟩

/-- The orders after a release are those after the fall back of the claim point (R75). -/
theorem release_orders {s : State} {n t : Nat} (h : (s.seg n).holder = some t) :
    (s.release n t).orders = ((releasedSeg s n t).fallBack t n).orders := by
  obtain ⟨-, -, ho, -⟩ := releaseTold_same s n t
  rw [release_eq h, ← ho]
  exact (raiseOrEmit_same _ _ _ _ _ _).1

theorem release_junctions {s : State} {n t : Nat} (h : (s.seg n).holder = some t) : (s.release n t).junctions = (releaseTold s n t).junctions := by
  rw [release_eq h]
  exact (raiseOrEmit_same _ _ _ _ _ _).2

/-- A release of an OCCUPIED segment raises TRACK-INTRUSION and serves no one (R28). -/
theorem release_occupied {s : State} {n t : Nat} (h : (s.seg n).holder = some t) (ho : (s.seg n).sensor = .occupied) :
    ⟨.trackIntrusion, n⟩ ∈ (s.release n t).port.notices ∧ (s.agenda = [] → .serve n ∉ (s.release n t).agenda) := by
  obtain ⟨-, ⟨l, hl, hserve⟩, -, -⟩ := releaseTold_same s n t
  rw [release_eq h, if_pos ho]
  refine ⟨mem_raise _ _ n, fun ha hm => ?_⟩
  rw [emit_agenda, show ((releaseTold s n t).raise .trackIntrusion n).agenda = _ from hl, ha] at hm
  simp [hserve] at hm

/-- A release of any other segment serves it (R28, R29). -/
theorem release_serves {s : State} {n t : Nat} (h : (s.seg n).holder = some t) (ho : (s.seg n).sensor ≠ .occupied) :
    .serve n ∈ (s.release n t).agenda ∧ (s.release n t).port = s.port := by
  obtain ⟨hp, -, -, -⟩ := releaseTold_same s n t
  rw [release_eq h, if_neg ho]
  exact ⟨by simp, by rw [emit_port, emit_port, hp]⟩

/-- The work that every release lists (R27, R28, R37). -/
theorem release_work {s : State} {n t : Nat} (h : (s.seg n).holder = some t) :
    .retry n [.cycle, .full] ∈ (s.release n t).agenda ∧ .recompute t ∈ (s.release n t).agenda := by
  rw [release_eq h]
  exact ⟨List.mem_append_right _ (by simp), List.mem_append_right _ (by simp)⟩

/-! ### Serving -/

theorem servable_iff (s : State) (n : Nat) : s.servable n = true ↔
    ((s.seg n).holder = none ∧ s.fenceCount n = 0 ∧ (s.seg n).sensor = .clear ∧ s.holdActive = false) ∧ (s.seg n).queue ≠ [] := by
  unfold State.servable
  simp only [Bool.and_eq_true, Option.isNone_iff_eq_none, decide_eq_true_iff, Bool.not_eq_true', List.isEmpty_eq_false_iff]
  tauto

theorem serve_idle {s : State} {n : Nat} (h : ¬s.servable n = true) : s.serve n = s := by
  unfold State.serve
  exact if_neg h

/-- An order told of a grant, where the transporter has an active order (R29, R74). -/
def tellGranted (s : State) (t n : Nat) : State :=
  match (s.orderRefs t).active with
  | some slot => s.applyResult slot n .granted
  | none => s

/-- The first claimant out of the queue and the segment granted to it (R29). -/
def servedTo (s : State) (n t : Nat) (rest : List Nat) : State := (s.setSeg n { s.seg n with queue := rest }).grant t n

theorem serve_first {s : State} {n t : Nat} {rest : List Nat} (h : s.servable n = true) (hq : (s.seg n).queue = t :: rest) :
    s.serve n = (tellGranted (servedTo s n t rest) t n).emit [.retry n [.full]] := by
  unfold State.serve
  rw [if_pos h, hq]
  rfl

theorem applyResult_same (s : State) (slot n : Nat) (x : ClaimResult) :
    (s.applyResult slot n x).core = s.core ∧ (s.applyResult slot n x).agenda = s.agenda ∧
      ∀ k, k ≠ slot → (s.applyResult slot n x).order k = s.order k := by
  unfold State.applyResult
  split
  · exact ⟨rfl, rfl, fun _ _ => rfl⟩
  · dsimp only
    split
    · exact ⟨rfl, rfl, fun k hk => (setOrder_order s slot _ k).trans (if_neg hk)⟩
    · exact ⟨rfl, rfl, fun k hk => (setOrder_order s slot _ k).trans (if_neg hk)⟩

/-- The order whose head is granted: the head waits no more and the claim point moves on to it (R74). -/
theorem applyResult_head {s : State} {slot n : Nat} {o : Order} (ho : s.order slot = some o) (hh : o.headPos.map (·.segment) = some n) :
    (s.applyResult slot n .granted).order slot = some { o with head := .none, claim := o.placeOf (o.index o.claim + 1) } := by
  obtain ⟨p, hp, hn⟩ := Option.map_eq_some_iff.1 hh
  have hany : o.headPos.any (fun p => decide (p.segment = n)) = true := by
    rw [hp]
    exact decide_eq_true hn
  unfold State.applyResult
  rw [ho]
  dsimp only
  rw [if_pos rfl]
  refine (setOrder_order_same s slot _).trans ?_
  rw [if_pos ⟨rfl, hany⟩]
  rfl

theorem tellGranted_same (s : State) (t n : Nat) :
    (tellGranted s t n).core = s.core ∧ (tellGranted s t n).agenda = s.agenda ∧
      ∀ k, (s.orderRefs t).active ≠ some k → (tellGranted s t n).order k = s.order k := by
  unfold tellGranted
  split
  · next slot hs =>
    obtain ⟨hc, ha, ho⟩ := applyResult_same s slot n .granted
    exact ⟨hc, ha, fun k hk => ho k fun e => hk (hs.trans (by rw [e]))⟩
  · exact ⟨rfl, rfl, fun _ _ => rfl⟩

theorem tellGranted_head {s : State} {t n k : Nat} {o : Order} (hr : (s.orderRefs t).active = some k) (ho : s.order k = some o)
    (hh : o.headPos.map (·.segment) = some n) :
    (tellGranted s t n).order k = some { o with head := .none, claim := o.placeOf (o.index o.claim + 1) } := by
  unfold tellGranted
  rw [hr]
  exact applyResult_head ho hh

theorem servedTo_same (s : State) (n t : Nat) (rest : List Nat) :
    (∀ m, (servedTo s n t rest).seg m = if m = n then { s.seg n with holder := some t, queue := rest } else s.seg m) ∧
      (servedTo s n t rest).orders = s.orders ∧ .recompute t ∈ (servedTo s n t rest).agenda := by
  obtain ⟨hc, ho, l, ha⟩ := grant_same (s.setSeg n { s.seg n with queue := rest }) t n
  refine ⟨fun m => ?_, ho, by rw [show (servedTo s n t rest).agenda = _ from ha]; simp⟩
  refine (seg_of_core hc m).trans ((setSeg_seg _ n _ m).trans ?_)
  rw [setSeg_seg_same]
  refine if_ctx_congr Iff.rfl (fun _ => rfl) fun hm => ?_
  exact (setSeg_seg s n _ m).trans (if_neg hm)

/-- Settles O59: a SENSOR message by its value and the segment's holder; a release, the serving of a segment and the tail release by their tests. -/
theorem sensorMessagesReleaseAndServe : Obligations.SensorMessagesReleaseAndServe := by
  refine ⟨fun s => ⟨?_, ?_, ?_⟩, ?_, ?_, ?_⟩
  · intro n v rest ha hq
    have hcalm := headSensor_calm hq
    have hrun : Calm s.headSensor (runEvent State.headSensor s) :=
      calm_runEvent State.headSensor s hcalm.pending (noReport_kept hcalm.toKept (noReport_of_empty ha))
    have hall := hcalm.trans hrun
    have hnotice : v = true → s.intrudes n = true → ⟨.trackIntrusion, n⟩ ∈ (runEvent State.headSensor s).port.notices := by
      rintro rfl hi
      exact hrun.notices _ (headSensor_notice hq hi)
    refine ⟨_, rfl, ?_, fun m hm => ?_, fun hv hh ho => ?_, fun i hv hh hl hp he => ?_, hall.inQueue, hall.pause, hall.loads, hall.trains,
      hall.stations, hall.hold, (frame_sensorTaken s n v rest).trans hall.frame⟩
    · rw [hall.sensors, sensorTaken_sensor, if_pos rfl]
    · rw [hall.sensors, sensorTaken_sensor, if_neg hm]
    · exact hnotice hv ((intrudes_iff s n).2 (.inl ⟨hh, ho⟩))
    · exact hnotice hv ((intrudes_iff s n).2 (.inr ⟨i, hh, hl, hp, he⟩))
  · intro hs hq
    have hnone : s.headSensor = s := by
      unfold State.headSensor
      split
      · next n v rest h => exact absurd h (hq n v rest)
      · rfl
    exact congrArg _ ((runEvent_settled (by rwa [hnone]) (by rw [hnone])).trans (by rw [hnone]))
  · intro n v rest hq r intruded e
    have hexec : ∀ {u}, s.headSensor = u → exec .sensor s = .next (closeEvent s.pending (workOff u)) := by
      rintro _ rfl
      rfl
    refine ⟨?_, ?_, ?_, ?_, ?_⟩
    · rintro rfl hi
      exact hexec (headSensor_intruded hq ((intrudes_iff s n).2 hi))
    · rintro rfl hi
      exact hexec (headSensor_allowed hq (mt (intrudes_iff s n).1 hi))
    · rintro i rfl hh hl
      exact hexec (by rw [headSensor_clear hq, clearFirst_left hh hl]; rfl)
    · rintro i rfl hh hl
      exact hexec (by rw [headSensor_clear hq, clearFirst_held hh hl]; rfl)
    · rintro rfl hh
      exact hexec (by rw [headSensor_clear hq, clearFirst_unheld hh]; rfl)
  · intro s n t r u
    refine ⟨release_unheld, fun h => ?_⟩
    have hact : ∀ k o, s.active t = some (k, o) → (releasedSeg s n t).active t = some (k, o) := fun k o => (releasedSeg_active s n t t).trans
    obtain ⟨hretry, hrecompute⟩ := release_work h
    refine ⟨(release_seg h n).trans (if_pos rfl), fun m hm => (release_seg h m).trans (if_neg hm), release_occupied h, release_serves h, hretry,
      hrecompute, fun j hj => ?_, fun k o i ha h1 h2 h3 => ?_, fun k o ha hoff => ?_⟩
    · obtain ⟨-, -, -, hhold⟩ := releaseTold_same s n t
      obtain ⟨j', hj', hh⟩ := hhold j hj
      exact ⟨j', by unfold State.junction at hj' ⊢; rwa [show u.junctions = _ from release_junctions h], hh⟩
    · unfold State.order
      rw [show u.orders = _ from release_orders h, fallBack_first (hact k o ha) h1 h2 h3]
      exact setOrder_order_same _ k _
    · obtain ⟨-, -, -, horders⟩ := releasedSeg_same s n t
      rw [show u.orders = _ from release_orders h, fallBack_off (hact k o ha) hoff, horders]
  · intro s n r u servable
    constructor
    · intro t rest hs hq
      have hserve : u = _ := serve_first ((servable_iff s n).2 ⟨hs, by rw [hq]; simp⟩) hq
      obtain ⟨hseg, horders, hwork⟩ := servedTo_same s n t rest
      obtain ⟨hcore, hagenda, hothers⟩ := tellGranted_same (servedTo s n t rest) t n
      have hrefs : (servedTo s n t rest).orderRefs t = s.orderRefs t := by unfold State.orderRefs; rw [horders]
      have horder : ∀ k, (servedTo s n t rest).order k = s.order k := fun k => by unfold State.order; rw [horders]
      have hsegs : ∀ m, u.seg m = (servedTo s n t rest).seg m := seg_of_core (by rw [hserve, emit_core, hcore])
      rw [hserve]
      refine ⟨?_, fun m hm => ?_, ?_, by simp, fun k hk => ?_, fun k o hk ho hh => ?_⟩
      · rw [← hserve, hsegs, hseg, if_pos rfl]
      · rw [← hserve, hsegs, hseg, if_neg hm]
      · rw [emit_agenda, hagenda]
        exact List.mem_append_left _ hwork
      · exact (hothers k (by rwa [hrefs])).trans (horder k)
      · exact tellGranted_head (hrefs ▸ hk) ((horder k).trans ho) hh
    · intro h
      refine serve_idle fun hs => ?_
      obtain ⟨hs, hq⟩ := (servable_iff s n).1 hs
      exact h.elim (fun hn => hn hs) hq
  · intro s n t
    exact ⟨fun h => if_pos h, fun h => if_neg h⟩

end Sys2Proof.Proofs
end

section
/-!
PROOFS. `restart`: what it makes of each block, and the one that waits behind a full answer queue.
-/

namespace Sys2Proof.Proofs

open Sys2Proof Sys2Proof.Machine Sys2Proof.Laws

/-! ### The state in which the restart's work begins -/

/-- The records as `restart` makes them, the hold without DESK (R164, R204). -/
def restartBase (s : State) (q : Ask) : State := (afterRestart s q).setHold { (afterRestart s q).guards.hold with desk := false }

/-- The end of a restart: the work it lists is done, and the event is closed. -/
def restartEnd (s : State) (q : Ask) : State := closeEvent s.pending (workOff (s.takeRestart q))

theorem afterRestart_blocks {s : State} {q : Ask} (hr : s.port.answers.length < 8) :
    (afterRestart s q).layout = s.layout ∧ (afterRestart s q).guards = { s.guards with fenced := [] } ∧
    (afterRestart s q).wayside = { s.wayside with outQueue := [], inQueue := [], pause := false } ∧
    (afterRestart s q).port = { s.port with
      answers := s.port.answers ++ [⟨q.tag, q.code, .done, .empty⟩], requests := [], flags := { s.port.flags with restarted := true }
      notices := [⟨.restarted, 0⟩], cause := .restart } := by
  have e := answer_room hr q .done .empty
  refine ⟨?_, ?_, ?_, ?_⟩
  · exact congrArg (·.layout) e
  · exact congrArg (fun u : State => { u.guards with fenced := [] }) e
  · exact congrArg (fun u : State => { u.wayside with outQueue := [], inQueue := [], pause := false }) e
  · exact congrArg (fun u : State => { u.port with requests := [], flags := { u.port.flags with restarted := true }
                                                   notices := [⟨.restarted, 0⟩], cause := .restart }) e

/-- The hold-source set replaced leaves the holdings, and of the guards changes the set alone. -/
theorem changeHold_core (s : State) (v : HoldSources) :
    (s.changeHold v).core = s.core ∧ (s.changeHold v).guards = { s.guards with hold := v } := by
  obtain ⟨hc, -, -, hg, -⟩ := suspendTransfers_same (s.setHold v)
  unfold State.changeHold
  dsimp only
  split
  · exact ⟨hc, hg⟩
  · split <;> exact ⟨rfl, rfl⟩

theorem takeRestart_core (s : State) (q : Ask) :
    (s.takeRestart q).core = (afterRestart s q).core ∧ (s.takeRestart q).guards.fenced = [] := by
  obtain ⟨hc, hg⟩ := changeHold_core ((afterRestart s q).emit (restartWork s q)) { (afterRestart s q).guards.hold with desk := false }
  rw [takeRestart_eq]
  exact ⟨hc, congrArg (·.fenced) hg⟩

/-- The tasks of a state without orders are no stages of a report. -/
theorem inReport_of_bareTask {x : Machine.Task} (h : bareTask x = true) : inReport x = false := by
  cases x with
  | progressReport => cases h
  | driveFault => cases h
  | loadEvent => cases h
  | quietStand => cases h
  | _ => rfl

theorem closeEvent_seg (l : List Instr) (s : State) (n : Nat) : (closeEvent l s).seg n = s.seg n := rfl

theorem closeEvent_core (l : List Instr) (s : State) : (closeEvent l s).core = s.core := rfl

theorem closeEvent_guards (l : List Instr) (s : State) : (closeEvent l s).guards = s.guards := rfl

theorem afresh_closeEvent {s : State} (h : Afresh s) (l : List Instr) : Afresh (closeEvent l s) :=
  ⟨⟨h.bare.orders, h.bare.due, h.bare.waiting, h.bare.queues, h.bare.marks⟩, h.transfers, h.unseated, h.waiters, h.poll⟩

section
variable {s : State} {q : Ask} (ha : s.agenda = []) (hr : s.port.answers.length < 8)
include ha

theorem takeRestart_noReport : noReport (s.takeRestart q) := by
  obtain ⟨-, -, hwork⟩ := takeRestart_afresh s q ha
  exact fun x hx => inReport_of_bareTask (hwork x hx)

theorem workOff_takeRestart_calm : Calm (restartBase s q) (workOff (s.takeRestart q)) :=
  (takeRestart_calm s q).trans (calm_workOff _ (takeRestart_noReport ha))

/-- The holdings, the waiting list and the fenced set at the end are those that the restart made. -/
theorem restartEnd_bare : (∀ n, (restartEnd s q).seg n = (afterRestart s q).seg n) ∧ (restartEnd s q).core.waiting = [] ∧
    (restartEnd s q).guards.fenced = [] := by
  obtain ⟨hafresh, -, hwork⟩ := takeRestart_afresh s q ha
  obtain ⟨hsegs, hwaiting, -, hguards⟩ := bare_workOff hafresh.bare hwork
  obtain ⟨hcore, hfenced⟩ := takeRestart_core s q
  unfold restartEnd
  refine ⟨fun n => ?_, ?_, ?_⟩
  · rw [closeEvent_seg]
    unfold State.seg
    rw [hsegs, hcore]
  · rw [closeEvent_core, hwaiting, hafresh.bare.waiting]
  · rw [closeEvent_guards, hguards, hfenced]

theorem workOff_takeRestart : Afresh (workOff (s.takeRestart q)) ∧ (workOff (s.takeRestart q)).port = (afterRestart s q).port := by
  obtain ⟨hafresh, hport, hwork⟩ := takeRestart_afresh s q ha
  obtain ⟨h, hsame⟩ := afresh_workOff hafresh hwork
  exact ⟨h, hsame.trans hport⟩

theorem restartEnd_afresh : Afresh (restartEnd s q) := afresh_closeEvent (workOff_takeRestart ha).1 _

include hr

/-- The notices at the end are those that the restart made (R204). -/
theorem restartEnd_notices : (restartEnd s q).port.notices = [⟨.restarted, 0⟩] := by
  obtain ⟨-, hport⟩ := workOff_takeRestart (q := q) ha
  obtain ⟨-, -, -, hafter⟩ := afterRestart_blocks (q := q) hr
  unfold restartEnd
  rw [closeEvent_notices, hport, hafter]

/-- Beside what `restart` makes of the records, its work leaves what calm work leaves. -/
theorem restartEnd_calm : Calm (restartBase s q) (restartEnd s q) := by
  have hcalm := workOff_takeRestart_calm (q := q) ha
  obtain ⟨-, hpending, -⟩ := afterRestart_rest s q hr
  exact hcalm.trans (calm_closeEvent _ _ (hcalm.pending.trans hpending))

end

/-! ### The segments, the junctions and the transporters -/

/-- A transporter holds its position alone after `restart`, and no segment has a claimant or a mark (R20). -/
theorem afterRestart_holder (s : State) (q : Ask) (n i : Nat) :
    ((afterRestart s q).seg n).holder = some i ↔ (s.seg n).holder = some i ∧ s.position i = some n := by
  rw [afterRestart_seg]
  simp [Option.filter_eq_some_iff]

/-- A junction's record after `restart` is lawful, and its position is its basis (R46, R63). -/
theorem restarted_lawful (r : JunctionRec) (b : Bool) (k : Nat) :
    (r.restarted b k).lawful ∧ basis (r.restarted b k) = if r.position = .moving then .unknown else r.position := by
  refine ⟨?_, rfl⟩
  show (if r.position = .moving then SwitchPosition.unknown else r.position) ≠ .moving
  split
  · decide
  · assumption

/-- A junction after work on what `restart` made of it: it stands where it stood, or UNKNOWN where a throw was made (R63). -/
theorem station_restarted {a c : Option JunctionRec} {b : Bool} {k : Nat} (h : StationKept (a.map fun x => x.restarted b k) c) :
    c.isSome = a.isSome ∧ ∀ r, a = some r → c.map basis = some (if r.position = .moving then .unknown else r.position) := by
  cases a with
  | none =>
    cases c with
    | none => exact ⟨rfl, by simp⟩
    | some r' => exact h.elim
  | some r =>
    cases c with
    | none => exact h.elim
    | some r' =>
      obtain ⟨hl, hb⟩ := restarted_lawful r b k
      obtain ⟨-, hbasis, -⟩ := h hl
      refine ⟨rfl, fun r0 h0 => ?_⟩
      obtain rfl := Option.some.inj h0
      exact congrArg some (hbasis.trans hb)

/-- What work leaves of a transporter's record, read together. -/
theorem train_fields {a b : Option TransporterRec} (h1 : a.map trainShape = b.map trainShape) (h2 : a.map (·.condition) = b.map (·.condition))
    (h3 : a.map (·.quietStand) = b.map (·.quietStand)) :
    a.map (fun r => (r.position, r.atRest, r.inMotion, r.missCount, r.condition, r.quietStand))
      = b.map fun r => (r.position, r.atRest, r.inMotion, r.missCount, r.condition, r.quietStand) := by
  cases a <;> cases b <;> simp_all [trainShape]

/-- Which transporters are enrolled tells the list of them. -/
theorem enrolledList_of_isSome {s t : State} (h : ∀ i, (t.train i).isSome = (s.train i).isSome) : t.enrolledList = s.enrolledList := by
  unfold State.enrolledList
  exact List.filter_congr fun i _ => h i

/-! ### Loads and pads -/

/-- The transporters with a transfer in progress, as R128 reads them. -/
def transferring (s : State) : List Nat := s.transfer.transfers.filterMap fun e => e.2.map (·.transporter)

theorem mem_transferring {s : State} {p : Nat} {r : TransferRec} (h : s.transferAt p = some r) : r.transporter ∈ transferring s := by
  have hmem : (p, s.transferAt p) ∈ s.transfer.transfers := mem_of_get (d := none) (by
    show s.transferAt p ≠ none
    rw [h]
    simp)
  exact List.mem_filterMap.2 ⟨_, hmem, by rw [h]; rfl⟩

theorem transferring_spec {s : State} (hc : s.canonical) {i : Nat} (h : i ∈ transferring s) : ∃ p r, s.transferAt p = some r ∧ r.transporter = i := by
  obtain ⟨-, -, -, -, -, -, -, -, -, hwf, -⟩ := hc
  obtain ⟨e, he, hi⟩ := List.mem_filterMap.1 h
  obtain ⟨r, hr, rfl⟩ := Option.map_eq_some_iff.1 hi
  exact ⟨e.1, r, (get_of_mem ((wf_iff _ _).1 hwf) he).trans hr, rfl⟩

/-- A load after `restart`: UNVERIFIED where the transporter has a transfer in progress, and otherwise as it was (R128). -/
theorem restartTransfers_load (s : State) (i : Nat) :
    (i ∉ transferring s → s.restartTransfers.load i = s.load i) ∧
    (∀ l, i ∈ transferring s → s.load i = some l → s.restartTransfers.load i = some .unverified) := by
  have hget : s.restartTransfers.load i
      = if i ∈ Table.keys s.transfer.loads then (if (transferring s).contains i then some .unverified else s.load i) else none :=
    get_mapRecords_keys none _ s.transfer.loads i
  have hkey : s.load i ≠ none → i ∈ Table.keys s.transfer.loads := mem_keys_of_get
  rw [hget]
  constructor
  · intro hi
    rw [if_neg (mt List.contains_iff_mem.1 hi)]
    split
    · rfl
    · next hk => exact (not_not.1 (mt hkey hk)).symm
  · intro l hi hl
    rw [if_pos (hkey (by rw [hl]; simp)), if_pos (List.contains_iff_mem.2 hi)]

theorem restartBase_transfer (s : State) (q : Ask) : (restartBase s q).transfer = s.restartTransfers.transfer := afterRestart_tables s q

theorem restartBase_pad (s : State) (q : Ask) (p : Nat) : (restartBase s q).pad p = s.restartPad p (s.pad p) := by
  rw [← restartTransfers_pad]
  unfold State.pad
  rw [restartBase_transfer]

/-- The telescope that R128's table finds in doubt at a pad. -/
theorem restartDoubt_iff (s : State) (p x : Nat) : s.restartDoubt p = some (some x) ↔
    ((s.pad p).state = .releasing ∨ (s.pad p).state = .seated) ∧ (s.pad p).occupant = some x ∨
      (s.pad p).state = .inbound ∧ s.transferAt p ≠ none ∧ (s.pad p).expected = some x := by
  unfold State.restartDoubt
  dsimp only
  cases (s.pad p).state <;> simp [Option.isSome_iff_ne_none]

/-- The doubt that a RELEASING or SEATED pad leaves. -/
theorem restartDoubt_held {s : State} {p : Nat} (h : (s.pad p).state = .releasing ∨ (s.pad p).state = .seated) :
    s.restartDoubt p = some (s.pad p).occupant := by
  unfold State.restartDoubt
  dsimp only
  rcases h with h | h <;> rw [h]

/-- The doubt that an INBOUND pad leaves. -/
theorem restartDoubt_inbound {s : State} {p : Nat} (h : (s.pad p).state = .inbound) :
    s.restartDoubt p = if (s.transferAt p).isSome then some (s.pad p).expected else none := by
  unfold State.restartDoubt
  dsimp only
  rw [h]

theorem restartPad_doubt {s : State} {p : Nat} {x : Option Nat} (h : s.restartDoubt p = some x) (r : PadRec) :
    s.restartPad p r = r.unsettledWith x := by
  unfold State.restartPad
  rw [h]

theorem restartPad_same {s : State} {p : Nat} (h : (s.pad p).state = .vacant ∨ (s.pad p).state = .barred ∨ (s.pad p).state = .unsettled) :
    s.restartPad p (s.pad p) = s.pad p := by
  unfold State.restartPad State.restartDoubt
  rcases h with h | h | h <;> simp only [h]

theorem restartPad_anchored {s : State} {p : Nat} (h : (s.pad p).state = .anchored) :
    s.restartPad p (s.pad p) = { s.pad p with claim := none } := by
  unfold State.restartPad State.restartDoubt
  simp only [h]

theorem restartPad_inbound {s : State} {p : Nat} (h : (s.pad p).state = .inbound) (ht : s.transferAt p = none) :
    s.restartPad p (s.pad p) = { s.pad p with state := .vacant, claim := none, expected := none } := by
  unfold State.restartPad
  rw [restartDoubt_inbound h, ht]
  simp [h]

section
variable {s : State} {q : Ask} (ha : s.agenda = []) (hr : s.port.answers.length < 8)
include ha hr

/-- A pad that `restart` leaves without a claim is left so by the work (R128). -/
theorem restartEnd_pad {p : Nat} (h : (s.restartPad p (s.pad p)).claim = none) : (restartEnd s q).pad p = s.restartPad p (s.pad p) := by
  rw [← restartBase_pad s q] at h ⊢
  exact calm_pad (restartEnd_calm ha hr) h ((afterRestart_afresh s q).unseated p)

/-- A pad that leaves a telescope in doubt is UNSETTLED, and the telescope its last occupant (R128). -/
theorem restartEnd_pad_doubt {p : Nat} {x : Option Nat} (h : s.restartDoubt p = some x) :
    (restartEnd s q).pad p = (s.pad p).unsettledWith x := by
  rw [restartEnd_pad ha hr (by rw [restartPad_doubt h]; rfl), restartPad_doubt h]

theorem restartEnd_load (i : Nat) : (restartEnd s q).load i = s.restartTransfers.load i := by
  rw [calm_load (restartEnd_calm ha hr)]
  unfold State.load
  rw [restartBase_transfer]

theorem restartEnd_placement (x : Nat) : (restartEnd s q).placement x = s.restartTransfers.placement x := by
  rw [calm_placement (restartEnd_calm ha hr)]
  unfold State.placement
  rw [restartBase_transfer]

/-- The transporters' records at the end (R152). -/
theorem restartEnd_train (i : Nat) :
    ((restartEnd s q).train i).map (fun r => (r.position, r.atRest, r.inMotion, r.missCount, r.condition, r.quietStand))
      = (s.train i).map fun r => (r.position, r.atRest, r.inMotion, 0, (if r.condition = .astray then .astray else .normal), false) := by
  have hcalm := restartEnd_calm (q := q) ha hr
  rw [train_fields (hcalm.trains i) (hcalm.standing i) (hcalm.stands i), show (restartBase s q).train i = _ from afterRestart_train s q i, Option.map_map]
  rfl

/-- The first poll goes to the lowest-numbered transporter (R152). -/
theorem restartEnd_poll : (restartEnd s q).polls.outstanding = none ∨
    ∃ x, (restartEnd s q).polls.outstanding = some x ∧ x.transmitted = false ∧ s.enrolledList.head? = some x.transporter := by
  have hlist : (restartEnd s q).enrolledList = s.enrolledList := enrolledList_of_isSome fun i => by
    have h := congrArg Option.isSome (restartEnd_train (q := q) ha hr i)
    rwa [Option.isSome_map, Option.isSome_map] at h
  refine (restartEnd_afresh ha).poll.imp (fun h => h.1) ?_
  rintro ⟨x, hx, hsent, hfirst⟩
  exact ⟨x, hx, hsent, by rw [← hlist]; exact hfirst⟩

end

/-- No pad takes part in a coupling where none is SEATED and no transfer is in progress (R111). -/
theorem afresh_couplingSet {s : State} (h : Afresh s) : s.couplingSet = [] := by
  refine List.filter_eq_nil_iff.2 fun p _ => ?_
  have ht : s.transferAt p = none := by
    unfold State.transferAt
    rw [h.transfers]
    rfl
  simp [ht, h.unseated p]

/-! ### The request -/

theorem takeRestart_late {s : State} (q : Ask) (hr : s.port.answers.length < 8) : (s.takeRestart q).late = s.late := by
  obtain ⟨hlate, -, -⟩ := afterRestart_rest s q hr
  exact (takeRestart_calm s q).late.trans hlate

/-- A `restart` of MAINTENANCE put to a part between events. -/
theorem exec_restart {h : Header} {s : State} (hs : s.Ready) (hm : h.originator = .maintenance) :
    exec (.restart h) s = .next (restartEnd s ⟨h.tag, codeOf .restart⟩) := by
  have hvalid : s.decideValid ⟨h.tag, codeOf .restart⟩ h.originator .restart = s.takeRestart ⟨h.tag, codeOf .restart⟩ :=
    decideValid_owner (r := .restart) (decide_eq_true hm) rfl rfl
  have hlate := (takeRestart_late ⟨h.tag, codeOf .restart⟩ hs.room).trans hs.late
  rw [exec_request (c := .restart h) (h := h) (r := .restart) rfl, submit_work hs h .restart hvalid (takeRestart_noReport hs.agenda) hlate]
  rfl

/-- The request queue is empty at the end (R204). -/
theorem restartEnd_requests {s : State} {q : Ask} (ha : s.agenda = []) (hr : s.port.answers.length < 8) : (restartEnd s q).port.requests = [] :=
  (restartEnd_calm ha hr).requests

/-- The Control Port when the answer fixed for the window has left a full queue, the requests that waited gone with the `restart` (R191, R204). -/
def answerGone (s : State) (f : SentFrame) (input : WindowInput) : State :=
  { s with port := { s.port with window := .opened f true input, answers := s.port.answers.drop 1, requests := [] } }

/-- A waiting `restart` taken: the requests that wait behind it play no part (R190, R204). -/
theorem takeRequest_restart {s : State} {x : QueuedRequest} {rest : List QueuedRequest} (ha : s.agenda = []) (hl : s.late = none)
    (hr : s.port.answers.length < 8) (hq : s.port.requests = x :: rest) (hcode : x.code = codeOf .restart)
    (hx : x.content = .valid .maintenance .restart) :
    takeRequest s = workOff ((s.setRequests []).takeRestart ⟨x.tag, codeOf .restart⟩) := by
  have hdecide : (s.setRequests rest).decideRequest x = (s.setRequests []).takeRestart ⟨x.tag, codeOf .restart⟩ := by
    rw [← takeRestart_requests s _ rest hr, ← hcode]
    unfold State.decideRequest
    rw [hx]
    exact decideValid_owner (r := .restart) rfl rfl rfl
  have hlate : (workOff ((s.setRequests []).takeRestart ⟨x.tag, codeOf .restart⟩)).late = none :=
    (calm_workOff _ (takeRestart_noReport (s := s.setRequests []) ha)).late.trans ((takeRestart_late (s := s.setRequests []) _ hr).trans hl)
  unfold takeRequest
  rw [hq]
  dsimp only
  rw [if_pos hr, hdecide]
  unfold State.placeLate
  rw [hlate]

/-- An answer leaves a full queue with a `restart` at the head of the requests. -/
theorem answerSent_restart {s : State} {f : SentFrame} {input : WindowInput} {a : Answer} {x : QueuedRequest} {rest : List QueuedRequest}
    (ha : s.agenda = []) (hl : s.late = none) (hw : s.port.window = .opened f false input) (hf : f.answer = some a)
    (hn : s.port.answers.length = 8) (hq : s.port.requests = x :: rest) (hcode : x.code = codeOf .restart)
    (hx : x.content = .valid .maintenance .restart) :
    exec .answerSent s = .next (restartEnd (answerGone s f input) ⟨x.tag, codeOf .restart⟩) := by
  have hleaves : s.answerLeaves = (s.setWindow (.opened f true input)).setAnswers (s.port.answers.drop 1) := by
    unfold State.answerLeaves
    rw [hw]
    dsimp only
    rw [hf]
  have hroom : (s.port.answers.drop 1).length < 8 := by rw [List.length_drop]; omega
  have htake := takeRequest_restart (s := (s.setWindow (.opened f true input)).setAnswers (s.port.answers.drop 1)) ha hl hroom hq hcode hx
  have hgone : ((s.setWindow (.opened f true input)).setAnswers (s.port.answers.drop 1)).setRequests [] = answerGone s f input := rfl
  rw [hgone] at htake
  have hempty : (workOff ((answerGone s f input).takeRestart ⟨x.tag, codeOf .restart⟩)).port.requests = [] :=
    (workOff_takeRestart_calm (s := answerGone s f input) ha).requests
  show Host.Outcome.next (closeEvent s.pending (takeRequests s.answerLeaves.port.requests.length s.answerLeaves)) = _
  rw [hleaves, show ((s.setWindow (.opened f true input)).setAnswers (s.port.answers.drop 1)).port.requests = _ from hq, List.length_cons]
  unfold takeRequests
  rw [htake, takeRequests_none _ _ hempty]
  rfl

/-! ### The clauses of O20 -/

section
variable {s : State} {q : Ask} (ha : s.agenda = []) (hr : s.port.answers.length < 8)
include ha hr

/-- The Control Port at the end (R204). -/
theorem restartEnd_port : (restartEnd s q).port.answers = s.port.answers ++ [⟨q.tag, q.code, .done, .empty⟩] ∧
    (restartEnd s q).port.flags = { s.port.flags with restarted := true } ∧ (restartEnd s q).port.cause = .restart ∧
    (restartEnd s q).port.window = s.port.window ∧ (restartEnd s q).port.enables = s.port.enables ∧ (restartEnd s q).port.params = s.port.params := by
  have hcalm := restartEnd_calm (q := q) ha hr
  obtain ⟨-, -, -, hport⟩ := afterRestart_blocks (q := q) hr
  exact ⟨hcalm.answers.trans (congrArg (·.answers) hport), hcalm.flags.trans (congrArg (·.flags) hport), hcalm.cause.trans (congrArg (·.cause) hport),
    hcalm.window.trans (congrArg (·.window) hport), hcalm.enables.trans (congrArg (·.enables) hport), hcalm.params.trans (congrArg (·.params) hport)⟩

/-- The layout, the guards and radio quiet at the end (R4, R152, R162, R164). -/
theorem restartEnd_guards : (restartEnd s q).layout = s.layout ∧ (restartEnd s q).guards.maps = s.guards.maps ∧
    (restartEnd s q).guards.fences = s.guards.fences ∧ (restartEnd s q).guards.hold = { s.guards.hold with desk := false } ∧
    (restartEnd s q).polls.quiet = .off := by
  have hcalm := restartEnd_calm (q := q) ha hr
  obtain ⟨hlayout, hguards, -, -⟩ := afterRestart_blocks (q := q) hr
  refine ⟨hcalm.layout.trans hlayout, hcalm.maps.trans (congrArg (·.maps) hguards), hcalm.fences.trans (congrArg (·.fences) hguards),
    hcalm.hold.trans (congrArg (fun g : GuardUnit => { g.hold with desk := false }) hguards), ?_⟩
  exact hcalm.quiet.resolve_right fun ⟨h, _⟩ => by cases h

/-- The Wayside Port at the end (R170, R183). -/
theorem restartEnd_wayside : (restartEnd s q).wayside.inQueue = [] ∧ (restartEnd s q).wayside.pause = false ∧
    (restartEnd s q).wayside.receiver = s.wayside.receiver ∧ (restartEnd s q).wayside.silence = s.wayside.silence ∧
    (restartEnd s q).wayside.link = s.wayside.link ∧
    ∀ m, s.wayside.transmitter = .sending m → (restartEnd s q).wayside.transmitter = .sending m := by
  have hcalm := restartEnd_calm (q := q) ha hr
  obtain ⟨-, -, hwayside, -⟩ := afterRestart_blocks (q := q) hr
  exact ⟨hcalm.inQueue.trans (congrArg (·.inQueue) hwayside), hcalm.pause.trans (congrArg (·.pause) hwayside),
    hcalm.receiver.trans (congrArg (·.receiver) hwayside), hcalm.silence.trans (congrArg (·.silence) hwayside),
    hcalm.link.trans (congrArg (·.link) hwayside), fun m hm => hcalm.sending m ((congrArg (·.transmitter) hwayside).trans hm)⟩

omit hr in
/-- The segments at the end (R20). -/
theorem restartEnd_segments : (∀ n, ((restartEnd s q).seg n).sensor = (s.seg n).sensor) ∧
    (∀ n i, ((restartEnd s q).seg n).holder = some i ↔ (s.seg n).holder = some i ∧ s.position i = some n) ∧
    (∀ n, ((restartEnd s q).seg n).queue = [] ∧ ((restartEnd s q).seg n).leaving = false ∧ ((restartEnd s q).seg n).withdrawing = none) := by
  obtain ⟨hseg, -, -⟩ := restartEnd_bare (q := q) ha
  refine ⟨fun n => ?_, fun n i => ?_, fun n => ?_⟩ <;> rw [hseg]
  · rw [afterRestart_seg]
  · exact afterRestart_holder s q n i
  · rw [afterRestart_seg]
    exact ⟨rfl, rfl, rfl⟩

omit hr in
/-- No order stands at the end (R20). -/
theorem restartEnd_orders : (∀ k, (restartEnd s q).order k = none) ∧
    ∀ i, (restartEnd s q).orderRefs i = { active := none, stack := [], pendingDivert := none } := by
  have hbare := (restartEnd_afresh (q := q) ha).bare
  refine ⟨bare_order hbare, fun i => ?_⟩
  unfold State.orderRefs
  rw [hbare.orders]
  rfl

/-- A junction at the end (R63). -/
theorem restartEnd_junction (j : Nat) : ((restartEnd s q).junction j).isSome = (s.junction j).isSome ∧
    ∀ r, s.junction j = some r → ((restartEnd s q).junction j).map basis = some (if r.position = .moving then .unknown else r.position) := by
  have h := (restartEnd_calm (q := q) ha hr).stations j
  rw [show (restartBase s q).junction j = _ from afterRestart_junction s q j] at h
  exact station_restarted h

/-- The loads at the end (R128). -/
theorem restartEnd_loads (hc : s.canonical) :
    (∀ i, (∀ p r, s.transferAt p = some r → r.transporter ≠ i) → (restartEnd s q).load i = s.load i) ∧
    (∀ i p r l, s.transferAt p = some r → r.transporter = i → s.load i = some l → (restartEnd s q).load i = some .unverified) := by
  refine ⟨fun i hi => ?_, fun i p r l hp ht hl => ?_⟩ <;> rw [restartEnd_load ha hr] <;> obtain ⟨hfree, hbusy⟩ := restartTransfers_load s i
  · refine hfree fun hm => ?_
    obtain ⟨p, r, hp, ht⟩ := transferring_spec hc hm
    exact hi p r hp ht
  · exact hbusy l (ht ▸ mem_transferring hp) hl

/-- The pads at the end, by R128's table. -/
theorem restartEnd_pads :
    (∀ p, (s.pad p).state = .vacant ∨ (s.pad p).state = .barred ∨ (s.pad p).state = .unsettled → (s.pad p).claim = none →
      (restartEnd s q).pad p = s.pad p) ∧
    (∀ p, (s.pad p).state = .anchored → (restartEnd s q).pad p = { s.pad p with claim := none }) ∧
    (∀ p, (s.pad p).state = .inbound → s.transferAt p = none →
      (restartEnd s q).pad p = { s.pad p with state := .vacant, claim := none, expected := none }) ∧
    (∀ p, (s.pad p).state = .inbound → s.transferAt p ≠ none → (restartEnd s q).pad p = (s.pad p).unsettledWith (s.pad p).expected) ∧
    (∀ p, (s.pad p).state = .releasing ∨ (s.pad p).state = .seated → (restartEnd s q).pad p = (s.pad p).unsettledWith (s.pad p).occupant) := by
  refine ⟨fun p h hn => ?_, fun p h => ?_, fun p h ht => ?_, fun p h ht => ?_, fun p h => restartEnd_pad_doubt ha hr (restartDoubt_held h)⟩
  · rw [restartEnd_pad ha hr (by rw [restartPad_same h, hn]), restartPad_same h]
  · rw [restartEnd_pad ha hr (by rw [restartPad_anchored h]), restartPad_anchored h]
  · rw [restartEnd_pad ha hr (by rw [restartPad_inbound h ht]), restartPad_inbound h ht]
  · exact restartEnd_pad_doubt ha hr ((restartDoubt_inbound h).trans (if_pos (Option.isSome_iff_ne_none.2 ht)))

/-- The telescopes at the end (R128). -/
theorem restartEnd_telescopes :
    (∀ p x, s.restartDoubt p = some (some x) → (restartEnd s q).placement x = .unplaced) ∧
    (∀ x, (∀ p, s.restartDoubt p ≠ some (some x)) → (restartEnd s q).placement x = s.placement x) := by
  refine ⟨fun p x hx => ?_, fun x hx => ?_⟩ <;> rw [restartEnd_placement ha hr] <;> obtain ⟨-, hdoubt, hkept⟩ := restartTransfers_placement s x
  · refine hdoubt ⟨p, mem_keys_of_get (d := PadRec.undeclared) fun e => ?_, hx⟩
    have he : s.pad p = PadRec.undeclared := e
    unfold State.restartDoubt at hx
    rw [he] at hx
    cases hx
  · exact hkept hx

end

/-- Settles O20: the records are those that `restart` makes, block by block, and its work leaves them so. -/
theorem restartAppliesEachBlocksEffects : Obligations.RestartAppliesEachBlocksEffects := by
  constructor
  · intro h s hs hc hm
    have ha := hs.agenda
    have hr := hs.room
    obtain ⟨q, hq⟩ : ∃ q : Ask, q = ⟨h.tag, codeOf .restart⟩ := ⟨_, rfl⟩
    have hafresh := restartEnd_afresh (q := q) ha
    obtain ⟨hanswers, hflags, hcause, hwindow, henables, hparams⟩ := restartEnd_port (q := q) ha hr
    obtain ⟨hlayout, hmaps, hfences, hhold, hquiet⟩ := restartEnd_guards (q := q) ha hr
    obtain ⟨hin, hpause, hreceiver, hsilence, hlink, hsending⟩ := restartEnd_wayside (q := q) ha hr
    obtain ⟨hsensors, hholders, hqueues⟩ := restartEnd_segments (q := q) ha
    obtain ⟨-, hwaiting, hfenced⟩ := restartEnd_bare (q := q) ha
    obtain ⟨horders, hrefs⟩ := restartEnd_orders (q := q) ha
    obtain ⟨hfree, hbusy⟩ := restartEnd_loads (q := q) ha hr hc
    obtain ⟨hsame, hanchored, hinbound, hexpected, hheld⟩ := restartEnd_pads (q := q) ha hr
    obtain ⟨hdoubt, hplaced⟩ := restartEnd_telescopes (q := q) ha hr
    refine ⟨restartEnd s q, hq ▸ exec_restart hs hm, by rw [hanswers, hq], restartEnd_requests ha hr, restartEnd_notices ha hr, hflags, hcause,
      hwindow, henables, hparams, hlayout, hmaps, hfences, hhold, hquiet, hin, hpause, hreceiver, hsilence, hlink, hsending, hsensors, horders, hrefs,
      hholders, hqueues, hwaiting, hfenced, fun j => (restartEnd_junction ha hr j).1, fun j => (restartEnd_junction ha hr j).2,
      restartEnd_train ha hr, hfree, hbusy, hsame, hanchored, hinbound, fun p hp ht => ?_, fun p hp => ?_,
      fun p x hx => hdoubt p x ((restartDoubt_iff s p x).2 hx), fun x hx => hplaced x fun p hp => ?_,
      fun p => ?_, afresh_couplingSet hafresh, fun p hp => ?_, hafresh.waiters, restartEnd_poll ha hr⟩
    · rw [hexpected p hp ht]
      exact ⟨rfl, rfl, rfl⟩
    · rw [hheld p hp]
      exact ⟨rfl, rfl, rfl⟩
    · obtain ⟨h1, h2⟩ := hx p
      exact ((restartDoubt_iff s p x).1 hp).elim h1 h2
    · unfold State.transferAt
      rw [hafresh.transfers]
      rfl
    · rw [hheld p hp]
      rfl
  · intro s f input a x rest ha hl hw hf hn hq hcode hx
    have hroom : (answerGone s f input).port.answers.length < 8 := by
      show (s.port.answers.drop 1).length < 8
      rw [List.length_drop]
      omega
    have hready : (answerGone s f input).Ready := ⟨ha, hl, rfl, hroom⟩
    have hsent := answerSent_restart ha hl hw hf hn hq hcode hx
    exact ⟨hsent.trans (exec_restart (h := ⟨x.tag, .maintenance⟩) hready rfl).symm, _, hsent, restartEnd_requests (s := answerGone s f input) ha hroom⟩

end Sys2Proof.Proofs
end

section
/-!
SUPPORT. The record laws (O3, O4): what each write, each event of the blocks, each request and each event of the Control Port does to them, and that
every step keeps them.
-/

namespace Sys2Proof.Proofs

open Sys2Proof Sys2Proof.Machine Sys2Proof.Laws

/-! ### The laws that every piece of work keeps -/

/-- The record laws of `Sound` but for the two that the end of a command restores: no request waits needlessly (R190), and ATTENTION (R195). -/
structure Recorded (s : State) : Prop where
  canonical : s.canonical
  switches : s.switchesLawful
  outQueue : distinctObjects s.wayside.outQueue
  queues : s.queuesBounded
  misses : s.missesBounded
  params : s.paramsInRange
  fences : s.fencesLegal
  notices : noticesOrdered s.port.notices

theorem sound_iff (s : State) : s.Sound ↔ Recorded s ∧ s.requestsTaken ∧ s.attentionRight :=
  ⟨fun h => ⟨⟨h.canonical, h.switches, h.outQueue, h.queues, h.misses, h.params, h.fences, h.notices⟩, h.requests, h.attention⟩,
    fun ⟨h, hr, ha⟩ => ⟨h.canonical, h.switches, h.outQueue, h.queues, hr, ha, h.misses, h.params, h.fences, h.notices⟩⟩

/-- Some work keeps the record laws, and orders in slots 0 to 7 (R64). -/
structure LawsKept (s t : State) : Prop where
  records : Recorded s → Recorded t
  slots : s.slotsRight → t.slotsRight

/-- Work that keeps the laws, lets no request join the queue and no answer leave its own (R190). -/
structure Upheld (s t : State) : Prop extends LawsKept s t where
  requests : t.port.requests.length ≤ s.port.requests.length
  answers : s.port.answers.length ≤ t.port.answers.length

theorem LawsKept.refl (s : State) : LawsKept s s := ⟨fun h => h, fun h => h⟩

theorem LawsKept.trans {a b c : State} (h1 : LawsKept a b) (h2 : LawsKept b c) : LawsKept a c :=
  ⟨fun h => h2.records (h1.records h), fun h => h2.slots (h1.slots h)⟩

theorem Upheld.refl (s : State) : Upheld s s := ⟨.refl s, le_rfl, le_rfl⟩

theorem Upheld.trans {a b c : State} (h1 : Upheld a b) (h2 : Upheld b c) : Upheld a c :=
  ⟨h1.toLawsKept.trans h2.toLawsKept, h2.requests.trans h1.requests, h1.answers.trans h2.answers⟩

theorem Upheld.foldl {α : Type} {f : State → α → State} (h : ∀ s x, Upheld s (f s x)) (l : List α) (s : State) : Upheld s (l.foldl f s) := by
  induction l generalizing s with
  | nil => exact .refl s
  | cons x rest ih => exact (h s x).trans (ih _)

theorem Upheld.requestsTaken {s t : State} (h : Upheld s t) (hs : s.requestsTaken) : t.requestsTaken := by
  have hr := h.requests
  rcases hs with hs | hs
  · exact .inl (List.length_eq_zero_iff.1 (by rw [hs] at hr; simpa using hr))
  · exact .inr (hs.trans h.answers)

theorem switchesLawful_kept {s t : State} (h : Kept s t) (hs : s.switchesLawful) : t.switchesLawful := by
  intro j r hr
  have hk := h.stations j
  rw [hr] at hk
  cases hj : s.junction j with
  | none => rw [hj] at hk; exact hk.elim
  | some r0 => rw [hj] at hk; exact (hk (hs j r0 hj)).1

theorem missesBounded_kept {s t : State} (h : Kept s t) (hs : s.missesBounded) : t.missesBounded := by
  intro i r hr
  have hk := h.trains i
  rw [hr] at hk
  obtain ⟨r0, hr0, e⟩ := Option.map_eq_some_iff.1 hk.symm
  have hm : r0.missCount = r.missCount := congrArg (fun x => x.2.2.2) e
  exact hm ▸ hs i r0 hr0

theorem slotsRight_shapes {s t : State} (h : ∀ k, (t.order k).map shape = (s.order k).map shape) (hs : s.slotsRight) : t.slotsRight := by
  intro k o ho
  have hk := h k
  rw [ho] at hk
  obtain ⟨o0, ho0, -⟩ := Option.map_eq_some_iff.1 hk.symm
  exact hs k o0 ho0

/-- What every task keeps includes the record laws. -/
theorem upheld_kept {s t : State} (h : Kept s t) : Upheld s t where
  records hs :=
    { canonical := h.canonical hs.canonical
      switches := switchesLawful_kept h hs.switches
      outQueue := h.distinct hs.outQueue
      queues := by
        unfold State.queuesBounded
        rw [h.inQueue, h.pause, h.requests, h.answers]
        exact hs.queues
      misses := missesBounded_kept h hs.misses
      params := by
        unfold State.paramsInRange
        rw [h.params]
        exact hs.params
      fences := fun k f hf => hs.fences k f ((kept_fence h k).symm.trans hf)
      notices := h.ordered hs.notices }
  slots := slotsRight_shapes h.shapes
  requests := by rw [h.requests]
  answers := by rw [h.answers]

theorem upheld_calm {s t : State} (h : Calm s t) : Upheld s t := upheld_kept h.toKept

theorem upheld_ite {s : State} {p : Prop} [Decidable p] {a b : State} (ha : p → Upheld s a) (hb : ¬p → Upheld s b) :
    Upheld s (if p then a else b) := by
  split
  · exact ha ‹_›
  · exact hb ‹_›

/-! ### The writes -/

theorem upheld_emit (s : State) (l : List Machine.Task) : Upheld s (s.emit l) :=
  ⟨⟨fun h => { h with }, fun h => h⟩, le_rfl, le_rfl⟩

theorem upheld_answerAfter (s : State) (x : LateAnswer) : Upheld s (s.answerAfter x) :=
  ⟨⟨fun h => { h with }, fun h => h⟩, le_rfl, le_rfl⟩

theorem upheld_closeEvent (s : State) (l : List Instr) : Upheld s (closeEvent l s) :=
  ⟨⟨fun h => { h with }, fun h => h⟩, le_rfl, le_rfl⟩

theorem upheld_setHold (s : State) (v : HoldSources) : Upheld s (s.setHold v) :=
  ⟨⟨fun h => { h with }, fun h => h⟩, le_rfl, le_rfl⟩

theorem upheld_setReceiver (s : State) (r : Receiver) : Upheld s (s.setReceiver r) :=
  ⟨⟨fun h => { h with }, fun h => h⟩, le_rfl, le_rfl⟩

theorem upheld_setTransmitter (s : State) (x : Transmitter) : Upheld s (s.setTransmitter x) :=
  ⟨⟨fun h => { h with }, fun h => h⟩, le_rfl, le_rfl⟩

theorem upheld_setInQueue (s : State) {q : List InMessage} (h : s.wayside.inQueue.length ≤ 16 → q.length ≤ 16) : Upheld s (s.setInQueue q) :=
  ⟨⟨fun hs => { hs with
      queues := by
        obtain ⟨a, -, c⟩ := hs.queues
        exact ⟨h a, rfl, c⟩ }, fun hs => hs⟩, le_rfl, le_rfl⟩

theorem upheld_setFlags (s : State) (f : StickyFlags) : Upheld s (s.setFlags f) :=
  ⟨⟨fun h => { h with }, fun h => h⟩, le_rfl, le_rfl⟩

theorem upheld_setWindow (s : State) (w : Window) : Upheld s (s.setWindow w) :=
  ⟨⟨fun h => { h with }, fun h => h⟩, le_rfl, le_rfl⟩

theorem upheld_setNotices (s : State) {l : List Notice} (h : noticesOrdered s.port.notices → noticesOrdered l) : Upheld s (s.setNotices l) :=
  ⟨⟨fun hs => { hs with notices := h hs.notices }, fun hs => hs⟩, le_rfl, le_rfl⟩

theorem upheld_enables (s : State) (e : Word16) : Upheld s { s with port := { s.port with enables := e } } :=
  ⟨⟨fun h => { h with }, fun h => h⟩, le_rfl, le_rfl⟩

theorem upheld_params (s : State) {p : Params} (h : ∀ n v, p.value n = some v → s.port.params.value n = some v ∨ (paramRange n).1 ≤ v ∧ v ≤ (paramRange n).2) :
    Upheld s { s with port := { s.port with params := p } } :=
  ⟨⟨fun hs => { hs with params := fun n v hv => (h n v hv).elim (hs.params n v) id }, fun hs => hs⟩, le_rfl, le_rfl⟩

/-- The Poll Engine's pointer, poll, timers and quiet state are in no record law. -/
theorem upheld_polls (s : State) {c : PollEngine} (h : c.recs = s.polls.recs) : Upheld s { s with polls := c } := by
  obtain ⟨recs, pointer, outstanding, next, window, gap, quiet⟩ := c
  subst h
  exact ⟨⟨fun hs => { hs with }, fun hs => hs⟩, le_rfl, le_rfl⟩

theorem upheld_setSeg (s : State) (n : Nat) (r : SegDyn) : Upheld s (s.setSeg n r) :=
  ⟨⟨fun hs => { hs with
      canonical := by
        obtain ⟨a, b, c⟩ := hs.canonical
        exact ⟨a, wf_put b _ _, c⟩ }, fun hs => hs⟩, le_rfl, le_rfl⟩

theorem upheld_setRun (s : State) (t : Nat) (r : Option RunRec) : Upheld s (s.setRun t r) :=
  ⟨⟨fun hs => { hs with
      canonical := by
        obtain ⟨a, b, c, d⟩ := hs.canonical
        exact ⟨a, b, wf_put c _ _, d⟩ }, fun hs => hs⟩, le_rfl, le_rfl⟩

theorem upheld_setDecl (s : State) (n : Nat) (d : Option SegDecl) : Upheld s (s.setDecl n d) :=
  ⟨⟨fun hs => { hs with
      canonical := by
        obtain ⟨a, b⟩ := hs.canonical
        exact ⟨wf_put a _ _, b⟩ }, fun hs => hs⟩, le_rfl, le_rfl⟩

theorem upheld_setJunction (s : State) (j : Nat) (r : JunctionRec) (h : (∀ r0, s.junction j = some r0 → r0.lawful) → r.lawful) :
    Upheld s (s.setJunction j (some r)) :=
  ⟨⟨fun hs => { hs with
      canonical := by
        obtain ⟨a, b, c, d, e⟩ := hs.canonical
        exact ⟨a, b, c, wf_put d j (some r), e⟩
      switches := fun i x hx => by
        rw [setJunction_junction] at hx
        split at hx
        · exact Option.some.inj hx ▸ h (hs.switches j)
        · exact hs.switches i x hx }, fun hs => hs⟩, le_rfl, le_rfl⟩

theorem upheld_setOrder (s : State) (k : Nat) (o : Order) (h : k ≤ 7) : Upheld s (s.setOrder k (some o)) :=
  ⟨⟨fun hs => { hs with
      canonical := by
        obtain ⟨a, b, c, d, e, f⟩ := hs.canonical
        exact ⟨a, b, c, d, wf_put e k (some o), f⟩ }, fun hs i x hx => by
        rw [setOrder_order] at hx
        split at hx
        · next e => exact e ▸ h
        · exact hs i x hx⟩, le_rfl, le_rfl⟩

theorem upheld_setPad (s : State) (p : Nat) (r : PadRec) : Upheld s (s.setPad p r) :=
  ⟨⟨fun hs => { hs with
      canonical := by
        obtain ⟨a, b, c, d, e, f, g, x⟩ := hs.canonical
        exact ⟨a, b, c, d, e, f, wf_put g _ _, x⟩ }, fun hs => hs⟩, le_rfl, le_rfl⟩

theorem upheld_setTrain (s : State) (t : Nat) (r : Option TransporterRec)
    (h : (∀ x, s.train t = some x → x.missCount ≤ 8) → ∀ x, r = some x → x.missCount ≤ 8) : Upheld s (s.setTrain t r) :=
  ⟨⟨fun hs => { hs with
      canonical := by
        obtain ⟨a, b, c, d, e, f, g, x, i, j, k, l⟩ := hs.canonical
        exact ⟨a, b, c, d, e, f, g, x, i, j, wf_put k _ _, l⟩
      misses := fun i x hx => by
        rw [setTrain_train] at hx
        split at hx
        · exact h (hs.misses t) x hx
        · exact hs.misses i x hx }, fun hs => hs⟩, le_rfl, le_rfl⟩

theorem upheld_setGrantMap (s : State) (l : Nat) (m : GrantMap) : Upheld s (s.setGrantMap l m) :=
  ⟨⟨fun hs => { hs with
      canonical := by
        obtain ⟨a, b, c, d, e, f, g, x, i, j, k, l, m⟩ := hs.canonical
        exact ⟨a, b, c, d, e, f, g, x, i, j, k, wf_put l _ _, m⟩ }, fun hs => hs⟩, le_rfl, le_rfl⟩

theorem upheld_setFence (s : State) (k : Nat) (f : Option Fence) (h : ∀ x, f = some x → x.legal) : Upheld s (s.setFence k f) :=
  ⟨⟨fun hs => { hs with
      canonical := by
        obtain ⟨a, b, c, d, e, f, g, x, i, j, k, l, m⟩ := hs.canonical
        exact ⟨a, b, c, d, e, f, g, x, i, j, k, l, wf_put m _ _⟩
      fences := fun i x hx => by
        rw [setFence_fence] at hx
        split at hx
        · exact h x hx
        · exact hs.fences i x hx }, fun hs => hs⟩, le_rfl, le_rfl⟩

theorem lawsKept_setRequests (s : State) {l : List QueuedRequest} (h : s.port.requests.length ≤ 8 → l.length ≤ 8) : LawsKept s (s.setRequests l) :=
  ⟨fun hs => { hs with
      queues := by
        obtain ⟨a, b, c, d⟩ := hs.queues
        exact ⟨a, b, h c, d⟩ }, fun hs => hs⟩

theorem lawsKept_setAnswers (s : State) {l : List Answer} (h : s.port.answers.length ≤ 8 → l.length ≤ 8) : LawsKept s (s.setAnswers l) :=
  ⟨fun hs => { hs with
      queues := by
        obtain ⟨a, b, c, d⟩ := hs.queues
        exact ⟨a, b, c, h d⟩ }, fun hs => hs⟩

/-- An answer finds room or is not placed: the answer queue never holds more than 8 (R190). -/
theorem upheld_answer (s : State) (q : Ask) (o : Outcome) (b : Body) : Upheld s (s.answer q o b) := by
  unfold State.answer State.place
  refine upheld_ite (fun h => ⟨lawsKept_setAnswers s fun _ => ?_, le_rfl, ?_⟩) (fun _ => .refl s)
  · simpa using h
  · simp

theorem upheld_updateTrain (s : State) (t : Nat) (f : TransporterRec → TransporterRec) (h : ∀ r, r.missCount ≤ 8 → (f r).missCount ≤ 8) :
    Upheld s (s.updateTrain t f) := by
  unfold State.updateTrain
  split
  · next r hr => exact upheld_setTrain s t _ fun hm x hx => Option.some.inj hx ▸ h r (hm r hr)
  · exact .refl s

end Sys2Proof.Proofs
end

section
/-!
SUPPORT. What a DETECTION, an operation timeout and `clear-switch` do at their junction (R52, R56, R58, R59, R61, R62), each as one write of the
junction's record and calm work after it.
-/

namespace Sys2Proof.Proofs

open Sys2Proof Sys2Proof.Machine Sys2Proof.Laws

/-! ### The records that an operation's end leaves -/

/-- A junction's record when it enters FAULTED in state `s` (R59). -/
def faultedRec (s : State) (j : Nat) (r : JunctionRec) : JunctionRec :=
  { r with position := .faulted, operation := none, untrusted := false, underHolder := s.holderOn j }

/-- A junction's record when its operation ends with a position proved (R52, R56). -/
def provedRec (r : JunctionRec) (p : SwitchPosition) : JunctionRec :=
  { r with position := p, operation := none, untrusted := false, underHolder := false }

theorem lawful_idle {r : JunctionRec} (ho : r.operation = none) : r.lawful ↔ r.position ≠ .moving := by
  unfold JunctionRec.lawful
  rw [ho]

theorem basis_idle {r : JunctionRec} (ho : r.operation = none) : basis r = r.position := by
  unfold basis
  rw [ho]

theorem lawful_throw {r : JunctionRec} {target : SwitchSetting} {prior : SwitchPosition} {ph : Phase} {x : Timer}
    (ho : r.operation = some ⟨.throw target prior, ph, x⟩) : r.lawful ↔ r.position = .moving ∧ settled prior = true := by
  unfold JunctionRec.lawful
  rw [ho]

theorem lawful_prove {r : JunctionRec} {origin : ProveOrigin} {ph : Phase} {x : Timer} (ho : r.operation = some ⟨.prove origin, ph, x⟩) :
    r.lawful ↔ r.position ≠ .moving := by
  unfold JunctionRec.lawful
  rw [ho]

theorem basis_throw {r : JunctionRec} {target : SwitchSetting} {prior : SwitchPosition} {ph : Phase} {x : Timer}
    (ho : r.operation = some ⟨.throw target prior, ph, x⟩) : basis r = prior := by
  unfold basis
  rw [ho]

/-- Away from a throw a junction's basis is its position, which is not MOVING. -/
theorem lawful_still {r : JunctionRec} (hl : r.lawful) (hm : r.position ≠ .moving) : basis r = r.position := by
  rcases hop : r.operation with - | ⟨⟨target, prior⟩ | origin, ph, x⟩
  · exact basis_idle hop
  · exact absurd ((lawful_throw hop).1 hl).1 hm
  · unfold basis
    rw [hop]

/-- A lawful record is MOVING exactly under a throw (R46). -/
theorem lawful_moving {r : JunctionRec} (hl : r.lawful) (hm : r.position = .moving) :
    ∃ target prior ph x, r.operation = some ⟨.throw target prior, ph, x⟩ := by
  rcases hop : r.operation with - | ⟨⟨target, prior⟩ | origin, ph, x⟩
  · exact absurd hm ((lawful_idle hop).1 hl)
  · exact ⟨target, prior, ph, x, rfl⟩
  · exact absurd hm ((lawful_prove hop).1 hl)

/-- A throw's prior position is not FAULTED, so a FAULTED basis is the position. -/
theorem faulted_of_basis {r : JunctionRec} (hl : r.lawful) (hb : basis r = .faulted) : r.position = .faulted := by
  by_cases hm : r.position = .moving
  · obtain ⟨target, prior, ph, x, hop⟩ := lawful_moving hl hm
    have hp := ((lawful_throw hop).1 hl).2
    rw [← basis_throw hop, hb] at hp
    exact absurd hp (by decide)
  · exact (lawful_still hl hm).symm.trans hb

theorem lawful_faultedRec (s : State) (j : Nat) (r : JunctionRec) : (faultedRec s j r).lawful := (lawful_idle rfl).2 (by simp [faultedRec])

theorem lawful_provedRec (r : JunctionRec) {p : SwitchPosition} (h : p ≠ .moving) : (provedRec r p).lawful := (lawful_idle rfl).2 h

theorem settingPosition_still (x : SwitchSetting) : settingPosition x ≠ .moving := by cases x <;> decide

theorem detectedPosition_still {d : DetectionValue} {p : SwitchPosition} (h : detectedPosition d = some p) : p ≠ .moving := by
  cases d <;> cases h <;> decide

/-! ### The edits -/

/-- A position recorded for a junction without a throw outstanding keeps its record lawful. -/
theorem lawful_positioned {r : JunctionRec} (hl : r.lawful) (hm : r.position ≠ .moving) {p : SwitchPosition} (hp : p ≠ .moving) :
    ({ r with position := p } : JunctionRec).lawful ∧ basis { r with position := p } = p := by
  rcases hop : r.operation with - | ⟨⟨target, prior⟩ | origin, ph, x⟩
  · exact ⟨hp, rfl⟩
  · exact absurd ((lawful_throw hop).1 hl).1 hm
  · exact ⟨hp, rfl⟩

theorem rotationEnds_setJunction (s : State) (op : Option Operation) (j : Nat) (r : Option JunctionRec) :
    (s.rotationEnds op).setJunction j r = (s.setJunction j r).rotationEnds op := by
  unfold State.rotationEnds
  split <;> rfl

theorem rotationEnds_holderOn (s : State) (op : Option Operation) (j : Nat) : (s.rotationEnds op).holderOn j = s.holderOn j := by
  unfold State.rotationEnds
  split <;> rfl

/-- A junction enters FAULTED with the write of its record; a message taken back and the holder told are calm work (R59). -/
theorem calm_enterFaulted {s : State} {j : Nat} {r : JunctionRec} (hj : s.junction j = some r) :
    Calm (s.setJunction j (some (faultedRec s j r))) (s.enterFaulted j) ∧ ⟨.switchFault, j⟩ ∈ (s.enterFaulted j).port.notices := by
  unfold State.enterFaulted
  rw [hj]
  dsimp only
  rw [rotationEnds_setJunction, rotationEnds_holderOn]
  have back (c : Prop) [Decidable c] : Calm (s.setJunction j (some (faultedRec s j r)))
      (State.setJunction (if c then s.takeBack fun m => decide (outObject m = .junction j) else s) j
        (some { r with position := .faulted, operation := none, untrusted := false
                       underHolder := (if c then s.takeBack fun m => decide (outObject m = .junction j) else s).holderOn j })) := by
    split
    · exact calm_takeBack (s.setJunction j (some (faultedRec s j r))) _
    · exact .refl _
  refine ⟨(((back _).trans (calm_rotationEnds _ _)).trans (calm_raise _ _ _)).trans (calm_tellHolder _ _), ?_⟩
  exact (calm_tellHolder _ _).notices _ (mem_raise _ _ _)

/-- An operation ends with the write of its junction's record (R52, R56, R62). -/
theorem calm_operationEnds {s : State} {j : Nat} {r : JunctionRec} (hj : s.junction j = some r) (p : SwitchPosition) :
    Calm (s.setJunction j (some (provedRec r p))) (s.operationEnds j p) := by
  unfold State.operationEnds
  rw [hj]
  dsimp only
  rw [rotationEnds_setJunction]
  exact ((calm_rotationEnds _ _).trans (calm_tellHolder _ _)).trans (calm_emit _ (by simp [inReport]))

/-! ### Events at a junction -/

/-- `b` is `s` as an event finds it when it comes to a junction: the in-queue, its pause and its head taken may differ (R175). -/
structure AtHand (s b : State) : Prop where
  core : b.core = s.core
  junctions : b.junctions = s.junctions
  guards : b.guards = s.guards
  agenda : b.agenda = s.agenda
  pending : b.pending = s.pending
  frame : Frame s b

theorem AtHand.refl (s : State) : AtHand s s := ⟨rfl, rfl, rfl, rfl, rfl, (Kept.refl s).frame⟩

theorem atHand_setInQueue (s : State) (q : List InMessage) : AtHand s (s.setInQueue q) :=
  ⟨rfl, rfl, rfl, rfl, rfl, frame_setInQueue s q⟩

theorem AtHand.junction {s b : State} (h : AtHand s b) (i : Nat) : b.junction i = s.junction i := by
  unfold State.junction
  rw [h.junctions]

/-- What an event whose one effect is at junction `j` leaves: the other junctions, the sensors, the hold, the wayside queue, and the frame. -/
structure JunctionEvent (s b t : State) (j : Nat) : Prop where
  inQueue : t.wayside.inQueue = b.wayside.inQueue
  pause : t.wayside.pause = b.wayside.pause
  others : ∀ i, i ≠ j → StationKept (s.junction i) (t.junction i)
  sensors : ∀ n, (t.seg n).sensor = (s.seg n).sensor
  hold : t.guards.hold = s.guards.hold
  frame : Frame s t

/-- An event that writes the record of junction `j` and does calm work: the record stays lawful with its basis, and the rest is left. -/
theorem junction_event {act : State → State} {s b : State} {j : Nat} {r : JunctionRec} (ha : s.agenda = []) (hb : AtHand s b)
    (hact : Calm (b.setJunction j (some r)) (act s)) (hl : r.lawful) :
    ∃ r', (runEvent act s).junction j = some r' ∧ r'.lawful ∧ basis r' = basis r ∧
      (∀ n ∈ (act s).port.notices, n ∈ (runEvent act s).port.notices) ∧ JunctionEvent s b (runEvent act s) j := by
  have hrun : Calm (act s) (runEvent act s) :=
    calm_runEvent act s (hact.pending.trans hb.pending) (noReport_of_kept hact.toKept (hb.agenda.trans ha))
  have hcalm := hact.trans hrun
  have hst := hcalm.stations j
  rw [setJunction_junction_same] at hst
  cases hr : (runEvent act s).junction j with
  | none => rw [hr] at hst; exact hst.elim
  | some r' =>
    rw [hr] at hst
    obtain ⟨hl', hbasis, -⟩ := hst hl
    refine ⟨r', rfl, hl', hbasis, hrun.notices, hcalm.inQueue, hcalm.pause, fun i hi => ?_, fun n => ?_, hcalm.hold.trans (by rw [← hb.guards]; rfl), ?_⟩
    · have hs := hcalm.stations i
      rwa [setJunction_junction, if_neg hi, hb.junction] at hs
    · exact (hcalm.sensors n).trans (by unfold State.seg; rw [← hb.core]; rfl)
    · exact hb.frame.trans ((frame_junctions b _).trans hcalm.frame)

/-- What every event that faults junction `j` shows (R59). -/
def FaultsAt (s b : State) (j : Nat) (t : State) : Prop :=
  ∃ r', t.junction j = some r' ∧ r'.lawful ∧ r'.position = .faulted ∧ ⟨.switchFault, j⟩ ∈ t.port.notices ∧ JunctionEvent s b t j

/-- What every event that records position `p` for junction `j` shows (R52, R56, R58). -/
def StandsAt (s b : State) (j : Nat) (p : SwitchPosition) (t : State) : Prop :=
  ∃ r', t.junction j = some r' ∧ r'.lawful ∧ basis r' = p ∧ JunctionEvent s b t j

theorem event_faults {act : State → State} {s b : State} {j : Nat} {r : JunctionRec} (ha : s.agenda = []) (hb : AtHand s b)
    (hj : s.junction j = some r) (he : act s = b.enterFaulted j) : FaultsAt s b j (runEvent act s) := by
  obtain ⟨hc, hn⟩ := calm_enterFaulted ((hb.junction j).trans hj)
  obtain ⟨r', hr', hl, hbasis, hns, hev⟩ := junction_event ha hb (he ▸ hc) (lawful_faultedRec b j r)
  exact ⟨r', hr', hl, faulted_of_basis hl (hbasis.trans (basis_idle rfl)), hns _ (he ▸ hn), hev⟩

theorem event_proves {act : State → State} {s b : State} {j : Nat} {r : JunctionRec} {p : SwitchPosition} (ha : s.agenda = []) (hb : AtHand s b)
    (hj : s.junction j = some r) (hp : p ≠ .moving) (he : act s = b.operationEnds j p) : StandsAt s b j p (runEvent act s) := by
  obtain ⟨r', hr', hl, hbasis, -, hev⟩ :=
    junction_event ha hb (he ▸ calm_operationEnds ((hb.junction j).trans hj) p) (lawful_provedRec r hp)
  exact ⟨r', hr', hl, hbasis.trans (basis_idle rfl), hev⟩

/-! ### A DETECTION -/

theorem headDetection_detection {s : State} {j : Nat} {d : DetectionValue} {rest : List InMessage}
    (hq : s.wayside.inQueue = .detection j d :: rest) : s.headDetection = (s.setInQueue rest).takeDetection j d := by
  unfold State.headDetection State.popMessage
  rw [hq]
  rfl

theorem headDetection_other {s : State} (hq : ∀ j d rest, s.wayside.inQueue ≠ .detection j d :: rest) : s.headDetection = s := by
  unfold State.headDetection
  split
  · next h => exact absurd h (hq _ _ _)
  · rfl

section
variable {s : State} {j : Nat} {r : JunctionRec} (hj : s.junction j = some r) (d : DetectionValue)
include hj

theorem takeDetection_throw {target : SwitchSetting} {prior : SwitchPosition} {x : Timer} (ho : r.operation = some ⟨.throw target prior, .sent, x⟩) :
    s.takeDetection j d = if detectedPosition d = some (settingPosition target) then s.operationEnds j (settingPosition target) else s.enterFaulted j := by
  unfold State.takeDetection
  rw [hj]
  dsimp only
  rw [ho]

theorem takeDetection_proves {origin : ProveOrigin} {x : Timer} (ho : r.operation = some ⟨.prove origin, .sent, x⟩) {p : SwitchPosition}
    (hd : detectedPosition d = some p) (hp : r.position = .unknown ∨ r.position = p) : s.takeDetection j d = s.operationEnds j p := by
  unfold State.takeDetection
  rw [hj]
  dsimp only
  rw [ho, hd]
  exact if_pos hp

theorem takeDetection_disproves {origin : ProveOrigin} {x : Timer} (ho : r.operation = some ⟨.prove origin, .sent, x⟩)
    (h : detectedPosition d = none ∨ (r.position ≠ .unknown ∧ detectedPosition d ≠ some r.position)) : s.takeDetection j d = s.enterFaulted j := by
  unfold State.takeDetection
  rw [hj]
  dsimp only
  rw [ho]
  cases hd : detectedPosition d with
  | none => rfl
  | some p =>
    obtain ⟨hu, hne⟩ := h.resolve_left (by rw [hd]; simp)
    exact if_neg fun hp => hp.elim hu fun e => hne (by rw [hd, e])

theorem takeDetection_unsolicited (hn : ∀ q x, r.operation ≠ some ⟨q, .sent, x⟩) : s.takeDetection j d = s.unsolicited j r d := by
  unfold State.takeDetection
  rw [hj]
  dsimp only
  split
  · next h => exact absurd h (hn _ _)
  · next h => exact absurd h (hn _ _)
  · rfl

end

section
variable (s : State) (j : Nat) {r : JunctionRec} (hl : r.lawful) {d : DetectionValue}
include hl

/-- The detections that change nothing: the junction is FAULTED, awaits its recovery PROVE, or stands where it is detected (R58). -/
theorem unsolicited_agrees (h : r.position = .faulted ∨ (r.position = .unknown ∧ isRecovery r.operation = true) ∨
      ((r.position = .normal ∨ r.position = .reverse) ∧ detectedPosition d = some r.position) ∨
      (r.position = .moving ∧ detectedPosition d = some (basis r))) : s.unsolicited j r d = s := by
  unfold State.unsolicited
  rcases h with h | ⟨h, hr⟩ | ⟨h | h, hd⟩ | ⟨h, hd⟩
  · rw [h]
  · rw [h]
    exact if_pos hr
  · rw [h] at hd ⊢
    exact if_pos hd
  · rw [h] at hd ⊢
    exact if_pos hd
  · obtain ⟨target, prior, ph, x, ho⟩ := lawful_moving hl h
    rw [basis_throw ho] at hd
    rw [h, ho]
    exact if_pos hd

/-- The detections that fault the junction: one that disagrees with a recorded position or with a throw's prior position, or that names none where
none is recorded (R58). -/
theorem unsolicited_disagrees (h : ((r.position = .normal ∨ r.position = .reverse) ∧ detectedPosition d ≠ some r.position) ∨
      (r.position = .unknown ∧ isRecovery r.operation = false ∧ detectedPosition d = none) ∨
      (r.position = .moving ∧ detectedPosition d ≠ some (basis r))) : s.unsolicited j r d = s.enterFaulted j := by
  unfold State.unsolicited
  rcases h with ⟨h | h, hd⟩ | ⟨h, hr, hd⟩ | ⟨h, hd⟩
  · rw [h] at hd ⊢
    exact if_neg hd
  · rw [h] at hd ⊢
    exact if_neg hd
  · rw [h, hr, hd]
    rfl
  · obtain ⟨target, prior, ph, x, ho⟩ := lawful_moving hl h
    rw [basis_throw ho] at hd
    rw [h, ho]
    exact if_neg hd

end

theorem unsolicited_position (s : State) (j : Nat) {r : JunctionRec} {d : DetectionValue} {p : SwitchPosition} (h : r.position = .unknown)
    (hr : isRecovery r.operation = false) (hd : detectedPosition d = some p) :
    s.unsolicited j r d = (s.setJunction j (some { r with position := p })).tellHolder j := by
  unfold State.unsolicited
  rw [h, hr, hd]
  rfl

theorem exec_detection (s : State) : exec .detection s = .next (runEvent State.headDetection s) := rfl

/-- A DETECTION that sets nothing off leaves the state but for the in-queue. -/
theorem detection_nothing {s : State} {j : Nat} {d : DetectionValue} {rest : List InMessage} (hs : s.Settled)
    (hq : s.wayside.inQueue = .detection j d :: rest) (h : (s.setInQueue rest).takeDetection j d = s.setInQueue rest) :
    exec .detection s = .next (s.setInQueue rest).decideAttention := by
  rw [exec_detection, event_settled _ ((headDetection_detection hq).trans h) (settled_wayside hs _) rfl]

/-- An UNKNOWN junction takes the position that an unsolicited DETECTION names (R58). -/
theorem detection_positions {s : State} {j : Nat} {d : DetectionValue} {rest : List InMessage} {r : JunctionRec} {p : SwitchPosition}
    (ha : s.agenda = []) (hq : s.wayside.inQueue = .detection j d :: rest) (hj : s.junction j = some r) (hl : r.lawful)
    (hn : ∀ q x, r.operation ≠ some ⟨q, .sent, x⟩) (hu : r.position = .unknown) (hr : isRecovery r.operation = false)
    (hd : detectedPosition d = some p) : StandsAt s (s.setInQueue rest) j p (runEvent State.headDetection s) := by
  have he : s.headDetection = ((s.setInQueue rest).setJunction j (some { r with position := p })).tellHolder j := by
    rw [headDetection_detection hq, takeDetection_unsolicited (s := s.setInQueue rest) hj d hn, unsolicited_position _ _ hu hr hd]
  obtain ⟨hl', hb⟩ := lawful_positioned hl (by rw [hu]; decide) (detectedPosition_still hd)
  obtain ⟨r', hr', hl'', hb', -, hev⟩ := junction_event ha (atHand_setInQueue s rest) (he ▸ calm_tellHolder _ _) hl'
  exact ⟨r', hr', hl'', hb'.trans hb, hev⟩

/-- Settles O25: what a DETECTION taken answers is one of three edits of its junction, each followed by calm work. -/
theorem detectionsAreTakenByTheController : Obligations.DetectionsAreTakenByTheController := by
  unfold Obligations.DetectionsAreTakenByTheController
  refine ⟨fun s j d rest r target prior x ha hq hj ho => ?_, fun s j d rest r origin x ha hq hj ho => ?_,
    fun s hs hq => ?_, fun s j d rest hq => ⟨fun hs hj => ?_, fun r hj hl hn => ⟨fun hs h => ?_, fun p ha hu hr hd => ?_, fun ha h => ?_⟩⟩⟩
  · have he := (headDetection_detection hq).trans (takeDetection_throw (s := s.setInQueue rest) hj d ho)
    by_cases hd : detectedPosition d = some (settingPosition target)
    · rw [if_pos hd] at he
      obtain ⟨r', hr', hl, hb, hev⟩ := event_proves ha (atHand_setInQueue s rest) hj (settingPosition_still target) he
      exact ⟨_, r', rfl, hr', hl, fun _ => hb, fun h => absurd hd h, hev.inQueue, hev.pause, hev.others, hev.sensors, hev.hold, hev.frame⟩
    · rw [if_neg hd] at he
      obtain ⟨r', hr', hl, hf, hno, hev⟩ := event_faults ha (atHand_setInQueue s rest) hj he
      exact ⟨_, r', rfl, hr', hl, fun h => absurd h hd, fun _ => ⟨hf, hno⟩, hev.inQueue, hev.pause, hev.others, hev.sensors, hev.hold, hev.frame⟩
  · by_cases h : detectedPosition d = none ∨ (r.position ≠ .unknown ∧ detectedPosition d ≠ some r.position)
    · obtain ⟨r', hr', hl, hf, hno, hev⟩ := event_faults ha (atHand_setInQueue s rest) hj
        ((headDetection_detection hq).trans (takeDetection_disproves (s := s.setInQueue rest) hj d ho h))
      refine ⟨_, r', rfl, hr', hl, fun p hp hpos => ?_, fun _ => ⟨hf, hno⟩, hev.inQueue, hev.others, hev.sensors, hev.hold, hev.frame⟩
      rcases h with h | ⟨hu, hne⟩
      · rw [hp] at h; cases h
      · exact (hpos.elim hu fun e => hne (e ▸ hp)).elim
    · obtain ⟨p, hd⟩ := Option.ne_none_iff_exists'.1 fun e => h (.inl e)
      have hpos : r.position = .unknown ∨ r.position = p := by
        by_contra hc
        obtain ⟨hu, hne⟩ := not_or.1 hc
        exact h (.inr ⟨hu, fun e => hne (Option.some.inj (hd.symm.trans e)).symm⟩)
      obtain ⟨r', hr', hl, hb, hev⟩ := event_proves ha (atHand_setInQueue s rest) hj (detectedPosition_still hd)
        ((headDetection_detection hq).trans (takeDetection_proves (s := s.setInQueue rest) hj d ho hd hpos))
      exact ⟨_, r', rfl, hr', hl, fun p' hp' _ => hb.trans (Option.some.inj (hd.symm.trans hp')), fun hc => absurd hc h,
        hev.inQueue, hev.others, hev.sensors, hev.hold, hev.frame⟩
  · rw [exec_detection, event_nothing _ (headDetection_other hq) hs]
  · refine detection_nothing hs hq ?_
    unfold State.takeDetection
    rw [setInQueue_junction, hj]
  · exact detection_nothing hs hq ((takeDetection_unsolicited (s := s.setInQueue rest) hj d hn).trans (unsolicited_agrees _ j hl h))
  · obtain ⟨r', hr', hl', hb, hev⟩ := detection_positions ha hq hj hl hn hu hr hd
    exact ⟨_, r', rfl, hr', hl', hb, hev.inQueue, hev.others, hev.sensors, hev.hold, hev.frame⟩
  · obtain ⟨r', hr', -, hf, hno, hev⟩ := event_faults ha (atHand_setInQueue s rest) hj ((headDetection_detection hq).trans
      ((takeDetection_unsolicited (s := s.setInQueue rest) hj d hn).trans (unsolicited_disagrees _ j hl h)))
    exact ⟨_, r', rfl, hr', hf, hno, hev.inQueue, hev.others, hev.sensors, hev.hold, hev.frame⟩

/-! ### An operation timeout -/

theorem operationExpiry_sent {s : State} {j : Nat} {r : JunctionRec} {q : SwitchRequest} {time : Nat} (hj : s.junction j = some r)
    (ho : r.operation = some ⟨q, .sent, .running time⟩) : s.operationExpiry j = s.enterFaulted j := by
  obtain ⟨position, operation, hold, waiters, untrusted, underHolder⟩ := r
  subst ho
  unfold State.operationExpiry
  rw [hj]

theorem operationExpiry_idle {s : State} {j : Nat} {r : JunctionRec} (hj : s.junction j = some r)
    (ho : ∀ q time, r.operation ≠ some ⟨q, .sent, .running time⟩) : s.operationExpiry j = s := by
  unfold State.operationExpiry
  rw [hj]
  split
  · next h => exact absurd (congrArg JunctionRec.operation (Option.some.inj h)) (ho _ _)
  · rfl

theorem exec_operationTimerExpiry (j : Nat) (s : State) :
    exec (.operationTimerExpiry j) s = .next (runEvent (fun s => s.operationExpiry j) s) := rfl

/-- Settles O26: the expiry of a running operation timer is the entry into FAULTED, and nothing otherwise. -/
theorem operationTimeoutFaultsTheJunction : Obligations.OperationTimeoutFaultsTheJunction := by
  unfold Obligations.OperationTimeoutFaultsTheJunction
  refine fun s j r hj => ⟨fun q time ha ho => ?_, fun hs h => ?_⟩
  · obtain ⟨r', hr', -, hf, hno, hev⟩ :=
      event_faults (act := fun s => s.operationExpiry j) ha (AtHand.refl s) hj (operationExpiry_sent hj ho)
    exact ⟨_, r', rfl, hr', hf, hno, hev.others, hev.inQueue, hev.sensors, hev.hold, hev.frame⟩
  · have idle : ∀ q time, r.operation ≠ some ⟨q, .sent, .running time⟩ := by
      rintro q time e
      rcases h with h | ⟨_, _, h⟩ | ⟨_, _, h⟩ <;> cases h.symm.trans e
    rw [exec_operationTimerExpiry, event_nothing (fun s => s.operationExpiry j) (operationExpiry_idle hj idle) hs]

end Sys2Proof.Proofs
end

section
/-!
SUPPORT. `clear-switch` (R61), the end of an outgoing frame (R180, R181), and the reads of segments and transporters (R48, R131, R199).
-/

namespace Sys2Proof.Proofs

open Sys2Proof Sys2Proof.Machine Sys2Proof.Laws

/-! ### `clear-switch` -/

/-- A junction's record when `clear-switch` starts its recovery PROVE (R61). -/
def clearedRec (r : JunctionRec) : JunctionRec :=
  { r with position := .unknown, operation := some ⟨.prove .recovery, .queued, .stopped⟩ }

theorem lawful_clearedRec (r : JunctionRec) : (clearedRec r).lawful := (lawful_prove (r := clearedRec r) rfl).2 (by simp [clearedRec])

theorem unknown_of_recovery {r : JunctionRec} (hb : basis r = .unknown) (hr : isRecovery r.operation = true) : r.position = .unknown := by
  unfold basis at hb
  rcases hop : r.operation with - | ⟨_ | _, _, _⟩ <;> rw [hop] at hb hr
  · exact hb
  · cases hr
  · exact hb

/-- The state in which `clear-switch` has written the junction's record and hands the PROVE out. -/
def switchCleared (s : State) (j : Nat) (r : JunctionRec) : State := (s.setJunction j (some (clearedRec r))).handOut (.prove j)

theorem takeClearSwitch_faulted {s : State} (q : Ask) {j : Nat} {r : JunctionRec} (hn : j ≤ 127) (hd : s.isJunction j = true)
    (hj : s.junction j = some r) (hf : r.position = .faulted) :
    s.takeClearSwitch q j = (((switchCleared s j r).answer q .done .empty).emit (r.waiters.map fun slot => .represent slot j)).tellHolder j := by
  unfold State.takeClearSwitch
  rw [if_neg (by simp [hd, hn]), hj]
  dsimp only
  rw [if_neg (not_not_intro hf)]
  rfl

theorem takeClearSwitch_standing {s : State} (q : Ask) {j : Nat} {r : JunctionRec} (hn : j ≤ 127) (hd : s.isJunction j = true)
    (hj : s.junction j = some r) (hf : r.position ≠ .faulted) : s.takeClearSwitch q j = s.answer q .refusedState .empty := by
  unfold State.takeClearSwitch
  rw [if_neg (by simp [hd, hn]), hj]
  exact if_pos hf

theorem takeClearSwitch_range {s : State} (q : Ask) {j : Nat} (h : 127 < j ∨ s.isJunction j = false) :
    s.takeClearSwitch q j = s.answer q .refusedRange .empty := if_pos h

theorem switchCleared_calm (s : State) (j : Nat) (r : JunctionRec) : Calm (s.setJunction j (some (clearedRec r))) (switchCleared s j r) :=
  calm_handOut _ _

/-- What `clear-switch` of a FAULTED junction does is the write of its record, the answer, and calm work (R61). -/
theorem takeClearSwitch_calm {s : State} (hs : s.Ready) (h : Header) {j : Nat} {r : JunctionRec} (hn : j ≤ 127) (hd : s.isJunction j = true)
    (hj : s.junction j = some r) (hf : r.position = .faulted) :
    Calm ((s.setJunction j (some (clearedRec r))).answered h (.clearSwitch j) .done .empty) (s.takeClearSwitch ⟨h.tag, codeOf (.clearSwitch j)⟩ j) := by
  rw [takeClearSwitch_faulted _ hn hd hj hf, answer_ready hs (switchCleared_calm s j r).answers]
  refine ((calm_answered (switchCleared_calm s j r) h _ _ _).trans (calm_emit _ fun x hx => ?_)).trans (calm_tellHolder _ _)
  obtain ⟨_, _, rfl⟩ := List.mem_map.1 hx
  rfl

/-- Settles O24: a FAULTED junction's record is written and the PROVE handed out; everything else is refused and changes nothing. -/
theorem clearSwitchStartsARecoveryProve : Obligations.ClearSwitchStartsARecoveryProve := by
  unfold Obligations.ClearSwitchStartsARecoveryProve
  intro h j s hs hm
  have entry : (entryObject (.clearSwitch j)).bind (fun x => s.firstRefused h.originator [x]) = none := by rw [hm]; exact entry_maintenance s _
  have allowed : classAllows (classOf (.clearSwitch j)) h.originator = true := by rw [hm]; rfl
  have refused {o : Outcome} (hw : s.Settled)
      (e : s.takeClearSwitch ⟨h.tag, codeOf (.clearSwitch j)⟩ j = s.answer ⟨h.tag, codeOf (.clearSwitch j)⟩ o .empty) :
      exec (.clearSwitch h j) s = .next (s.answered h (.clearSwitch j) o .empty).decideAttention :=
    exec_answer_entry rfl hs hw allowed entry rfl e
  refine ⟨fun r hn hd hj hf => ?_, fun r hw hn hd hj hf => refused hw (takeClearSwitch_standing _ hn hd hj hf),
    fun hw hr => refused hw (takeClearSwitch_range _ hr)⟩
  have hc := takeClearSwitch_calm hs h hn hd hj hf
  obtain ⟨u, hu, hcalm⟩ := exec_calm (c := .clearSwitch h j) rfl hs allowed entry rfl rfl (noReport_of_kept hc.toKept hs.agenda)
    (hc.late.trans hs.late) hc.pending
  have hall := hc.trans hcalm
  have hst := hall.stations j
  rw [answered_junction, setJunction_junction_same] at hst
  cases hr : u.junction j with
  | none => rw [hr] at hst; exact hst.elim
  | some r' =>
    rw [hr] at hst
    obtain ⟨-, hb, hrec⟩ := hst (lawful_clearedRec r)
    refine ⟨u, r', hu, hr, unknown_of_recovery hb (hrec rfl), hrec rfl, hall.answers, ?_⟩
    rw [hall.answers]
    exact (frame_junctions (s.answered h (.clearSwitch j) .done .empty) (s.setJunction j (some (clearedRec r))).junctions).trans hall.frame

/-! ### The end of an outgoing frame -/

/-- The state in which an IDLE transmitter has taken message `m` out of the out-queue. -/
def messageTaken (s : State) (m : OutMessage) : State :=
  (s.setOutQueue (eraseFirst s.eligible s.wayside.outQueue)).setTransmitter (.sending m)

theorem sendComplete_takes {s : State} {m m' : OutMessage} (hm : s.wayside.transmitter = .sending m)
    (hf : s.wayside.outQueue.find? s.eligible = some m') : s.sendComplete = (messageTaken s m').transmitted m' := by
  unfold State.sendComplete
  rw [hm]
  exact commit_takes (s := s.setTransmitter .idle) rfl hf

theorem sendComplete_none {s : State} {m : OutMessage} (hm : s.wayside.transmitter = .sending m)
    (hf : s.wayside.outQueue.find? s.eligible = none) : s.sendComplete = s.setTransmitter .idle := by
  unfold State.sendComplete
  rw [hm]
  exact commit_barred (s := s.setTransmitter .idle) hf

/-- Under the array hold the transmitter takes a PROVE or a COUPLE (R169, R180, R181). -/
theorem eligible_held {s : State} (h : s.holdActive = true) {m : OutMessage} (hm : s.eligible m = true) :
    (∃ j, m = .prove j) ∨ ∃ p, m = .couple p := by
  cases m with
  | throw j d => simp [State.eligible, State.transmissionBarred, h] at hm
  | prove j => exact .inl ⟨j, rfl⟩
  | couple p => exact .inr ⟨p, rfl⟩
  | uncouple p => simp [State.eligible, State.transmissionBarred, h] at hm

theorem basis_station {r : JunctionRec} {x : Option JunctionRec} (h : StationKept (some r) x) (hl : r.lawful) : x.map basis = some (basis r) := by
  cases x with
  | none => exact h.elim
  | some r' => exact congrArg some (h hl).2.1

theorem exec_waysideSendComplete (s : State) : exec .waysideSendComplete s = .next (runEvent State.sendComplete s) := rfl

theorem settled_messageTaken {s : State} (h : s.Settled) (m : OutMessage) : (messageTaken s m).Settled := settled_wayside h _

/-- Settles O60: the transmitter that becomes free takes what a commit takes, and the owner's record is the one write beside it. -/
theorem sendCompleteTakesTheNextEligible : Obligations.SendCompleteTakesTheNextEligible := by
  unfold Obligations.SendCompleteTakesTheNextEligible
  intro s m hm
  refine ⟨fun m' ha hf => ?_, fun m' hs hc hf => ?_, fun hs hf => ?_⟩
  · have hcommit : Calm (s.setTransmitter .idle) s.sendComplete := by
      unfold State.sendComplete
      rw [hm]
      exact calm_commit _
    have hrun : Calm s.sendComplete (runEvent State.sendComplete s) :=
      calm_runEvent _ s hcommit.pending (noReport_of_kept hcommit.toKept ha)
    have htaken : Calm (messageTaken s m') s.sendComplete := by
      rw [sendComplete_takes hm hf]
      exact calm_transmitted _ _
    have hall := hcommit.trans hrun
    refine ⟨_, rfl, (htaken.trans hrun).sending m' rfl, fun hh => eligible_held hh (List.find?_some hf), fun j r _ hj hl => ?_,
      hall.sensors, hall.loads, hall.inQueue, hall.hold, ?_⟩
    · exact basis_station (hj ▸ hall.stations j) hl
    · exact Frame.trans (b := s.setTransmitter .idle) { (Kept.refl s).frame with } hall.frame
  · have done {t : State} (he : (messageTaken s m').transmitted m' = t) (ht : t.Settled) (hp : t.pending = s.pending) :
        exec .waysideSendComplete s = .next t.decideAttention := by
      rw [exec_waysideSendComplete, event_settled _ ((sendComplete_takes hm hf).trans he) ht hp]
    have htaken := settled_messageTaken hs m'
    have hcanon : (messageTaken s m').canonical := hc
    refine ⟨fun j r op hk hj ho => ?_, fun p hp hst => ?_, fun p hp => ?_⟩
    · have hsent := operationSent_some (s := messageTaken s m') hj ho
      have htold : (messageTaken s m').transmitted m' = (messageTaken s m').operationSent j := by
        rcases hk with rfl | ⟨d, rfl⟩ <;> rfl
      exact done (htold.trans hsent) (hsent ▸ settled_operationSent htaken hcanon j) rfl
    · subst hp
      refine done (if_pos hst) (settled_setPad htaken hcanon p _ (fun e => ?_) fun _ => .inr ⟨hst, by simp⟩) rfl
      have := congrArg PadRec.coupling e
      cases this
    · subst hp
      exact done rfl htaken rfl
  · rw [exec_waysideSendComplete, event_settled _ (sendComplete_none hm hf) (settled_wayside hs _) rfl]
    rfl

/-! ### Reads -/

theorem exec_read {c : Instr} {h : Header} {r : Request} {s : State} (hc : c.request? = some (h, r)) (hs : s.Ready) (hw : s.Settled)
    (h1 : classAllows (classOf r) h.originator = true) (h2 : entryObject r = none) (h3 : s.layoutRefuses r = false) {b : Body} {v : Bool}
    (e : s.owner ⟨h.tag, codeOf r⟩ h.originator r = s.answerTime v ⟨h.tag, codeOf r⟩ b) :
    ∃ k, exec c s = .next (State.decideAttention { s.answered h r .done b with freeCount := k }) := by
  obtain ⟨k, hk⟩ := submit_answer_drawn hs hw h r ((decideValid_owner h1 (by rw [h2]; rfl) h3).trans e)
  exact ⟨k, (exec_request hc s).trans (congrArg _ hk)⟩

/-- The time left to a hold's expiry, where it runs (R48, R53). -/
def holdTimeOf (r : JunctionRec) : Option Nat :=
  match r.hold with
  | .running x => some x
  | .expired => none

/-- What `read-segment` shows of a junction's record (R48). -/
def junctionShown (s : State) (n : Nat) : Option JunctionReading :=
  (if s.isJunction n then s.junction n else none).map fun r => { record := r, holdLeft := (holdTimeOf r).map s.timeLeft }

/-- The body of `read-segment` (R199). -/
def segmentShown (s : State) (n : Nat) : SegmentReading :=
  { declaration := s.decl n, dynamic := s.seg n, fenceCount := s.fenceCount n, junction := junctionShown s n }

theorem takeReadSegment_shown {s : State} (q : Ask) {n : Nat} (hn : n ≤ 127) :
    ∃ v, s.takeReadSegment q n = s.answerTime v q (.segment (segmentShown s n)) := by
  unfold State.takeReadSegment segmentShown junctionShown
  rw [if_neg (Nat.not_lt.2 hn)]
  cases (if s.isJunction n = true then s.junction n else none) with
  | none => exact ⟨_, rfl⟩
  | some r => exact ⟨_, rfl⟩

theorem junctionShown_record {s : State} {n : Nat} {x : JunctionReading} (h : junctionShown s n = some x) :
    x.holdLeft = (holdTimeOf x.record).map s.timeLeft := by
  obtain ⟨r, -, rfl⟩ := Option.map_eq_some_iff.1 h
  rfl

/-- The time left to a progress timer, where it runs (R131, R144). -/
def progressLeft (s : State) (r : TransporterRec) : Option Nat :=
  match r.progress with
  | .running x => some (s.timeLeft x)
  | .stopped => none

/-- The body of `read-transporter` for an enrolled transporter (R131). -/
def transporterShown (s : State) (t : Nat) (r : TransporterRec) : TransporterReading :=
  { record := r, progressLeft := progressLeft s r, run := s.run t, load := s.load t, refs := s.orderRefs t
    pollOutstanding := s.polls.outstanding.any fun x => decide (x.transporter = t) }

theorem takeReadTransporter_shown {s : State} (q : Ask) {t : Nat} (ht : t ≤ 3) {r : TransporterRec} (hr : s.train t = some r) :
    s.takeReadTransporter q t = s.answerTime (progressLeft s r).isSome q (.transporter (some (transporterShown s t r))) := by
  unfold State.takeReadTransporter
  rw [if_neg (Nat.not_lt.2 ht), hr]
  rfl

theorem takeReadTransporter_none {s : State} (q : Ask) {t : Nat} (ht : t ≤ 3) (hr : s.train t = none) :
    s.takeReadTransporter q t = s.answer q .done (.transporter none) := by
  unfold State.takeReadTransporter
  rw [if_neg (Nat.not_lt.2 ht), hr]

/-- Settles O14: each read is answered with the body that its records give, and a time left is a free value. -/
theorem readSegmentAndReadTransporterAnswerTheirRecords : Obligations.ReadSegmentAndReadTransporterAnswerTheirRecords := by
  unfold Obligations.ReadSegmentAndReadTransporterAnswerTheirRecords
  refine ⟨fun h n s hs hw => ⟨fun hn => exec_answer rfl hs hw rfl rfl rfl (if_pos hn), fun hn => ?_⟩,
    fun h t s hs hw => ⟨fun ht => exec_answer rfl hs hw rfl rfl rfl (if_pos ht),
      fun ht hr => exec_answer rfl hs hw rfl rfl rfl (takeReadTransporter_none _ ht hr), fun r ht hr => ?_⟩⟩
  · obtain ⟨v, hv⟩ := takeReadSegment_shown (s := s) ⟨h.tag, codeOf (.readSegment n)⟩ hn
    obtain ⟨k, hk⟩ := exec_read (c := .readSegment h n) rfl hs hw rfl rfl rfl hv
    refine ⟨segmentShown s n, k, hk, rfl, rfl, rfl, ?_, fun j hj time ht => ?_, fun j hj ht => ?_⟩
    · exact (Option.map_map ..).trans Option.map_id_apply
    · exact ⟨s.timeLeft time, (junctionShown_record hj).trans (by unfold holdTimeOf; rw [ht]; rfl), timeLeft_le s time⟩
    · exact (junctionShown_record hj).trans (by unfold holdTimeOf; rw [ht]; rfl)
  · obtain ⟨k, hk⟩ := exec_read (c := .readTransporter h t) rfl hs hw rfl rfl rfl (takeReadTransporter_shown _ ht hr)
    refine ⟨transporterShown s t r, k, hk, rfl, rfl, rfl, rfl, ?_, fun time hp => ?_, fun hp => ?_⟩
    · simp [transporterShown, Option.any_eq_true]
    · exact ⟨s.timeLeft time, by unfold transporterShown progressLeft; rw [hp], timeLeft_le s time⟩
    · unfold transporterShown progressLeft
      rw [hp]

end Sys2Proof.Proofs
end

section
/-!
SUPPORT. The record laws (O4): what every event of the blocks keeps of them.
-/

namespace Sys2Proof.Proofs

open Sys2Proof Sys2Proof.Machine Sys2Proof.Laws

/-! ### The array hold and the wayside link -/

theorem upheld_changeHold (s : State) (v : HoldSources) : Upheld s (s.changeHold v) :=
  (upheld_setHold s v).trans (upheld_calm (calm_changeHold s v))

theorem upheld_checkError (s : State) : Upheld s s.checkError := (upheld_setReceiver s _).trans (upheld_changeHold _ _)

theorem upheld_heardWayside (s : State) : Upheld s s.heardWayside := ⟨⟨fun h => { h with }, fun h => h⟩, le_rfl, le_rfl⟩

/-- A message joins an in-queue of fewer than 16 (R173). -/
theorem upheld_queueMessage (s : State) (m : InMessage) : Upheld s (s.queueMessage m) := by
  unfold State.queueMessage
  refine upheld_ite (fun _ => upheld_ite (fun _ => upheld_changeHold s _) fun h => upheld_setInQueue s fun _ => ?_) (fun _ => .refl s)
  rw [List.length_append]
  exact Nat.lt_of_not_le h

theorem upheld_judge (s : State) (bytes : List Byte) : Upheld s (s.judge bytes) := by
  unfold State.judge
  split
  · exact upheld_checkError s
  · exact (upheld_setReceiver s _).trans (upheld_heardWayside _)
  · exact ((upheld_setReceiver s _).trans (upheld_heardWayside _)).trans (upheld_queueMessage _ _)

theorem upheld_receiveByte (s : State) (b : Byte) : Upheld s (s.receiveByte b) := by
  unfold State.receiveByte
  split
  · exact upheld_ite (fun _ => upheld_setReceiver s _) (fun _ => upheld_checkError s)
  · exact upheld_ite (fun _ => upheld_setReceiver s _) (fun _ => upheld_judge s _)

theorem upheld_byteGap (s : State) : Upheld s s.byteGap := by
  unfold State.byteGap
  split
  · exact .refl s
  · exact upheld_checkError s

theorem upheld_silenceExpiry (s : State) : Upheld s s.silenceExpiry := by
  unfold State.silenceExpiry
  split
  · exact Upheld.trans (b := { s with wayside := { s.wayside with silence := .expired, link := .silent } })
      ⟨⟨fun h => { h with }, fun h => h⟩, le_rfl, le_rfl⟩ (upheld_changeHold _ _)
  · exact .refl s

theorem upheld_popMessage (s : State) : Upheld s s.popMessage := upheld_setInQueue s fun h => by rw [List.length_drop]; omega

theorem upheld_sendComplete (s : State) : Upheld s s.sendComplete := by
  unfold State.sendComplete
  split
  · exact (upheld_setTransmitter s _).trans (upheld_calm (calm_commit _))
  · exact .refl s

/-! ### Sensors, switches and their timers -/

theorem upheld_takeSensor (s : State) (n : Nat) (v : Bool) : Upheld s (s.takeSensor n v) := by
  unfold State.takeSensor
  dsimp only
  split
  · refine Upheld.trans ?_ (upheld_calm (calm_withdrawThrow _ n))
    refine Upheld.trans ?_ (upheld_emit _ _)
    exact (upheld_setSeg s n _).trans (upheld_ite (fun _ => upheld_calm (calm_raise _ _ _)) (fun _ => .refl _))
  · refine Upheld.trans (Upheld.trans (upheld_setSeg s n { s.seg n with sensor := .clear }) ?_) (upheld_emit _ _)
    split
    · exact upheld_ite (fun _ => upheld_emit _ _) (fun _ => .refl _)
    · exact upheld_emit _ _

theorem upheld_enterFaulted (s : State) (j : Nat) : Upheld s (s.enterFaulted j) := by
  cases hj : s.junction j with
  | none =>
    unfold State.enterFaulted
    rw [hj]
    exact .refl s
  | some r => exact (upheld_setJunction s j _ fun _ => lawful_faultedRec s j r).trans (upheld_calm (calm_enterFaulted hj).1)

theorem upheld_operationEnds (s : State) (j : Nat) {p : SwitchPosition} (hp : p ≠ .moving) : Upheld s (s.operationEnds j p) := by
  cases hj : s.junction j with
  | none =>
    unfold State.operationEnds
    rw [hj]
    exact .refl s
  | some r => exact (upheld_setJunction s j _ fun _ => lawful_provedRec r hp).trans (upheld_calm (calm_operationEnds hj p))

theorem upheld_unsolicited {s : State} {j : Nat} {r : JunctionRec} (hj : s.junction j = some r) (d : DetectionValue) :
    Upheld s (s.unsolicited j r d) := by
  unfold State.unsolicited
  split
  · exact .refl s
  · split
    · exact upheld_ite (fun _ => .refl s) (fun _ => upheld_enterFaulted s j)
    · exact .refl s
  · next hu =>
    refine upheld_ite (fun _ => .refl s) (fun _ => ?_)
    split
    · next p hp =>
      refine (upheld_setJunction s j _ fun hl => ?_).trans (upheld_calm (calm_tellHolder _ j))
      exact (lawful_positioned (hl r hj) (by rw [hu]; decide) (detectedPosition_still hp)).1
    · exact upheld_enterFaulted s j
  · exact upheld_ite (fun _ => .refl s) (fun _ => upheld_enterFaulted s j)

theorem upheld_takeDetection (s : State) (j : Nat) (d : DetectionValue) : Upheld s (s.takeDetection j d) := by
  unfold State.takeDetection
  split
  · exact .refl s
  · next r hj =>
    split
    · exact upheld_ite (fun _ => upheld_operationEnds s j (settingPosition_still _)) (fun _ => upheld_enterFaulted s j)
    · split
      · next p hp => exact upheld_ite (fun _ => upheld_operationEnds s j (detectedPosition_still hp)) (fun _ => upheld_enterFaulted s j)
      · exact upheld_enterFaulted s j
    · exact upheld_unsolicited hj d

theorem upheld_operationExpiry (s : State) (j : Nat) : Upheld s (s.operationExpiry j) := by
  unfold State.operationExpiry
  split
  · exact upheld_enterFaulted s j
  · exact .refl s

theorem upheld_holdExpiry (s : State) (j : Nat) : Upheld s (s.holdExpiry j) := by
  unfold State.holdExpiry
  split
  · next r hj =>
    split
    · exact (upheld_calm (calm_setJunction s j (by rw [hj]; exact station_aside r _ rfl rfl))).trans (upheld_emit _ _)
    · exact .refl s
  · exact .refl s

theorem upheld_intervalExpiry (s : State) : Upheld s s.intervalExpiry := by
  unfold State.intervalExpiry
  split
  · exact upheld_calm (calm_setInterval s _)
  · exact .refl s

/-! ### Pads -/

theorem upheld_coupled (s : State) (p : Nat) : Upheld s (s.coupled p) := (upheld_setPad s p _).trans (upheld_calm (calm_takeBackCouple _ p))

theorem upheld_giveUpCoupling (s : State) (p : Nat) : Upheld s (s.giveUpCoupling p) :=
  ((upheld_calm (calm_raise s _ _)).trans (upheld_setPad _ p _)).trans (upheld_calm (calm_takeBackCouple _ p))

theorem upheld_transferPadEvent (s : State) (p : Nat) (x : TransferRec) (e : PadEventValue) : Upheld s (s.transferPadEvent p x e) := by
  have fails : Upheld s (s.stationFails p x) := upheld_kept (kept_stationFails s p x)
  have confirms : Upheld s (s.stationConfirms p x) := upheld_kept (kept_stationConfirms s p x)
  have heard : ∀ y, Upheld s (s.setTransfer p y) := fun y => upheld_calm (calm_setTransfer s p y)
  unfold State.transferPadEvent
  cases x.phase with
  | uncoupling =>
    cases e with
    | uncoupled => exact (heard _).trans (upheld_calm (calm_takeBackUncouple _ p))
    | coupled | loadSensed => exact heard _
    | loadClear | fault => exact fails
  | lifting =>
    cases e with
    | loadClear => exact confirms
    | uncoupled => exact .refl s
    | loadSensed => exact upheld_ite (fun _ => fails) (fun _ => .refl s)
    | coupled | fault => exact fails
  | setting =>
    cases e with
    | loadSensed => exact confirms
    | uncoupled => exact .refl s
    | loadClear => exact upheld_ite (fun _ => fails) (fun _ => .refl s)
    | coupled | fault => exact fails

theorem upheld_idlePadEvent (s : State) (p : Nat) (e : PadEventValue) : Upheld s (s.idlePadEvent p e) := by
  have fault : Upheld s (s.raise .padFault p) := upheld_calm (calm_raise s _ _)
  unfold State.idlePadEvent
  cases (s.pad p).state with
  | seated =>
    cases e with
    | uncoupled | loadSensed => exact .refl s
    | coupled => exact upheld_coupled s p
    | loadClear => exact fault
    | fault => exact upheld_ite (fun _ => fault) (fun _ => upheld_giveUpCoupling s p)
  | undeclared | releasing => exact .refl s
  | unsettled => exact fault
  | vacant | inbound | anchored | barred => cases e <;> first | exact .refl s | exact fault

theorem upheld_takePadEvent (s : State) (p : Nat) (e : PadEventValue) : Upheld s (s.takePadEvent p e) := by
  unfold State.takePadEvent
  split
  · exact upheld_transferPadEvent s p _ e
  · exact upheld_idlePadEvent s p e

theorem upheld_transferExpiry (s : State) (p : Nat) : Upheld s (s.transferExpiry p) := by
  unfold State.transferExpiry
  split
  · split
    · exact upheld_kept (kept_failTransfer _ _ _ _ _)
    · exact .refl s
  · exact .refl s

theorem upheld_couplingExpiry (s : State) (p : Nat) : Upheld s (s.couplingExpiry p) := by
  unfold State.couplingExpiry
  dsimp only
  split
  · exact upheld_ite (fun _ => upheld_giveUpCoupling s p) (fun _ => .refl s)
  · exact .refl s

/-! ### Transporters -/

theorem upheld_setCondition (s : State) (t : Nat) (c : Condition) : Upheld s (s.setCondition t c) := by
  refine Upheld.trans ?_ (upheld_emit _ _)
  exact upheld_updateTrain s t _ fun _ h => h

theorem upheld_stall (s : State) (t : Nat) : Upheld s (s.stall t) :=
  ((upheld_calm (calm_raise s _ _)).trans (upheld_setCondition _ t _)).trans (upheld_emit _ _)

theorem upheld_goAstray (s : State) (t : Nat) : Upheld s (s.goAstray t) :=
  (upheld_calm (calm_raise s _ _)).trans (upheld_setCondition _ t _)

theorem upheld_goLost (s : State) (t : Nat) : Upheld s (s.goLost t) :=
  (upheld_calm (calm_raise s _ _)).trans (upheld_setCondition _ t _)

theorem upheld_backToNormal (s : State) (t : Nat) : Upheld s (s.backToNormal t) := by
  refine Upheld.trans (Upheld.trans ?_ (upheld_calm (calm_makeActiveDue _ t))) (upheld_emit _ _)
  exact upheld_updateTrain s t _ fun _ h => h

theorem upheld_endPoll (s : State) : Upheld s s.endPoll := upheld_polls s rfl

theorem upheld_setLeaving (s : State) (ns : List Nat) (n : Nat) : Upheld s (s.setLeaving ns n) :=
  (Upheld.foldl (fun s x => upheld_setSeg s x _) ns s).trans (upheld_setSeg _ n _)

theorem upheld_overrun (s : State) (t n : Nat) (track : List Nat) : Upheld s (s.overrun t n track) := by
  unfold State.overrun
  exact upheld_ite (fun _ => upheld_calm ((calm_unmark s _).trans (calm_settleConfirm _ t))) (fun _ => .refl s)

theorem upheld_moveCursor (s : State) (t n : Nat) : Upheld s (s.moveCursor t n) := by
  unfold State.moveCursor
  split
  · exact .refl s
  · next k o ha =>
    refine upheld_ite (fun _ => ?_) (fun _ => .refl s)
    split
    · exact .refl s
    · refine Upheld.trans ?_ (upheld_calm (calm_makeDue _ k))
      exact upheld_calm (calm_reshape s k (active_order ha) rfl)

theorem upheld_takePosition (s : State) (t m n : Nat) : Upheld s (s.takePosition t m n).1 := by
  unfold State.takePosition
  split
  · exact .refl s
  · refine Upheld.trans (Upheld.trans ?_ (upheld_overrun _ t n _)) (upheld_moveCursor _ t n)
    refine (upheld_setLeaving s (s.leavingMarks t m n) n).trans ?_
    exact upheld_updateTrain _ t _ fun _ h => h

theorem upheld_reportPosition (s : State) (r : Report) : Upheld s (s.reportPosition r) := by
  unfold State.reportPosition
  dsimp only
  split
  · exact .refl s
  · next x _ =>
    refine upheld_ite (fun _ => .refl s) (fun _ => upheld_ite (fun _ => upheld_goAstray s _) (fun _ => ?_))
    refine Upheld.trans ?_ (upheld_emit _ _)
    exact (upheld_ite (fun _ => upheld_backToNormal s _) (fun _ => .refl s)).trans (upheld_takePosition _ _ _ _)

theorem upheld_takeReport (s : State) (r : Report) (x : Poll) : Upheld s (s.takeReport r x) :=
  (((upheld_endPoll s).trans (upheld_updateTrain _ _ _ fun _ _ => Nat.zero_le 8)).trans (upheld_reportPosition _ r)).trans (upheld_emit _ _)

theorem upheld_hearFrame (s : State) (bytes : List Byte) : Upheld s (s.hearFrame bytes) := by
  unfold State.hearFrame
  split
  · unfold State.hearReport
    split
    · exact upheld_ite (fun _ => upheld_takeReport s _ _) (fun _ => .refl s)
    · exact .refl s
  · exact .refl s

theorem upheld_gapExpiry (s : State) : Upheld s s.gapExpiry := by
  unfold State.gapExpiry
  split
  · refine Upheld.trans ?_ (upheld_emit _ _)
    exact upheld_polls s rfl
  · exact .refl s

theorem upheld_pollTransmitted (s : State) : Upheld s s.pollTransmitted := by
  unfold State.pollTransmitted
  split
  · exact upheld_ite (fun _ => .refl s) (fun _ => upheld_polls s rfl)
  · exact .refl s

/-- A missed reply counts, up to 8 (R129, R140). -/
theorem upheld_windowExpiry (s : State) : Upheld s s.windowExpiry := by
  unfold State.windowExpiry
  split
  · refine Upheld.trans ?_ (upheld_emit _ _)
    refine Upheld.trans ?_ (upheld_ite (fun _ => upheld_goLost _ _) (fun _ => .refl _))
    exact ((upheld_endPoll s).trans (upheld_updateTrain _ _ _ fun _ _ => Nat.min_le_left 8 _)).trans (upheld_calm (calm_confirmMissed _ _))
  · exact .refl s

theorem upheld_progressExpiry (s : State) (t : Nat) : Upheld s (s.progressExpiry t) := by
  unfold State.progressExpiry
  split
  · exact upheld_ite (fun _ => upheld_stall s t) (fun _ => .refl s)
  · exact .refl s

/-! ### Any event -/

/-- The edits with which the commands of the pins, the links and the timers begin. -/
inductive BlockEvent : (State → State) → Prop where
  | line (v : Bool) : BlockEvent fun s => s.setLine v
  | gapExpiry : BlockEvent State.gapExpiry
  | pollTransmitted : BlockEvent State.pollTransmitted
  | report (bytes : List Byte) : BlockEvent fun s => s.hearFrame bytes
  | windowExpiry : BlockEvent State.windowExpiry
  | progressExpiry (t : Nat) : BlockEvent fun s => s.progressExpiry t
  | waysideFrame (bytes : List Byte) : BlockEvent fun s => bytes.foldl State.receiveByte s
  | waysideByte (b : Byte) : BlockEvent fun s => s.receiveByte b
  | byteGap : BlockEvent State.byteGap
  | silenceExpiry : BlockEvent State.silenceExpiry
  | sensor : BlockEvent State.headSensor
  | detection : BlockEvent State.headDetection
  | padEvent : BlockEvent State.headPadEvent
  | sendComplete : BlockEvent State.sendComplete
  | operationExpiry (j : Nat) : BlockEvent fun s => s.operationExpiry j
  | holdExpiry (j : Nat) : BlockEvent fun s => s.holdExpiry j
  | intervalExpiry : BlockEvent State.intervalExpiry
  | transferExpiry (p : Nat) : BlockEvent fun s => s.transferExpiry p
  | couplingExpiry (p : Nat) : BlockEvent fun s => s.couplingExpiry p

theorem upheld_head {s : State} {t : State} (h : Upheld s.popMessage t) : Upheld s t := (upheld_popMessage s).trans h

theorem BlockEvent.upheld {act : State → State} (h : BlockEvent act) (s : State) : Upheld s (act s) := by
  cases h with
  | line v => exact upheld_changeHold s _
  | gapExpiry => exact upheld_gapExpiry s
  | pollTransmitted => exact upheld_pollTransmitted s
  | report bytes => exact upheld_hearFrame s bytes
  | windowExpiry => exact upheld_windowExpiry s
  | progressExpiry t => exact upheld_progressExpiry s t
  | waysideFrame bytes => exact Upheld.foldl upheld_receiveByte bytes s
  | waysideByte b => exact upheld_receiveByte s b
  | byteGap => exact upheld_byteGap s
  | silenceExpiry => exact upheld_silenceExpiry s
  | sensor =>
    unfold State.headSensor
    split
    · exact upheld_head (upheld_takeSensor _ _ _)
    · exact .refl s
  | detection =>
    unfold State.headDetection
    split
    · exact upheld_head (upheld_takeDetection _ _ _)
    · exact .refl s
  | padEvent =>
    unfold State.headPadEvent
    split
    · exact upheld_head (upheld_takePadEvent _ _ _)
    · exact .refl s
  | sendComplete => exact upheld_sendComplete s
  | operationExpiry j => exact upheld_operationExpiry s j
  | holdExpiry j => exact upheld_holdExpiry s j
  | intervalExpiry => exact upheld_intervalExpiry s
  | transferExpiry p => exact upheld_transferExpiry s p
  | couplingExpiry p => exact upheld_couplingExpiry s p

end Sys2Proof.Proofs
end

section
/-!
SUPPORT. The record laws (O4): what every request keeps of them.
-/

namespace Sys2Proof.Proofs

open Sys2Proof Sys2Proof.Machine Sys2Proof.Laws

theorem Upheld.answer {s t : State} (h : Upheld s t) (q : Ask) (o : Outcome) (b : Body) : Upheld s (t.answer q o b) :=
  h.trans (upheld_answer t q o b)

/-! ### Reads -/

theorem upheld_answerTime (s : State) (v : Bool) (q : Ask) (b : Body) : Upheld s (s.answerTime v q b) :=
  (upheld_ite (fun _ => upheld_calm (calm_drawn s)) (fun _ => .refl s)).answer q _ b

theorem upheld_takeReadSegment (s : State) (q : Ask) (n : Nat) : Upheld s (s.takeReadSegment q n) :=
  upheld_ite (fun _ => upheld_answer s q _ _) (fun _ => upheld_answerTime s _ q _)

theorem upheld_takeReadPad (s : State) (q : Ask) (p : Nat) : Upheld s (s.takeReadPad q p) :=
  upheld_ite (fun _ => upheld_answer s q _ _) (fun _ => upheld_answerTime s _ q _)

theorem upheld_takeReadTransporter (s : State) (q : Ask) (t : Nat) : Upheld s (s.takeReadTransporter q t) := by
  refine upheld_ite (fun _ => upheld_answer s q _ _) (fun _ => ?_)
  split
  · exact upheld_answer s q _ _
  · exact upheld_answerTime s _ q _

theorem upheld_takeReadOrder (s : State) (q : Ask) (k : Nat) (part : Option Nat) : Upheld s (s.takeReadOrder q k part) := by
  refine upheld_ite (fun _ => upheld_answer s q _ _) (fun _ => ?_)
  split <;> exact upheld_answer s q _ _

theorem upheld_takeReadTelescope (s : State) (q : Ask) (x : Nat) : Upheld s (s.takeReadTelescope q x) :=
  upheld_ite (fun _ => upheld_answer s q _ _) (fun _ => upheld_answer s q _ _)

theorem upheld_takeSweepPads (s : State) (q : Ask) (first count : Nat) (d : Sense) : Upheld s (s.takeSweepPads q first count d) :=
  upheld_ite (fun _ => upheld_answer s q _ _) (fun _ => upheld_answer s q _ _)

/-! ### The port's own requests -/

theorem upheld_takeFetchNotice (s : State) (q : Ask) : Upheld s (s.takeFetchNotice q) := by
  unfold State.takeFetchNotice
  split
  · exact upheld_answer s q _ _
  · next n rest h => exact (upheld_setNotices s fun ho => by rw [h] at ho; exact (List.pairwise_cons.1 ho).2).answer q _ _

theorem upheld_takeSetNoticeEnables (s : State) (q : Ask) (e : Word16) : Upheld s (s.takeSetNoticeEnables q e) :=
  upheld_ite (fun _ => upheld_answer s q _ _) fun _ =>
    (upheld_enables s e).answer q _ _

/-- What a replaced parameter reads is the new value (R203). -/
theorem value_replace_same {p : Params} {n x v : Nat} (h : (p.replace n x).value n = some v) : v = x := by
  unfold Params.replace at h
  split at h
  case h_14 =>
    unfold Params.value at h
    split at h <;> contradiction
  all_goals exact (Option.some.inj h).symm

theorem value_replace_other (p : Params) {m n : Nat} (x : Nat) (h : n ≠ m) : (p.replace m x).value n = p.value n := by
  unfold Params.replace
  split
  case h_14 => rfl
  all_goals
    unfold Params.value
    split
    all_goals trivial

theorem upheld_takeSetParameter (s : State) (q : Ask) (n v : Nat) : Upheld s (s.takeSetParameter q n v) := by
  unfold State.takeSetParameter
  split
  · exact upheld_answer s q _ _
  · refine upheld_ite (fun hv => ?_) (fun _ => upheld_answer s q _ _)
    refine (upheld_params s fun m x hx => ?_).answer q _ _
    by_cases e : m = n
    · subst e
      rw [value_replace_same hx]
      exact .inr hv
    · exact .inl (value_replace_other s.port.params v e ▸ hx)

/-! ### The layout and the switches -/

theorem upheld_takeDeclareSegment (s : State) (q : Ask) (n : Nat) (d : SegDecl) : Upheld s (s.takeDeclareSegment q n d) := by
  unfold State.takeDeclareSegment
  split
  · exact upheld_answer s q _ _
  · exact (upheld_setDecl s n _).answer q _ _

theorem upheld_takeUpJunctions (s : State) : Upheld s s.takeUpJunctions := by
  rw [takeUpJunctions_eq]
  refine Upheld.foldl (fun s e => upheld_ite (fun _ => ?_) (fun _ => .refl s)) _ s
  exact upheld_setJunction s e.1 _ fun _ => (lawful_idle rfl).2 (by decide)

theorem upheld_closedLayout (s : State) : Upheld s (closedLayout s) := ⟨⟨fun h => { h with }, fun h => h⟩, le_rfl, le_rfl⟩

theorem upheld_takeCloseLayout (s : State) (q : Ask) : Upheld s (s.takeCloseLayout q) := by
  unfold State.takeCloseLayout
  split
  · exact upheld_answer s q _ _
  · exact ((upheld_closedLayout s).trans (upheld_takeUpJunctions _)).answer q _ _

theorem upheld_takeClearSwitch (s : State) (q : Ask) (j : Nat) : Upheld s (s.takeClearSwitch q j) := by
  refine upheld_ite (fun _ => upheld_answer s q _ _) (fun _ => ?_)
  split
  · exact upheld_answer s q _ _
  · next r hj =>
    refine upheld_ite (fun _ => upheld_answer s q _ _) (fun _ => ?_)
    refine Upheld.trans (Upheld.trans (Upheld.answer ?_ q _ _) (upheld_emit _ _)) (upheld_calm (calm_tellHolder _ j))
    exact (upheld_setJunction s j (clearedRec r) fun _ => lawful_clearedRec r).trans (upheld_calm (switchCleared_calm s j r))

/-! ### Orders -/

theorem freeSlot_le {s : State} {k : Nat} (h : s.freeSlot = some k) : k ≤ 7 := by
  have hm := List.mem_of_find?_eq_some h
  unfold slots at hm
  simp at hm
  omega

theorem upheld_takeClaim (s : State) (k t : Nat) (f : Finish) : Upheld s (s.takeClaim k t f) := by
  unfold State.takeClaim
  split
  · exact .refl s
  · exact upheld_setPad s _ _
  · split
    · exact upheld_setPad s _ _
    · exact .refl s

theorem upheld_takeSubmitOrder (s : State) (q : Ask) (who : Originator) (t : Nat) (kind : OrderKind) (f : Finish) (leg : List Stretch) :
    Upheld s (s.takeSubmitOrder q who t kind f leg) := by
  unfold State.takeSubmitOrder
  split
  · exact upheld_answer s q _ _
  · next k route h =>
    refine Upheld.answer (Upheld.trans ?_ (upheld_emit _ _)) q _ _
    refine Upheld.trans ?_ (upheld_calm (calm_makeDue _ k))
    refine Upheld.trans ?_ (upheld_takeClaim _ k t f)
    exact (upheld_setOrder s k _ (freeSlot_le (decideSubmission_slot h))).trans (upheld_calm (calm_setRefs _ t _))

theorem upheld_startDivert (s : State) (t k : Nat) (o : Order) (place : Place) (h : k ≤ 7) : Upheld s (s.startDivert t k o place) := by
  unfold State.startDivert
  refine Upheld.trans (Upheld.trans (upheld_setOrder s k { o with state := .starting, rejoin := some place } h) ?_) (upheld_emit _ _)
  split
  · exact upheld_calm (calm_removeHead _ _)
  · exact .refl _

theorem upheld_takeDivert (s : State) (q : Ask) (who : Originator) (t : Nat) (a b : List Stretch) : Upheld s (s.takeDivert q who t a b) := by
  unfold State.takeDivert
  split
  · exact upheld_answer s q _ _
  · next h => exact (upheld_startDivert s t _ _ _ (freeSlot_le (decideDivert_slot h))).trans (upheld_answerAfter _ _)
  · next h => exact ((upheld_setOrder s _ _ (freeSlot_le (decideDivert_slot h))).trans (upheld_calm (calm_setRefs _ t _))).answer q _ _

theorem upheld_takeResumeRefuge (s : State) (q : Ask) (k : Nat) : Upheld s (s.takeResumeRefuge q k) := by
  refine upheld_ite (fun _ => upheld_answer s q _ _) (fun _ => ?_)
  split
  · exact upheld_answer s q _ _
  · next o ho =>
    refine upheld_ite (fun _ => upheld_answer s q _ _) (fun _ => ?_)
    refine Upheld.trans (Upheld.trans ?_ (upheld_emit _ _)) (upheld_answerAfter _ _)
    refine Upheld.trans ?_ (upheld_calm (calm_makeDue _ k))
    exact upheld_calm (calm_reshape s k ho rfl)

theorem upheld_beginCancel (s : State) (q : Ask) (k : Nat) : Upheld s (s.beginCancel q k) := by
  unfold State.beginCancel
  split
  · exact .refl s
  · next o ho =>
    refine Upheld.trans (Upheld.trans ?_ (upheld_emit _ _)) (upheld_answerAfter _ _)
    refine Upheld.trans (Upheld.trans ?_ (upheld_calm (calm_removeHead _ k))) (upheld_calm (calm_dropClaim _ k))
    exact upheld_calm (calm_reshape s k ho rfl)

theorem upheld_cancelRefuge (s : State) (q : Ask) (k t : Nat) : Upheld s (s.cancelRefuge q k t) :=
  (upheld_beginCancel s q k).trans (Upheld.foldl (fun s x => upheld_calm (calm_endOrder s x _)) _ _)

theorem upheld_takeCancelOrder (s : State) (q : Ask) (k : Nat) : Upheld s (s.takeCancelOrder q k) := by
  have refused : Upheld s (s.answer q .refusedState .empty) := upheld_answer s q _ _
  refine upheld_ite (fun _ => upheld_answer s q _ _) (fun _ => ?_)
  split
  · exact refused
  · next o _ =>
    dsimp only
    split
    · exact upheld_ite (fun _ => refused) fun _ => upheld_ite (fun _ => upheld_cancelRefuge s q k _) fun _ => upheld_beginCancel s q k
    · exact upheld_ite (fun _ => refused) fun _ => upheld_cancelRefuge s q k _
    · exact upheld_beginCancel s q k
    · exact (upheld_calm (calm_endOrder s k _)).answer q _ _
    · exact (upheld_calm (((calm_endOrder s k _).trans (calm_makeActiveDue _ _)).trans (calm_emit _ (by simp [inReport])))).answer q _ _
    · exact refused

/-! ### Pads and loads -/

theorem upheld_placeTelescope (s : State) (x : Nat) (p : Placement) : Upheld s (s.placeTelescope x p) := upheld_kept (kept_placeTelescope s x p)

theorem upheld_putPad (s : State) (p : Nat) (r : PadRec) (x : PadTarget) : Upheld s (s.putPad p r x) := by
  cases x with
  | vacant | barred => exact upheld_setPad s p _
  | anchored y =>
    refine Upheld.trans ?_ (upheld_placeTelescope _ y (.onPad p))
    exact upheld_setPad s p _

theorem upheld_takeDeclarePad (s : State) (q : Ask) (p access guard : Nat) (x : PadTarget) : Upheld s (s.takeDeclarePad q p access guard x) := by
  unfold State.takeDeclarePad
  split
  · exact upheld_answer s q _ _
  · exact (upheld_putPad s p _ x).answer q _ _

theorem upheld_takeSettlePad (s : State) (q : Ask) (p : Nat) (x : PadTarget) : Upheld s (s.takeSettlePad q p x) :=
  upheld_ite (fun _ => upheld_answer s q _ _) fun _ => upheld_ite (fun _ => upheld_answer s q _ _) fun _ =>
    upheld_ite (fun _ => upheld_answer s q _ _) fun _ => (upheld_putPad s p _ x).answer q _ _

theorem upheld_takeUpLoad (s : State) (t : Nat) (l : LoadTarget) : Upheld s (s.takeUpLoad t l) := by
  cases l with
  | none => exact upheld_kept (kept_changeLoad s t _)
  | telescope x => exact (upheld_placeTelescope s x _).trans (upheld_kept (kept_changeLoad _ t _))

theorem upheld_takeSettleLoad (s : State) (q : Ask) (t : Nat) (l : LoadTarget) : Upheld s (s.takeSettleLoad q t l) :=
  upheld_ite (fun _ => upheld_answer s q _ _) fun _ => upheld_ite (fun _ => upheld_answer s q _ _) fun _ =>
    upheld_ite (fun _ => upheld_answer s q _ _) fun _ => (upheld_takeUpLoad s t l).answer q _ _

theorem upheld_takeBarPad (s : State) (q : Ask) (p : Nat) : Upheld s (s.takeBarPad q p) :=
  upheld_ite (fun _ => upheld_answer s q _ _) fun _ => upheld_ite (fun _ => (upheld_setPad s p _).answer q _ _) fun _ => upheld_answer s q _ _

theorem upheld_takeUnbarPad (s : State) (q : Ask) (p : Nat) : Upheld s (s.takeUnbarPad q p) :=
  upheld_ite (fun _ => upheld_answer s q _ _) fun _ => upheld_ite (fun _ => (upheld_setPad s p _).answer q _ _) fun _ => upheld_answer s q _ _

theorem upheld_takeRecouplePad (s : State) (q : Ask) (p : Nat) : Upheld s (s.takeRecouplePad q p) :=
  upheld_ite (fun _ => upheld_answer s q _ _) fun _ => upheld_ite (fun _ => upheld_answer s q _ _) fun _ =>
    upheld_ite (fun _ => upheld_answer s q _ _) fun _ => ((upheld_setPad s p _).trans (upheld_calm (calm_handOut _ _))).answer q _ _

/-! ### Transporters -/

theorem upheld_grant (s : State) (t n : Nat) : Upheld s (s.grant t n) :=
  ((upheld_setSeg s n _).trans (upheld_emit _ _)).trans (upheld_calm (calm_junctionGranted _ n))

theorem upheld_takeEnroll (s : State) (q : Ask) (t n : Nat) (l : LoadTarget) : Upheld s (s.takeEnroll q t n l) := by
  unfold State.takeEnroll
  split
  · exact upheld_answer s q _ _
  · refine Upheld.answer (Upheld.trans ?_ (upheld_emit _ _)) q _ _
    refine Upheld.trans (Upheld.trans ?_ (upheld_grant _ t n)) (upheld_takeUpLoad _ t l)
    refine (upheld_setTrain s t (some (s.newTrain n)) fun _ x hx => ?_).trans (upheld_setRun _ t _)
    rw [← Option.some.inj hx]
    exact Nat.zero_le 8

theorem upheld_removeTrain (s : State) (t : Nat) : Upheld s (s.removeTrain t) := by
  unfold State.removeTrain
  refine Upheld.trans (Upheld.trans ?_ (upheld_setTrain _ t none fun _ x hx => by cases hx)) (upheld_setRun _ t _)
  refine Upheld.trans (Upheld.trans ?_ (upheld_kept (kept_setLoad _ t none))) (upheld_ite (fun _ => upheld_endPoll _) (fun _ => .refl _))
  split
  · exact upheld_placeTelescope s _ _
  · exact .refl s

/-- The orders of a transporter end and it leaves its queues (R87, R134, R143). -/
theorem upheld_parted (s : State) (t : Nat) : Upheld s ((s.endAllOrders t).leaveQueues t) :=
  (upheld_kept (kept_endAllOrders s t)).trans (upheld_calm (calm_leaveQueues _ t))

theorem upheld_takeDisenroll (s : State) (q : Ask) (t : Nat) : Upheld s (s.takeDisenroll q t) := by
  refine upheld_ite (fun _ => upheld_answer s q _ _) (fun _ => ?_)
  split
  · exact upheld_answer s q _ _
  · refine upheld_ite (fun _ => upheld_answer s q _ _) (fun _ => ?_)
    exact (((upheld_parted s t).trans (upheld_removeTrain _ t)).trans (upheld_emit _ _)).answer q _ _

theorem upheld_putTrain (s : State) (t n : Nat) : Upheld s (s.putTrain t n) := by
  unfold State.putTrain
  refine Upheld.trans (Upheld.trans ?_ (upheld_calm (calm_setConfirm _ t _))) (upheld_emit _ _)
  refine Upheld.trans (b := if s.holds t n = true then s.setSeg n { s.seg n with leaving := false, withdrawing := none } else s.grant t n) ?_ ?_
  · exact upheld_ite (fun _ => upheld_setSeg s n _) (fun _ => upheld_grant s t n)
  · exact upheld_updateTrain _ t _ fun _ _ => Nat.zero_le 8

theorem upheld_takeClearAstray (s : State) (q : Ask) (t n : Nat) : Upheld s (s.takeClearAstray q t n) :=
  upheld_ite (fun _ => upheld_answer s q _ _) fun _ => upheld_ite (fun _ => upheld_answer s q _ _) fun _ =>
    upheld_ite (fun _ => upheld_answer s q _ _) fun _ => (((upheld_parted s t).trans (upheld_putTrain _ t n)).trans (upheld_emit _ _)).answer q _ _

theorem upheld_takeProceed (s : State) (q : Ask) (t : Nat) : Upheld s (s.takeProceed q t) :=
  upheld_ite (fun _ => upheld_answer s q _ _) fun _ => upheld_ite (fun _ => upheld_answer s q _ _) fun _ => (upheld_backToNormal s t).answer q _ _

theorem upheld_setQuiet (s : State) (x : QuietState) : Upheld s { s with polls := { s.polls with quiet := x } } := upheld_polls s rfl

theorem upheld_takeEnterQuiet (s : State) (q : Ask) : Upheld s (s.takeEnterQuiet q) := by
  refine upheld_ite (fun _ => upheld_answer s q _ _) (fun _ => ?_)
  refine Upheld.trans (Upheld.trans ?_ (upheld_emit _ _)) (upheld_answerAfter _ _)
  refine (upheld_setQuiet s .pending).trans (Upheld.foldl (fun s t => ?_) _ _)
  exact upheld_updateTrain s t _ fun _ h => h

theorem upheld_takeLeaveQuiet (s : State) (q : Ask) : Upheld s (s.takeLeaveQuiet q) := by
  refine upheld_ite (fun _ => upheld_answer s q _ _) (fun _ => ?_)
  refine Upheld.answer (Upheld.trans ?_ (upheld_emit _ _)) q _ _
  refine (upheld_setQuiet s .off).trans (Upheld.foldl (fun s t => ?_) _ _)
  exact upheld_updateTrain s t _ fun _ _ => Nat.zero_le 8

/-! ### Grant maps, fences and the hold -/

theorem upheld_takeSetGrants (s : State) (q : Ask) (who : Nat) (a b : List Nat) : Upheld s (s.takeSetGrants q who a b) :=
  upheld_ite (fun _ => upheld_answer s q _ _) fun _ => (upheld_setGrantMap s who _).answer q _ _

theorem upheld_turnAway (s : State) (k n : Nat) : Upheld s (s.turnAway k n) := by
  unfold State.turnAway
  split
  · exact .refl s
  · next o ho =>
    refine Upheld.trans (Upheld.trans ?_ (upheld_calm (calm_raise _ _ _))) (upheld_calm (calm_setFenced _ _))
    exact upheld_calm (calm_reshape_of (calm_unlistHead s k) k ho rfl)

theorem upheld_fenceSegment (s : State) (n : Nat) : Upheld s (s.fenceSegment n) := by
  have turned : Upheld s ((s.headsAt n).foldl (fun s k => s.turnAway k n) (s.setSeg n { s.seg n with queue := [] })) :=
    (upheld_setSeg s n _).trans (Upheld.foldl (fun s k => upheld_turnAway s k n) _ _)
  exact turned.trans (upheld_ite (fun _ => upheld_emit _ _) (fun _ => .refl _))

/-- The tests of `set-fence` leave a legal fence (R158, R159). -/
theorem legal_of_tests {s : State} {k base size : Nat} (h : firstFailing (s.setFenceTests k base size) = none) : Fence.legal ⟨base, size⟩ := by
  have ht := firstFailing_none.1 h
  unfold State.setFenceTests at ht
  simp only [List.mem_cons, List.not_mem_nil, or_false, forall_eq_or_imp, forall_eq, Bool.and_eq_true, decide_eq_true_eq] at ht
  obtain ⟨-, hsize, ⟨hbase, hmod⟩, -⟩ := ht
  exact ⟨by simpa using hsize, hbase, hmod⟩

theorem upheld_takeSetFence (s : State) (q : Ask) (who : Originator) (k base size : Nat) : Upheld s (s.takeSetFence q who k base size) := by
  unfold State.takeSetFence
  split
  · exact upheld_answer s q _ _
  · next ht =>
    dsimp only
    split
    · exact upheld_answer s q _ _
    · refine Upheld.answer (Upheld.trans (upheld_setFence s k (some ⟨base, size⟩) fun x hx => ?_) ?_) q _ _
      · exact Option.some.inj hx ▸ legal_of_tests ht
      · exact Upheld.foldl upheld_fenceSegment _ _

theorem upheld_takeClearFence (s : State) (q : Ask) (who : Originator) (k : Nat) : Upheld s (s.takeClearFence q who k) := by
  refine upheld_ite (fun _ => upheld_answer s q _ _) (fun _ => ?_)
  split
  · exact upheld_answer s q _ _
  · split
    · exact upheld_answer s q _ _
    · exact ((upheld_setFence s k none fun x hx => by cases hx).trans (upheld_emit _ _)).answer q _ _

theorem upheld_takeHold (s : State) (q : Ask) : Upheld s (s.takeHold q) := (upheld_changeHold s _).answer q _ _

theorem upheld_takeReleaseHold (s : State) (q : Ask) : Upheld s (s.takeReleaseHold q) :=
  upheld_ite (fun _ => (upheld_changeHold s _).answer q _ _) fun _ => upheld_answer s q _ _

theorem upheld_takeClearWayside (s : State) (q : Ask) : Upheld s (s.takeClearWayside q) := by
  unfold State.takeClearWayside
  split
  · exact upheld_answer s q _ _
  · exact upheld_ite (fun _ => (upheld_changeHold s _).answer q _ _) fun _ => upheld_answer s q _ _

end Sys2Proof.Proofs
end

section
/-!
SUPPORT. The record laws (O3, O4): `restart`, the taking of requests, the events of the Control Port, and every command.
-/

namespace Sys2Proof.Proofs

open Sys2Proof Sys2Proof.Machine Sys2Proof.Laws

/-! ### `restart` -/

theorem upheld_restartJunctions (s : State) : Upheld s s.restartJunctions :=
  ⟨⟨fun hs => { hs with
      canonical := by
        obtain ⟨a, b, c, -, e⟩ := hs.canonical
        exact ⟨a, b, c, wf_mapRecords _ _ _, e⟩
      switches := fun j r hr => by
        have hr' := (get_mapRecords none _ (fun _ => rfl) s.junctions.recs j).symm.trans hr
        obtain ⟨r0, -, rfl⟩ := Option.map_eq_some_iff.1 hr'
        exact (restarted_lawful r0 _ _).1 }, fun hs => hs⟩, le_rfl, le_rfl⟩

/-- The telescopes in doubt are unplaced one by one (R128). -/
theorem wf_put_all (l : List Nat) {t : Table Placement} (h : Table.wf .unplaced t = true) :
    Table.wf .unplaced (l.foldl (fun t x => Table.put .unplaced t x .unplaced) t) = true := by
  induction l generalizing t with
  | nil => exact h
  | cons x rest ih => exact ih (wf_put h x _)

theorem upheld_restartTransfers (s : State) : Upheld s s.restartTransfers :=
  ⟨⟨fun hs => { hs with
      canonical := by
        obtain ⟨a, b, c, d, e, f, -, h, -, -, k⟩ := hs.canonical
        exact ⟨a, b, c, d, e, f, wf_mapRecords _ _ _, wf_put_all _ h, wf_mapRecords _ _ _, rfl, k⟩ }, fun hs => hs⟩, le_rfl, le_rfl⟩

theorem upheld_restartCore (s : State) : Upheld s s.restartCore :=
  ⟨⟨fun hs => { hs with
      canonical := by
        obtain ⟨a, -, -, d⟩ := hs.canonical
        exact ⟨a, wf_mapRecords _ _ _, wf_mapRecords _ _ _, d⟩ }, fun hs => hs⟩, le_rfl, le_rfl⟩

theorem upheld_noOrders (s : State) : Upheld s { s with orders := { slots := [], refs := [] }, due := [] } :=
  ⟨⟨fun hs => { hs with
      canonical := by
        obtain ⟨a, b, c, d, -, -, g⟩ := hs.canonical
        exact ⟨a, b, c, d, rfl, rfl, g⟩ }, fun _ k o ho => by cases ho⟩, le_rfl, le_rfl⟩

theorem upheld_restartPolls (s : State) : Upheld s s.restartPolls :=
  ⟨⟨fun hs => { hs with
      canonical := by
        obtain ⟨a, b, c, d, e, f, g, x, i, j, -, l⟩ := hs.canonical
        exact ⟨a, b, c, d, e, f, g, x, i, j, wf_mapRecords _ _ _, l⟩
      misses := fun i r hr => by
        have hr' := (get_mapRecords none _ (fun _ => rfl) s.polls.recs i).symm.trans hr
        obtain ⟨r0, -, rfl⟩ := Option.map_eq_some_iff.1 hr'
        exact Nat.zero_le 8 }, fun hs => hs⟩, le_rfl, le_rfl⟩

theorem upheld_restartWayside (s : State) : Upheld s s.restartWayside :=
  Upheld.trans (upheld_calm (calm_setOutQueue s (q := []) fun _ => List.nodup_nil)) (upheld_setInQueue _ fun _ => Nat.zero_le 16)

theorem upheld_restartPort (s : State) : Upheld s s.restartPort :=
  ⟨⟨fun hs => { hs with
      queues := by
        obtain ⟨a, b, -, d⟩ := hs.queues
        exact ⟨a, b, Nat.zero_le 8, d⟩
      notices := List.pairwise_singleton _ _ }, fun hs => hs⟩, Nat.zero_le _, le_rfl⟩

theorem upheld_afterRestart (s : State) (q : Ask) : Upheld s (afterRestart s q) := by
  unfold afterRestart
  refine Upheld.trans (Upheld.trans (Upheld.trans ?_ (upheld_restartPolls _)) (upheld_restartWayside _)) (upheld_restartPort _)
  refine Upheld.trans (Upheld.trans ?_ (upheld_noOrders _)) (upheld_calm (calm_setFenced _ []))
  exact (((upheld_answer s q _ _).trans (upheld_restartJunctions _)).trans (upheld_restartTransfers _)).trans (upheld_restartCore _)

theorem upheld_takeRestart (s : State) (q : Ask) : Upheld s (s.takeRestart q) :=
  ((upheld_afterRestart s q).trans (upheld_setHold _ _)).trans (upheld_calm (takeRestart_calm s q))

/-! ### A request taken -/

theorem upheld_owner (s : State) (q : Ask) (who : Originator) (r : Request) : Upheld s (s.owner q who r) := by
  cases r with
  | readStatus => exact upheld_answer s q _ _
  | readSegment n => exact upheld_takeReadSegment s q n
  | readPad p => exact upheld_takeReadPad s q p
  | readTransporter t => exact upheld_takeReadTransporter s q t
  | readOrder k p => exact upheld_takeReadOrder s q k p
  | readTelescope x => exact upheld_takeReadTelescope s q x
  | sweepPads f c d => exact upheld_takeSweepPads s q f c d
  | fetchNotice => exact upheld_takeFetchNotice s q
  | setNoticeEnables e => exact upheld_takeSetNoticeEnables s q e
  | clearPort => exact (upheld_setFlags s _).answer q _ _
  | setParameter n v => exact upheld_takeSetParameter s q n v
  | restart => exact upheld_takeRestart s q
  | declareSegment n k g v r l1 l2 l3 => exact upheld_takeDeclareSegment s q n _
  | closeLayout => exact upheld_takeCloseLayout s q
  | clearSwitch j => exact upheld_takeClearSwitch s q j
  | submitOrder t k f leg => exact upheld_takeSubmitOrder s q who t k f leg
  | cancelOrder k => exact upheld_takeCancelOrder s q k
  | divert t a b => exact upheld_takeDivert s q who t a b
  | resumeRefuge k => exact upheld_takeResumeRefuge s q k
  | declarePad p a g x => exact upheld_takeDeclarePad s q p a g x
  | settlePad p x => exact upheld_takeSettlePad s q p x
  | settleLoad t l => exact upheld_takeSettleLoad s q t l
  | barPad p => exact upheld_takeBarPad s q p
  | unbarPad p => exact upheld_takeUnbarPad s q p
  | recouplePad p => exact upheld_takeRecouplePad s q p
  | enrollTransporter t n l => exact upheld_takeEnroll s q t n l
  | disenrollTransporter t => exact upheld_takeDisenroll s q t
  | clearAstray t n => exact upheld_takeClearAstray s q t n
  | proceed t => exact upheld_takeProceed s q t
  | enterQuiet => exact upheld_takeEnterQuiet s q
  | leaveQuiet => exact upheld_takeLeaveQuiet s q
  | setGrants w a b => exact upheld_takeSetGrants s q w a b
  | setFence k b n => exact upheld_takeSetFence s q who k b n
  | clearFence k => exact upheld_takeClearFence s q who k
  | hold => exact upheld_takeHold s q
  | releaseHold => exact upheld_takeReleaseHold s q
  | clearWayside => exact upheld_takeClearWayside s q

theorem upheld_decideRequest (s : State) (x : QueuedRequest) : Upheld s (s.decideRequest x) := by
  unfold State.decideRequest
  dsimp only
  split
  · exact upheld_answer s _ _ _
  · exact upheld_answer s _ _ _
  · refine upheld_ite (fun _ => upheld_answer s _ _ _) (fun _ => ?_)
    split
    · exact upheld_answer s _ _ _
    · exact upheld_ite (fun _ => upheld_answer s _ _ _) (fun _ => upheld_owner s _ _ _)

theorem upheld_lateAnswer (x : LateAnswer) (s : State) : Upheld s (lateAnswer x s) := by
  cases x with
  | cancel q k =>
    unfold lateAnswer State.answerCancel
    dsimp only
    split
    · exact .refl s
    · exact upheld_answer s q _ _
  | divert q k =>
    unfold lateAnswer State.answerDivert
    dsimp only
    split
    · exact .refl s
    · exact upheld_answer s q _ _
  | resume q k =>
    unfold lateAnswer State.answerResume
    dsimp only
    split
    · exact .refl s
    · exact upheld_answer s q _ _
  | quiet q => exact upheld_ite (fun _ => upheld_answer s q _ _) (fun _ => upheld_answer s q _ _)

theorem upheld_placeLate (s : State) : Upheld s s.placeLate := by
  cases h : s.late with
  | none =>
    unfold State.placeLate
    rw [h]
    exact .refl s
  | some x =>
    rw [placeLate_some h]
    exact Upheld.trans (b := { s with late := none }) ⟨⟨fun h => { h with }, fun h => h⟩, le_rfl, le_rfl⟩ (upheld_lateAnswer x _)

/-- A request that is taken leaves the request queue, and nothing joins it. -/
theorem upheld_takeOne {s : State} {x : QueuedRequest} {rest : List QueuedRequest} (hq : s.port.requests = x :: rest)
    (hr : s.port.answers.length < 8) : Upheld (s.setRequests rest) (takeRequest s) := by
  unfold takeRequest
  rw [hq]
  dsimp only
  rw [if_pos hr]
  exact ((upheld_decideRequest _ x).trans (upheld_kept (kept_workOff _))).trans (upheld_placeLate _)

theorem takeRequest_idle {s : State} (h : s.requestsTaken) : takeRequest s = s := by
  unfold takeRequest
  split
  · rfl
  · next x rest hq => exact if_neg (Nat.not_lt.2 (h.resolve_left (by rw [hq]; simp)))

theorem requests_waiting {s : State} (h : ¬s.requestsTaken) : ∃ x rest, s.port.requests = x :: rest ∧ s.port.answers.length < 8 := by
  obtain ⟨hq, ha⟩ := not_or.1 h
  obtain ⟨x, rest, hx⟩ := List.exists_cons_of_ne_nil hq
  exact ⟨x, rest, hx, Nat.not_le.1 ha⟩

theorem lawsKept_takeRequest (s : State) : LawsKept s (takeRequest s) := by
  by_cases h : s.requestsTaken
  · rw [takeRequest_idle h]
    exact .refl s
  · obtain ⟨x, rest, hq, ha⟩ := requests_waiting h
    refine (lawsKept_setRequests s fun hl => ?_).trans (upheld_takeOne hq ha).toLawsKept
    rw [hq, List.length_cons] at hl
    omega

theorem lawsKept_takeRequests (n : Nat) (s : State) : LawsKept s (takeRequests n s) := by
  induction n generalizing s with
  | zero => exact .refl s
  | succ n ih => exact (lawsKept_takeRequest s).trans (ih _)

theorem takeRequests_idle (n : Nat) {s : State} (h : s.requestsTaken) : takeRequests n s = s := by
  induction n with
  | zero => rfl
  | succ n ih => exact (congrArg (takeRequests n) (takeRequest_idle h)).trans ih

/-- As many takings as requests wait leave none waiting that an answer would find room for (R190). -/
theorem requestsTaken_takeRequests (n : Nat) {s : State} (h : s.port.requests.length ≤ n) : (takeRequests n s).requestsTaken := by
  induction n generalizing s with
  | zero => exact .inl (List.length_eq_zero_iff.1 (Nat.le_zero.1 h))
  | succ n ih =>
    by_cases ht : s.requestsTaken
    · rw [takeRequests_idle _ ht]
      exact ht
    · obtain ⟨x, rest, hq, ha⟩ := requests_waiting ht
      refine ih ((upheld_takeOne hq ha).requests.trans ?_)
      rw [hq, List.length_cons] at h
      exact Nat.le_of_succ_le_succ h

/-! ### The events of the Control Port -/

theorem lawsKept_joinRequests (s : State) (x : QueuedRequest) : LawsKept s (s.joinRequests x) := by
  unfold State.joinRequests
  split
  · exact (upheld_setFlags s _).toLawsKept
  · next h => exact lawsKept_setRequests s fun _ => by rw [List.length_append]; exact Nat.lt_of_not_le h

theorem lawsKept_frameComplete (s : State) (bytes : List Byte) : LawsKept s (s.frameComplete bytes) := by
  unfold State.frameComplete
  dsimp only
  split
  · exact lawsKept_joinRequests s _
  · exact (upheld_setFlags s _).toLawsKept

theorem lawsKept_setWindow (s : State) (w : Window) : LawsKept s (s.setWindow w) := (upheld_setWindow s w).toLawsKept

theorem lawsKept_shiftIn (s : State) (b : Byte) : LawsKept s (s.shiftIn b) := by
  unfold State.shiftIn
  split
  · exact .refl s
  · split
    · exact .refl s
    · split
      · exact lawsKept_setWindow s _
      · split
        · exact (lawsKept_setWindow s _).trans (upheld_setFlags _ _).toLawsKept
        · exact lawsKept_setWindow s _
    · split
      · exact lawsKept_setWindow s _
      · exact (lawsKept_setWindow s _).trans (lawsKept_frameComplete _ _)

theorem lawsKept_shiftBytes (s : State) (bytes : List Byte) : LawsKept s (s.shiftBytes bytes) := by
  induction bytes generalizing s with
  | nil => exact .refl s
  | cons b rest ih => exact (lawsKept_shiftIn s b).trans (ih _)

theorem lawsKept_endWindow (s : State) : LawsKept s s.endWindow := by
  unfold State.endWindow
  split
  · exact (lawsKept_setWindow s _).trans (upheld_setFlags _ _).toLawsKept
  · exact lawsKept_setWindow s _

theorem lawsKept_answerLeaves (s : State) : LawsKept s s.answerLeaves := by
  unfold State.answerLeaves
  split
  · split
    · refine LawsKept.trans ?_ (lawsKept_setAnswers _ fun h => ?_)
      · exact lawsKept_setWindow s _
      · exact (List.length_drop ▸ Nat.sub_le _ _ : (s.port.answers.drop 1).length ≤ s.port.answers.length).trans h
    · exact .refl s
  · exact .refl s

theorem upheld_beginWindow (s : State) : Upheld s s.beginWindow := by
  unfold State.beginWindow
  split
  · exact upheld_setWindow s _
  · exact .refl s

/-- The edits with which the commands of the control link begin. -/
inductive PortEvent : (State → State) → Prop where
  | join (x : QueuedRequest) : PortEvent fun s => s.joinRequests x
  | shift (bytes : List Byte) : PortEvent fun s => s.shiftBytes bytes
  | windowEnd (bytes : List Byte) : PortEvent fun s => (s.shiftBytes bytes).endWindow
  | answerLeaves : PortEvent State.answerLeaves
  | byte (b : Byte) : PortEvent fun s => s.shiftIn b

theorem PortEvent.lawsKept {act : State → State} (h : PortEvent act) (s : State) : LawsKept s (act s) := by
  cases h with
  | join x => exact lawsKept_joinRequests s x
  | shift bytes => exact lawsKept_shiftBytes s bytes
  | windowEnd bytes => exact (lawsKept_shiftBytes s bytes).trans (lawsKept_endWindow _)
  | answerLeaves => exact lawsKept_answerLeaves s
  | byte b => exact lawsKept_shiftIn s b

/-! ### Every command -/

/-- What a command can do: a reset, an event of the blocks, an event of the Control Port, or the beginning of a window. -/
inductive Executed (s : State) : State → Prop where
  | reset (cause : ResetCause) : Executed s (s.restartedBy cause)
  | blocks {act : State → State} (h : BlockEvent act) : Executed s (runEvent act s)
  | port {act : State → State} (h : PortEvent act) : Executed s (runPort act s)
  | window : Executed s (closeEvent s.pending s.beginWindow)

theorem executed_submit (s : State) (h : Header) (r : Request) : Executed s (submit h r s) := .port (.join _)

theorem executed {c : Instr} {s t : State} (h : exec c s = .next t) : Executed s t := by
  cases hc : c.request? with
  | some x =>
    rw [exec_request hc] at h
    cases h
    exact executed_submit s _ _
  | none =>
    cases c with
    | powerOn => cases h; exact .reset .power
    | resetLine => cases h; exact .reset .line
    | holdAsserted => cases h; exact .blocks (.line true)
    | holdDeasserted => cases h; exact .blocks (.line false)
    | windowBegin => cases h; exact .window
    | windowEnd bytes => cases h; exact .port (.windowEnd bytes)
    | requestFrameComplete bytes => cases h; exact .port (.shift bytes)
    | answerSent => cases h; exact .port .answerLeaves
    | gapTimerExpiry => cases h; exact .blocks .gapExpiry
    | pollTransmitted => cases h; exact .blocks .pollTransmitted
    | transporterReport bytes => cases h; exact .blocks (.report bytes)
    | replyWindowExpiry => cases h; exact .blocks .windowExpiry
    | progressTimerExpiry t => cases h; exact .blocks (.progressExpiry t)
    | waysideFrame bytes => cases h; exact .blocks (.waysideFrame bytes)
    | waysideByteGapTimeout => cases h; exact .blocks .byteGap
    | silenceTimerExpiry => cases h; exact .blocks .silenceExpiry
    | sensor => cases h; exact .blocks .sensor
    | detection => cases h; exact .blocks .detection
    | padEvent => cases h; exact .blocks .padEvent
    | waysideSendComplete => cases h; exact .blocks .sendComplete
    | operationTimerExpiry j => cases h; exact .blocks (.operationExpiry j)
    | junctionHoldExpiry j => cases h; exact .blocks (.holdExpiry j)
    | proveIntervalExpiry => cases h; exact .blocks .intervalExpiry
    | transferTimerExpiry p => cases h; exact .blocks (.transferExpiry p)
    | couplingTimerExpiry p => cases h; exact .blocks (.couplingExpiry p)
    | byteInHunting b => cases h; exact .blocks (.waysideByte b)
    | lengthByteFraming b => cases h; exact .port (.byte b)
    | _ => cases hc

end Sys2Proof.Proofs
end

section
/-!
SUPPORT. The references name live orders (R65, O4): what every event, every request and every command keeps of it. Most leave the Order Table as it is.
-/

namespace Sys2Proof.Proofs

open Sys2Proof Sys2Proof.Machine Sys2Proof.Laws

/-! ### Work that leaves the Order Table -/

theorem ite_orders {s a b : State} {c : Prop} [Decidable c] (ha : a.orders = s.orders) (hb : b.orders = s.orders) :
    (if c then a else b).orders = s.orders := by split <;> assumption

theorem foldl_orders {α : Type} {f : State → α → State} (h : ∀ s x, (f s x).orders = s.orders) (l : List α) (s : State) :
    (l.foldl f s).orders = s.orders := by
  induction l generalizing s with
  | nil => rfl
  | cons x rest ih => exact (ih _).trans (h s x)

theorem changeHold_orders (s : State) (v : HoldSources) : (s.changeHold v).orders = s.orders := by
  unfold State.changeHold
  exact ite_orders (s := s) (suspendTransfers_same (s.setHold v)).2.1 (ite_orders (s := s) rfl rfl)

theorem checkError_orders (s : State) : s.checkError.orders = s.orders := changeHold_orders _ _

theorem receiveByte_orders (s : State) (b : Byte) : (s.receiveByte b).orders = s.orders := by
  unfold State.receiveByte
  split
  · exact ite_orders rfl (checkError_orders s)
  · refine ite_orders rfl ?_
    unfold State.judge
    split
    · exact checkError_orders s
    · rfl
    · unfold State.queueMessage
      exact ite_orders (s := s) (ite_orders (s := s) (changeHold_orders _ _) rfl) rfl

theorem tellHolder_orders (s : State) (j : Nat) : (s.tellHolder j).orders = s.orders := by
  unfold State.tellHolder
  split <;> rfl

theorem rotationEnds_orders (s : State) (op : Option Operation) : (s.rotationEnds op).orders = s.orders := by
  unfold State.rotationEnds
  exact ite_orders rfl rfl

theorem withdrawThrow_orders (s : State) (j : Nat) : (s.withdrawThrow j).orders = s.orders := by
  unfold State.withdrawThrow
  split
  · split
    · exact tellHolder_orders _ j
    · rfl
  · rfl

theorem junctionGranted_orders (s : State) (j : Nat) : (s.junctionGranted j).orders = s.orders := by
  unfold State.junctionGranted
  split
  · exact withdrawThrow_orders _ j
  · rfl

theorem grant_orders (s : State) (t n : Nat) : (s.grant t n).orders = s.orders := junctionGranted_orders _ n

theorem handOut_orders (s : State) (m : OutMessage) : (s.handOut m).orders = s.orders := commit_orders _

theorem enterFaulted_orders (s : State) (j : Nat) : (s.enterFaulted j).orders = s.orders := by
  unfold State.enterFaulted
  split
  · rfl
  · exact (tellHolder_orders _ j).trans ((rotationEnds_orders _ _).trans (ite_orders rfl rfl))

theorem operationEnds_orders (s : State) (j : Nat) (p : SwitchPosition) : (s.operationEnds j p).orders = s.orders := by
  unfold State.operationEnds
  split
  · rfl
  · exact (tellHolder_orders _ j).trans (rotationEnds_orders s _)

theorem unsolicited_orders (s : State) (j : Nat) (r : JunctionRec) (d : DetectionValue) : (s.unsolicited j r d).orders = s.orders := by
  unfold State.unsolicited
  split
  · rfl
  · split
    · exact ite_orders rfl (enterFaulted_orders s j)
    · rfl
  · refine ite_orders rfl ?_
    split
    · exact tellHolder_orders _ j
    · exact enterFaulted_orders s j
  · exact ite_orders rfl (enterFaulted_orders s j)

theorem takeDetection_orders (s : State) (j : Nat) (d : DetectionValue) : (s.takeDetection j d).orders = s.orders := by
  unfold State.takeDetection
  split
  · rfl
  · split
    · exact ite_orders (operationEnds_orders s j _) (enterFaulted_orders s j)
    · split
      · exact ite_orders (operationEnds_orders s j _) (enterFaulted_orders s j)
      · exact enterFaulted_orders s j
    · exact unsolicited_orders s j _ d

theorem takeSensor_orders (s : State) (n : Nat) (v : Bool) : (s.takeSensor n v).orders = s.orders := by
  unfold State.takeSensor
  refine ite_orders ?_ ?_
  · exact (withdrawThrow_orders _ n).trans (ite_orders (s := s) rfl rfl)
  · dsimp only
    split
    · exact ite_orders (s := s) rfl rfl
    · rfl

theorem setConfirm_orders (s : State) (t : Nat) (c : Confirm) : (s.setConfirm t c).orders = s.orders := (marks_setConfirm s t c).orders

theorem confirmMissed_orders (s : State) (t : Nat) : (s.confirmMissed t).orders = s.orders := by
  unfold State.confirmMissed
  split
  · exact ite_orders (setConfirm_orders s t _) rfl
  · rfl

theorem windowExpiry_orders (s : State) : s.windowExpiry.orders = s.orders := by
  unfold State.windowExpiry
  split
  · refine (emit_orders _ _).trans (ite_orders ?_ ?_)
    · exact (setCondition_orders _ _ _).trans ((confirmMissed_orders _ _).trans (updateTrain_orders _ _ _))
    · exact (confirmMissed_orders _ _).trans (updateTrain_orders _ _ _)
  · rfl

theorem backToNormal_orders (s : State) (t : Nat) : (s.backToNormal t).orders = s.orders :=
  (marks_makeActiveDue _ t).orders.trans (updateTrain_orders s t _)

theorem setLeaving_orders (s : State) (ns : List Nat) (n : Nat) : (s.setLeaving ns n).orders = s.orders :=
  foldl_orders (f := fun (s : State) x => s.setSeg x { s.seg x with leaving := true }) (fun _ _ => rfl) ns s

/-! ### The events of the blocks -/

theorem refsRight_takePosition {s : State} (h : s.refsRight) (t m n : Nat) : (s.takePosition t m n).1.refsRight := by
  unfold State.takePosition
  split
  · exact h
  · refine refsRight_moveCursor (refsRight_same h ?_) t n
    exact (marks_overrun _ t n _).orders.trans ((updateTrain_orders _ t _).trans (setLeaving_orders s _ n))

theorem refsRight_reportPosition {s : State} (h : s.refsRight) (r : Report) : (s.reportPosition r).refsRight := by
  unfold State.reportPosition
  dsimp only
  split
  · exact h
  · split
    · exact h
    · split
      · exact refsRight_same h (setCondition_orders _ _ _)
      · refine refsRight_same (refsRight_takePosition (refsRight_same h ?_) _ _ _) rfl
        exact ite_orders (backToNormal_orders s _) rfl

theorem refsRight_hearFrame {s : State} (h : s.refsRight) (bytes : List Byte) : (s.hearFrame bytes).refsRight := by
  unfold State.hearFrame
  split
  · unfold State.hearReport
    split
    · split
      · exact refsRight_same (refsRight_reportPosition (refsRight_same h (updateTrain_orders s.endPoll _ _)) _) rfl
      · exact h
    · exact h
  · exact h

theorem refsRight_progressExpiry {s : State} (h : s.refsRight) (t : Nat) : (s.progressExpiry t).refsRight := by
  unfold State.progressExpiry
  split
  · split
    · exact refsRight_stall h t
    · exact h
  · exact h

theorem operationExpiry_orders (s : State) (j : Nat) : (s.operationExpiry j).orders = s.orders := by
  unfold State.operationExpiry
  split
  · exact enterFaulted_orders s j
  · rfl

theorem holdExpiry_orders (s : State) (j : Nat) : (s.holdExpiry j).orders = s.orders := by
  unfold State.holdExpiry
  split
  · split <;> rfl
  · rfl

theorem refsRight_transferExpiry {s : State} (h : s.refsRight) (p : Nat) : (s.transferExpiry p).refsRight := by
  unfold State.transferExpiry
  split
  · split
    · exact refsRight_failTransfer h p _ _ _
    · exact h
  · exact h

theorem couplingExpiry_orders (s : State) (p : Nat) : (s.couplingExpiry p).orders = s.orders := by
  unfold State.couplingExpiry
  dsimp only
  split
  · exact ite_orders rfl rfl
  · rfl

theorem BlockEvent.refsRight {act : State → State} (hact : BlockEvent act) {s : State} (h : s.refsRight) : (act s).refsRight := by
  cases hact with
  | line v => exact refsRight_same h (changeHold_orders s _)
  | gapExpiry => unfold State.gapExpiry; split <;> exact refsRight_same h rfl
  | pollTransmitted =>
    unfold State.pollTransmitted
    split
    · exact refsRight_same h (ite_orders rfl rfl)
    · exact h
  | report bytes => exact refsRight_hearFrame h bytes
  | windowExpiry => exact refsRight_same h (windowExpiry_orders s)
  | progressExpiry t => exact refsRight_progressExpiry h t
  | waysideFrame bytes => exact refsRight_same h (foldl_orders receiveByte_orders bytes s)
  | waysideByte b => exact refsRight_same h (receiveByte_orders s b)
  | byteGap =>
    unfold State.byteGap
    split
    · exact h
    · exact refsRight_same h (checkError_orders s)
  | silenceExpiry =>
    unfold State.silenceExpiry
    split
    · exact refsRight_same h (changeHold_orders _ _)
    · exact h
  | sensor =>
    unfold State.headSensor
    split
    · exact refsRight_same h (takeSensor_orders _ _ _)
    · exact h
  | detection =>
    unfold State.headDetection
    split
    · exact refsRight_same h (takeDetection_orders _ _ _)
    · exact h
  | padEvent =>
    unfold State.headPadEvent
    split
    · exact refsRight_takePadEvent (refsRight_same (t := s.popMessage) h rfl) _ _
    · exact h
  | sendComplete =>
    unfold State.sendComplete
    split
    · exact refsRight_same h (commit_orders _)
    · exact h
  | operationExpiry j => exact refsRight_same h (operationExpiry_orders s j)
  | holdExpiry j => exact refsRight_same h (holdExpiry_orders s j)
  | intervalExpiry => unfold State.intervalExpiry; split <;> exact refsRight_same h rfl
  | transferExpiry p => exact refsRight_transferExpiry h p
  | couplingExpiry p => exact refsRight_same h (couplingExpiry_orders s p)

/-! ### Requests that leave the Order Table -/

theorem answerTime_orders (s : State) (v : Bool) (q : Ask) (b : Body) : (s.answerTime v q b).orders = s.orders :=
  (answer_orders _ q _ b).trans (ite_orders rfl rfl)

theorem takeReadTransporter_orders (s : State) (q : Ask) (t : Nat) : (s.takeReadTransporter q t).orders = s.orders := by
  refine ite_orders (answer_orders s q _ _) ?_
  split
  · exact answer_orders s q _ _
  · exact answerTime_orders s _ q _

theorem takeReadOrder_orders (s : State) (q : Ask) (k : Nat) (part : Option Nat) : (s.takeReadOrder q k part).orders = s.orders := by
  refine ite_orders (answer_orders s q _ _) ?_
  split <;> exact answer_orders s q _ _

theorem takeFetchNotice_orders (s : State) (q : Ask) : (s.takeFetchNotice q).orders = s.orders := by
  unfold State.takeFetchNotice
  split <;> exact answer_orders _ q _ _

theorem takeSetParameter_orders (s : State) (q : Ask) (n v : Nat) : (s.takeSetParameter q n v).orders = s.orders := by
  unfold State.takeSetParameter
  split
  · exact answer_orders s q _ _
  · exact ite_orders (answer_orders _ q _ _) (answer_orders s q _ _)

theorem takeDeclareSegment_orders (s : State) (q : Ask) (n : Nat) (d : SegDecl) : (s.takeDeclareSegment q n d).orders = s.orders := by
  unfold State.takeDeclareSegment
  split <;> exact answer_orders _ q _ _

theorem takeCloseLayout_orders (s : State) (q : Ask) : (s.takeCloseLayout q).orders = s.orders := by
  unfold State.takeCloseLayout
  split
  · exact answer_orders s q _ _
  · refine (answer_orders _ q _ _).trans ?_
    rw [takeUpJunctions_eq]
    exact foldl_orders (f := takeUpOne) (fun _ _ => ite_orders rfl rfl) _ _

theorem takeClearSwitch_orders (s : State) (q : Ask) (j : Nat) : (s.takeClearSwitch q j).orders = s.orders := by
  refine ite_orders (answer_orders s q _ _) ?_
  split
  · exact answer_orders s q _ _
  · refine ite_orders (answer_orders s q _ _) ?_
    exact (tellHolder_orders _ j).trans ((answer_orders _ q _ _).trans (handOut_orders _ _))

theorem putPad_orders (s : State) (p : Nat) (r : PadRec) (x : PadTarget) : (s.putPad p r x).orders = s.orders := by
  cases x with
  | vacant | barred => rfl
  | anchored y => exact placeTelescope_orders _ y _

theorem takeUpLoad_orders (s : State) (t : Nat) (l : LoadTarget) : (s.takeUpLoad t l).orders = s.orders := by
  cases l with
  | none => rfl
  | telescope x => exact placeTelescope_orders s x _

theorem takeDeclarePad_orders (s : State) (q : Ask) (p access guard : Nat) (x : PadTarget) :
    (s.takeDeclarePad q p access guard x).orders = s.orders := by
  unfold State.takeDeclarePad
  split
  · exact answer_orders s q _ _
  · exact (answer_orders _ q _ _).trans (putPad_orders s p _ x)

theorem takeSettlePad_orders (s : State) (q : Ask) (p : Nat) (x : PadTarget) : (s.takeSettlePad q p x).orders = s.orders :=
  ite_orders (answer_orders s q _ _) (ite_orders (answer_orders s q _ _) (ite_orders (answer_orders s q _ _)
    ((answer_orders _ q _ _).trans (putPad_orders s p _ x))))

theorem takeSettleLoad_orders (s : State) (q : Ask) (t : Nat) (l : LoadTarget) : (s.takeSettleLoad q t l).orders = s.orders :=
  ite_orders (answer_orders s q _ _) (ite_orders (answer_orders s q _ _) (ite_orders (answer_orders s q _ _)
    ((answer_orders _ q _ _).trans (takeUpLoad_orders s t l))))

theorem takeRecouplePad_orders (s : State) (q : Ask) (p : Nat) : (s.takeRecouplePad q p).orders = s.orders :=
  ite_orders (answer_orders s q _ _) (ite_orders (answer_orders s q _ _) (ite_orders (answer_orders s q _ _)
    ((answer_orders _ q _ _).trans (handOut_orders _ _))))

theorem takeEnroll_orders (s : State) (q : Ask) (t n : Nat) (l : LoadTarget) : (s.takeEnroll q t n l).orders = s.orders := by
  unfold State.takeEnroll
  split
  · exact answer_orders s q _ _
  · exact (answer_orders _ q _ _).trans ((takeUpLoad_orders _ t l).trans (grant_orders _ t n))

theorem takeProceed_orders (s : State) (q : Ask) (t : Nat) : (s.takeProceed q t).orders = s.orders :=
  ite_orders (answer_orders s q _ _) (ite_orders (answer_orders s q _ _) ((answer_orders _ q _ _).trans (backToNormal_orders s t)))

theorem takeEnterQuiet_orders (s : State) (q : Ask) : (s.takeEnterQuiet q).orders = s.orders :=
  ite_orders (answer_orders s q _ _)
    (foldl_orders (f := fun s t => s.updateTrain t fun r => { r with quietStand := false }) (fun s t => updateTrain_orders s t _) _ _)

theorem takeLeaveQuiet_orders (s : State) (q : Ask) : (s.takeLeaveQuiet q).orders = s.orders :=
  ite_orders (answer_orders s q _ _) ((answer_orders _ q _ _).trans
    (foldl_orders (f := fun s t => s.updateTrain t fun r => { r with quietStand := false, missCount := 0 }) (fun s t => updateTrain_orders s t _) _ _))

theorem takeClearFence_orders (s : State) (q : Ask) (who : Originator) (k : Nat) : (s.takeClearFence q who k).orders = s.orders := by
  refine ite_orders (answer_orders s q _ _) ?_
  split
  · exact answer_orders s q _ _
  · split <;> exact answer_orders _ q _ _

theorem changeHold_answer_orders (s : State) (v : HoldSources) (q : Ask) (o : Outcome) (b : Body) :
    ((s.changeHold v).answer q o b).orders = s.orders := (answer_orders _ q o b).trans (changeHold_orders s v)

theorem takeClearWayside_orders (s : State) (q : Ask) : (s.takeClearWayside q).orders = s.orders := by
  unfold State.takeClearWayside
  split
  · exact answer_orders s q _ _
  · exact ite_orders (changeHold_answer_orders s _ q _ _) (answer_orders s q _ _)

/-! ### Requests that change it -/

theorem refsRight_answer {s : State} (h : s.refsRight) (q : Ask) (o : Outcome) (b : Body) : (s.answer q o b).refsRight :=
  refsRight_same h (answer_orders s q o b)

theorem refsRight_takeRestart (s : State) (q : Ask) : (s.takeRestart q).refsRight := by
  have none_named : (afterRestart s q).refsRight := fun _ _ hk => by cases hk
  rw [takeRestart_eq]
  exact refsRight_same none_named (changeHold_orders _ _)

theorem parted_orders_refsRight {s : State} (h : s.refsRight) (t : Nat) : ((s.endAllOrders t).leaveQueues t).refsRight :=
  refsRight_same (refsRight_endAllOrders h t) (leaveQueues_orders _ t)

theorem endPoll_if_orders (s : State) (c : Prop) [Decidable c] : (if c then s.endPoll else s).orders = s.orders := ite_orders rfl rfl

theorem removeTrain_orders (s : State) (t : Nat) : (s.removeTrain t).orders = s.orders := by
  unfold State.removeTrain
  refine Eq.trans ?_ (?_ : State.orders (match s.load t with | some (.telescope x) => s.placeTelescope x .unplaced | _ => s) = s.orders)
  · exact endPoll_if_orders _ _
  · split
    · exact placeTelescope_orders s _ _
    · rfl

theorem putTrain_orders (s : State) (t n : Nat) : (s.putTrain t n).orders = s.orders := by
  unfold State.putTrain
  refine (emit_orders _ _).trans ((setConfirm_orders _ t _).trans ((updateTrain_orders _ t _).trans ?_))
  exact ite_orders rfl (grant_orders s t n)

theorem refsRight_takeDisenroll {s : State} (h : s.refsRight) (q : Ask) (t : Nat) : (s.takeDisenroll q t).refsRight := by
  unfold State.takeDisenroll
  split
  · exact refsRight_answer h q _ _
  · split
    · exact refsRight_answer h q _ _
    · split
      · exact refsRight_answer h q _ _
      · exact refsRight_same (parted_orders_refsRight h t) ((answer_orders _ q _ _).trans (removeTrain_orders _ t))

theorem refsRight_takeClearAstray {s : State} (h : s.refsRight) (q : Ask) (t n : Nat) : (s.takeClearAstray q t n).refsRight := by
  unfold State.takeClearAstray
  split
  · exact refsRight_answer h q _ _
  · split
    · exact refsRight_answer h q _ _
    · split
      · exact refsRight_answer h q _ _
      · exact refsRight_same (parted_orders_refsRight h t) ((answer_orders _ q _ _).trans ((emit_orders _ _).trans (putTrain_orders _ t n)))

theorem refsRight_turnAway {s : State} (h : s.refsRight) (k n : Nat) : (s.turnAway k n).refsRight := by
  unfold State.turnAway
  split
  · exact h
  · next o ho =>
    by_cases hn : ∃ u, k ∈ (s.orderRefs u).named
    · obtain ⟨u, hu⟩ := hn
      have hl := (refsRight_of h ho hu).2
      exact refsRight_same (refsRight_setOrder (refsRight_same (t := s.unlistHead k) h rfl) k { o with head := .fenced } hl
        fun v hv => (refsRight_of h ho hv).1) rfl
    · intro u i hi
      have hne : i ≠ k := fun e => hn ⟨u, e ▸ hi⟩
      obtain ⟨o', ho', hp⟩ := h u i hi
      refine ⟨o', ?_, hp⟩
      show ((s.unlistHead k).setOrder k _).order i = some o'
      rw [setOrder_order, if_neg hne]
      exact ho'

theorem refsRight_foldl {α : Type} {f : State → α → State} (hf : ∀ s x, s.refsRight → (f s x).refsRight) (l : List α) {s : State}
    (h : s.refsRight) : (l.foldl f s).refsRight := by
  induction l generalizing s with
  | nil => exact h
  | cons x rest ih => exact ih (hf s x h)

theorem refsRight_fenceSegment {s : State} (h : s.refsRight) (n : Nat) : (s.fenceSegment n).refsRight := by
  have turned : ((s.headsAt n).foldl (fun s k => s.turnAway k n) (s.setSeg n { s.seg n with queue := [] })).refsRight :=
    refsRight_foldl (fun s k hs => refsRight_turnAway hs k n) _ (refsRight_same (t := s.setSeg n _) h rfl)
  exact refsRight_same turned (ite_orders rfl rfl)

theorem refsRight_takeSetFence {s : State} (h : s.refsRight) (q : Ask) (who : Originator) (k base size : Nat) :
    (s.takeSetFence q who k base size).refsRight := by
  unfold State.takeSetFence
  split
  · exact refsRight_answer h q _ _
  · dsimp only
    split
    · exact refsRight_answer h q _ _
    · exact refsRight_answer (refsRight_foldl (fun s n hs => refsRight_fenceSegment hs n) _ (refsRight_same (t := s.setFence k _) h rfl)) q _ _

theorem refsRight_owner {s : State} (h : s.refsRight) (q : Ask) (who : Originator) (r : Request) : (s.owner q who r).refsRight := by
  have answered {o : Outcome} {b : Body} : (s.answer q o b).orders = s.orders := answer_orders s q o b
  cases r with
  | readStatus => exact refsRight_same h answered
  | readSegment n => exact refsRight_same h (ite_orders answered (answerTime_orders s _ q _))
  | readPad p => exact refsRight_same h (ite_orders answered (answerTime_orders s _ q _))
  | readTransporter t => exact refsRight_same h (takeReadTransporter_orders s q t)
  | readOrder k p => exact refsRight_same h (takeReadOrder_orders s q k p)
  | readTelescope x => exact refsRight_same h (ite_orders answered answered)
  | sweepPads f c d => exact refsRight_same h (ite_orders answered answered)
  | fetchNotice => exact refsRight_same h (takeFetchNotice_orders s q)
  | setNoticeEnables e => exact refsRight_same h (ite_orders answered (answer_orders _ q _ _))
  | clearPort => exact refsRight_same h (answer_orders _ q _ _)
  | setParameter n v => exact refsRight_same h (takeSetParameter_orders s q n v)
  | restart => exact refsRight_takeRestart s q
  | declareSegment n k g v r l1 l2 l3 => exact refsRight_same h (takeDeclareSegment_orders s q n _)
  | closeLayout => exact refsRight_same h (takeCloseLayout_orders s q)
  | clearSwitch j => exact refsRight_same h (takeClearSwitch_orders s q j)
  | submitOrder t k f leg => exact refsRight_takeSubmitOrder h q who t k f leg
  | cancelOrder k => exact refsRight_takeCancelOrder h q k
  | divert t a b => exact refsRight_takeDivert h q who t a b
  | resumeRefuge k => exact refsRight_takeResumeRefuge h q k
  | declarePad p a g x => exact refsRight_same h (takeDeclarePad_orders s q p a g x)
  | settlePad p x => exact refsRight_same h (takeSettlePad_orders s q p x)
  | settleLoad t l => exact refsRight_same h (takeSettleLoad_orders s q t l)
  | barPad p => exact refsRight_same h (ite_orders answered (ite_orders (answer_orders _ q _ _) answered))
  | unbarPad p => exact refsRight_same h (ite_orders answered (ite_orders (answer_orders _ q _ _) answered))
  | recouplePad p => exact refsRight_same h (takeRecouplePad_orders s q p)
  | enrollTransporter t n l => exact refsRight_same h (takeEnroll_orders s q t n l)
  | disenrollTransporter t => exact refsRight_takeDisenroll h q t
  | clearAstray t n => exact refsRight_takeClearAstray h q t n
  | proceed t => exact refsRight_same h (takeProceed_orders s q t)
  | enterQuiet => exact refsRight_same h (takeEnterQuiet_orders s q)
  | leaveQuiet => exact refsRight_same h (takeLeaveQuiet_orders s q)
  | setGrants w a b => exact refsRight_same h (ite_orders answered (answer_orders _ q _ _))
  | setFence k b n => exact refsRight_takeSetFence h q who k b n
  | clearFence k => exact refsRight_same h (takeClearFence_orders s q who k)
  | hold => exact refsRight_same h (changeHold_answer_orders s _ q _ _)
  | releaseHold => exact refsRight_same h (ite_orders (changeHold_answer_orders s _ q _ _) answered)
  | clearWayside => exact refsRight_same h (takeClearWayside_orders s q)

/-! ### The taking of requests and the events of the Control Port -/

theorem refsRight_decideRequest {s : State} (h : s.refsRight) (x : QueuedRequest) : (s.decideRequest x).refsRight := by
  unfold State.decideRequest
  dsimp only
  split
  · exact refsRight_answer h _ _ _
  · exact refsRight_answer h _ _ _
  · unfold State.decideValid
    split
    · exact refsRight_answer h _ _ _
    · split
      · exact refsRight_answer h _ _ _
      · split
        · exact refsRight_answer h _ _ _
        · exact refsRight_owner h _ _ _

theorem lateAnswer_orders (x : LateAnswer) (s : State) : (lateAnswer x s).orders = s.orders := by
  cases x with
  | cancel q k =>
    unfold lateAnswer State.answerCancel
    dsimp only
    split
    · rfl
    · exact answer_orders s q _ _
  | divert q k =>
    unfold lateAnswer State.answerDivert
    dsimp only
    split
    · rfl
    · exact answer_orders s q _ _
  | resume q k =>
    unfold lateAnswer State.answerResume
    dsimp only
    split
    · rfl
    · exact answer_orders s q _ _
  | quiet q => exact ite_orders (answer_orders s q _ _) (answer_orders s q _ _)

theorem placeLate_orders (s : State) : s.placeLate.orders = s.orders := by
  cases h : s.late with
  | none =>
    unfold State.placeLate
    rw [h]
  | some x =>
    rw [placeLate_some h]
    exact lateAnswer_orders x _

theorem refsRight_takeRequest {s : State} (h : s.refsRight) : (takeRequest s).refsRight := by
  unfold takeRequest
  split
  · exact h
  · next x rest _ =>
    split
    · exact refsRight_same (refsRight_work (refsRight_decideRequest (refsRight_same (t := s.setRequests rest) h rfl) x)) (placeLate_orders _)
    · exact h

theorem refsRight_takeRequests (n : Nat) {s : State} (h : s.refsRight) : (takeRequests n s).refsRight := by
  induction n generalizing s with
  | zero => exact h
  | succ n ih => exact ih (refsRight_takeRequest h)

theorem joinRequests_orders (s : State) (x : QueuedRequest) : (s.joinRequests x).orders = s.orders := ite_orders rfl rfl

theorem shiftIn_orders (s : State) (b : Byte) : (s.shiftIn b).orders = s.orders := by
  unfold State.shiftIn
  split
  · rfl
  · split
    · rfl
    · exact ite_orders rfl (ite_orders rfl rfl)
    · refine ite_orders rfl ?_
      unfold State.frameComplete
      exact ite_orders (s := s) (joinRequests_orders _ _) rfl

theorem shiftBytes_orders (s : State) (bytes : List Byte) : (s.shiftBytes bytes).orders = s.orders := foldl_orders shiftIn_orders bytes s

theorem endWindow_orders (s : State) : s.endWindow.orders = s.orders := by
  unfold State.endWindow
  split <;> rfl

theorem PortEvent.orders {act : State → State} (h : PortEvent act) (s : State) : (act s).orders = s.orders := by
  cases h with
  | join x => exact joinRequests_orders s x
  | shift bytes => exact shiftBytes_orders s bytes
  | windowEnd bytes => exact (endWindow_orders _).trans (shiftBytes_orders s bytes)
  | answerLeaves =>
    unfold State.answerLeaves
    split
    · split <;> rfl
    · rfl
  | byte b => exact shiftIn_orders s b

end Sys2Proof.Proofs
end

section
/-!
O3 and O4: the record laws hold at reset, and every step keeps them.
-/

namespace Sys2Proof.Proofs

open Sys2Proof Sys2Proof.Machine Sys2Proof.Laws

/-! ### Reset -/

theorem params_initial_inRange (n v : Nat) (h : Params.initial.value n = some v) : (paramRange n).1 ≤ v ∧ v ≤ (paramRange n).2 := by
  unfold Params.value at h
  split at h <;> cases h <;> decide

/-- A record law of reset reads no reset cause, no command to come and no free-run count. -/
theorem recorded_restartedBy (s : State) (cause : ResetCause) : Recorded (s.restartedBy cause) where
  canonical := ⟨rfl, rfl, rfl, rfl, rfl, rfl, rfl, rfl, rfl, rfl, rfl, rfl, rfl⟩
  switches := fun _ _ h => by cases h
  outQueue := List.nodup_nil
  queues := ⟨Nat.zero_le 16, rfl, Nat.zero_le 8, Nat.zero_le 8⟩
  misses := fun _ _ h => by cases h
  params := params_initial_inRange
  fences := fun _ _ h => by cases h
  notices := List.pairwise_singleton _ _

/-- RESTARTED is pending and enabled, so ATTENTION is asserted. -/
theorem attentionRight_reset : State.reset.attentionRight := by
  unfold State.attentionRight
  decide

theorem sound_restartedBy (s : State) (cause : ResetCause) : (s.restartedBy cause).Sound :=
  (sound_iff _).2 ⟨recorded_restartedBy s cause, .inl rfl, attentionRight_reset⟩

theorem refsRight_restartedBy (s : State) (cause : ResetCause) : (s.restartedBy cause).refsRight := fun _ _ h => by cases h

theorem slotsRight_restartedBy (s : State) (cause : ResetCause) : (s.restartedBy cause).slotsRight := fun _ _ h => by cases h

theorem reset_restartedBy_power : State.reset.restartedBy .power = State.reset := rfl

/-- Settles O3: reset is the state that POWER_ON leaves. -/
theorem soundAtReset : Obligations.SoundAtReset := by
  unfold Obligations.SoundAtReset
  rw [← reset_restartedBy_power]
  exact ⟨sound_restartedBy _ _, refsRight_restartedBy _ _, slotsRight_restartedBy _ _⟩

/-! ### The end of a command -/

theorem attentionRight_closeEvent (s : State) (l : List Instr) : (closeEvent l s).attentionRight := rfl

theorem sound_closeEvent {s : State} (h : Recorded s) (hr : s.requestsTaken) (l : List Instr) : (closeEvent l s).Sound :=
  (sound_iff _).2 ⟨(upheld_closeEvent s l).records h, (upheld_closeEvent s l).requestsTaken hr, attentionRight_closeEvent s l⟩

theorem refsRight_closeEvent {s : State} (h : s.refsRight) (l : List Instr) : (closeEvent l s).refsRight := refsRight_same h rfl

theorem BlockEvent.upheld_workOff {act : State → State} (h : BlockEvent act) (s : State) : Upheld s (workOff (act s)) :=
  (h.upheld s).trans (upheld_kept (kept_workOff _))

theorem PortEvent.lawsKept_taken {act : State → State} (h : PortEvent act) (s : State) (n : Nat) : LawsKept s (takeRequests n (act s)) :=
  (h.lawsKept s).trans (lawsKept_takeRequests n _)

/-! ### Every command keeps the laws -/

theorem Executed.sound {s t : State} (h : Executed s t) (hs : s.Sound) : t.Sound := by
  obtain ⟨recorded, taken, -⟩ := (sound_iff s).1 hs
  cases h with
  | reset cause => exact sound_restartedBy s cause
  | blocks hact => exact sound_closeEvent ((hact.upheld_workOff s).records recorded) ((hact.upheld_workOff s).requestsTaken taken) _
  | port hact => exact sound_closeEvent ((hact.lawsKept_taken s _).records recorded) (requestsTaken_takeRequests _ le_rfl) _
  | window => exact sound_closeEvent ((upheld_beginWindow s).records recorded) ((upheld_beginWindow s).requestsTaken taken) _

theorem Executed.slotsRight {s t : State} (h : Executed s t) (hs : s.slotsRight) : t.slotsRight := by
  cases h with
  | reset cause => exact slotsRight_restartedBy s cause
  | blocks hact => exact (upheld_closeEvent _ _).slots ((hact.upheld_workOff s).slots hs)
  | port hact => exact (upheld_closeEvent _ _).slots ((hact.lawsKept_taken s _).slots hs)
  | window => exact (upheld_closeEvent _ _).slots ((upheld_beginWindow s).slots hs)

theorem beginWindow_orders (s : State) : s.beginWindow.orders = s.orders := by
  unfold State.beginWindow
  split <;> rfl

theorem Executed.refsRight {s t : State} (h : Executed s t) (hs : s.refsRight) : t.refsRight := by
  cases h with
  | reset cause => exact refsRight_restartedBy s cause
  | blocks hact => exact refsRight_closeEvent (refsRight_work (hact.refsRight hs)) _
  | port hact => exact refsRight_closeEvent (refsRight_takeRequests _ (refsRight_same hs (hact.orders s))) _
  | window => exact refsRight_closeEvent (refsRight_same hs (beginWindow_orders s)) _

/-! ### Every step -/

theorem sound_dequeue {s : State} (h : s.Sound) (l : List Instr) : State.Sound { s with pending := l } := { h with }

/-- A step executes the command at the head of the queue, or stands still where none is there. -/
theorem step_executed {s t : State} (h : step s = .next t) : t = s ∨ ∃ rest, Executed { s with pending := rest } t := by
  unfold step at h
  split at h
  · cases h
    exact .inl rfl
  · exact .inr ⟨_, executed h⟩

/-- Settles O4: a command is a reset, an event of the blocks, an event of the Control Port or the beginning of a window, and each keeps the laws. -/
theorem stepKeepsSound : Obligations.StepKeepsSound := by
  unfold Obligations.StepKeepsSound
  refine ⟨fun s t hs h => ?_, fun s t hs h => ?_, fun s t hs h => ?_⟩
  · obtain rfl | ⟨rest, he⟩ := step_executed h
    · exact hs
    · exact he.sound (sound_dequeue hs rest)
  · obtain rfl | ⟨rest, he⟩ := step_executed h
    · exact hs
    · exact he.refsRight (refsRight_same (t := { s with pending := rest }) hs rfl)
  · obtain rfl | ⟨rest, he⟩ := step_executed h
    · exact hs
    · exact he.slotsRight hs

end Sys2Proof.Proofs
end

section
/-!
PROOFS. Move orders: `read-order` (R66, R200); `submit-order`, refused and accepted (R68 to R70).
-/

namespace Sys2Proof.Proofs

open Sys2Proof Sys2Proof.Machine Sys2Proof.Laws

/-! ### `read-order` -/

/-- The three lists on which a head can wait at a segment (R27, R60, R162). -/
theorem waitsAt_iff (s : State) (k n : Nat) : s.waitsAt k n = true ↔
    (∃ e ∈ s.core.waiting, e.slot = k ∧ e.segment = n) ∨ (∃ e ∈ s.guards.fenced, e.slot = k ∧ e.segment = n) ∨
      ∃ r, s.junction n = some r ∧ k ∈ r.waiters := by
  unfold State.waitsAt
  cases s.junction n <;> simp [or_assoc]

theorem headSegment_none {s : State} {k : Nat} {o : Order} (h : o.head = .none) : s.headSegment k o = none := by
  unfold State.headSegment
  rw [h]

theorem headSegment_claiming {s : State} {k n : Nat} {o : Order} (h : o.head = .claiming n) : s.headSegment k o = some n := by
  unfold State.headSegment
  rw [h]

/-- The segment shown for a waiting head is one at which it waits (R66). -/
theorem waitsAt_of_headSegment {s : State} {k n : Nat} {o : Order} (hc : s.canonical) (h : s.headSegment k o = some n) :
    o.head = .claiming n ∨ s.waitsAt k n = true := by
  unfold State.headSegment at h
  split at h
  · cases h
  · next m hm => exact .inl (hm.trans (congrArg HeadCause.claiming (Option.some.inj h)))
  · refine .inr ((waitsAt_iff s k n).2 ?_)
    rcases Option.or_eq_some_iff.1 h with h | ⟨-, h⟩
    · obtain ⟨e, he, hn⟩ := Option.map_eq_some_iff.1 h
      exact .inl ⟨e, List.mem_of_find?_eq_some he, by simpa using List.find?_some he, hn⟩
    · rcases Option.or_eq_some_iff.1 h with h | ⟨-, h⟩
      · obtain ⟨e, he, hn⟩ := Option.map_eq_some_iff.1 h
        exact .inr (.inl ⟨e, List.mem_of_find?_eq_some he, by simpa using List.find?_some he, hn⟩)
      · obtain ⟨e, he, hn⟩ := List.exists_of_findSome?_eq_some h
        split at hn
        · next r hr =>
          split at hn
          · next hk =>
            obtain rfl := Option.some.inj hn
            obtain ⟨-, -, -, hj, -⟩ := hc
            exact .inr (.inr ⟨r, (get_of_mem ((wf_iff _ _).1 hj) he).trans hr, hk⟩)
          · cases hn
        · cases hn

/-- A head that waits on one of the lists is found there (R66). -/
theorem headSegment_of_waitsAt {s : State} {k n : Nat} {o : Order} (hh : o.head ≠ .none) (h : s.waitsAt k n = true) :
    s.headSegment k o ≠ none := by
  unfold State.headSegment
  split
  · contradiction
  · simp
  · intro hnone
    obtain ⟨hw, hrest⟩ := Option.or_eq_none_iff.1 hnone
    obtain ⟨hf, hj⟩ := Option.or_eq_none_iff.1 hrest
    rw [Option.map_eq_none_iff, List.find?_eq_none] at hw hf
    rw [List.findSome?_eq_none_iff] at hj
    rcases (waitsAt_iff s k n).1 h with ⟨e, he, hk, -⟩ | ⟨e, he, hk, -⟩ | ⟨r, hr, hk⟩
    · exact hw e he (decide_eq_true hk)
    · exact hf e he (decide_eq_true hk)
    · have hne : s.junction n ≠ none := by simp [hr]
      have hn := hj _ (mem_of_get hne)
      rw [show Table.get none s.junctions.recs n = some r from hr] at hn
      simp [hk] at hn

theorem takeReadOrder_range {s : State} (q : Ask) {k : Nat} {part : Option Nat} (h : 7 < k ∨ 4 < part.getD 0) :
    s.takeReadOrder q k part = s.answer q .refusedRange .empty := if_pos h

theorem takeReadOrder_empty {s : State} (q : Ask) {k : Nat} {part : Option Nat} (hk : k ≤ 7) (hp : part.getD 0 ≤ 4) (ho : s.order k = none) :
    s.takeReadOrder q k part = s.answer q .done .orderEmpty := by
  unfold State.takeReadOrder
  dsimp only
  rw [if_neg (by omega), ho]

theorem takeReadOrder_shown {s : State} (q : Ask) {k : Nat} {part : Option Nat} {o : Order} (hk : k ≤ 7) (hp : part.getD 0 ≤ 4)
    (ho : s.order k = some o) : s.takeReadOrder q k part = s.answer q .done (s.showPart k (part.getD 0) o) := by
  unfold State.takeReadOrder
  dsimp only
  rw [if_neg (by omega), ho]

/-- Settles O16: `read-order` is answered with `showPart`, and part 0 is the order's record with the segment for which its head waits. -/
theorem readOrderAnswersOnePart : Obligations.ReadOrderAnswersOnePart := by
  intro h k part s hs hw
  have answered {o : Outcome} {b : Body} (e : s.takeReadOrder ⟨h.tag, codeOf (.readOrder k part)⟩ k part = s.answer ⟨h.tag, codeOf (.readOrder k part)⟩ o b) :
      exec (.readOrder h k part) s = .next (s.answered h (.readOrder k part) o b).decideAttention := exec_answer rfl hs hw rfl rfl rfl e
  refine ⟨fun hr => answered (takeReadOrder_range _ hr), fun hk hp ho => answered (takeReadOrder_empty _ hk hp ho), fun o hk ho => ?_⟩
  have shown {n : Nat} (e : part.getD 0 = n) (hn : n ≤ 4) :
      exec (.readOrder h k part) s = .next (s.answered h (.readOrder k part) .done (s.showPart k n o)).decideAttention :=
    e ▸ answered (takeReadOrder_shown _ hk (e ▸ hn) ho)
  refine ⟨fun hp => ⟨s.showOrder k o, shown hp (by decide), rfl, rfl, rfl, rfl, rfl, rfl, rfl, rfl, rfl, rfl, rfl, rfl, rfl, ?_, ?_,
    headSegment_none, fun n => headSegment_claiming, fun hc n => waitsAt_of_headSegment hc, fun hh ⟨n, hn⟩ => headSegment_of_waitsAt hh hn⟩, ?_, ?_, ?_, ?_⟩
  · simp [State.showOrder, Order.dwell]
  · simp [State.showOrder]
  all_goals
    rintro rfl
    exact shown rfl (by decide)

/-! ### What R68 decides -/

/-- The numbers of a `submit-order` are in range (R68 step 2). -/
def SubmissionInRange (i : Nat) (kind : OrderKind) (f : Finish) : Prop := i ≤ 3 ∧ kind ≠ .refuge ∧ ∀ p, finishPad f = some p → p ≤ 191

/-- A transporter that may not take an order (R68 step 3). -/
def Occupied (s : State) (i : Nat) : Prop :=
  s.hasCondition i .normal = false ∨ (s.orderRefs i).active ≠ none ∨ (s.orderRefs i).pendingDivert ≠ none

theorem submissionInRange_iff (i : Nat) (kind : OrderKind) (f : Finish) :
    SubmissionInRange i kind f ↔ ¬(3 < i ∨ kind = .refuge ∨ (finishPad f).any (fun p => decide (191 < p)) = true) := by
  unfold SubmissionInRange
  cases finishPad f <;> simp [not_or]

theorem occupied_iff (s : State) (i : Nat) :
    Occupied s i ↔ ((!s.hasCondition i .normal) = true ∨ (s.orderRefs i).active ≠ none ∨ (s.orderRefs i).pendingDivert ≠ none) := by
  unfold Occupied
  rw [Bool.not_eq_true']

/-- The decision of a `submit-order` whose leg the walk accepts (R68 steps 5 to 8). -/
def walkedDecision (s : State) (who : Originator) (i : Nat) (kind : OrderKind) (f : Finish) (k : Nat) (route : List RoutePos) :
    Except (Outcome × Body) (Nat × List RoutePos) :=
  if (route.head?).map (·.segment) ≠ s.position i then .error (.refusedRoute, .routeFault 1 0 .start)
  else if !s.kindAgrees i kind then .error (.refusedState, .empty)
  else (s.finishRefusal kind f route).elim
    ((s.firstRefused who (submissionObjects route f)).elim (.ok (k, route)) fun x => .error (.denied, .deniedObject x.1 x.2)) .error

section
variable {s : State} {who : Originator} {i : Nat} {kind : OrderKind} {f : Finish} {leg : List Stretch} {k : Nat}

theorem decideSubmission_full (hk : s.freeSlot = none) : s.decideSubmission who i kind f leg = .error (.noSlot, .empty) := by
  unfold State.decideSubmission
  rw [hk]

theorem decideSubmission_range (hk : s.freeSlot = some k) (hr : ¬SubmissionInRange i kind f) :
    s.decideSubmission who i kind f leg = .error (.refusedRange, .empty) := by
  unfold State.decideSubmission
  rw [hk]
  exact if_pos (not_not.1 (mt (submissionInRange_iff i kind f).2 hr))

theorem decideSubmission_occupied (hk : s.freeSlot = some k) (hr : SubmissionInRange i kind f) (hb : Occupied s i) :
    s.decideSubmission who i kind f leg = .error (.refusedState, .empty) := by
  unfold State.decideSubmission
  rw [hk]
  dsimp only
  rw [if_neg ((submissionInRange_iff i kind f).1 hr)]
  exact if_pos ((occupied_iff s i).1 hb)

theorem decideSubmission_faulty (hk : s.freeSlot = some k) (hr : SubmissionInRange i kind f) (hb : ¬Occupied s i) {p : Nat} {x : RouteFault}
    (hl : s.checkLeg leg = .error (p, x)) : s.decideSubmission who i kind f leg = .error (.refusedRoute, .routeFault 1 p x) := by
  unfold State.decideSubmission
  rw [hk]
  dsimp only
  rw [if_neg ((submissionInRange_iff i kind f).1 hr), if_neg (mt (occupied_iff s i).2 hb), hl]

theorem decideSubmission_walked (hk : s.freeSlot = some k) (hr : SubmissionInRange i kind f) (hb : ¬Occupied s i) {route : List RoutePos}
    (hl : s.checkLeg leg = .ok route) : s.decideSubmission who i kind f leg = walkedDecision s who i kind f k route := by
  unfold State.decideSubmission walkedDecision
  rw [hk]
  dsimp only
  rw [if_neg ((submissionInRange_iff i kind f).1 hr), if_neg (mt (occupied_iff s i).2 hb), hl]
  dsimp only
  cases s.finishRefusal kind f route <;> cases s.firstRefused who (submissionObjects route f) <;> rfl

end

section
variable {s : State} {who : Originator} {i : Nat} {kind : OrderKind} {f : Finish} {k : Nat} {route : List RoutePos}

theorem walkedDecision_start (h : (route.head?).map (·.segment) ≠ s.position i) :
    walkedDecision s who i kind f k route = .error (.refusedRoute, .routeFault 1 0 .start) := if_pos h

variable (hp : (route.head?).map (·.segment) = s.position i)
include hp

theorem walkedDecision_kind (h : s.kindAgrees i kind = false) : walkedDecision s who i kind f k route = .error (.refusedState, .empty) :=
  (if_neg (not_not_intro hp)).trans (if_pos (by simp [h]))

variable (ha : s.kindAgrees i kind = true)
include ha

theorem walkedDecision_agreed : walkedDecision s who i kind f k route = (s.finishRefusal kind f route).elim
    ((s.firstRefused who (submissionObjects route f)).elim (.ok (k, route)) fun x => .error (.denied, .deniedObject x.1 x.2)) .error :=
  (if_neg (not_not_intro hp)).trans (if_neg (by simp [ha]))

theorem walkedDecision_finish {x : Outcome × Body} (h : s.finishRefusal kind f route = some x) :
    walkedDecision s who i kind f k route = .error x := by
  rw [walkedDecision_agreed hp ha, h]
  rfl

variable (hf : s.finishRefusal kind f route = none)
include hf

theorem walkedDecision_denied {x : ObjectKind} {n : Nat} (h : s.firstRefused who (submissionObjects route f) = some (x, n)) :
    walkedDecision s who i kind f k route = .error (.denied, .deniedObject x n) := by
  rw [walkedDecision_agreed hp ha, hf, h]
  rfl

theorem walkedDecision_passed (h : s.firstRefused who (submissionObjects route f) = none) :
    walkedDecision s who i kind f k route = .ok (k, route) := by
  rw [walkedDecision_agreed hp ha, hf, h]
  rfl

end

/-! ### A refused `submit-order` -/

theorem submitOrder_allowed {s : State} (hl : s.layout.closed = true) (i : Nat) (kind : OrderKind) (f : Finish) (leg : List Stretch) :
    s.layoutRefuses (.submitOrder i kind f leg) = false := by
  unfold State.layoutRefuses
  rw [hl]
  rfl

theorem takeSubmitOrder_refused {s : State} (q : Ask) {who : Originator} {i : Nat} {kind : OrderKind} {f : Finish} {leg : List Stretch} {o : Outcome}
    {b : Body} (h : s.decideSubmission who i kind f leg = .error (o, b)) : s.takeSubmitOrder q who i kind f leg = s.answer q o b := by
  unfold State.takeSubmitOrder
  rw [h]

/-- Settles O29: each test of R68 that fails is the decision's refusal where the tests before it passed, and a refusal is only answered. -/
theorem refusedOrderChangesNothing : Obligations.RefusedOrderChangesNothing := by
  intro h i kind f leg s hs hw hl r reply busy ranges
  have refused {o : Outcome} {b : Body} (e : s.decideSubmission h.originator i kind f leg = .error (o, b)) : reply o b :=
    exec_answer rfl hs hw rfl rfl (submitOrder_allowed hl i kind f leg) (takeSubmitOrder_refused _ e)
  have slot : s.freeSlot ≠ none → ∃ k, s.freeSlot = some k := Option.ne_none_iff_exists'.1
  refine ⟨fun hk => refused (decideSubmission_full hk), fun hk hr => ?_, fun hk hr hb => ?_, fun p x hk hr hb hleg => ?_,
    fun route hk hr hb hleg => ?_⟩ <;> obtain ⟨k, hk⟩ := slot ‹_›
  · exact refused (decideSubmission_range hk hr)
  · exact refused (decideSubmission_occupied hk hr hb)
  · exact refused (decideSubmission_faulty hk hr hb hleg)
  · have hd := decideSubmission_walked (who := h.originator) hk hr hb hleg
    exact ⟨fun hp => refused (hd.trans (walkedDecision_start hp)), fun hp => ⟨fun ha => refused (hd.trans (walkedDecision_kind hp ha)), fun ha =>
      ⟨fun x hx => refused (hd.trans (walkedDecision_finish hp ha hx)), fun x n hf hx => refused (hd.trans (walkedDecision_denied hp ha hf hx))⟩⟩⟩

end Sys2Proof.Proofs
end

section
/-!
PROOFS. Move orders: an accepted `submit-order` (R68 to R72).
-/

namespace Sys2Proof.Proofs

open Sys2Proof Sys2Proof.Machine Sys2Proof.Laws

/-! ### Diverts that are STARTING -/

/-- No divert is STARTING for a transporter exactly where no slot holds a STARTING order of it (R93). -/
theorem startingDivert_none_iff (s : State) (i : Nat) :
    s.startingDivert i = none ↔ ∀ m ∈ slots, ∀ o, s.order m = some o → o.transporter = i → o.state ≠ .starting := by
  unfold State.startingDivert
  rw [List.find?_eq_none]
  refine forall₂_congr fun m _ => ?_
  cases s.order m <;> simp

theorem startingDivert_same {s t : State} (e : t.orders = s.orders) (i : Nat) : t.startingDivert i = s.startingDivert i := by
  unfold State.startingDivert State.order
  rw [e]

/-- An order written in a state other than STARTING sets no divert STARTING. -/
theorem startingDivert_setOrder {s : State} {i : Nat} (h : s.startingDivert i = none) (k : Nat) {o : Order} (ho : o.state ≠ .starting) :
    (s.setOrder k (some o)).startingDivert i = none := by
  rw [startingDivert_none_iff] at h ⊢
  intro m hm o' ho' ht
  rw [setOrder_order] at ho'
  split at ho'
  · exact Option.some.inj ho' ▸ ho
  · exact h m hm o' ho' ht

/-! ### The acceptance -/

/-- The state in which an accepted order has taken its slot, its place as the active order and its pad claim (R70). -/
def accepted (s : State) (k i : Nat) (kind : OrderKind) (f : Finish) (route : List RoutePos) : State :=
  ((s.setOrder k (some (newOrder i kind f route))).setRefs i { s.orderRefs i with active := some k }).takeClaim k i f

/-- The work that an acceptance sets off: the lead extension, the run limit and the throw checks (R33, R49, R72). -/
def acceptedWork (s : State) (k i : Nat) : State := (s.makeDue k).emit [.recompute i, .reviewJunctions i]

theorem takeSubmitOrder_accepted {s : State} (q : Ask) {who : Originator} {i : Nat} {kind : OrderKind} {f : Finish} {leg : List Stretch} {k : Nat}
    {route : List RoutePos} (h : s.decideSubmission who i kind f leg = .ok (k, route)) :
    s.takeSubmitOrder q who i kind f leg = (acceptedWork (accepted s k i kind f route) k i).answer q .accepted (.orderAccepted k route.length) := by
  unfold State.takeSubmitOrder
  rw [h]
  rfl

/-- A pad claim is a write to a pad. -/
theorem takeClaim_pads (s : State) (k i : Nat) (f : Finish) : ∃ pads, s.takeClaim k i f = { s with transfer := { s.transfer with pads := pads } } := by
  unfold State.takeClaim
  split
  · exact ⟨_, rfl⟩
  · exact ⟨_, rfl⟩
  · split <;> exact ⟨_, rfl⟩

theorem takeClaim_lift (s : State) (k i p : Nat) : (s.takeClaim k i (.lift p)).pad p = { s.pad p with claim := some k } :=
  setPad_pad_same s p _

theorem takeClaim_setDown {s : State} (k : Nat) {i p x : Nat} (h : s.load i = some (.telescope x)) :
    (s.takeClaim k i (.setDown p)).pad p = { s.pad p with state := .inbound, expected := some x, claim := some k } := by
  unfold State.takeClaim
  dsimp only
  rw [h]
  exact setPad_pad_same s p _

section
variable (s : State) (k i : Nat) (kind : OrderKind) (f : Finish) (route : List RoutePos)

theorem accepted_orders : (accepted s k i kind f route).orders
    = ((s.setOrder k (some (newOrder i kind f route))).setRefs i { s.orderRefs i with active := some k }).orders := takeClaim_orders _ k i f

theorem accepted_order : (accepted s k i kind f route).order k = some (newOrder i kind f route) := by
  unfold State.order
  rw [accepted_orders]
  exact setOrder_order_same s k (some (newOrder i kind f route))

theorem accepted_orderRefs : (accepted s k i kind f route).orderRefs i = { s.orderRefs i with active := some k } := by
  unfold State.orderRefs
  rw [accepted_orders]
  exact setRefs_orderRefs_same _ i _

theorem accepted_active : (accepted s k i kind f route).active i = some (k, newOrder i kind f route) := by
  unfold State.active
  rw [accepted_orderRefs]
  dsimp only
  rw [accepted_order]
  rfl

theorem accepted_lift (p : Nat) : (accepted s k i kind (.lift p) route).pad p = { s.pad p with claim := some k } := takeClaim_lift _ k i p

theorem accepted_setDown (p : Nat) {x : Nat} (h : s.load i = some (.telescope x)) :
    (accepted s k i kind (.setDown p) route).pad p = { s.pad p with state := .inbound, expected := some x, claim := some k } :=
  takeClaim_setDown k h

/-- What an acceptance leaves of the port, the agenda and the commands that wait. -/
theorem accepted_same : (accepted s k i kind f route).port = s.port ∧ (accepted s k i kind f route).agenda = s.agenda ∧
    (accepted s k i kind f route).late = s.late ∧ (accepted s k i kind f route).pending = s.pending := by
  obtain ⟨pads, e⟩ := takeClaim_pads ((s.setOrder k (some (newOrder i kind f route))).setRefs i { s.orderRefs i with active := some k }) k i f
  unfold accepted
  rw [e]
  exact ⟨rfl, rfl, rfl, rfl⟩

end

/-- The references stay right by an acceptance. -/
theorem refsRight_accepted {s : State} (hr : s.refsRight) {k : Nat} (hk : s.freeSlot = some k) (i : Nat) (kind : OrderKind) (f : Finish)
    (route : List RoutePos) : (accepted s k i kind f route).refsRight := by
  refine refsRight_same (refsRight_newOrder hr hk (newOrder i kind f route) rfl { s.orderRefs i with active := some k } fun m hm => ?_)
    (accepted_orders s k i kind f route)
  simp only [OrderRefs.named, List.mem_append, Option.mem_toList] at hm ⊢
  rcases hm with (hm | hm) | hm
  · exact .inl (Option.some.inj hm).symm
  · exact .inr (.inl (.inr hm))
  · exact .inr (.inr hm)

/-- A pad that a LIFT may claim is ANCHORED (R69). -/
theorem anchored_of_lift {s : State} {kind : OrderKind} {p : Nat} {route : List RoutePos} (h : s.finishRefusal kind (.lift p) route = none) :
    (s.pad p).state = .anchored := by
  by_contra hne
  unfold State.finishRefusal at h
  dsimp only at h
  rw [if_pos (Or.inl hne)] at h
  split at h
  · cases h
  · split at h <;> cases h

/-- A new order's claim point stands at the first position of its leg. -/
theorem claimIn_newOrder (i : Nat) (kind : OrderKind) (f : Finish) {route : List RoutePos} (h : 0 < route.length) :
    claimIn (newOrder i kind f route) := by
  have hroute : 0 < (newOrder i kind f route).route.length := by
    simp [Order.route, newOrder, h]
  exact ⟨(if_pos h).symm, hroute⟩

/-- A claim point in the route of an order that is no refuge stands in leg 1. -/
theorem claim_in_leg1 {o : Order} (hk : o.kind ≠ .refuge) (h : claimIn o) : o.claim.leg = 1 ∧ o.claim.pos < o.leg1.length := by
  obtain ⟨he, hlt⟩ := h
  have hroute : o.route = o.leg1 := by simp [Order.route, hk]
  rw [hroute] at hlt
  rw [he, Order.placeOf, if_pos hlt]
  exact ⟨rfl, hlt⟩

/-- The claim point of an order that stays, and that is no refuge, stands in leg 1 still (R71). -/
theorem stays_claim {k : Nat} {o : Order} {s : State} (h : Stays k o s) (hk : o.kind ≠ .refuge) (hc : claimIn o) :
    ∃ o' : Order, s.order k = some o' ∧ o' = { o with claim := o'.claim, head := o'.head } ∧ o'.claim.leg = 1 ∧ o'.claim.pos < o.leg1.length := by
  obtain ⟨o', ho', e⟩ := h.spec
  have hc' : claimIn o' := by
    unfold Stays at h
    rw [ho'] at h
    exact h.2 hc
  have hk' : o'.kind = o.kind := by rw [e]
  have hl' : o'.leg1 = o.leg1 := by rw [e]
  obtain ⟨hleg, hpos⟩ := claim_in_leg1 (hk' ▸ hk) hc'
  exact ⟨o', ho', e, hleg, hl' ▸ hpos⟩

theorem active_same {s t : State} (e : t.orders = s.orders) (i : Nat) : t.active i = s.active i := by
  unfold State.active State.orderRefs State.order
  rw [e]

/-- What the work that follows an acceptance leaves of the order, the references and the claimed pad. -/
theorem accepted_workOff {s : State} (hr : s.refsRight) {i : Nat} (hsd : s.startingDivert i = none) {k : Nat} (hk : s.freeSlot = some k)
    {kind : OrderKind} {f : Finish} {route : List RoutePos} {e : State} (he : e.orders = (accepted s k i kind f route).orders)
    (ha : e.agenda = [.recompute i, .reviewJunctions i]) :
    (workOff e).orderRefs i = { s.orderRefs i with active := some k } ∧ Stays k (newOrder i kind f route) (workOff e) ∧
      ∀ p, (e.pad p).claim = some k → (workOff e).pad p = e.pad p ∨ (e.pad p).state = .seated := by
  have hrefs : e.orderRefs i = { s.orderRefs i with active := some k } := by
    unfold State.orderRefs
    rw [he]
    exact accepted_orderRefs s k i kind f route
  have horder : e.order k = some (newOrder i kind f route) := by
    unfold State.order
    rw [he]
    exact accepted_order s k i kind f route
  have hactive : e.active i = some (k, newOrder i kind f route) := (active_same he i).trans (accepted_active s k i kind f route)
  have hstart : e.startingDivert i = none :=
    (startingDivert_same (he.trans (accepted_orders s k i kind f route)) i).trans
      (startingDivert_setOrder hsd k (o := newOrder i kind f route) (by simp [newOrder]))
  rw [← hrefs]
  refine undisturbed_workOff (refsRight_same (refsRight_accepted hr hk i kind f route) he) (fun x hx => ?_) hstart (fun a o ho => ?_)
    (active_named hactive) horder (by simp [newOrder])
  · rw [ha] at hx
    simp only [List.mem_cons, List.not_mem_nil, or_false] at hx
    rcases hx with rfl | rfl <;> exact ⟨rfl, by simp, by simp⟩
  · rw [hactive] at ho
    cases ho
    simp [newOrder]

/-- The state in which an accepted order has been answered and its work is listed. -/
def submitted (s : State) (h : Header) (i : Nat) (kind : OrderKind) (f : Finish) (leg : List Stretch) (k : Nat) (route : List RoutePos) : State :=
  (acceptedWork (accepted s k i kind f route) k i).answered h (.submitOrder i kind f leg) .accepted (.orderAccepted k route.length)

section
variable {s : State} (hs : s.Ready) (h : Header) (i : Nat) (kind : OrderKind) (f : Finish) (leg : List Stretch) (k : Nat) (route : List RoutePos)

theorem submitted_pad (p : Nat) : (submitted s h i kind f leg k route).pad p = (accepted s k i kind f route).pad p := rfl

theorem submitted_calm : Calm ((accepted s k i kind f route).answered h (.submitOrder i kind f leg) .accepted (.orderAccepted k route.length))
    (submitted s h i kind f leg k route) :=
  calm_answered ((calm_makeDue _ k).trans (calm_emit _ (by simp [inReport]))) h _ _ _

include hs

theorem submitted_agenda : (submitted s h i kind f leg k route).agenda = [.recompute i, .reviewJunctions i] := by
  obtain ⟨-, hagenda, -, -⟩ := accepted_same s k i kind f route
  exact congrArg (· ++ [Task.recompute i, Task.reviewJunctions i]) (hagenda.trans hs.agenda)

theorem submitted_noReport : noReport (submitted s h i kind f leg k route) := by
  intro x hx
  rw [submitted_agenda hs] at hx
  simp only [List.mem_cons, List.not_mem_nil, or_false] at hx
  rcases hx with rfl | rfl <;> rfl

/-- The decision of a `submit-order` that passes every test (R68). -/
theorem submitted_decided (hl : s.layout.closed = true) (hd : s.decideSubmission h.originator i kind f leg = .ok (k, route)) :
    s.decideValid ⟨h.tag, codeOf (.submitOrder i kind f leg)⟩ h.originator (.submitOrder i kind f leg) = submitted s h i kind f leg k route := by
  obtain ⟨hport, -, -, -⟩ := accepted_same s k i kind f route
  exact (decideValid_owner rfl rfl (submitOrder_allowed hl i kind f leg)).trans
    ((takeSubmitOrder_accepted _ hd).trans
      (answer_ready hs (t := acceptedWork (accepted s k i kind f route) k i) (congrArg (·.answers) hport) h _ _ _))

end

/-- A leg that begins where an enrolled transporter stands has a position. -/
theorem route_pos {s : State} {i : Nat} {route : List RoutePos} (hn : s.hasCondition i .normal = true)
    (hp : (route.head?).map (·.segment) = s.position i) : 0 < route.length := by
  rcases route with - | ⟨x, rest⟩
  · have hnone : s.train i = none := by simpa [State.position] using hp.symm
    simp [State.hasCondition, hnone] at hn
  · simp

/-- Settles O28: the decision is to accept, the edit is `accepted`, and the work that follows moves the order's head and claim point alone. -/
theorem acceptedOrderTakesItsSlot : Obligations.AcceptedOrderTakesItsSlot := by
  intro h i kind f leg s k route hs hl hk hi hkind hpad hn hact hpend hleg hpos hagrees hfinish hguard o e
  have hlift : ∀ p, f = .lift p → e.pad p = { s.pad p with claim := some k } := fun p hf => by
    subst hf
    exact accepted_lift s k i kind route p
  have hsetDown : ∀ p x, f = .setDown p → s.load i = some (.telescope x) →
      e.pad p = { s.pad p with state := .inbound, expected := some x, claim := some k } := fun p x hf hx => by
    subst hf
    exact accepted_setDown s k i kind route p hx
  have hdecided := submitted_decided hs h i kind f leg k route hl <|
    (decideSubmission_walked hk ⟨hi, hkind, hpad⟩ (by simp [Occupied, hn, hact, hpend]) hleg).trans
      (walkedDecision_passed hpos hagrees hfinish hguard)
  have hnoReport := submitted_noReport hs h i kind f leg k route
  obtain ⟨-, -, hlate, hpending⟩ := accepted_same s k i kind f route
  refine ⟨accepted_order s k i kind f route, congrArg OrderRefs.active (accepted_orderRefs s k i kind f route), hlift, hsetDown, _,
    exec_request rfl s, (submitted_calm h i kind f leg k route).trans (submit_calm hs h _ hdecided hnoReport (hlate.trans hs.late) hpending),
    fun hr hsd => ?_⟩
  rw [submit_work hs h _ hdecided hnoReport (hlate.trans hs.late)]
  obtain ⟨hrefs, hstays, hpads⟩ := accepted_workOff (e := submitted s h i kind f leg k route) hr hsd hk rfl (submitted_agenda hs h i kind f leg k route)
  have held {p : Nat} {r : PadRec} (hp : (submitted s h i kind f leg k route).pad p = r) (hclaim : r.claim = some k) (hne : r.state ≠ .seated) :
      (workOff (submitted s h i kind f leg k route)).pad p = r := by
    subst hp
    exact (hpads p hclaim).resolve_right hne
  refine ⟨hrefs, stays_claim hstays hkind (claimIn_newOrder i kind f (route_pos hn hpos)), fun p hf => ?_, fun p x hf hx => ?_⟩
  · exact held ((submitted_pad h i kind f leg k route p).trans (hlift p hf)) rfl (by simp [anchored_of_lift (hf ▸ hfinish)])
  · exact held ((submitted_pad h i kind f leg k route p).trans (hsetDown p x hf hx)) rfl (by simp)

end Sys2Proof.Proofs
end

section
/-!
PROOFS. Move orders: the arrival, dwell and rejoin tests (R77, R78, R98, R100) and the completion of a withdrawal (R38, R85, R95).
-/

namespace Sys2Proof.Proofs

open Sys2Proof Sys2Proof.Machine Sys2Proof.Laws

/-! ### The tests of a report -/

/-- While an order is not RUNNING, or a divert of its transporter is STARTING, no test is made (R94). -/
theorem arrival_withheld {s : State} {t k : Nat} {o : Order} (ha : s.active t = some (k, o))
    (h : o.state ≠ .running ∨ (s.startingDivert t).isSome = true) : s.arrival t = s := by
  unfold State.arrival
  rw [ha]
  exact if_pos h

theorem atRejoin_iff {o : Order} (hk : o.kind = .refuge) : o.atRejoin = true ↔ o.cursor.leg = 2 ∧ o.cursor.pos + 1 = o.leg2.length := by
  unfold Order.atRejoin
  simp [hk]

section
variable {s : State} {t k : Nat} {o : Order} (ha : s.active t = some (k, o)) (hr : o.state = .running) (hs : s.startingDivert t = none)
include ha hr hs

section
variable (hk : o.kind ≠ .refuge)
include hk

theorem arrival_short (h : ¬s.restsAt t o.lastSegment = true) : s.arrival t = s := by
  unfold State.arrival
  rw [ha]
  dsimp only
  rw [if_neg (by simp [hr, hs]), if_neg hk, if_neg h]

/-- An order that rests at its last segment is ARRIVED, and ends DONE with finish NONE (R77, R78). -/
theorem arrival_arrives (h : s.restsAt t o.lastSegment = true) : s.arrival t
    = if o.finish = some .none then ((s.setOrder k (some { o with state := .arrived })).emit [.recompute t, .reviewJunctions t]).endOrder k .done
      else (s.setOrder k (some { o with state := .arrived })).emit [.recompute t, .reviewJunctions t] := by
  unfold State.arrival
  rw [ha]
  dsimp only
  rw [if_neg (by simp [hr, hs]), if_neg hk, if_pos h]

end

variable (hk : o.kind = .refuge)
include hk

/-- A refuge that rests at the end of leg 1 dwells (R98). -/
theorem arrival_dwells (hres : o.resumed = false) (h : s.restsAt t o.dwell = true) :
    s.arrival t = ((s.setOrder k (some { o with state := .dwelling })).removeHead k).emit [.recompute t, .reviewJunctions t] := by
  unfold State.arrival
  rw [ha]
  dsimp only
  rw [if_neg (by simp [hr, hs]), if_pos hk, if_neg (by simp [hres]), if_pos ⟨hres, h⟩]

/-- A resumed refuge at the end of leg 2 rejoins (R100). -/
theorem arrival_rejoins (hres : o.resumed = true) (h : o.atRejoin = true) : s.arrival t = s.rejoin t k o := by
  unfold State.arrival
  rw [ha]
  dsimp only
  rw [if_neg (by simp [hr, hs]), if_pos hk, if_pos ⟨hres, h⟩]

theorem arrival_on_refuge (h1 : ¬(o.resumed = true ∧ o.atRejoin = true)) (h2 : ¬(o.resumed = false ∧ s.restsAt t o.dwell = true)) :
    s.arrival t = s := by
  unfold State.arrival
  rw [ha]
  dsimp only
  rw [if_neg (by simp [hr, hs]), if_pos hk, if_neg h1, if_neg h2]

end

/-! ### The rejoin -/

/-- The record of an order popped at its rejoin position (R100 step 2). -/
def poppedAt (p : Order) (place : Place) : Order :=
  { p with state := .running, cursor := place, claim := place, head := .none, resumed := p.resumed || decide (place.leg = 2) }

theorem popTo_eq {s : State} {t top : Nat} {rest : List Nat} {p : Order} (place : Place) (hs : (s.orderRefs t).stack = top :: rest)
    (hp : s.order top = some p) : s.popTo t place
      = ((s.setOrder top (some (poppedAt p place))).setRefs t { s.orderRefs t with active := some top, stack := rest }).makeDue top := by
  unfold State.popTo
  rw [hs]
  dsimp only
  rw [hp]
  rfl

/-- A rejoin ends the refuge and pops the order beneath it; the rest of it lists work (R100). -/
theorem rejoin_eq (s : State) (t k : Nat) {o : Order} {place : Place} (h : o.rejoin = some place) :
    ∃ l, s.rejoin t k o = ((s.endOrder k .done).popTo t place).emit l := by
  unfold State.rejoin
  rw [h]
  dsimp only
  split
  · exact ⟨[], by simp [State.emit]⟩
  · split
    · exact ⟨_, rfl⟩
    · exact ⟨_, rfl⟩

/-- The references of a transporter without its active order, which does not stand on its stack. -/
theorem endOrder_refs_active {s : State} {t k : Nat} {o : Order} (x : OrderOutcome) (ho : s.order k = some o) (ht : o.transporter = t)
    (ha : (s.orderRefs t).active = some k) (hk : k ∉ (s.orderRefs t).stack) :
    ((s.endOrder k x).orderRefs t).active = none ∧ ((s.endOrder k x).orderRefs t).stack = (s.orderRefs t).stack := by
  rw [endOrder_orderRefs, if_pos (by rw [ho]; exact congrArg some ht)]
  refine ⟨if_pos ha, List.filter_eq_self.2 fun m hm => decide_eq_true ?_⟩
  rintro rfl
  exact hk hm

theorem active_slot {s : State} {t k : Nat} {o : Order} (h : s.active t = some (k, o)) : (s.orderRefs t).active = some k := by
  unfold State.active at h
  split at h
  · next slot hslot =>
    obtain ⟨_, -, e⟩ := Option.map_eq_some_iff.1 h
    cases e
    exact hslot
  · cases h

/-- What a rejoin leaves of the orders and of the transporter's references (R100). -/
theorem rejoin_records {s : State} {t k : Nat} {o : Order} (ha : s.active t = some (k, o)) (ht : o.transporter = t) {place : Place}
    (hrejoin : o.rejoin = some place) {top : Nat} {rest : List Nat} (hs : (s.orderRefs t).stack = top :: rest) (hk : k ∉ top :: rest) {p : Order}
    (hp : s.order top = some p) :
    (s.rejoin t k o).order k = some (Order.endedAs o .done) ∧ ⟨.orderEnded, k⟩ ∈ (s.rejoin t k o).port.notices ∧
      (s.rejoin t k o).order top = some (poppedAt p place) ∧ ((s.rejoin t k o).orderRefs t).active = some top ∧
      ((s.rejoin t k o).orderRefs t).stack = rest ∧ ∀ m, m ≠ k → m ≠ top → (s.rejoin t k o).order m = s.order m := by
  have ho := active_order ha
  have hne : k ≠ top := fun e => hk (e ▸ List.mem_cons_self)
  have hstack := (endOrder_refs_active .done ho ht (active_slot ha) (hs ▸ hk)).2.trans hs
  have htop : (s.endOrder k .done).order top = some p := by rw [endOrder_order, if_neg (Ne.symm hne)]; exact hp
  obtain ⟨l, e⟩ := rejoin_eq s t k hrejoin
  rw [e, popTo_eq place hstack htop]
  have order (m : Nat) : (((((s.endOrder k .done).setOrder top (some (poppedAt p place))).setRefs t
      { (s.endOrder k .done).orderRefs t with active := some top, stack := rest }).makeDue top).emit l).order m
        = if m = top then some (poppedAt p place) else (s.endOrder k .done).order m := by
    rw [emit_order, makeDue_order, setRefs_order, setOrder_order]
  refine ⟨?_, ?_, ?_, ?_, ?_, fun m hm hmt => ?_⟩
  · rw [order, if_neg hne, endOrder_order, if_pos rfl, ho]
    rfl
  · exact endOrder_notice s k .done o ho
  · rw [order, if_pos rfl]
  · exact congrArg OrderRefs.active (setRefs_orderRefs_same _ t _)
  · exact congrArg OrderRefs.stack (setRefs_orderRefs_same _ t _)
  · rw [order, if_neg hmt, endOrder_order, if_neg hm]

/-! ### The taking up of a divert -/

theorem awaitsRelease_iff (s : State) (t : Nat) : s.awaitsRelease t = true ↔
    (∃ n, (s.seg n).holder = some t ∧ (s.seg n).withdrawing = some .release) ∧ ∀ r, s.run t = some r → r.confirm ≠ .none := by
  unfold State.awaitsRelease
  rw [Bool.and_eq_true]
  refine and_congr ?_ ?_
  · rw [Bool.not_eq_true', List.isEmpty_eq_false_iff_exists_mem]
    exact exists_congr fun n => mem_markedRelease
  · cases s.run t <;> simp

/-- The state in which a divert has been taken up: the active order SUSPENDED beneath the refuge, which runs (R95). -/
def takenUp (s : State) (t k : Nat) (refuge : Order) (a : Nat) (o : Order) : State :=
  ((s.setOrder a (some { o with state := .suspended, claim := o.cursor })).setOrder k (some { refuge with state := .running })).setRefs t
    { s.orderRefs t with active := some k, stack := a :: (s.orderRefs t).stack }

/-- The segments of the claimed track that a transporter gives up where its order is suspended (R95, assumption 44). -/
def givenBack (s : State) (t : Nat) (o : Order) : List Nat := o.claimedTrack.filter fun n => s.holds t n && decide (s.position t ≠ some n)

theorem takeUpDivert_eq {s : State} {t a : Nat} {o : Order} (k : Nat) (refuge : Order) (ha : s.active t = some (a, o)) :
    ∃ l, s.takeUpDivert t k refuge
      = ((takenUp s t k refuge a o).emit ((givenBack s t o).map (fun n => .release n t) ++ l)).makeDue k := by
  unfold State.takeUpDivert
  rw [ha]
  dsimp only
  split
  · refine ⟨[.recompute t, .reviewJunctions t] ++ [.arrival t], ?_⟩
    rw [← List.append_assoc, ← emit_emit, ← emit_emit]
    rfl
  · refine ⟨[.recompute t, .reviewJunctions t], ?_⟩
    rw [← emit_emit]
    rfl

theorem mem_givenBack {s : State} {t n : Nat} {o : Order} :
    n ∈ givenBack s t o ↔ n ∈ o.claimedTrack ∧ (s.seg n).holder = some t ∧ s.position t ≠ some n := by
  unfold givenBack State.holds
  simp

/-- What the taking up of a divert leaves of the orders, the references and the work listed (R95). -/
theorem takeUpDivert_records {s : State} {t a k : Nat} {o : Order} (refuge : Order) (ha : s.active t = some (a, o)) (hne : a ≠ k) :
    (s.takeUpDivert t k refuge).order a = some { o with state := .suspended, claim := o.cursor } ∧
      (s.takeUpDivert t k refuge).order k = some { refuge with state := .running } ∧
      (s.takeUpDivert t k refuge).orderRefs t = { s.orderRefs t with active := some k, stack := a :: (s.orderRefs t).stack } ∧
      (∀ n ∈ givenBack s t o, .release n t ∈ (s.takeUpDivert t k refuge).agenda) ∧
      ∀ m, m ≠ a → m ≠ k → (s.takeUpDivert t k refuge).order m = s.order m := by
  obtain ⟨l, e⟩ := takeUpDivert_eq k refuge ha
  rw [e]
  have order (m : Nat) : (((takenUp s t k refuge a o).emit ((givenBack s t o).map (fun n => .release n t) ++ l)).makeDue k).order m
      = if m = k then some { refuge with state := .running }
        else if m = a then some { o with state := .suspended, claim := o.cursor } else s.order m := by
    rw [makeDue_order, emit_order, takenUp, setRefs_order, setOrder_order, setOrder_order]
  refine ⟨?_, ?_, setRefs_orderRefs_same _ t _, fun n hn => ?_, fun m hma hmk => ?_⟩
  · rw [order, if_neg hne, if_pos rfl]
  · rw [order, if_pos rfl]
  · exact List.mem_append_right _ (List.mem_append_left _ (List.mem_map_of_mem hn))
  · rw [order, if_neg hmk, if_neg hma]

/-! ### The end of a withdrawal -/

theorem makeActiveDue_same (s : State) (t : Nat) : (s.makeActiveDue t).orders = s.orders ∧ (s.makeActiveDue t).port = s.port := by
  unfold State.makeActiveDue
  split <;> exact ⟨rfl, rfl⟩

/-- What a divert found void leaves of the orders, and the test that is then made (R95). -/
theorem voidDivert_records {s : State} (t : Nat) {k : Nat} {refuge : Order} (hk : s.order k = some refuge) :
    (s.voidDivert t k).order k = some (Order.endedAs refuge .void) ∧ ⟨.divertVoid, refuge.transporter⟩ ∈ (s.voidDivert t k).port.notices ∧
      .arrival t ∈ (s.voidDivert t k).agenda ∧ ∀ m, m ≠ k → (s.voidDivert t k).order m = s.order m := by
  obtain ⟨horders, hport⟩ := makeActiveDue_same (s.endOrder k .void) t
  have order (m : Nat) : (s.voidDivert t k).order m = if m = k then (s.order k).map (Order.endedAs · .void) else s.order m := by
    rw [← endOrder_order]
    exact congrArg (fun x : OrderTable => Table.get none x.slots m) horders
  refine ⟨by rw [order, if_pos rfl, hk]; rfl, ?_, List.mem_append_right _ List.mem_cons_self, fun m hm => by rw [order, if_neg hm]⟩
  exact (congrArg (·.notices) hport).symm ▸ endOrder_notice s k .void refuge hk

theorem complete_awaiting {s : State} {t : Nat} (h : s.awaitsRelease t = true) : s.complete t = s := if_pos h

section
variable {s : State} {t : Nat} (h : ¬s.awaitsRelease t = true)
include h

theorem complete_divert {k : Nat} {refuge : Order} (hs : s.startingDivert t = some k) (hk : s.order k = some refuge) :
    s.complete t = if (refuge.leg1.head?).map (·.segment) = s.position t then s.takeUpDivert t k refuge else s.voidDivert t k := by
  unfold State.complete
  rw [if_neg h, hs]
  dsimp only
  rw [hk]

theorem complete_active {k : Nat} {o : Order} (hs : s.startingDivert t = none) (ha : s.active t = some (k, o)) :
    s.complete t = if o.state = .cancelling then s.endOrder k .cancelled else s := by
  unfold State.complete
  rw [if_neg h, hs]
  dsimp only
  rw [ha]

theorem complete_orderless (hs : s.startingDivert t = none) (ha : s.active t = none) : s.complete t = s := by
  unfold State.complete
  rw [if_neg h, hs]
  dsimp only
  rw [ha]

end

/-- An order with another finish is ARRIVED and no more (R77). -/
theorem arrival_arrives_records {s : State} {t k : Nat} {o : Order} (ha : s.active t = some (k, o)) (hr : o.state = .running)
    (hs : s.startingDivert t = none) (hk : o.kind ≠ .refuge) (h : s.restsAt t o.lastSegment = true) (hf : o.finish ≠ some .none) :
    (s.arrival t).order k = some { o with state := .arrived } ∧ (s.arrival t).orders.refs = s.orders.refs ∧
      ∀ m, m ≠ k → (s.arrival t).order m = s.order m := by
  rw [arrival_arrives ha hr hs hk h, if_neg hf]
  exact ⟨setOrder_order_same s k _, rfl, fun m hm => (setOrder_order s k _ m).trans (if_neg hm)⟩

/-- An order with finish NONE ends where it arrives (R78). -/
theorem arrival_done_records {s : State} {t k : Nat} {o : Order} (ha : s.active t = some (k, o)) (ht : o.transporter = t) (hr : o.state = .running)
    (hs : s.startingDivert t = none) (hk : o.kind ≠ .refuge) (h : s.restsAt t o.lastSegment = true) (hf : o.finish = some .none) :
    (s.arrival t).order k = some (Order.endedAs o .done) ∧ ((s.arrival t).orderRefs t).active = none ∧
      ⟨.orderEnded, k⟩ ∈ (s.arrival t).port.notices ∧ ∀ m, m ≠ k → (s.arrival t).order m = s.order m := by
  rw [arrival_arrives ha hr hs hk h, if_pos hf]
  generalize hu : (s.setOrder k (some { o with state := .arrived })).emit [.recompute t, .reviewJunctions t] = u
  have hok : u.order k = some { o with state := .arrived } := hu ▸ setOrder_order_same s k _
  have hactive : (u.orderRefs t).active = some k := by
    have hslot := active_slot ha
    exact hu ▸ hslot
  refine ⟨?_, ?_, endOrder_notice u k .done _ hok, fun m hm => ?_⟩
  · rw [endOrder_order, if_pos rfl, hok]
    rfl
  · rw [endOrder_orderRefs, if_pos (by rw [hok]; exact congrArg some ht)]
    exact if_pos hactive
  · rw [endOrder_order, if_neg hm, ← hu]
    exact (setOrder_order s k _ m).trans (if_neg hm)

/-- A refuge that comes to dwell loses the head that it left waiting (R76, R98). -/
theorem arrival_dwells_records {s : State} {t k : Nat} {o : Order} (ha : s.active t = some (k, o)) (hr : o.state = .running)
    (hs : s.startingDivert t = none) (hk : o.kind = .refuge) (hres : o.resumed = false) (h : s.restsAt t o.dwell = true) :
    (s.arrival t).order k = some { o with head := .none, state := .dwelling } ∧ (s.arrival t).orders.refs = s.orders.refs ∧
      ∀ m, m ≠ k → (s.arrival t).order m = s.order m := by
  rw [arrival_dwells ha hr hs hk hres h]
  refine ⟨?_, (waits_removeHead (i := 0) (n := 0) _ k).refs, fun m hm => ?_⟩
  · rw [emit_order, removeHead_order, if_pos rfl, setOrder_order_same]
    rfl
  · rw [emit_order, removeHead_order, if_neg hm, setOrder_order, if_neg hm]

/-- Settles O52: the tests of a report by the order's kind and place, and the completion of a withdrawal by what stands STARTING or CANCELLING. -/
theorem arrivalRejoinAndTakeUp : Obligations.ArrivalRejoinAndTakeUp := by
  constructor
  · intro s t k o ha ht rests last rejoins u
    have hrests : ∀ n, rests n ↔ s.restsAt t n = true := fun n => (restsAt_iff s t n).symm
    refine ⟨arrival_withheld ha, fun hr hs => ⟨fun hk => ⟨fun h => ?_, fun h hf => ?_, fun h hf => ?_⟩, fun hk => ?_⟩⟩
    · exact arrival_short ha hr hs hk (mt (hrests _).2 h)
    · exact arrival_arrives_records ha hr hs hk ((hrests _).1 h) hf
    · exact arrival_done_records ha ht hr hs hk ((hrests _).1 h) hf
    · have hrejoins : rejoins ↔ o.resumed = true ∧ o.atRejoin = true := and_congr_right fun _ => (atRejoin_iff hk).symm
      refine ⟨fun hres h => arrival_dwells_records ha hr hs hk hres ((hrests _).1 h), fun h1 h2 => ?_,
        fun place top rest p h hplace hstack hnot hp => ?_⟩
      · exact arrival_on_refuge ha hr hs hk (mt hrejoins.2 h1) fun ⟨hres, h⟩ => h2 ⟨hres, (hrests _).2 h⟩
      · obtain ⟨hres, hat⟩ := hrejoins.1 h
        rw [show u = s.rejoin t k o from arrival_rejoins ha hr hs hk hres hat]
        exact rejoin_records ha ht hplace hstack hnot hp
  · intro s t awaits u
    have hawaits : awaits ↔ s.awaitsRelease t = true := (awaitsRelease_iff s t).symm
    refine ⟨fun h => complete_awaiting (hawaits.1 h), fun h => ?_⟩
    have h' := mt hawaits.2 h
    refine ⟨fun k refuge a o hs hk ha hne => ⟨fun hp => ?_, fun hp => ?_⟩, fun k o hs ha => ⟨fun hc => ?_, fun hc => ?_⟩, complete_orderless h'⟩
    · rw [show u = _ from (complete_divert h' hs hk).trans (if_pos hp)]
      obtain ⟨h1, h2, h3, h4, h5⟩ := takeUpDivert_records refuge ha hne
      exact ⟨h1, h2, h3, fun n hn hh hp => h4 n (mem_givenBack.2 ⟨hn, hh, hp⟩), h5⟩
    · rw [show u = _ from (complete_divert h' hs hk).trans (if_neg hp)]
      exact voidDivert_records t hk
    · rw [show u = _ from (complete_active h' hs ha).trans (if_pos hc)]
      have ho := active_order ha
      exact ⟨by rw [endOrder_order, if_pos rfl, ho]; rfl, endOrder_notice s k .cancelled o ho, fun m hm => by rw [endOrder_order, if_neg hm]⟩
    · exact (complete_active h' hs ha).trans (if_neg hc)

end Sys2Proof.Proofs
end

section
/-!
PROOFS. Move orders: `cancel-order` by the order's state (R83 to R86, R102, R103).
-/

namespace Sys2Proof.Proofs

open Sys2Proof Sys2Proof.Machine Sys2Proof.Laws

/-! ### Orders ended one after another -/

/-- The orders in some slots ended with outcome CANCELLED, in turn (R103). -/
def endEach (l : List Nat) (s : State) : State := l.foldl (fun s m => s.endOrder m .cancelled) s

theorem endEach_cons (m : Nat) (l : List Nat) (s : State) : endEach (m :: l) s = endEach l (s.endOrder m .cancelled) := rfl

theorem calm_endEach (l : List Nat) (s : State) : Calm s (endEach l s) := Calm.foldl (fun s m => calm_endOrder s m .cancelled) l s

theorem quiet_endEach (i : Nat) (l : List Nat) (s : State) : Quiet i s (endEach l s) := by
  induction l generalizing s with
  | nil => exact .refl s
  | cons m l ih => exact (quiet_endOrder s m .cancelled).trans (ih _)

theorem refsRight_endEach {s : State} (h : s.refsRight) (l : List Nat) : (endEach l s).refsRight :=
  refsRight_foldl (fun _ m hs => refsRight_endOrder hs m .cancelled) l h

/-- An order that has ended CANCELLED is left by a second such end. -/
theorem endedAs_cancelled_twice (o : Order) : Order.endedAs (Order.endedAs o .cancelled) .cancelled = Order.endedAs o .cancelled := rfl

theorem endEach_order (l : List Nat) (s : State) (m : Nat) :
    (endEach l s).order m = if m ∈ l then (s.order m).map (Order.endedAs · .cancelled) else s.order m := by
  induction l generalizing s with
  | nil => rfl
  | cons j l ih =>
    rw [endEach_cons, ih, endOrder_order]
    by_cases hj : m = j
    · subst hj
      simp only [if_true, List.mem_cons, true_or, Option.map_map, Function.comp_def, endedAs_cancelled_twice]
      split <;> rfl
    · simp [hj]

theorem endEach_notice {l : List Nat} {s : State} {m : Nat} (hm : m ∈ l) (ho : (s.order m).isSome = true) :
    ⟨.orderEnded, m⟩ ∈ (endEach l s).port.notices := by
  induction l generalizing s with
  | nil => cases hm
  | cons j l ih =>
    rw [endEach_cons]
    by_cases hj : m = j
    · obtain ⟨o, ho⟩ := Option.isSome_iff_exists.1 ho
      exact (calm_endEach l _).notices _ (hj ▸ endOrder_notice s m .cancelled o ho)
    · exact ih ((List.mem_cons.1 hm).resolve_left hj) (by rw [endOrder_order, if_neg hj]; exact ho)

/-- A pad that no order claims is left. -/
theorem endEach_pad (l : List Nat) {s : State} {p : Nat} (hp : (s.pad p).claim = none) : (endEach l s).pad p = s.pad p := by
  induction l generalizing s with
  | nil => rfl
  | cons j l ih =>
    have hj : (s.endOrder j .cancelled).pad p = s.pad p := (endOrder_pad s j p .cancelled).trans (withoutClaim_other (by simp [hp]))
    exact (ih (hj ▸ hp)).trans hj

/-! ### A cancel that withdraws -/

/-- The state in which an order has become CANCELLING, without its waiting head and its pad claim (R84). -/
def ceased (s : State) (k : Nat) (o : Order) : State :=
  (((s.setOrder k (some { o with state := .cancelling })).removeHead k).dropClaim k).emit [.recompute o.transporter, .reviewJunctions o.transporter]

/-- The state in which a cancel has done its edits: the order is CANCELLING, the orders in `l` are ENDED, and the answer awaits the work. -/
def cancelled (s : State) (q : Ask) (k : Nat) (o : Order) (l : List Nat) : State := endEach l ((ceased s k o).answerAfter (.cancel q k))

/-- The orders that end with a refuge: those beneath it on the stack, from top to bottom, and the pending divert (R103). -/
def beneath (s : State) (t : Nat) : List Nat := (s.orderRefs t).stack ++ (s.orderRefs t).pendingDivert.toList

theorem named_of_beneath {s : State} {t m : Nat} (h : m ∈ beneath s t) : m ∈ (s.orderRefs t).named := by
  unfold OrderRefs.named
  rw [List.append_assoc]
  exact List.mem_append_right _ h

theorem beginCancel_eq {s : State} (q : Ask) {k : Nat} {o : Order} (ho : s.order k = some o) : s.beginCancel q k = cancelled s q k o [] := by
  unfold State.beginCancel
  rw [ho]
  rfl

theorem cancelRefuge_eq {s : State} (q : Ask) {k : Nat} {o : Order} (ho : s.order k = some o) (t : Nat) :
    s.cancelRefuge q k t = cancelled s q k o (beneath s t) := by
  unfold State.cancelRefuge
  rw [beginCancel_eq q ho]
  rfl

/-- The states of an order whose cancel sets off a withdrawal (R84, R102, R103). -/
def Withdraws (s : State) (o : Order) : Prop :=
  (o.state = .running ∧ s.startingDivert o.transporter = none) ∨ (o.state = .dwelling ∧ s.startingDivert o.transporter = none) ∨ o.state = .arrived

theorem takeCancelOrder_withdraws {s : State} (q : Ask) {k : Nat} {o : Order} (hk : k ≤ 7) (ho : s.order k = some o) (h : Withdraws s o) :
    ∃ l, s.takeCancelOrder q k = cancelled s q k o l ∧
      (o.kind = .refuge → o.state = .running ∨ o.state = .dwelling → l = beneath s o.transporter) := by
  unfold State.takeCancelOrder
  rw [if_neg (Nat.not_lt.2 hk), ho]
  dsimp only
  rcases h with ⟨hst, hsd⟩ | ⟨hst, hsd⟩ | hst <;> rw [hst]
  · rw [hsd]
    by_cases hkind : o.kind = .refuge
    · exact ⟨_, (if_pos hkind).trans (cancelRefuge_eq q ho _), fun _ _ => rfl⟩
    · exact ⟨[], (if_neg hkind).trans (beginCancel_eq q ho), fun h => absurd h hkind⟩
  · rw [hsd]
    exact ⟨_, cancelRefuge_eq q ho _, fun _ _ => rfl⟩
  · exact ⟨[], beginCancel_eq q ho, fun _ h => by simp at h⟩

section
variable {s : State} {k : Nat} {o : Order} (q : Ask) (l : List Nat)

theorem quiet_ceased (s : State) (k : Nat) (o : Order) (i : Nat) : Quiet i (s.setOrder k (some { o with state := .cancelling })) (ceased s k o) := by
  unfold ceased
  refine Quiet.trans ?_ (quiet_emit _ (by simp [apart, inReport]))
  exact (quiet_waits (waits_removeHead (i := i) (n := 0) _ k)).trans (quiet_same (fun _ => rfl) fun _ hx => .inl hx)

/-- After the order has become CANCELLING, nothing that a cancel does sets an order of the transporter moving. -/
theorem quiet_cancelled (s : State) (k : Nat) (o : Order) (i : Nat) :
    Quiet i (s.setOrder k (some { o with state := .cancelling })) (cancelled s q k o l) :=
  ((quiet_ceased s k o i).trans (quiet_same (t := (ceased s k o).answerAfter (.cancel q k)) (fun _ => rfl) fun _ hx => .inl hx)).trans
    (quiet_endEach i l ((ceased s k o).answerAfter (.cancel q k)))

theorem ceased_order (m : Nat) : (ceased s k o).order m = if m = k then some { o with head := .none, state := .cancelling } else s.order m := by
  have e : (ceased s k o).order m = ((s.setOrder k (some { o with state := .cancelling })).removeHead k).order m := rfl
  rw [e, removeHead_order, setOrder_order_same, setOrder_order]
  split <;> rfl

theorem ceased_pad (p : Nat) : (ceased s k o).pad p = (s.pad p).withoutClaim k := by
  have e : (ceased s k o).pad p = (((s.setOrder k (some { o with state := .cancelling })).removeHead k).dropClaim k).pad p := rfl
  rw [e, dropClaim_pad]
  unfold State.pad
  rw [removeHead_transfer]
  rfl

theorem cancelled_order (m : Nat) : (cancelled s q k o l).order m
    = if m ∈ l then ((ceased s k o).order m).map (Order.endedAs · .cancelled) else (ceased s k o).order m := endEach_order l _ m

/-- No pad is left under the claim of the order (R84). -/
theorem cancelled_claim (p : Nat) : ((cancelled s q k o l).pad p).claim ≠ some k := by
  intro h
  obtain ⟨-, -, -, -, hne⟩ := withoutClaim_kept (s.pad p) k
  refine hne ?_
  rw [← ceased_pad (o := o)]
  exact (calm_endEach l ((ceased s k o).answerAfter (.cancel q k))).claims p k h

/-- The pad that the order claimed loses the claim (R84). -/
theorem cancelled_pad {p : Nat} (h : ((s.pad p).withoutClaim k).claim = none) : (cancelled s q k o l).pad p = (s.pad p).withoutClaim k := by
  rw [← ceased_pad (o := o)] at h ⊢
  exact endEach_pad l (s := (ceased s k o).answerAfter (.cancel q k)) h

theorem cancelled_notice {m : Nat} (hm : m ∈ l) (hs : (s.order m).isSome = true) : ⟨.orderEnded, m⟩ ∈ (cancelled s q k o l).port.notices := by
  refine endEach_notice hm ?_
  rw [answerAfter_order, ceased_order]
  split
  · rfl
  · exact hs

/-- An order in one of the slots listed is ENDED. -/
theorem cancelled_ended {m : Nat} {x : Order} (hm : m ∈ l) (hx : s.order m = some x) :
    ∃ y, (cancelled s q k o l).order m = some y ∧ y.state = .ended := by
  rw [cancelled_order, if_pos hm, ceased_order]
  split
  · exact ⟨_, rfl, rfl⟩
  · rw [hx]
    exact ⟨_, rfl, rfl⟩

variable (ho : s.order k = some o)
include ho

theorem calm_ceased : Calm s (ceased s k o) := by
  unfold ceased
  refine Calm.trans ?_ (calm_emit _ (by simp [inReport]))
  exact ((calm_reshape s k (o' := { o with state := .cancelling }) ho rfl).trans (calm_removeHead _ k)).trans (calm_dropClaim _ k)

theorem calm_cancelled : Calm (s.answerAfter (.cancel q k)) (cancelled s q k o l) :=
  Calm.trans (b := (ceased s k o).answerAfter (.cancel q k)) { calm_ceased ho with late := rfl } (calm_endEach l _)

theorem refsRight_cancelled (hr : s.refsRight) : (cancelled s q k o l).refsRight := by
  have h := refsRight_beginCancel hr q k
  rw [beginCancel_eq q ho] at h
  exact refsRight_endEach h l

/-- The order that is cancelled is CANCELLING or ENDED after the work that follows. -/
theorem cancelled_workOff (ha : s.agenda = []) (hr : s.refsRight) (hsd : s.startingDivert o.transporter = none) :
    ∃ o', (workOff (cancelled s q k o l)).order k = some o' ∧ (o'.state = .cancelling ∨ o'.state = .ended) := by
  have hquiet := quiet_cancelled q l s k o o.transporter
  have hstart := hquiet.startingDivert (startingDivert_setOrder hsd k (by simp))
  have hrefs := refsRight_cancelled q l ho hr
  have hapart := apart_agenda hquiet ha
  by_cases hm : k ∈ l
  · obtain ⟨y, hy, he⟩ := cancelled_ended (k := k) (o := o) q l hm ho
    obtain ⟨o', ho', he'⟩ := ended_workOff hrefs (fun x hx => (hapart x hx).1) hy he
    exact ⟨o', ho', .inr he'⟩
  · refine ceasing_workOff hrefs hapart hstart (o := { o with head := .none, state := .cancelling }) ?_ rfl rfl
    rw [cancelled_order, if_neg hm, ceased_order, if_pos rfl]

end

/-! ### The answer that follows a withdrawal -/

theorem answerCancel_eq {s : State} (q : Ask) {k : Nat} {o : Order} (ho : s.order k = some o) :
    s.answerCancel q k = s.answer q (if o.state = .cancelling then .accepted else .done) (.orderState o.state) := by
  unfold State.answerCancel
  rw [ho]

/-- A request whose decision leaves an answer for after the work: the work is done, and then the answer is placed (R84). -/
theorem submit_answersLate {s u : State} (hs : s.Ready) (h : Header) (r : Request) {x : LateAnswer}
    (hu : s.decideValid ⟨h.tag, codeOf r⟩ h.originator r = u) (hc : Calm (s.answerAfter x) u) :
    Calm s { workOff u with late := none } ∧ submit h r s = closeEvent s.pending (lateAnswer x { workOff u with late := none }) := by
  have hw := hc.trans (calm_workOff u (noReport_of_kept hc.toKept hs.agenda))
  exact ⟨{ hw with late := hs.late.symm }, by rw [submit_ready hs, hu, placeLate_some (x := x) hw.late]⟩

theorem cancelOrder_owner (s : State) (h : Header) (k : Nat) :
    s.decideValid ⟨h.tag, codeOf (.cancelOrder k)⟩ h.originator (.cancelOrder k) = s.takeCancelOrder ⟨h.tag, codeOf (.cancelOrder k)⟩ k :=
  decideValid_owner rfl rfl rfl

/-- What a cancel whose answer follows the work leaves: the work's records, and the answer by the order's state. -/
theorem cancel_answeredLate {s u : State} (hs : s.Ready) {h : Header} {k : Nat} {o : Order} (ho : s.order k = some o) {q : Ask}
    (hq : q = ⟨h.tag, codeOf (.cancelOrder k)⟩) (hu : s.takeCancelOrder q k = u) (hc : Calm (s.answerAfter (.cancel q k)) u) :
    ∃ t o', exec (.cancelOrder h k) s = .next t ∧ t.order k = some o' ∧ shape o' = shape o ∧
      t.port.answers = s.port.answers
        ++ [⟨h.tag, codeOf (.cancelOrder k), (if o'.state = .cancelling then .accepted else .done), .orderState o'.state⟩] ∧
      Calm { s with port := { s.port with answers := t.port.answers } } t ∧ t.orders = (workOff u).orders ∧ t.transfer = (workOff u).transfer ∧
      t.port.notices = (workOff u).port.notices := by
  subst hq
  obtain ⟨hcalm, hsubmit⟩ := submit_answersLate hs h (.cancelOrder k) ((cancelOrder_owner s h k).trans hu) hc
  generalize hv : ({ workOff u with late := none } : State) = v at hcalm hsubmit
  have hshape : (v.order k).map shape = some (shape o) := (hcalm.shapes k).trans (congrArg (Option.map shape) ho)
  obtain ⟨o', ho', hshape'⟩ := Option.map_eq_some_iff.1 hshape
  have hlate : lateAnswer (.cancel ⟨h.tag, codeOf (.cancelOrder k)⟩ k) v = v.setAnswers (s.port.answers
      ++ [⟨h.tag, codeOf (.cancelOrder k), (if o'.state = .cancelling then .accepted else .done), .orderState o'.state⟩]) :=
    (answerCancel_eq _ ho').trans ((answer_room (by rw [hcalm.answers]; exact hs.room) _ _ _).trans (by rw [hcalm.answers]))
  rw [hlate] at hsubmit
  subst hv
  exact ⟨_, o', (exec_request rfl s).trans (congrArg _ hsubmit), ho', hshape', rfl,
    (calm_setAnswers hcalm _).trans (calm_closeEvent _ _ hcalm.pending), rfl, rfl, rfl⟩

/-! ### A cancel that ends the order at once -/

theorem takeCancelOrder_failed {s : State} (q : Ask) {k : Nat} {o : Order} (hk : k ≤ 7) (ho : s.order k = some o) (hst : o.state = .failed) :
    s.takeCancelOrder q k = (s.endOrder k .failed).answer q .done .empty := by
  unfold State.takeCancelOrder
  rw [if_neg (Nat.not_lt.2 hk), ho]
  dsimp only
  rw [hst]

theorem takeCancelOrder_starting {s : State} (q : Ask) {k : Nat} {o : Order} (hk : k ≤ 7) (ho : s.order k = some o) (hst : o.state = .starting) :
    s.takeCancelOrder q k
      = (((s.endOrder k .cancelled).makeActiveDue o.transporter).emit [.arrival o.transporter]).answer q .done .empty := by
  unfold State.takeCancelOrder
  rw [if_neg (Nat.not_lt.2 hk), ho]
  dsimp only
  rw [hst]

/-- What a cancel leaves that ends its order at once, with calm work beside it (R86, R102). -/
theorem cancel_ended {s e : State} (hs : s.Ready) (h : Header) {k : Nat} {o : Order} (ho : s.order k = some o) {x : OrderOutcome} (hx : x ≠ .void)
    (he : s.takeCancelOrder ⟨h.tag, codeOf (.cancelOrder k)⟩ k = e.answer ⟨h.tag, codeOf (.cancelOrder k)⟩ .done .empty)
    (hc : Calm (s.endOrder k x) e) (horders : e.orders = (s.endOrder k x).orders) :
    ∃ t, exec (.cancelOrder h k) s = .next t ∧ t.port.answers = s.port.answers ++ [⟨h.tag, codeOf (.cancelOrder k), .done, .empty⟩] ∧
      (s.refsRight → ∃ y, t.order k = some y ∧ y.state = .ended) ∧ ⟨.orderEnded, k⟩ ∈ t.port.notices ∧ (∀ p, (t.pad p).claim ≠ some k) ∧
      Calm ((s.endOrder k x).answered h (.cancelOrder k) .done .empty) t := by
  have hcalm := (calm_endOrder s k x).trans hc
  have hedit := (cancelOrder_owner s h k).trans (he.trans (answer_ready hs hcalm.answers h (.cancelOrder k) .done .empty))
  have hnoReport : noReport (e.answered h (.cancelOrder k) .done .empty) := fun x hx => noReport_of_kept hcalm.toKept hs.agenda x hx
  have hsubmit := submit_work hs h _ hedit hnoReport (hcalm.late.trans hs.late)
  have hall := (calm_answered hc h (.cancelOrder k) .done .empty).trans
    (submit_calm hs h _ hedit hnoReport (hcalm.late.trans hs.late) hcalm.pending)
  refine ⟨_, exec_request rfl s, ?_, fun hr => ?_, ?_, fun p hp => ?_, hall⟩
  · rw [hall.answers, answered_answers, (calm_endOrder s k x).answers]
  · rw [hsubmit]
    have hended : (e.answered h (.cancelOrder k) .done .empty).order k = some (Order.endedAs o x) := by
      show Table.get none e.orders.slots k = _
      rw [horders]
      exact (endOrder_order s k k x).trans ((if_pos rfl).trans (congrArg (Option.map _) ho))
    exact ended_workOff (refsRight_same (refsRight_endOrder hr k x) horders) hnoReport hended rfl
  · exact hall.notices _ (by simpa [hx] using endOrder_notice s k x o ho)
  · obtain ⟨-, -, -, -, hne⟩ := withoutClaim_kept (s.pad p) k
    exact hne (endOrder_pad s k p x ▸ hall.claims p k hp)

/-! ### A cancel that is refused -/

theorem takeCancelOrder_range {s : State} (q : Ask) {k : Nat} (hk : 7 < k) : s.takeCancelOrder q k = s.answer q .refusedRange .empty := if_pos hk

theorem takeCancelOrder_empty {s : State} (q : Ask) {k : Nat} (hk : k ≤ 7) (ho : s.order k = none) :
    s.takeCancelOrder q k = s.answer q .refusedState .empty := by
  unfold State.takeCancelOrder
  rw [if_neg (Nat.not_lt.2 hk), ho]

theorem takeCancelOrder_refused {s : State} (q : Ask) {k : Nat} {o : Order} (hk : k ≤ 7) (ho : s.order k = some o)
    (h : o.state = .ended ∨ o.state = .suspended ∨ o.state = .pending ∨ o.state = .transfer ∨ o.state = .cancelling ∨
      ((o.state = .running ∨ o.state = .dwelling) ∧ s.startingDivert o.transporter ≠ none)) :
    s.takeCancelOrder q k = s.answer q .refusedState .empty := by
  unfold State.takeCancelOrder
  rw [if_neg (Nat.not_lt.2 hk), ho]
  dsimp only
  rcases h with hst | hst | hst | hst | hst | ⟨hst | hst, hsd⟩ <;> rw [hst]
  · exact if_pos (Option.isSome_iff_ne_none.2 hsd)
  · exact if_pos (Option.isSome_iff_ne_none.2 hsd)

theorem withoutClaim_anchored {r : PadRec} {k : Nat} (hc : r.claim = some k) (hst : r.state = .anchored) :
    r.withoutClaim k = { r with claim := none } := by
  unfold PadRec.withoutClaim
  rw [if_neg (not_not_intro hc), if_neg (by simp [hst])]

theorem withoutClaim_inbound {r : PadRec} {k : Nat} (hc : r.claim = some k) (hst : r.state = .inbound) :
    r.withoutClaim k = { r with state := .vacant, expected := none, claim := none } := by
  unfold PadRec.withoutClaim
  rw [if_neg (not_not_intro hc), if_pos hst]

/-- Settles O30: a cancel withdraws, ends its order at once, or is refused, by the order's state. -/
theorem cancelByTheOrdersState : Obligations.CancelByTheOrdersState := by
  refine ⟨fun h k s o hs hk ho hst => ?_, fun h k s hs => ?_⟩
  · obtain ⟨q, hq⟩ : ∃ q : Ask, q = ⟨h.tag, codeOf (.cancelOrder k)⟩ := ⟨_, rfl⟩
    obtain ⟨l, hu, hl⟩ := takeCancelOrder_withdraws q hk ho hst
    have hc := calm_cancelled q l ho
    have hnoReport := noReport_of_kept hc.toKept hs.agenda
    have hwork := calm_workOff (cancelled s q k o l) hnoReport
    obtain ⟨t, o', ht, ho', hshape, hanswers, hcalm, horders, htransfer, hnotices⟩ := cancel_answeredLate hs ho hq hu hc
    have order (m : Nat) : t.order m = (workOff (cancelled s q k o l)).order m := congrArg (fun x : OrderTable => Table.get none x.slots m) horders
    have pad (p : Nat) : t.pad p = (workOff (cancelled s q k o l)).pad p :=
      congrArg (fun x : TransferUnit => Table.get PadRec.undeclared x.pads p) htransfer
    have unclaimed {p : Nat} {r : PadRec} (he : (s.pad p).withoutClaim k = r) (hclaim : r.claim = none) (hne : r.state ≠ .seated) : t.pad p = r := by
      have hp : (cancelled s q k o l).pad p = r := (cancelled_pad q l (he ▸ hclaim)).trans he
      exact (pad p).trans ((calm_pad hwork (hp ▸ hclaim) (hp ▸ hne)).trans hp)
    refine ⟨t, o', ht, ho', hshape, fun p hp => ?_, hanswers, fun p hp hst => ?_, fun p hp hst => ?_, fun hkind hst m hm hsome => ?_,
      fun hr hsd => ?_, fun hr hkind hst m hm => ?_, hcalm⟩
    · rw [pad] at hp
      exact cancelled_claim q l p (hwork.claims p k hp)
    · exact unclaimed (withoutClaim_anchored hp hst) rfl (by simp [hst])
    · exact unclaimed (withoutClaim_inbound hp hst) rfl (by simp)
    · rw [hnotices]
      exact hwork.notices _ (cancelled_notice q l (hl hkind hst ▸ hm) hsome)
    · obtain ⟨y, hy, hstate⟩ := cancelled_workOff q l ho hs.agenda hr hsd
      rw [← order, ho'] at hy
      exact Option.some.inj hy ▸ hstate
    · obtain ⟨x, hx, -⟩ := hr o.transporter m (named_of_beneath hm)
      obtain ⟨y, hy, hended⟩ := cancelled_ended (k := k) (o := o) q l (hl hkind hst ▸ hm) hx
      rw [order]
      exact ended_workOff (refsRight_cancelled q l ho hr) hnoReport hy hended
  · have refused {o : Outcome} (hw : s.Settled)
        (e : s.takeCancelOrder ⟨h.tag, codeOf (.cancelOrder k)⟩ k = s.answer ⟨h.tag, codeOf (.cancelOrder k)⟩ o .empty) :
        exec (.cancelOrder h k) s = .next (s.answered h (.cancelOrder k) o .empty).decideAttention := exec_answer rfl hs hw rfl rfl rfl e
    refine ⟨fun o hk ho hst => ?_, fun o hk ho hst => ?_, fun o hw hk ho hst => refused hw (takeCancelOrder_refused _ hk ho hst),
      fun hw hk ho => refused hw (takeCancelOrder_empty _ hk ho), fun hw hk => refused hw (takeCancelOrder_range _ hk)⟩
    · exact cancel_ended hs h ho (by simp) (takeCancelOrder_failed _ hk ho hst) (.refl _) rfl
    · obtain ⟨horders, -⟩ := makeActiveDue_same (s.endOrder k .cancelled) o.transporter
      obtain ⟨t, ht, hanswers, hended, hnotice, -, hcalm⟩ := cancel_ended hs h ho (x := .cancelled) (by simp) (takeCancelOrder_starting _ hk ho hst)
        ((calm_makeActiveDue _ _).trans (calm_emit _ (by simp [inReport]))) horders
      exact ⟨t, ht, hanswers, hended, hnotice, hcalm⟩

end Sys2Proof.Proofs
end

section
/-!
PROOFS. Refuges: a request whose answer follows its work; `resume-refuge` (R99).
-/

namespace Sys2Proof.Proofs

open Sys2Proof Sys2Proof.Machine Sys2Proof.Laws

/-! ### A request whose answer follows its work -/

/-- A request decided by the edit `t`, whose answer is composed when the work is done: the work moves the orders, and the answer is placed. `e` is a
state of which `t` keeps what work keeps. -/
theorem exec_answersLate {c : Instr} {h : Header} {r : Request} {s e t : State} {x : LateAnswer} (hc : c.request? = some (h, r)) (hs : s.Ready)
    (hd : s.decideValid ⟨h.tag, codeOf r⟩ h.originator r = t.answerAfter x) (hcalm : Calm e t) (hagenda : e.agenda = s.agenda)
    (hlate : e.late = s.late) (hpending : e.pending = s.pending) (hanswers : e.port.answers = s.port.answers) {o : Outcome} {b : Body}
    (hx : lateAnswer x (afterWork t x) = (afterWork t x).answer ⟨h.tag, codeOf r⟩ o b) :
    ∃ u, exec c s = .next u ∧ u.orders = (workOff (t.answerAfter x)).orders ∧
      u.port.answers = s.port.answers ++ [⟨h.tag, codeOf r, o, b⟩] ∧ Calm { e with port := { e.port with answers := u.port.answers } } u := by
  obtain ⟨hwork, hsubmit⟩ := submit_late hs h r hd (noReport_of_kept hcalm.toKept (hagenda.trans hs.agenda))
    (hcalm.late.trans (hlate.trans hs.late))
  have hall := hcalm.trans hwork
  rw [hx, answer_ready hs (hall.answers.trans hanswers)] at hsubmit
  refine ⟨_, (exec_request hc s).trans (congrArg _ hsubmit), rfl, congrArg (· ++ [_]) (hall.answers.trans hanswers), ?_⟩
  exact (calm_setAnswers hall _).trans (calm_closeEvent _ _ (hall.pending.trans hpending))

/-! ### `resume-refuge` -/

/-- A refuge that may be resumed: DWELLING, its transporter's active order, and no divert of the transporter STARTING (R99). -/
structure Resumable (s : State) (k : Nat) (o : Order) : Prop where
  kind : o.kind = .refuge
  dwelling : o.state = .dwelling
  active : (s.orderRefs o.transporter).active = some k
  noDivert : s.startingDivert o.transporter = none

/-- The record of a resumed refuge. -/
def resumedOrder (o : Order) : Order := { o with state := .running, resumed := true }

/-- The state in which a refuge has been resumed and the work that this sets off is listed (R99). -/
def resumedRefuge (s : State) (k : Nat) (o : Order) : State :=
  ((s.setOrder k (some (resumedOrder o))).makeDue k).emit [.recompute o.transporter, .reviewJunctions o.transporter]

theorem takeResumeRefuge_range {s : State} (q : Ask) {k : Nat} (hk : 7 < k) : s.takeResumeRefuge q k = s.answer q .refusedRange .empty := if_pos hk

theorem takeResumeRefuge_empty {s : State} (q : Ask) {k : Nat} (hk : k ≤ 7) (ho : s.order k = none) :
    s.takeResumeRefuge q k = s.answer q .refusedState .empty := by
  unfold State.takeResumeRefuge
  rw [if_neg (Nat.not_lt.2 hk), ho]

theorem takeResumeRefuge_refused {s : State} (q : Ask) {k : Nat} {o : Order} (hk : k ≤ 7) (ho : s.order k = some o)
    (h : o.kind ≠ .refuge ∨ o.state ≠ .dwelling ∨ (s.orderRefs o.transporter).active ≠ some k ∨ s.startingDivert o.transporter ≠ none) :
    s.takeResumeRefuge q k = s.answer q .refusedState .empty := by
  unfold State.takeResumeRefuge
  rw [if_neg (Nat.not_lt.2 hk), ho]
  dsimp only
  rw [if_pos (by simpa only [Option.isSome_iff_ne_none] using h)]

theorem takeResumeRefuge_resumes {s : State} (q : Ask) {k : Nat} {o : Order} (hk : k ≤ 7) (ho : s.order k = some o) (h : Resumable s k o) :
    s.takeResumeRefuge q k = (resumedRefuge s k o).answerAfter (.resume q k) := by
  obtain ⟨hkind, hdwelling, hactive, hstart⟩ := h
  unfold State.takeResumeRefuge
  rw [if_neg (Nat.not_lt.2 hk), ho]
  dsimp only
  rw [if_neg (by simp [hkind, hdwelling, hactive, hstart])]
  rfl

theorem resumeRefuge_owner (s : State) (h : Header) (k : Nat) :
    s.decideValid ⟨h.tag, codeOf (.resumeRefuge k)⟩ h.originator (.resumeRefuge k) = s.takeResumeRefuge ⟨h.tag, codeOf (.resumeRefuge k)⟩ k :=
  decideValid_owner rfl rfl rfl

theorem answerResume_eq {s : State} (q : Ask) {k : Nat} {o : Order} (ho : s.order k = some o) :
    s.answerResume q k = s.answer q .done (.headCause o.head) := by
  unfold State.answerResume
  rw [ho]

section
variable {s : State} {k : Nat} {o : Order}

theorem resumedRefuge_order : (resumedRefuge s k o).order k = some (resumedOrder o) := setOrder_order_same s k _

theorem resumedRefuge_active (ha : (s.orderRefs o.transporter).active = some k) :
    (resumedRefuge s k o).active o.transporter = some (k, resumedOrder o) := by
  have hrefs : (resumedRefuge s k o).orderRefs o.transporter = s.orderRefs o.transporter := rfl
  unfold State.active
  rw [hrefs, ha]
  dsimp only
  rw [resumedRefuge_order]
  rfl

theorem resumedRefuge_agenda : (resumedRefuge s k o).agenda = s.agenda ++ [.recompute o.transporter, .reviewJunctions o.transporter] := rfl

variable (ho : s.order k = some o)
include ho

theorem calm_resumedRefuge : Calm s (resumedRefuge s k o) :=
  ((calm_reshape s k (o' := resumedOrder o) ho rfl).trans (calm_makeDue _ k)).trans (calm_emit _ (by simp [inReport]))

theorem refsRight_resumedRefuge (hr : s.refsRight) : (resumedRefuge s k o).refsRight :=
  refsRight_same (refsRight_setOrder hr k (resumedOrder o) rfl fun _ hu => (refsRight_of hr ho hu).1) rfl

/-- The work that a resumption sets off moves the refuge's head and claim point alone, and leaves its transporter's references. -/
theorem resumedRefuge_workOff (hagenda : s.agenda = []) (hr : s.refsRight) (h : Resumable s k o) (x : LateAnswer) :
    (workOff ((resumedRefuge s k o).answerAfter x)).orderRefs o.transporter = s.orderRefs o.transporter ∧
      Stays k (resumedOrder o) (workOff ((resumedRefuge s k o).answerAfter x)) := by
  have hactive := resumedRefuge_active (o := o) h.active
  have hapart : ∀ y ∈ (resumedRefuge s k o).agenda, apart o.transporter y := by
    rw [resumedRefuge_agenda, hagenda]
    simp [apart, inReport]
  have hrunning : ∀ a y, (resumedRefuge s k o).active o.transporter = some (a, y) → y.state ≠ .cancelling := by
    rw [hactive]
    rintro _ _ ⟨⟩
    simp [resumedOrder]
  obtain ⟨hrefs, hstays, -⟩ := undisturbed_workOff (s := (resumedRefuge s k o).answerAfter x) (refsRight_resumedRefuge ho hr) hapart
    (startingDivert_setOrder h.noDivert k (o := resumedOrder o) (by simp [resumedOrder])) hrunning (active_named hactive) resumedRefuge_order
    (by simp [resumedOrder])
  exact ⟨hrefs, hstays⟩

end

/-- Settles O32: a resumption writes the refuge RUNNING and resumed, the work moves its head and claim point alone, and the answer gives the head that
the work left; any other slot is refused. -/
theorem resumeRefugeAnswersTheHeadCause : Obligations.ResumeRefugeAnswersTheHeadCause := by
  intro h k s hs
  have refused {o : Outcome} (hw : s.Settled)
      (e : s.takeResumeRefuge ⟨h.tag, codeOf (.resumeRefuge k)⟩ k = s.answer ⟨h.tag, codeOf (.resumeRefuge k)⟩ o .empty) :
      exec (.resumeRefuge h k) s = .next (s.answered h (.resumeRefuge k) o .empty).decideAttention := exec_answer rfl hs hw rfl rfl rfl e
  refine ⟨fun o hk ho hkind hdwelling hactive hstart => ?_, fun o hw hk ho hne => refused hw (takeResumeRefuge_refused _ hk ho hne),
    fun hw hk ho => refused hw (takeResumeRefuge_empty _ hk ho), fun hw hk => refused hw (takeResumeRefuge_range _ hk)⟩
  have hres : Resumable s k o := ⟨hkind, hdwelling, hactive, hstart⟩
  have hcalm := calm_resumedRefuge ho
  have hdecided := (resumeRefuge_owner s h k).trans (takeResumeRefuge_resumes _ hk ho hres)
  have hnoReport : noReport (resumedRefuge s k o) := noReport_of_kept hcalm.toKept hs.agenda
  have hwork := calm_workOff ((resumedRefuge s k o).answerAfter (.resume ⟨h.tag, codeOf (.resumeRefuge k)⟩ k)) hnoReport
  obtain ⟨o', ho', hshape⟩ := Option.map_eq_some_iff.1
    ((hwork.shapes k).trans ((hcalm.shapes k).trans (congrArg (Option.map shape) ho)))
  obtain ⟨t, ht, horders, hanswers, hall⟩ := exec_answersLate (c := .resumeRefuge h k) rfl hs hdecided hcalm rfl rfl rfl rfl (answerResume_eq _ ho')
  have order (m : Nat) := congrArg (fun x : OrderTable => Table.get none x.slots m) horders
  have refs (i : Nat) := congrArg (fun x : OrderTable => Table.get OrderRefs.initial x.refs i) horders
  refine ⟨t, o', ht, (order k).trans ho', hshape, fun hr => ?_, hanswers, hall⟩
  obtain ⟨hrefs, hstays⟩ := resumedRefuge_workOff ho hs.agenda hr hres (.resume ⟨h.tag, codeOf (.resumeRefuge k)⟩ k)
  obtain ⟨y, hy, e⟩ := hstays.spec
  obtain rfl : y = o' := Option.some.inj (hy.symm.trans ho')
  exact ⟨e, (refs _).trans hrefs⟩

end Sys2Proof.Proofs
end

section
/-!
PROOFS. Refuges: the rejoin position (R92); `divert`, decided and taken (R90 to R96).
-/

namespace Sys2Proof.Proofs

open Sys2Proof Sys2Proof.Machine Sys2Proof.Laws

/-! ### The rejoin position -/

/-- The places of a leg with their segments, in its order. -/
def legPlaces (leg : Nat) (l : List RoutePos) : List (Place × Nat) := l.zipIdx.map fun x => (⟨leg, x.2⟩, x.1.segment)

/-- One place comes before another in the order of a route (R71, R88). -/
def Precedes (x y : Place) : Prop := x.leg < y.leg ∨ (x.leg = y.leg ∧ x.pos < y.pos)

theorem legPlaces_getElem? (leg : Nat) (l : List RoutePos) (i : Nat) :
    (legPlaces leg l)[i]? = (l[i]?).map fun x => (⟨leg, i⟩, x.segment) := by
  unfold legPlaces
  rw [List.getElem?_map, List.getElem?_zipIdx, Option.map_map]
  simp [Function.comp_def]

theorem mem_legPlaces_drop {leg c n : Nat} {l : List RoutePos} {y : Place} :
    (y, n) ∈ (legPlaces leg l).drop c ↔ y.leg = leg ∧ c ≤ y.pos ∧ (l[y.pos]?).map (·.segment) = some n := by
  rw [List.mem_iff_getElem?]
  simp only [List.getElem?_drop, legPlaces_getElem?, Option.map_eq_some_iff, Prod.mk.injEq]
  constructor
  · rintro ⟨i, x, hx, rfl, rfl⟩
    exact ⟨rfl, Nat.le_add_right c i, x, hx, rfl⟩
  · rintro ⟨rfl, hc, x, hx, rfl⟩
    obtain ⟨i, hi⟩ := Nat.exists_eq_add_of_le hc
    exact ⟨i, x, hi ▸ hx, by rw [← hi], rfl⟩

/-- The places of a leg stand in its order. -/
theorem legPlaces_pairwise (leg : Nat) (l : List RoutePos) : (legPlaces leg l).Pairwise fun a b => Precedes a.1 b.1 := by
  rw [List.pairwise_iff_getElem]
  intro i j hi hj hlt
  have place (m : Nat) (hm : m < (legPlaces leg l).length) : (legPlaces leg l)[m].1 = ⟨leg, m⟩ := by simp [legPlaces]
  rw [place, place]
  exact .inr ⟨rfl, hlt⟩

/-- The remaining route by its legs: leg 1 after the cursor, unless the order is a resumed refuge, and of a refuge leg 2, of a resumed one what follows
a cursor in it (R92). -/
theorem remaining_eq (o : Order) : o.remaining
    = (if o.kind ≠ .refuge ∨ o.resumed = false then (legPlaces 1 o.leg1).drop (o.cursor.pos + 1) else [])
      ++ (if o.kind = .refuge then (legPlaces 2 o.leg2).drop (if o.resumed = true ∧ o.cursor.leg = 2 then o.cursor.pos + 1 else 0) else []) := by
  have e : o.remaining = if o.kind ≠ .refuge then (legPlaces 1 o.leg1).drop (o.cursor.pos + 1)
      else if o.resumed then (if o.cursor.leg = 2 then (legPlaces 2 o.leg2).drop (o.cursor.pos + 1) else legPlaces 2 o.leg2)
      else (legPlaces 1 o.leg1).drop (o.cursor.pos + 1) ++ legPlaces 2 o.leg2 := rfl
  rw [e]
  by_cases hk : o.kind = .refuge
  · cases hr : o.resumed
    · simp [hk]
    · by_cases hc : o.cursor.leg = 2 <;> simp [hk, hc]
  · simp [hk]

/-- A place of an order's remaining route at which segment `n` stands (R92). -/
def RemainsAt (o : Order) (n : Nat) (y : Place) : Prop :=
  (y.leg = 1 ∧ (o.leg1[y.pos]?).map (·.segment) = some n ∧ (o.kind ≠ .refuge ∨ o.resumed = false) ∧ o.cursor.pos < y.pos) ∨
  (y.leg = 2 ∧ (o.leg2[y.pos]?).map (·.segment) = some n ∧ o.kind = .refuge ∧ (o.resumed = true → o.cursor.leg = 2 → o.cursor.pos < y.pos))

theorem mem_remaining {o : Order} {y : Place} {n : Nat} : (y, n) ∈ o.remaining ↔ RemainsAt o n y := by
  have hpast : (if o.resumed = true ∧ o.cursor.leg = 2 then o.cursor.pos + 1 else 0) ≤ y.pos
      ↔ (o.resumed = true → o.cursor.leg = 2 → o.cursor.pos < y.pos) := by
    split
    · next h => simp [h]
    · next h => simpa using fun hr hc => absurd ⟨hr, hc⟩ h
  rw [remaining_eq, List.mem_append]
  refine or_congr ?_ ?_
  · rw [List.mem_ite_nil_right, mem_legPlaces_drop, Nat.succ_le_iff]
    tauto
  · rw [List.mem_ite_nil_right, mem_legPlaces_drop, hpast]
    tauto

/-- The remaining route lists its places in the order of the route. -/
theorem remaining_pairwise (o : Order) : o.remaining.Pairwise fun a b => Precedes a.1 b.1 := by
  have part {leg : Nat} (l : List RoutePos) (c : Nat) (p : Prop) [Decidable p] :
      (if p then (legPlaces leg l).drop c else []).Pairwise fun a b => Precedes a.1 b.1 := by
    split
    · exact (legPlaces_pairwise leg l).sublist (List.drop_sublist c _)
    · exact .nil
  rw [remaining_eq, List.pairwise_append]
  refine ⟨part _ _ _, part _ _ _, fun a ha b hb => .inl ?_⟩
  rw [List.mem_ite_nil_right] at ha hb
  have ha1 := (mem_legPlaces_drop.1 ha.2).1
  have hb2 := (mem_legPlaces_drop.1 hb.2).1
  omega

/-- What a search in a list in order finds comes before all else that it could find. -/
theorem find_first {α : Type} {R : α → α → Prop} {p : α → Bool} {l : List α} (h : l.Pairwise R) {a : α} (ha : l.find? p = some a) {b : α}
    (hb : b ∈ l) (hp : p b = true) : b = a ∨ R a b := by
  obtain ⟨-, before, after, rfl, hnone⟩ := List.find?_eq_some_iff_append.1 ha
  rcases List.mem_append.1 hb with hb | hb
  · exact absurd hp (by simpa using hnone b hb)
  · exact (List.mem_cons.1 hb).imp_right fun hb => List.rel_of_pairwise_cons (List.pairwise_append.1 h).2.1 hb

section
variable {s : State} {i : Nat} {o : Order} {back : List RoutePos} {x : RoutePos} (hx : back.getLast? = some x)
include hx

theorem rejoinPlace_eq : s.rejoinPlace i o back = if s.position i = some x.segment ∨ o.cursorSegment = some x.segment then none
    else (o.remaining.find? fun y => decide (y.2 = x.segment)).map (·.1) := by
  unfold State.rejoinPlace
  rw [hx]

/-- The rejoin position is the first place of the remaining route with the back leg's last segment (R92). -/
theorem rejoinPlace_some {place : Place} (h : s.rejoinPlace i o back = some place) :
    ¬(s.position i = some x.segment ∨ o.cursorSegment = some x.segment) ∧ RemainsAt o x.segment place ∧
      ∀ y, RemainsAt o x.segment y → y = place ∨ Precedes place y := by
  rw [rejoinPlace_eq hx] at h
  split at h
  · cases h
  · next hbarred =>
    obtain ⟨⟨y, n⟩, hfind, rfl⟩ := Option.map_eq_some_iff.1 h
    obtain rfl : n = x.segment := by simpa using List.find?_some hfind
    refine ⟨hbarred, mem_remaining.1 (List.mem_of_find?_eq_some hfind), fun z hz => ?_⟩
    exact (find_first (remaining_pairwise o) hfind (mem_remaining.2 hz) (by simp)).imp_left (congrArg Prod.fst)

theorem rejoinPlace_none_iff : s.rejoinPlace i o back = none ↔
    (s.position i = some x.segment ∨ o.cursorSegment = some x.segment) ∨ ∀ y, ¬RemainsAt o x.segment y := by
  have hfind : (o.remaining.find? fun y => decide (y.2 = x.segment)) = none ↔ ∀ y, ¬RemainsAt o x.segment y := by
    rw [List.find?_eq_none]
    constructor
    · exact fun h y hy => h _ (mem_remaining.2 hy) (by simp)
    · rintro h ⟨y, n⟩ hy hn
      obtain rfl : n = x.segment := by simpa using hn
      exact h y (mem_remaining.1 hy)
  rw [rejoinPlace_eq hx]
  split
  · next hbarred => simp [hbarred]
  · next hbarred => rw [Option.map_eq_none_iff, hfind, or_iff_right hbarred]

end

/-! ### What R91 decides -/

/-- A transporter that may be diverted: NORMAL, with an active order that is RUNNING or a DWELLING refuge, and no divert of it STARTING or pending (R91
step 3). -/
def MayDivert (s : State) (i : Nat) : Prop :=
  s.hasCondition i .normal = true ∧
    (∃ a o, (s.orderRefs i).active = some a ∧ s.order a = some o ∧ (o.state = .running ∨ (o.kind = .refuge ∧ o.state = .dwelling))) ∧
    s.startingDivert i = none ∧ (s.orderRefs i).pendingDivert = none

theorem divertible_iff (o : Order) : o.divertible = true ↔ o.state = .running ∨ (o.kind = .refuge ∧ o.state = .dwelling) := by
  unfold Order.divertible
  simp

theorem active_eq_some {s : State} {i a : Nat} {o : Order} : s.active i = some (a, o) ↔ (s.orderRefs i).active = some a ∧ s.order a = some o := by
  refine ⟨fun h => ⟨active_slot h, active_order h⟩, fun ⟨ha, ho⟩ => ?_⟩
  unfold State.active
  rw [ha]
  dsimp only
  rw [ho]
  rfl

/-- Step 3 of R91 for a transporter with active order `o`. -/
theorem mayDivert_iff {s : State} {i a : Nat} {o : Order} (ha : s.active i = some (a, o)) : MayDivert s i ↔
    ¬((!s.hasCondition i .normal) = true ∨ (!o.divertible) = true ∨ (s.startingDivert i).isSome = true ∨ (s.orderRefs i).pendingDivert ≠ none) := by
  have hactive : (∃ b y, (s.orderRefs i).active = some b ∧ s.order b = some y ∧ (y.state = .running ∨ (y.kind = .refuge ∧ y.state = .dwelling)))
      ↔ o.divertible = true := by
    obtain ⟨hslot, ho⟩ := active_eq_some.1 ha
    simp [hslot, ho, divertible_iff]
  unfold MayDivert
  rw [hactive]
  simp only [not_or, Bool.not_eq_true', Bool.not_eq_false, Bool.not_eq_true, Option.isSome_eq_false_iff, Option.isNone_iff_eq_none, not_not]

/-- What the Guard Unit's check leaves of a divert that passed the tests before it (R91 step 8). -/
def checkedDivert (s : State) (who : Originator) (k : Nat) (out back : List RoutePos) (plan : DivertPlan) :
    Except (Outcome × Body) (Nat × List RoutePos × List RoutePos × DivertPlan) :=
  (s.firstRefused who (divertObjects out back)).elim (.ok (k, out, back, plan)) fun x => .error (.denied, .deniedObject x.1 x.2)

/-- The decision of a divert whose legs the walk accepts (R91 steps 6 to 8). -/
def walkedDivert (s : State) (who : Originator) (i : Nat) (o : Order) (k : Nat) (out back : List RoutePos) :
    Except (Outcome × Body) (Nat × List RoutePos × List RoutePos × DivertPlan) :=
  if (s.orderRefs i).stack.length < 3 then
    if (out.head?).map (·.segment) ≠ s.position i then .error (.refusedRoute, .routeFault 1 0 .start)
    else (s.rejoinPlace i o back).elim (.error (.refusedRoute, .routeFault 2 (back.length - 1) .rejoin)) fun place =>
      checkedDivert s who k out back (.starting place)
  else checkedDivert s who k out back .pending

section
variable {s : State} {who : Originator} {i k : Nat} {outLeg backLeg : List Stretch}

theorem decideDivert_full (hk : s.freeSlot = none) : s.decideDivert who i outLeg backLeg = .error (.noSlot, .empty) := by
  unfold State.decideDivert
  rw [hk]

variable (hk : s.freeSlot = some k)
include hk

theorem decideDivert_range (hi : 3 < i) : s.decideDivert who i outLeg backLeg = .error (.refusedRange, .empty) := by
  unfold State.decideDivert
  rw [hk]
  exact if_pos hi

variable (hi : i ≤ 3)
include hi

theorem decideDivert_unfit (h : ¬MayDivert s i) : s.decideDivert who i outLeg backLeg = .error (.refusedState, .empty) := by
  unfold State.decideDivert
  rw [hk]
  dsimp only
  rw [if_neg (Nat.not_lt.2 hi)]
  split
  · rfl
  · next ha => exact if_pos (not_not.1 (mt (mayDivert_iff ha).2 h))

variable (h : MayDivert s i) {a : Nat} {o : Order} (ha : s.active i = some (a, o))
include h ha

theorem decideDivert_outFault {p : Nat} {x : RouteFault} (hout : s.checkLeg outLeg = .error (p, x)) :
    s.decideDivert who i outLeg backLeg = .error (.refusedRoute, .routeFault 1 p x) := by
  unfold State.decideDivert
  rw [hk]
  dsimp only
  rw [if_neg (Nat.not_lt.2 hi), ha]
  dsimp only
  rw [if_neg ((mayDivert_iff ha).1 h), hout]

variable {out : List RoutePos} (hout : s.checkLeg outLeg = .ok out)
include hout

theorem decideDivert_backFault {p : Nat} {x : RouteFault} (hback : s.checkBackLeg out backLeg = .error (p, x)) :
    s.decideDivert who i outLeg backLeg = .error (.refusedRoute, .routeFault 2 p x) := by
  unfold State.decideDivert
  rw [hk]
  dsimp only
  rw [if_neg (Nat.not_lt.2 hi), ha]
  dsimp only
  rw [if_neg ((mayDivert_iff ha).1 h), hout]
  dsimp only
  rw [hback]

theorem decideDivert_walked {back : List RoutePos} (hback : s.checkBackLeg out backLeg = .ok back) :
    s.decideDivert who i outLeg backLeg = walkedDivert s who i o k out back := by
  unfold State.decideDivert walkedDivert checkedDivert
  rw [hk]
  dsimp only
  rw [if_neg (Nat.not_lt.2 hi), ha]
  dsimp only
  rw [if_neg ((mayDivert_iff ha).1 h), hout]
  dsimp only
  rw [hback]
  dsimp only
  by_cases hdepth : (s.orderRefs i).stack.length < 3
  · rw [if_pos hdepth, decide_eq_true hdepth]
    simp only [Bool.true_and, decide_eq_true_eq]
    split
    · rfl
    · cases s.rejoinPlace i o back <;> cases s.firstRefused who (divertObjects out back) <;> rfl
  · rw [if_neg hdepth, decide_eq_false hdepth]
    cases s.firstRefused who (divertObjects out back) <;> rfl

end

/-- A divert that is decided to be taken has a free slot, and its transporter may be diverted. -/
theorem decideDivert_ok {s : State} {who : Originator} {i k : Nat} {outLeg backLeg : List Stretch} {out back : List RoutePos} {plan : DivertPlan}
    (h : s.decideDivert who i outLeg backLeg = .ok (k, out, back, plan)) : s.freeSlot = some k ∧ MayDivert s i := by
  have hk := decideDivert_slot h
  have hi : i ≤ 3 := by
    by_contra hi
    rw [decideDivert_range hk (Nat.not_le.1 hi)] at h
    cases h
  refine ⟨hk, ?_⟩
  by_contra hm
  rw [decideDivert_unfit hk hi hm] at h
  cases h

section
variable {s : State} {who : Originator} {i k : Nat} {o : Order} {out back : List RoutePos}

theorem checkedDivert_denied {plan : DivertPlan} {x : ObjectKind} {n : Nat} (h : s.firstRefused who (divertObjects out back) = some (x, n)) :
    checkedDivert s who k out back plan = .error (.denied, .deniedObject x n) := by
  unfold checkedDivert
  rw [h]
  rfl

theorem checkedDivert_passed {plan : DivertPlan} (h : s.firstRefused who (divertObjects out back) = none) :
    checkedDivert s who k out back plan = .ok (k, out, back, plan) := by
  unfold checkedDivert
  rw [h]
  rfl

theorem walkedDivert_deep (hd : 3 ≤ (s.orderRefs i).stack.length) : walkedDivert s who i o k out back = checkedDivert s who k out back .pending :=
  if_neg (Nat.not_lt.2 hd)

variable (hd : (s.orderRefs i).stack.length < 3)
include hd

theorem walkedDivert_start (hb : (out.head?).map (·.segment) ≠ s.position i) :
    walkedDivert s who i o k out back = .error (.refusedRoute, .routeFault 1 0 .start) := (if_pos hd).trans (if_pos hb)

variable (hb : (out.head?).map (·.segment) = s.position i)
include hb

theorem walkedDivert_noRejoin (hr : s.rejoinPlace i o back = none) :
    walkedDivert s who i o k out back = .error (.refusedRoute, .routeFault 2 (back.length - 1) .rejoin) := by
  unfold walkedDivert
  rw [if_pos hd, if_neg (not_not_intro hb), hr]
  rfl

theorem walkedDivert_rejoins {place : Place} (hr : s.rejoinPlace i o back = some place) :
    walkedDivert s who i o k out back = checkedDivert s who k out back (.starting place) := by
  unfold walkedDivert
  rw [if_pos hd, if_neg (not_not_intro hb), hr]
  rfl

end

/-! ### `divert` -/

theorem divert_owner {s : State} (hl : s.layout.closed = true) (h : Header) (i : Nat) (outLeg backLeg : List Stretch) :
    s.decideValid ⟨h.tag, codeOf (.divert i outLeg backLeg)⟩ h.originator (.divert i outLeg backLeg)
      = s.takeDivert ⟨h.tag, codeOf (.divert i outLeg backLeg)⟩ h.originator i outLeg backLeg :=
  decideValid_owner rfl rfl (by simp [State.layoutRefuses, hl])

theorem exec_divert_refused {s : State} (hs : s.Ready) (hw : s.Settled) (hl : s.layout.closed = true) {h : Header} {i : Nat}
    {outLeg backLeg : List Stretch} {o : Outcome} {b : Body} (hd : s.decideDivert h.originator i outLeg backLeg = .error (o, b)) :
    exec (.divert h i outLeg backLeg) s = .next (s.answered h (.divert i outLeg backLeg) o b).decideAttention := by
  refine (exec_request rfl s).trans (congrArg _ (submit_answer hs hw h _ ((divert_owner hl h i outLeg backLeg).trans ?_)))
  unfold State.takeDivert
  rw [hd]

/-! ### A divert that starts -/

/-- A refuge's record as a divert starts (R93). -/
def startingRefuge (i : Nat) (out back : List RoutePos) (place : Place) : Order :=
  { newRefuge i out back with state := .starting, rejoin := some place }

theorem takeDivert_starting {s : State} (q : Ask) {who : Originator} {i k : Nat} {outLeg backLeg : List Stretch} {out back : List RoutePos}
    {place : Place} (hd : s.decideDivert who i outLeg backLeg = .ok (k, out, back, .starting place)) :
    s.takeDivert q who i outLeg backLeg = (s.startDivert i k (newRefuge i out back) place).answerAfter (.divert q k) := by
  unfold State.takeDivert
  rw [hd]

/-- Once the refuge has its slot, the start of a divert is calm work. -/
theorem calm_startDivert_placed (s : State) (t k : Nat) (r : Order) (place : Place) :
    Calm (s.setOrder k (some { r with state := .starting, rejoin := some place })) (s.startDivert t k r place) := by
  unfold State.startDivert
  dsimp only
  refine Calm.trans ?_ (calm_emit _ (by simp [inReport]))
  split
  · exact calm_removeHead _ _
  · exact .refl _

theorem answerDivert_eq {s : State} (q : Ask) {k i : Nat} {o : Order} {out back : List RoutePos} (ho : s.order k = some o)
    (hshape : shape o = (i, .refuge, none, out, back)) : s.answerDivert q k
      = s.answer q (if o.state = .starting then .accepted else .done) (.refuge k out.length back.length o.state) := by
  obtain ⟨-, -, -, rfl, rfl⟩ : o.transporter = i ∧ o.kind = .refuge ∧ o.finish = none ∧ o.leg1 = out ∧ o.leg2 = back := by
    simpa [shape] using hshape
  unfold State.answerDivert
  rw [ho]

/-- What a divert that starts leaves, and its answer by the state in which the work leaves the refuge (R93, R95). -/
theorem divert_starts {h : Header} {i k : Nat} {outLeg backLeg : List Stretch} {s : State} {out back : List RoutePos} {place : Place} (hs : s.Ready)
    (hl : s.layout.closed = true) (hd : s.decideDivert h.originator i outLeg backLeg = .ok (k, out, back, .starting place)) :
    ∃ t o', exec (.divert h i outLeg backLeg) s = .next t ∧ t.order k = some o' ∧ shape o' = (i, .refuge, none, out, back) ∧
      t.port.answers = s.port.answers ++ [⟨h.tag, codeOf (.divert i outLeg backLeg), (if o'.state = .starting then .accepted else .done),
        .refuge k out.length back.length o'.state⟩] ∧
      Calm { s.setOrder k (some (startingRefuge i out back place)) with port := { s.port with answers := t.port.answers } } t := by
  have hcalm : Calm (s.setOrder k (some (startingRefuge i out back place))) (s.startDivert i k (newRefuge i out back) place) :=
    calm_startDivert_placed s i k (newRefuge i out back) place
  have hdecided := (divert_owner hl h i outLeg backLeg).trans (takeDivert_starting _ hd)
  have hnoReport : noReport (s.startDivert i k (newRefuge i out back) place) := noReport_of_kept hcalm.toKept hs.agenda
  have hwork := calm_workOff ((s.startDivert i k (newRefuge i out back) place).answerAfter
    (.divert ⟨h.tag, codeOf (.divert i outLeg backLeg)⟩ k)) hnoReport
  obtain ⟨o', ho', hshape⟩ := Option.map_eq_some_iff.1
    ((hwork.shapes k).trans ((hcalm.shapes k).trans (congrArg (Option.map shape) (setOrder_order_same s k _))))
  obtain ⟨t, ht, horders, hanswers, hall⟩ := exec_answersLate (c := .divert h i outLeg backLeg) rfl hs hdecided hcalm rfl rfl rfl rfl
    (answerDivert_eq _ ho' hshape)
  have horder := congrArg (fun x : OrderTable => Table.get none x.slots k) horders
  exact ⟨t, o', ht, horder.trans ho', hshape, hanswers, hall⟩

/-! ### A divert that waits -/

/-- The state in which a refuge waits as its transporter's pending divert (R96). -/
def waitingDivert (s : State) (i k : Nat) (out back : List RoutePos) : State :=
  (s.setOrder k (some (newRefuge i out back))).setRefs i { s.orderRefs i with pendingDivert := some k }

theorem takeDivert_pending {s : State} (q : Ask) {who : Originator} {i k : Nat} {outLeg backLeg : List Stretch} {out back : List RoutePos}
    (hd : s.decideDivert who i outLeg backLeg = .ok (k, out, back, .pending)) :
    s.takeDivert q who i outLeg backLeg = (waitingDivert s i k out back).answer q .pending (.refugePending k out.length back.length) := by
  unfold State.takeDivert
  rw [hd]
  rfl

section
variable (s : State) (i k : Nat) (out back : List RoutePos)

theorem waitingDivert_order (m : Nat) : (waitingDivert s i k out back).order m = if m = k then some (newRefuge i out back) else s.order m :=
  setOrder_order s k (some (newRefuge i out back)) m

theorem waitingDivert_orderRefs : (waitingDivert s i k out back).orderRefs i = { s.orderRefs i with pendingDivert := some k } :=
  setRefs_orderRefs_same _ i _

/-- The references stay right where a refuge becomes the pending divert. -/
theorem refsRight_waitingDivert (hr : s.refsRight) (hk : s.freeSlot = some k) : (waitingDivert s i k out back).refsRight := by
  refine refsRight_newOrder hr hk (newRefuge i out back) rfl { s.orderRefs i with pendingDivert := some k } fun m hm => ?_
  simp only [OrderRefs.named, List.mem_append, Option.mem_toList] at hm ⊢
  rcases hm with (hm | hm) | hm
  · exact .inr (.inl (.inl hm))
  · exact .inr (.inl (.inr hm))
  · exact .inl (Option.some.inj hm).symm

/-- The active order of a diverted transporter is not CANCELLING, nor is the refuge that waits. -/
theorem waitingDivert_active (h : MayDivert s i) {a : Nat} {x : Order} (hx : (waitingDivert s i k out back).active i = some (a, x)) :
    x.state ≠ .cancelling := by
  obtain ⟨ha, ho⟩ := active_eq_some.1 hx
  obtain ⟨-, ⟨b, o, hb, ho', hstate⟩, -, -⟩ := h
  rw [waitingDivert_orderRefs] at ha
  obtain rfl : b = a := Option.some.inj (hb.symm.trans ha)
  rw [waitingDivert_order] at ho
  split at ho
  · cases ho
    simp [newRefuge]
  · obtain rfl : o = x := Option.some.inj (ho'.symm.trans ho)
    rcases hstate with hst | ⟨-, hst⟩ <;> simp [hst]

end

/-- The work after a divert that waits leaves the references, and the refuge PENDING (R96). -/
theorem waitingDivert_workOff {s e : State} {i k : Nat} {out back : List RoutePos} (hr : s.refsRight) (hk : s.freeSlot = some k) (h : MayDivert s i)
    (he : e.orders = (waitingDivert s i k out back).orders) (ha : e.agenda = []) :
    (workOff e).orderRefs i = { s.orderRefs i with pendingDivert := some k } ∧ Stays k (newRefuge i out back) (workOff e) := by
  have hrefs : e.orderRefs i = { s.orderRefs i with pendingDivert := some k } :=
    (congrArg (fun x : OrderTable => Table.get OrderRefs.initial x.refs i) he).trans (waitingDivert_orderRefs s i k out back)
  have horder : e.order k = some (newRefuge i out back) :=
    (congrArg (fun x : OrderTable => Table.get none x.slots k) he).trans ((waitingDivert_order s i k out back k).trans (if_pos rfl))
  have hrunning : ∀ a x, e.active i = some (a, x) → x.state ≠ .cancelling := fun a x hx =>
    waitingDivert_active s i k out back h ((active_same he i).symm.trans hx)
  obtain ⟨-, -, hstart, -⟩ := h
  have hstart' : e.startingDivert i = none :=
    (startingDivert_same he i).trans (startingDivert_setOrder hstart k (o := newRefuge i out back) (by simp [newRefuge]))
  obtain ⟨hkept, hstays, -⟩ := undisturbed_workOff (refsRight_same (refsRight_waitingDivert s i k out back hr hk) he) (by simp [ha]) hstart'
    hrunning (k := k) (by simp [hrefs, OrderRefs.named]) horder (by simp [newRefuge])
  exact ⟨hkept.trans hrefs, hstays⟩

/-- What a divert that waits leaves (R96). -/
theorem divert_waits {h : Header} {i k : Nat} {outLeg backLeg : List Stretch} {s : State} {out back : List RoutePos} (hs : s.Ready)
    (hl : s.layout.closed = true) (hd : s.decideDivert h.originator i outLeg backLeg = .ok (k, out, back, .pending)) :
    ∃ t, exec (.divert h i outLeg backLeg) s = .next t ∧
      (s.refsRight → t.orderRefs i = { s.orderRefs i with pendingDivert := some k } ∧ Stays k (newRefuge i out back) t) ∧
      Calm ((waitingDivert s i k out back).answered h (.divert i outLeg backLeg) .pending (.refugePending k out.length back.length)) t := by
  obtain ⟨hk, hm⟩ := decideDivert_ok hd
  have hdecided := (divert_owner hl h i outLeg backLeg).trans ((takeDivert_pending _ hd).trans
    (answer_ready hs (t := waitingDivert s i k out back) rfl h (.divert i outLeg backLeg) _ _))
  have hnoReport := noReport_of_empty (s := (waitingDivert s i k out back).answered h (.divert i outLeg backLeg) .pending
    (.refugePending k out.length back.length)) hs.agenda
  refine ⟨_, exec_request rfl s, fun hr => ?_, submit_calm hs h _ hdecided hnoReport hs.late rfl⟩
  rw [submit_work hs h _ hdecided hnoReport hs.late]
  exact waitingDivert_workOff hr hk hm rfl hs.agenda

/-- Settles O31: the decision of R91 is read off test by test and a refusal is only answered; a divert that starts is answered by the refuge's state
after the work, one that waits is left PENDING by the work; and the rejoin position is the first place of the remaining route. -/
theorem divertIsDecidedAndTaken : Obligations.DivertIsDecidedAndTaken := by
  refine ⟨fun h i outLeg backLeg s hs hl => ?_, fun h i outLeg backLeg s hs hw hl => ?_, fun s i o back x hx => ?_⟩
  · intro c r
    refine ⟨fun k out back place hd => ?_, fun k out back hd => ?_, fun o b hw hd => exec_divert_refused hs hw hl hd⟩
    · obtain ⟨t, o', ht, ho', hshape, hanswers, hcalm⟩ := divert_starts hs hl hd
      exact ⟨t, o', ht, decideDivert_slot hd, ho', hshape, hanswers, hcalm⟩
    · obtain ⟨t, ht, hwork, hcalm⟩ := divert_waits hs hl hd
      refine ⟨t, ht, decideDivert_slot hd, ?_, fun hr => ?_, hcalm⟩
      · exact (hcalm.shapes k).trans (congrArg (Option.map shape) ((waitingDivert_order s i k out back k).trans (if_pos rfl)))
      · obtain ⟨hrefs, hstays⟩ := hwork hr
        obtain ⟨o', ho', e⟩ := hstays.spec
        exact ⟨hrefs, o', ho', e, by rw [e]; rfl⟩
  · intro r reply divertible fit
    have refused {o : Outcome} {b : Body} (e : s.decideDivert h.originator i outLeg backLeg = .error (o, b)) : reply o b :=
      exec_divert_refused hs hw hl e
    have slot : s.freeSlot ≠ none → ∃ k, s.freeSlot = some k := Option.ne_none_iff_exists'.1
    have activeOrder : fit → ∃ a o, s.active i = some (a, o) := fun ⟨_, ⟨a, o, ha, ho, _⟩, _⟩ => ⟨a, o, active_eq_some.2 ⟨ha, ho⟩⟩
    refine ⟨fun hk => refused (decideDivert_full hk), fun hk hi => ?_, fun hk hi hf => ?_, fun p x hk hi hf hout => ?_,
      fun out p x hk hi hf hout hback => ?_, fun k a o out back hk hi hf ha ho hout hback => ?_⟩
    · obtain ⟨k, hk⟩ := slot hk
      exact refused (decideDivert_range hk hi)
    · obtain ⟨k, hk⟩ := slot hk
      exact refused (decideDivert_unfit hk hi hf)
    · obtain ⟨k, hk⟩ := slot hk
      obtain ⟨a, o, ha⟩ := activeOrder hf
      exact refused (decideDivert_outFault hk hi hf ha hout)
    · obtain ⟨k, hk⟩ := slot hk
      obtain ⟨a, o, ha⟩ := activeOrder hf
      exact refused (decideDivert_backFault hk hi hf ha hout hback)
    · have hd := decideDivert_walked (who := h.originator) hk hi hf (active_eq_some.2 ⟨ha, ho⟩) hout hback
      refine ⟨fun hdepth hb => refused (hd.trans (walkedDivert_start hdepth hb)),
        fun hdepth hb hr => refused (hd.trans (walkedDivert_noRejoin hdepth hb hr)), fun place hdepth hb hr => ?_, fun hdepth => ?_⟩
      · have hd' := hd.trans (walkedDivert_rejoins hdepth hb hr)
        exact ⟨fun x n hx => refused (hd'.trans (checkedDivert_denied hx)), fun hx => hd'.trans (checkedDivert_passed hx)⟩
      · have hd' := hd.trans (walkedDivert_deep hdepth)
        exact ⟨fun x n hx => refused (hd'.trans (checkedDivert_denied hx)), fun hx => hd'.trans (checkedDivert_passed hx)⟩
  · intro stands barred
    refine ⟨fun place h => ?_, rejoinPlace_none_iff hx⟩
    obtain ⟨hbarred, hstands, hfirst⟩ := rejoinPlace_some hx h
    refine ⟨hbarred, hstands, fun y hy => ?_⟩
    rcases hfirst y hy with rfl | hlt | ⟨hleg, hpos⟩
    · exact .inr ⟨rfl, Nat.le_refl _⟩
    · exact .inl hlt
    · exact .inr ⟨hleg, Nat.le_of_lt hpos⟩

end Sys2Proof.Proofs
end

section
/-!
SUPPORT. The reads of pads and telescopes (R104, R105, O15), and the requests that declare, bar, settle and recouple pads and settle loads (R107 to
R111, R124, O37 to O41).
-/

namespace Sys2Proof.Proofs

open Sys2Proof Sys2Proof.Machine Sys2Proof.Laws

/-! ### `read-pad` and `read-telescope` -/

theorem takeReadPad_shown {s : State} (q : Ask) {p : Nat} (hp : p ≤ 191) :
    s.takeReadPad q p = s.answerTime (((s.transferAt p).map s.showTransfer).any fun x => !x.suspended) q
      (.pad p (s.pad p) ((s.transferAt p).map s.showTransfer)) := if_neg (Nat.not_lt.2 hp)

theorem showTransfer_running {s : State} {r : TransferRec} {time : Nat} (h : r.timer = .running time) :
    (s.showTransfer r).suspended = false ∧ (s.showTransfer r).timeLeft ≤ time := by
  unfold State.showTransfer
  rw [h]
  exact ⟨rfl, timeLeft_le s time⟩

theorem showTransfer_suspended {s : State} {r : TransferRec} {time : Nat} (h : r.timer = .suspended time) :
    (s.showTransfer r).suspended = true ∧ (s.showTransfer r).timeLeft = time := by
  unfold State.showTransfer
  rw [h]
  exact ⟨rfl, rfl⟩

/-- A pad at which a telescope is found to be the last occupant has it as last occupant (R105). -/
theorem lastOccupant_of_lastAt {s : State} (hc : s.canonical) {x p : Nat} (h : s.lastAt x = some p) : (s.pad p).lastOccupant = some x := by
  obtain ⟨-, -, -, -, -, -, hpads, -⟩ := hc
  obtain ⟨e, he, rfl⟩ := Option.map_eq_some_iff.1 h
  have hrec : s.pad e.1 = e.2 := get_of_mem ((wf_iff _ _).1 hpads) (List.mem_of_find?_eq_some he)
  rw [hrec]
  exact of_decide_eq_true (List.find?_some (p := fun e : Nat × PadRec => decide (e.2.lastOccupant = some x)) he)

/-- Where a pad has a telescope as last occupant, one is found (R105). -/
theorem lastAt_of_lastOccupant {s : State} {x p : Nat} (h : (s.pad p).lastOccupant = some x) : s.lastAt x ≠ none := by
  have listed : (p, s.pad p) ∈ s.transfer.pads := mem_of_get (d := PadRec.undeclared) fun e => by
    rw [show s.pad p = PadRec.undeclared from e] at h
    cases h
  intro e
  have hnone := List.find?_eq_none.1 (Option.map_eq_none_iff.1 e) _ listed
  exact hnone (decide_eq_true h)

theorem takeReadTelescope_shown {s : State} (q : Ask) {x : Nat} (hx : x ≤ 63) :
    s.takeReadTelescope q x = s.answer q .done (.telescope (s.placement x) (if s.placement x = .unplaced then s.lastAt x else none)) :=
  if_neg (Nat.not_lt.2 hx)

/-- Settles O15: each read is answered with the body that its records give; the last occupant is searched for an UNPLACED telescope alone. -/
theorem readPadAndReadTelescopeAnswerTheirRecords : Obligations.ReadPadAndReadTelescopeAnswerTheirRecords := by
  refine ⟨fun h p s hs hw => ⟨fun hp => exec_answer rfl hs hw rfl rfl rfl (if_pos hp), fun hp => ?_⟩,
    fun h x s hs hw => ⟨fun hx => exec_answer rfl hs hw rfl rfl rfl (if_pos hx), fun hx =>
      ⟨_, exec_answer rfl hs hw rfl rfl rfl (takeReadTelescope_shown _ hx), fun hu => if_neg hu, fun hc p hl => ?_,
        fun hu ⟨p, hp⟩ => ?_⟩⟩⟩
  · obtain ⟨k, hk⟩ := exec_read (c := .readPad h p) rfl hs hw rfl rfl rfl (takeReadPad_shown _ hp)
    refine ⟨_, k, hk, fun hn => by rw [hn]; rfl, fun r hr => ⟨s.showTransfer r, by rw [hr]; rfl, rfl, rfl, rfl, ?_, ?_⟩⟩
    · exact fun time ht => showTransfer_running ht
    · exact fun time ht => showTransfer_suspended ht
  · split at hl
    · exact lastOccupant_of_lastAt hc hl
    · cases hl
  · rw [if_pos hu]
    exact lastAt_of_lastOccupant hp

/-! ### Requests whose owner edits the records and answers -/

/-- A request whose owner edits the records, lists no stage of a report and answers at once: the work that follows is calm. -/
theorem exec_edit {c : Instr} {h : Header} {r : Request} {s e : State} {o : Outcome} {b : Body} (hc : c.request? = some (h, r)) (hs : s.Ready)
    (h1 : classAllows (classOf r) h.originator = true) (h2 : (entryObject r).bind (fun x => s.firstRefused h.originator [x]) = none)
    (h3 : s.layoutRefuses r = false) (he : s.owner ⟨h.tag, codeOf r⟩ h.originator r = e.answer ⟨h.tag, codeOf r⟩ o b)
    (hn : noReport e) (ha : e.port.answers = s.port.answers) (hl : e.late = s.late) (hp : e.pending = s.pending) :
    ∃ t, exec c s = .next t ∧ Calm (e.answered h r o b) t :=
  exec_calm hc hs h1 h2 h3 (he.trans (answer_ready hs ha h r o b)) hn (hl.trans hs.late) hp

/-- A request of MAINTENANCE that its owner answers and no more. -/
theorem exec_answer_maintenance {c : Instr} {h : Header} {r : Request} {s : State} (hc : c.request? = some (h, r)) (hs : s.Ready) (hw : s.Settled)
    (hm : h.originator = .maintenance) (hcl : classOf r = .maintenance) (hlay : s.layoutRefuses r = false) {o : Outcome} {b : Body}
    (he : s.owner ⟨h.tag, codeOf r⟩ h.originator r = s.answer ⟨h.tag, codeOf r⟩ o b) :
    exec c s = .next (s.answered h r o b).decideAttention :=
  exec_answer_entry hc hs hw (by rw [hcl, hm]; rfl) (by rw [hm]; exact entry_maintenance s _) hlay he

/-- A request about a pad of the desk class, which the class test and the object check allow (R153, R155). -/
theorem exec_answer_pad {c : Instr} {h : Header} {r : Request} {s : State} {p : Nat} (hc : c.request? = some (h, r)) (hs : s.Ready) (hw : s.Settled)
    (hwho : h.originator ≠ .scheduler) (hallow : s.allows h.originator .pad p = true) (hcl : classOf r = .desk)
    (hob : entryObject r = some (.pad, p)) (hlay : s.layoutRefuses r = false) {o : Outcome} {b : Body}
    (he : s.owner ⟨h.tag, codeOf r⟩ h.originator r = s.answer ⟨h.tag, codeOf r⟩ o b) :
    exec c s = .next (s.answered h r o b).decideAttention :=
  exec_answer_entry hc hs hw (by rw [hcl]; exact classAllows_desk hwho) (by rw [hob]; exact entry_allowed hallow) hlay he

/-! ### A pad put into a target state -/

/-- A pad's record in a target state (R107, R109). -/
def targetRec (r : PadRec) : PadTarget → PadRec
  | .vacant => { r with state := .vacant, lastOccupant := none }
  | .barred => { r with state := .barred, lastOccupant := none }
  | .anchored y => { r with state := .anchored, occupant := some y, lastOccupant := none }

theorem putPad_pad (s : State) (p : Nat) (r : PadRec) (x : PadTarget) : (s.putPad p r x).pad p = targetRec r x := by
  cases x with
  | vacant => exact setPad_pad_same s p _
  | barred => exact setPad_pad_same s p _
  | anchored y =>
    refine (placeTelescope_pad _ y _ p).trans ?_
    rw [setPad_pad_same]
    exact if_neg fun e => by cases e.2

theorem putPad_placement_anchored (s : State) (p : Nat) (r : PadRec) (y : Nat) : (s.putPad p r (.anchored y)).placement y = .onPad p :=
  (placeTelescope_placement _ y _ y).trans (if_pos rfl)

theorem putPad_placement_other (s : State) (p : Nat) (r : PadRec) {x : PadTarget} {y : Nat} (h : x ≠ .anchored y) :
    (s.putPad p r x).placement y = s.placement y := by
  cases x with
  | vacant => rfl
  | barred => rfl
  | anchored z => exact (placeTelescope_placement _ z _ y).trans (if_neg fun e => h (congrArg _ e.symm))

theorem putPad_same (s : State) (p : Nat) (r : PadRec) (x : PadTarget) :
    (s.putPad p r x).port = s.port ∧ (s.putPad p r x).agenda = s.agenda ∧ (s.putPad p r x).late = s.late ∧
      (s.putPad p r x).pending = s.pending := by
  cases x <;> exact ⟨rfl, rfl, rfl, rfl⟩

theorem targetRec_fields (r : PadRec) (x : PadTarget) :
    (targetRec r x).access = r.access ∧ (targetRec r x).guard = r.guard ∧ (targetRec r x).claim = r.claim ∧ (targetRec r x).state ≠ .seated := by
  cases x <;> exact ⟨rfl, rfl, rfl, by simp [targetRec]⟩

/-- A request that puts an unclaimed pad into a target state leaves it so: the work that follows touches neither the pad nor the telescopes. -/
theorem exec_putPad {c : Instr} {h : Header} {r : Request} {s : State} {p : Nat} {rec : PadRec} {x : PadTarget} {o : Outcome} {b : Body}
    (hc : c.request? = some (h, r)) (hs : s.Ready) (hm : h.originator = .maintenance) (hcl : classOf r = .maintenance)
    (hlay : s.layoutRefuses r = false) (hclaim : rec.claim = none)
    (he : s.owner ⟨h.tag, codeOf r⟩ h.originator r = (s.putPad p rec x).answer ⟨h.tag, codeOf r⟩ o b) :
    ∃ t, exec c s = .next t ∧ t.pad p = targetRec rec x ∧ (∀ y, t.placement y = (s.putPad p rec x).placement y) ∧
      Calm ((s.putPad p rec x).answered h r o b) t := by
  obtain ⟨hport, hag, hlate, hpend⟩ := putPad_same s p rec x
  obtain ⟨-, -, hrc, hseat⟩ := targetRec_fields rec x
  have hpad := putPad_pad s p rec x
  obtain ⟨t, ht, hcalm⟩ := exec_edit hc hs (by rw [hcl, hm]; rfl) (by rw [hm]; exact entry_maintenance s _) hlay he
    (noReport_of_empty (hag.trans hs.agenda)) (congrArg ControlPort.answers hport) hlate hpend
  refine ⟨t, ht, (calm_pad hcalm ?_ ?_).trans hpad, fun y => (calm_placement hcalm y :), hcalm⟩
  · exact (congrArg PadRec.claim hpad).trans (hrc.trans hclaim)
  · exact fun e => hseat ((congrArg PadRec.state hpad).symm.trans e)

/-! ### `declare-pad` -/

theorem takeDeclarePad_failed {s : State} (q : Ask) {p access guard k : Nat} {x : PadTarget}
    (h : firstFailing (s.declarePadTests p access guard x) = some k) :
    s.takeDeclarePad q p access guard x = s.answer q (if k ≤ 5 then .refusedRange else .refusedState) (.failedTest k) := by
  unfold State.takeDeclarePad
  rw [h]

theorem takeDeclarePad_passed {s : State} (q : Ask) {p access guard : Nat} {x : PadTarget}
    (h : firstFailing (s.declarePadTests p access guard x) = none) :
    s.takeDeclarePad q p access guard x
      = (s.putPad p { PadRec.undeclared with access := access, guard := guard } x).answer q .done
          (.padCount (s.putPad p { PadRec.undeclared with access := access, guard := guard } x).padCount) := by
  unfold State.takeDeclarePad
  rw [h]

/-- What a test of a target's telescope says: it holds of the telescope named, if one is. -/
theorem targetTelescope_all {x : PadTarget} {f : Nat → Bool} (h : ∀ y, x = .anchored y → f y = true) : (targetTelescope x).all f = true := by
  cases x with
  | vacant => rfl
  | barred => rfl
  | anchored y => exact h y rfl

theorem isFree_target {s : State} {x : PadTarget} : s.isFree (targetTelescope x) = true ↔ ∀ y, x = .anchored y → s.placement y = .unplaced := by
  cases x with
  | vacant => simp [targetTelescope, State.isFree]
  | barred => simp [targetTelescope, State.isFree]
  | anchored y => simp [targetTelescope, State.isFree]

/-- The seven tests of R107 pass. -/
theorem declarePadTests_pass {s : State} {p access guard : Nat} {x : PadTarget} (hp : p ≤ 191) (hg : guard ≤ 2)
    (hd : ∃ d, s.decl access = some d ∧ d.kind ≠ .junction)
    (hn : (s.transfer.pads.filter fun e => decide (e.2.access = access)).length < 3)
    (hx : ∀ y, x = .anchored y → y ≤ 63 ∧ s.placement y = .unplaced) (hu : (s.pad p).state = .undeclared) :
    firstFailing (s.declarePadTests p access guard x) = none := by
  obtain ⟨d, hd, hk⟩ := hd
  have htel : (targetTelescope x).all (fun y => decide (y ≤ 63)) = true := targetTelescope_all fun y hy => decide_eq_true (hx y hy).1
  have hfree : s.isFree (targetTelescope x) = true := isFree_target.2 fun y hy => (hx y hy).2
  rw [firstFailing_none]
  unfold State.declarePadTests
  simp only [List.forall_mem_cons, htel, hfree, hd]
  simp [hp, hg, hk, hn, State.padDeclared, hu]

/-- Settles O37: the owner decides the request by the seven tests; a pad declared is claimed by no order, and the work that follows leaves it. -/
theorem declarePadTakesTheRecord : Obligations.DeclarePadTakesTheRecord := by
  intro h p access guard x s hs hm hl
  have hlay : s.layoutRefuses (.declarePad p access guard x) = false := by show (!s.layout.closed) = false; rw [hl]; rfl
  refine ⟨fun hp hg hd hn hx hu => ?_, fun k hw hk => ?_⟩
  · obtain ⟨t, ht, hpad, hplace, hcalm⟩ := exec_putPad (c := .declarePad h p access guard x) rfl hs hm rfl hlay rfl
      (takeDeclarePad_passed _ (declarePadTests_pass hp hg hd hn hx hu))
    obtain ⟨hacc, hgrd, -, -⟩ := targetRec_fields { PadRec.undeclared with access := access, guard := guard } x
    refine ⟨t, _, ht, rfl, by rw [hpad, hacc], by rw [hpad, hgrd], fun e => ?_, fun e => ?_, fun y e => ?_, hcalm⟩
    · rw [hpad, e]; rfl
    · rw [hpad, e]; rfl
    · rw [hpad, hplace, e]
      exact ⟨rfl, rfl, putPad_placement_anchored _ _ _ _⟩
  · exact exec_answer_maintenance rfl hs hw hm rfl hlay (takeDeclarePad_failed _ hk)

/-! ### `bar-pad` and `unbar-pad` -/

theorem takeBarPad_vacant {s : State} (q : Ask) {p : Nat} (hp : p ≤ 191) (hv : (s.pad p).state = .vacant) (hc : (s.pad p).claim = none) :
    s.takeBarPad q p = (s.setPad p { s.pad p with state := .barred }).answer q .done .empty := by
  unfold State.takeBarPad
  rw [if_neg (Nat.not_lt.2 hp), if_pos ⟨hv, hc⟩]

theorem takeBarPad_refused {s : State} (q : Ask) {p : Nat} (hp : p ≤ 191) (h : (s.pad p).state ≠ .vacant ∨ (s.pad p).claim ≠ none) :
    s.takeBarPad q p = s.answer q .refusedState .empty := by
  unfold State.takeBarPad
  rw [if_neg (Nat.not_lt.2 hp), if_neg fun e => h.elim (fun hn => hn e.1) (fun hn => hn e.2)]

theorem takeUnbarPad_barred {s : State} (q : Ask) {p : Nat} (hp : p ≤ 191) (hb : (s.pad p).state = .barred) :
    s.takeUnbarPad q p = (s.setPad p { s.pad p with state := .vacant }).answer q .done .empty := by
  unfold State.takeUnbarPad
  rw [if_neg (Nat.not_lt.2 hp), if_pos hb]

theorem takeUnbarPad_refused {s : State} (q : Ask) {p : Nat} (hp : p ≤ 191) (h : (s.pad p).state ≠ .barred) :
    s.takeUnbarPad q p = s.answer q .refusedState .empty := by
  unfold State.takeUnbarPad
  rw [if_neg (Nat.not_lt.2 hp), if_neg h]

/-- A request of the desk about a pad that writes the pad's record, unclaimed and not SEATED, leaves it so. -/
theorem exec_setPad {c : Instr} {h : Header} {r : Request} {s : State} {p : Nat} {rec : PadRec} {o : Outcome} {b : Body}
    (hc : c.request? = some (h, r)) (hs : s.Ready) (hwho : h.originator ≠ .scheduler) (hallow : s.allows h.originator .pad p = true)
    (hcl : classOf r = .desk) (hob : entryObject r = some (.pad, p)) (hlay : s.layoutRefuses r = false) (hclaim : rec.claim = none)
    (hseat : rec.state ≠ .seated) (he : s.owner ⟨h.tag, codeOf r⟩ h.originator r = (s.setPad p rec).answer ⟨h.tag, codeOf r⟩ o b) :
    ∃ t, exec c s = .next t ∧ t.pad p = rec ∧ Calm ((s.setPad p rec).answered h r o b) t := by
  obtain ⟨t, ht, hcalm⟩ := exec_edit hc hs (by rw [hcl]; exact classAllows_desk hwho) (by rw [hob]; exact entry_allowed hallow) hlay he
    (noReport_of_empty hs.agenda) rfl rfl rfl
  have hpad : ((s.setPad p rec).answered h r o b).pad p = rec := setPad_pad_same s p rec
  exact ⟨t, ht, (calm_pad hcalm (by rw [hpad]; exact hclaim) (by rw [hpad]; exact hseat)).trans hpad, hcalm⟩

/-- A BARRED pad is neither ANCHORED nor VACANT, so that the finish test fails for both finishes (R69, R108). -/
theorem finishRefusal_barred {s : State} {p : Nat} (hb : (s.pad p).state = .barred) (kind : OrderKind) (route : List RoutePos) :
    s.finishRefusal kind (.lift p) route ≠ none ∧ s.finishRefusal kind (.setDown p) route ≠ none := by
  cases kind <;> simp [State.finishRefusal, State.padDeclared, hb]

/-- Settles O38: the stages of R189 and the tests of R108, each an answer alone but for the two writes, which the work that follows leaves. -/
theorem barAndUnbarPad : Obligations.BarAndUnbarPad := by
  intro h p s hs
  refine ⟨fun hwho hallow hp => ⟨fun hv hc => ?_, fun hb hc => ?_, fun hw hn => ?_, fun hw hn => ?_⟩, fun hw hwho hallow hp => ⟨?_, ?_⟩,
    fun hw hwho => ⟨?_, ?_⟩, fun hw hwho hallow => ⟨?_, ?_⟩, fun hb kind route => finishRefusal_barred hb kind route⟩
  · exact exec_setPad (c := .barPad h p) rfl hs hwho hallow rfl rfl rfl hc (by simp) (takeBarPad_vacant _ hp hv hc)
  · exact exec_setPad (c := .unbarPad h p) rfl hs hwho hallow rfl rfl rfl hc (by simp) (takeUnbarPad_barred _ hp hb)
  · exact exec_answer_pad rfl hs hw hwho hallow rfl rfl rfl (takeBarPad_refused _ hp hn)
  · exact exec_answer_pad rfl hs hw hwho hallow rfl rfl rfl (takeUnbarPad_refused _ hp hn)
  · exact exec_answer_pad rfl hs hw hwho hallow rfl rfl rfl (if_pos hp)
  · exact exec_answer_pad rfl hs hw hwho hallow rfl rfl rfl (if_pos hp)
  · exact exec_decided rfl hs hw (classDenied (classAllows_false (.inr ⟨rfl, hwho⟩)))
  · exact exec_decided rfl hs hw (classDenied (classAllows_false (.inr ⟨rfl, hwho⟩)))
  · exact exec_decided rfl hs hw (objectDenied (classAllows_desk hwho) rfl hallow)
  · exact exec_decided rfl hs hw (objectDenied (classAllows_desk hwho) rfl hallow)

/-! ### `settle-pad` -/

theorem targetTelescope_any {x : PadTarget} : (targetTelescope x).any (fun y => decide (63 < y)) = true ↔ ¬∀ y, x = .anchored y → y ≤ 63 := by
  cases x with
  | vacant => simp [targetTelescope]
  | barred => simp [targetTelescope]
  | anchored y => simp [targetTelescope]

theorem takeSettlePad_range {s : State} (q : Ask) {p : Nat} {x : PadTarget} (h : ¬(p ≤ 191 ∧ ∀ y, x = .anchored y → y ≤ 63)) :
    s.takeSettlePad q p x = s.answer q .refusedRange .empty := by
  refine if_pos ?_
  rw [targetTelescope_any, ← Nat.not_le]
  exact not_and_or.1 h

/-- In range, `settle-pad` is decided by the pad's state and then by the telescope's placement. -/
theorem takeSettlePad_inRange {s : State} (q : Ask) {p : Nat} {x : PadTarget} (h : p ≤ 191 ∧ ∀ y, x = .anchored y → y ≤ 63) :
    s.takeSettlePad q p x = if (s.pad p).state ≠ .unsettled then s.answer q .refusedState .empty
      else if !s.isFree (targetTelescope x) then s.answer q .refusedState .empty else (s.putPad p (s.pad p) x).answer q .done .empty := by
  refine if_neg ?_
  rw [targetTelescope_any, ← Nat.not_le, ← not_and_or, not_not]
  exact h

theorem takeSettlePad_unsettled {s : State} (q : Ask) {p : Nat} {x : PadTarget} (h : p ≤ 191 ∧ ∀ y, x = .anchored y → y ≤ 63)
    (hst : (s.pad p).state = .unsettled) (hx : ∀ y, x = .anchored y → s.placement y = .unplaced) :
    s.takeSettlePad q p x = (s.putPad p (s.pad p) x).answer q .done .empty := by
  rw [takeSettlePad_inRange _ h, if_neg (not_not_intro hst), isFree_target.2 hx]
  rfl

theorem takeSettlePad_refused {s : State} (q : Ask) {p : Nat} {x : PadTarget} (h : p ≤ 191 ∧ ∀ y, x = .anchored y → y ≤ 63)
    (hn : (s.pad p).state ≠ .unsettled ∨ ∃ y, x = .anchored y ∧ s.placement y ≠ .unplaced) :
    s.takeSettlePad q p x = s.answer q .refusedState .empty := by
  rw [takeSettlePad_inRange _ h]
  by_cases hst : (s.pad p).state = .unsettled
  · obtain ⟨y, hy, hpl⟩ := hn.resolve_left (not_not_intro hst)
    have hfree : s.isFree (targetTelescope x) = false := Bool.eq_false_iff.2 fun e => hpl (isFree_target.1 e y hy)
    rw [if_neg (not_not_intro hst), hfree]
    rfl
  · exact if_pos hst

/-- Settles O39: the tests of R109 in their order; the pad settled is claimed by no order, and the work that follows leaves it. -/
theorem settlePadTakesTheTarget : Obligations.SettlePadTakesTheTarget := by
  intro h p x s hs ranges
  refine ⟨fun hm hr hst hc hx => ?_, fun hw hm hr => ?_, fun hw hm hr hn => ?_, fun hw hm => ?_⟩
  · obtain ⟨t, ht, hpad, hplace, hcalm⟩ := exec_putPad (c := .settlePad h p x) rfl hs hm rfl rfl hc (takeSettlePad_unsettled _ hr hst hx)
    refine ⟨t, ht, fun e => ?_, fun e => ?_, fun y e => ?_, fun y e => ?_, hcalm⟩
    · rw [hpad, e]; rfl
    · rw [hpad, e]; rfl
    · rw [hpad, hplace, e]
      exact ⟨rfl, putPad_placement_anchored _ _ _ _⟩
    · rw [hplace, putPad_placement_other s p _ e]
  · exact exec_answer_maintenance rfl hs hw hm rfl rfl (takeSettlePad_range _ hr)
  · exact exec_answer_maintenance rfl hs hw hm rfl rfl (takeSettlePad_refused _ hr hn)
  · exact exec_decided rfl hs hw (classDenied (classAllows_false (.inl ⟨rfl, hm⟩)))

/-! ### `settle-load` -/

/-- The load that a target names (R110). -/
def targetLoad : LoadTarget → Load
  | .none => .none
  | .telescope y => .telescope y

theorem takeUpLoad_load (s : State) (i : Nat) (x : LoadTarget) (m : Nat) :
    (s.takeUpLoad i x).load m = if m = i then some (targetLoad x) else s.load m := by
  cases x with
  | none => exact setLoad_load s i _ m
  | telescope y =>
    refine (setLoad_load _ i _ m).trans ?_
    unfold State.load
    rw [(placeTelescope_same s y (.onTransporter i)).1]
    rfl

theorem takeUpLoad_placement (s : State) (i y : Nat) : (s.takeUpLoad i (.telescope y)).placement y = .onTransporter i :=
  (placeTelescope_placement s y _ y).trans (if_pos rfl)

theorem takeUpLoad_same (s : State) (i : Nat) (x : LoadTarget) :
    (s.takeUpLoad i x).port = s.port ∧ (s.takeUpLoad i x).agenda = s.agenda ++ [.recompute i] ∧ (s.takeUpLoad i x).late = s.late ∧
      (s.takeUpLoad i x).pending = s.pending := by
  cases x <;> exact ⟨rfl, rfl, rfl, rfl⟩

theorem loadTelescope_any {x : LoadTarget} : (loadTelescope x).any (fun y => decide (63 < y)) = true ↔ ¬∀ y, x = .telescope y → y ≤ 63 := by
  cases x with
  | none => simp [loadTelescope]
  | telescope y => simp [loadTelescope]

theorem isFree_load {s : State} {x : LoadTarget} : s.isFree (loadTelescope x) = true ↔ ∀ y, x = .telescope y → s.placement y = .unplaced := by
  cases x with
  | none => simp [loadTelescope, State.isFree]
  | telescope y => simp [loadTelescope, State.isFree]

theorem takeSettleLoad_range {s : State} (q : Ask) {i : Nat} {x : LoadTarget} (h : ¬(i ≤ 3 ∧ ∀ y, x = .telescope y → y ≤ 63)) :
    s.takeSettleLoad q i x = s.answer q .refusedRange .empty := by
  refine if_pos ?_
  rw [loadTelescope_any, ← Nat.not_le]
  exact not_and_or.1 h

/-- In range, `settle-load` is decided by the transporter's load and then by the telescope's placement. -/
theorem takeSettleLoad_inRange {s : State} (q : Ask) {i : Nat} {x : LoadTarget} (h : i ≤ 3 ∧ ∀ y, x = .telescope y → y ≤ 63) :
    s.takeSettleLoad q i x = if s.enrolled i = false ∨ s.load i ≠ some .unverified then s.answer q .refusedState .empty
      else if !s.isFree (loadTelescope x) then s.answer q .refusedState .empty else (s.takeUpLoad i x).answer q .done .empty := by
  refine if_neg ?_
  rw [loadTelescope_any, ← Nat.not_le, ← not_and_or, not_not]
  exact h

theorem takeSettleLoad_unverified {s : State} (q : Ask) {i : Nat} {x : LoadTarget} (h : i ≤ 3 ∧ ∀ y, x = .telescope y → y ≤ 63)
    (hi : s.enrolled i = true) (hu : s.load i = some .unverified) (hx : ∀ y, x = .telescope y → s.placement y = .unplaced) :
    s.takeSettleLoad q i x = (s.takeUpLoad i x).answer q .done .empty := by
  rw [takeSettleLoad_inRange _ h, if_neg (by simp [hi, hu]), isFree_load.2 hx]
  rfl

theorem takeSettleLoad_refused {s : State} (q : Ask) {i : Nat} {x : LoadTarget} (h : i ≤ 3 ∧ ∀ y, x = .telescope y → y ≤ 63)
    (hn : s.enrolled i = false ∨ s.load i ≠ some .unverified ∨ ∃ y, x = .telescope y ∧ s.placement y ≠ .unplaced) :
    s.takeSettleLoad q i x = s.answer q .refusedState .empty := by
  rw [takeSettleLoad_inRange _ h]
  by_cases hst : s.enrolled i = false ∨ s.load i ≠ some .unverified
  · exact if_pos hst
  · obtain ⟨y, hy, hpl⟩ := (or_assoc.2 hn).resolve_left hst
    have hfree : s.isFree (loadTelescope x) = false := Bool.eq_false_iff.2 fun e => hpl (isFree_load.1 e y hy)
    rw [if_neg hst, hfree]
    rfl

/-- Settles O40: the tests of R110 in their order; a load taken up is an event of R37, and the work that follows leaves the loads and the
telescopes. -/
theorem settleLoadTakesTheTarget : Obligations.SettleLoadTakesTheTarget := by
  intro h i x s hs hm ranges
  refine ⟨fun hr hi hu hx => ?_, fun hw hr => ?_, fun hw hr hn => ?_⟩
  · obtain ⟨hport, hag, hlate, hpend⟩ := takeUpLoad_same s i x
    have hnoReport : noReport (s.takeUpLoad i x) := by
      intro y hy
      rw [hag, hs.agenda] at hy
      cases List.mem_singleton.1 hy
      rfl
    obtain ⟨t, ht, hcalm⟩ := exec_edit (c := .settleLoad h i x) rfl hs (decide_eq_true hm) rfl rfl
      (takeSettleLoad_unverified _ hr hi hu hx) hnoReport (congrArg ControlPort.answers hport) hlate hpend
    have hload (m : Nat) : t.load m = if m = i then some (targetLoad x) else s.load m := (calm_load hcalm m).trans (takeUpLoad_load s i x m)
    refine ⟨t, ht, fun e => ?_, fun y e => ?_, fun m hmi => (hload m).trans (if_neg hmi), hcalm⟩
    · subst e
      exact ⟨(hload i).trans (if_pos rfl), hcalm.telescopes⟩
    · subst e
      exact ⟨(hload i).trans (if_pos rfl), (calm_placement hcalm y).trans (takeUpLoad_placement s i y)⟩
  · exact exec_answer_maintenance rfl hs hw hm rfl rfl (takeSettleLoad_range _ hr)
  · exact exec_answer_maintenance rfl hs hw hm rfl rfl (takeSettleLoad_refused _ hr hn)

/-! ### `recouple-pad` -/

/-- A SEATED pad's record when `recouple-pad` begins its coupling again (R124). -/
def recoupledRec (r : PadRec) : PadRec := { r with coupling := .queued, couplingTimer := .stopped }

theorem takeRecouplePad_seated {s : State} (q : Ask) {p : Nat} (hp : p ≤ 191) (hst : (s.pad p).state = .seated)
    (hroom : p ∈ s.couplingSet ∨ s.couplingSet.length < 8) :
    s.takeRecouplePad q p = ((s.setPad p (recoupledRec (s.pad p))).handOut (.couple p)).answer q .done .empty := by
  have room : ¬(p ∉ s.couplingSet ∧ 8 ≤ s.couplingSet.length) := fun e => hroom.elim e.1 (Nat.not_lt.2 e.2)
  unfold State.takeRecouplePad
  rw [if_neg (Nat.not_lt.2 hp), if_neg (not_not_intro hst), if_neg room]
  rfl

theorem takeRecouplePad_refused {s : State} (q : Ask) {p : Nat} (hp : p ≤ 191)
    (h : (s.pad p).state ≠ .seated ∨ (p ∉ s.couplingSet ∧ 8 ≤ s.couplingSet.length)) :
    s.takeRecouplePad q p = s.answer q .refusedState .empty := by
  unfold State.takeRecouplePad
  rw [if_neg (Nat.not_lt.2 hp)]
  by_cases hst : (s.pad p).state = .seated
  · rw [if_neg (not_not_intro hst), if_pos (h.resolve_left (not_not_intro hst))]
  · exact if_pos hst

/-- A coupling begun again leaves the blocks nothing to do: its pad joins the coupling set or stays in it. -/
theorem settled_recoupled {s : State} (hw : s.Settled) (hc : s.canonical) {p : Nat} (hst : (s.pad p).state = .seated) :
    (s.setPad p (recoupledRec (s.pad p))).Settled := by
  refine settled_setPad hw hc p _ (fun e => ?_) fun _ => .inr ⟨hst, by simp [recoupledRec]⟩
  cases (congrArg PadRec.coupling e : Coupling.queued = Coupling.none)

/-- Settles O41: the edit is the pad's record and the COUPLE handed out; a commit may make the coupling SENT, and a busy transmitter commits
nothing. -/
theorem recouplePadHandsOutACouple : Obligations.RecouplePadHandsOutACouple := by
  intro h p s hs hwho hallow
  refine ⟨fun hp hst hc hroom => ?_, fun m hp hst hroom hw hcan hm => ?_, fun hw hp hn => ?_, fun hw hp => ?_⟩
  · have hhanded : Calm (s.setPad p (recoupledRec (s.pad p))) ((s.setPad p (recoupledRec (s.pad p))).handOut (.couple p)) := calm_handOut _ _
    obtain ⟨t, ht, hcalm⟩ := exec_edit (c := .recouplePad h p) rfl hs (classAllows_desk hwho) (entry_allowed hallow) rfl
      (takeRecouplePad_seated _ hp hst hroom) (noReport_of_kept hhanded.toKept hs.agenda) hhanded.answers hhanded.late hhanded.pending
    have hpad : (s.setPad p (recoupledRec (s.pad p))).pad p = recoupledRec (s.pad p) := setPad_pad_same s p _
    refine ⟨t, ht, ?_, hcalm⟩
    have hstep := (hhanded.padsCalm p).trans (hcalm.padsCalm p)
    rw [hpad] at hstep
    exact (hstep hc).imp_right fun ⟨_, x, hx⟩ => ⟨x, hx⟩
  · have hhanded : (s.setPad p (recoupledRec (s.pad p))).handOut (.couple p)
        = (s.setPad p (recoupledRec (s.pad p))).setOutQueue (placeOut s.wayside.outQueue (.couple p)) :=
      handOut_sending (s := s.setPad p _) hm _
    have howner := takeRecouplePad_seated ⟨h.tag, codeOf (.recouplePad p)⟩ hp hst hroom
    rw [hhanded] at howner
    have hdecided := (decideValid_owner (r := .recouplePad p) (classAllows_desk hwho) (entry_allowed hallow) rfl).trans
      (howner.trans (answer_ready hs (by rfl) h (.recouplePad p) _ _))
    rw [exec_request (c := .recouplePad h p) rfl, submit_settled hs h _ hdecided
      (settled_answered (settled_wayside (settled_recoupled hw hcan hst) _) _) hs.late rfl]
    rfl
  · exact exec_answer_pad rfl hs hw hwho hallow rfl rfl rfl (takeRecouplePad_refused _ hp hn)
  · exact exec_answer_pad rfl hs hw hwho hallow rfl rfl rfl (if_pos hp)

end Sys2Proof.Proofs
end

section
/-!
SUPPORT. The events of pad stations at a pad without a transfer (R125, O42), and a coupling that is reported, given up or timed out (R122, R123).
-/

namespace Sys2Proof.Proofs

open Sys2Proof Sys2Proof.Machine Sys2Proof.Laws

/-! ### What R125's table says of an event -/

/-- The events outside a transfer that R125's table calls a fault and that leave the pad's record. -/
def FaultyEvent (r : PadRec) (v : PadEventValue) : Prop :=
  ((r.state = .vacant ∨ r.state = .inbound) ∧ (v = .coupled ∨ v = .loadSensed ∨ v = .fault)) ∨
    (r.state = .anchored ∧ (v = .uncoupled ∨ v = .loadClear ∨ v = .fault)) ∨
    (r.state = .seated ∧ (v = .loadClear ∨ (v = .fault ∧ r.coupling = .none))) ∨ (r.state = .barred ∧ v = .fault) ∨ r.state = .unsettled

/-- The events outside a transfer that R125's table calls absorbed. -/
def AbsorbedEvent (r : PadRec) (v : PadEventValue) : Prop :=
  ((r.state = .vacant ∨ r.state = .inbound) ∧ (v = .uncoupled ∨ v = .loadClear)) ∨
    (r.state = .anchored ∧ (v = .coupled ∨ v = .loadSensed)) ∨ (r.state = .seated ∧ (v = .uncoupled ∨ v = .loadSensed)) ∨
    (r.state = .barred ∧ v ≠ .fault)

theorem idlePadEvent_faulty {s : State} {p : Nat} {v : PadEventValue} (h : FaultyEvent (s.pad p) v) : s.idlePadEvent p v = s.raise .padFault p := by
  unfold State.idlePadEvent
  rcases h with ⟨hs | hs, rfl | rfl | rfl⟩ | ⟨hs, rfl | rfl | rfl⟩ | ⟨hs, rfl | ⟨rfl, hc⟩⟩ | ⟨hs, rfl⟩ | hs
  case inr.inr.inl.inr => simp only [hs, hc, if_true]
  all_goals rw [hs]

theorem idlePadEvent_absorbed {s : State} {p : Nat} {v : PadEventValue} (h : AbsorbedEvent (s.pad p) v) : s.idlePadEvent p v = s := by
  unfold State.idlePadEvent
  rcases h with ⟨hs | hs, rfl | rfl⟩ | ⟨hs, rfl | rfl⟩ | ⟨hs, rfl | rfl⟩ | ⟨hs, hv⟩
  case inr.inr.inr =>
    cases v with
    | fault => exact absurd rfl hv
    | _ => rw [hs]
  all_goals rw [hs]

theorem idlePadEvent_coupled {s : State} {p : Nat} (h : (s.pad p).state = .seated) : s.idlePadEvent p .coupled = s.coupled p := by
  unfold State.idlePadEvent
  rw [h]

theorem idlePadEvent_fault {s : State} {p : Nat} (h : (s.pad p).state = .seated) (hc : (s.pad p).coupling ≠ .none) :
    s.idlePadEvent p .fault = s.giveUpCoupling p := by
  unfold State.idlePadEvent
  rw [h]
  exact if_neg hc

/-! ### The event taken from the in-queue -/

theorem exec_padEvent (s : State) : exec .padEvent s = .next (runEvent State.headPadEvent s) := rfl

/-- A PAD-EVENT at the head of the in-queue, at a pad without a transfer. -/
theorem headPadEvent_idle {s : State} {p : Nat} {v : PadEventValue} {rest : List InMessage} (hq : s.wayside.inQueue = .padEvent p v :: rest)
    (hx : s.transferAt p = none) : s.headPadEvent = (s.setInQueue rest).idlePadEvent p v := by
  rw [padEvent_run hq]
  unfold State.takePadEvent
  rw [show (s.setInQueue rest).transferAt p = none from hx]

/-- A PAD-EVENT that leaves the blocks settled. -/
theorem padEvent_settled {s t : State} (he : s.headPadEvent = t) (ht : t.Settled) (hp : t.pending = s.pending) :
    exec .padEvent s = .next t.decideAttention := by
  rw [exec_padEvent, event_settled _ he ht hp]

theorem settled_setInQueue {s : State} (h : s.Settled) (q : List InMessage) : (s.setInQueue q).Settled := settled_wayside h _

theorem settled_raise {s : State} (h : s.Settled) (k : NoticeKind) (n : Nat) : (s.raise k n).Settled :=
  settled_same h rfl rfl rfl rfl rfl rfl rfl rfl

/-! ### A coupling reported or given up -/

/-- A SEATED pad's record when it is reported COUPLED (R122). -/
def coupledRec (r : PadRec) : PadRec := { r with state := .anchored, coupling := .none, couplingTimer := .stopped }

/-- A SEATED pad's record when its coupling is given up (R123). -/
def uncoupledRec (r : PadRec) : PadRec := { r with coupling := .none, couplingTimer := .stopped }

theorem coupled_calm (s : State) (p : Nat) : Calm (s.setPad p (coupledRec (s.pad p))) (s.coupled p) := calm_takeBackCouple _ p

theorem giveUpCoupling_calm (s : State) (p : Nat) : Calm (s.setPad p (uncoupledRec (s.pad p))) (s.giveUpCoupling p) :=
  (calm_raise _ .padFault p).trans (calm_takeBackCouple _ p)

theorem giveUpCoupling_notice (s : State) (p : Nat) : ⟨.padFault, p⟩ ∈ (s.giveUpCoupling p).port.notices := mem_raise s _ _

/-- What a PAD-EVENT leaves whose edit is a pad's record, calm work beside it: the loads, the telescopes, the rest of the in-queue, the hold and the
frame. -/
theorem padWritten_frame {s t : State} {rest : List InMessage} {p : Nat} {r : PadRec} (h : Calm ((s.setInQueue rest).setPad p r) t)
    (hr : padShape r = padShape (s.pad p)) (hd : r.state ≠ .undeclared) (hc : r.claim = none) :
    t.transfer.loads = s.transfer.loads ∧ t.transfer.telescopes = s.transfer.telescopes ∧ t.wayside.inQueue = rest ∧
      t.guards.hold = s.guards.hold ∧ Frame s t := by
  have hset : Kept (s.setInQueue rest) ((s.setInQueue rest).setPad p r) :=
    kept_setPad _ p hr (fun _ => hd) fun k hk => by rw [hc] at hk; cases hk
  exact ⟨h.loads, h.telescopes, h.inQueue, h.hold, (frame_setInQueue s rest).trans (hset.frame.trans h.frame)⟩

/-- Where no order is ARRIVED, no write beside the junctions, the track and the orders gives the blocks anything to do. -/
theorem settled_unarrived {s t : State} (h : s.Settled) (hn : ∀ k o, s.order k = some o → o.state ≠ .arrived) (hj : t.junctions = s.junctions)
    (hg : t.core = s.core) (ho : t.orders = s.orders) (ha : t.agenda = s.agenda) (hd : t.due = s.due) : t.Settled where
  agenda := ha.trans h.agenda
  due := hd.trans h.due
  transfers := by
    rw [List.find?_eq_none]
    intro k _ hk
    obtain ⟨o, hko, hst⟩ := mayTransfer_arrived hk
    refine hn k o ?_ hst
    unfold State.order at hko ⊢
    rwa [ho] at hko
  rotation := by
    have hnext : t.rotationNext = s.rotationNext := by
      unfold State.rotationNext State.rotationEligible State.junction State.seg
      rw [hj, hg]
    rw [hj, hnext]
    exact h.rotation

theorem settled_giveUpCoupling {s : State} (h : s.Settled) (hn : ∀ k o, s.order k = some o → o.state ≠ .arrived) (p : Nat) :
    (s.giveUpCoupling p).Settled := settled_unarrived h hn rfl rfl rfl rfl rfl

/-- Settles O42: the table of R125 read off state by state; a coupling reported or given up is the write of the pad's record and calm work. -/
theorem padEventOutsideATransfer : Obligations.PadEventOutsideATransfer := by
  intro s p v rest hq hx
  have hhead : s.headPadEvent = (s.setInQueue rest).idlePadEvent p v := headPadEvent_idle hq hx
  refine ⟨fun hw hf => ?_, fun hw ha => ?_, fun ha hst hc hv => ?_, fun ha hst hc hv hcp => ?_, fun hst hv hcp => ⟨?_, fun hw _ hn => ?_⟩⟩
  · exact padEvent_settled (hhead.trans (idlePadEvent_faulty hf)) (settled_raise (settled_setInQueue hw rest) _ _) rfl
  · exact padEvent_settled (hhead.trans (idlePadEvent_absorbed ha)) (settled_setInQueue hw rest) rfl
  · subst hv
    have hcalm : Calm ((s.setInQueue rest).setPad p (coupledRec (s.pad p))) (runEvent State.headPadEvent s) :=
      (coupled_calm (s.setInQueue rest) p).trans (event_calm _ (hhead.trans (idlePadEvent_coupled hst)) rfl (noReport_of_empty ha))
    have hpad : ((s.setInQueue rest).setPad p (coupledRec (s.pad p))).pad p = coupledRec (s.pad p) := setPad_pad_same _ p _
    refine ⟨_, rfl, (calm_pad hcalm (by rw [hpad]; exact hc) (by rw [hpad]; simp [coupledRec])).trans hpad, ?_⟩
    exact padWritten_frame hcalm rfl (by simp [coupledRec]) hc
  · subst hv
    have hact := hhead.trans (idlePadEvent_fault hst hcp)
    have hwork := event_calm State.headPadEvent hact rfl (noReport_of_empty ha)
    have hcalm : Calm ((s.setInQueue rest).setPad p (uncoupledRec (s.pad p))) (runEvent State.headPadEvent s) :=
      (giveUpCoupling_calm (s.setInQueue rest) p).trans hwork
    have hpad : ((s.setInQueue rest).setPad p (uncoupledRec (s.pad p))).pad p = uncoupledRec (s.pad p) := setPad_pad_same _ p _
    have hleft := hcalm.padsCalm p
    rw [hpad] at hleft
    have hnotice := hwork.notices _ (giveUpCoupling_notice _ p)
    refine ⟨_, rfl, ?_, ?_, hnotice, padWritten_frame hcalm rfl (by simp [uncoupledRec, hst]) hc⟩
    · rcases hleft hc with e | ⟨-, y, e⟩ <;> rw [e] <;> exact hst
    · rcases hleft hc with e | ⟨-, y, e⟩ <;> rw [e] <;> rfl
  · subst hv
    rw [exec_padEvent]
    unfold runEvent
    rw [hhead.trans (idlePadEvent_fault hst hcp)]
    rfl
  · subst hv
    exact padEvent_settled (hhead.trans (idlePadEvent_fault hst hcp)) (settled_giveUpCoupling (settled_setInQueue hw rest) hn p) rfl

end Sys2Proof.Proofs
end

section
/-!
SUPPORT. The load event of a report (R114, R116, R117, R119, R126, O44): what confirms a transfer, what fails it, and what is stray.
-/

namespace Sys2Proof.Proofs

open Sys2Proof Sys2Proof.Machine Sys2Proof.Laws

/-! ### A transfer whose transporter is heard -/

/-- A transfer's record once its transporter has been heard (R115). -/
def heardTransfer (x : TransferRec) : TransferRec := { x with transporterHeard := true }

/-- The state in which the transporter's confirmation of a transfer is put in (R116, R117). -/
def transporterIn (s : State) (p : Nat) (x : TransferRec) : State :=
  (s.setTransfer p (some (heardTransfer x))).setPad p { s.pad p with confTransporter := true }

theorem completeIfConfirmed_waiting {s : State} {p : Nat} (x : TransferRec) (h : (s.pad p).confTransporter = false ∨ (s.pad p).confStation = false) :
    s.completeIfConfirmed p x = s := by
  unfold State.completeIfConfirmed
  rcases h with h | h <;> simp [h]

theorem completeIfConfirmed_lift {s : State} {p : Nat} {x : TransferRec} (ht : (s.pad p).confTransporter = true) (hs : (s.pad p).confStation = true)
    (hk : x.kind = .lift) : s.completeIfConfirmed p x = s.completeLift p x := by
  unfold State.completeIfConfirmed
  rw [ht, hs, hk]
  rfl

theorem completeIfConfirmed_setDown {s : State} {p : Nat} {x : TransferRec} (ht : (s.pad p).confTransporter = true)
    (hs : (s.pad p).confStation = true) (hk : x.kind = .setDown) : s.completeIfConfirmed p x = s.completeSetDown p x := by
  unfold State.completeIfConfirmed
  rw [ht, hs, hk]
  rfl

theorem transporterIn_pad (s : State) (p : Nat) (x : TransferRec) : (transporterIn s p x).pad p = { s.pad p with confTransporter := true } :=
  setPad_pad_same _ p _

/-! ### A load event without a transfer -/

theorem loadAgrees_iff {e : LoadEvent} (he : e ≠ .none) (l : Option Load) :
    loadAgrees e l = true ↔ (∃ y, e = .loaded y ∧ l = some (.telescope y)) ∨ (e = .set ∧ l = some .none) := by
  cases e with
  | none => exact absurd rfl he
  | loaded y => rcases l with - | (- | z | -) <;> simp [loadAgrees, eq_comm]
  | set => rcases l with - | (- | z | -) <;> simp [loadAgrees]

theorem takeLoadEvent_none {s : State} {r : Report} (h : r.load = .none) : s.takeLoadEvent r = s := if_pos h

theorem takeLoadEvent_idle {s : State} {r : Report} (hl : r.load ≠ .none) (hx : s.transferOf r.transporter = none) :
    s.takeLoadEvent r = if loadAgrees r.load (s.load r.transporter) then s else s.strayLoadEvent r.transporter := by
  unfold State.takeLoadEvent
  rw [if_neg hl, hx]

/-- The telescope that a load names. -/
def carried : Option Load → Option Nat
  | some (.telescope y) => some y
  | _ => none

theorem carried_iff (l : Option Load) (y : Nat) : carried l = some y ↔ l = some (.telescope y) := by
  rcases l with - | (- | z | -) <;> simp [carried]

/-- The state in which a stray load event has left the load UNVERIFIED and the telescope carried UNPLACED (R126). -/
def strayed (s : State) (i : Nat) : State :=
  ((carried (s.load i)).elim s fun y => s.placeTelescope y .unplaced).changeLoad i .unverified

theorem strayed_same (s : State) (i : Nat) : (strayed s i).transfer.pads = s.transfer.pads ∧ (strayed s i).orders = s.orders ∧
    (strayed s i).transfer.transfers = s.transfer.transfers ∧ (strayed s i).port = s.port := by
  unfold strayed
  cases carried (s.load i) <;> exact ⟨rfl, rfl, rfl, rfl⟩

theorem strayed_load (s : State) (i m : Nat) : (strayed s i).load m = if m = i then some .unverified else s.load m := by
  unfold strayed
  cases carried (s.load i) <;> exact setLoad_load _ i _ m

theorem strayed_placement (s : State) (i y : Nat) :
    (strayed s i).placement y = if s.load i = some (.telescope y) then .unplaced else s.placement y := by
  rw [← if_congr (carried_iff (s.load i) y) rfl rfl]
  unfold strayed
  cases carried (s.load i) with
  | none => rfl
  | some z =>
    refine (placeTelescope_placement s z .unplaced y).trans ?_
    exact if_congr ⟨fun e => e ▸ rfl, fun e => (Option.some.inj e).symm⟩ rfl rfl

/-- A stray load event, by the INBOUND pad that a live order of the transporter claims (R126). -/
theorem strayLoadEvent_eq (s : State) (i : Nat) :
    s.strayLoadEvent i = (s.inboundClaim i).elim (strayed s i) fun q =>
      ((strayed s i).setPad q ((s.pad q).unsettledWith (s.pad q).expected)).raise .padFault q := by
  have hclaim : (strayed s i).inboundClaim i = s.inboundClaim i := by
    obtain ⟨hpads, hord, -, -⟩ := strayed_same s i
    unfold State.inboundClaim State.order
    rw [hpads, hord]
  have hpad (q : Nat) : (strayed s i).pad q = s.pad q := by unfold State.pad; rw [(strayed_same s i).1]
  have hdef : s.strayLoadEvent i = ((strayed s i).inboundClaim i).elim (strayed s i) fun q =>
      ((strayed s i).setPad q (((strayed s i).pad q).unsettledWith ((strayed s i).pad q).expected)).raise .padFault q := by
    unfold State.strayLoadEvent strayed
    rcases s.load i with - | (- | z | -) <;> dsimp only [carried, Option.elim_none, Option.elim_some] <;> split <;> next h => rw [h]; rfl
  rw [hdef, hclaim]
  simp only [hpad]

theorem strayLoadEvent_unclaimed {s : State} {i : Nat} (h : s.inboundClaim i = none) : s.strayLoadEvent i = strayed s i := by
  rw [strayLoadEvent_eq, h]
  rfl

theorem strayLoadEvent_claimed {s : State} {i q : Nat} (h : s.inboundClaim i = some q) :
    s.strayLoadEvent i = ((strayed s i).setPad q ((s.pad q).unsettledWith (s.pad q).expected)).raise .padFault q := by
  rw [strayLoadEvent_eq, h]
  rfl

/-- Whatever pad is claimed, a stray load event leaves the loads, the telescopes, the transfers and the orders as `strayed` has them. -/
theorem strayLoadEvent_same (s : State) (i : Nat) :
    (∀ m, (s.strayLoadEvent i).load m = (strayed s i).load m) ∧ (s.strayLoadEvent i).orders = s.orders ∧
      (s.strayLoadEvent i).transfer.transfers = s.transfer.transfers ∧ ∀ y, (s.strayLoadEvent i).placement y = (strayed s i).placement y := by
  obtain ⟨-, hord, htr, -⟩ := strayed_same s i
  cases hq : s.inboundClaim i with
  | none => rw [strayLoadEvent_unclaimed hq]; exact ⟨fun _ => rfl, hord, htr, fun _ => rfl⟩
  | some q => rw [strayLoadEvent_claimed hq]; exact ⟨fun _ => rfl, hord, htr, fun _ => rfl⟩

/-- Settles O44: during a transfer the awaited event is put in as a confirmation, which completes the transfer or waits, and any other fails it;
without one the event agrees or is stray. -/
theorem loadEventsConfirmFailOrAreStray : Obligations.LoadEventsConfirmFailOrAreStray := by
  intro s r u i
  refine ⟨takeLoadEvent_none, ?_, ?_⟩
  · intro p x hl hx due
    obtain ⟨hawaited, hother⟩ := takeLoadEvent_transfer hl hx
    have hin (hd : due) : u = (transporterIn s p x).completeIfConfirmed p (heardTransfer x) := hawaited hd
    have hpad := transporterIn_pad s p x
    have hconf : ((transporterIn s p x).pad p).confTransporter = true := by rw [hpad]
    have hstation {v : Bool} (h : (s.pad p).confStation = v) : ((transporterIn s p x).pad p).confStation = v := by rw [hpad]; exact h
    refine ⟨fun hd hst => ?_, fun hd hst hk => ?_, fun hd hst hk => ?_, fun hd => ?_⟩
    · exact (hin hd).trans (completeIfConfirmed_waiting _ (.inr (hstation hst)))
    · have hu : u = (transporterIn s p x).completeLift p (heardTransfer x) :=
        (hin hd).trans (completeIfConfirmed_lift hconf (hstation hst) hk)
      obtain ⟨htr, hstate, hocc, hclaim, hct, hcs, hplace, hload, -, hord⟩ := completeLift_records (transporterIn s p x) p (heardTransfer x)
      rw [hu]
      exact ⟨htr, hstate, hocc, hclaim, hct, hcs, hplace, hload, hord⟩
    · have hu : u = (transporterIn s p x).completeSetDown p (heardTransfer x) :=
        (hin hd).trans (completeIfConfirmed_setDown hconf (hstation hst) hk)
      obtain ⟨htr, hstate, hocc, hexp, hclaim, hct, hcs, hcoup, hplace, hload, -, hord⟩ :=
        completeSetDown_records (transporterIn s p x) p (heardTransfer x)
      rw [hu]
      exact ⟨htr, hstate, hocc, hexp, hclaim, hct, hcs, hcoup, hplace, hload, hord⟩
    · have hu : u = s.failTransfer p (heardTransfer x) true .identity := hother hd
      obtain ⟨htr, hrec, hpads, hplace, hload, -, hords, hord⟩ := failTransfer_touched s p (heardTransfer x) .identity
      rw [hu]
      refine ⟨htr, ?_, ?_, ?_, ?_, hpads, hplace, hload.trans (if_pos (.inl rfl)), hords, fun o ho => ?_⟩
      · rw [hrec]; rfl
      · rw [hrec]; rfl
      · rw [hrec]; rfl
      · rw [hrec]; rfl
      · obtain ⟨hfailed, hnotice, -⟩ := hord o ho
        exact ⟨hfailed, hnotice⟩
  · intro hl hx agrees claims
    have hidle : u = if loadAgrees r.load (s.load i) then s else s.strayLoadEvent i := takeLoadEvent_idle hl hx
    refine ⟨fun ha => hidle.trans (if_pos ((loadAgrees_iff hl _).2 ha)), fun hn => ?_⟩
    have hu : u = s.strayLoadEvent i := hidle.trans (if_neg fun e => hn ((loadAgrees_iff hl _).1 e))
    obtain ⟨hload, hord, htr, hplace⟩ := strayLoadEvent_same s i
    obtain ⟨hpads, -, -, hport⟩ := strayed_same s i
    have hpad (q : Nat) : (strayed s i).pad q = s.pad q := by unfold State.pad; rw [hpads]
    rw [hu]
    refine ⟨?_, fun m hm => ?_, hord, htr, fun y => (hplace y).trans (strayed_placement s i y), fun hnone hc => ?_, fun q hq huniq hc => ?_⟩
    · rw [hload, strayed_load, if_pos rfl]
    · rw [hload, strayed_load, if_neg hm]
    · rw [strayLoadEvent_unclaimed ((inboundClaim_iff hc i).1 hnone)]
      exact ⟨hpad, hport⟩
    · obtain ⟨-, hfound, hfinds⟩ := inboundClaim_iff hc i
      obtain ⟨q', hq'⟩ := Option.ne_none_iff_exists'.1 (hfinds q hq)
      obtain rfl := huniq q' (hfound q' hq')
      rw [strayLoadEvent_claimed hq']
      have hrec : (((strayed s i).setPad q' ((s.pad q').unsettledWith (s.pad q').expected)).raise .padFault q').pad q'
          = (s.pad q').unsettledWith (s.pad q').expected := setPad_pad_same _ q' _
      refine ⟨?_, ?_, ?_, ?_, fun m hm => ?_, mem_raise _ _ _⟩
      · rw [hrec]; rfl
      · rw [hrec]; rfl
      · rw [hrec]; rfl
      · rw [hrec]; rfl
      · exact (setPad_pad _ q' _ m).trans ((if_neg hm).trans (hpad m))

end Sys2Proof.Proofs
end

section
/-!
SUPPORT. The events of pad stations during a transfer (R115 to R118, O43), and the expiries of transfer and coupling timers (R120, R121, R123, O45).
-/

namespace Sys2Proof.Proofs

open Sys2Proof Sys2Proof.Machine Sys2Proof.Laws

/-! ### What an event does, by the transfer's phase -/

/-- The events during a transfer that repeat what is known (R115 to R117). -/
def RepeatedEvent (x : TransferRec) (r : PadRec) (v : PadEventValue) : Prop :=
  (x.phase ≠ .uncoupling ∧ v = .uncoupled) ∨ (x.phase = .lifting ∧ v = .loadSensed ∧ r.confStation = false) ∨
    (x.phase = .setting ∧ v = .loadClear ∧ r.confStation = false)

/-- The event by which the station confirms a transfer (R116, R117). -/
def ConfirmingEvent (x : TransferRec) (v : PadEventValue) : Prop :=
  (x.phase = .lifting ∧ v = .loadClear) ∨ (x.phase = .setting ∧ v = .loadSensed)

/-- The events during a transfer that are a fault or a breach (R118). -/
def BreachingEvent (x : TransferRec) (r : PadRec) (v : PadEventValue) : Prop :=
  (x.phase = .uncoupling ∧ (v = .loadClear ∨ v = .fault)) ∨ (x.phase ≠ .uncoupling ∧ (v = .coupled ∨ v = .fault)) ∨
    (x.phase = .lifting ∧ v = .loadSensed ∧ r.confStation = true) ∨ (x.phase = .setting ∧ v = .loadClear ∧ r.confStation = true)

theorem transferPadEvent_uncoupled {s : State} {p : Nat} {x : TransferRec} (h : x.phase = .uncoupling) :
    s.transferPadEvent p x .uncoupled
      = (s.setTransfer p (some { x with stationHeard := true, phase := .lifting })).takeBack fun m => decide (m = .uncouple p) := by
  unfold State.transferPadEvent
  rw [h]
  rfl

theorem transferPadEvent_heard {s : State} {p : Nat} {x : TransferRec} {v : PadEventValue} (h : x.phase = .uncoupling)
    (hv : v = .coupled ∨ v = .loadSensed) : s.transferPadEvent p x v = s.setTransfer p (some { x with stationHeard := true }) := by
  unfold State.transferPadEvent
  rcases hv with rfl | rfl <;> rw [h]

theorem transferPadEvent_repeated {s : State} {p : Nat} {x : TransferRec} {v : PadEventValue} (h : RepeatedEvent x (s.pad p) v) :
    s.transferPadEvent p x v = s := by
  unfold State.transferPadEvent
  rcases h with ⟨hph, rfl⟩ | ⟨hph, rfl, hc⟩ | ⟨hph, rfl, hc⟩
  · cases h : x.phase with
    | uncoupling => exact absurd h hph
    | lifting => rfl
    | setting => rfl
  · simp only [hph, hc, Bool.false_eq_true, if_false]
  · simp only [hph, hc, Bool.false_eq_true, if_false]

theorem transferPadEvent_confirms {s : State} {p : Nat} {x : TransferRec} {v : PadEventValue} (h : ConfirmingEvent x v) :
    s.transferPadEvent p x v = (s.setPad p { s.pad p with confStation := true }).completeIfConfirmed p x := by
  unfold State.transferPadEvent
  rcases h with ⟨hph, rfl⟩ | ⟨hph, rfl⟩ <;> rw [hph] <;> rfl

theorem transferPadEvent_breaches {s : State} {p : Nat} {x : TransferRec} {v : PadEventValue} (h : BreachingEvent x (s.pad p) v) :
    s.transferPadEvent p x v = s.stationFails p x := by
  unfold State.transferPadEvent
  rcases h with ⟨hph, rfl | rfl⟩ | ⟨hph, hv⟩ | ⟨hph, rfl, hc⟩ | ⟨hph, rfl, hc⟩
  · rw [hph]
  · rw [hph]
  · rcases hv with rfl | rfl <;> cases h : x.phase with
    | uncoupling => exact absurd h hph
    | lifting => rfl
    | setting => rfl
  · simp only [hph, hc, if_true]
  · simp only [hph, hc, if_true]

/-- A PAD-EVENT at the head of the in-queue, at a pad with a transfer. -/
theorem headPadEvent_transfer {s : State} {p : Nat} {v : PadEventValue} {rest : List InMessage} {x : TransferRec}
    (hq : s.wayside.inQueue = .padEvent p v :: rest) (hx : s.transferAt p = some x) :
    s.headPadEvent = (s.setInQueue rest).transferPadEvent p x v := by
  rw [padEvent_run hq]
  unfold State.takePadEvent
  rw [show (s.setInQueue rest).transferAt p = some x from hx]

/-! ### Edits of a transfer in progress -/

theorem couplingSet_setTransfer {s : State} {p : Nat} {x : TransferRec} (hx : s.transferAt p = some x) (y : TransferRec) :
    (s.setTransfer p (some y)).couplingSet = s.couplingSet := by
  refine List.filter_congr fun q _ => ?_
  rw [setTransfer_transferAt]
  split
  · next e => subst e; rw [hx]; rfl
  · rfl

/-- A transfer's record replaced leaves the blocks nothing to do: its pad stays in the coupling set. -/
theorem settled_setTransfer {s : State} (h : s.Settled) {p : Nat} {x : TransferRec} (hx : s.transferAt p = some x) (y : TransferRec) :
    (s.setTransfer p (some y)).Settled :=
  settled_pads h rfl rfl rfl rfl rfl rfl rfl (le_of_eq (congrArg List.length (couplingSet_setTransfer hx y)).symm)

/-- The station's confirmation put in leaves the blocks nothing to do: the pad of a transfer is in the coupling set. -/
theorem settled_stationIn {s : State} (h : s.Settled) (hc : s.canonical) {p : Nat} {x : TransferRec} (hx : s.transferAt p = some x) :
    (s.setPad p { s.pad p with confStation := true }).Settled := by
  refine settled_setPad h hc p _ (fun e => ?_) fun _ => .inl (by rw [hx]; rfl)
  cases (congrArg PadRec.confStation e : true = false)

/-! ### A transfer that fails, and the work that follows -/

/-- A transfer failed in the touched form, and calm work after it: what stands of the pad, the telescope, the loads and the notices (R121). -/
theorem failedTouched_after {s t : State} {p : Nat} {x : TransferRec} {c : FailureCause} (h : Calm (s.failTransfer p x true c) t) :
    ((t.pad p).state = .unsettled ∧ (t.pad p).lastOccupant = some x.telescope ∧ (t.pad p).occupant = none ∧ (t.pad p).claim = none) ∧
      t.placement x.telescope = .unplaced ∧
      t.load x.transporter
        = (if x.transporterHeard = true ∨ s.load x.transporter = some (.telescope x.telescope) then some .unverified else s.load x.transporter) ∧
      ∀ i, i ≠ x.transporter → t.load i = s.load i := by
  obtain ⟨-, hrec, -, hplace, hload, hloads, -, -⟩ := failTransfer_touched s p x c
  have hpad : t.pad p = (s.pad p).unsettledWith (some x.telescope) :=
    (calm_pad h (by rw [hrec]; rfl) (by rw [hrec]; simp [PadRec.unsettledWith])).trans hrec
  refine ⟨?_, (calm_placement h _).trans hplace, (calm_load h _).trans hload, fun i hi => (calm_load h i).trans (hloads i hi)⟩
  rw [hpad]
  exact ⟨rfl, rfl, rfl, rfl⟩

theorem settleTransfer_untouched (s : State) (p : Nat) (x : TransferRec) :
    (s.settleTransfer p x false).transfer.telescopes = s.transfer.telescopes ∧ (s.settleTransfer p x false).transfer.loads = s.transfer.loads ∧
      (x.kind = .lift → (s.settleTransfer p x false).pad p
        = { s.pad p with state := .anchored, occupant := some x.telescope, claim := none }) ∧
      (x.kind = .setDown → (s.settleTransfer p x false).transfer.pads = s.transfer.pads) := by
  unfold State.settleTransfer
  cases hk : x.kind with
  | lift => exact ⟨rfl, rfl, fun _ => setPad_pad_same _ p _, fun e => by cases e⟩
  | setDown => exact ⟨rfl, rfl, (fun e => by cases e), fun _ => rfl⟩

/-- A transfer failed in the untouched form, and calm work after it: the telescopes and the loads stand, and a LIFT's pad is ANCHORED again (R121). -/
theorem failedUntouched_after {s t : State} {p : Nat} {x : TransferRec} {c : FailureCause} (h : Calm (s.failTransfer p x false c) t) :
    t.transfer.telescopes = s.transfer.telescopes ∧ t.transfer.loads = s.transfer.loads ∧
      (x.kind = .lift → (t.pad p).state = .anchored ∧ (t.pad p).occupant = some x.telescope ∧ (t.pad p).claim = none) := by
  obtain ⟨htel, hloads, hlift, -⟩ := settleTransfer_untouched s p x
  have htr : (s.failTransfer p x false c).transfer = (s.settleTransfer p x false).transfer :=
    (failOrder_records (s.settleTransfer p x false) x.order c).1
  refine ⟨h.telescopes.trans (htr ▸ htel), h.loads.trans (htr ▸ hloads), fun hk => ?_⟩
  have hrec : (s.failTransfer p x false c).pad p = { s.pad p with state := .anchored, occupant := some x.telescope, claim := none } := by
    unfold State.pad
    rw [htr]
    exact hlift hk
  have hpad := (calm_pad h (by rw [hrec]) (by rw [hrec]; simp)).trans hrec
  rw [hpad]
  exact ⟨rfl, rfl, rfl⟩

/-- In either form a failed transfer leaves the loads of the other transporters, and so does the work after it (R121). -/
theorem failed_otherLoads {s t : State} {p : Nat} {x : TransferRec} {v : Bool} {c : FailureCause} (h : Calm (s.failTransfer p x v c) t) {i : Nat}
    (hi : i ≠ x.transporter) : t.load i = s.load i := by
  cases v with
  | false =>
    obtain ⟨-, hloads, -⟩ := failedUntouched_after h
    unfold State.load
    rw [hloads]
  | true =>
    obtain ⟨-, -, -, hloads⟩ := failedTouched_after h
    exact hloads i hi

theorem failTransfer_notice {s : State} (p : Nat) {x : TransferRec} (v : Bool) (c : FailureCause) {o : Order} (ho : s.order x.order = some o) :
    ⟨.orderFailed, x.order⟩ ∈ (s.failTransfer p x v c).port.notices := by
  obtain ⟨-, -, -, hord⟩ := failOrder_records (s.settleTransfer p x v) x.order c
  have hsettled : (s.settleTransfer p x v).order x.order = some o := by
    unfold State.order
    rw [settleTransfer_orders]
    exact ho
  obtain ⟨-, hnotice, -⟩ := hord o hsettled
  exact hnotice

/-- The order of a failed transfer through the work that follows: it is FAILED, and an INBOUND pad that it claims stands as it was. -/
theorem failTransfer_work {s b : State} {p : Nat} {x : TransferRec} (v : Bool) (c : FailureCause) {o : Order} (hb : b.orders = s.orders)
    (hag : b.agenda = s.agenda) (ha : s.agenda = []) (hr : s.refsRight) (ho : s.order x.order = some o)
    (hk : (s.orderRefs o.transporter).active = some x.order) (hsd : s.startingDivert o.transporter = none) :
    (∃ o', (workOff (b.failTransfer p x v c)).order x.order = some o' ∧
        o' = { o with state := .failed, failure := some c, claim := o'.claim, head := o'.head }) ∧
      ∀ q, ((b.failTransfer p x v c).pad q).claim = some x.order →
        (workOff (b.failTransfer p x v c)).pad q = (b.failTransfer p x v c).pad q ∨ ((b.failTransfer p x v c).pad q).state = .seated := by
  have hord (m : Nat) : b.order m = s.order m := by unfold State.order; rw [hb]
  obtain ⟨hfailed, hothers, hrefs, hagenda⟩ := failTransfer_orders b p x v c o ((hord _).trans ho)
  exact failing_event hr ha ho hk hsd hfailed (fun m hm => (hothers m hm).trans (hord m)) (hrefs.trans (by rw [hb])) (hag ▸ hagenda)

/-! ### A transfer that completes, and the work that follows -/

/-- The state in which the station's confirmation of a transfer is put in (R116, R117). -/
def stationIn (s : State) (p : Nat) : State := s.setPad p { s.pad p with confStation := true }

theorem stationIn_pad (s : State) (p : Nat) : (stationIn s p).pad p = { s.pad p with confStation := true } := setPad_pad_same s p _

theorem kept_stationIn (s : State) (p : Nat) : Kept s (stationIn s p) := kept_setPad s p rfl (fun h => h) fun _ h => h

/-- An order that an event's edit ends with outcome DONE stays so through the work that follows, but for its head and claim point. -/
theorem endedDone_after {act : State → State} {s e : State} {k : Nat} {o : Order} (he : act s = e) (hcalm : Calm e (runEvent act s))
    (hn : noReport e) (hr : s.refsRight → e.refsRight)
    (ho : e.order k = some { o with head := .none, state := .ended, outcome := some .done, failure := none })
    (hnotice : ⟨.orderEnded, k⟩ ∈ e.port.notices) :
    ⟨.orderEnded, k⟩ ∈ (runEvent act s).port.notices ∧ (s.refsRight → ∃ o', (runEvent act s).order k = some o' ∧
      o' = { o with head := o'.head, claim := o'.claim, state := .ended, outcome := some .done, failure := none }) := by
  subst he
  refine ⟨hcalm.notices _ hnotice, fun href => ?_⟩
  obtain ⟨o', ho', e⟩ := ended_event (hr href) hn ho rfl
  exact ⟨o', ho', e⟩

/-- The edit of the station's confirmation, and the calm work after it (R116, R117). -/
theorem padEvent_confirms {s : State} {p : Nat} {v : PadEventValue} {rest : List InMessage} {x : TransferRec} (ha : s.agenda = [])
    (hq : s.wayside.inQueue = .padEvent p v :: rest) (hx : s.transferAt p = some x) (hv : ConfirmingEvent x v) {e : State}
    (he : (stationIn (s.setInQueue rest) p).completeIfConfirmed p x = e) :
    s.headPadEvent = e ∧ Kept (s.setInQueue rest) e ∧ noReport e ∧ Calm e (runEvent State.headPadEvent s) ∧ (s.refsRight → e.refsRight) := by
  have hact : s.headPadEvent = e := (headPadEvent_transfer hq hx).trans ((transferPadEvent_confirms hv).trans he)
  have hkept : Kept (s.setInQueue rest) e := he ▸ (kept_stationIn _ p).trans (kept_completeIfConfirmed _ p x)
  have hn : noReport e := noReport_of_kept hkept ha
  refine ⟨hact, hkept, hn, event_calm _ hact hkept.pending hn, fun h => ?_⟩
  have hin : (stationIn (s.setInQueue rest) p).refsRight := refsRight_same h rfl
  exact he ▸ refsRight_completeIfConfirmed hin p x

/-- The edit of a station fault or breach, and the calm work after it (R118). -/
theorem padEvent_breaches {s : State} {p : Nat} {v : PadEventValue} {rest : List InMessage} {x : TransferRec} (ha : s.agenda = [])
    (hq : s.wayside.inQueue = .padEvent p v :: rest) (hx : s.transferAt p = some x) (hv : BreachingEvent x (s.pad p) v) :
    let e := ((s.setInQueue rest).raise .padFault p).failTransfer p x true .padFault
    s.headPadEvent = e ∧ Kept (s.setInQueue rest) e ∧ Calm e (runEvent State.headPadEvent s) ∧ ⟨.padFault, p⟩ ∈ e.port.notices := by
  intro e
  have hact : s.headPadEvent = e := (headPadEvent_transfer hq hx).trans (transferPadEvent_breaches hv)
  have hfail := kept_failTransfer ((s.setInQueue rest).raise .padFault p) p x true .padFault
  have hkept : Kept (s.setInQueue rest) e := (calm_raise (s.setInQueue rest) .padFault p).toKept.trans hfail
  exact ⟨hact, hkept, event_calm _ hact hkept.pending (noReport_of_kept hkept ha), hfail.notices _ (mem_raise _ _ _)⟩

/-- The rest of the in-queue and the frame, where a PAD-EVENT's edit and the work after it keep what the work keeps. -/
theorem headTaken_frame {s e t : State} {rest : List InMessage} (he : Kept (s.setInQueue rest) e) (ht : Kept e t) :
    t.wayside.inQueue = rest ∧ t.guards.hold = s.guards.hold ∧ Frame s t :=
  have h := he.trans ht
  ⟨h.inQueue, h.hold, (frame_setInQueue s rest).trans h.frame⟩

/-- Settles O43: each event of a transfer is one of the edits of R115 to R118; a failed or completed transfer's records stand through the calm work
that follows, and its order by the laws on references. -/
theorem padEventsAndConfirmationsOfATransfer : Obligations.PadEventsAndConfirmationsOfATransfer := by
  refine ⟨fun s p v rest x hq hx => ?_, fun s p rest x ha hx hct => ?_⟩
  · have hhead : s.headPadEvent = (s.setInQueue rest).transferPadEvent p x v := headPadEvent_transfer hq hx
    have waits (hc : (s.pad p).confTransporter = false) :
        (stationIn (s.setInQueue rest) p).completeIfConfirmed p x = stationIn (s.setInQueue rest) p :=
      completeIfConfirmed_waiting x (.inl (by rw [stationIn_pad]; exact hc))
    refine ⟨fun hw hph hv => ?_, fun hw hph hv => ?_, fun hw hr => ?_, fun ha hc hv => ?_, fun hw hcan hc hv => ?_, fun ha hb => ?_⟩
    · subst hv
      exact padEvent_settled (hhead.trans (transferPadEvent_uncoupled hph))
        (settled_wayside (settled_setTransfer (settled_setInQueue hw rest) hx _) _) rfl
    · exact padEvent_settled (hhead.trans (transferPadEvent_heard hph hv)) (settled_setTransfer (settled_setInQueue hw rest) hx _) rfl
    · exact padEvent_settled (hhead.trans (transferPadEvent_repeated hr)) (settled_setInQueue hw rest) rfl
    · obtain ⟨-, -, -, hcalm, -⟩ := padEvent_confirms ha hq hx hv (waits hc)
      exact ⟨_, exec_padEvent s, hcalm⟩
    · exact padEvent_settled (hhead.trans ((transferPadEvent_confirms hv).trans (waits hc)))
        (settled_stationIn (settled_setInQueue hw rest) hcan hx) rfl
    · obtain ⟨hact, hkept, hcalm, hnotice⟩ := padEvent_breaches ha hq hx hb
      obtain ⟨⟨hstate, hlast, hocc, hclaim⟩, hplace, hload, hloads⟩ := failedTouched_after hcalm
      obtain ⟨hin, hhold, hframe⟩ := headTaken_frame hkept hcalm.toKept
      refine ⟨_, exec_padEvent s, hstate, hlast, hocc, hclaim, hplace, hcalm.notices _ hnotice, fun o ho => ?_, hin, hhold, hframe, hload, hloads,
        fun o hr ho _ hk hsd => ?_⟩
      · exact hcalm.notices _ (failTransfer_notice (s := (s.setInQueue rest).raise .padFault p) p true _ ho)
      · obtain ⟨hfailed, -⟩ := failTransfer_work (b := (s.setInQueue rest).raise .padFault p) (p := p) true .padFault rfl rfl ha hr ho hk hsd
        rw [← hact] at hfailed
        exact hfailed
  · have hpad := stationIn_pad (s.setInQueue rest) p
    have hct' : ((stationIn (s.setInQueue rest) p).pad p).confTransporter = true := by rw [hpad]; exact hct
    have hcs : ((stationIn (s.setInQueue rest) p).pad p).confStation = true := by rw [hpad]
    refine ⟨fun v hq hk hph hv => ?_, fun v hq hk hph hv => ?_⟩
    · obtain ⟨hact, hkept, hn, hcalm, hrefs⟩ := padEvent_confirms ha hq hx (.inl ⟨hph, hv⟩) (completeIfConfirmed_lift hct' hcs hk)
      obtain ⟨-, hstate, hocc, hclaim, hnt, hns, hplace, hload, -, hord⟩ := completeLift_records (stationIn (s.setInQueue rest) p) p x
      obtain ⟨hin, -, hframe⟩ := headTaken_frame hkept hcalm.toKept
      have hleft := calm_pad hcalm hclaim (by rw [hstate]; simp)
      refine ⟨_, exec_padEvent s, ?_, ?_, ?_, ?_, ?_, (calm_placement hcalm _).trans hplace, (calm_load hcalm _).trans hload, hin, hframe, fun o ho => ?_⟩
      · rw [hleft, hstate]
      · rw [hleft, hocc]
      · rw [hleft, hclaim]
      · rw [hleft, hnt]
      · rw [hleft, hns]
      · obtain ⟨hended, hnotice⟩ := hord o ho
        exact endedDone_after hact hcalm hn hrefs hended hnotice
    · obtain ⟨hact, hkept, hn, hcalm, hrefs⟩ := padEvent_confirms ha hq hx (.inr ⟨hph, hv⟩) (completeIfConfirmed_setDown hct' hcs hk)
      obtain ⟨-, hstate, hocc, hexp, hclaim, -, -, hcoup, hplace, hload, -, hord⟩ := completeSetDown_records (stationIn (s.setInQueue rest) p) p x
      obtain ⟨hin, -, hframe⟩ := headTaken_frame hkept hcalm.toKept
      have seated {r : PadRec} (h : r = ((stationIn (s.setInQueue rest) p).completeSetDown p x).pad p ∨
          ∃ y, r = { ((stationIn (s.setInQueue rest) p).completeSetDown p x).pad p with coupling := .sent, couplingTimer := y }) :
          r.state = .seated ∧ r.occupant = some x.telescope ∧ r.expected = none ∧ r.claim = none ∧ r.coupling ≠ .none := by
        rcases h with rfl | ⟨y, rfl⟩
        · exact ⟨hstate, hocc, hexp, hclaim, hcoup⟩
        · exact ⟨hstate, hocc, hexp, hclaim, by simp⟩
      obtain ⟨tstate, tocc, texp, tclaim, tcoup⟩ := seated ((hcalm.padsCalm p hclaim).imp_right And.right)
      refine ⟨_, exec_padEvent s, tstate, tocc, texp, tclaim, tcoup, (calm_placement hcalm _).trans hplace, (calm_load hcalm _).trans hload, hin, hframe,
        fun o ho => ?_⟩
      obtain ⟨hended, hnotice⟩ := hord o ho
      exact endedDone_after hact hcalm hn hrefs hended hnotice

/-! ### The timers -/

theorem exec_transferTimerExpiry (p : Nat) (s : State) :
    exec (.transferTimerExpiry p) s = .next (runEvent (fun s => s.transferExpiry p) s) := rfl

theorem exec_couplingTimerExpiry (p : Nat) (s : State) :
    exec (.couplingTimerExpiry p) s = .next (runEvent (fun s => s.couplingExpiry p) s) := rfl

theorem transferExpiry_running {s : State} {p time : Nat} {x : TransferRec} (hx : s.transferAt p = some x) (ht : x.timer = .running time) :
    s.transferExpiry p = s.failTransfer p x (s.touched p x) .timeout := by
  unfold State.transferExpiry
  rw [hx]
  dsimp only
  rw [ht]

theorem transferExpiry_suspended {s : State} {p time : Nat} {x : TransferRec} (hx : s.transferAt p = some x) (ht : x.timer = .suspended time) :
    s.transferExpiry p = s := by
  unfold State.transferExpiry
  rw [hx]
  dsimp only
  rw [ht]

theorem couplingExpiry_running {s : State} {p time : Nat} (ht : (s.pad p).couplingTimer = .running time) (hst : (s.pad p).state = .seated) :
    s.couplingExpiry p = s.giveUpCoupling p := by
  unfold State.couplingExpiry
  dsimp only
  rw [ht]
  exact if_pos hst

theorem couplingExpiry_stopped {s : State} {p : Nat} (ht : (s.pad p).couplingTimer = .stopped) : s.couplingExpiry p = s := by
  unfold State.couplingExpiry
  dsimp only
  rw [ht]

theorem giveUpCoupling_pad (s : State) (p q : Nat) : (s.giveUpCoupling p).pad q = if q = p then uncoupledRec (s.pad p) else s.pad q :=
  setPad_pad _ p _ q

theorem giveUpCoupling_outQueue (s : State) (p : Nat) : ∀ m ∈ (s.giveUpCoupling p).wayside.outQueue, m ≠ .couple p := by
  intro m hm
  have hkeep := (List.mem_filter.1 hm).2
  simpa using hkeep

/-- What is written where a coupling is given up: a SEATED pad's record, and calm work beside it. -/
theorem giveUpCoupling_kept (s : State) (p : Nat) : Kept s (s.giveUpCoupling p) :=
  (kept_setPad s p (r := uncoupledRec (s.pad p)) rfl (fun h => h) fun _ h => h).trans (giveUpCoupling_calm s p).toKept

/-- Settles O45: an expiry is the settlement of R121 in the form that `touched` gives, and calm work after it; a coupling timer's is R123's edit alone
where no order waits for the room. -/
theorem transferAndCouplingTimersExpire : Obligations.TransferAndCouplingTimersExpire := by
  refine ⟨fun s p x hx => ?_, fun s p hw hcan => ⟨fun time ht hst hn => ?_, fun ht => ?_⟩⟩
  · intro touched
    refine ⟨fun time ha ht => ?_, fun time hw ht => ?_⟩
    · have hact : s.transferExpiry p = s.failTransfer p x touched .timeout := transferExpiry_running hx ht
      have hkept := kept_failTransfer s p x touched .timeout
      have hcalm := event_calm (fun s => s.transferExpiry p) hact hkept.pending (noReport_of_kept hkept ha)
      have hall := hkept.trans hcalm.toKept
      refine ⟨_, exec_transferTimerExpiry p s, hall.frame, hall.inQueue, hall.hold, fun hf hk => ?_, fun hf _ => ?_, fun hf => ?_,
        fun i hi => failed_otherLoads hcalm hi, fun o ho => ?_,
        fun o hr ho _ hk hsd => ?_⟩
      · rw [hf] at hcalm
        obtain ⟨htel, hloads, hlift⟩ := failedUntouched_after hcalm
        obtain ⟨hstate, hocc, hclaim⟩ := hlift hk
        exact ⟨hstate, hocc, hclaim, htel, hloads⟩
      · rw [hf] at hcalm
        obtain ⟨htel, hloads, -⟩ := failedUntouched_after hcalm
        exact ⟨htel, hloads⟩
      · rw [hf] at hcalm
        obtain ⟨⟨hstate, hlast, hocc, hclaim⟩, hplace, hload, -⟩ := failedTouched_after hcalm
        exact ⟨hstate, hlast, hocc, hclaim, hplace, hload⟩
      · exact hcalm.notices _ (failTransfer_notice p touched _ ho)
      · have hwork := failTransfer_work (b := s) (p := p) touched .timeout rfl rfl ha hr ho hk hsd
        rw [← hact] at hwork
        obtain ⟨hfailed, hpads⟩ := hwork
        refine ⟨hfailed, fun hf hkind hin hclaim => ?_⟩
        have hsame : (s.transferExpiry p).pad p = s.pad p := by
          rw [hact, hf]
          exact (failTransfer_untouched s p x .timeout).2 hkind p
        refine ((hpads p (by rw [hsame]; exact hclaim)).resolve_right ?_).trans hsame
        rw [hsame, hin]
        simp
    · rw [exec_transferTimerExpiry, event_nothing (fun s => s.transferExpiry p) (transferExpiry_suspended hx ht) hw]
  · have hfr := (giveUpCoupling_kept s p).frame
    have hrun : exec (.couplingTimerExpiry p) s = .next (s.giveUpCoupling p).decideAttention := by
      rw [exec_couplingTimerExpiry, event_settled (fun s => s.couplingExpiry p) (couplingExpiry_running ht hst) (settled_giveUpCoupling hw hn p) rfl]
    refine ⟨_, hrun, ?_, giveUpCoupling_notice s p,
      fun q hq => ?_, giveUpCoupling_outQueue s p, rfl, rfl, rfl, rfl, rfl, rfl, rfl, { hfr with }⟩
    · exact (giveUpCoupling_pad s p p).trans (if_pos rfl)
    · exact (giveUpCoupling_pad s p q).trans (if_neg hq)
  · rw [exec_couplingTimerExpiry, event_nothing (fun s => s.couplingExpiry p) (couplingExpiry_stopped ht) hw]

end Sys2Proof.Proofs
end

section
/-!
PROOFS. The Poll Engine's edits to one transporter: a missed reply and a progress timeout (R140, R146).
-/

namespace Sys2Proof.Proofs

open Sys2Proof Sys2Proof.Machine Sys2Proof.Laws

/-! ### What an edit to one transporter leaves -/

/-- What the Poll Engine's edits to transporter `i` leave: the other transporters, the loads, the sensors, the in-queue, the hold, and the frame. -/
structure EditsTrain (i : Nat) (s t : State) : Prop where
  others : ∀ m, m ≠ i → t.train m = s.train m
  loads : t.transfer.loads = s.transfer.loads
  sensors : ∀ n, (t.seg n).sensor = (s.seg n).sensor
  inQueue : t.wayside.inQueue = s.wayside.inQueue
  hold : t.guards.hold = s.guards.hold
  frame : Frame s t

variable {i : Nat}

theorem EditsTrain.trans {a b c : State} (h : EditsTrain i a b) (k : EditsTrain i b c) : EditsTrain i a c :=
  ⟨fun m hm => (k.others m hm).trans (h.others m hm), k.loads.trans h.loads, fun n => (k.sensors n).trans (h.sensors n), k.inQueue.trans h.inQueue,
    k.hold.trans h.hold, h.frame.trans k.frame⟩

/-- Calm work that writes no transporter's record. -/
theorem editsTrain_calm {s t : State} (h : Calm s t) (hp : t.polls.recs = s.polls.recs) : EditsTrain i s t :=
  ⟨fun m _ => congrArg (fun l => Table.get none l m) hp, h.loads, h.sensors, h.inQueue, h.hold, h.toKept.frame⟩

theorem EditsTrain.refl (s : State) : EditsTrain i s s := editsTrain_calm (.refl s) rfl

theorem editsTrain_ite {s a b : State} {p : Prop} [Decidable p] (ha : EditsTrain i s a) (hb : EditsTrain i s b) :
    EditsTrain i s (if p then a else b) := by
  split
  · exact ha
  · exact hb

theorem frame_emit (s : State) (xs : List Machine.Task) : Frame s (s.emit xs) := { (Kept.refl s).frame with }

theorem editsTrain_emit (s : State) (xs : List Machine.Task) : EditsTrain i s (s.emit xs) := { EditsTrain.refl s with frame := frame_emit s xs }

theorem editsTrain_raise (s : State) (k : NoticeKind) (n : Nat) : EditsTrain i s (s.raise k n) := editsTrain_calm (calm_raise s k n) rfl

theorem editsTrain_endPoll (s : State) : EditsTrain i s s.endPoll := { EditsTrain.refl s with frame := { (Kept.refl s).frame with } }

theorem isSome_of_updateTrain (s : State) (f : TransporterRec → TransporterRec) (m : Nat) :
    ((s.updateTrain i f).train m).isSome = (s.train m).isSome := by
  rw [updateTrain_train]
  split
  · exact Option.isSome_map
  · rfl

theorem updateTrain_none {s : State} {t : Nat} (h : s.train t = none) (f : TransporterRec → TransporterRec) : s.updateTrain t f = s := by
  unfold State.updateTrain
  rw [h]

theorem frame_updateTrain (s : State) (t : Nat) (f : TransporterRec → TransporterRec) : Frame s (s.updateTrain t f) := by
  have henrolled := isSome_of_updateTrain (i := t) s f
  cases h : s.train t with
  | none => rw [updateTrain_none h]; exact (Kept.refl s).frame
  | some y =>
    rw [updateTrain_some h] at henrolled ⊢
    exact { (Kept.refl s).frame with enrolled := henrolled }

theorem editsTrain_updateTrain (s : State) (f : TransporterRec → TransporterRec) : EditsTrain i s (s.updateTrain i f) := by
  have hframe := frame_updateTrain s i f
  have hother : ∀ m, m ≠ i → (s.updateTrain i f).train m = s.train m := fun m hm => (updateTrain_train s i f m).trans (if_neg hm)
  cases h : s.train i with
  | none => rw [updateTrain_none h]; exact .refl s
  | some y =>
    rw [updateTrain_some h] at hframe hother ⊢
    exact { EditsTrain.refl (i := i) s with others := hother, frame := hframe }

theorem editsTrain_setCondition (s : State) (c : Condition) : EditsTrain i s (s.setCondition i c) :=
  (editsTrain_updateTrain s _).trans (editsTrain_emit _ _)

theorem editsTrain_stall (s : State) : EditsTrain i s (s.stall i) :=
  ((editsTrain_raise s _ _).trans (editsTrain_setCondition _ _)).trans (editsTrain_emit _ _)

theorem editsTrain_goLost (s : State) : EditsTrain i s (s.goLost i) := (editsTrain_raise s _ _).trans (editsTrain_setCondition _ _)

theorem editsTrain_goAstray (s : State) : EditsTrain i s (s.goAstray i) := (editsTrain_raise s _ _).trans (editsTrain_setCondition _ _)

theorem makeActiveDue_polls (s : State) (t : Nat) : (s.makeActiveDue t).polls = s.polls := (marks_makeActiveDue s t).polls

theorem editsTrain_makeActiveDue (s : State) (t : Nat) : EditsTrain i s (s.makeActiveDue t) :=
  editsTrain_calm (calm_makeActiveDue s t) (congrArg PollEngine.recs (makeActiveDue_polls s t))

theorem editsTrain_backToNormal (s : State) : EditsTrain i s (s.backToNormal i) :=
  ((editsTrain_updateTrain s _).trans (editsTrain_makeActiveDue _ i)).trans (editsTrain_emit _ _)

theorem setConfirm_polls (s : State) (t : Nat) (c : Confirm) : (s.setConfirm t c).polls = s.polls := by
  unfold State.setConfirm
  split <;> rfl

theorem confirmMissed_polls (s : State) (t : Nat) : (s.confirmMissed t).polls = s.polls := by
  unfold State.confirmMissed
  split
  · split
    · exact setConfirm_polls s t _
    · rfl
  · rfl

theorem editsTrain_confirmMissed (s : State) (t : Nat) : EditsTrain i s (s.confirmMissed t) :=
  editsTrain_calm (calm_confirmMissed s t) (congrArg PollEngine.recs (confirmMissed_polls s t))

/-- What an edit leaves, the work that follows leaves too. -/
theorem EditsTrain.afterwards {s e t : State} (h : EditsTrain i s e) (k : Kept e t) :
    (∀ n, (t.seg n).sensor = (s.seg n).sensor) ∧ t.wayside.inQueue = s.wayside.inQueue ∧ t.guards.hold = s.guards.hold ∧ Frame s t :=
  ⟨fun n => (k.sensors n).trans (h.sensors n), k.inQueue.trans h.inQueue, k.hold.trans h.hold, h.frame.trans k.frame⟩

/-- The other transporters after an edit and calm work. -/
theorem EditsTrain.others_calm {s e t : State} (h : EditsTrain i s e) (k : Calm e t) (m : Nat) (hm : m ≠ i) :
    (t.train m).map trainShape = (s.train m).map trainShape ∧ (t.train m).map (·.condition) = (s.train m).map (·.condition) :=
  ⟨(k.trains m).trans (by rw [h.others m hm]), (k.standing m).trans (by rw [h.others m hm])⟩

/-! ### What work leaves of a transporter's record -/

/-- A transporter's record after work: what its last report or its enrollment recorded stands. -/
theorem kept_train {e t : State} {z : TransporterRec} (h : Kept e t) (hz : e.train i = some z) :
    ∃ z', t.train i = some z' ∧ trainShape z' = trainShape z :=
  Option.map_eq_some_iff.1 ((h.trains i).trans (by rw [hz]; rfl))

/-- After calm work its condition stands as well. -/
theorem calm_train {e t : State} {z : TransporterRec} (h : Calm e t) (hz : e.train i = some z) :
    ∃ z', t.train i = some z' ∧ trainShape z' = trainShape z ∧ z'.condition = z.condition ∧ z'.quietStand = z.quietStand := by
  obtain ⟨z', hz', hshape⟩ := kept_train h.toKept hz
  have hstanding := h.standing i
  have hstands := h.stands i
  rw [hz, hz'] at hstanding hstands
  exact ⟨z', hz', hshape, Option.some.inj hstanding, Option.some.inj hstands⟩

/-- What calm work has left of a transporter's record. -/
theorem calm_train_before {e t : State} {z' : TransporterRec} (h : Calm e t) (hz' : t.train i = some z') :
    ∃ z, e.train i = some z ∧ trainShape z' = trainShape z ∧ z'.condition = z.condition ∧ z'.quietStand = z.quietStand := by
  obtain ⟨z, hz, -⟩ := Option.map_eq_some_iff.1 ((h.trains i).symm.trans (congrArg (Option.map trainShape) hz'))
  obtain ⟨z'', hz'', hsame⟩ := calm_train h hz
  cases hz'.symm.trans hz''
  exact ⟨z, hz, hsame⟩

theorem trainShape_inj {z z' : TransporterRec} (h : trainShape z' = trainShape z) :
    z'.position = z.position ∧ z'.atRest = z.atRest ∧ z'.inMotion = z.inMotion ∧ z'.missCount = z.missCount := by
  simpa only [trainShape, Prod.mk.injEq] using h

/-! ### Conditions -/

/-- The record of a transporter that leaves NORMAL. -/
def inCondition (c : Condition) (y : TransporterRec) : TransporterRec := { y with condition := c, progress := .stopped }

theorem setCondition_train (s : State) (t : Nat) (c : Condition) (m : Nat) :
    (s.setCondition t c).train m = if m = t then (s.train m).map (inCondition c) else s.train m := updateTrain_train s t _ m

theorem stall_train {s : State} {y : TransporterRec} (h : s.train i = some y) : (s.stall i).train i = some (inCondition .stalled y) :=
  (setCondition_train (s.raise .transporterStalled i) i .stalled i).trans ((if_pos rfl).trans (congrArg (Option.map _) h))

theorem goLost_train {s : State} {y : TransporterRec} (h : s.train i = some y) : (s.goLost i).train i = some (inCondition .lost y) :=
  (setCondition_train (s.raise .transporterLost i) i .lost i).trans ((if_pos rfl).trans (congrArg (Option.map _) h))

theorem goAstray_train {s : State} {y : TransporterRec} (h : s.train i = some y) : (s.goAstray i).train i = some (inCondition .astray y) :=
  (setCondition_train (s.raise .transporterAstray i) i .astray i).trans ((if_pos rfl).trans (congrArg (Option.map _) h))

theorem setCondition_port (s : State) (t : Nat) (c : Condition) : (s.setCondition t c).port = s.port := (updateTrain_only s t _).1

theorem stall_notice (s : State) (t : Nat) : ⟨.transporterStalled, t⟩ ∈ (s.stall t).port.notices := by
  show _ ∈ ((s.raise .transporterStalled t).setCondition t .stalled).port.notices
  rw [setCondition_port]
  exact mem_raise s _ t

theorem goLost_notice (s : State) (t : Nat) : ⟨.transporterLost, t⟩ ∈ (s.goLost t).port.notices := by
  unfold State.goLost
  rw [setCondition_port]
  exact mem_raise s _ t

theorem goAstray_notice (s : State) (t : Nat) : ⟨.transporterAstray, t⟩ ∈ (s.goAstray t).port.notices := by
  unfold State.goAstray
  rw [setCondition_port]
  exact mem_raise s _ t

theorem updateTrain_agenda (s : State) (t : Nat) (f : TransporterRec → TransporterRec) : (s.updateTrain t f).agenda = s.agenda := by
  unfold State.updateTrain
  split <;> rfl

theorem noReport_setCondition {s : State} (h : noReport s) (t : Nat) (c : Condition) : noReport (s.setCondition t c) :=
  noReport_emit (s := s.updateTrain t (inCondition c)) (by unfold noReport; rw [updateTrain_agenda]; exact h) (by simp [inReport])

theorem noReport_stall {s : State} (h : noReport s) (t : Nat) : noReport (s.stall t) :=
  noReport_emit (noReport_setCondition (s := s.raise .transporterStalled t) h t .stalled) fun x hx => by
    obtain ⟨n, -, rfl⟩ := List.mem_map.1 hx
    rfl

/-! ### A missed reply -/

/-- The record of a transporter whose reply is missed (R140). -/
def missedRecord (y : TransporterRec) : TransporterRec := { y with missCount := min 8 (y.missCount + 1) }

/-- The poll ended, the miss counted and the confirmation put back (R137, R140, R40). -/
def missedReply (s : State) (t : Nat) (y : TransporterRec) : State := (s.endPoll.setTrain t (some (missedRecord y))).confirmMissed t

theorem missedReply_train (s : State) (y : TransporterRec) : (missedReply s i y).train i = some (missedRecord y) := by
  have h := setTrain_train_same s.endPoll i (some (missedRecord y))
  unfold State.train at h ⊢
  unfold missedReply
  rw [confirmMissed_polls]
  exact h

theorem missedReply_eq {s : State} {y : TransporterRec} (h : s.train i = some y) :
    (s.endPoll.updateTrain i missedRecord).confirmMissed i = missedReply s i y :=
  congrArg (State.confirmMissed · i) (updateTrain_some (s := s.endPoll) h missedRecord)

theorem editsTrain_missedReply {s : State} {y : TransporterRec} (h : s.train i = some y) : EditsTrain i s (missedReply s i y) := by
  rw [← missedReply_eq h]
  exact ((editsTrain_endPoll s).trans (editsTrain_updateTrain _ _)).trans (editsTrain_confirmMissed _ i)

theorem noReport_missedReply {s : State} (h : s.agenda = []) (y : TransporterRec) : noReport (missedReply s i y) :=
  noReport_of_kept (calm_confirmMissed (s.endPoll.setTrain i (some (missedRecord y))) i).toKept h

/-- Whether a missed reply loses the transporter (R140). -/
def LosesBy (s : State) (y : TransporterRec) : Prop :=
  (y.condition = .normal ∨ y.condition = .stalled) ∧ s.port.params.missLimit ≤ min 8 (y.missCount + 1)

theorem windowExpiry_missed {s : State} {x : Poll} {time : Nat} {y : TransporterRec} (hx : s.polls.outstanding = some x)
    (hw : s.polls.window = .running time) (hy : s.train x.transporter = some y) :
    (LosesBy s y → s.windowExpiry = ((missedReply s x.transporter y).goLost x.transporter).emit [.quietTest]) ∧
      (¬LosesBy s y → s.windowExpiry = (missedReply s x.transporter y).emit [.quietTest]) := by
  have hparams : (missedReply s x.transporter y).params = s.port.params :=
    (calm_confirmMissed (s.endPoll.setTrain x.transporter (some (missedRecord y))) x.transporter).params
  have key : s.windowExpiry = (if ((decide (y.condition = .normal) || decide (y.condition = .stalled)) &&
      decide (s.port.params.missLimit ≤ min 8 (y.missCount + 1))) = true then (missedReply s x.transporter y).goLost x.transporter
      else missedReply s x.transporter y).emit [.quietTest] := by
    unfold State.windowExpiry
    rw [hx, hw]
    dsimp only
    rw [show (s.endPoll.updateTrain x.transporter fun r => { r with missCount := min 8 (r.missCount + 1) }).confirmMissed x.transporter =
      missedReply s x.transporter y from missedReply_eq hy, missedReply_train, hparams]
    rfl
  have hloses : ((decide (y.condition = .normal) || decide (y.condition = .stalled)) &&
      decide (s.port.params.missLimit ≤ min 8 (y.missCount + 1))) = true ↔ LosesBy s y := by
    simp only [Bool.and_eq_true, Bool.or_eq_true, decide_eq_true_eq, LosesBy]
  exact ⟨fun h => by rw [key, if_pos (hloses.2 h)], fun h => by rw [key, if_neg (mt hloses.1 h)]⟩

theorem exec_replyWindowExpiry (s : State) : exec .replyWindowExpiry s = .next (runEvent State.windowExpiry s) := rfl

theorem exec_progressTimerExpiry (t : Nat) (s : State) : exec (.progressTimerExpiry t) s = .next (runEvent (fun s => s.progressExpiry t) s) := rfl

/-- The reply window's expiry, as its own edit and the calm work that follows (R140). -/
theorem missedReply_event {s : State} {x : Poll} {time : Nat} {y : TransporterRec} (ha : s.agenda = []) (hx : s.polls.outstanding = some x)
    (hw : s.polls.window = .running time) (hy : s.train x.transporter = some y) :
    ∃ e, Calm e (runEvent State.windowExpiry s) ∧ EditsTrain x.transporter s e ∧
      (LosesBy s y → e.train x.transporter = some (inCondition .lost (missedRecord y)) ∧
        ⟨.transporterLost, x.transporter⟩ ∈ e.port.notices) ∧
      (¬LosesBy s y → e.train x.transporter = some (missedRecord y)) := by
  obtain ⟨hlost, hkept⟩ := windowExpiry_missed hx hw hy
  have hedit := editsTrain_missedReply hy
  have htrain := missedReply_train (i := x.transporter) s y
  have hnone := noReport_missedReply (i := x.transporter) ha y
  by_cases h : LosesBy s y
  · have hall := (hedit.trans (editsTrain_goLost _)).trans (editsTrain_emit _ [.quietTest])
    have hlisted := noReport_emit (noReport_setCondition (s := (missedReply s x.transporter y).raise .transporterLost x.transporter) hnone
      x.transporter .lost) (xs := [.quietTest]) (by simp [inReport])
    exact ⟨_, event_calm _ (hlost h) hall.frame.pending hlisted, hall, fun _ => ⟨goLost_train htrain, goLost_notice _ _⟩, absurd h⟩
  · have hall := hedit.trans (editsTrain_emit _ [.quietTest])
    exact ⟨_, event_calm _ (hkept h) hall.frame.pending (noReport_emit hnone (by simp [inReport])), hall, fun e => absurd e h, fun _ => htrain⟩

/-! ### A progress timeout -/

theorem progressExpiry_running {s : State} {y : TransporterRec} {time : Nat} (hy : s.train i = some y) (hp : y.progress = .running time) :
    s.progressExpiry i = s.stall i := by
  unfold State.progressExpiry
  rw [hy]
  exact if_pos (by simp [hp])

theorem progressExpiry_stopped {s : State} {y : TransporterRec} (hy : s.train i = some y) (hp : y.progress = .stopped) :
    s.progressExpiry i = s := by
  unfold State.progressExpiry
  rw [hy]
  exact if_neg (by simp [hp])

/-- Settles O53: the miss is counted, and it loses the transporter or leaves its condition (R140); a running progress timer stalls it (R146). The work
that follows lists no stage of a report, so that the conditions stand. -/
theorem missesAndStallsAreCounted : Obligations.MissesAndStallsAreCounted := by
  refine ⟨fun s x time y ha hx hw hy => ?_, fun s i y hy => ⟨fun time ha hp => ?_, fun hw hp => ?_⟩⟩
  · obtain ⟨e, hcalm, hedit, hlost, hkept⟩ := missedReply_event ha hx hw hy
    have hothers := hedit.others_calm hcalm
    have hloads := hcalm.loads.trans hedit.loads
    by_cases h : LosesBy s y
    · obtain ⟨htrain, hnotice⟩ := hlost h
      obtain ⟨z, hz, hshape, hcond, -⟩ := calm_train hcalm htrain
      obtain ⟨hpos, hrest, -, hmiss⟩ := trainShape_inj hshape
      refine ⟨_, z, exec_replyWindowExpiry s, hz, hmiss, hpos, hrest, fun _ _ => ⟨hcond, hcalm.notices _ hnotice⟩, fun hn => ?_, hothers,
        hloads, hedit.afterwards hcalm.toKept⟩
      obtain ⟨hc, hle⟩ := h
      rcases hn with e | e | hlt
      · simp [e] at hc
      · simp [e] at hc
      · exact absurd hlt (Nat.not_lt.2 hle)
    · obtain ⟨z, hz, hshape, hcond, -⟩ := calm_train hcalm (hkept h)
      obtain ⟨hpos, hrest, -, hmiss⟩ := trainShape_inj hshape
      exact ⟨_, z, exec_replyWindowExpiry s, hz, hmiss, hpos, hrest, fun hc hle => absurd ⟨hc, hle⟩ h, fun _ => hcond, hothers, hloads,
        hedit.afterwards hcalm.toKept⟩
  · have hedit := editsTrain_stall (i := i) s
    have hcalm : Calm (s.stall i) (runEvent (fun s => s.progressExpiry i) s) :=
      event_calm _ (progressExpiry_running hy hp) hedit.frame.pending (noReport_stall (noReport_of_empty ha) i)
    obtain ⟨z, hz, hshape, hcond, -⟩ := calm_train hcalm (stall_train hy)
    exact ⟨_, z, exec_progressTimerExpiry i s, hz, hcond, hshape, hcalm.notices _ (stall_notice s i), hedit.others_calm hcalm,
      hcalm.loads.trans hedit.loads, hedit.afterwards hcalm.toKept⟩
  · rw [exec_progressTimerExpiry, event_nothing (fun s => s.progressExpiry i) (progressExpiry_stopped hy hp) hw]

end Sys2Proof.Proofs
end

section
/-!
PROOFS. A report taken or discarded, and the stage of a drive fault (R138 to R142, R146).
-/

namespace Sys2Proof.Proofs

open Sys2Proof Sys2Proof.Machine Sys2Proof.Laws

/-! ### A position taken -/

theorem calm_setLeaving (s : State) (ns : List Nat) (n : Nat) : Calm s (s.setLeaving ns n) :=
  (Calm.foldl (fun s x => calm_setSeg s x (by rfl) (by exact fun _ _ h => h)) ns s).trans (calm_setSeg _ n (by rfl) (by exact fun _ _ h => h))

theorem calm_overrun (s : State) (t n : Nat) (track : List Nat) : Calm s (s.overrun t n track) :=
  calm_ite (fun _ => (calm_unmark s _).trans (calm_settleConfirm _ t)) (fun _ => .refl s)

theorem calm_moveCursor (s : State) (t n : Nat) : Calm s (s.moveCursor t n) := by
  unfold State.moveCursor
  split
  · exact .refl s
  · next k o ha =>
    refine calm_ite (fun _ => ?_) (fun _ => .refl s)
    split
    · exact .refl s
    · refine Calm.trans ?_ (calm_makeDue _ k)
      exact calm_reshape s k (active_order ha) rfl

theorem takePosition_same (s : State) (t n : Nat) : s.takePosition t n n = (s, []) := if_pos rfl

theorem takePosition_moved {m n : Nat} (h : m ≠ n) (s : State) (t : Nat) : (s.takePosition t m n).1 =
    ((((s.setLeaving (s.leavingMarks t m n) n).updateTrain t fun r => { r with position := n }).overrun t n
      ((s.trackAhead t).map (·.segment))).moveCursor t n) := by
  unfold State.takePosition
  rw [if_neg h]

variable {i : Nat}

theorem editsTrain_overrun (s : State) (t n : Nat) (track : List Nat) : EditsTrain i s (s.overrun t n track) :=
  editsTrain_calm (calm_overrun s t n track) (congrArg PollEngine.recs (marks_overrun s t n track).polls)

theorem editsTrain_moveCursor (s : State) (t n : Nat) : EditsTrain i s (s.moveCursor t n) :=
  editsTrain_calm (calm_moveCursor s t n) (congrArg PollEngine.recs (moveCursor_polls s t n))

theorem editsTrain_takePosition (s : State) (m n : Nat) : EditsTrain i s (s.takePosition i m n).1 := by
  by_cases h : m = n
  · rw [h, takePosition_same]
    exact .refl s
  · rw [takePosition_moved h]
    have hleaving := editsTrain_calm (i := i) (calm_setLeaving s (s.leavingMarks i m n) n) (congrArg PollEngine.recs (setLeaving_polls s _ n))
    exact ((hleaving.trans (editsTrain_updateTrain _ _)).trans (editsTrain_overrun _ i n _)).trans (editsTrain_moveCursor _ i n)

/-- The record of the transporter whose position is taken. -/
theorem takePosition_train {s : State} {z : TransporterRec} (h : s.train i = some z) (n : Nat) :
    ((s.takePosition i z.position n).1).train i = some { z with position := n } := by
  rw [takePosition_eq h]
  unfold reportedAt
  split
  · next e => rw [h, e]
  · unfold positionTaken State.train
    rw [moveCursor_polls, (marks_overrun _ i n _).polls]
    exact setTrain_train_same _ i _

/-! ### Stages 2 and 3 of a report -/

variable {s : State} {r : Report} {z : TransporterRec}

theorem reportPosition_astray (h : s.train r.transporter = some z) (hc : z.condition = .astray) : s.reportPosition r = s := by
  unfold State.reportPosition
  dsimp only
  rw [h]
  exact if_pos hc

theorem reportPosition_unheld (h : s.train r.transporter = some z) (hc : z.condition ≠ .astray)
    (hh : (s.seg r.position).holder ≠ some r.transporter) : s.reportPosition r = s.goAstray r.transporter := by
  unfold State.reportPosition
  dsimp only
  rw [h]
  dsimp only
  rw [if_neg hc, if_pos (by simp [State.holds, hh])]

/-- The state in which the position of a transporter on track that it holds is handed on: a LOST one is NORMAL again (R141). -/
def heardAgain (s : State) (t : Nat) (z : TransporterRec) : State := if z.condition = .lost then s.backToNormal t else s

theorem reportPosition_onTrack (h : s.train r.transporter = some z) (hc : z.condition ≠ .astray)
    (hh : (s.seg r.position).holder = some r.transporter) :
    ∃ l, s.reportPosition r = ((heardAgain s r.transporter z).takePosition r.transporter z.position r.position).1.emit l := by
  unfold State.reportPosition
  dsimp only
  rw [h]
  dsimp only
  rw [if_neg hc, if_neg (by simp [State.holds, hh])]
  exact ⟨_, rfl⟩

theorem editsTrain_heardAgain (s : State) (z : TransporterRec) : EditsTrain i s (heardAgain s i z) :=
  editsTrain_ite (editsTrain_backToNormal s) (.refl s)

/-- The record of a transporter heard on track that it holds, but for its position. -/
theorem heardAgain_train (h : s.train i = some z) : ∃ y, (heardAgain s i z).train i = some y ∧ trainShape y = trainShape z ∧
    y.condition = if z.condition = .lost then .normal else z.condition := by
  unfold heardAgain
  split
  · rw [backToNormal_train, if_pos rfl, h]
    exact ⟨_, rfl, rfl, rfl⟩
  · exact ⟨z, h, rfl, rfl⟩

theorem editsTrain_reportPosition (h : s.train r.transporter = some z) : EditsTrain r.transporter s (s.reportPosition r) := by
  by_cases hc : z.condition = .astray
  · rw [reportPosition_astray h hc]
    exact .refl s
  · by_cases hh : (s.seg r.position).holder = some r.transporter
    · obtain ⟨l, e⟩ := reportPosition_onTrack h hc hh
      rw [e]
      exact ((editsTrain_heardAgain s z).trans (editsTrain_takePosition _ _ _)).trans (editsTrain_emit _ l)
    · rw [reportPosition_unheld h hc hh]
      exact editsTrain_goAstray s

/-- The record of a transporter that reports a position on track that it holds (R141). -/
theorem reportPosition_train (h : s.train r.transporter = some z) (hc : z.condition ≠ .astray)
    (hh : (s.seg r.position).holder = some r.transporter) :
    ∃ y, (s.reportPosition r).train r.transporter = some y ∧ trainShape y = (r.position, z.atRest, z.inMotion, z.missCount) ∧
      y.condition = if z.condition = .lost then .normal else z.condition := by
  obtain ⟨l, e⟩ := reportPosition_onTrack h hc hh
  obtain ⟨y, hy, hshape, hcond⟩ := heardAgain_train h
  obtain ⟨hpos, hrest, hmotion, hmiss⟩ := trainShape_inj hshape
  refine ⟨{ y with position := r.position }, ?_, ?_, hcond⟩
  · rw [e, emit_train, ← hpos]
    exact takePosition_train hy r.position
  · simp only [trainShape, hrest, hmotion, hmiss]

/-! ### A report taken -/

variable {x : Poll} {y : TransporterRec}

theorem takeReport_stages (h : s.train r.transporter = some y) :
    ∃ moved, s.takeReport r x = ((heardReport s r y).reportPosition r).emit (laterWork r moved x.inQuiet) := by
  have hheard : s.endPoll.updateTrain r.transporter (fun y => heardRecord y r) = heardReport s r y := updateTrain_some (s := s.endPoll) h _
  rw [← hheard]
  exact ⟨_, rfl⟩

theorem editsTrain_heardReport (h : s.train r.transporter = some y) : EditsTrain r.transporter s (heardReport s r y) := by
  have hheard : s.endPoll.updateTrain r.transporter (fun y => heardRecord y r) = heardReport s r y := updateTrain_some (s := s.endPoll) h _
  rw [← hheard]
  exact (editsTrain_endPoll s).trans (editsTrain_updateTrain _ _)

theorem editsTrain_takeReport (h : s.train r.transporter = some y) : EditsTrain r.transporter s (s.takeReport r x) := by
  obtain ⟨moved, e⟩ := takeReport_stages (x := x) h
  rw [e]
  exact ((editsTrain_heardReport h).trans (editsTrain_reportPosition (heardReport_train s r y))).trans (editsTrain_emit _ _)

/-- The one drive fault that a report lists is its own transporter's, where it gives one (R139). -/
theorem driveFault_mem_takeReport (ha : s.agenda = []) (h : s.train r.transporter = some y) {m : Nat}
    (hm : .driveFault m ∈ (s.takeReport r x).agenda) : m = r.transporter ∧ r.driveFault = true := by
  obtain ⟨moved, e⟩ := takeReport_stages (x := x) h
  rw [e] at hm
  rcases List.mem_append.1 hm with hm | hm
  · rcases reportPosition_agenda _ r _ hm with hm | hm
    · exact absurd (ha ▸ hm : _ ∈ []) List.not_mem_nil
    · cases hm
  · unfold laterWork at hm
    cases hd : r.driveFault with
    | false => simp [hd] at hm
    | true => exact ⟨by simpa [hd] using hm, rfl⟩

theorem takeReport_onTrack (h : s.train r.transporter = some y) (hc : y.condition ≠ .astray)
    (hh : (s.seg r.position).holder = some r.transporter) :
    ∃ z, (s.takeReport r x).train r.transporter = some z ∧ trainShape z = (r.position, r.atRest, r.inMotion, 0) ∧
      z.condition = if y.condition = .lost then .normal else y.condition := by
  obtain ⟨moved, e⟩ := takeReport_stages (x := x) h
  rw [e, emit_train]
  exact reportPosition_train (heardReport_train s r y) hc hh

/-- A report of a position that the transporter does not hold (R142). -/
theorem takeReport_unheld (h : s.train r.transporter = some y) (hc : y.condition ≠ .astray)
    (hh : (s.seg r.position).holder ≠ some r.transporter) :
    (s.takeReport r x).train r.transporter = some (inCondition .astray (heardRecord y r)) ∧
      ⟨.transporterAstray, r.transporter⟩ ∈ (s.takeReport r x).port.notices := by
  obtain ⟨moved, e⟩ := takeReport_stages (x := x) h
  rw [e, reportPosition_unheld (heardReport_train s r y) hc hh]
  exact ⟨goAstray_train (heardReport_train s r y), goAstray_notice (heardReport s r y) r.transporter⟩

theorem takeReport_astray (h : s.train r.transporter = some y) (hc : y.condition = .astray) :
    (s.takeReport r x).train r.transporter = some (heardRecord y r) := by
  obtain ⟨moved, e⟩ := takeReport_stages (x := x) h
  rw [e, emit_train, reportPosition_astray (heardReport_train s r y) hc]
  exact heardReport_train s r y

/-- On track that it holds, a transporter not ASTRAY is STALLED where it was, and NORMAL otherwise (R141). -/
theorem onTrack_condition {c : Condition} (h : c ≠ .astray) :
    (c = .stalled ∧ (if c = .lost then .normal else c) = Condition.stalled) ∨
      (c ≠ .stalled ∧ (if c = .lost then .normal else c) = Condition.normal) := by
  cases c with
  | normal | lost => exact .inr ⟨by decide, rfl⟩
  | stalled => exact .inl ⟨rfl, rfl⟩
  | astray => exact absurd rfl h

/-! ### The event -/

theorem exec_transporterReport (s : State) (bytes : List Byte) :
    exec (.transporterReport bytes) s = .next (runEvent (fun s => s.hearFrame bytes) s) := rfl

/-- A transporter for which an event lists no drive fault keeps its condition through the work. -/
theorem standing_event {act : State → State} {e : State} (he : act s = e) (h : .driveFault i ∉ e.agenda) :
    ((runEvent act s).train i).map (·.condition) = (e.train i).map (·.condition) := by
  subst he
  exact standing_workOff h

/-- A transporter's condition after work: it stands, or NORMAL has turned STALLED. -/
theorem kept_condition {e t : State} {z z' : TransporterRec} (h : Kept e t) (hz : e.train i = some z) (hz' : t.train i = some z') :
    z'.condition = z.condition ∨ (z.condition = .normal ∧ z'.condition = .stalled) := by
  have hcond := h.conditions i
  rw [hz, hz'] at hcond
  exact hcond

theorem driveFault_normal (h : s.train i = some y) (hc : y.condition = .normal) : runTask (.driveFault i) s = s.stall i :=
  if_pos (by simp [State.hasCondition, h, hc])

theorem driveFault_other (h : s.train i = some y) (hc : y.condition ≠ .normal) : runTask (.driveFault i) s = s :=
  if_neg (by simp [State.hasCondition, h, hc])

/-- A frame that fails a check of R138, or answers no poll outstanding, is discarded. -/
theorem hearFrame_discarded {bytes : List Byte} (h : readReport bytes = none ∨ s.polls.outstanding = none ∨
    (∃ r x, readReport bytes = some r ∧ s.polls.outstanding = some x ∧ (r.transporter ≠ x.transporter ∨ r.sequence ≠ x.sequence))) :
    s.hearFrame bytes = s := by
  unfold State.hearFrame State.hearReport
  rcases h with h | h | ⟨r, x, hr, hx, hne⟩
  · rw [h]
  · rw [h]
    split <;> rfl
  · rw [hr]
    dsimp only
    rw [hx]
    exact if_neg fun e => hne.elim (absurd e.1) (absurd e.2)

/-- Settles O50: a report is taken by where it puts its transporter, on track that it holds, off it, or ASTRAY already (R139, R141, R142); the work
that
follows can only turn NORMAL into STALLED, and that only by a drive fault (R146). -/
theorem reportIsTakenOrDiscarded : Obligations.ReportIsTakenOrDiscarded := by
  refine ⟨⟨fun s bytes r x y ha hr hx ht hq hy => ?_, fun s i y hy => ⟨fun hc => ?_, fun hc => driveFault_other hy hc⟩⟩,
    fun s bytes hw h => ?_⟩
  · have hact := hearFrame_answered hr hx ht hq
    have hedit := editsTrain_takeReport (x := x) hy
    have hkept : Kept (s.takeReport r x) (runEvent (fun s => s.hearFrame bytes) s) := event_kept _ hact hedit.frame.pending
    have hstands (m : Nat) (h : ¬(m = r.transporter ∧ r.driveFault = true)) :=
      standing_event (act := fun s => s.hearFrame bytes) hact (i := m) (mt (driveFault_mem_takeReport ha hy) h)
    have hothers (m : Nat) (hm : m ≠ r.transporter) := And.intro ((hkept.trains m).trans (by rw [hedit.others m hm]))
      ((hstands m fun e => hm e.1).trans (by rw [hedit.others m hm]))
    by_cases hc : y.condition = .astray
    · have htrain := takeReport_astray (x := x) hy hc
      obtain ⟨z, hz, hshape⟩ := kept_train hkept htrain
      obtain ⟨hpos, hrest, hmotion, hmiss⟩ := trainShape_inj hshape
      have hcond : z.condition = .astray := by simpa [heardRecord, hc] using kept_condition hkept htrain hz
      exact ⟨_, z, exec_transporterReport s bytes, hz, hmiss, hrest, hmotion, absurd hc, absurd hc, fun _ => ⟨hpos, hcond⟩, hothers,
        hedit.afterwards hkept⟩
    · by_cases hh : (s.seg r.position).holder = some r.transporter
      · obtain ⟨e, htrain, heshape, hecond⟩ := takeReport_onTrack (x := x) hy hc hh
        obtain ⟨z, hz, hshape⟩ := kept_train hkept htrain
        have hshape := hshape.trans heshape
        simp only [trainShape, Prod.mk.injEq] at hshape
        obtain ⟨hpos, hrest, hmotion, hmiss⟩ := hshape
        have hcond := kept_condition hkept htrain hz
        have hsame (hd : r.driveFault = false) : z.condition = e.condition := by
          have h := hstands r.transporter fun e => by rw [hd] at e; cases e.2
          rw [hz, htrain] at h
          exact Option.some.inj h
        refine ⟨_, z, exec_transporterReport s bytes, hz, hmiss, hrest, hmotion, fun _ _ => ⟨hpos, ?_⟩,
          fun _ hn => absurd hh hn, fun e => absurd e hc, hothers, hedit.afterwards hkept⟩
        rcases onTrack_condition hc with ⟨hst, e'⟩ | ⟨hst, e'⟩ <;> rw [hecond, e'] at hcond hsame
        · have hz' : z.condition = .stalled := hcond.resolve_right fun h => by cases h.1
          exact ⟨.inr hz', fun _ => hz', fun h => absurd hst h⟩
        · exact ⟨hcond.imp_right And.right, fun h => absurd h hst, fun _ => hsame⟩
      · obtain ⟨htrain, hnotice⟩ := takeReport_unheld (x := x) hy hc hh
        obtain ⟨z, hz, hshape⟩ := kept_train hkept htrain
        obtain ⟨hpos, hrest, hmotion, hmiss⟩ := trainShape_inj hshape
        have hcond : z.condition = .astray := by simpa [inCondition] using kept_condition hkept htrain hz
        exact ⟨_, z, exec_transporterReport s bytes, hz, hmiss, hrest, hmotion, fun _ h => absurd h hh,
          fun _ _ => ⟨hpos, hcond, hkept.notices _ hnotice⟩, fun e => absurd e hc, hothers, hedit.afterwards hkept⟩
  · rw [driveFault_normal hy hc]
    exact ⟨_, stall_train hy, rfl, rfl, rfl, stall_notice s i⟩
  · rw [exec_transporterReport, event_nothing (fun s => s.hearFrame bytes) (hearFrame_discarded h) hw]

end Sys2Proof.Proofs
end

section
/-!
PROOFS. Polls: the gap timer's expiry and the poll that it sends (R135, R136).
-/

namespace Sys2Proof.Proofs

open Sys2Proof Sys2Proof.Machine Sys2Proof.Laws

/-! ### What the blocks find to do after an edit of the Poll Engine -/

/-- What an order's transfer reads of a transporter's record (R79). -/
def transferShape (r : TransporterRec) : Nat × Bool × Condition := (r.position, r.atRest, r.condition)

section
variable {s t : State} (htrains : ∀ m, (t.train m).map transferShape = (s.train m).map transferShape)
include htrains

theorem hasCondition_of_trains (m : Nat) (c : Condition) : t.hasCondition m c = s.hasCondition m c := by
  have h := htrains m
  unfold State.hasCondition
  cases hs : s.train m <;> cases ht : t.train m <;> simp_all [transferShape]

theorem restsAt_of_trains (m : Nat) (n : Option Nat) : t.restsAt m n = s.restsAt m n := by
  have h := htrains m
  unfold State.restsAt
  cases hs : s.train m <;> cases ht : t.train m <;> simp_all [transferShape]

/-- An edit of the polls that leaves the quiet state and the positions, the rest and the conditions of the transporters leaves the blocks nothing
to do. -/
theorem settled_polls (h : s.Settled) (hsegs : t.core.segs = s.core.segs) (hjunctions : t.junctions = s.junctions) (horders : t.orders = s.orders)
    (htransfer : t.transfer = s.transfer) (hguards : t.guards = s.guards) (hquiet : t.polls.quiet = s.polls.quiet) (hagenda : t.agenda = s.agenda)
    (hdue : t.due = s.due) : t.Settled := by
  have hmay : t.mayTransfer = s.mayTransfer := by
    funext slot
    have hcoupling : t.couplingSet = s.couplingSet := by
      unfold State.couplingSet State.transferAt State.pad
      rw [htransfer]
    unfold State.mayTransfer
    rw [show t.order slot = s.order slot by unfold State.order; rw [horders], hcoupling,
      show t.holdActive = s.holdActive by unfold State.holdActive; rw [hguards], show t.quietOn = s.quietOn by unfold State.quietOn; rw [hquiet]]
    simp only [hasCondition_of_trains htrains, restsAt_of_trains htrains]
  have hnext : t.rotationNext = s.rotationNext := by
    unfold State.rotationNext State.rotationEligible State.junction State.seg
    rw [hjunctions, hsegs]
  exact ⟨hagenda.trans h.agenda, hdue.trans h.due, hmay ▸ h.transfers, by rw [hjunctions, hnext]; exact h.rotation⟩

end

/-! ### A poll composed and sent -/

/-- The poll composed for a transporter with the Core's record `r` (R136). -/
def pollTo (s : State) (i : Nat) (r : RunRec) : Poll :=
  { transporter := i, sequence := s.polls.nextSequence, limit := r.limit, ceiling := r.ceiling, permission := s.permission i
    transmitted := false, inQuiet := decide (s.polls.quiet = .pending) }

/-- The poll outstanding, the sequence number used and the rotation moved on (R135, R136). -/
def pollSent (s : State) (i : Nat) (r : RunRec) : State :=
  { s with polls := { s.polls with outstanding := some (pollTo s i r), nextSequence := s.polls.nextSequence + 1, pointer := some i } }

/-- The limit recorded as last sent (R136). -/
def sentLimit (r : RunRec) (y : TransporterRec) : TransporterRec := { y with lastSent := r.limit }

/-- A withdrawal that awaits a poll awaits its reply (R40). -/
def replyAwaited (s : State) (i : Nat) (r : RunRec) : State :=
  if r.confirm = .awaitingPoll then s.setRun i (some { r with confirm := .awaitingReply }) else s

/-- What a poll writes: the Poll Engine's records, the limit last sent and the confirmation; `p` is the progress timer after its test (R144). -/
def polled (s : State) (i : Nat) (r : RunRec) (y : TransporterRec) (p : Timer) : State :=
  (replyAwaited ((pollSent s i r).setTrain i (some (sentLimit r y))) i r).setTrain i (some { sentLimit r y with progress := p })

theorem replyAwaited_writes (s : State) (i : Nat) (r : RunRec) : ∃ l, replyAwaited s i r = { s with core := { s.core with runs := l } } := by
  unfold replyAwaited
  split
  · exact ⟨_, rfl⟩
  · exact ⟨s.core.runs, rfl⟩

/-- A poll writes the Core's records of the transporters and the Poll Engine alone. -/
theorem polled_writes (s : State) (i : Nat) (r : RunRec) (y : TransporterRec) (p : Timer) : ∃ runs recs, polled s i r y p =
    { s with core := { s.core with runs := runs }, polls := { (pollSent s i r).polls with recs := recs } } := by
  obtain ⟨l, e⟩ := replyAwaited_writes ((pollSent s i r).setTrain i (some (sentLimit r y))) i r
  unfold polled
  rw [e]
  exact ⟨_, _, rfl⟩

variable {s : State} {i : Nat} {r : RunRec} {y : TransporterRec}

theorem poll_eq (hr : s.run i = some r) (hy : s.train i = some y) : ∃ p, s.poll i = polled s i r y p := by
  have hsent : (pollSent s i r).updateTrain i (sentLimit r) =
      (pollSent s i r).setTrain i (some (sentLimit r y)) := updateTrain_some (s := pollSent s i r) hy _
  have hawaited : ((pollSent s i r).setTrain i (some (sentLimit r y))).confirmPolled i =
      replyAwaited ((pollSent s i r).setTrain i (some (sentLimit r y))) i r :=
    confirmPolled_of_run (s := (pollSent s i r).setTrain i (some (sentLimit r y))) hr
  have htrain : (replyAwaited ((pollSent s i r).setTrain i (some (sentLimit r y))) i r).train i =
      some (sentLimit r y) := by
    obtain ⟨l, e⟩ := replyAwaited_writes ((pollSent s i r).setTrain i (some (sentLimit r y))) i r
    rw [e]
    exact setTrain_train_same (pollSent s i r) i _
  have hpoll : s.poll i = (((pollSent s i r).updateTrain i (sentLimit r)).confirmPolled i).progressTest i := by
    unfold State.poll
    rw [hr]
    rfl
  rw [hpoll, hsent, hawaited]
  exact ⟨_, updateTrain_some htrain _⟩

theorem polled_train (s : State) (i : Nat) (r : RunRec) (y : TransporterRec) (p : Timer) (m : Nat) :
    (polled s i r y p).train m = if m = i then some { sentLimit r y with progress := p } else s.train m := by
  obtain ⟨l, e⟩ := replyAwaited_writes ((pollSent s i r).setTrain i (some (sentLimit r y))) i r
  unfold polled
  rw [setTrain_train, e]
  exact ite_congr rfl (fun _ => rfl) fun hm => (setTrain_train (pollSent s i r) i _ m).trans (if_neg hm)

theorem polled_run (s : State) (i : Nat) (r : RunRec) (y : TransporterRec) (p : Timer) (m : Nat) :
    (polled s i r y p).run m = if m = i ∧ r.confirm = .awaitingPoll then some { r with confirm := .awaitingReply } else s.run m := by
  unfold polled replyAwaited
  rw [setTrain_run]
  by_cases hc : r.confirm = .awaitingPoll
  · rw [if_pos hc, setRun_run]
    exact if_congr (by simp [hc]) rfl rfl
  · rw [if_neg hc, if_neg fun h => hc h.2]
    rfl

/-- A poll leaves the blocks nothing to do. -/
theorem settled_polled (h : s.Settled) (hy : s.train i = some y) (p : Timer) : (polled s i r y p).Settled := by
  have htrains : ∀ m, ((polled s i r y p).train m).map transferShape = (s.train m).map transferShape := fun m => by
    rw [polled_train]
    split
    · next e => rw [e, hy]; rfl
    · rfl
  obtain ⟨runs, recs, e⟩ := polled_writes s i r y p
  rw [e] at htrains ⊢
  exact settled_polls (s := s) htrains h rfl rfl rfl rfl rfl rfl rfl rfl

/-! ### The gap timer and the reply window -/

theorem exec_gapTimerExpiry (s : State) : exec .gapTimerExpiry s = .next (runEvent State.gapExpiry s) := rfl

theorem exec_pollTransmitted (s : State) : exec .pollTransmitted s = .next (runEvent State.pollTransmitted s) := rfl

/-- The gap timer stopped (R135). -/
def gapStopped (s : State) : State := { s with polls := { s.polls with gap := .stopped } }

theorem settled_gapStopped (h : s.Settled) : (gapStopped s).Settled := settled_polls (s := s) (fun _ => rfl) h rfl rfl rfl rfl rfl rfl rfl rfl

theorem pollNext_sends (hq : s.polls.quiet ≠ .inForce) (ho : s.polls.outstanding = none) (hi : s.nextInRotation = some i) :
    s.pollNext = s.poll i := by
  unfold State.pollNext
  rw [if_neg (by simp [hq, ho]), hi]

theorem pollNext_idle (h : s.polls.quiet = .inForce ∨ s.nextInRotation = none) : s.pollNext = s := by
  unfold State.pollNext
  split
  · rfl
  · next hn =>
    rw [h.resolve_left fun e => hn (.inl e)]

/-- The gap timer's expiry makes the one try to send a poll, which leaves the blocks nothing more to do. -/
theorem gapExpiry_event {t : State} {time : Nat} (hw : s.Settled) (hg : s.polls.gap = .running time) (ht : (gapStopped s).pollNext = t)
    (hsettled : t.Settled) (hpending : t.pending = s.pending) : runEvent State.gapExpiry s = t.decideAttention := by
  have hact : s.gapExpiry = (gapStopped s).emit [.pollNext] := by
    unfold State.gapExpiry
    rw [hg]
    rfl
  have haside : ({ (gapStopped s).emit [.pollNext] with agenda := [] } : State) = gapStopped s := by
    show ({ gapStopped s with agenda := [] } : State) = gapStopped s
    rw [← show (gapStopped s).agenda = [] from hw.agenda]
  have hwork : workOff s.gapExpiry = t := by
    rw [hact]
    refine workOff_once (x := .pollNext) ?_ ((congrArg (runTask .pollNext) haside).trans ht) hsettled
    exact congrArg (· ++ [Machine.Task.pollNext]) hw.agenda
  unfold runEvent closeEvent
  rw [hwork, ← hpending]
  rfl

theorem pollTransmitted_eq {x : Poll} (hx : s.polls.outstanding = some x) (ht : x.transmitted = false) : s.pollTransmitted =
    { s with polls := { s.polls with outstanding := some { x with transmitted := true }, window := .running s.port.params.replyWindow } } := by
  unfold State.pollTransmitted
  rw [hx]
  dsimp only
  rw [if_neg (by simp [ht])]
  rfl

/-- Settles O49: the gap timer's expiry lists one try at a poll, whose edit leaves the blocks settled. -/
theorem pollsAreSent : Obligations.PollsAreSent := by
  refine ⟨fun s time hw _ hg => ⟨fun i r y hq ho hi hr hy => ?_, fun h => ?_⟩, fun s x hw hx ht => ?_⟩
  · obtain ⟨p, hpoll⟩ := poll_eq (s := gapStopped s) hr hy
    have hsettled : (polled (gapStopped s) i r y p).Settled := settled_polled (settled_gapStopped hw) hy p
    have hnext : (gapStopped s).pollNext = polled (gapStopped s) i r y p := (pollNext_sends (s := gapStopped s) hq ho hi).trans hpoll
    have htrain := polled_train (gapStopped s) i r y p
    have hrun := polled_run (gapStopped s) i r y p
    obtain ⟨runs, recs, e⟩ := polled_writes (gapStopped s) i r y p
    rw [e] at hsettled hnext htrain hrun
    exact ⟨_, pollTo (gapStopped s) i r, { sentLimit r y with progress := p },
      (exec_gapTimerExpiry s).trans (congrArg _ (gapExpiry_event hw hg hnext hsettled rfl)), rfl, rfl, rfl, rfl, rfl, rfl, rfl, rfl,
      (htrain i).trans (if_pos rfl), rfl, rfl, rfl, fun hc => (hrun i).trans (if_pos ⟨rfl, hc⟩),
      fun m hm => ⟨(htrain m).trans (if_neg hm), (hrun m).trans (if_neg fun h => hm h.1)⟩, rfl, rfl, rfl, rfl, rfl, rfl, rfl, rfl, rfl⟩
  · rw [exec_gapTimerExpiry, gapExpiry_event hw hg (pollNext_idle (s := gapStopped s) h) (settled_gapStopped hw) rfl]
    rfl
  · rw [exec_pollTransmitted, event_settled _ (pollTransmitted_eq hx ht)
      (settled_polls (s := s) (fun _ => rfl) hw rfl rfl rfl rfl rfl rfl rfl rfl) rfl]

end Sys2Proof.Proofs
end

section
/-!
PROOFS. Radio quiet: `enter-quiet` and `leave-quiet` (R148, R151).
-/

namespace Sys2Proof.Proofs

open Sys2Proof Sys2Proof.Machine Sys2Proof.Laws

/-! ### Every enrolled transporter's record edited -/

/-- The records of the transporters listed edited. -/
def editTrains (f : TransporterRec → TransporterRec) (l : List Nat) (s : State) : State := l.foldl (fun s t => s.updateTrain t f) s

theorem updateTrain_writes (s : State) (t : Nat) (f : TransporterRec → TransporterRec) :
    ∃ recs, s.updateTrain t f = { s with polls := { s.polls with recs := recs } } := by
  cases h : s.train t with
  | none => exact ⟨s.polls.recs, updateTrain_none h f⟩
  | some y => exact ⟨_, updateTrain_some h f⟩

theorem editTrains_writes (f : TransporterRec → TransporterRec) (l : List Nat) (s : State) :
    ∃ recs, editTrains f l s = { s with polls := { s.polls with recs := recs } } := by
  induction l generalizing s with
  | nil => exact ⟨s.polls.recs, rfl⟩
  | cons t l ih =>
    obtain ⟨recs, e⟩ := updateTrain_writes s t f
    obtain ⟨recs', e'⟩ := ih (s.updateTrain t f)
    refine ⟨recs', e'.trans ?_⟩
    rw [e]

theorem editTrains_train (f : TransporterRec → TransporterRec) {l : List Nat} (hl : l.Nodup) (s : State) (i : Nat) :
    (editTrains f l s).train i = if i ∈ l then (s.train i).map f else s.train i := by
  induction l generalizing s with
  | nil => exact (if_neg List.not_mem_nil).symm
  | cons t l ih =>
    obtain ⟨ht, hl⟩ := List.nodup_cons.1 hl
    refine (ih hl (s.updateTrain t f)).trans ?_
    rw [updateTrain_train]
    by_cases hi : i = t
    · simp [hi, ht]
    · simp [hi]

theorem mem_enrolledList {s : State} {i : Nat} : i ∈ s.enrolledList ↔ i ≤ 3 ∧ s.enrolled i = true := by
  unfold State.enrolledList transporters
  rw [List.mem_filter]
  refine and_congr_left fun _ => ?_
  simp only [List.mem_cons, List.not_mem_nil, or_false]
  omega

theorem enrolledList_nodup (s : State) : s.enrolledList.Nodup := List.Nodup.filter _ (by decide)

/-- What the edit of every enrolled transporter's record leaves of any record, where the edit itself leaves it. -/
theorem editTrains_map {α : Type} {g : TransporterRec → α} {f : TransporterRec → TransporterRec} (h : ∀ y, g (f y) = g y) (s : State)
    (i : Nat) :
    ((editTrains f s.enrolledList s).train i).map g = (s.train i).map g := by
  rw [editTrains_train f (enrolledList_nodup s)]
  split
  · rw [Option.map_map]
    exact congrArg (Option.map · (s.train i)) (funext h)
  · rfl

/-- Every record of an enrolled transporter has been edited. -/
theorem editTrains_edited {f : TransporterRec → TransporterRec} {s : State} {i : Nat} {z : TransporterRec} (hi : i ≤ 3)
    (hz : (editTrains f s.enrolledList s).train i = some z) : ∃ y, s.train i = some y ∧ z = f y := by
  rw [editTrains_train f (enrolledList_nodup s)] at hz
  split at hz
  · obtain ⟨y, hy, e⟩ := Option.map_eq_some_iff.1 hz
    exact ⟨y, hy, e.symm⟩
  · next hn => exact absurd (mem_enrolledList.2 ⟨hi, by unfold State.enrolled; rw [hz]; rfl⟩) hn

theorem frame_editTrains (f : TransporterRec → TransporterRec) (l : List Nat) (s : State) : Frame s (editTrains f l s) := by
  induction l generalizing s with
  | nil => exact (Kept.refl s).frame
  | cons t l ih => exact (frame_updateTrain s t f).trans (ih _)

theorem frame_setAnswers {s t : State} (h : Frame s t) (a : List Answer) : Frame (s.setAnswers a) (t.setAnswers a) := { h with answers := rfl }

/-- The frame of a request: its own edit's, and that of the work that follows, with the answer given. -/
theorem frame_answered {s e t : State} {h : Header} {r : Request} {o : Outcome} {b : Body} (he : Frame s e) (ht : Kept (e.answered h r o b) t) :
    Frame { s with port := { s.port with answers := t.port.answers } } t := by
  rw [ht.answers]
  exact (frame_setAnswers he _).trans ht.frame

/-- Calm work leaves what an order's transfer reads of a transporter's record. -/
theorem calm_transferShape {e t : State} (h : Calm e t) (i : Nat) : (t.train i).map transferShape = (e.train i).map transferShape := by
  cases ht : t.train i with
  | none => exact (Option.map_eq_none_iff.1 ((h.trains i).symm.trans (congrArg (Option.map trainShape) ht))).symm ▸ rfl
  | some z' =>
    obtain ⟨z, hz, hshape, hcond, -⟩ := calm_train_before h ht
    obtain ⟨hpos, hrest, -⟩ := trainShape_inj hshape
    rw [hz]
    simp only [Option.map_some, transferShape, hpos, hrest, hcond]

/-! ### `enter-quiet` -/

/-- The quiet state replaced, and every enrolled transporter's record edited. -/
def quietEdit (v : QuietState) (f : TransporterRec → TransporterRec) (s : State) : State :=
  editTrains f s.enrolledList { s with polls := { s.polls with quiet := v } }

theorem frame_quietEdit (v : QuietState) (f : TransporterRec → TransporterRec) (s : State) : Frame s (quietEdit v f s) :=
  Frame.trans (b := { s with polls := { s.polls with quiet := v } }) { (Kept.refl s).frame with } (frame_editTrains f _ _)

theorem quietEdit_same (v : QuietState) (f : TransporterRec → TransporterRec) (s : State) : (quietEdit v f s).polls.quiet = v ∧
    (quietEdit v f s).port = s.port ∧ (quietEdit v f s).transfer = s.transfer ∧ (quietEdit v f s).agenda = s.agenda ∧
    (quietEdit v f s).late = s.late ∧ (quietEdit v f s).pending = s.pending := by
  obtain ⟨recs, e⟩ := editTrains_writes f s.enrolledList { s with polls := { s.polls with quiet := v } }
  rw [show quietEdit v f s = _ from e]
  exact ⟨rfl, rfl, rfl, rfl, rfl, rfl⟩

theorem quietEdit_map {α : Type} {g : TransporterRec → α} {f : TransporterRec → TransporterRec} (h : ∀ y, g (f y) = g y) (v : QuietState)
    (s : State) (i : Nat) : ((quietEdit v f s).train i).map g = (s.train i).map g :=
  editTrains_map h { s with polls := { s.polls with quiet := v } } i

theorem quietEdit_edited {v : QuietState} {f : TransporterRec → TransporterRec} {s : State} {i : Nat} {z : TransporterRec} (hi : i ≤ 3)
    (hz : (quietEdit v f s).train i = some z) : ∃ y, s.train i = some y ∧ z = f y :=
  editTrains_edited (s := { s with polls := { s.polls with quiet := v } }) hi hz

/-- No transporter has stood for quiet (R148). -/
def unstood (y : TransporterRec) : TransporterRec := { y with quietStand := false }

/-- The state in which quiet is asked for and the work that this sets off is listed (R148). -/
def quietAsked (s : State) : State :=
  let e := quietEdit .pending unstood s
  e.emit (e.enrolledList.map .recompute ++ [.quietTest])

theorem takeEnterQuiet_entered {s : State} (q : Ask) (hq : s.polls.quiet = .off)
    (hn : ∀ e ∈ s.orders.slots, ∀ o, e.2 = some o → o.state ≠ .transfer) : s.takeEnterQuiet q = (quietAsked s).answerAfter (.quiet q) := by
  refine if_neg fun h => ?_
  rcases h with h | h
  · exact h hq
  · obtain ⟨e, he, hs⟩ := List.any_eq_true.1 h
    split at hs
    · next o ho => exact hn e he o ho (of_decide_eq_true hs)
    · cases hs

theorem takeEnterQuiet_refused {s : State} (q : Ask)
    (h : s.polls.quiet ≠ .off ∨ ∃ e ∈ s.orders.slots, ∃ o, e.2 = some o ∧ o.state = .transfer) :
    s.takeEnterQuiet q = s.answer q .refusedState .empty := by
  refine if_pos (h.imp_right ?_)
  rintro ⟨e, he, o, ho, hs⟩
  refine List.any_eq_true.2 ⟨e, he, ?_⟩
  rw [ho]
  exact decide_eq_true hs

theorem noReport_recomputes {s : State} (h : s.agenda = []) (l : List Nat) {xs : List Machine.Task} (hx : ∀ x ∈ xs, inReport x = false) :
    noReport (s.emit (l.map .recompute ++ xs)) :=
  noReport_emit (noReport_of_empty h) fun x hm => (List.mem_append.1 hm).elim (fun hm => by
    obtain ⟨n, -, rfl⟩ := List.mem_map.1 hm
    rfl) (hx x)

theorem noReport_quietAsked {s : State} (h : s.agenda = []) : noReport (quietAsked s) := by
  obtain ⟨-, -, -, hagenda, -⟩ := quietEdit_same .pending unstood s
  exact noReport_recomputes (s := quietEdit .pending unstood s) (hagenda.trans h) _ (by simp [inReport])

/-- What the work of `enter-quiet` leaves of the quiet state is what its answer gives (R148). -/
theorem answerQuiet_eq {s : State} (q : Ask) (h : s.polls.quiet = .pending ∨ s.polls.quiet = .inForce) :
    (s.polls.quiet = .pending ∧ s.answerQuiet q = s.answer q .accepted (.quiet .pending (some s.stillToStand))) ∨
      (s.polls.quiet = .inForce ∧ s.answerQuiet q = s.answer q .done (.quiet .inForce none)) := by
  rcases h with h | h
  · exact .inl ⟨h, if_neg (by simp [h])⟩
  · exact .inr ⟨h, if_pos h⟩

/-- `enter-quiet` that is taken: the work done on its edit, and then the answer, which gives the quiet state that the work left. -/
theorem exec_enterQuiet {s : State} (hs : s.Ready) {h : Header} (hwho : h.originator ≠ .scheduler) (hq : s.polls.quiet = .off)
    (hn : ∀ e ∈ s.orders.slots, ∀ o, e.2 = some o → o.state ≠ .transfer) :
    ∃ w o b, exec (.enterQuiet h) s = .next (closeEvent s.pending (w.answered h .enterQuiet o b)) ∧ Calm (quietAsked s) w ∧
      ((w.polls.quiet = .pending ∧ o = .accepted ∧ b = .quiet .pending (some w.stillToStand)) ∨
        (w.polls.quiet = .inForce ∧ o = .done ∧ b = .quiet .inForce none)) := by
  obtain ⟨hquiet, hport, -, -, hlate, -⟩ := quietEdit_same .pending unstood s
  have hdecided : s.decideValid ⟨h.tag, codeOf .enterQuiet⟩ h.originator .enterQuiet =
      (quietAsked s).answerAfter (.quiet ⟨h.tag, codeOf .enterQuiet⟩) :=
    (decideValid_owner (r := .enterQuiet) (classAllows_desk hwho) rfl rfl).trans (takeEnterQuiet_entered _ hq hn)
  obtain ⟨hcalm, hsubmit⟩ := submit_late hs h .enterQuiet hdecided (noReport_quietAsked hs.agenda) (hlate.trans hs.late)
  have hexec := exec_request (c := .enterQuiet h) rfl s
  rw [hsubmit] at hexec
  have hplaced (o : Outcome) (b : Body) := answer_ready hs (hcalm.answers.trans (congrArg ControlPort.answers hport)) h .enterQuiet o b
  have hafter := hcalm.quiet.imp (fun e => e.trans hquiet) And.right
  have hclosed {u v : State} (e : u = v) : (Host.Outcome.next (closeEvent s.pending u) : Host.Outcome State Fault Refusal) =
      .next (closeEvent s.pending v) := e ▸ rfl
  obtain ⟨hw, hanswer⟩ | ⟨hw, hanswer⟩ := answerQuiet_eq ⟨h.tag, codeOf .enterQuiet⟩ hafter
  · exact ⟨_, _, _, hexec.trans (hclosed (hanswer.trans (hplaced _ _))), hcalm, .inl ⟨hw, rfl, rfl⟩⟩
  · exact ⟨_, _, _, hexec.trans (hclosed (hanswer.trans (hplaced _ _))), hcalm, .inr ⟨hw, rfl, rfl⟩⟩

/-! ### `leave-quiet` -/

/-- The record of a transporter when quiet is left (R151). -/
def renewed (y : TransporterRec) : TransporterRec := { y with quietStand := false, missCount := 0 }

/-- The state in which quiet is left and the work that this sets off is listed (R151). -/
def quietLeft (s : State) : State :=
  let e := quietEdit .off renewed s
  e.emit (e.enrolledList.map .recompute ++ (if s.polls.quiet = .inForce then [.pollNext] else []) ++ [.startTransfers])

theorem takeLeaveQuiet_left {s : State} (q : Ask) (hq : s.polls.quiet ≠ .off) : s.takeLeaveQuiet q = (quietLeft s).answer q .done .empty := by
  refine (if_neg hq).trans ?_
  simp only [decide_eq_true_eq]
  rfl

theorem noReport_quietLeft {s : State} (h : s.agenda = []) : noReport (quietLeft s) := by
  obtain ⟨-, -, -, hagenda, -⟩ := quietEdit_same .off renewed s
  unfold quietLeft
  dsimp only
  rw [List.append_assoc]
  refine noReport_recomputes (hagenda.trans h) _ fun x hx => ?_
  split at hx
  · simp only [List.cons_append, List.nil_append, List.mem_cons, List.not_mem_nil, or_false] at hx
    rcases hx with rfl | rfl <;> rfl
  · cases List.mem_singleton.1 hx
    rfl

/-- Settles O48: each request edits the quiet state and every enrolled transporter's record; the work that follows can only bring PENDING quiet into
force (R149). -/
theorem quietIsEnteredAndLeft : Obligations.QuietIsEnteredAndLeft := by
  intro h s hs hwho
  have refused {c : Instr} {r : Request} (hc : c.request? = some (h, r)) (hcl : classOf r = .desk) (hob : entryObject r = none)
      (hlay : s.layoutRefuses r = false) (hw : s.Settled)
      (e : s.owner ⟨h.tag, codeOf r⟩ h.originator r = s.answer ⟨h.tag, codeOf r⟩ .refusedState .empty) :
      exec c s = .next (s.answered h r .refusedState .empty).decideAttention :=
    exec_answer hc hs hw (by rw [hcl]; exact classAllows_desk hwho) hob hlay e
  refine ⟨fun hq hn => ?_, fun hq => ?_, fun hw hn => refused rfl rfl rfl rfl hw (takeEnterQuiet_refused _ hn),
    fun hw hq => refused rfl rfl rfl rfl hw (if_pos hq)⟩
  · obtain ⟨w, o, b, hexec, hcalm, hquiet⟩ := exec_enterQuiet hs hwho hq hn
    obtain ⟨-, hport, htransfer, -, -, hpending⟩ := quietEdit_same .pending unstood s
    have hanswers : w.port.answers = s.port.answers := hcalm.answers.trans (congrArg ControlPort.answers hport)
    have hloads : w.transfer.loads = s.transfer.loads := hcalm.loads.trans (congrArg TransferUnit.loads htransfer)
    refine ⟨_, hexec, hquiet.imp ?_ ?_, fun i => ?_, fun i z hi hz => ?_, hloads, ?_⟩
    · rintro ⟨hw, rfl, rfl⟩
      exact ⟨hw, congrArg (· ++ [_]) hanswers⟩
    · rintro ⟨hw, rfl, rfl⟩
      exact ⟨hw, congrArg (· ++ [_]) hanswers⟩
    · exact (hcalm.trains i).trans (quietEdit_map (f := unstood) (fun _ => rfl) .pending s i)
    · obtain ⟨y, hy, -, -, hstand⟩ := calm_train_before hcalm hz
      obtain ⟨y', -, rfl⟩ := quietEdit_edited hi hy
      exact hstand
    · have hclosed := (calm_answered hcalm h .enterQuiet o b).trans (calm_closeEvent _ s.pending (hcalm.pending.trans hpending))
      exact frame_answered ((frame_quietEdit .pending unstood s).trans (frame_emit _ _)) hclosed.toKept
  · obtain ⟨hoff, hport, htransfer, -, hlate, hpending⟩ := quietEdit_same .off renewed s
    have hanswers : (quietLeft s).port.answers = s.port.answers := congrArg ControlPort.answers hport
    obtain ⟨t, ht, hcalm⟩ := exec_edit (c := .leaveQuiet h) (r := .leaveQuiet) rfl hs (classAllows_desk hwho) rfl rfl (takeLeaveQuiet_left _ hq)
      (noReport_quietLeft hs.agenda) hanswers hlate hpending
    have hquiet : t.polls.quiet = .off := by
      rcases hcalm.quiet with e | ⟨e, -⟩
      · exact e.trans hoff
      · cases e.symm.trans hoff
    refine ⟨t, ht, hquiet, hcalm.answers.trans (congrArg (· ++ [_]) hanswers), fun i z hi hz => ?_, fun i => ?_,
      hcalm.loads.trans (congrArg TransferUnit.loads htransfer), ?_⟩
    · obtain ⟨y, hy, hshape, -, hstand⟩ := calm_train_before hcalm hz
      obtain ⟨y', -, rfl⟩ := quietEdit_edited hi hy
      exact ⟨hstand, (trainShape_inj hshape).2.2.2⟩
    · exact (calm_transferShape hcalm i).trans (quietEdit_map (f := renewed) (g := transferShape) (fun _ => rfl) .off s i)
    · exact frame_answered ((frame_quietEdit .off renewed s).trans (frame_emit _ _)) hcalm.toKept

end Sys2Proof.Proofs
end

section
/-!
PROOFS. `clear-astray` and `proceed`, and what a transporter leaves when its orders end and it leaves its queues (R87, R134, R143, R147).
-/

namespace Sys2Proof.Proofs

open Sys2Proof Sys2Proof.Machine Sys2Proof.Laws

variable {i n : Nat}

/-! ### Work that lists no release -/

/-- Nothing newly listed releases a segment. -/
def Unreleasing (s t : State) : Prop := ∀ m j, Machine.Task.release m j ∈ t.agenda → Machine.Task.release m j ∈ s.agenda

theorem Unreleasing.trans {a b c : State} (h : Unreleasing a b) (k : Unreleasing b c) : Unreleasing a c := fun m j hm => h m j (k m j hm)

theorem unreleasing_same {s t : State} (h : t.agenda = s.agenda) : Unreleasing s t := fun _ _ hm => h ▸ hm

theorem unreleasing_emit (s : State) {xs : List Machine.Task} (h : ∀ m j, Machine.Task.release m j ∉ xs) : Unreleasing s (s.emit xs) :=
  fun m j hm => (List.mem_append.1 hm).resolve_right (h m j)

theorem unreleasing_foldl {α : Type} {f : State → α → State} (h : ∀ s x, Unreleasing s (f s x)) (l : List α) (s : State) :
    Unreleasing s (l.foldl f s) := by
  induction l generalizing s with
  | nil => exact unreleasing_same rfl
  | cons x rest ih => exact (h s x).trans (ih _)

theorem unreleasing_leaveQueue (s : State) (t m : Nat) : Unreleasing s (s.leaveQueue t m) := by
  unfold State.leaveQueue
  dsimp only
  split
  · split
    · exact unreleasing_emit (s.setSeg m _) (by simp)
    · exact unreleasing_same rfl
  · exact unreleasing_same rfl

theorem unreleasing_leaveQueues (s : State) (t : Nat) : Unreleasing s (s.leaveQueues t) :=
  (unreleasing_foldl (fun s m => unreleasing_leaveQueue s t m) _ s).trans
    (unreleasing_foldl (f := State.unlistHead) (fun _ _ => unreleasing_same (by rfl)) _ _)

theorem unreleasing_removeHead (s : State) (slot : Nat) : Unreleasing s (s.removeHead slot) := by
  unfold State.removeHead
  split
  · exact unreleasing_same rfl
  · dsimp only
    split
    · exact unreleasing_leaveQueue (s.unlistHead slot) _ _
    · exact unreleasing_same rfl

theorem unreleasing_endOrder (s : State) (slot : Nat) (x : OrderOutcome) : Unreleasing s (s.endOrder slot x) := by
  have hhead : Unreleasing s ((s.removeHead slot).dropClaim slot) := unreleasing_removeHead s slot
  unfold State.endOrder
  dsimp only
  split
  · exact hhead
  · split
    · exact hhead.trans (unreleasing_emit _ (by simp))
    · exact hhead.trans (unreleasing_emit _ (by simp))

theorem placeTelescope_agenda (s : State) (x : Nat) (p : Placement) : (s.placeTelescope x p).agenda = s.agenda := by cases p <;> rfl

theorem unreleasing_changeLoad (s : State) (t : Nat) (l : Load) : Unreleasing s (s.changeLoad t l) :=
  unreleasing_emit (s.setLoad t (some l)) (by simp)

theorem unreleasing_settleTransfer (s : State) (p : Nat) (x : TransferRec) (touched : Bool) : Unreleasing s (s.settleTransfer p x touched) := by
  unfold State.settleTransfer
  dsimp only
  split
  · split
    · refine Unreleasing.trans (unreleasing_same ?_) (unreleasing_changeLoad _ _ _)
      exact placeTelescope_agenda _ _ _
    · exact unreleasing_same (placeTelescope_agenda _ _ _)
  · split
    · exact unreleasing_same rfl
    · exact unreleasing_same rfl

/-! ### A transporter that parts with its orders and leaves its queues -/

/-- The state in which every order of a transporter has ended and it stands in no queue. -/
def leftAll (s : State) (i : Nat) : State := (s.endAllOrders i).leaveQueues i

/-- What holds of the transfer that an order's end abandons, and of the end itself, holds of the ends of all orders. -/
theorem endAllOrders_keeps {P : State → State → Prop} (hrefl : ∀ s, P s s) (htrans : ∀ {a b c}, P a b → P b c → P a c)
    (habandon : ∀ s p x, s.transferOf i = some (p, x) → P s (s.abandonTransfer p x)) (hend : ∀ s k, P s (s.endOrder k .cancelled)) (s : State) :
    P s (s.endAllOrders i) := by
  have hone (s : State) (k : Nat) : P s (endOne i s k) := by
    unfold endOne
    refine htrans ?_ (hend _ k)
    split
    · next p x hx =>
      split
      · exact habandon s p x hx
      · exact hrefl s
    · exact hrefl s
  rw [endAllOrders_eq]
  generalize s.liveSlots i = l
  induction l generalizing s with
  | nil => exact hrefl s
  | cons k rest ih => exact htrans (hone s k) (ih _)

theorem unreleasing_leftAll (s : State) (i : Nat) : Unreleasing s (leftAll s i) :=
  (endAllOrders_keeps (i := i) (fun _ => unreleasing_same rfl) Unreleasing.trans (fun s p x _ => unreleasing_settleTransfer s p x _)
    (fun s k => unreleasing_endOrder s k _) s).trans (unreleasing_leaveQueues _ i)

/-- What leaving one queue and taking one head off the lists leave, leaving every queue leaves. -/
theorem leaveQueues_keeps {α : Type} {g : State → α} {t : Nat} (hqueue : ∀ s m, g (s.leaveQueue t m) = g s)
    (hhead : ∀ s k, g (s.unlistHead k) = g s) (s : State) : g (s.leaveQueues t) = g s := by
  have hqueues (l : List Nat) (s : State) : g (l.foldl (fun s m => s.leaveQueue t m) s) = g s := by
    induction l generalizing s with
    | nil => rfl
    | cons m rest ih => exact (ih _).trans (hqueue s m)
  have hheads (l : List Nat) (s : State) : g (l.foldl State.unlistHead s) = g s := by
    induction l generalizing s with
    | nil => rfl
    | cons k rest ih => exact (ih _).trans (hhead s k)
  exact (hheads _ _).trans (hqueues _ s)

theorem leaveQueues_polls (s : State) (t : Nat) : (s.leaveQueues t).polls = s.polls :=
  leaveQueues_keeps (g := State.polls) (fun s m => leaveQueue_polls s t m) (fun _ _ => rfl) s

theorem leftAll_polls (s : State) (i : Nat) : (leftAll s i).polls = s.polls :=
  (leaveQueues_polls _ i).trans (endAllOrders_keeps (i := i) (P := fun s t => t.polls = s.polls) (fun _ => rfl) (fun h k => k.trans h)
    (fun s p x _ => settleTransfer_polls s p x _) (fun s k => endOrder_polls s k _) s)

theorem leftAll_train (s : State) (i m : Nat) : (leftAll s i).train m = s.train m :=
  congrArg (fun l : PollEngine => Table.get none l.recs m) (leftAll_polls s i)

theorem kept_leftAll (s : State) (i : Nat) : Kept s (leftAll s i) := (kept_endAllOrders s i).trans (calm_leaveQueues _ i).toKept

theorem plain_leftAll (s : State) (i : Nat) : Plain s (leftAll s i) := (plain_endAllOrders s i).trans (plain_leaveQueues _ i)

theorem leftAll_holder (s : State) (i m : Nat) : ((leftAll s i).seg m).holder = (s.seg m).holder :=
  ((sameHolders_endAllOrders s i).trans (leaveQueues_same _ i) m).1

theorem noReport_plain {s t : State} (h : Plain s t) (ha : s.agenda = []) : noReport t := fun x hx => by
  rcases h x hx with e | e
  · rw [ha] at e
    cases e
  · exact (foreign_plain (i := 0) (K := fun _ => False) e).1.1

/-- What a transporter that has parted with its orders leaves of them (R87): each live one is ENDED as CANCELLED and notified, none is named by its
references, and it stands in no queue. -/
structure PartedWith (i : Nat) (s t : State) : Prop where
  ended : ∀ k o, s.order k = some o → o.transporter = i → o.live = true →
    (∃ o', t.order k = some o' ∧ o'.state = .ended ∧ o'.outcome = some .cancelled) ∧ ⟨.orderEnded, k⟩ ∈ t.port.notices
  refs : t.orderRefs i = { active := none, stack := [], pendingDivert := none }
  queues : ∀ m, i ∉ (t.seg m).queue

/-- The orders that a transporter has. -/
def ordersOf (s : State) (i : Nat) (k : Nat) : Prop := ∃ o, s.order k = some o ∧ o.transporter = i

theorem parted_putOn {s v : State} (hr : s.refsRight) (hl : s.slotsRight) (hv : PutOn i n (ordersOf s i) (leftAll s i) v) :
    Parted i (ordersOf s i) v :=
  parted_of (parted_left hr hl i) hv.orders hv.queues hv.heads

/-- A transporter has parted with its orders, and the edit `v` that follows keeps to its segment `n`; of the segments that the transporter holds all
but `n` are listed to be released. What the work leaves (R134, R143). -/
theorem parted_work {s v : State} {xs : List Machine.Task} (hr : s.refsRight) (hl : s.slotsRight) (ha : s.agenda = [])
    (hv : PutOn i n (ordersOf s i) (leftAll s i) v) (hx : ∀ x ∈ xs, plainTask x = true)
    (hheld : ∀ m, m ≠ n → ((leftAll s i).seg m).holder = some i → Machine.Task.release m i ∈ xs) {t : State}
    {p : List Instr} {h : Header} {r : Request} {o : Outcome} {b : Body} (ht : t = closeEvent p (workOff ((v.emit xs).answered h r o b))) :
    PartedWith i s t ∧ (t.agenda = [] → ∀ m, m ≠ n → (t.seg m).holder ≠ some i) := by
  subst ht
  have hplain : Plain s (v.emit xs) := ((plain_leftAll s i).trans hv.plain).trans (plain_emit v hx)
  have hforeign : ∀ x ∈ (v.emit xs).agenda, foreign i (ordersOf s i) x := fun x hm => by
    rcases hplain x hm with e | e
    · rw [ha] at e
      cases e
    · exact foreign_plain e
  have hparted : Parted i (ordersOf s i) ((v.emit xs).answered h r o b) := parted_aside (parted_putOn hr hl hv) rfl rfl rfl rfl
  obtain ⟨hended, hrefs, hqueues, hholders, hreleased⟩ := left_work (u := (v.emit xs).answered h r o b) hl hv.orders hparted hforeign
    fun x hm => hv.notices x ((calm_leaveQueues _ i).notices x hm)
  refine ⟨⟨hended, hrefs, hqueues⟩, fun hdone m hm hholder => hreleased hdone m (List.mem_append_right _ (hheld m hm ?_)) hholder⟩
  exact (hv.holders m hm).symm.trans (hholders m hholder)

/-! ### The segment that a transporter is given -/

/-- A transporter without an active order keeps its segment through the event's work, where nothing listed releases it. -/
theorem sits_work {e t : State} {p : List Instr} {h : Header} {r : Request} {o : Outcome} {b : Body} (hsits : Sits i n e)
    (hstill : ∀ y ∈ e.agenda, still i n y) (ht : t = closeEvent p (workOff (e.answered h r o b))) : (t.seg n).holder = some i := by
  subst ht
  exact (holder_workOff (s := e.answered h r o b) hsits hstill).2

/-- A transporter without an active order is granted a segment: it sits there, and nothing new is listed that would release the segment. -/
theorem grant_sits {s : State} (h : (s.orderRefs i).active = none) :
    Sits i n (s.grant i n) ∧ ∀ y ∈ (s.grant i n).agenda, y ∈ s.agenda ∨ still i n y :=
  ((seat_emit (s.setSeg n { s.seg n with holder := some i }) (by simp [still, inReport])).trans (seat_waits (waits_junctionGranted _ n)))
    ⟨h, congrArg SegDyn.holder (setSeg_seg_same s n _)⟩

/-- The record of a transporter put on a segment (R143). -/
def putRecord (s : State) (n : Nat) (y : TransporterRec) : TransporterRec :=
  { y with position := n, condition := .normal, missCount := 0, grace := s.params.grace, progress := .stopped }

/-- The segment given by `clear-astray`: kept, or granted (R143). -/
def giveSegment (s : State) (t n : Nat) : State :=
  if s.holds t n then s.setSeg n { s.seg n with leaving := false, withdrawing := none } else s.grant t n

theorem putTrain_eq (s : State) (t n : Nat) : s.putTrain t n =
    (((giveSegment s t n).updateTrain t (putRecord (giveSegment s t n) n)).setConfirm t .none).emit [.recompute t] := rfl

theorem giveSegment_sits {s : State} (h : (s.orderRefs i).active = none) :
    Sits i n (giveSegment s i n) ∧ ∀ y ∈ (giveSegment s i n).agenda, y ∈ s.agenda ∨ still i n y := by
  unfold giveSegment
  split
  · next hh => exact ⟨⟨h, (congrArg SegDyn.holder (setSeg_seg_same s n _)).trans (of_decide_eq_true hh)⟩, fun _ hy => .inl hy⟩
  · exact grant_sits h

theorem putTrain_sits {s : State} (h : (s.orderRefs i).active = none) :
    Sits i n (s.putTrain i n) ∧ ∀ y ∈ (s.putTrain i n).agenda, y ∈ s.agenda ∨ still i n y := by
  obtain ⟨hsits, hlisted⟩ := giveSegment_sits (n := n) h
  have hrest : KeepsSeat i n (giveSegment s i n) (s.putTrain i n) :=
    ((seat_waits (waits_updateTrain _ i _)).trans (seat_waits (waits_setConfirm _ i .none))).trans (seat_emit _ (by simp [still, inReport]))
  obtain ⟨hafter, hnew⟩ := hrest hsits
  exact ⟨hafter, fun y hy => (hnew y hy).elim (hlisted y) .inr⟩

theorem tellHolder_polls (s : State) (j : Nat) : (s.tellHolder j).polls = s.polls := by
  unfold State.tellHolder
  split <;> rfl

theorem withdrawThrow_polls (s : State) (j : Nat) : (s.withdrawThrow j).polls = s.polls := by
  unfold State.withdrawThrow
  split
  · split
    · exact tellHolder_polls _ j
    · rfl
  · rfl

theorem junctionGranted_polls (s : State) (j : Nat) : (s.junctionGranted j).polls = s.polls := by
  unfold State.junctionGranted
  split
  · exact withdrawThrow_polls _ j
  · rfl

theorem grant_polls (s : State) (t m : Nat) : (s.grant t m).polls = s.polls := junctionGranted_polls _ m

theorem giveSegment_polls (s : State) (t m : Nat) : (giveSegment s t m).polls = s.polls := by
  unfold giveSegment
  split
  · rfl
  · exact grant_polls s t m

theorem putTrain_train (s : State) (t m j : Nat) :
    (s.putTrain t m).train j = if j = t then (s.train j).map (putRecord (giveSegment s t m) m) else s.train j := by
  have hconfirm (u : State) : (u.setConfirm t .none).train j = u.train j :=
    congrArg (fun l : PollEngine => Table.get none l.recs j) (setConfirm_polls u t .none)
  have hgive : (giveSegment s t m).train j = s.train j := congrArg (fun l : PollEngine => Table.get none l.recs j) (giveSegment_polls s t m)
  rw [putTrain_eq, emit_train, hconfirm, updateTrain_train, hgive]

theorem frame_setSeg (s : State) (m : Nat) (r : SegDyn) : Frame s (s.setSeg m r) := { (Kept.refl s).frame with }

theorem frame_grant (s : State) (t m : Nat) : Frame s (s.grant t m) :=
  ((frame_setSeg s m _).trans (frame_emit _ _)).trans (calm_junctionGranted _ m).toKept.frame

theorem frame_giveSegment (s : State) (t m : Nat) : Frame s (giveSegment s t m) := by
  unfold giveSegment
  split
  · exact frame_setSeg s m _
  · exact frame_grant s t m

theorem frame_putTrain (s : State) (t m : Nat) : Frame s (s.putTrain t m) :=
  (((frame_giveSegment s t m).trans (frame_updateTrain _ t _)).trans (calm_setConfirm _ t .none).toKept.frame).trans (frame_emit _ _)

/-! ### A request of MAINTENANCE that edits the records -/

/-- A request of MAINTENANCE whose owner edits the records and answers at once: the work is done on the edit. -/
theorem exec_work_maintenance {c : Instr} {h : Header} {r : Request} {s e : State} {o : Outcome} {b : Body} (hc : c.request? = some (h, r))
    (hs : s.Ready) (hm : h.originator = .maintenance) (hcl : classOf r = .maintenance) (hlay : s.layoutRefuses r = false)
    (he : s.owner ⟨h.tag, codeOf r⟩ h.originator r = e.answer ⟨h.tag, codeOf r⟩ o b) (hn : noReport e)
    (ha : e.port.answers = s.port.answers) (hl : e.late = s.late) (hp : e.pending = s.pending) :
    ∃ t, exec c s = .next t ∧ t = closeEvent s.pending (workOff (e.answered h r o b)) ∧ Calm (e.answered h r o b) t := by
  have hdecided : s.decideValid ⟨h.tag, codeOf r⟩ h.originator r = e.answered h r o b :=
    (decideValid_owner (by rw [hcl, hm]; rfl) (by rw [hm]; exact entry_maintenance s _) hlay).trans (he.trans (answer_ready hs ha h r o b))
  have hnone : noReport (e.answered h r o b) := hn
  have hwork := calm_workOff _ hnone
  exact ⟨_, (exec_request hc s).trans (congrArg _ (submit_work hs h r hdecided hnone (hl.trans hs.late))), rfl,
    hwork.trans (calm_closeEvent _ _ (hwork.pending.trans hp))⟩

section

variable {s e t : State} {h : Header} {r : Request} {o : Outcome} {b : Body} {m : Nat}

theorem calm_answered_train {z : TransporterRec} (hc : Calm (e.answered h r o b) t) (hz : e.train m = some z) :
    ∃ z', t.train m = some z' ∧ trainShape z' = trainShape z ∧ z'.condition = z.condition ∧ z'.quietStand = z.quietStand :=
  calm_train (e := e.answered h r o b) hc hz

theorem calm_answered_others (hc : Calm (e.answered h r o b) t) (hm : e.train m = s.train m) :
    (t.train m).map trainShape = (s.train m).map trainShape ∧ (t.train m).map (·.condition) = (s.train m).map (·.condition) :=
  ⟨(hc.trains m).trans (congrArg (Option.map trainShape) hm), (hc.standing m).trans (congrArg (Option.map (·.condition)) hm)⟩

theorem calm_answered_answers (hc : Calm (e.answered h r o b) t) (ha : e.port.answers = s.port.answers) :
    t.port.answers = s.port.answers ++ [⟨h.tag, codeOf r, o, b⟩] :=
  hc.answers.trans (congrArg (· ++ [_]) ha)

end

/-! ### `clear-astray` -/

/-- The state in which a transporter found again stands on its segment, and the release of the others that it holds is listed (R143). -/
def astrayCleared (s : State) (i n : Nat) : State :=
  ((leftAll s i).putTrain i n).emit (((((leftAll s i).holdings i).filter fun m => decide (m ≠ n))).map fun m => .release m i)

/-- A segment that a transporter can have: it holds it, or no one does and no fence covers it (R143). -/
def ToBeHad (s : State) (i n : Nat) : Prop := (s.seg n).holder = some i ∨ ((s.seg n).holder = none ∧ s.fenceCount n = 0)

theorem toBeHad_iff {s : State} : ToBeHad s i n ↔ (!(s.holds i n || ((s.seg n).holder.isNone && decide (s.fenceCount n = 0)))) ≠ true := by
  simp only [ToBeHad, State.holds, Bool.not_eq_true, Bool.not_eq_false', Bool.or_eq_true, Bool.and_eq_true, decide_eq_true_eq,
    Option.isNone_iff_eq_none]

theorem hasCondition_of {s : State} {t : Nat} {r : TransporterRec} {c : Condition} (hr : s.train t = some r) (hc : r.condition = c) :
    s.hasCondition t c = true := by
  unfold State.hasCondition
  rw [hr]
  exact decide_eq_true hc

theorem takeClearAstray_cleared {s : State} (q : Ask) (hi : i ≤ 3) (hn : n ≤ 127) (hd : (s.decl n).isSome = true)
    (hc : s.hasCondition i .astray = true) (hh : ToBeHad s i n) : s.takeClearAstray q i n = (astrayCleared s i n).answer q .done .empty := by
  refine (if_neg ?_).trans ((if_neg ?_).trans (if_neg (toBeHad_iff.1 hh)))
  · rintro (h | h | h)
    · exact absurd h (Nat.not_lt.2 hi)
    · exact absurd h (Nat.not_lt.2 hn)
    · rw [Option.isNone_iff_eq_none.1 h] at hd
      cases hd
  · rw [hc]
    exact Bool.false_ne_true

theorem takeClearAstray_refused {s : State} (q : Ask) (hi : i ≤ 3) (hn : n ≤ 127) (hd : (s.decl n).isSome = true)
    (h : s.hasCondition i .astray = false ∨ ¬ToBeHad s i n) : s.takeClearAstray q i n = s.answer q .refusedState .empty := by
  refine (if_neg ?_).trans ?_
  · rintro (h | h | h)
    · exact absurd h (Nat.not_lt.2 hi)
    · exact absurd h (Nat.not_lt.2 hn)
    · rw [Option.isNone_iff_eq_none.1 h] at hd
      cases hd
  · by_cases hc : s.hasCondition i .astray = true
    · exact (if_neg (by rw [hc]; exact Bool.false_ne_true)).trans
        (if_pos (Decidable.not_not.1 (mt toBeHad_iff.2 (h.resolve_left (by rw [hc]; exact Bool.noConfusion)))))
    · exact if_pos (by rw [Bool.eq_false_iff.2 hc]; rfl)

theorem plainTask_releases (l : List Nat) : ∀ x ∈ l.map (fun m => Machine.Task.release m i), plainTask x = true := fun x hx => by
  obtain ⟨m, -, rfl⟩ := List.mem_map.1 hx
  rfl

theorem noReport_astrayCleared {s : State} (ha : s.agenda = []) : noReport (astrayCleared s i n) :=
  noReport_plain (((plain_leftAll s i).trans (putOn_putTrain (K := fun _ => False) _ n).plain).trans (plain_emit _ (plainTask_releases _))) ha

theorem frame_astrayCleared (s : State) (i n : Nat) : Frame s (astrayCleared s i n) :=
  ((kept_leftAll s i).frame.trans (frame_putTrain _ i n)).trans (frame_emit _ _)

theorem still_of_plain {y : Machine.Task} (h : plainTask y = true) (hr : y ≠ .release n i) : still i n y :=
  still_of_orderly (by cases y <;> first | rfl | cases h) hr

/-- Ending the orders and leaving the queues lists nothing that would release a segment. -/
theorem leftAll_still {s : State} (ha : s.agenda = []) : ∀ y ∈ (leftAll s i).agenda, still i n y := by
  intro y hy
  have hnone (x : Machine.Task) : x ∉ s.agenda := by
    rw [ha]
    exact List.not_mem_nil
  have hplain := (plain_leftAll s i y hy).resolve_left (hnone y)
  refine still_of_plain hplain ?_
  rintro rfl
  exact hnone _ (unreleasing_leftAll s i n i hy)

theorem astrayCleared_late (s : State) (i n : Nat) : (astrayCleared s i n).late = s.late := by
  unfold astrayCleared
  rw [emit_late, (putOn_putTrain (K := ordersOf s i) (leftAll s i) n).late, (kept_leftAll s i).late]

/-- The transporter found again sits on its segment once its orders have ended, and nothing listed releases that segment. -/
theorem astrayCleared_sits {s : State} (hr : s.refsRight) (hl : s.slotsRight) (ha : s.agenda = []) :
    Sits i n (astrayCleared s i n) ∧ ∀ y ∈ (astrayCleared s i n).agenda, still i n y := by
  have hactive : ((leftAll s i).orderRefs i).active = none := (parted_left hr hl i).orderless.active
  obtain ⟨hsits, hlisted⟩ := putTrain_sits (n := n) hactive
  obtain ⟨hafter, hnew⟩ := seat_emit (xs := (((leftAll s i).holdings i).filter fun m => decide (m ≠ n)).map fun m => .release m i) _
    (fun y hy => by
    obtain ⟨m, hm, rfl⟩ := List.mem_map.1 hy
    refine still_of_orderly rfl fun e => ?_
    cases e
    exact of_decide_eq_true (List.mem_filter.1 hm).2 rfl) hsits
  exact ⟨hafter, fun y hy => (hnew y hy).elim (fun hy => (hlisted y hy).elim (leftAll_still ha y) id) id⟩

theorem astrayCleared_train (s : State) (i n m : Nat) :
    (astrayCleared s i n).train m = if m = i then (s.train m).map (putRecord (giveSegment (leftAll s i) i n) n) else s.train m := by
  unfold astrayCleared
  rw [emit_train, putTrain_train, leftAll_train]

/-! ### `proceed` -/

theorem takeProceed_normal {s : State} (q : Ask) (hi : i ≤ 3) (hc : s.hasCondition i .stalled = true) :
    s.takeProceed q i = (s.backToNormal i).answer q .done .empty :=
  (if_neg (Nat.not_lt.2 hi)).trans (if_neg (by rw [hc]; exact Bool.false_ne_true))

theorem takeProceed_refused {s : State} (q : Ask) (hi : i ≤ 3) (hc : s.hasCondition i .stalled = false) :
    s.takeProceed q i = s.answer q .refusedState .empty :=
  (if_neg (Nat.not_lt.2 hi)).trans (if_pos (by rw [hc]; rfl))

theorem noReport_backToNormal {s : State} (h : s.agenda = []) (t : Nat) : noReport (s.backToNormal t) := by
  have hrecord : (s.updateTrain t fun r => { r with condition := .normal, grace := s.params.grace }).agenda = [] :=
    (updateTrain_agenda s t _).trans h
  exact noReport_emit (noReport_of_kept (calm_makeActiveDue _ t).toKept hrecord) (by simp [inReport])

theorem updateTrain_late (s : State) (t : Nat) (f : TransporterRec → TransporterRec) : (s.updateTrain t f).late = s.late := by
  unfold State.updateTrain
  split <;> rfl

theorem backToNormal_late (s : State) (t : Nat) : (s.backToNormal t).late = s.late := by
  unfold State.backToNormal
  rw [emit_late, (calm_makeActiveDue _ t).late, updateTrain_late]

/-- Settles O47: the orders end and the queues are left first, the edit that gives the segment keeps the rest, and nothing listed releases it (R143);
`proceed` edits one record (R147). -/
theorem clearAstrayAndProceedReturnToNormal : Obligations.ClearAstrayAndProceedReturnToNormal := by
  refine ⟨fun h i n s hs hm => ⟨fun r hi hn hd hr hc hh => ?_, fun hw hi hn hd hrefused => ?_, fun hw hrange => ?_⟩,
    fun h i s hs hwho => ⟨fun r hi hr hc => ?_, fun hw hi hc => ?_, fun hw hi => ?_⟩⟩
  · have hframe := frame_astrayCleared s i n
    have hput := putOn_putTrain (i := i) (K := ordersOf s i) (leftAll s i) n
    obtain ⟨t, hexec, hwork, hcalm⟩ := exec_work_maintenance (c := .clearAstray h i n) (r := .clearAstray i n)
      (e := astrayCleared s i n) rfl hs hm rfl rfl (takeClearAstray_cleared _ hi hn hd (hasCondition_of hr hc) hh)
      (noReport_astrayCleared hs.agenda) hframe.answers
      (astrayCleared_late s i n) hframe.pending
    have htrain : (astrayCleared s i n).train i = some (putRecord (giveSegment (leftAll s i) i n) n r) := by
      rw [astrayCleared_train, if_pos rfl, hr]
      rfl
    have hother (m : Nat) (hne : m ≠ i) : (astrayCleared s i n).train m = s.train m := (astrayCleared_train s i n m).trans (if_neg hne)
    obtain ⟨z, hz, hshape, hcond, -⟩ := calm_answered_train hcalm htrain
    obtain ⟨hpos, hrest, -, hmiss⟩ := trainShape_inj hshape
    refine ⟨t, z, hexec, hz, hpos, hcond, hmiss, hrest, fun hrefs hslots => ?_, fun hrefs hslots => ?_,
      fun m hne => calm_answered_others hcalm (hother m hne), calm_answered_answers hcalm hframe.answers, frame_answered hframe hcalm.toKept⟩
    · obtain ⟨hsits, hstill⟩ := astrayCleared_sits (n := n) hrefs hslots hs.agenda
      exact sits_work hsits hstill hwork
    · obtain ⟨hparted, hreleased⟩ := parted_work hrefs hslots hs.agenda hput (plainTask_releases _)
        (fun m hne hholder => List.mem_map.2 ⟨m, List.mem_filter.2 ⟨mem_holdings hholder, decide_eq_true hne⟩, rfl⟩) hwork
      exact ⟨hparted.ended, hparted.refs, hparted.queues, hreleased⟩
  · refine exec_answer_maintenance (c := .clearAstray h i n) rfl hs hw hm rfl rfl (takeClearAstray_refused _ hi hn hd (hrefused.imp_right ?_))
    rintro ⟨hother, hheld⟩ (hhad | ⟨hfree, hfence⟩)
    · exact hother hhad
    · exact hheld.elim (absurd hfree) (absurd hfence)
  · exact exec_answer_maintenance (c := .clearAstray h i n) rfl hs hw hm rfl rfl
      (if_pos (hrange.imp_right (Or.imp_right fun e => Option.isNone_iff_eq_none.2 e)))
  · have hedit := editsTrain_backToNormal (i := i) s
    obtain ⟨t, ht, hcalm⟩ := exec_edit (c := .proceed h i) (r := .proceed i) rfl hs (classAllows_desk hwho) rfl rfl
      (takeProceed_normal _ hi (hasCondition_of hr hc)) (noReport_backToNormal hs.agenda i) hedit.frame.answers
      (backToNormal_late s i) hedit.frame.pending
    have htrain : (s.backToNormal i).train i = some { r with condition := .normal, grace := s.params.grace } := by
      rw [backToNormal_train, if_pos rfl, hr]
      rfl
    obtain ⟨z, hz, hshape, hcond, -⟩ := calm_answered_train hcalm htrain
    exact ⟨t, z, ht, hz, hcond, hshape, fun m hne => (calm_answered_others hcalm (hedit.others m hne)).2,
      fun m hne => (calm_answered_others hcalm (hedit.others m hne)).1, calm_answered_answers hcalm hedit.frame.answers,
      hcalm.loads.trans hedit.loads, frame_answered hedit.frame hcalm.toKept⟩
  · exact exec_answer (c := .proceed h i) rfl hs hw (classAllows_desk hwho) rfl rfl (takeProceed_refused _ hi hc)
  · exact exec_answer (c := .proceed h i) rfl hs hw (classAllows_desk hwho) rfl rfl (if_pos hi)

end Sys2Proof.Proofs
end

section
/-!
PROOFS. `enroll-transporter` and `disenroll-transporter` (R132 to R134, R127, R87).
-/

namespace Sys2Proof.Proofs

open Sys2Proof Sys2Proof.Machine Sys2Proof.Laws

variable {i n : Nat}

/-! ### A load taken up -/

theorem takeUpLoad_core (s : State) (i : Nat) (x : LoadTarget) : (s.takeUpLoad i x).core = s.core := by cases x <;> rfl

theorem takeUpLoad_polls (s : State) (i : Nat) (x : LoadTarget) : (s.takeUpLoad i x).polls = s.polls := by cases x <;> rfl

theorem kept_takeUpLoad (s : State) (i : Nat) (x : LoadTarget) : Kept s (s.takeUpLoad i x) := by
  cases x with
  | none => exact kept_changeLoad s i _
  | telescope y => exact (kept_placeTelescope s y _).trans (kept_changeLoad _ i _)

theorem plain_takeUpLoad (s : State) (i : Nat) (x : LoadTarget) : Plain s (s.takeUpLoad i x) := fun y hy => by
  obtain ⟨-, hagenda, -⟩ := takeUpLoad_same s i x
  rw [hagenda] at hy
  refine (List.mem_append.1 hy).imp_right fun hy => ?_
  cases List.mem_singleton.1 hy
  rfl

theorem seat_takeUpLoad (s : State) (x : LoadTarget) : KeepsSeat i n s (s.takeUpLoad i x) := by
  refine seat_same (congrArg (fun o : OrderTable => (Table.get OrderRefs.initial o.refs i).active) (takeUpLoad_orders s i x))
    (congrArg (fun c : InterlockCore => (Table.get SegDyn.initial c.segs n).holder) (takeUpLoad_core s i x)) fun y hy => ?_
  obtain ⟨-, hagenda, -⟩ := takeUpLoad_same s i x
  rw [hagenda] at hy
  refine (List.mem_append.1 hy).imp_right fun hy => ?_
  cases List.mem_singleton.1 hy
  exact still_of_plain rfl (by simp)

theorem plain_grant (s : State) (i n : Nat) : Plain s (s.grant i n) :=
  (plain_emit (s.setSeg n { s.seg n with holder := some i }) (by simp [plainTask])).trans (plain_junctionGranted _ n)

/-! ### `enroll-transporter` -/

/-- A transporter's record and run record made (R133). -/
def newlyEnrolled (s : State) (i n : Nat) : State :=
  (s.setTrain i (some (s.newTrain n))).setRun i (some { limit := n, ceiling := .creep, confirm := .none })

/-- The segment given to the transporter just enrolled, with its load (R133). -/
def enrolledAt (s : State) (i n : Nat) (x : LoadTarget) : State := ((newlyEnrolled s i n).grant i n).takeUpLoad i x

/-- The poll that begins the rotation where none is outstanding and no gap runs (R133). -/
def firstPoll (s : State) : List Machine.Task := if decide (s.polls.outstanding = none) && decide (s.polls.gap = .stopped) then [.pollNext] else []

theorem mem_firstPoll {s : State} {y : Machine.Task} (h : y ∈ firstPoll s) : y = .pollNext := by
  unfold firstPoll at h
  split at h
  · exact List.mem_singleton.1 h
  · cases h

theorem takeEnroll_enrolled {s : State} {x : LoadTarget} (q : Ask) (h : firstFailing (s.enrollTests i n x) = none) :
    s.takeEnroll q i n x = ((enrolledAt s i n x).emit (firstPoll s)).answer q .done .empty := by
  unfold State.takeEnroll
  rw [h]
  rfl

theorem takeEnroll_refused {s : State} {x : LoadTarget} {k : Nat} (q : Ask) (h : firstFailing (s.enrollTests i n x) = some k) :
    s.takeEnroll q i n x = s.answer q (if k ≤ 2 then .refusedRange else .refusedState) (.failedTest k) := by
  unfold State.takeEnroll
  rw [h]

theorem enrollTests_pass {s : State} {x : LoadTarget} (hi : i ≤ 3) (hn : n ≤ 127)
    (hx : ∀ y, x = .telescope y → y ≤ 63 ∧ s.placement y = .unplaced) (hd : (s.decl n).isSome = true) (ht : s.train i = none)
    (hh : (s.seg n).holder = none) (hf : s.fenceCount n = 0) :
    firstFailing (s.enrollTests i n x) = none := by
  have hnumber : (loadTelescope x).all (fun y => decide (y ≤ 63)) = true := by
    cases x with
    | none => rfl
    | telescope y => exact decide_eq_true (hx y rfl).1
  have hfree : s.isFree (loadTelescope x) = true := isFree_load.2 fun y hy => (hx y hy).2
  have hnew : s.enrolled i = false := by
    unfold State.enrolled
    rw [ht]
    rfl
  rw [firstFailing_none]
  simp [State.enrollTests, hi, hn, hnumber, hfree, hnew, hd, hh, hf]

theorem enrolledAt_core (s : State) (i n : Nat) (x : LoadTarget) : (enrolledAt s i n x).core =
    ((newlyEnrolled s i n).setSeg n { s.seg n with holder := some i }).core :=
  (takeUpLoad_core _ i x).trans (grant_same _ i n).1

theorem enrolledAt_seg (s : State) (i n : Nat) (x : LoadTarget) (m : Nat) :
    (enrolledAt s i n x).seg m = if m = n then { s.seg n with holder := some i } else s.seg m :=
  (congrArg (fun c : InterlockCore => Table.get SegDyn.initial c.segs m) (enrolledAt_core s i n x)).trans (setSeg_seg _ n _ m)

theorem enrolledAt_run (s : State) (i n : Nat) (x : LoadTarget) : ((enrolledAt s i n x).run i).isSome = true := by
  have hsame : (enrolledAt s i n x).run i = (newlyEnrolled s i n).run i := by
    unfold State.run
    rw [enrolledAt_core]
    rfl
  rw [hsame, newlyEnrolled, setRun_run_same]
  rfl

theorem enrolledAt_train (s : State) (i n : Nat) (x : LoadTarget) (m : Nat) :
    (enrolledAt s i n x).train m = if m = i then some (s.newTrain n) else s.train m :=
  (congrArg (fun l : PollEngine => Table.get none l.recs m) ((takeUpLoad_polls _ i x).trans (grant_polls _ i n))).trans (setTrain_train s i _ m)

theorem enrolledAt_orders (s : State) (i n : Nat) (x : LoadTarget) : (enrolledAt s i n x).orders = s.orders :=
  (takeUpLoad_orders _ i x).trans (grant_orders _ i n)

theorem enrolledAt_padShape (s : State) (i n : Nat) (x : LoadTarget) (p : Nat) : padShape ((enrolledAt s i n x).pad p) = padShape (s.pad p) :=
  ((kept_takeUpLoad _ i x).pads p).trans ((frame_grant _ i n).pads p)

theorem enrolledAt_load (s : State) (i n : Nat) (x : LoadTarget) : (enrolledAt s i n x).load i = some (targetLoad x) :=
  (takeUpLoad_load _ i x i).trans (if_pos rfl)

theorem enrolledAt_aside (s : State) (i n : Nat) (x : LoadTarget) : (enrolledAt s i n x).port.answers = s.port.answers ∧
    (enrolledAt s i n x).late = s.late ∧ (enrolledAt s i n x).pending = s.pending := by
  have hload := kept_takeUpLoad ((newlyEnrolled s i n).grant i n) i x
  have hgrant := frame_grant (newlyEnrolled s i n) i n
  exact ⟨hload.answers.trans hgrant.answers, hload.late.trans (calm_junctionGranted _ n).late, hload.pending.trans hgrant.pending⟩

/-- A transporter enrolled without an active order sits on its segment, and nothing listed releases it. -/
theorem enrolledAt_sits {s : State} (x : LoadTarget) (ha : s.agenda = []) (h : (s.orderRefs i).active = none) :
    Sits i n ((enrolledAt s i n x).emit (firstPoll s)) ∧ ∀ y ∈ ((enrolledAt s i n x).emit (firstPoll s)).agenda, still i n y := by
  obtain ⟨hgranted, hlisted⟩ := grant_sits (n := n) (s := newlyEnrolled s i n) h
  have hpoll : KeepsSeat i n (enrolledAt s i n x) ((enrolledAt s i n x).emit (firstPoll s)) := seat_emit _ fun y hy => by
    cases mem_firstPoll hy
    exact still_of_orderly rfl (by simp)
  obtain ⟨hsits, hnew⟩ := ((seat_takeUpLoad _ x).trans hpoll) hgranted
  refine ⟨hsits, fun y hy => (hnew y hy).elim (fun hy => (hlisted y hy).elim (fun hy => ?_) id) id⟩
  rw [show (newlyEnrolled s i n).agenda = s.agenda from rfl, ha] at hy
  cases hy

theorem noReport_enrolledAt {s : State} (x : LoadTarget) (ha : s.agenda = []) : noReport ((enrolledAt s i n x).emit (firstPoll s)) :=
  noReport_emit (noReport_plain (s := newlyEnrolled s i n) ((plain_grant _ i n).trans (plain_takeUpLoad _ i x)) ha) fun y hy => by
    cases mem_firstPoll hy
    rfl

/-- What `enroll-transporter` that passes its tests leads to: the edit, and calm work with the first poll. -/
theorem exec_enroll {s : State} {h : Header} {x : LoadTarget} (hs : s.Ready) (hm : h.originator = .maintenance) (hclosed : s.layout.closed = true)
    (hpass : firstFailing (s.enrollTests i n x) = none) : ∃ t, exec (.enrollTransporter h i n x) s = .next t ∧
      Calm ((enrolledAt s i n x).answered h (.enrollTransporter i n x) .done .empty) t ∧
      ((s.orderRefs i).active = none → (t.seg n).holder = some i) := by
  obtain ⟨hanswers, hlate, hpending⟩ := enrolledAt_aside s i n x
  obtain ⟨t, hexec, hwork, hcalm⟩ := exec_work_maintenance (c := .enrollTransporter h i n x) (r := .enrollTransporter i n x)
    (e := (enrolledAt s i n x).emit (firstPoll s)) rfl hs hm rfl (congrArg not hclosed) (takeEnroll_enrolled _ hpass)
    (noReport_enrolledAt x hs.agenda) hanswers hlate hpending
  have hpoll : Calm (enrolledAt s i n x) ((enrolledAt s i n x).emit (firstPoll s)) := calm_emit _ fun y hy => by
    cases mem_firstPoll hy
    rfl
  refine ⟨t, hexec, (calm_answered hpoll h _ _ _).trans hcalm, fun hactive => ?_⟩
  obtain ⟨hsits, hstill⟩ := enrolledAt_sits x hs.agenda hactive
  exact sits_work hsits hstill hwork

/-! ### The load and the transfers of a transporter that parts with its orders -/

/-- Telescope `y` is what transporter `i` carries, or is UNPLACED; and every transfer of that transporter is of that telescope. -/
structure Carries (i y : Nat) (s : State) : Prop where
  transfers : ∀ e ∈ s.transfer.transfers, ∀ x, e.2 = some x → x.transporter = i → x.telescope = y
  load : s.load i = some (.telescope y) ∨ s.placement y = .unplaced

theorem carries_of {s : State} {y : Nat} (hc : s.canonical) (hl : s.load i = some (.telescope y))
    (ht : ∀ p x, s.transferAt p = some x → x.transporter = i → x.telescope = y) : Carries i y s := by
  obtain ⟨-, -, -, -, -, -, -, -, -, htransfers, -⟩ := hc
  exact ⟨fun e he x hx => ht e.1 x ((get_of_mem ((wf_iff _ _).1 htransfers) he).trans hx), .inl hl⟩

theorem transferOf_mem {s : State} {t p : Nat} {x : TransferRec} (h : s.transferOf t = some (p, x)) : (p, some x) ∈ s.transfer.transfers := by
  unfold State.transferOf at h
  obtain ⟨⟨q, v⟩, hmem, he⟩ := List.exists_of_findSome?_eq_some h
  cases v with
  | none => cases he
  | some z =>
    dsimp only at he
    split at he
    · cases he
      exact hmem
    · cases he

theorem settleTransfer_transfers (s : State) (p : Nat) (x : TransferRec) (touched : Bool) :
    (s.settleTransfer p x touched).transfer.transfers = Table.erase s.transfer.transfers p := by
  unfold State.settleTransfer
  dsimp only
  split
  · split <;> rfl
  · split <;> rfl

theorem carries_abandonTransfer {s : State} {y p : Nat} {x : TransferRec} (h : Carries i y s) (hx : s.transferOf i = some (p, x)) :
    Carries i y (s.abandonTransfer p x) := by
  have hy : x.telescope = y := h.transfers _ (transferOf_mem hx) x rfl (transferOf_transporter hx)
  refine ⟨fun e he => h.transfers e ?_, ?_⟩
  · unfold State.abandonTransfer at he
    rw [settleTransfer_transfers] at he
    exact (mem_erase he).1
  · unfold State.abandonTransfer
    cases s.touched p x with
    | true =>
      obtain ⟨-, -, -, hplacement, -⟩ := settleTransfer_touched s p x
      exact .inr (hy ▸ hplacement)
    | false =>
      obtain ⟨htelescopes, hloads, -⟩ := settleTransfer_untouched s p x
      refine h.load.imp (fun e => ?_) fun e => ?_
      · unfold State.load at e ⊢
        rw [hloads, e]
      · unfold State.placement at e ⊢
        rw [htelescopes, e]

theorem carries_calm {s t : State} {y : Nat} (h : Carries i y s) (hc : Calm s t) (ht : t.transfer.transfers = s.transfer.transfers) : Carries i y t :=
  ⟨ht ▸ h.transfers, h.load.imp (calm_load hc i).trans (calm_placement hc y).trans⟩

theorem leaveQueue_transfer (s : State) (t m : Nat) : (s.leaveQueue t m).transfer = s.transfer := by
  unfold State.leaveQueue
  dsimp only
  split
  · split <;> rfl
  · rfl

theorem leaveQueues_transfer (s : State) (t : Nat) : (s.leaveQueues t).transfer = s.transfer :=
  leaveQueues_keeps (g := State.transfer) (fun s m => leaveQueue_transfer s t m) (fun _ _ => rfl) s

theorem carries_leftAll {s : State} {y : Nat} (h : Carries i y s) : Carries i y (leftAll s i) := by
  have hended : Carries i y (s.endAllOrders i) :=
    endAllOrders_keeps (i := i) (P := fun s t => Carries i y s → Carries i y t) (fun _ => id) (fun h k => k ∘ h)
      (fun _ _ _ hx h => carries_abandonTransfer h hx) (fun s k h => carries_calm h (calm_endOrder s k _) (braked_endOrder s k _).transfers) s h
  exact carries_calm hended (calm_leaveQueues _ i) (congrArg TransferUnit.transfers (leaveQueues_transfer _ i))

/-! ### A record removed -/

/-- The telescope that a transporter carries is UNPLACED, and its load is gone (R134). -/
def unloaded (s : State) (t : Nat) : State :=
  State.setLoad (match s.load t with
    | some (.telescope x) => s.placeTelescope x .unplaced
    | _ => s) t none

/-- The poll to a transporter ended, where it is outstanding (R134). -/
def pollDropped (s : State) (t : Nat) : State := if s.polls.outstanding.any fun x => decide (x.transporter = t) then s.endPoll else s

theorem removeTrain_eq (s : State) (t : Nat) : s.removeTrain t = ((pollDropped (unloaded s t) t).setTrain t none).setRun t none := rfl

theorem unloaded_same (s : State) (t : Nat) : (unloaded s t).polls = s.polls ∧ (unloaded s t).layout = s.layout ∧
    (unloaded s t).pending = s.pending := by
  unfold unloaded
  split <;> exact ⟨rfl, rfl, rfl⟩

theorem pollDropped_same (s : State) (t : Nat) : (pollDropped s t).polls.recs = s.polls.recs ∧ (pollDropped s t).layout = s.layout ∧
    (pollDropped s t).pending = s.pending ∧ (pollDropped s t).transfer = s.transfer := by
  unfold pollDropped
  split <;> exact ⟨rfl, rfl, rfl, rfl⟩

theorem removeTrain_transfer (s : State) (t : Nat) : (s.removeTrain t).transfer = (unloaded s t).transfer := by
  obtain ⟨-, -, -, htransfer⟩ := pollDropped_same (unloaded s t) t
  exact htransfer

theorem removeTrain_aside (s : State) (t : Nat) : (s.removeTrain t).layout = s.layout ∧ (s.removeTrain t).pending = s.pending := by
  obtain ⟨-, hlayout, hpending⟩ := unloaded_same s t
  obtain ⟨-, hlayout', hpending', -⟩ := pollDropped_same (unloaded s t) t
  exact ⟨hlayout'.trans hlayout, hpending'.trans hpending⟩

theorem removeTrain_train (s : State) (t m : Nat) : (s.removeTrain t).train m = if m = t then none else s.train m := by
  obtain ⟨hpolls, -, -⟩ := unloaded_same s t
  obtain ⟨hrecs, -⟩ := pollDropped_same (unloaded s t) t
  have hbefore : (pollDropped (unloaded s t) t).train m = s.train m :=
    congrArg (fun l => Table.get none l m) (hrecs.trans (congrArg PollEngine.recs hpolls))
  rw [removeTrain_eq, ← hbefore]
  exact setTrain_train (pollDropped (unloaded s t) t) t none m

theorem removeTrain_run (s : State) (t : Nat) : (s.removeTrain t).run t = none := setRun_run_same _ t none

theorem removeTrain_load (s : State) (t : Nat) : (s.removeTrain t).load t = none :=
  (congrArg (fun u : TransferUnit => Table.get none u.loads t) (removeTrain_transfer s t)).trans (setLoad_load_same _ t none)

/-- The telescope carried is UNPLACED when its transporter's record is removed. -/
theorem removeTrain_placement {s : State} {y : Nat} (h : s.load i = some (.telescope y) ∨ s.placement y = .unplaced) :
    (s.removeTrain i).placement y = .unplaced := by
  have hsame : (s.removeTrain i).placement y = (unloaded s i).placement y :=
    congrArg (fun u : TransferUnit => Table.get Placement.unplaced u.telescopes y) (removeTrain_transfer s i)
  rw [hsame]
  unfold unloaded
  split
  · next x hx =>
    refine (placeTelescope_placement s x .unplaced y).trans ?_
    split
    · rfl
    · next hne =>
      refine h.resolve_left fun e => hne ?_
      cases e.symm.trans hx
      rfl
  · next hload => exact h.resolve_left (hload y)

theorem putOn_removeTrain {K : Nat → Prop} (s : State) (m : Nat) : PutOn i m K s (s.removeTrain i) := by
  obtain ⟨horders, hsegs, hwaiting, hjunctions, hguards, hagenda, hport, hlate⟩ := removeTrain_same s i
  exact putOn_aside horders hsegs hwaiting hguards hjunctions (plain_same hagenda) hport hlate

/-! ### `disenroll-transporter` -/

/-- What disenrollment lists: the releases of the segments held, and the quiet test (R134, R149). -/
def farewell (s : State) (i : Nat) : List Machine.Task := ((leftAll s i).holdings i).map (fun m => .release m i) ++ [.quietTest]

/-- The state in which a transporter's record is gone, and the work that this sets off is listed (R134). -/
def disenrolled (s : State) (i : Nat) : State := ((leftAll s i).removeTrain i).emit (farewell s i)

theorem takeDisenroll_done {s : State} {r : TransporterRec} (q : Ask) (hi : i ≤ 3) (hr : s.train i = some r)
    (h : r.condition = .lost ∨ r.atRest = true) :
    s.takeDisenroll q i = (disenrolled s i).answer q .done .empty := by
  unfold State.takeDisenroll
  rw [if_neg (Nat.not_lt.2 hi), hr]
  dsimp only
  rw [if_neg]
  · rfl
  · rintro ⟨hlost, hrest⟩
    exact h.elim hlost fun e => by
      rw [hrest] at e
      cases e

theorem takeDisenroll_refused {s : State} (q : Ask) (hi : i ≤ 3)
    (h : s.train i = none ∨ ∃ r, s.train i = some r ∧ r.condition ≠ .lost ∧ r.atRest = false) :
    s.takeDisenroll q i = s.answer q .refusedState .empty := by
  unfold State.takeDisenroll
  rw [if_neg (Nat.not_lt.2 hi)]
  rcases h with h | ⟨r, hr, hmoving⟩
  · rw [h]
  · rw [hr]
    exact if_pos hmoving

theorem plainTask_farewell (s : State) (i : Nat) : ∀ x ∈ farewell s i, plainTask x = true := fun x hx => by
  rcases List.mem_append.1 hx with hx | hx
  · exact plainTask_releases _ x hx
  · cases List.mem_singleton.1 hx
    rfl

theorem mem_farewell {s : State} {m : Nat} (h : ((leftAll s i).seg m).holder = some i) : Machine.Task.release m i ∈ farewell s i :=
  List.mem_append_left _ (List.mem_map.2 ⟨m, mem_holdings h, rfl⟩)

theorem noReport_disenrolled {s : State} (ha : s.agenda = []) : noReport (disenrolled s i) :=
  noReport_plain (((plain_leftAll s i).trans (putOn_removeTrain (K := ordersOf s i) _ 0).plain).trans (plain_emit _ (plainTask_farewell s i))) ha

/-- What disenrollment leaves as it was. -/
theorem disenrolled_aside (s : State) (i : Nat) : (disenrolled s i).port.answers = s.port.answers ∧ (disenrolled s i).late = s.late ∧
    (disenrolled s i).pending = s.pending ∧ (disenrolled s i).layout = s.layout ∧ (disenrolled s i).guards.hold = s.guards.hold ∧
    (disenrolled s i).guards.fences = s.guards.fences := by
  obtain ⟨-, -, -, -, hguards, -, hport, hlate⟩ := removeTrain_same (leftAll s i) i
  obtain ⟨hlayout, hpending⟩ := removeTrain_aside (leftAll s i) i
  have hleft := kept_leftAll s i
  exact ⟨(congrArg ControlPort.answers hport).trans hleft.answers, hlate.trans hleft.late, hpending.trans hleft.pending, hlayout.trans hleft.layout,
    (congrArg GuardUnit.hold hguards).trans hleft.hold, (congrArg GuardUnit.fences hguards).trans hleft.fences⟩

theorem disenrolled_sensor (s : State) (i m : Nat) : ((disenrolled s i).seg m).sensor = (s.seg m).sensor := by
  obtain ⟨-, hsegs, -⟩ := removeTrain_same (leftAll s i) i
  exact (congrArg (fun l => (Table.get SegDyn.initial l m).sensor) hsegs).trans ((kept_leftAll s i).sensors m)

theorem disenrolled_shape (s : State) (i k : Nat) : ((disenrolled s i).order k).map shape = (s.order k).map shape :=
  (congrArg (fun o : OrderTable => (Table.get none o.slots k).map shape) (removeTrain_orders (leftAll s i) i)).trans ((kept_leftAll s i).shapes k)

theorem disenrolled_train (s : State) (i m : Nat) : (disenrolled s i).train m = if m = i then none else s.train m := by
  unfold disenrolled
  rw [emit_train, removeTrain_train, leftAll_train]

theorem disenrolled_load (s : State) (i : Nat) : (disenrolled s i).load i = none := by
  unfold disenrolled
  rw [emit_load, removeTrain_load]

theorem disenrolled_run (s : State) (i : Nat) : (disenrolled s i).run i = none := by
  unfold disenrolled
  rw [emit_run, removeTrain_run]

/-- The telescope that the transporter carried is UNPLACED (R134, R127). -/
theorem disenrolled_placement {s : State} {y : Nat} (h : Carries i y s) : (disenrolled s i).placement y = .unplaced := by
  unfold disenrolled
  rw [emit_placement, removeTrain_placement (carries_leftAll h).load]

/-- What `disenroll-transporter` that is allowed leads to: the edit and calm work; where the references name live orders, the transporter has parted
with its orders, and once the work has come to its end no segment is held by it. -/
theorem exec_disenroll {s : State} {h : Header} {r : TransporterRec} (hs : s.Ready) (hm : h.originator = .maintenance) (hi : i ≤ 3)
    (hr : s.train i = some r) (hrest : r.condition = .lost ∨ r.atRest = true) : ∃ t, exec (.disenrollTransporter h i) s = .next t ∧
      Calm ((disenrolled s i).answered h (.disenrollTransporter i) .done .empty) t ∧
      (s.refsRight → s.slotsRight → PartedWith i s t ∧ (t.agenda = [] → ∀ m, (t.seg m).holder ≠ some i)) := by
  obtain ⟨hanswers, hlate, hpending, -⟩ := disenrolled_aside s i
  obtain ⟨t, hexec, hwork, hcalm⟩ := exec_work_maintenance (c := .disenrollTransporter h i) (r := .disenrollTransporter i) (e := disenrolled s i)
    rfl hs hm rfl rfl (takeDisenroll_done _ hi hr hrest) (noReport_disenrolled hs.agenda) hanswers hlate hpending
  have hparts (hrefs : s.refsRight) (hslots : s.slotsRight) (n : Nat) :=
    parted_work (n := n) hrefs hslots hs.agenda (putOn_removeTrain (leftAll s i) n) (plainTask_farewell s i) (fun _ _ => mem_farewell) hwork
  exact ⟨t, hexec, hcalm, fun hrefs hslots =>
    ⟨(hparts hrefs hslots 0).1, fun hdone m => (hparts hrefs hslots (m + 1)).2 hdone m m.lt_succ_self.ne⟩⟩

section

variable {s e t : State} {h : Header} {r : Request} {o : Outcome} {b : Body}

theorem calm_answered_load (hc : Calm (e.answered h r o b) t) (i : Nat) : t.load i = e.load i := calm_load hc i

theorem calm_answered_placement (hc : Calm (e.answered h r o b) t) (y : Nat) : t.placement y = e.placement y := calm_placement hc y

theorem calm_answered_run (hc : Calm (e.answered h r o b) t) (i : Nat) : (t.run i).isSome = (e.run i).isSome := hc.runs i

theorem calm_answered_aside (hc : Calm (e.answered h r o b) t) : t.layout = e.layout ∧ t.guards.hold = e.guards.hold ∧
    t.guards.fences = e.guards.fences ∧ (∀ m, (t.seg m).sensor = (e.seg m).sensor) ∧ ∀ k, (t.order k).map shape = (e.order k).map shape :=
  ⟨hc.layout, hc.hold, hc.fences, hc.sensors, hc.shapes⟩

theorem calm_answered_gone (hc : Calm (e.answered h r o b) t) (hi : e.train i = none) : t.train i = none :=
  Option.map_eq_none_iff.1 ((hc.trains i).trans (congrArg (Option.map trainShape) hi))

end

/-- Settles O46: enrollment makes the records and grants the segment, which nothing listed releases (R132, R133); disenrollment ends the orders,
leaves the queues, removes the records and lists every segment held to be released (R134). -/
theorem enrollAndDisenroll : Obligations.EnrollAndDisenroll := by
  refine ⟨fun h i n x s hs hm hclosed => ⟨fun hi hn hx hd ht hh hf => ?_, fun k hw hk => ?_⟩,
    fun h i s hs hm => ⟨fun r hi hr hrest => ?_, fun hw hi hrefused => ?_, fun hw hi => ?_⟩⟩
  · obtain ⟨t, hexec, hcalm, hholder⟩ := exec_enroll hs hm hclosed (enrollTests_pass hi hn hx hd ht hh hf)
    obtain ⟨hanswers, -⟩ := enrolledAt_aside s i n x
    obtain ⟨z, hz, hshape, hcond, hstand⟩ := calm_answered_train hcalm ((enrolledAt_train s i n x i).trans (if_pos rfl))
    obtain ⟨hpos, hatRest, hmotion, hmiss⟩ := trainShape_inj hshape
    refine ⟨t, z, hexec, hz, hpos, hatRest, hmotion, hcond, hmiss, hstand, (calm_answered_run hcalm i).trans (enrolledAt_run s i n x), ?_, ?_,
      calm_answered_answers hcalm hanswers, hholder, congrArg SegDyn.holder ((enrolledAt_seg s i n x n).trans (if_pos rfl)),
      fun m hne => (enrolledAt_seg s i n x m).trans (if_neg hne), fun m hne => (enrolledAt_train s i n x m).trans (if_neg hne),
      enrolledAt_orders s i n x, enrolledAt_padShape s i n x, hcalm⟩
    · refine (calm_answered_load hcalm i).trans ((enrolledAt_load s i n x).trans ?_)
      cases x <;> rfl
    · rintro y rfl
      exact (calm_answered_placement hcalm y).trans (takeUpLoad_placement _ i y)
  · exact exec_answer_maintenance (c := .enrollTransporter h i n x) rfl hs hw hm rfl (congrArg not hclosed) (takeEnroll_refused _ hk)
  · obtain ⟨t, hexec, hcalm, hparted⟩ := exec_disenroll hs hm hi hr hrest
    obtain ⟨hanswers, -, -, hlayout, hhold, hfences⟩ := disenrolled_aside s i
    obtain ⟨hlayout', hhold', hfences', hsensors', hshapes'⟩ := calm_answered_aside hcalm
    have hrun : t.run i = none := Option.isNone_iff_eq_none.1 (by
      rw [← Option.not_isSome, calm_answered_run hcalm, disenrolled_run]
      rfl)
    refine ⟨t, hexec, calm_answered_gone hcalm ((disenrolled_train s i i).trans (if_pos rfl)), hrun,
      (calm_answered_load hcalm i).trans (disenrolled_load s i), fun y hcan hload htransfers => ?_,
      fun m hne => calm_answered_others hcalm ((disenrolled_train s i m).trans (if_neg hne)), calm_answered_answers hcalm hanswers,
      hlayout'.trans hlayout, hhold'.trans hhold, hfences'.trans hfences, fun m => (hsensors' m).trans (disenrolled_sensor s i m),
      fun k => (hshapes' k).trans (disenrolled_shape s i k), fun hrefs hslots => ?_⟩
    · exact (calm_answered_placement hcalm y).trans (disenrolled_placement (carries_of hcan hload htransfers))
    · obtain ⟨hleft, hreleased⟩ := hparted hrefs hslots
      exact ⟨hleft.ended, hleft.refs, hleft.queues, hreleased⟩
  · exact exec_answer_maintenance (c := .disenrollTransporter h i) rfl hs hw hm rfl rfl (takeDisenroll_refused _ hi hrefused)
  · exact exec_answer_maintenance (c := .disenrollTransporter h i) rfl hs hw hm rfl rfl (if_pos hi)

end Sys2Proof.Proofs
end

section
/-!
PROOFS. `set-grants` (R157).
-/

namespace Sys2Proof.Proofs

open Sys2Proof Sys2Proof.Machine Sys2Proof.Laws

/-- The originators and groups that `set-grants` can name (R157). -/
def GrantRanges (who : Nat) (pads segments : List Nat) : Prop := who ≤ 2 ∧ (∀ g ∈ pads, g ≤ 23) ∧ ∀ g ∈ segments, g ≤ 15

theorem grantRanges_iff {who : Nat} {pads segments : List Nat} : GrantRanges who pads segments ↔
    ¬(2 < who ∨ (pads.any fun g => decide (23 < g)) = true ∨ (segments.any fun g => decide (15 < g)) = true) := by
  simp [GrantRanges]

/-- The map that two lists of groups make (R154). -/
def mapOf (pads segments : List Nat) : GrantMap := { pads := toSet pads, segments := toSet segments }

theorem takeSetGrants_set {s : State} (q : Ask) {who : Nat} {pads segments : List Nat} (h : GrantRanges who pads segments) :
    s.takeSetGrants q who pads segments = (s.setGrantMap who (mapOf pads segments)).answer q .done (.grants (mapOf pads segments)) :=
  if_neg (grantRanges_iff.1 h)

theorem takeSetGrants_refused {s : State} (q : Ask) {who : Nat} {pads segments : List Nat} (h : ¬GrantRanges who pads segments) :
    s.takeSetGrants q who pads segments = s.answer q .refusedRange .empty :=
  if_pos (Decidable.not_not.1 (mt grantRanges_iff.2 h))

/-- The blocks' work reads no grant map. -/
theorem settled_setGrantMap {s : State} (h : s.Settled) (who : Nat) (m : GrantMap) : (s.setGrantMap who m).Settled :=
  ⟨h.agenda, h.due, h.transfers, h.rotation⟩

/-- Settles O54: the named map is replaced whole, and the blocks find nothing to do. -/
theorem setGrantsReplacesOneMap : Obligations.SetGrantsReplacesOneMap := by
  intro h who pads segments s hs hw
  refine ⟨fun hm hr => ⟨mapOf pads segments, ?_, fun g => mem_toSet, fun g => mem_toSet, setGrantMap_grantMap_same s who _, fun o ho => ?_⟩,
    fun hm hr => ?_, fun hm => ?_⟩
  · have hclass : classAllows (classOf (.setGrants who pads segments)) h.originator = true := decide_eq_true hm
    have howner := (takeSetGrants_set (s := s) ⟨h.tag, codeOf (.setGrants who pads segments)⟩ hr).trans
      (answer_ready (t := s.setGrantMap who (mapOf pads segments)) hs rfl h (.setGrants who pads segments) _ _)
    exact exec_owner (c := .setGrants h who pads segments) rfl hs hclass rfl rfl howner
      (settled_answered (settled_setGrantMap hw who _) _) hs.late rfl
  · rw [setGrantMap_grantMap, if_neg ho]
  · exact exec_answer_maintenance (c := .setGrants h who pads segments) rfl hs hw hm rfl rfl (takeSetGrants_refused _ hr)
  · exact exec_decided (r := .setGrants who pads segments) rfl hs hw (classDenied (classAllows_false (.inl ⟨rfl, hm⟩)))

end Sys2Proof.Proofs
end

section
/-!
PROOFS. `set-fence` and `clear-fence` (R158 to R163).
-/

namespace Sys2Proof.Proofs

open Sys2Proof Sys2Proof.Machine Sys2Proof.Laws

variable {slot base size : Nat}

/-! ### The work of turning heads away -/

theorem calm_turnAway (s : State) (k n : Nat) : Calm s (s.turnAway k n) := by
  unfold State.turnAway
  split
  · exact .refl s
  · next o ho =>
    have hturned : Calm s ((s.unlistHead k).setOrder k (some { o with head := .fenced })) := calm_reshape_of (calm_unlistHead s k) k ho rfl
    exact (hturned.trans (calm_raise _ .routeFenced k)).trans (calm_setFenced _ _)

theorem calm_fenceSegment (s : State) (n : Nat) : Calm s (s.fenceSegment n) := by
  have hturned : Calm s ((s.headsAt n).foldl (fun s k => s.turnAway k n) (s.setSeg n { s.seg n with queue := [] })) :=
    (calm_setSeg s n (by rfl) (by exact fun _ _ h => h)).trans (.foldl (fun s k => calm_turnAway s k n) _ _)
  exact hturned.trans (calm_ite (fun _ => calm_emit _ (by simp [inReport])) (fun _ => .refl _))

/-! ### A fence set -/

theorem canonical_setFence {s : State} (h : s.canonical) (slot : Nat) (f : Option Fence) : (s.setFence slot f).canonical := by
  obtain ⟨ha, hb, hc, hd, he, hf, hg, hi, hj, hk, hl, hm, hfences⟩ := h
  exact ⟨ha, hb, hc, hd, he, hf, hg, hi, hj, hk, hl, hm, wf_put hfences _ _⟩

/-- The segments of a fence's range that the fence is the first to cover (R160). -/
def freshUnder (s : State) (slot : Nat) (f : Fence) : List Nat :=
  f.range.filter fun n => decide ((s.setFence slot (some f)).fenceCount n = 1)

/-- The segments of a fence's range that are held. -/
def heldUnder (s : State) (f : Fence) : List Nat := f.range.filter fun n => (s.seg n).holder.isSome

/-- The state in which a fence is set and the heads that it covers are turned away (R160). -/
def fenced (s : State) (slot : Nat) (f : Fence) : State :=
  (freshUnder s slot f).foldl (fun s n => s.fenceSegment n) (s.setFence slot (some f))

theorem calm_fenced (s : State) (slot : Nat) (f : Fence) : Calm (s.setFence slot (some f)) (fenced s slot f) :=
  .foldl calm_fenceSegment _ _

theorem freshUnder_nodup (s : State) (slot : Nat) (f : Fence) : (freshUnder s slot f).Nodup :=
  ((List.nodup_range.map fun _ _ e => Nat.add_left_cancel e)).filter _

theorem takeSetFence_set {s : State} {who : Originator} (q : Ask) (ht : firstFailing (s.setFenceTests slot base size) = none)
    (ho : s.firstRefused who (s.fenceObjects ⟨base, size⟩) = none) :
    s.takeSetFence q who slot base size = (fenced s slot ⟨base, size⟩).answer q .done
      (.fenceSet base size ((freshUnder s slot ⟨base, size⟩).flatMap s.headsAt).length (heldUnder s ⟨base, size⟩).length) := by
  unfold State.takeSetFence
  rw [ht]
  dsimp only
  rw [ho]
  rfl

theorem takeSetFence_denied {s : State} {who : Originator} (q : Ask) (ht : firstFailing (s.setFenceTests slot base size) = none)
    {x : ObjectKind} {n : Nat} (ho : s.firstRefused who (s.fenceObjects ⟨base, size⟩) = some (x, n)) :
    s.takeSetFence q who slot base size = s.answer q .denied (.deniedObject x n) := by
  unfold State.takeSetFence
  rw [ht]
  dsimp only
  rw [ho]

theorem takeSetFence_failed {s : State} {who : Originator} (q : Ask) {k : Nat} (ht : firstFailing (s.setFenceTests slot base size) = some k) :
    s.takeSetFence q who slot base size = s.answer q (if k = 4 then .refusedState else .refusedRange) (.failedTest k) := by
  unfold State.takeSetFence
  rw [ht]

/-- A request of the desk class without an object at entry, whose owner edits the records and answers at once: the work is done on the edit. -/
theorem exec_work_desk {c : Instr} {h : Header} {r : Request} {s e : State} {o : Outcome} {b : Body} (hc : c.request? = some (h, r))
    (hs : s.Ready) (hwho : h.originator ≠ .scheduler) (hcl : classOf r = .desk) (hob : entryObject r = none) (hlay : s.layoutRefuses r = false)
    (he : s.owner ⟨h.tag, codeOf r⟩ h.originator r = e.answer ⟨h.tag, codeOf r⟩ o b) (hn : noReport e)
    (ha : e.port.answers = s.port.answers) (hl : e.late = s.late) (hp : e.pending = s.pending) :
    ∃ t, exec c s = .next t ∧ t = closeEvent s.pending (workOff (e.answered h r o b)) ∧ Calm (e.answered h r o b) t := by
  have hdecided : s.decideValid ⟨h.tag, codeOf r⟩ h.originator r = e.answered h r o b :=
    (decideValid_owner (by rw [hcl]; exact classAllows_desk hwho) (by rw [hob]; rfl) hlay).trans (he.trans (answer_ready hs ha h r o b))
  have hnone : noReport (e.answered h r o b) := hn
  have hwork := calm_workOff _ hnone
  exact ⟨_, (exec_request hc s).trans (congrArg _ (submit_work hs h r hdecided hnone (hl.trans hs.late))), rfl,
    hwork.trans (calm_closeEvent _ _ (hwork.pending.trans hp))⟩

/-- What a fence set leaves of the segments, the orders and the fenced set, once the work is done in a state that was settled (R160, R162). -/
structure FenceLaid (s t : State) (fresh : List Nat) : Prop where
  segs : ∀ n, t.seg n = if n ∈ fresh then { s.seg n with queue := [] } else s.seg n
  turned : ∀ n ∈ fresh, ∀ k ∈ s.headsAt n, ∀ o, s.order k = some o →
    t.order k = some { o with head := .fenced } ∧ (∃ e ∈ t.guards.fenced, e.slot = k ∧ e.segment ∈ fresh) ∧ ⟨.routeFenced, k⟩ ∈ t.port.notices
  others : ∀ k, (∀ n ∈ fresh, k ∉ s.headsAt n) → t.order k = s.order k
  refs : t.orders.refs = s.orders.refs

theorem fenceLaid_fenced (s : State) (slot : Nat) (f : Fence) : FenceLaid s (fenced s slot f) (freshUnder s slot f) := by
  obtain ⟨hfencing, hsegs, hturned, hothers, -⟩ := fenceSegments_spec _ (freshUnder_nodup s slot f) (s.setFence slot (some f))
  exact ⟨hsegs, fun n hn k hk o ho => hturned k ⟨n, hn, hk⟩ o ho, hothers, hfencing.refs⟩

/-- The work that follows a fence set in a settled state is that of the switches alone: rest decisions where a queue was emptied (R54, R160). -/
theorem fenceLaid_work {s : State} (hw : s.Settled) (hcan : s.canonical) (slot : Nat) (f : Fence) {h : Header} {r : Request} {o : Outcome} {b : Body}
    {l : List Instr} : FenceLaid s (closeEvent l (workOff ((fenced s slot f).answered h r o b))) (freshUnder s slot f) := by
  obtain ⟨hfencing, -⟩ := fenceSegments_spec _ (freshUnder_nodup s slot f) (s.setFence slot (some f))
  have hcan' : (fenced s slot f).canonical := (calm_fenced s slot f).canonical
    (canonical_setFence hcan slot (some f))
  have htransfers : slots.find? (fenced s slot f).mayTransfer = none := by
    rw [show (fenced s slot f).mayTransfer = s.mayTransfer from funext fun k => hfencing.mayTransfer k]
    exact hw.transfers
  have hagenda : ∀ x ∈ (fenced s slot f).agenda, ∃ j, x = .restDecision j := fun x hx =>
    (hfencing.agenda x hx).resolve_left fun hx => by rw [show (s.setFence slot (some f)).agenda = [] from hw.agenda] at hx; cases hx
  obtain ⟨hcore, horders, hguards, -, hport⟩ :=
    resting_workOff (s := (fenced s slot f).answered h r o b) hcan' (hfencing.due.trans hw.due) htransfers hagenda
  have hlaid := fenceLaid_fenced s slot f
  have hseg (n : Nat) : (closeEvent l (workOff ((fenced s slot f).answered h r o b))).seg n = (fenced s slot f).seg n :=
    congrArg (fun c : InterlockCore => Table.get SegDyn.initial c.segs n) hcore
  have horder (k : Nat) : (closeEvent l (workOff ((fenced s slot f).answered h r o b))).order k = (fenced s slot f).order k :=
    congrArg (fun c : OrderTable => Table.get none c.slots k) horders
  refine ⟨fun n => (hseg n).trans (hlaid.segs n), fun n hn k hk o' ho => ?_, fun k hk => (horder k).trans (hlaid.others k hk),
    (congrArg OrderTable.refs horders).trans hlaid.refs⟩
  obtain ⟨hhead, ⟨e, he, hplace⟩, hnotice⟩ := hlaid.turned n hn k hk o' ho
  refine ⟨(horder k).trans hhead, ⟨e, ?_, hplace⟩, ?_⟩
  · rw [show (closeEvent l (workOff ((fenced s slot f).answered h r o b))).guards = _ from hguards]
    exact he
  · rw [closeEvent_notices, hport]
    exact hnotice

/-! ### A fence cleared -/

/-- The heads presented again when a fence is cleared (R163). -/
def presentedAgain (s : State) (slot : Nat) (f : Fence) : List FencedEntry :=
  (s.setFence slot none).fencedHeads (f.range.filter fun n => decide ((s.setFence slot none).fenceCount n = 0))

/-- The state in which a fence is cleared and its heads are listed to be presented again (R163). -/
def fenceCleared (s : State) (slot : Nat) (f : Fence) : State :=
  (s.setFence slot none).emit ((presentedAgain s slot f).map fun e => .represent e.slot e.segment)

theorem calm_fenceCleared (s : State) (slot : Nat) (f : Fence) : Calm (s.setFence slot none) (fenceCleared s slot f) :=
  calm_emit _ fun x hx => by
    obtain ⟨e, -, rfl⟩ := List.mem_map.1 hx
    rfl

section

variable {s : State} {who : Originator} {f : Fence}

theorem takeClearFence_cleared (q : Ask) (hk : slot ≤ 1) (hf : s.fence slot = some f) (ho : s.firstRefused who (s.fenceObjects f) = none) :
    s.takeClearFence q who slot =
      (fenceCleared s slot f).answer q .done (.fenceCleared f.base f.size (presentedAgain s slot f).length) := by
  unfold State.takeClearFence
  rw [if_neg (Nat.not_lt.2 hk), hf]
  dsimp only
  rw [ho]
  rfl

theorem takeClearFence_denied (q : Ask) (hk : slot ≤ 1) (hf : s.fence slot = some f) {x : ObjectKind} {n : Nat}
    (ho : s.firstRefused who (s.fenceObjects f) = some (x, n)) : s.takeClearFence q who slot = s.answer q .denied (.deniedObject x n) := by
  unfold State.takeClearFence
  rw [if_neg (Nat.not_lt.2 hk), hf]
  dsimp only
  rw [ho]

theorem takeClearFence_range (q : Ask) (hk : 1 < slot) : s.takeClearFence q who slot = s.answer q .refusedRange .empty := if_pos hk

theorem takeClearFence_empty (q : Ask) (hk : slot ≤ 1) (hf : s.fence slot = none) :
    s.takeClearFence q who slot = s.answer q .refusedState .empty := by
  unfold State.takeClearFence
  rw [if_neg (Nat.not_lt.2 hk), hf]

end

/-! ### The tests of `set-fence` -/

theorem firstFailing_here (l : List Bool) : firstFailing (false :: l) = some 1 := rfl

theorem firstFailing_later (l : List Bool) : firstFailing (true :: l) = (firstFailing l).map (· + 1) := rfl

section

variable {s : State}

/-- The first test of `set-fence` is of the slot, the second of the size, the third of the base (R159). -/
theorem setFenceTests_slot (h : 1 < slot) : firstFailing (s.setFenceTests slot base size) = some 1 := by
  unfold State.setFenceTests
  rw [decide_eq_false (Nat.not_le.2 h), firstFailing_here]

theorem setFenceTests_size (hk : slot ≤ 1) (h : size ∉ [1, 2, 4, 8, 16, 32, 64]) : firstFailing (s.setFenceTests slot base size) = some 2 := by
  unfold State.setFenceTests
  rw [decide_eq_true hk, firstFailing_later, decide_eq_false h, firstFailing_here]
  rfl

theorem setFenceTests_base (hk : slot ≤ 1) (hsize : size ∈ [1, 2, 4, 8, 16, 32, 64]) (h : ¬(base ≤ 127 ∧ base % size = 0)) :
    firstFailing (s.setFenceTests slot base size) = some 3 := by
  have hbase : (decide (base ≤ 127) && decide (base % size = 0)) = false := by rw [← Bool.decide_and]; exact decide_eq_false h
  unfold State.setFenceTests
  rw [decide_eq_true hk, firstFailing_later, decide_eq_true hsize, firstFailing_later, hbase, firstFailing_here]
  rfl

/-- The fourth test of `set-fence` decides where the first three pass: the slot is EMPTY (R159). -/
theorem setFenceTests_state (hk : slot ≤ 1) (hsize : size ∈ [1, 2, 4, 8, 16, 32, 64]) (hbase : base ≤ 127 ∧ base % size = 0) :
    firstFailing (s.setFenceTests slot base size) = if s.fence slot = none then none else some 4 := by
  have hplaces : (decide (base ≤ 127) && decide (base % size = 0)) = true := by rw [← Bool.decide_and]; exact decide_eq_true hbase
  unfold State.setFenceTests
  rw [decide_eq_true hk, firstFailing_later, decide_eq_true hsize, firstFailing_later, hplaces, firstFailing_later]
  cases s.fence slot <;> rfl

end

/-! ### The statement -/

theorem exec_setFence {s : State} (hs : s.Ready) {h : Header} (hwho : h.originator ≠ .scheduler)
    (ho : s.firstRefused h.originator (s.fenceObjects ⟨base, size⟩) = none) (ht : firstFailing (s.setFenceTests slot base size) = none) :
    ∃ t, exec (.setFence h slot base size) s = .next t ∧
      t = closeEvent s.pending (workOff ((fenced s slot ⟨base, size⟩).answered h (.setFence slot base size) .done
        (.fenceSet base size ((freshUnder s slot ⟨base, size⟩).flatMap s.headsAt).length (heldUnder s ⟨base, size⟩).length))) ∧
      Calm ((fenced s slot ⟨base, size⟩).answered h (.setFence slot base size) .done
        (.fenceSet base size ((freshUnder s slot ⟨base, size⟩).flatMap s.headsAt).length (heldUnder s ⟨base, size⟩).length)) t := by
  have hcalm := calm_fenced s slot ⟨base, size⟩
  exact exec_work_desk (c := .setFence h slot base size) rfl hs hwho rfl rfl rfl (takeSetFence_set _ ht ho)
    (noReport_of_kept hcalm.toKept hs.agenda) hcalm.answers hcalm.late hcalm.pending

/-- Settles O55: setting a fence turns heads away at the segments that it is the first to cover, and lists rest decisions alone; clearing one lists the
heads to be presented again. -/
theorem fencesAreSetAndCleared : Obligations.FencesAreSetAndCleared := by
  refine ⟨fun h slot base size s hs hwho hk ho => ⟨fun hsize hbase hmod hf => ?_, fun hf => ?_⟩, fun h slot base size s hs hw hwho => ?_⟩
  · have ht : firstFailing (s.setFenceTests slot base size) = none := by rw [setFenceTests_state hk hsize ⟨hbase, hmod⟩, if_pos hf]
    obtain ⟨t, hexec, hwork, hcalm⟩ := exec_setFence hs hwho ho ht
    have hedit := calm_fenced s slot ⟨base, size⟩
    have hfence (k : Nat) : t.fence k = (s.setFence slot (some ⟨base, size⟩)).fence k :=
      (kept_fence hcalm.toKept k).trans (kept_fence hedit.toKept k)
    refine ⟨t, _, _, hexec, (hfence slot).trans (setFence_fence_same s slot _), fun k hne => (hfence k).trans ?_,
      calm_answered_answers hcalm hedit.answers, fun n => (hcalm.sensors n).trans (hedit.sensors n), hcalm.hold.trans hedit.hold,
      hcalm.maps.trans hedit.maps, hcalm.loads.trans hedit.loads, fun i => (hcalm.trains i).trans (hedit.trains i),
      ⟨rfl, rfl, fun hw hcan => ?_⟩, ?_⟩
    · rw [setFence_fence, if_neg hne]
    · obtain ⟨hsegs, hturned, hothers, hrefs⟩ : FenceLaid s t (freshUnder s slot ⟨base, size⟩) :=
        hwork ▸ fenceLaid_work hw hcan slot ⟨base, size⟩
      exact ⟨hsegs, hturned, hothers, hrefs⟩
    · exact { frame_answered hedit.toKept.frame hcalm.toKept with maps := rfl, fences := rfl }
  · have hedit := calm_fenceCleared s slot ⟨base, size⟩
    obtain ⟨t, hexec, -, hcalm⟩ := exec_work_desk (c := .clearFence h slot) (r := .clearFence slot) rfl hs hwho rfl rfl rfl
      (takeClearFence_cleared _ hk hf ho) (noReport_of_kept hedit.toKept hs.agenda) hedit.answers hedit.late hedit.pending
    have hfence (k : Nat) : t.fence k = (s.setFence slot none).fence k := (kept_fence hcalm.toKept k).trans (kept_fence hedit.toKept k)
    refine ⟨t, _, hexec, (hfence slot).trans (setFence_fence_same s slot _), fun k hne => (hfence k).trans ?_,
      calm_answered_answers hcalm hedit.answers, rfl, (calm_answered hedit _ _ _ _).trans hcalm⟩
    rw [setFence_fence, if_neg hne]
  · have refused {o : Outcome} {b : Body}
        (e : s.takeSetFence ⟨h.tag, codeOf (.setFence slot base size)⟩ h.originator slot base size = s.answer ⟨h.tag, _⟩ o b) :
        exec (.setFence h slot base size) s = .next (s.answered h (.setFence slot base size) o b).decideAttention :=
      exec_answer (c := .setFence h slot base size) rfl hs hw (classAllows_desk hwho) rfl rfl e
    have unclear {o : Outcome} {b : Body}
        (e : s.takeClearFence ⟨h.tag, codeOf (.clearFence slot)⟩ h.originator slot = s.answer ⟨h.tag, _⟩ o b) :
        exec (.clearFence h slot) s = .next (s.answered h (.clearFence slot) o b).decideAttention :=
      exec_answer (c := .clearFence h slot) rfl hs hw (classAllows_desk hwho) rfl rfl e
    refine ⟨fun hk => refused (takeSetFence_failed _ (setFenceTests_slot hk)),
      fun hk hsize => refused (takeSetFence_failed _ (setFenceTests_size hk hsize)),
      fun hk hsize hbase => refused (takeSetFence_failed _ (setFenceTests_base hk hsize hbase)),
      fun hk hsize hbase hf => refused (takeSetFence_failed (k := 4) _ ?_),
      fun x n hk hsize hbase hf ho => refused (takeSetFence_denied _ ?_ ho), fun f x n hk hf ho => unclear (takeClearFence_denied _ hk hf ho),
      fun hk => unclear (takeClearFence_range _ hk), fun hk hf => unclear (takeClearFence_empty _ hk hf)⟩
    · rw [setFenceTests_state hk hsize hbase, if_neg hf]
    · rw [setFenceTests_state hk hsize hbase, if_pos hf]

end Sys2Proof.Proofs
end

section
/-!
PROOFS. The array hold: its sources, its beginning and its end (R164 to R169), and `clear-wayside` (R177).
-/

namespace Sys2Proof.Proofs

open Sys2Proof Sys2Proof.Machine Sys2Proof.Laws

variable {s : State}

/-! ### The source set replaced -/

/-- A change of the set that leaves the hold active, or not active, changes nothing else (R164). -/
theorem changeHold_level {x : HoldSources} (h : x.active = s.holdActive) : s.changeHold x = s.setHold x := by
  unfold State.changeHold
  dsimp only
  rw [h]
  cases s.holdActive <;> rfl

theorem changeHold_begins {x : HoldSources} (h : s.holdActive = false) (hx : x.active = true) : s.changeHold x = (s.setHold x).holdBegins := by
  unfold State.changeHold
  dsimp only
  rw [h, hx]
  rfl

theorem changeHold_ends {x : HoldSources} (h : s.holdActive = true) (hx : x.active = false) : s.changeHold x = (s.setHold x).holdEnds := by
  unfold State.changeHold
  dsimp only
  rw [h, hx]
  rfl

theorem noReport_changeHold (h : s.agenda = []) (x : HoldSources) : noReport (s.changeHold x) :=
  noReport_of_kept (calm_changeHold s x).toKept h

/-- The HOLD input replaces LINE (R165). -/
theorem calm_line (h : s.agenda = []) (v : Bool) :
    Calm (s.setHold { s.guards.hold with line := v }) (runEvent (fun s => s.setLine v) s) :=
  (calm_changeHold s _).trans (event_calm (fun s => s.setLine v) rfl (calm_changeHold s _).pending (noReport_changeHold h _))

/-- A LINE that is as the HOLD input stands changes nothing (R165). -/
theorem line_same (hw : s.Settled) {v : Bool} (h : s.guards.hold.line = v) : runEvent (fun s => s.setLine v) s = s.decideAttention := by
  subst h
  exact event_nothing (fun s' => s'.setLine s.guards.hold.line) (changeHold_same s) hw

/-- A request of the desk class that replaces the source set and answers with it (R166, R177). -/
theorem exec_changeHold {c : Instr} {h : Header} {r : Request} {x : HoldSources} (hc : c.request? = some (h, r)) (hs : s.Ready)
    (hwho : h.originator ≠ .scheduler) (hcl : classOf r = .desk) (hob : entryObject r = none) (hlay : s.layoutRefuses r = false)
    (he : s.owner ⟨h.tag, codeOf r⟩ h.originator r = (s.changeHold x).answer ⟨h.tag, codeOf r⟩ .done (.holdSources x)) :
    ∃ t, exec c s = .next t ∧ t = closeEvent s.pending (workOff ((s.changeHold x).answered h r .done (.holdSources x))) ∧
      Calm ((s.setHold x).answered h r .done (.holdSources x)) t := by
  have hset := calm_changeHold s x
  obtain ⟨t, hexec, hwork, hcalm⟩ :=
    exec_work_desk hc hs hwho hcl hob hlay he (noReport_changeHold hs.agenda x) hset.answers hset.late hset.pending
  exact ⟨t, hexec, hwork, (calm_answered hset h r _ _).trans hcalm⟩

/-- `hold` (R166). -/
theorem exec_hold (hs : s.Ready) {h : Header} (hwho : h.originator ≠ .scheduler) {x : HoldSources}
    (hx : x = { s.guards.hold with desk := true }) :
    ∃ t, exec (.hold h) s = .next t ∧ t = closeEvent s.pending (workOff ((s.changeHold x).answered h .hold .done (.holdSources x))) ∧
      Calm ((s.setHold x).answered h .hold .done (.holdSources x)) t := by
  subst hx
  exact exec_changeHold (r := .hold) rfl hs hwho rfl rfl rfl rfl

theorem takeReleaseHold_done (q : Ask) (h : s.guards.hold.desk = true) :
    s.takeReleaseHold q = (s.changeHold { s.guards.hold with desk := false }).answer q .done (.holdSources { s.guards.hold with desk := false }) :=
  if_pos h

theorem takeReleaseHold_refused (q : Ask) (h : s.guards.hold.desk = false) : s.takeReleaseHold q = s.answer q .refusedState .empty :=
  if_neg (by rw [h]; exact Bool.false_ne_true)

section

variable (q : Ask)

theorem takeClearWayside_silent (h : s.wayside.link = .silent) :
    s.takeClearWayside q = s.answer q .refusedState (.waysideRefusal .silent) := by
  unfold State.takeClearWayside
  rw [h]

theorem takeClearWayside_absent (h : s.wayside.link = .live) (hw : s.guards.hold.wayside = false) :
    s.takeClearWayside q = s.answer q .refusedState (.waysideRefusal .absent) := by
  unfold State.takeClearWayside
  rw [h]
  exact if_neg (by rw [hw]; exact Bool.false_ne_true)

theorem takeClearWayside_done (h : s.wayside.link = .live) (hw : s.guards.hold.wayside = true) :
    s.takeClearWayside q =
      (s.changeHold { s.guards.hold with wayside := false }).answer q .done (.holdSources { s.guards.hold with wayside := false }) := by
  unfold State.takeClearWayside
  rw [h]
  exact if_pos hw

end

/-! ### The beginning of the hold -/

/-- The hold has begun in the edit `e` of `s`: the transfer timers are suspended, and the limit of every enrolled transporter is listed to be
recomputed (R167). -/
structure HoldBegun (s e : State) : Prop where
  active : e.holdActive = true
  paused : ∀ p, Paused (s.transferAt p) (e.transferAt p)
  listed : ∀ i ≤ 3, (e.train i).isSome = true → .recompute i ∈ e.agenda
  report : noReport e

theorem holdBegins_recomputes (s : State) : s.holdBegins.agenda = s.agenda ++ s.enrolledList.map .recompute := by
  obtain ⟨-, -, -, -, hagenda, hpolls, -⟩ := suspendTransfers_same s
  have henrolled : s.suspendTransfers.enrolledList = s.enrolledList :=
    congrArg (fun l : PollEngine => transporters.filter fun i => (Table.get none l.recs i).isSome) hpolls
  unfold State.holdBegins
  rw [emit_agenda, hagenda, ← henrolled]

theorem holdBegun_changeHold {x : HoldSources} (h : s.holdActive = false) (hx : x.active = true) (ha : s.agenda = []) :
    HoldBegun s (s.changeHold x) := by
  have hcalm := calm_changeHold s x
  refine ⟨(congrArg HoldSources.active hcalm.hold).trans hx, fun p => ?_, fun i hi ht => ?_, noReport_changeHold ha x⟩
  · rw [changeHold_begins h hx]
    exact suspendTransfers_transferAt (s.setHold x) p
  · have henrolled : (s.train i).isSome = true := by simpa [ht] using congrArg Option.isSome (hcalm.trains i).symm
    rw [changeHold_begins h hx, holdBegins_recomputes]
    exact List.mem_append_right _ (List.mem_map_of_mem (mem_enrolledList.2 ⟨hi, henrolled⟩))

theorem HoldBegun.answered {e : State} (h : HoldBegun s e) (hd : Header) (r : Request) (o : Outcome) (b : Body) :
    HoldBegun s (e.answered hd r o b) := ⟨h.active, h.paused, h.listed, h.report⟩

/-- Under the hold no poll carries a transfer permission (R113, R120). -/
theorem permission_held (h : s.holdActive = true) (i : Nat) : s.permission i = .none := by
  unfold State.permission
  rw [h]
  split
  · rfl
  · simp

/-- Under the hold only a COUPLE or a PROVE is eligible (R169, R180). -/
theorem eligible_held_iff (h : s.holdActive = true) (m : OutMessage) : s.eligible m = true ↔ (∃ j, m = .prove j) ∨ ∃ p, m = .couple p := by
  refine ⟨eligible_held h, ?_⟩
  rintro (⟨j, rfl⟩ | ⟨p, rfl⟩) <;> rfl

/-- What the work that follows the beginning of the hold leaves (R120, R167). -/
theorem HoldBegun.work {e : State} (h : HoldBegun s e) (l : List Instr) {t : State} (ht : t = closeEvent l (workOff e)) :
    t.holdActive = true ∧ (∀ p, Paused (s.transferAt p) (t.transferAt p)) ∧ (∀ i, t.permission i = .none) ∧
      (∀ m, t.eligible m = true ↔ (∃ j, m = .prove j) ∨ ∃ p, m = .couple p) ∧
      (t.agenda = [] → ∀ i r y, i ≤ 3 → t.run i = some r → t.train i = some y → r.limit = y.position) := by
  subst ht
  have hcalm := calm_workOff e h.report
  obtain ⟨htransfers, -, hstand⟩ := held_workOff h.active h.report
  have hheld : (closeEvent l (workOff e)).holdActive = true := (congrArg HoldSources.active hcalm.hold).trans h.active
  refine ⟨hheld, fun p => ?_, permission_held hheld, eligible_held_iff hheld, fun hdone i r y hi hr hy => ?_⟩
  · have hsame : (closeEvent l (workOff e)).transferAt p = e.transferAt p :=
      congrArg (fun x : Table (Option TransferRec) => Table.get none x p) htransfers
    rw [hsame]
    exact h.paused p
  · have henrolled : (e.train i).isSome = true := by
      have hsome := congrArg Option.isSome (hcalm.trains i)
      rw [show (workOff e).train i = some y from hy] at hsome
      simpa using hsome.symm
    exact hstand i (h.listed i hi henrolled) hdone r y hr hy

/-! ### The end of the hold -/

/-- The unheld segments with claimants (R27). -/
def toServe (s : State) : List Nat := (Table.keys s.core.segs).filter fun n => (s.seg n).holder.isNone && !(s.seg n).queue.isEmpty

theorem mem_toServe {n : Nat} : n ∈ toServe s ↔ (s.seg n).holder = none ∧ (s.seg n).queue ≠ [] := by
  unfold toServe
  rw [List.mem_filter, Bool.and_eq_true, Option.isNone_iff_eq_none, Bool.not_eq_true', List.isEmpty_eq_false_iff]
  refine and_iff_right_of_imp fun h => mem_keys_of_get (d := SegDyn.initial) fun e => h.2 ?_
  rw [show s.seg n = SegDyn.initial from e]
  rfl

theorem toServe_ascending (h : s.canonical) : (toServe s).Pairwise (· < ·) :=
  List.Pairwise.filter _ ((wf_iff _ _).1 h.2.1).1

theorem resumeTransfers_ended (h : s.holdActive = false) : s.resumeTransfers = (s.setHoldEnding false).resumeTimers.commit :=
  if_neg (by rw [show (s.setHoldEnding false).holdActive = false from h]; exact Bool.false_ne_true)

/-- With the hold neither active nor ending every entry of the out-queue is eligible (R180, R181). -/
theorem eligible_ended (h : s.holdActive = false) (he : s.holdEnding = false) (m : OutMessage) : s.eligible m = true := by
  have hbarred : s.transmissionBarred = false := by unfold State.transmissionBarred; rw [h, he]; rfl
  cases m <;> simp [State.eligible, hbarred]

/-- The last step of the end of the hold (R169 step 5). -/
theorem resumeTransfers_spec (h : s.holdActive = false) {t : State} (ht : t = s.resumeTransfers) :
    t.holdEnding = false ∧ (∀ m, t.eligible m = true) ∧ (∀ p, t.transferAt p = (s.transferAt p).map timerResumed) ∧
      (∀ m rest, s.wayside.transmitter = .idle → s.wayside.outQueue = m :: rest →
        t.wayside.transmitter = .sending m ∧ t.wayside.outQueue = rest) ∧
      ∀ m, s.wayside.transmitter = .sending m → t.wayside = s.wayside := by
  subst ht
  rw [resumeTransfers_ended h]
  obtain ⟨hwayside, hguards, hending⟩ := resumeTimers_same (s.setHoldEnding false)
  obtain ⟨hending', hguards', hsent, hbusy⟩ := commit_facts (s.setHoldEnding false).resumeTimers
  have hinactive : (s.setHoldEnding false).resumeTimers.holdActive = false := (congrArg (fun g : GuardUnit => g.hold.active) hguards).trans h
  have hinactive' : (s.setHoldEnding false).resumeTimers.commit.holdActive = false :=
    (congrArg (fun g : GuardUnit => g.hold.active) hguards').trans hinactive
  refine ⟨hending'.trans hending, eligible_ended hinactive' (hending'.trans hending), fun p => ?_, fun m rest hidle hqueue => ?_, fun m hsending => ?_⟩
  · have htransfers := (braked_commit (s.setHoldEnding false).resumeTimers).transfers
    exact (congrArg (fun x : Table (Option TransferRec) => Table.get none x p) htransfers).trans (resumeTimers_transferAt (s.setHoldEnding false) p)
  · exact hsent m rest ((congrArg WaysidePort.transmitter hwayside).trans hidle) ((congrArg WaysidePort.outQueue hwayside).trans hqueue)
      (eligible_ended hinactive hending m)
  · rw [hbusy m ((congrArg WaysidePort.transmitter hwayside).trans hsending)]
    exact hwayside

/-! ### The statement -/

/-- Settles O56: every source enters and leaves through one replacement of the set, which begins the hold, ends it, or does neither. -/
theorem holdSourcesEnterAndLeave : Obligations.HoldSourcesEnterAndLeave := by
  refine ⟨fun h s => ?sources, ?changes, fun h s hs hwho => ?clearWayside⟩
  case sources =>
    refine ⟨fun ha => ⟨_, rfl, calm_line ha true⟩, fun ha => ⟨_, rfl, calm_line ha false⟩, fun hs hwho => ?_, fun hs hwho hdesk => ?_,
      fun hw hline => congrArg _ (line_same hw hline), fun hw hline => congrArg _ (line_same hw hline), fun hs hw hwho hdesk => ?_⟩
    · obtain ⟨t, hexec, -, hcalm⟩ := exec_hold hs hwho rfl
      exact ⟨t, hexec, hcalm⟩
    · obtain ⟨t, hexec, -, hcalm⟩ :=
        exec_changeHold (c := .releaseHold h) (r := .releaseHold) rfl hs hwho rfl rfl rfl (takeReleaseHold_done _ hdesk)
      exact ⟨t, hexec, hcalm⟩
    · exact exec_answer (c := .releaseHold h) (r := .releaseHold) rfl hs hw (classAllows_desk hwho) rfl rfl (takeReleaseHold_refused _ hdesk)
  case changes =>
    refine ⟨fun s x hx => changeHold_level hx, fun s x hoff hx => ?_, fun c h s hoff hc => ?_, fun s x hon hx => changeHold_ends hon hx,
      fun s _ _ => rfl, fun s => ⟨⟨toServe s, rfl, fun n => mem_toServe, toServe_ascending⟩, rfl⟩, fun s hoff => ?_⟩
    · obtain ⟨hcore, horders, hwayside, hguards, -⟩ := suspendTransfers_same (s.setHold x)
      rw [changeHold_begins hoff hx]
      exact ⟨congrArg GuardUnit.hold hguards, holdBegins_recomputes (s.setHold x), suspendTransfers_transferAt (s.setHold x), hcore, horders,
        hwayside⟩
    · obtain ⟨rfl, ha⟩ | ⟨rfl, hs, hwho⟩ := hc
      · exact ⟨_, rfl, (holdBegun_changeHold hoff rfl ha).work s.pending rfl⟩
      · have hactive : HoldSources.active { s.guards.hold with desk := true } = true := by simp [HoldSources.active]
        obtain ⟨t, hexec, hwork, -⟩ := exec_hold hs hwho rfl
        exact ⟨t, hexec, ((holdBegun_changeHold hoff hactive hs.agenda).answered h .hold _ _).work s.pending hwork⟩
    · obtain ⟨hending, heligible, htransfers, hsent, hbusy⟩ := resumeTransfers_spec hoff rfl
      refine ⟨hending, heligible, fun p => ⟨fun hp => ?_, fun x hp => ⟨fun time htime => ?_, fun time htime => ?_⟩⟩, hsent, hbusy⟩
      · rw [show (runTask .resumeTransfers s).transferAt p = _ from htransfers p, hp]
        rfl
      · rw [show (runTask .resumeTransfers s).transferAt p = _ from htransfers p, hp, Option.map_some, timerResumed, htime]
      · rw [show (runTask .resumeTransfers s).transferAt p = _ from htransfers p, hp, Option.map_some, timerResumed, htime]
  case clearWayside =>
    have refused {b : Body} (hw : s.Settled)
        (e : s.takeClearWayside ⟨h.tag, codeOf .clearWayside⟩ = s.answer ⟨h.tag, codeOf .clearWayside⟩ .refusedState b) :
        exec (.clearWayside h) s = .next (s.answered h .clearWayside .refusedState b).decideAttention :=
      exec_answer (c := .clearWayside h) rfl hs hw (classAllows_desk hwho) rfl rfl e
    refine ⟨fun hlink hw => refused hw (takeClearWayside_silent _ hlink), fun hlink hway hw => refused hw (takeClearWayside_absent _ hlink hway),
      fun hlink hway => ?_⟩
    obtain ⟨t, hexec, -, hcalm⟩ :=
      exec_changeHold (c := .clearWayside h) (r := .clearWayside) rfl hs hwho rfl rfl rfl (takeClearWayside_done _ hlink hway)
    exact ⟨t, hexec, hcalm⟩

end Sys2Proof.Proofs
end

section
/-!
SUPPORT. Holdings under the array hold (O6): what each event of the blocks and each request does to the holders of the segments.
-/

namespace Sys2Proof.Proofs

open Sys2Proof Sys2Proof.Machine Sys2Proof.Laws

/-! ### The relation -/

/-- No segment gains a holder. -/
def NoGain (s t : State) : Prop := ∀ n u, (t.seg n).holder = some u → (s.seg n).holder = some u

/-- From a state in which the hold is active some work leaves it active, and no segment gains a holder (R168). -/
structure Ungained (s t : State) : Prop where
  active : s.holdActive = true → t.holdActive = true
  holders : s.holdActive = true → NoGain s t

/-- Neither the segments' records nor the hold-source set has changed. -/
def Apart (s t : State) : Prop := t.core.segs = s.core.segs ∧ t.guards.hold = s.guards.hold

theorem Ungained.refl (s : State) : Ungained s s := ⟨id, fun _ _ _ h => h⟩

theorem Ungained.trans {a b c : State} (h1 : Ungained a b) (h2 : Ungained b c) : Ungained a c :=
  ⟨fun h => h2.active (h1.active h), fun h n u hu => h1.holders h n u (h2.holders (h1.active h) n u hu)⟩

theorem Ungained.foldl {α : Type} {f : State → α → State} (h : ∀ s x, Ungained s (f s x)) (l : List α) (s : State) : Ungained s (l.foldl f s) := by
  induction l generalizing s with
  | nil => exact .refl s
  | cons x rest ih => exact (h s x).trans (ih _)

theorem ungained_ite {s : State} {p : Prop} [Decidable p] {a b : State} (ha : p → Ungained s a) (hb : ¬p → Ungained s b) :
    Ungained s (if p then a else b) := by
  split
  · exact ha ‹_›
  · exact hb ‹_›

theorem Apart.noGain {s t : State} (h : Apart s t) : NoGain s t := fun n u hu => by
  unfold State.seg at hu ⊢
  rw [← h.1]
  exact hu

theorem Apart.ungained {s t : State} (h : Apart s t) : Ungained s t := ⟨fun ha => (congrArg HoldSources.active h.2).trans ha, fun _ => h.noGain⟩

/-- A write of other records. -/
theorem ungained_aside {s t : State} (h1 : t.core.segs = s.core.segs) (h2 : t.guards.hold = s.guards.hold) : Ungained s t :=
  Apart.ungained ⟨h1, h2⟩

/-- What every task keeps includes the holdings under the hold. -/
theorem ungained_kept {s t : State} (h : Kept s t) : Ungained s t :=
  ⟨fun ha => (congrArg HoldSources.active h.hold).trans ha, h.holders⟩

theorem ungained_calm {s t : State} (h : Calm s t) : Ungained s t := ungained_kept h.toKept

theorem ungained_setSeg (s : State) (n : Nat) {r : SegDyn} (h : r.holder = (s.seg n).holder) : Ungained s (s.setSeg n r) :=
  ⟨id, fun _ m u hu => by
    rw [setSeg_seg] at hu
    split at hu
    · next e => exact e ▸ h ▸ hu
    · exact hu⟩

theorem apart_answer (s : State) (q : Ask) (o : Outcome) (b : Body) : Apart s (s.answer q o b) := by
  unfold State.answer State.place
  split <;> exact ⟨rfl, rfl⟩

theorem ungained_answer (s : State) (q : Ask) (o : Outcome) (b : Body) : Ungained s (s.answer q o b) := (apart_answer s q o b).ungained

theorem Ungained.answer {s t : State} (h : Ungained s t) (q : Ask) (o : Outcome) (b : Body) : Ungained s (t.answer q o b) :=
  h.trans (ungained_answer t q o b)

theorem Ungained.emit {s t : State} (h : Ungained s t) (xs : List Machine.Task) : Ungained s (t.emit xs) :=
  h.trans (ungained_aside (by rfl) (by rfl))

theorem Ungained.answerAfter {s t : State} (h : Ungained s t) (x : LateAnswer) : Ungained s (t.answerAfter x) :=
  h.trans (ungained_aside (by rfl) (by rfl))

theorem ungained_updateTrain (s : State) (t : Nat) (f : TransporterRec → TransporterRec) : Ungained s (s.updateTrain t f) := by
  obtain ⟨recs, e⟩ := updateTrain_writes s t f
  rw [e]
  exact ungained_aside (by rfl) (by rfl)

theorem ungained_endPoll (s : State) : Ungained s s.endPoll := ungained_aside (by rfl) (by rfl)

/-- The segments stand where the hold-source set is replaced; what follows is listed. -/
theorem noGain_changeHold (s : State) (v : HoldSources) : NoGain s (s.changeHold v) := by
  intro n u hu
  obtain ⟨hcore, -⟩ := changeHold_core s v
  unfold State.seg at hu ⊢
  rw [← hcore]
  exact hu

theorem ungained_changeHold (s : State) {v : HoldSources} (h : v.active = true) : Ungained s (s.changeHold v) :=
  ⟨fun _ => (congrArg (fun g : GuardUnit => g.hold.active) (changeHold_core s v).2).trans h, fun _ => noGain_changeHold s v⟩

/-! ### The wayside link -/

theorem ungained_addWayside (s : State) : Ungained s s.addWayside := ungained_changeHold s (by simp [HoldSources.active])

theorem ungained_checkError (s : State) : Ungained s s.checkError :=
  Ungained.trans (b := s.setReceiver .hunting) (ungained_aside (by rfl) (by rfl)) (ungained_addWayside _)

theorem ungained_queueMessage (s : State) (m : InMessage) : Ungained s (s.queueMessage m) :=
  ungained_ite (fun _ => ungained_ite (fun _ => ungained_addWayside s) (fun _ => ungained_aside (by rfl) (by rfl))) (fun _ => .refl s)

theorem ungained_judge (s : State) (bytes : List Byte) : Ungained s (s.judge bytes) := by
  unfold State.judge
  split
  · exact ungained_checkError s
  · exact ungained_aside (by rfl) (by rfl)
  · exact Ungained.trans (b := (s.setReceiver .hunting).heardWayside) (ungained_aside (by rfl) (by rfl)) (ungained_queueMessage _ _)

theorem ungained_receiveByte (s : State) (b : Byte) : Ungained s (s.receiveByte b) := by
  unfold State.receiveByte
  split
  · exact ungained_ite (fun _ => ungained_aside (by rfl) (by rfl)) (fun _ => ungained_checkError s)
  · exact ungained_ite (fun _ => ungained_aside (by rfl) (by rfl)) (fun _ => ungained_judge s _)

theorem ungained_byteGap (s : State) : Ungained s s.byteGap := by
  unfold State.byteGap
  split
  · exact .refl s
  · exact ungained_checkError s

theorem ungained_silenceExpiry (s : State) : Ungained s s.silenceExpiry := by
  unfold State.silenceExpiry
  split
  · exact Ungained.trans (b := { s with wayside := { s.wayside with silence := .expired, link := .silent } }) (ungained_aside (by rfl) (by rfl))
      (ungained_addWayside _)
  · exact .refl s

theorem ungained_popMessage (s : State) : Ungained s s.popMessage := ungained_aside (by rfl) (by rfl)

theorem ungained_sendComplete (s : State) : Ungained s s.sendComplete := by
  unfold State.sendComplete
  split
  · exact Ungained.trans (b := s.setTransmitter .idle) (ungained_aside (by rfl) (by rfl)) (ungained_calm (calm_commit _))
  · exact .refl s

/-! ### Sensors, switches and pads -/

theorem ungained_takeSensor (s : State) (n : Nat) (v : Bool) : Ungained s (s.takeSensor n v) := by
  unfold State.takeSensor
  dsimp only
  split
  · refine Ungained.trans (Ungained.emit ?_ _) (ungained_calm (calm_withdrawThrow _ n))
    exact (ungained_setSeg s n (by rfl)).trans (ungained_ite (fun _ => ungained_calm (calm_raise _ _ _)) (fun _ => .refl _))
  · refine Ungained.emit (Ungained.trans (b := s.setSeg n { s.seg n with sensor := .clear }) (ungained_setSeg s n (by rfl)) ?_) _
    split
    · exact ungained_ite (fun _ => ungained_aside (by rfl) (by rfl)) (fun _ => .refl _)
    · exact ungained_aside (by rfl) (by rfl)

theorem ungained_setJunction (s : State) (j : Nat) (r : JunctionRec) : Ungained s (s.setJunction j (some r)) := ungained_aside (by rfl) (by rfl)

theorem ungained_enterFaulted (s : State) (j : Nat) : Ungained s (s.enterFaulted j) := by
  cases hj : s.junction j with
  | none =>
    unfold State.enterFaulted
    rw [hj]
    exact .refl s
  | some r => exact (ungained_setJunction s j _).trans (ungained_calm (calm_enterFaulted hj).1)

theorem ungained_operationEnds (s : State) (j : Nat) (p : SwitchPosition) : Ungained s (s.operationEnds j p) := by
  cases hj : s.junction j with
  | none =>
    unfold State.operationEnds
    rw [hj]
    exact .refl s
  | some r => exact (ungained_setJunction s j _).trans (ungained_calm (calm_operationEnds hj p))

theorem ungained_unsolicited (s : State) (j : Nat) (r : JunctionRec) (d : DetectionValue) : Ungained s (s.unsolicited j r d) := by
  unfold State.unsolicited
  split
  · exact .refl s
  · split
    · exact ungained_ite (fun _ => .refl s) (fun _ => ungained_enterFaulted s j)
    · exact .refl s
  · refine ungained_ite (fun _ => .refl s) (fun _ => ?_)
    split
    · exact (ungained_setJunction s j _).trans (ungained_calm (calm_tellHolder _ j))
    · exact ungained_enterFaulted s j
  · exact ungained_ite (fun _ => .refl s) (fun _ => ungained_enterFaulted s j)

theorem ungained_takeDetection (s : State) (j : Nat) (d : DetectionValue) : Ungained s (s.takeDetection j d) := by
  unfold State.takeDetection
  split
  · exact .refl s
  · split
    · exact ungained_ite (fun _ => ungained_operationEnds s j _) (fun _ => ungained_enterFaulted s j)
    · split
      · exact ungained_ite (fun _ => ungained_operationEnds s j _) (fun _ => ungained_enterFaulted s j)
      · exact ungained_enterFaulted s j
    · exact ungained_unsolicited s j _ d

theorem ungained_operationExpiry (s : State) (j : Nat) : Ungained s (s.operationExpiry j) := by
  unfold State.operationExpiry
  split
  · exact ungained_enterFaulted s j
  · exact .refl s

theorem ungained_holdExpiry (s : State) (j : Nat) : Ungained s (s.holdExpiry j) := by
  unfold State.holdExpiry
  split
  · split
    · exact ungained_aside (by rfl) (by rfl)
    · exact .refl s
  · exact .refl s

theorem ungained_giveUpCoupling (s : State) (p : Nat) : Ungained s (s.giveUpCoupling p) := ungained_aside (by rfl) (by rfl)

theorem ungained_transferPadEvent (s : State) (p : Nat) (x : TransferRec) (e : PadEventValue) : Ungained s (s.transferPadEvent p x e) := by
  have fails : Ungained s (s.stationFails p x) := ungained_kept (kept_stationFails s p x)
  have confirms : Ungained s (s.stationConfirms p x) := ungained_kept (kept_stationConfirms s p x)
  unfold State.transferPadEvent
  cases x.phase with
  | uncoupling =>
    cases e with
    | uncoupled | coupled | loadSensed => exact ungained_aside (by rfl) (by rfl)
    | loadClear | fault => exact fails
  | lifting =>
    cases e with
    | loadClear => exact confirms
    | uncoupled => exact .refl s
    | loadSensed => exact ungained_ite (fun _ => fails) (fun _ => .refl s)
    | coupled | fault => exact fails
  | setting =>
    cases e with
    | loadSensed => exact confirms
    | uncoupled => exact .refl s
    | loadClear => exact ungained_ite (fun _ => fails) (fun _ => .refl s)
    | coupled | fault => exact fails

theorem ungained_idlePadEvent (s : State) (p : Nat) (e : PadEventValue) : Ungained s (s.idlePadEvent p e) := by
  have fault : Ungained s (s.raise .padFault p) := ungained_aside (by rfl) (by rfl)
  unfold State.idlePadEvent
  cases (s.pad p).state with
  | seated =>
    cases e with
    | uncoupled | loadSensed => exact .refl s
    | coupled => exact ungained_aside (by rfl) (by rfl)
    | loadClear => exact fault
    | fault => exact ungained_ite (fun _ => fault) (fun _ => ungained_giveUpCoupling s p)
  | undeclared | releasing => exact .refl s
  | unsettled => exact fault
  | vacant | inbound =>
    cases e with
    | uncoupled | loadClear => exact .refl s
    | coupled | loadSensed | fault => exact fault
  | anchored =>
    cases e with
    | coupled | loadSensed => exact .refl s
    | uncoupled | loadClear | fault => exact fault
  | barred =>
    cases e with
    | fault => exact fault
    | uncoupled | coupled | loadSensed | loadClear => exact .refl s

theorem ungained_takePadEvent (s : State) (p : Nat) (e : PadEventValue) : Ungained s (s.takePadEvent p e) := by
  unfold State.takePadEvent
  split
  · exact ungained_transferPadEvent s p _ e
  · exact ungained_idlePadEvent s p e

theorem ungained_transferExpiry (s : State) (p : Nat) : Ungained s (s.transferExpiry p) := by
  unfold State.transferExpiry
  split
  · split
    · exact ungained_kept (kept_failTransfer _ _ _ _ _)
    · exact .refl s
  · exact .refl s

theorem ungained_couplingExpiry (s : State) (p : Nat) : Ungained s (s.couplingExpiry p) := by
  unfold State.couplingExpiry
  dsimp only
  split
  · exact ungained_ite (fun _ => ungained_giveUpCoupling s p) (fun _ => .refl s)
  · exact .refl s

/-! ### Transporters -/

theorem ungained_setCondition (s : State) (t : Nat) (c : Condition) : Ungained s (s.setCondition t c) := (ungained_updateTrain s t _).emit _

theorem ungained_goLost (s : State) (t : Nat) : Ungained s (s.goLost t) :=
  Ungained.trans (b := s.raise .transporterLost t) (ungained_aside (by rfl) (by rfl)) (ungained_setCondition _ t _)

theorem ungained_goAstray (s : State) (t : Nat) : Ungained s (s.goAstray t) :=
  Ungained.trans (b := s.raise .transporterAstray t) (ungained_aside (by rfl) (by rfl)) (ungained_setCondition _ t _)

theorem ungained_stall (s : State) (t : Nat) : Ungained s (s.stall t) :=
  (Ungained.trans (b := s.raise .transporterStalled t) (ungained_aside (by rfl) (by rfl)) (ungained_setCondition _ t _)).emit _

theorem ungained_backToNormal (s : State) (t : Nat) : Ungained s (s.backToNormal t) :=
  ((ungained_updateTrain s t _).trans (ungained_calm (calm_makeActiveDue _ t))).emit _

theorem ungained_setLeaving (s : State) (ns : List Nat) (n : Nat) : Ungained s (s.setLeaving ns n) :=
  (Ungained.foldl (fun s x => ungained_setSeg s x (by rfl)) ns s).trans (ungained_setSeg _ n (by rfl))

theorem ungained_overrun (s : State) (t n : Nat) (track : List Nat) : Ungained s (s.overrun t n track) :=
  ungained_ite (fun _ => ungained_calm ((calm_unmark s _).trans (calm_settleConfirm _ t))) (fun _ => .refl s)

theorem ungained_moveCursor (s : State) (t n : Nat) : Ungained s (s.moveCursor t n) := by
  unfold State.moveCursor
  split
  · exact .refl s
  · refine ungained_ite (fun _ => ?_) (fun _ => .refl s)
    split
    · exact .refl s
    · exact ungained_aside (by rfl) (by rfl)

/-- A position taken marks segments and moves the cursor; the transporter held the segment already (R31, R41, R73). -/
theorem ungained_takePosition (s : State) (t m n : Nat) : Ungained s (s.takePosition t m n).1 := by
  unfold State.takePosition
  split
  · exact .refl s
  · exact (((ungained_setLeaving s _ n).trans (ungained_updateTrain _ t _)).trans (ungained_overrun _ t n _)).trans (ungained_moveCursor _ t n)

theorem ungained_reportPosition (s : State) (r : Report) : Ungained s (s.reportPosition r) := by
  unfold State.reportPosition
  dsimp only
  split
  · exact .refl s
  · refine ungained_ite (fun _ => .refl s) (fun _ => ungained_ite (fun _ => ungained_goAstray s _) (fun _ => Ungained.emit ?_ _))
    exact (ungained_ite (fun _ => ungained_backToNormal s _) (fun _ => .refl s)).trans (ungained_takePosition _ _ _ _)

theorem ungained_takeReport (s : State) (r : Report) (x : Poll) : Ungained s (s.takeReport r x) :=
  (((ungained_endPoll s).trans (ungained_updateTrain _ _ _)).trans (ungained_reportPosition _ r)).emit _

theorem ungained_hearFrame (s : State) (bytes : List Byte) : Ungained s (s.hearFrame bytes) := by
  unfold State.hearFrame
  split
  · unfold State.hearReport
    split
    · exact ungained_ite (fun _ => ungained_takeReport s _ _) (fun _ => .refl s)
    · exact .refl s
  · exact .refl s

theorem ungained_windowExpiry (s : State) : Ungained s s.windowExpiry := by
  unfold State.windowExpiry
  split
  · refine Ungained.emit (Ungained.trans ?_ (ungained_ite (fun _ => ungained_goLost _ _) (fun _ => .refl _))) _
    exact ((ungained_endPoll s).trans (ungained_updateTrain _ _ _)).trans (ungained_calm (calm_confirmMissed _ _))
  · exact .refl s

theorem ungained_progressExpiry (s : State) (t : Nat) : Ungained s (s.progressExpiry t) := by
  unfold State.progressExpiry
  split
  · exact ungained_ite (fun _ => ungained_stall s t) (fun _ => .refl s)
  · exact .refl s

/-! ### Any event of the blocks -/

theorem BlockEvent.noGain {act : State → State} (h : BlockEvent act) {s : State} (ha : s.holdActive = true) : NoGain s (act s) := by
  have popped {t : State} (h : Ungained s.popMessage t) : NoGain s t := ((ungained_popMessage s).trans h).holders ha
  have stands : NoGain s s := fun _ _ hu => hu
  cases h with
  | line v => exact noGain_changeHold s _
  | gapExpiry => unfold State.gapExpiry; split <;> exact stands
  | pollTransmitted =>
    unfold State.pollTransmitted
    split
    · exact Ungained.holders (ungained_ite (fun _ => .refl s) (fun _ => ungained_aside (by rfl) (by rfl))) ha
    · exact stands
  | report bytes => exact (ungained_hearFrame s bytes).holders ha
  | windowExpiry => exact (ungained_windowExpiry s).holders ha
  | progressExpiry t => exact (ungained_progressExpiry s t).holders ha
  | waysideFrame bytes => exact (Ungained.foldl ungained_receiveByte bytes s).holders ha
  | waysideByte b => exact (ungained_receiveByte s b).holders ha
  | byteGap => exact (ungained_byteGap s).holders ha
  | silenceExpiry => exact (ungained_silenceExpiry s).holders ha
  | sensor =>
    unfold State.headSensor
    split
    · exact popped (ungained_takeSensor _ _ _)
    · exact stands
  | detection =>
    unfold State.headDetection
    split
    · exact popped (ungained_takeDetection _ _ _)
    · exact stands
  | padEvent =>
    unfold State.headPadEvent
    split
    · exact popped (ungained_takePadEvent _ _ _)
    · exact stands
  | sendComplete => exact (ungained_sendComplete s).holders ha
  | operationExpiry j => exact (ungained_operationExpiry s j).holders ha
  | holdExpiry j => exact (ungained_holdExpiry s j).holders ha
  | intervalExpiry => unfold State.intervalExpiry; split <;> exact stands
  | transferExpiry p => exact (ungained_transferExpiry s p).holders ha
  | couplingExpiry p => exact (ungained_couplingExpiry s p).holders ha

end Sys2Proof.Proofs
end

section
/-!
SUPPORT. Holdings under the array hold (O6): what each request does to the holders of the segments.
-/

namespace Sys2Proof.Proofs

open Sys2Proof Sys2Proof.Machine Sys2Proof.Laws

/-! ### Reads and the port's own requests -/

theorem ungained_answerTime (s : State) (v : Bool) (q : Ask) (b : Body) : Ungained s (s.answerTime v q b) :=
  (ungained_ite (fun _ => ungained_calm (calm_drawn s)) (fun _ => .refl s)).answer q _ b

theorem ungained_takeReadTransporter (s : State) (q : Ask) (t : Nat) : Ungained s (s.takeReadTransporter q t) := by
  refine ungained_ite (fun _ => ungained_answer s q _ _) (fun _ => ?_)
  split
  · exact ungained_answer s q _ _
  · exact ungained_answerTime s _ q _

theorem ungained_takeReadOrder (s : State) (q : Ask) (k : Nat) (part : Option Nat) : Ungained s (s.takeReadOrder q k part) := by
  refine ungained_ite (fun _ => ungained_answer s q _ _) (fun _ => ?_)
  split <;> exact ungained_answer s q _ _

theorem ungained_takeFetchNotice (s : State) (q : Ask) : Ungained s (s.takeFetchNotice q) := by
  unfold State.takeFetchNotice
  split
  · exact ungained_answer s q _ _
  · next rest _ => exact Ungained.answer (t := s.setNotices rest) (ungained_aside (by rfl) (by rfl)) q _ _

theorem ungained_takeSetNoticeEnables (s : State) (q : Ask) (e : Word16) : Ungained s (s.takeSetNoticeEnables q e) :=
  ungained_ite (fun _ => ungained_answer s q _ _) (fun _ => Ungained.answer (ungained_aside (by rfl) (by rfl)) q _ _)

theorem ungained_takeSetParameter (s : State) (q : Ask) (n v : Nat) : Ungained s (s.takeSetParameter q n v) := by
  unfold State.takeSetParameter
  split
  · exact ungained_answer s q _ _
  · exact ungained_ite (fun _ => Ungained.answer (ungained_aside (by rfl) (by rfl)) q _ _) (fun _ => ungained_answer s q _ _)

/-! ### The layout and the switches -/

theorem ungained_takeDeclareSegment (s : State) (q : Ask) (n : Nat) (d : SegDecl) : Ungained s (s.takeDeclareSegment q n d) := by
  unfold State.takeDeclareSegment
  split
  · exact ungained_answer s q _ _
  · exact Ungained.answer (t := s.setDecl n (some d)) (ungained_aside (by rfl) (by rfl)) q _ _

theorem ungained_takeCloseLayout (s : State) (q : Ask) : Ungained s (s.takeCloseLayout q) := by
  cases h : s.layoutFault with
  | some x =>
    unfold State.takeCloseLayout
    rw [h]
    exact ungained_answer s q _ _
  | none =>
    obtain ⟨c, hc⟩ := takeUpFold_alone (closedLayout s).layout.decls (closedLayout s)
    rw [takeCloseLayout_sound h, takeUpJunctions_eq, hc]
    exact Ungained.answer (ungained_aside (by rfl) (by rfl)) q _ _

theorem ungained_takeClearSwitch (s : State) (q : Ask) (j : Nat) : Ungained s (s.takeClearSwitch q j) := by
  refine ungained_ite (fun _ => ungained_answer s q _ _) (fun _ => ?_)
  split
  · exact ungained_answer s q _ _
  · next r _ =>
    refine ungained_ite (fun _ => ungained_answer s q _ _) (fun _ => ?_)
    refine Ungained.trans (Ungained.emit (Ungained.answer ?_ q _ _) _) (ungained_calm (calm_tellHolder _ j))
    exact (ungained_setJunction s j (clearedRec r)).trans (ungained_calm (switchCleared_calm s j r))

/-! ### Orders -/

theorem ungained_takeClaim (s : State) (k t : Nat) (f : Finish) : Ungained s (s.takeClaim k t f) := by
  unfold State.takeClaim
  split
  · exact .refl s
  · exact ungained_aside (by rfl) (by rfl)
  · split <;> exact ungained_aside (by rfl) (by rfl)

theorem ungained_takeSubmitOrder (s : State) (q : Ask) (who : Originator) (t : Nat) (kind : OrderKind) (f : Finish) (leg : List Stretch) :
    Ungained s (s.takeSubmitOrder q who t kind f leg) := by
  unfold State.takeSubmitOrder
  split
  · exact ungained_answer s q _ _
  · next k route _ =>
    have hclaimed : Ungained s
        (((s.setOrder k (some (newOrder t kind f route))).setRefs t { s.orderRefs t with active := some k }).takeClaim k t f) :=
      Ungained.trans (ungained_aside (by rfl) (by rfl)) (ungained_takeClaim _ k t f)
    exact ((hclaimed.trans (ungained_calm (calm_makeDue _ k))).emit _).answer q _ _

theorem ungained_startDivert (s : State) (t k : Nat) (o : Order) (place : Place) : Ungained s (s.startDivert t k o place) := by
  unfold State.startDivert
  have hstarting : Ungained s (s.setOrder k (some { o with state := .starting, rejoin := some place })) := ungained_aside (by rfl) (by rfl)
  refine (hstarting.trans ?_).emit _
  split
  · exact ungained_calm (calm_removeHead _ _)
  · exact .refl _

theorem ungained_takeDivert (s : State) (q : Ask) (who : Originator) (t : Nat) (a b : List Stretch) : Ungained s (s.takeDivert q who t a b) := by
  unfold State.takeDivert
  split
  · exact ungained_answer s q _ _
  · exact (ungained_startDivert s t _ _ _).answerAfter _
  · exact Ungained.answer (ungained_aside (by rfl) (by rfl)) q _ _

theorem ungained_takeResumeRefuge (s : State) (q : Ask) (k : Nat) : Ungained s (s.takeResumeRefuge q k) := by
  refine ungained_ite (fun _ => ungained_answer s q _ _) (fun _ => ?_)
  split
  · exact ungained_answer s q _ _
  · exact ungained_ite (fun _ => ungained_answer s q _ _) (fun _ => ungained_aside (by rfl) (by rfl))

theorem ungained_beginCancel (s : State) (q : Ask) (k : Nat) : Ungained s (s.beginCancel q k) := by
  unfold State.beginCancel
  split
  · exact .refl s
  · next o _ =>
    have hcancelling : Ungained s (s.setOrder k (some { o with state := .cancelling })) := ungained_aside (by rfl) (by rfl)
    exact (((hcancelling.trans (ungained_calm (calm_removeHead _ k))).trans (ungained_calm (calm_dropClaim _ k))).emit _).answerAfter _

theorem ungained_cancelRefuge (s : State) (q : Ask) (k t : Nat) : Ungained s (s.cancelRefuge q k t) :=
  (ungained_beginCancel s q k).trans (.foldl (fun s x => ungained_calm (calm_endOrder s x _)) _ _)

theorem ungained_takeCancelOrder (s : State) (q : Ask) (k : Nat) : Ungained s (s.takeCancelOrder q k) := by
  have refused : Ungained s (s.answer q .refusedState .empty) := ungained_answer s q _ _
  refine ungained_ite (fun _ => ungained_answer s q _ _) (fun _ => ?_)
  split
  · exact refused
  · next o _ =>
    dsimp only
    split
    · exact ungained_ite (fun _ => refused) fun _ => ungained_ite (fun _ => ungained_cancelRefuge s q k _) fun _ => ungained_beginCancel s q k
    · exact ungained_ite (fun _ => refused) fun _ => ungained_cancelRefuge s q k _
    · exact ungained_beginCancel s q k
    · exact (ungained_calm (calm_endOrder s k _)).answer q _ _
    · exact ((ungained_calm ((calm_endOrder s k _).trans (calm_makeActiveDue _ _))).emit _).answer q _ _
    · exact refused

/-! ### Pads and loads -/

theorem ungained_putPad (s : State) (p : Nat) (r : PadRec) (x : PadTarget) : Ungained s (s.putPad p r x) := by
  cases x with
  | vacant | barred => exact ungained_aside (by rfl) (by rfl)
  | anchored y =>
    exact Ungained.trans (b := s.setPad p { r with state := .anchored, occupant := some y, lastOccupant := none }) (ungained_aside (by rfl) (by rfl))
      (ungained_kept (kept_placeTelescope _ y (.onPad p)))

theorem ungained_takeDeclarePad (s : State) (q : Ask) (p access guard : Nat) (x : PadTarget) :
    Ungained s (s.takeDeclarePad q p access guard x) := by
  unfold State.takeDeclarePad
  split
  · exact ungained_answer s q _ _
  · exact (ungained_putPad s p _ x).answer q _ _

theorem ungained_takeSettlePad (s : State) (q : Ask) (p : Nat) (x : PadTarget) : Ungained s (s.takeSettlePad q p x) :=
  ungained_ite (fun _ => ungained_answer s q _ _) fun _ => ungained_ite (fun _ => ungained_answer s q _ _) fun _ =>
    ungained_ite (fun _ => ungained_answer s q _ _) fun _ => (ungained_putPad s p _ x).answer q _ _

theorem ungained_takeUpLoad (s : State) (t : Nat) (l : LoadTarget) : Ungained s (s.takeUpLoad t l) := by
  cases l with
  | none => exact ungained_kept (kept_changeLoad s t _)
  | telescope x => exact ungained_kept ((kept_placeTelescope s x _).trans (kept_changeLoad _ t _))

theorem ungained_takeSettleLoad (s : State) (q : Ask) (t : Nat) (l : LoadTarget) : Ungained s (s.takeSettleLoad q t l) :=
  ungained_ite (fun _ => ungained_answer s q _ _) fun _ => ungained_ite (fun _ => ungained_answer s q _ _) fun _ =>
    ungained_ite (fun _ => ungained_answer s q _ _) fun _ => (ungained_takeUpLoad s t l).answer q _ _

theorem ungained_setPad (s : State) (p : Nat) (r : PadRec) : Ungained s (s.setPad p r) := ungained_aside (by rfl) (by rfl)

theorem ungained_takeBarPad (s : State) (q : Ask) (p : Nat) : Ungained s (s.takeBarPad q p) :=
  ungained_ite (fun _ => ungained_answer s q _ _) fun _ =>
    ungained_ite (fun _ => (ungained_setPad s p _).answer q _ _) fun _ => ungained_answer s q _ _

theorem ungained_takeUnbarPad (s : State) (q : Ask) (p : Nat) : Ungained s (s.takeUnbarPad q p) :=
  ungained_ite (fun _ => ungained_answer s q _ _) fun _ =>
    ungained_ite (fun _ => (ungained_setPad s p _).answer q _ _) fun _ => ungained_answer s q _ _

theorem ungained_takeRecouplePad (s : State) (q : Ask) (p : Nat) : Ungained s (s.takeRecouplePad q p) :=
  ungained_ite (fun _ => ungained_answer s q _ _) fun _ => ungained_ite (fun _ => ungained_answer s q _ _) fun _ =>
    ungained_ite (fun _ => ungained_answer s q _ _) fun _ => ((ungained_setPad s p _).trans (ungained_calm (calm_handOut _ _))).answer q _ _

/-! ### Transporters -/

theorem ungained_removeTrain (s : State) (t : Nat) : Ungained s (s.removeTrain t) := by
  have hload : Ungained s (match s.load t with | some (.telescope x) => s.placeTelescope x .unplaced | _ => s) := by
    split
    · exact ungained_kept (kept_placeTelescope s _ _)
    · exact .refl s
  have hpolls (u : State) : Ungained u (if u.polls.outstanding.any (fun x => decide (x.transporter = t)) then u.endPoll else u) :=
    ungained_ite (fun _ => ungained_endPoll u) (fun _ => .refl u)
  exact ((hload.trans (ungained_kept (kept_setLoad _ t none))).trans (hpolls _)).trans (ungained_aside (by rfl) (by rfl))

theorem ungained_takeDisenroll (s : State) (q : Ask) (t : Nat) : Ungained s (s.takeDisenroll q t) := by
  refine ungained_ite (fun _ => ungained_answer s q _ _) (fun _ => ?_)
  split
  · exact ungained_answer s q _ _
  · refine ungained_ite (fun _ => ungained_answer s q _ _) (fun _ => ?_)
    exact (((ungained_kept (kept_leftAll s t)).trans (ungained_removeTrain _ t)).emit _).answer q _ _

theorem ungained_takeProceed (s : State) (q : Ask) (t : Nat) : Ungained s (s.takeProceed q t) :=
  ungained_ite (fun _ => ungained_answer s q _ _) fun _ => ungained_ite (fun _ => ungained_answer s q _ _) fun _ =>
    (ungained_backToNormal s t).answer q _ _

theorem ungained_quietEdit (v : QuietState) (f : TransporterRec → TransporterRec) (s : State) : Ungained s (quietEdit v f s) := by
  obtain ⟨recs, e⟩ := editTrains_writes f s.enrolledList { s with polls := { s.polls with quiet := v } }
  rw [show quietEdit v f s = _ from e]
  exact ungained_aside (by rfl) (by rfl)

theorem ungained_takeEnterQuiet (s : State) (q : Ask) : Ungained s (s.takeEnterQuiet q) :=
  ungained_ite (fun _ => ungained_answer s q _ _) fun _ => ((ungained_quietEdit .pending unstood s).emit _).answerAfter _

theorem ungained_takeLeaveQuiet (s : State) (q : Ask) : Ungained s (s.takeLeaveQuiet q) :=
  ungained_ite (fun _ => ungained_answer s q _ _) fun _ => ((ungained_quietEdit .off renewed s).emit _).answer q _ _

/-! ### Grant maps, fences and the hold -/

theorem ungained_takeSetGrants (s : State) (q : Ask) (who : Nat) (a b : List Nat) : Ungained s (s.takeSetGrants q who a b) :=
  ungained_ite (fun _ => ungained_answer s q _ _) (fun _ => Ungained.answer (ungained_aside (by rfl) (by rfl)) q _ _)

theorem ungained_takeSetFence (s : State) (q : Ask) (who : Originator) (k base size : Nat) : Ungained s (s.takeSetFence q who k base size) := by
  cases ht : firstFailing (s.setFenceTests k base size) with
  | some i =>
    rw [takeSetFence_failed q ht]
    exact ungained_answer s q _ _
  | none =>
    cases ho : s.firstRefused who (s.fenceObjects ⟨base, size⟩) with
    | some x =>
      rw [takeSetFence_denied q ht ho]
      exact ungained_answer s q _ _
    | none =>
      rw [takeSetFence_set q ht ho]
      exact Ungained.answer (Ungained.trans (b := s.setFence k _) (ungained_aside (by rfl) (by rfl)) (ungained_calm (calm_fenced s k _))) q _ _

theorem ungained_takeClearFence (s : State) (q : Ask) (who : Originator) (k : Nat) : Ungained s (s.takeClearFence q who k) := by
  refine ungained_ite (fun _ => ungained_answer s q _ _) (fun _ => ?_)
  split
  · exact ungained_answer s q _ _
  · split
    · exact ungained_answer s q _ _
    · exact Ungained.answer (ungained_aside (by rfl) (by rfl)) q _ _

theorem NoGain.answer {s t : State} (h : NoGain s t) (q : Ask) (o : Outcome) (b : Body) : NoGain s (t.answer q o b) :=
  fun n u hu => h n u ((apart_answer t q o b).noGain n u hu)

theorem noGain_takeClearWayside (s : State) (q : Ask) : NoGain s (s.takeClearWayside q) := by
  have answered (o : Outcome) (b : Body) : NoGain s (s.answer q o b) := (apart_answer s q o b).noGain
  unfold State.takeClearWayside
  split
  · exact answered _ _
  · split
    · exact (noGain_changeHold s _).answer q _ _
    · exact answered _ _

theorem noGain_takeReleaseHold (s : State) (q : Ask) : NoGain s (s.takeReleaseHold q) := by
  unfold State.takeReleaseHold
  split
  · exact (noGain_changeHold s _).answer q _ _
  · exact (apart_answer s q _ _).noGain

/-- After `restart` each segment has the holder that it had, where that stands there, or none (R20). -/
theorem noGain_takeRestart (s : State) (q : Ask) : NoGain s (s.takeRestart q) := by
  intro n u hu
  obtain ⟨hcore, -⟩ := takeRestart_core s q
  have hafter : ((afterRestart s q).seg n).holder = some u := by
    unfold State.seg at hu ⊢
    rw [← hcore]
    exact hu
  exact ((afterRestart_holder s q n u).1 hafter).1

/-! ### A request taken -/

/-- The requests that place a transporter (R133, R143). -/
def Places : Request → Prop
  | .enrollTransporter _ _ _ => True
  | .clearAstray _ _ => True
  | _ => False

theorem noGain_owner {s : State} (ha : s.holdActive = true) (q : Ask) (who : Originator) {r : Request} (hr : ¬Places r) :
    NoGain s (s.owner q who r) := by
  cases r with
  | enrollTransporter => exact (hr trivial).elim
  | clearAstray => exact (hr trivial).elim
  | restart => exact noGain_takeRestart s q
  | releaseHold => exact noGain_takeReleaseHold s q
  | clearWayside => exact noGain_takeClearWayside s q
  | hold => exact ((ungained_changeHold s (by simp [HoldSources.active])).answer q _ _).holders ha
  | readStatus => exact (ungained_answer s q _ _).holders ha
  | readSegment n => exact (ungained_ite (fun _ => ungained_answer s q _ _) (fun _ => ungained_answerTime s _ q _)).holders ha
  | readPad p => exact (ungained_ite (fun _ => ungained_answer s q _ _) (fun _ => ungained_answerTime s _ q _)).holders ha
  | readTransporter t => exact (ungained_takeReadTransporter s q t).holders ha
  | readOrder k p => exact (ungained_takeReadOrder s q k p).holders ha
  | readTelescope x => exact (ungained_ite (fun _ => ungained_answer s q _ _) (fun _ => ungained_answer s q _ _)).holders ha
  | sweepPads f c d => exact (ungained_ite (fun _ => ungained_answer s q _ _) (fun _ => ungained_answer s q _ _)).holders ha
  | fetchNotice => exact (ungained_takeFetchNotice s q).holders ha
  | setNoticeEnables e => exact (ungained_takeSetNoticeEnables s q e).holders ha
  | clearPort => exact (Ungained.answer (t := s.setFlags _) (ungained_aside (by rfl) (by rfl)) q _ _).holders ha
  | setParameter n v => exact (ungained_takeSetParameter s q n v).holders ha
  | declareSegment n k g v r l1 l2 l3 => exact (ungained_takeDeclareSegment s q n _).holders ha
  | closeLayout => exact (ungained_takeCloseLayout s q).holders ha
  | clearSwitch j => exact (ungained_takeClearSwitch s q j).holders ha
  | submitOrder t k f leg => exact (ungained_takeSubmitOrder s q who t k f leg).holders ha
  | cancelOrder k => exact (ungained_takeCancelOrder s q k).holders ha
  | divert t a b => exact (ungained_takeDivert s q who t a b).holders ha
  | resumeRefuge k => exact (ungained_takeResumeRefuge s q k).holders ha
  | declarePad p a g x => exact (ungained_takeDeclarePad s q p a g x).holders ha
  | settlePad p x => exact (ungained_takeSettlePad s q p x).holders ha
  | settleLoad t l => exact (ungained_takeSettleLoad s q t l).holders ha
  | barPad p => exact (ungained_takeBarPad s q p).holders ha
  | unbarPad p => exact (ungained_takeUnbarPad s q p).holders ha
  | recouplePad p => exact (ungained_takeRecouplePad s q p).holders ha
  | disenrollTransporter t => exact (ungained_takeDisenroll s q t).holders ha
  | proceed t => exact (ungained_takeProceed s q t).holders ha
  | enterQuiet => exact (ungained_takeEnterQuiet s q).holders ha
  | leaveQuiet => exact (ungained_takeLeaveQuiet s q).holders ha
  | setGrants w a b => exact (ungained_takeSetGrants s q w a b).holders ha
  | setFence k b n => exact (ungained_takeSetFence s q who k b n).holders ha
  | clearFence k => exact (ungained_takeClearFence s q who k).holders ha

theorem noGain_decideValid {s : State} (ha : s.holdActive = true) (q : Ask) (who : Originator) {r : Request} (hr : ¬Places r) :
    NoGain s (s.decideValid q who r) := by
  have answered (o : Outcome) (b : Body) : NoGain s (s.answer q o b) := (apart_answer s q o b).noGain
  unfold State.decideValid
  split
  · exact answered _ _
  · split
    · exact answered _ _
    · split
      · exact answered _ _
      · exact noGain_owner ha q who hr

theorem apart_lateAnswer (x : LateAnswer) (s : State) : Apart s (lateAnswer x s) := by
  cases x with
  | cancel q k =>
    unfold lateAnswer State.answerCancel
    dsimp only
    split
    · exact ⟨rfl, rfl⟩
    · exact apart_answer s q _ _
  | divert q k =>
    unfold lateAnswer State.answerDivert
    dsimp only
    split
    · exact ⟨rfl, rfl⟩
    · exact apart_answer s q _ _
  | resume q k =>
    unfold lateAnswer State.answerResume
    dsimp only
    split
    · exact ⟨rfl, rfl⟩
    · exact apart_answer s q _ _
  | quiet q =>
    unfold lateAnswer State.answerQuiet
    dsimp only
    split <;> exact apart_answer s q _ _

theorem apart_placeLate (s : State) : Apart s s.placeLate := by
  cases h : s.late with
  | none =>
    unfold State.placeLate
    rw [h]
    exact ⟨rfl, rfl⟩
  | some x =>
    rw [placeLate_some h]
    exact apart_lateAnswer x { s with late := none }

end Sys2Proof.Proofs
end

section
/-!
PROOFS. No segment gains a holder under the array hold (R24, R168).
-/

namespace Sys2Proof.Proofs

open Sys2Proof Sys2Proof.Machine Sys2Proof.Laws

/-- Where the hold is active at the end of an edit's work it was active throughout, and the work claimed nothing (R24, R168). -/
theorem NoGain.work {s e : State} (h : NoGain s e) (ha : (workOff e).holdActive = true) : NoGain s (workOff e) := by
  have hkept := kept_workOff e
  exact fun n u hu => h n u (hkept.holders ((congrArg HoldSources.active hkept.hold).symm.trans ha) n u hu)

/-- An event of the blocks under the hold that leaves it active. -/
theorem BlockEvent.noGain_event {act : State → State} (h : BlockEvent act) {s : State} (ha : s.holdActive = true)
    (hend : (runEvent act s).holdActive = true) : NoGain s (runEvent act s) := (h.noGain ha).work hend

/-- A request put with no other waiting: it waits where the answer queue is full, and is decided otherwise (R190). -/
theorem submit_alone {s : State} (hq : s.port.requests = []) (h : Header) (r : Request) : submit h r s = closeEvent s.pending
    (if s.port.answers.length < 8 then (workOff (s.decideValid ⟨h.tag, codeOf r⟩ h.originator r)).placeLate
    else s.setRequests [{ tag := h.tag, code := codeOf r, content := .valid h.originator r }]) := by
  have hjoin : s.joinRequests { tag := h.tag, code := codeOf r, content := .valid h.originator r } =
      s.setRequests [{ tag := h.tag, code := codeOf r, content := .valid h.originator r }] := by
    unfold State.joinRequests
    rw [hq]
    rfl
  have hback : (s.setRequests [{ tag := h.tag, code := codeOf r, content := .valid h.originator r }]).setRequests [] = s := by
    show { s with port := { s.port with requests := [] } } = s
    rw [← hq]
  unfold submit runPort
  dsimp only
  rw [hjoin]
  show closeEvent s.pending (if s.port.answers.length < 8 then
    (workOff (State.decideRequest ((s.setRequests [_]).setRequests []) _)).placeLate else _) = _
  rw [hback]
  rfl

theorem noGain_submit {s : State} (hq : s.port.requests = []) (ha : s.holdActive = true) (h : Header) {r : Request} (hr : ¬Places r)
    (hend : (submit h r s).holdActive = true) : NoGain s (submit h r s) := by
  rw [submit_alone hq] at hend ⊢
  split at hend
  · next hroom =>
    rw [if_pos hroom]
    obtain ⟨hsegs, hhold⟩ := apart_placeLate (workOff (s.decideValid ⟨h.tag, codeOf r⟩ h.originator r))
    have hactive : (workOff (s.decideValid ⟨h.tag, codeOf r⟩ h.originator r)).holdActive = true :=
      (congrArg HoldSources.active hhold).symm.trans hend
    have hwork := (noGain_decideValid ha ⟨h.tag, codeOf r⟩ h.originator hr).work hactive
    exact fun n u hu => hwork n u (Apart.noGain ⟨hsegs, hhold⟩ n u hu)
  · next hfull =>
    rw [if_neg hfull]
    exact fun _ _ hu => hu

/-- The last byte of an answer leaves: with no request waiting nothing else happens (R191). -/
theorem noGain_answerSent {s : State} (hq : s.port.requests = []) : NoGain s (runPort State.answerLeaves s) := by
  have hleft : Apart s s.answerLeaves ∧ s.answerLeaves.port.requests = [] ∧ s.answerLeaves.pending = s.pending := by
    unfold State.answerLeaves
    split
    · split <;> exact ⟨⟨rfl, rfl⟩, hq, rfl⟩
    · exact ⟨⟨rfl, rfl⟩, hq, rfl⟩
  obtain ⟨hapart, hnone, hpending⟩ := hleft
  rw [runPort_nil hnone hpending]
  exact hapart.noGain

theorem noGain_windowBegin (s : State) : NoGain s (closeEvent s.pending s.beginWindow) := by
  have hapart : Apart s s.beginWindow := by
    unfold State.beginWindow
    split <;> exact ⟨rfl, rfl⟩
  exact hapart.noGain

/-- The commands whose requests place a transporter (R133, R143). -/
theorem placing_command {c : Instr} {h : Header} {r : Request} (hc : c.request? = some (h, r)) (hp : Places r) :
    (∃ n p l, c = .enrollTransporter h n p l) ∨ ∃ n p, c = .clearAstray h n p := by
  cases c with
  | enrollTransporter => cases hc; exact .inl ⟨_, _, _, rfl⟩
  | clearAstray => cases hc; exact .inr ⟨_, _, rfl⟩
  | _ => cases hc <;> exact hp.elim

/-- Settles O6: the edit of each command leaves the holders, or some of them, and the work that follows under the hold grants nothing. -/
theorem noNewHolderUnderHold : Obligations.NoNewHolderUnderHold := by
  intro c s t hq ha henroll hastray hframe hend hlength hexec hactive
  cases hc : c.request? with
  | some x =>
    obtain ⟨h, r⟩ := x
    have hr : ¬Places r := fun hp => by
      obtain ⟨n, p, l, e⟩ | ⟨n, p, e⟩ := placing_command hc hp
      · exact henroll h n p l e
      · exact hastray h n p e
    rw [exec_request hc] at hexec
    cases hexec
    exact noGain_submit hq ha h hr hactive
  | none =>
    have event {act : State → State} (h : BlockEvent act) (ht : t = runEvent act s) : NoGain s t := by
      subst ht
      exact h.noGain_event ha hactive
    cases c with
    | powerOn => cases hexec; cases hactive
    | resetLine => cases hexec; cases hactive
    | holdAsserted => cases hexec; exact event (.line true) rfl
    | holdDeasserted => cases hexec; exact event (.line false) rfl
    | windowBegin => cases hexec; exact noGain_windowBegin s
    | windowEnd bytes => exact absurd rfl (hend bytes)
    | requestFrameComplete bytes => exact absurd rfl (hframe bytes)
    | lengthByteFraming b => exact absurd rfl (hlength b)
    | answerSent => cases hexec; exact noGain_answerSent hq
    | gapTimerExpiry => cases hexec; exact event .gapExpiry rfl
    | pollTransmitted => cases hexec; exact event .pollTransmitted rfl
    | transporterReport bytes => cases hexec; exact event (.report bytes) rfl
    | replyWindowExpiry => cases hexec; exact event .windowExpiry rfl
    | progressTimerExpiry t => cases hexec; exact event (.progressExpiry t) rfl
    | waysideFrame bytes => cases hexec; exact event (.waysideFrame bytes) rfl
    | waysideByteGapTimeout => cases hexec; exact event .byteGap rfl
    | silenceTimerExpiry => cases hexec; exact event .silenceExpiry rfl
    | sensor => cases hexec; exact event .sensor rfl
    | detection => cases hexec; exact event .detection rfl
    | padEvent => cases hexec; exact event .padEvent rfl
    | waysideSendComplete => cases hexec; exact event .sendComplete rfl
    | operationTimerExpiry j => cases hexec; exact event (.operationExpiry j) rfl
    | junctionHoldExpiry j => cases hexec; exact event (.holdExpiry j) rfl
    | proveIntervalExpiry => cases hexec; exact event .intervalExpiry rfl
    | transferTimerExpiry p => cases hexec; exact event (.transferExpiry p) rfl
    | couplingTimerExpiry p => cases hexec; exact event (.couplingExpiry p) rfl
    | byteInHunting b => cases hexec; exact event (.waysideByte b) rfl
    | _ => cases hc

end Sys2Proof.Proofs
end

section
/-!
PROOFS. The wayside link: where a message handed to the out-queue is placed (R178), what the receiver does with a frame (R172 to R174), and the expiry
of the silence timer (R176).
-/

namespace Sys2Proof.Proofs

open Sys2Proof Sys2Proof.Machine Sys2Proof.Laws

/-! ### Where a message is placed (R178) -/

section

variable {q : List OutMessage} {m : OutMessage}

theorem placeOut_fresh (h : ∀ x ∈ q, outObject x ≠ outObject m) : placeOut q m = q ++ [m] :=
  if_neg (by simpa using h)

theorem placeOut_prove {j : Nat} (h : ∃ x ∈ q, outObject x = outObject (.prove j)) : placeOut q (.prove j) = q :=
  if_pos (by simpa using h)

theorem placeOut_replaces (h : ∃ x ∈ q, outObject x = outObject m) (hm : ∀ j, m ≠ .prove j) :
    placeOut q m = q.map fun x => if outObject x = outObject m then m else x := by
  have hqueued : (q.any fun x => decide (outObject x = outObject m)) = true := by simpa using h
  cases m with
  | prove j => exact absurd rfl (hm j)
  | throw => exact if_pos hqueued
  | couple => exact if_pos hqueued
  | uncouple => exact if_pos hqueued

end

/-- Settles O36: a PROVE beside an entry for its junction leaves the queue, any other message is written over the entries for its object. -/
theorem outQueueMergesByObject : Obligations.OutQueueMergesByObject := by
  refine fun q m => ⟨placeOut_fresh, fun h => ⟨?_, fun hm => ?_⟩⟩
  · rintro ⟨j, rfl⟩
    exact placeOut_prove h
  · rw [placeOut_replaces h hm]
    exact ⟨List.length_map _, fun i x hx => by rw [List.getElem?_map, hx]; rfl⟩

/-! ### A frame received (R172) -/

section

variable {s : State} {bytes : List Byte}

/-- A frame is judged by its bytes alone, whatever the receiver had gathered. -/
theorem judge_setReceiver (s : State) (x : Receiver) (bytes : List Byte) : (s.setReceiver x).judge bytes = s.judge bytes := by
  unfold State.judge
  split <;> rfl

theorem receiveByte_gathers {got : List Byte} (hr : s.wayside.receiver = .inFrame got) (hlen : got.length + 1 < 6) (b : Byte) :
    s.receiveByte b = s.setReceiver (.inFrame (got ++ [b])) := by
  unfold State.receiveByte
  rw [hr]
  exact if_pos hlen

theorem receiveByte_judges {got : List Byte} (hr : s.wayside.receiver = .inFrame got) (hlen : ¬got.length + 1 < 6) (b : Byte) :
    s.receiveByte b = s.judge (got ++ [b]) := by
  unfold State.receiveByte
  rw [hr]
  exact if_neg hlen

/-- The bytes that complete a frame in progress lead to its judgement. -/
theorem receive_completes {rest got : List Byte} (hr : s.wayside.receiver = .inFrame got) (hrest : rest ≠ [])
    (hlen : got.length + rest.length = 6) : rest.foldl State.receiveByte s = s.judge (got ++ rest) := by
  induction rest generalizing s got with
  | nil => exact absurd rfl hrest
  | cons b rest ih =>
    rw [List.length_cons] at hlen
    rw [List.foldl_cons]
    by_cases hlast : rest = []
    · subst hlast
      exact receiveByte_judges hr (by simp at hlen; omega) b
    · have hpos := List.length_pos_of_ne_nil hlast
      rw [receiveByte_gathers hr (by omega), ih rfl hlast (by simp; omega), judge_setReceiver, List.append_assoc, List.singleton_append]

theorem receiveByte_sync (hr : s.wayside.receiver = .hunting) : s.receiveByte syncByte = s.setReceiver (.inFrame [syncByte]) := by
  unfold State.receiveByte
  rw [hr]
  exact if_pos rfl

theorem receiveByte_astray (hr : s.wayside.receiver = .hunting) {b : Byte} (hb : b ≠ syncByte) : s.receiveByte b = s.checkError := by
  unfold State.receiveByte
  rw [hr]
  exact if_neg hb

/-- A frame that reaches a hunting receiver is judged. -/
theorem receive_frame (hr : s.wayside.receiver = .hunting) (hlen : bytes.length = 6) (hsync : bytes.head? = some syncByte) :
    bytes.foldl State.receiveByte s = s.judge bytes := by
  obtain ⟨rest, rfl⟩ := List.head?_eq_some_iff.1 hsync
  rw [List.length_cons] at hlen
  have hrest : rest ≠ [] := List.ne_nil_of_length_pos (by omega)
  rw [List.foldl_cons, receiveByte_sync hr, receive_completes rfl hrest (by simp; omega), judge_setReceiver]
  rfl

theorem exec_waysideFrame (bytes : List Byte) (s : State) :
    exec (.waysideFrame bytes) s = .next (runEvent (fun s => bytes.foldl State.receiveByte s) s) := rfl

/-! ### A good frame (R173, R174) -/

theorem setReceiver_hunting (hr : s.wayside.receiver = .hunting) : s.setReceiver .hunting = s := by
  unfold State.setReceiver
  rw [← hr]

theorem judge_status (hr : s.wayside.receiver = .hunting) (hj : judgeFrame bytes = some .status) : s.judge bytes = s.heardWayside := by
  unfold State.judge
  rw [hj]
  exact congrArg State.heardWayside (setReceiver_hunting hr)

theorem judge_message {m : InMessage} (hr : s.wayside.receiver = .hunting) (hj : judgeFrame bytes = some (.message m)) :
    s.judge bytes = s.heardWayside.queueMessage m := by
  unfold State.judge
  rw [hj]
  exact congrArg (fun s => State.queueMessage (State.heardWayside s) m) (setReceiver_hunting hr)

theorem settled_heardWayside (h : s.Settled) : s.heardWayside.Settled := settled_wayside h _

theorem messageDeclared_heardWayside (s : State) (m : InMessage) : s.heardWayside.messageDeclared m = s.messageDeclared m := by
  cases m <;> rfl

theorem queueMessage_joins {m : InMessage} (hd : s.messageDeclared m = true) (hroom : s.wayside.inQueue.length < 16) :
    s.queueMessage m = s.setInQueue (s.wayside.inQueue ++ [m]) :=
  (if_pos hd).trans (if_neg (Nat.not_le.2 hroom))

theorem queueMessage_overflows {m : InMessage} (hd : s.messageDeclared m = true) (hfull : 16 ≤ s.wayside.inQueue.length) :
    s.queueMessage m = s.addWayside :=
  (if_pos hd).trans (if_pos hfull)

theorem queueMessage_undeclared {m : InMessage} (hd : s.messageDeclared m = false) : s.queueMessage m = s :=
  if_neg (by rw [hd]; exact Bool.false_ne_true)

/-- STATUS, and a message whose object is not declared, leave nothing but the news of the link (R173). -/
theorem judge_finished (hr : s.wayside.receiver = .hunting)
    (hj : judgeFrame bytes = some .status ∨ ∃ m, judgeFrame bytes = some (.message m) ∧ s.messageDeclared m = false) :
    s.judge bytes = s.heardWayside := by
  obtain hj | ⟨m, hj, hd⟩ := hj
  · exact judge_status hr hj
  · rw [judge_message hr hj]
    exact queueMessage_undeclared ((messageDeclared_heardWayside s m).trans hd)

/-- An event that makes WAYSIDE present: the source is the one write, and what the hold does if it begins is calm work (R164). -/
theorem calm_waysideEnters {act : State → State} {s e : State} (hact : act s = e.addWayside) (ha : e.agenda = []) (hp : e.pending = s.pending) :
    Calm (e.setHold { e.guards.hold with wayside := true }) (runEvent act s) := by
  have hedit : Calm (e.setHold { e.guards.hold with wayside := true }) e.addWayside := calm_changeHold e _
  exact hedit.trans (event_calm act hact (hedit.pending.trans hp) (noReport_of_kept hedit.toKept ha))

end

/-- Settles O57: the frame is judged whole; what its message finds, room, a full queue or no object, is one write beside the link's. -/
theorem goodFrameIsQueued : Obligations.GoodFrameIsQueued := by
  intro s bytes ha hr hlen hsync
  have hframe := receive_frame hr hlen hsync
  have taken {m : InMessage} (hj : judgeFrame bytes = some (.message m)) :
      bytes.foldl State.receiveByte s = s.heardWayside.queueMessage m := hframe.trans (judge_message hr hj)
  have declared {m : InMessage} (hd : s.messageDeclared m = true) : s.heardWayside.messageDeclared m = true :=
    (messageDeclared_heardWayside s m).trans hd
  refine ⟨fun m hj hd hroom => ?_, fun m hj hd hfull => ?_, fun hj hs => ?_⟩
  · have hcalm := event_calm (fun s => bytes.foldl State.receiveByte s) ((taken hj).trans (queueMessage_joins (declared hd) hroom)) rfl
      (noReport_of_empty ha)
    exact ⟨_, rfl, hcalm.inQueue, hcalm.pause.trans (by simp [State.heardWayside]), hcalm.receiver.trans hr, hcalm⟩
  · have hcalm := calm_waysideEnters (act := fun s => bytes.foldl State.receiveByte s)
      ((taken hj).trans (queueMessage_overflows (declared hd) hfull)) ha rfl
    exact ⟨_, rfl, congrArg HoldSources.wayside hcalm.hold, hcalm.inQueue, hcalm⟩
  · have hrun := event_settled (fun s => bytes.foldl State.receiveByte s) (hframe.trans (judge_finished hr hj)) (settled_heardWayside hs) rfl
    exact (exec_waysideFrame bytes s).trans (congrArg _ hrun)

/-! ### Check errors and silence (R172, R176) -/

section

variable {s : State}

theorem judge_bad {bytes : List Byte} (hj : judgeFrame bytes = none) : s.judge bytes = s.checkError := by
  unfold State.judge
  rw [hj]

theorem byteGap_inFrame {got : List Byte} (hr : s.wayside.receiver = .inFrame got) : s.byteGap = s.checkError := by
  unfold State.byteGap
  rw [hr]

theorem byteGap_hunting (hr : s.wayside.receiver = .hunting) : s.byteGap = s := by
  unfold State.byteGap
  rw [hr]

/-- The link once the silence timer has expired (R176). -/
def silenced (s : State) : State := { s with wayside := { s.wayside with silence := .expired, link := .silent } }

theorem silenceExpiry_running {time : Nat} (h : s.wayside.silence = .running time) : s.silenceExpiry = (silenced s).addWayside := by
  unfold State.silenceExpiry
  rw [h]
  rfl

theorem silenceExpiry_expired (h : s.wayside.silence = .expired) : s.silenceExpiry = s := by
  unfold State.silenceExpiry
  rw [h]

/-- An event that is a check error (R172). -/
theorem calm_checkError {act : State → State} (hact : act s = s.checkError) (ha : s.agenda = []) :
    Calm ((s.setReceiver .hunting).setHold { s.guards.hold with wayside := true }) (runEvent act s) :=
  calm_waysideEnters hact ha rfl

theorem exec_waysideByteGapTimeout (s : State) : exec .waysideByteGapTimeout s = .next (runEvent State.byteGap s) := rfl

theorem exec_silenceTimerExpiry (s : State) : exec .silenceTimerExpiry s = .next (runEvent State.silenceExpiry s) := rfl

end

/-- Settles O58: each of the three is a check error, and the expiry is the link's write with WAYSIDE; the two idle commands change nothing. -/
theorem checkErrorsAndSilenceBringWayside : Obligations.CheckErrorsAndSilenceBringWayside := by
  refine ⟨fun s => ⟨fun bytes ha hr hlen hsync hj => ?_, fun got ha hr => ?_, fun b ha hr hb => ?_, fun hs hr => ?_⟩,
    fun s => ⟨fun time ha ht => ?_, fun hs ht => ?_⟩⟩
  · have hbad : bytes.foldl State.receiveByte s = s.checkError := (receive_frame hr hlen hsync).trans (judge_bad hj)
    exact ⟨_, rfl, calm_checkError (act := fun s => bytes.foldl State.receiveByte s) hbad ha⟩
  · exact ⟨_, rfl, calm_checkError (byteGap_inFrame hr) ha⟩
  · exact ⟨_, rfl, calm_checkError (act := fun s => s.receiveByte b) (receiveByte_astray hr hb) ha⟩
  · rw [exec_waysideByteGapTimeout, event_nothing _ (byteGap_hunting hr) hs]
  · exact ⟨_, rfl, calm_waysideEnters (silenceExpiry_running ht) ha rfl⟩
  · rw [exec_silenceTimerExpiry, event_nothing _ (silenceExpiry_expired ht) hs]

end Sys2Proof.Proofs
end

section
/-!
SUPPORT. The frames of the control link (R186, R187): what each part of a request's frame reads back as; and O7, that every well-formed request reads
back from its frame.
-/

namespace Sys2Proof.Proofs

open Sys2Proof Sys2Proof.Machine Sys2Proof.Laws

/-! ### Numbers and words as bytes -/

theorem byteOf_toNat {n : Nat} (h : fitsByte n = true) : (byteOf n).toNat = n :=
  (BitVec.toNat_ofNat n 8).trans (Nat.mod_eq_of_lt (of_decide_eq_true h))

/-- The two bytes of a 16-bit quantity, put together again (R198). -/
theorem wordBytes_append (w : Word16) : (w >>> 8).setWidth 8 ++ w.setWidth 8 = w := by
  apply BitVec.eq_of_getLsbD_eq
  intro i hi
  rw [BitVec.getLsbD_append]
  split
  · simp [*]
  · simp [show i - 8 < 8 by omega, show 8 + (i - 8) = i by omega]

theorem readWord_byteOf {v : Nat} (h : fitsWord v = true) : readWord (byteOf (v / 256)) (byteOf (v % 256)) = v := by
  have hv : v < 65536 := of_decide_eq_true h
  have hi : fitsByte (v / 256) = true := decide_eq_true (by omega)
  have lo : fitsByte (v % 256) = true := decide_eq_true (by omega)
  unfold readWord
  rw [byteOf_toNat hi, byteOf_toNat lo]
  omega

/-! ### Named values as bytes -/

theorem readSense_senseByte (d : Sense) : readSense (senseByte d) = some d := by cases d <;> rfl

theorem readKind_kindByte (k : SegKind) : readKind (kindByte k) = some k := by cases k <;> rfl

theorem readSpeed_speedByte (v : SpeedClass) : readSpeed (speedByte v) = some v := by cases v <;> rfl

theorem readRest_restByte (r : RestPosition) : readRest (restByte r) = some r := by cases r <;> rfl

theorem readEnd_endByte (e : TrackEnd) : readEnd (endByte e) = some e := by cases e <;> rfl

theorem readOrderKind_orderKindByte (k : OrderKind) : readOrderKind (orderKindByte k) = some k := by cases k <;> rfl

theorem readOriginator_originatorNumber (o : Originator) : readOriginator (originatorNumber o) = some o := by cases o <;> rfl

/-! ### Values of two bytes -/

/-- A present link's neighbour byte is not 255, so that the field is not read as absent (R187). -/
theorem readLink_linkBytes {l : Option Link} (h : linkFieldWf l = true) : ∃ n e, linkBytes l = [n, e] ∧ readLink n e = some l := by
  cases l with
  | none => exact ⟨_, _, rfl, rfl⟩
  | some l =>
    have hl : l.neighbour < 255 := of_decide_eq_true h
    have hn : (byteOf l.neighbour).toNat = l.neighbour := byteOf_toNat (decide_eq_true (by omega))
    have hpresent : byteOf l.neighbour ≠ 255#8 := fun e => by
      rw [e] at hn
      exact absurd hn (Nat.ne_of_gt hl)
    refine ⟨_, _, rfl, ?_⟩
    unfold readLink
    rw [if_neg hpresent, readEnd_endByte, hn]
    rfl

theorem readFinish_finishBytes {f : Finish} (h : f.wf = true) : ∃ k p, finishBytes f = [k, p] ∧ readFinish k p = some f := by
  cases f with
  | none => exact ⟨_, _, rfl, rfl⟩
  | lift p => exact ⟨_, _, rfl, congrArg (some ∘ Finish.lift) (byteOf_toNat h)⟩
  | setDown p => exact ⟨_, _, rfl, congrArg (some ∘ Finish.setDown) (byteOf_toNat h)⟩

theorem readLoad_loadBytes {l : LoadTarget} (h : l.wf = true) : ∃ k x, loadBytes l = [k, x] ∧ readLoad k x = some l := by
  cases l with
  | none => exact ⟨_, _, rfl, rfl⟩
  | telescope x => exact ⟨_, _, rfl, congrArg (some ∘ LoadTarget.telescope) (byteOf_toNat h)⟩

theorem readPadTarget_padTargetBytes {i : PadTarget} (h : i.wf = true) : ∃ k x, padTargetBytes i = [k, x] ∧ readPadTarget k x = some i := by
  cases i with
  | vacant => exact ⟨_, _, rfl, rfl⟩
  | anchored x => exact ⟨_, _, rfl, congrArg (some ∘ PadTarget.anchored) (byteOf_toNat h)⟩
  | barred => exact ⟨_, _, rfl, rfl⟩

/-! ### Lists -/

theorem readStretches_flatMap {l : List Stretch} (h : l.all Stretch.wf = true) (after : List Byte) :
    readStretches l.length (l.flatMap stretchBytes ++ after) = some (l, after) := by
  induction l with
  | nil => rfl
  | cons x l ih =>
    obtain ⟨hx, hl⟩ := Bool.and_eq_true_iff.1 h
    obtain ⟨hfirst, hcount⟩ := Bool.and_eq_true_iff.1 hx
    show readStretches (l.length + 1) (byteOf x.first :: byteOf x.count :: senseByte x.sense :: (l.flatMap stretchBytes ++ after)) = _
    simp only [readStretches, readSense_senseByte, ih hl, byteOf_toNat hfirst, byteOf_toNat hcount]

theorem readNumbers_map {l : List Nat} (h : l.all fitsByte = true) (after : List Byte) :
    readNumbers l.length (l.map byteOf ++ after) = some (l, after) := by
  induction l with
  | nil => rfl
  | cons n l ih =>
    obtain ⟨hn, hl⟩ := Bool.and_eq_true_iff.1 h
    show readNumbers (l.length + 1) (byteOf n :: (l.map byteOf ++ after)) = _
    simp only [readNumbers, ih hl, byteOf_toNat hn]

/-! ### Requests with a list -/

theorem readDeclaration_paramBytes {n g : Nat} {k : SegKind} {v : SpeedClass} {r : RestPosition} {l1 l2 l3 : Option Link}
    (h : (Request.declareSegment n k g v r l1 l2 l3).wf = true) :
    readDeclaration (paramBytes (.declareSegment n k g v r l1 l2 l3)) = some (.declareSegment n k g v r l1 l2 l3) := by
  simp only [Request.wf, Bool.and_eq_true] at h
  obtain ⟨⟨⟨⟨hn, hg⟩, h1⟩, h2⟩, h3⟩ := h
  obtain ⟨n1, e1, b1, r1⟩ := readLink_linkBytes h1
  obtain ⟨n2, e2, b2, r2⟩ := readLink_linkBytes h2
  obtain ⟨n3, e3, b3, r3⟩ := readLink_linkBytes h3
  simp only [paramBytes, b1, b2, b3, List.cons_append, List.nil_append, readDeclaration, readKind_kindByte, readSpeed_speedByte, readRest_restByte,
    r1, r2, r3, byteOf_toNat hn, byteOf_toNat hg]

theorem readSubmit_paramBytes {t : Nat} {k : OrderKind} {f : Finish} {leg : List Stretch} (h : (Request.submitOrder t k f leg).wf = true) :
    readSubmit (paramBytes (.submitOrder t k f leg)) = some (.submitOrder t k f leg) := by
  simp only [Request.wf, Bool.and_eq_true, decide_eq_true_eq] at h
  obtain ⟨⟨⟨ht, hf⟩, hleg⟩, hlen⟩ := h
  have hcount : (byteOf leg.length).toNat = leg.length := byteOf_toNat (decide_eq_true (by omega))
  obtain ⟨kind, pad, hb, hr⟩ := readFinish_finishBytes hf
  have hread := readStretches_flatMap hleg []
  rw [List.append_nil] at hread
  simp only [paramBytes, hb, List.cons_append, List.nil_append, readSubmit, readOrderKind_orderKindByte, hr, hcount, hread, byteOf_toNat ht]

theorem readDivert_paramBytes {t : Nat} {out back : List Stretch} (h : (Request.divert t out back).wf = true) :
    readDivert (paramBytes (.divert t out back)) = some (.divert t out back) := by
  simp only [Request.wf, Bool.and_eq_true, decide_eq_true_eq] at h
  obtain ⟨⟨⟨ht, hout⟩, hback⟩, hlen⟩ := h
  have hcount1 : (byteOf out.length).toNat = out.length := byteOf_toNat (decide_eq_true (by omega))
  have hcount2 : (byteOf back.length).toNat = back.length := byteOf_toNat (decide_eq_true (by omega))
  have hread := readStretches_flatMap hback []
  rw [List.append_nil] at hread
  simp only [paramBytes, readDivert, hcount1, readStretches_flatMap hout, hcount2, hread, byteOf_toNat ht]

theorem readGrants_paramBytes {w : Nat} {pads segments : List Nat} (h : (Request.setGrants w pads segments).wf = true) :
    readGrants (paramBytes (.setGrants w pads segments)) = some (.setGrants w pads segments) := by
  simp only [Request.wf, Bool.and_eq_true, decide_eq_true_eq] at h
  obtain ⟨⟨⟨hw, hpads⟩, hsegments⟩, hlen⟩ := h
  have hcount1 : (byteOf pads.length).toNat = pads.length := byteOf_toNat (decide_eq_true (by omega))
  have hcount2 : (byteOf segments.length).toNat = segments.length := byteOf_toNat (decide_eq_true (by omega))
  have hread := readNumbers_map hsegments []
  rw [List.append_nil] at hread
  simp only [paramBytes, readGrants, hcount1, readNumbers_map hpads, hcount2, hread, byteOf_toNat hw]

/-! ### Every request -/

/-- The parameters of a well-formed request read back from their bytes (R187): each `show` is the arm of `readRequest` for the code and the number of
bytes. -/
theorem readRequest_paramBytes {r : Request} (h : r.wf = true) : readRequest (codeOf r) (paramBytes r) = some r := by
  cases r with
  | readStatus | fetchNotice | clearPort | restart | closeLayout | enterQuiet | leaveQuiet | hold | releaseHold | clearWayside => rfl
  | readOrder n p =>
    cases p with
    | none =>
      show some (Request.readOrder _ none) = _
      rw [byteOf_toNat h]
    | some p =>
      obtain ⟨hn, hp⟩ := Bool.and_eq_true_iff.1 h
      show some (Request.readOrder _ (some _)) = _
      rw [byteOf_toNat hn, byteOf_toNat hp]
  | setNoticeEnables e => exact congrArg (fun e => some (Request.setNoticeEnables e)) (wordBytes_append e)
  | setParameter n v =>
    obtain ⟨hn, hv⟩ := Bool.and_eq_true_iff.1 h
    show some (Request.setParameter _ _) = _
    rw [byteOf_toNat hn, readWord_byteOf hv]
  | declareSegment n k g v r l1 l2 l3 => exact readDeclaration_paramBytes h
  | submitOrder t k f leg => exact readSubmit_paramBytes h
  | divert t out back => exact readDivert_paramBytes h
  | setGrants w p g => exact readGrants_paramBytes h
  | sweepPads f c d =>
    obtain ⟨hf, hc⟩ := Bool.and_eq_true_iff.1 h
    show (readSense (senseByte d)).map (Request.sweepPads _ _) = _
    rw [readSense_senseByte, byteOf_toNat hf, byteOf_toNat hc]
    rfl
  | declarePad p a g i =>
    simp only [Request.wf, Bool.and_eq_true] at h
    obtain ⟨⟨⟨hp, ha⟩, hg⟩, hi⟩ := h
    obtain ⟨k, x, hb, hr⟩ := readPadTarget_padTargetBytes hi
    simp only [paramBytes, hb]
    show (readPadTarget k x).map (Request.declarePad _ _ _) = _
    rw [hr, byteOf_toNat hp, byteOf_toNat ha, byteOf_toNat hg]
    rfl
  | settlePad p i =>
    obtain ⟨hp, hi⟩ := Bool.and_eq_true_iff.1 h
    obtain ⟨k, x, hb, hr⟩ := readPadTarget_padTargetBytes hi
    simp only [paramBytes, hb]
    show (readPadTarget k x).map (Request.settlePad _) = _
    rw [hr, byteOf_toNat hp]
    rfl
  | settleLoad t l =>
    obtain ⟨ht, hl⟩ := Bool.and_eq_true_iff.1 h
    obtain ⟨k, x, hb, hr⟩ := readLoad_loadBytes hl
    simp only [paramBytes, hb]
    show (readLoad k x).map (Request.settleLoad _) = _
    rw [hr, byteOf_toNat ht]
    rfl
  | enrollTransporter t n l =>
    simp only [Request.wf, Bool.and_eq_true] at h
    obtain ⟨⟨ht, hn⟩, hl⟩ := h
    obtain ⟨k, x, hb, hr⟩ := readLoad_loadBytes hl
    simp only [paramBytes, hb]
    show (readLoad k x).map (Request.enrollTransporter _ _) = _
    rw [hr, byteOf_toNat ht, byteOf_toNat hn]
    rfl
  | clearAstray t n =>
    obtain ⟨ht, hn⟩ := Bool.and_eq_true_iff.1 h
    show some (Request.clearAstray _ _) = _
    rw [byteOf_toNat ht, byteOf_toNat hn]
  | setFence a b c =>
    simp only [Request.wf, Bool.and_eq_true] at h
    obtain ⟨⟨ha, hb⟩, hc⟩ := h
    show some (Request.setFence _ _ _) = _
    rw [byteOf_toNat ha, byteOf_toNat hb, byteOf_toNat hc]
  | _ =>
    show some _ = some _
    rw [byteOf_toNat h]

/-- Every request has a code of the table (R187). -/
theorem codeOf_mem (r : Request) : codeOf r ∈ requestCodes := by cases r <;> exact of_decide_eq_true rfl

theorem requestCodes_lt {c : Nat} (h : c ∈ requestCodes) : c < 64 := (by decide : ∀ c ∈ requestCodes, c < 64) c h

/-- The third byte of a frame: the originator in its two most significant bits and the code in the others (R187). -/
theorem whoByte_toNat (o : Originator) (r : Request) :
    (byteOf (originatorNumber o * 64 + codeOf r)).toNat = originatorNumber o * 64 + codeOf r := by
  have hc := requestCodes_lt (codeOf_mem r)
  have ho : originatorNumber o ≤ 2 := by cases o <;> decide
  exact byteOf_toNat (decide_eq_true (by omega))

theorem readContent_valid (o : Originator) {r : Request} (h : r.wf = true) :
    readContent (originatorNumber o) (codeOf r) (paramBytes r) = .valid o r := by
  unfold readContent
  rw [if_neg (not_not.2 (codeOf_mem r)), readOriginator_originatorNumber, readRequest_paramBytes h]

/-- A frame read back (R187). -/
theorem readFrame_requestFrame {h : Header} {r : Request} (hh : h.wf = true) (hr : r.wf = true) :
    readFrame (requestFrame h r) = { tag := h.tag, code := codeOf r, content := .valid h.originator r } := by
  have hcode := requestCodes_lt (codeOf_mem r)
  have hdiv : (originatorNumber h.originator * 64 + codeOf r) / 64 = originatorNumber h.originator := by omega
  have hmod : (originatorNumber h.originator * 64 + codeOf r) % 64 = codeOf r := by omega
  have hparams : (paramBytes r ++ wordBytes (crc (frameBody h r))).take ((paramBytes r ++ wordBytes (crc (frameBody h r))).length - 2)
      = paramBytes r := List.take_left' (by simp [wordBytes])
  have hframe : requestFrame h r = byteOf ((paramBytes r).length + 5) :: byteOf h.tag :: byteOf (originatorNumber h.originator * 64 + codeOf r) ::
      (paramBytes r ++ wordBytes (crc (frameBody h r))) := rfl
  rw [hframe]
  unfold readFrame
  dsimp only
  rw [hparams, whoByte_toNat, hdiv, hmod, readContent_valid _ hr, byteOf_toNat hh]

/-- The check value of R186: the division of the nine bytes 31 to 39, from a register of all ones. -/
theorem crc_digits : crc [0x31#8, 0x32#8, 0x33#8, 0x34#8, 0x35#8, 0x36#8, 0x37#8, 0x38#8, 0x39#8] = 0x29B1#16 := by decide +kernel

/-- Settles O7: each part of a frame reads back as what it was built from; the check follows its bytes, most significant byte first. -/
theorem requestFramesReadBack : Obligations.RequestFramesReadBack := by
  refine ⟨fun _ _ hh hr => readFrame_requestFrame hh hr, rfl, ?_⟩
  unfold withCheck
  rw [crc_digits]
  rfl

end Sys2Proof.Proofs
end

section
/-!
SUPPORT. The windows of the control link (R184, R185, R190, R191): what a frame, a length byte and the end of a window do to the port, and how one
request that waits is taken; and O8 to O11.
-/

namespace Sys2Proof.Proofs

open Sys2Proof Sys2Proof.Machine Sys2Proof.Laws

/-! ### Events of the port -/

/-- An event of the port that leaves no request that an answer would find room for takes none (R190). -/
theorem runPort_idle {act : State → State} {s t : State} (e : act s = t) (h : t.requestsTaken) (hp : t.pending = s.pending) :
    runPort act s = t.decideAttention := by
  show closeEvent s.pending (takeRequests (act s).port.requests.length (act s)) = _
  rw [e, takeRequests_idle _ h, ← hp]
  rfl

/-- An event of the port that leaves one request waiting takes it (R190). -/
theorem runPort_one {act : State → State} {s t : State} {x : QueuedRequest} (e : act s = t) (h : t.port.requests = [x]) :
    runPort act s = closeEvent s.pending (takeRequest t) := by
  show closeEvent s.pending (takeRequests (act s).port.requests.length (act s)) = _
  rw [e, h]
  rfl

/-- How a request that cannot be read is answered (R189 stages 1 and 2). -/
def Unreadable (x : QueuedRequest) (o : Outcome) : Prop :=
  (x.content = .unknown ∧ o = .unknownRequest) ∨ (x.content = .malformed ∧ o = .malformed)

theorem decideRequest_unreadable {s : State} {x : QueuedRequest} {o : Outcome} (h : Unreadable x o) :
    s.decideRequest x = s.answer ⟨x.tag, x.code⟩ o .empty := by
  unfold State.decideRequest
  obtain ⟨hx, rfl⟩ | ⟨hx, rfl⟩ := h <;> rw [hx]

/-- A request that cannot be read is answered with an empty body, and the blocks do nothing (R189). -/
theorem takeRequest_unreadable {s : State} {x : QueuedRequest} {rest : List QueuedRequest} {o : Outcome} (hw : s.Settled) (hl : s.late = none)
    (hr : s.port.answers.length < 8) (hq : s.port.requests = x :: rest) (hx : Unreadable x o) :
    takeRequest s = { s with port := { s.port with requests := rest, answers := s.port.answers ++ [⟨x.tag, x.code, o, .empty⟩] } } := by
  have hsettled : ((s.setRequests rest).setAnswers (s.port.answers ++ [⟨x.tag, x.code, o, .empty⟩])).Settled :=
    settled_same hw rfl rfl rfl rfl rfl rfl rfl rfl
  have hdecide : (s.setRequests rest).decideRequest x = (s.setRequests rest).setAnswers (s.port.answers ++ [⟨x.tag, x.code, o, .empty⟩]) :=
    (decideRequest_unreadable hx).trans (answer_room (s := s.setRequests rest) hr _ _ _)
  unfold takeRequest
  rw [hq]
  dsimp only
  rw [if_pos hr, hdecide, workOff_settled hsettled]
  unfold State.placeLate
  rw [show ((s.setRequests rest).setAnswers _).late = none from hl]
  rfl

/-- An event of the port that leaves one request waiting, which cannot be read, with room for its answer. -/
theorem runPort_unreadable {act : State → State} {s t : State} {x : QueuedRequest} {o : Outcome} (e : act s = t) (hw : t.Settled) (hl : t.late = none)
    (hr : t.port.answers.length < 8) (hq : t.port.requests = [x]) (hp : t.pending = s.pending) (hx : Unreadable x o) :
    runPort act s = State.decideAttention
      { t with port := { t.port with requests := [], answers := t.port.answers ++ [⟨x.tag, x.code, o, .empty⟩] } } := by
  rw [runPort_one e hq, takeRequest_unreadable hw hl hr hq hx, ← hp]
  rfl

/-! ### Frames -/

/-- The check of a frame is found where the frame's length says (R185, R186). -/
theorem checkAgrees_withCheck (l : List Byte) :
    checkAgrees ((withCheck l).take ((withCheck l).length - 2)) ((withCheck l).drop ((withCheck l).length - 2)) = true := by
  have hlen : (withCheck l).length - 2 = l.length := by simp [withCheck, wordBytes]
  rw [hlen]
  unfold withCheck
  rw [List.take_left, List.drop_left]
  exact decide_eq_true rfl

theorem frameComplete_good {s : State} {bytes : List Byte}
    (h : checkAgrees (bytes.take (bytes.length - 2)) (bytes.drop (bytes.length - 2)) = true) :
    s.frameComplete bytes = s.joinRequests (readFrame bytes) := if_pos h

theorem frameComplete_bad {s : State} {bytes : List Byte}
    (h : checkAgrees (bytes.take (bytes.length - 2)) (bytes.drop (bytes.length - 2)) = false) :
    s.frameComplete bytes = s.setCheck := if_neg (by rw [h]; exact Bool.false_ne_true)

theorem joinRequests_full {s : State} (x : QueuedRequest) (h : 8 ≤ s.port.requests.length) : s.joinRequests x = s.setOverrun := if_pos h

theorem joinRequests_first {s : State} (x : QueuedRequest) (h : s.port.requests = []) : s.joinRequests x = s.setRequests [x] := by
  unfold State.joinRequests
  rw [h]
  rfl

/-- The frame of a well-formed request, shifted in during a window that awaits a length byte, joins the request queue as its request (R185, R187). -/
theorem shiftBytes_requestFrame {s : State} {f : SentFrame} {sent : Bool} {h : Header} {r : Request} (hw : s.port.window = .opened f sent .awaitingLength)
    (hh : h.wf = true) (hr : r.wf = true) : s.shiftBytes (requestFrame h r) = (s.setWindow (.opened f sent .disregarded)).joinRequests
      { tag := h.tag, code := codeOf r, content := .valid h.originator r } := by
  obtain ⟨b, rest, hframe⟩ : ∃ b rest, requestFrame h r = b :: rest := ⟨_, _, rfl⟩
  obtain ⟨h5, h64, hb⟩ := frameFits h hr
  rw [hframe, List.head?_cons, Option.map_some, Option.some.injEq] at hb
  rw [hframe, ← hb] at h5 h64
  rw [← readFrame_requestFrame hh hr, ← frameComplete_good (bytes := requestFrame h r) (checkAgrees_withCheck (frameBody h r)), hframe]
  exact shiftBytes_frame hw h5 h64 hb.symm

/-- Settles O8: the frame joins the request queue as the request that the command puts. -/
theorem frameCompletesAsItsRequest : Obligations.FrameCompletesAsItsRequest := by
  intro c h r s f sent hc hwf hw
  obtain ⟨hh, hr⟩ : h.wf = true ∧ r.wf = true := by
    unfold Instr.wf at hwf
    rw [hc] at hwf
    exact Bool.and_eq_true_iff.1 hwf
  refine ⟨_, rfl, (exec_request hc _).trans (congrArg _ ?_)⟩
  unfold submit runPort
  dsimp only
  rw [shiftBytes_requestFrame hw hh hr]
  rfl

/-! ### The beginning and the end of a window -/

theorem beginWindow_closed {s : State} (h : s.port.window = .closed) : s.beginWindow = s.setWindow (.opened s.fixFrame false .awaitingLength) := by
  unfold State.beginWindow
  rw [h]

theorem beginWindow_opened {s : State} {f : SentFrame} {sent : Bool} {input : WindowInput} (h : s.port.window = .opened f sent input) :
    s.beginWindow = s := by
  unfold State.beginWindow
  rw [h]

/-- The summary flags read off the state (R193). -/
theorem summary_flags (s : State) : s.summary =
    { hold := s.guards.hold.line || s.guards.hold.desk || s.guards.hold.wayside
      quiet := decide (s.polls.quiet = .pending) || decide (s.polls.quiet = .inForce)
      notice := decide (s.port.notices ≠ [])
      overrun := s.port.flags.overrun
      framing := s.port.flags.framing
      check := s.port.flags.check
      restarted := s.port.flags.restarted
      layoutOpen := decide (s.layout.closed = false) } := by
  have hquiet : s.quietOn = (decide (s.polls.quiet = .pending) || decide (s.polls.quiet = .inForce)) := by
    unfold State.quietOn
    cases s.polls.quiet <;> rfl
  have hnotice : (!s.port.notices.isEmpty) = decide (s.port.notices ≠ []) := by cases s.port.notices <;> rfl
  have hlayout : (!s.layout.closed) = decide (s.layout.closed = false) := by cases s.layout.closed <;> rfl
  unfold State.summary
  rw [hquiet, hnotice, hlayout]
  rfl

theorem endWindow_collecting {s : State} {f : SentFrame} {sent : Bool} {n : Nat} {bytes : List Byte}
    (h : s.port.window = .opened f sent (.collecting n bytes)) : s.endWindow = (s.setWindow .closed).setFraming := by
  unfold State.endWindow
  rw [h]

/-- The end of a window in which no request frame is being collected (R185). -/
theorem endWindow_quiet {s : State} (h : ∀ f sent n bytes, s.port.window ≠ .opened f sent (.collecting n bytes)) : s.endWindow = s.setWindow .closed := by
  unfold State.endWindow
  split
  · next hw => exact absurd hw (h _ _ _ _)
  · rfl

/-- A frame that its window's end cuts short (R185). -/
theorem endWindow_incomplete {s : State} {f : SentFrame} {sent : Bool} {b : Byte} {rest : List Byte} (h : s.port.window = .opened f sent .awaitingLength)
    (h5 : 5 ≤ b.toNat) (h64 : b.toNat ≤ 64) (hn : rest.length + 1 < b.toNat) :
    (s.shiftBytes (b :: rest)).endWindow = (s.setWindow .closed).setFraming := by
  have hshift : s.shiftBytes (b :: rest) = s.setWindow (.opened f sent (.collecting b.toNat (b :: rest))) := by
    show (s.shiftIn b).shiftBytes rest = _
    rw [shiftIn_length h h5 h64]
    exact shiftBytes_collecting rest b.toNat _ f sent [b] rfl (by rw [List.length_singleton]; omega)
  rw [hshift]
  exact endWindow_collecting rfl

/-- A state that is not changed by writing the window that it has. -/
theorem setWindow_same {s : State} {w : Window} (h : s.port.window = w) : s.setWindow w = s := by rw [← h]; rfl

/-- Settles O9: the beginning and the end of a window, by the window in which they come; no request waits, so none is taken. -/
theorem windowsBeginAndEnd : Obligations.WindowsBeginAndEnd := by
  refine ⟨fun s => ⟨fun hw => ⟨s.fixFrame, ?_, rfl, summary_flags s⟩, fun f sent input hw => ?_⟩, fun s f sent hq => ?_⟩
  · show Host.Outcome.next (closeEvent s.pending s.beginWindow) = _
    rw [beginWindow_closed hw]
    rfl
  · show Host.Outcome.next (closeEvent s.pending s.beginWindow) = _
    rw [beginWindow_opened hw]
    rfl
  have ended {bytes : List Byte} {t : State} (e : (s.shiftBytes bytes).endWindow = t) (ht : t.port.requests = s.port.requests)
      (hp : t.pending = s.pending) : exec (.windowEnd bytes) s = .next t.decideAttention :=
    congrArg Host.Outcome.next (runPort_idle e (.inl (ht.trans hq)) hp)
  refine ⟨fun hw => ended (endWindow_quiet fun f sent n bytes hc => ?_) rfl rfl, fun n bytes hw => ended (endWindow_collecting hw) rfl rfl,
    fun b rest hw h5 h64 hn => ended (endWindow_incomplete hw h5 h64 hn) rfl rfl,
    fun hw => ended ((endWindow_quiet fun f sent n bytes hc => ?_).trans (setWindow_same hw)) rfl rfl⟩
  · obtain hw | hw := hw <;> cases hw.symm.trans hc
  · cases hw.symm.trans hc

/-! ### Bad frames -/

theorem shiftIn_badLength {s : State} {f : SentFrame} {sent : Bool} {b : Byte} (h : s.port.window = .opened f sent .awaitingLength)
    (hb : (1 ≤ b.toNat ∧ b.toNat ≤ 4) ∨ 65 ≤ b.toNat) : s.shiftIn b = (s.setWindow (.opened f sent .disregarded)).setFraming := by
  unfold State.shiftIn
  rw [h]
  dsimp only
  rw [if_neg (by omega), if_pos (by omega)]

/-- Settles O10: each byte or frame is what R185 makes of it; only a good frame that cannot be read is answered. -/
theorem badFramesAreDiscardedOrAnswered : Obligations.BadFramesAreDiscardedOrAnswered := by
  refine ⟨fun s f sent b hq hw hb => ?_, fun s f sent b rest hw h5 h64 hn => ⟨fun hq hc => ?_, fun hq ha hc => ?_⟩,
    fun s f sent b rest hs hset hw h5 h64 hn hc x o hx hxo => ?_⟩
  · exact congrArg Host.Outcome.next (runPort_idle (shiftIn_badLength hw hb) (.inl hq) rfl)
  all_goals
    have hlen : b.toNat = (b :: rest).length := hn.symm
    have hframe := shiftBytes_frame hw h5 h64 hn
    rw [hlen] at hc
  · exact congrArg Host.Outcome.next (runPort_idle (hframe.trans (frameComplete_bad hc)) (.inl hq) rfl)
  · have hfull : 8 ≤ (s.setWindow (.opened f sent .disregarded)).port.requests.length := Nat.le_of_eq hq.symm
    exact congrArg Host.Outcome.next
      (runPort_idle (hframe.trans ((frameComplete_good hc).trans (joinRequests_full _ hfull))) (.inr (Nat.le_of_eq ha.symm)) rfl)
  · have hjoin : s.shiftBytes (b :: rest) = (s.setWindow (.opened f sent .disregarded)).setRequests [x] :=
      hx ▸ hframe.trans ((frameComplete_good hc).trans (joinRequests_first _ hs.requests))
    have hsettled : ((s.setWindow (.opened f sent .disregarded)).setRequests [x]).Settled := settled_same hset rfl rfl rfl rfl rfl rfl rfl rfl
    have hrun := runPort_unreadable (act := fun s => s.shiftBytes (b :: rest)) hjoin hsettled hs.late hs.room rfl rfl hxo
    refine congrArg Host.Outcome.next (hrun.trans ?_)
    rw [← hs.requests]
    rfl

/-! ### The last byte of an answer -/

theorem answerLeaves_sent {s : State} {f : SentFrame} {input : WindowInput} {a : Answer} (hw : s.port.window = .opened f false input)
    (hf : f.answer = some a) : s.answerLeaves = (s.setWindow (.opened f true input)).setAnswers (s.port.answers.drop 1) := by
  unfold State.answerLeaves
  rw [hw]
  dsimp only
  rw [hf]

/-- Without an answer being sent ANSWER_SENT is no event of the part (assumption 6). -/
theorem answerLeaves_nothing {s : State} {f : SentFrame} {input : WindowInput}
    (h : s.port.window = .opened f true input ∨ (s.port.window = .opened f false input ∧ f.answer = none) ∨ s.port.window = .closed) :
    s.answerLeaves = s := by
  unfold State.answerLeaves
  obtain hw | ⟨hw, hf⟩ | hw := h
  · rw [hw]
  · rw [hw]
    dsimp only
    rw [hf]
  · rw [hw]

/-- Settles O11: the answer sent leaves the queue; where it was full, the request that waited is taken into the room it leaves. -/
theorem answerLeavesWithItsLastByte : Obligations.AnswerLeavesWithItsLastByte := by
  refine ⟨fun s f input hq => ⟨fun a hw hf => ?_, fun hn => ?_⟩, fun s f input a x hset hl hw hf ha hq hx => ?_⟩
  · exact congrArg Host.Outcome.next (runPort_idle (answerLeaves_sent hw hf) (.inl hq) rfl)
  · exact congrArg Host.Outcome.next (runPort_idle (answerLeaves_nothing hn) (.inl hq) rfl)
  · have hroom : (s.port.answers.drop 1).length < 8 := by rw [List.length_drop]; omega
    exact congrArg Host.Outcome.next (runPort_unreadable (answerLeaves_sent hw hf) (settled_same hset rfl rfl rfl rfl rfl rfl rfl rfl) hl hroom hq rfl
      (.inl ⟨hx, rfl⟩))

end Sys2Proof.Proofs
end

section
/-!
SUPPORT. The requests that the Control Port answers itself (R194, R197, R198, R203), `read-status` and `sweep-pads` (R201, R202): O13 and O17 to O19;
and the ATTENTION line (R195): O5.
-/

namespace Sys2Proof.Proofs

open Sys2Proof Sys2Proof.Machine Sys2Proof.Laws

/-! ### ATTENTION -/

/-- The ATTENTION line stands as R195 says, its notices and enables spelled out. -/
theorem attentionRight_iff (s : State) : s.attentionRight ↔ (s.port.attention = true ↔
    s.port.params.attentionLevel ≤ s.port.answers.length ∨ ∃ n ∈ s.port.notices, s.port.enables.getLsbD (n.kind.number - 1) = true) := by
  have hwants : s.wantsAttention = true ↔
      s.port.params.attentionLevel ≤ s.port.answers.length ∨ ∃ n ∈ s.port.notices, s.port.enables.getLsbD (n.kind.number - 1) = true := by
    unfold State.wantsAttention noticeEnabled
    rw [Bool.or_eq_true_iff, decide_eq_true_iff, List.any_eq_true]
    rfl
  unfold State.attentionRight
  rw [Bool.eq_iff_iff, hwants]

/-- Every command but a reset ends with the line decided afresh, and a reset raises RESTARTED, which is enabled. -/
theorem Executed.attentionRight {s t : State} (h : Executed s t) : t.attentionRight := by
  cases h with
  | reset cause => exact (sound_restartedBy s cause).attention
  | blocks _ => exact attentionRight_closeEvent _ _
  | port _ => exact attentionRight_closeEvent _ _
  | window => exact attentionRight_closeEvent _ _

/-- Settles O5: a step executes a command, or stands still. -/
theorem attentionFollowsAnswersAndNotices : Obligations.AttentionFollowsAnswersAndNotices := by
  intro s t hs h
  rw [← attentionRight_iff]
  obtain rfl | ⟨rest, he⟩ := step_executed h
  · exact hs
  · exact he.attentionRight

/-! ### `read-status` -/

/-- In a table in canonical form the listed records with a property are as many as the numbers below a bound whose records have it, where no other
record has it. -/
theorem countRecords {α : Type} [DecidableEq α] {d : α} {t : Table α} (h : Canonical d t) {p : α → Bool} (hd : p d = false) {n : Nat}
    (hn : ∀ k, p (Table.get d t k) = true → k < n) :
    (t.filter fun e => p e.2).length = ((List.range n).filter fun k => p (Table.get d t k)).length := by
  have hkeys : ((t.filter fun e => p e.2).map (·.1)).Nodup :=
    (h.1.imp fun a => Nat.ne_of_lt a : (Table.keys t).Nodup).sublist (List.filter_sublist.map _)
  have hmem : ∀ k, k ∈ (t.filter fun e => p e.2).map (·.1) ↔ k ∈ (List.range n).filter fun k => p (Table.get d t k) := by
    intro k
    rw [List.mem_map, List.mem_filter, List.mem_range]
    constructor
    · rintro ⟨e, he, rfl⟩
      obtain ⟨hlisted, hp⟩ := List.mem_filter.1 he
      rw [← get_of_mem h hlisted] at hp
      exact ⟨hn e.1 hp, hp⟩
    · rintro ⟨-, hp⟩
      have hlisted : (k, Table.get d t k) ∈ t := mem_of_get fun e => by
        rw [e, hd] at hp
        cases hp
      exact ⟨_, List.mem_filter.2 ⟨hlisted, hp⟩, rfl⟩
  rw [← List.length_map (f := (·.1))]
  exact ((List.perm_ext_iff_of_nodup hkeys (List.nodup_range.filter _)).2 hmem).length_eq

/-- Whether a slot's record is a live order (R64). -/
def liveSlot : Option Order → Bool
  | some o => o.live
  | none => false

/-- The live orders that `read-status` counts are those of the slots 0 to 7 (R202). -/
theorem showStatus_liveOrders {s : State} (hc : s.canonical) (hk : s.slotsRight) :
    s.showStatus.liveOrders = ((List.range 8).filter fun k => liveSlot (s.order k)).length := by
  obtain ⟨-, -, -, -, hslots, -⟩ := hc
  refine countRecords (d := none) (p := liveSlot) ((wf_iff _ _).1 hslots) rfl fun k hlive => ?_
  have hp : liveSlot (s.order k) = true := hlive
  cases ho : s.order k with
  | none =>
    rw [ho] at hp
    cases hp
  | some o => exact Nat.lt_succ_of_le (hk k o ho)

/-- Settles O13: the body is `showStatus`, read when no request waits. -/
theorem readStatusAnswersTheState : Obligations.ReadStatusAnswersTheState := by
  intro h s hs hw
  refine ⟨s.showStatus, exec_answer rfl hs hw rfl rfl rfl rfl, rfl, rfl, rfl, rfl, fun hc hk => ?_, rfl, rfl, rfl, rfl, rfl, rfl, rfl, rfl, rfl,
    congrArg List.length hs.requests, rfl, rfl, rfl, rfl, rfl⟩
  exact showStatus_liveOrders hc hk

/-! ### `sweep-pads` -/

theorem filter_lt_range (n k : Nat) : (List.range n).filter (fun i => decide (i < k)) = List.range (min n k) := by
  induction n with
  | zero => rw [Nat.zero_min]; rfl
  | succ n ih =>
    rw [List.range_succ, List.filter_append, ih]
    by_cases h : n < k
    · rw [show min (n + 1) k = n + 1 by omega, List.range_succ, Nat.min_eq_left (Nat.le_of_lt h)]
      simp [h]
    · rw [show min (n + 1) k = min n k by omega]
      simp [h]

/-- The number of pads that a sweep takes (R201). -/
def sweepLength (first count : Nat) (sense : Sense) : Nat := if sense = .up then min count (192 - first) else min count (first + 1)

/-- The pad that a sweep takes at its place `i` (R201). -/
def sweptPad (first : Nat) (sense : Sense) (i : Nat) : Nat := if sense = .up then first + i else first - i

/-- A sweep takes pads by one in its sense, until the count is reached or pad 191 or pad 0 is taken (R201). -/
theorem sweepPads_eq {first : Nat} (hf : first ≤ 191) (count : Nat) (sense : Sense) :
    sweepPads first count sense = (List.range (sweepLength first count sense)).map (sweptPad first sense) := by
  cases sense with
  | up =>
    have hp : ((fun p => decide (p ≤ 191)) ∘ fun i => first + i) = fun i => decide (i < 192 - first) := by
      funext i
      have hiff : first + i ≤ 191 ↔ i < 192 - first := by omega
      exact decide_eq_decide.2 hiff
    show List.filter _ (List.map _ _) = _
    rw [List.filter_map, hp, filter_lt_range]
    rfl
  | down =>
    have hp : (fun i => decide (i ≤ first)) = fun i => decide (i < first + 1) := by
      funext i
      exact decide_eq_decide.2 Nat.lt_succ_iff.symm
    show List.map _ (List.filter _ _) = _
    rw [hp, filter_lt_range]
    rfl

theorem takeSweepPads_swept {s : State} (q : Ask) {first count : Nat} {sense : Sense} (hf : first ≤ 191) (h1 : 1 ≤ count) (h8 : count ≤ 8) :
    s.takeSweepPads q first count sense
      = s.answer q .done (.sweep (((List.range (sweepLength first count sense)).map (sweptPad first sense)).map s.summarise)) := by
  unfold State.takeSweepPads
  rw [if_neg (by omega), sweepPads_eq hf]

/-- Settles O17: the answer lists the summaries of the pads that the sweep takes. -/
theorem sweepPadsSummarises : Obligations.SweepPadsSummarises := by
  intro h first count sense s hs hw
  refine ⟨fun hr => exec_answer rfl hs hw rfl rfl rfl (if_pos hr), fun hf h1 h8 =>
    ⟨_, exec_answer rfl hs hw rfl rfl rfl (takeSweepPads_swept _ hf h1 h8), ?_, fun i x hx => ?_⟩⟩
  · rw [List.length_map, List.length_map, List.length_range]
    rfl
  · rw [List.getElem?_map, List.getElem?_map, Option.map_map, Option.map_eq_some_iff] at hx
    obtain ⟨j, hj, rfl⟩ := hx
    obtain ⟨-, rfl⟩ := List.getElem?_eq_some_iff.1 hj
    rw [List.getElem_range]
    exact ⟨rfl, rfl, rfl, rfl, rfl, rfl⟩

/-! ### Requests that write the Control Port alone -/

/-- The Control Port plays no part in whether a state is settled. -/
theorem settled_port {s : State} (h : s.Settled) (p : ControlPort) : ({ s with port := p } : State).Settled :=
  settled_same h rfl rfl rfl rfl rfl rfl rfl rfl

/-- A request whose owner writes the Control Port and answers. -/
theorem exec_port {c : Instr} {h : Header} {r : Request} {s : State} {p : ControlPort} {o : Outcome} {b : Body} (hc : c.request? = some (h, r))
    (hs : s.Ready) (hw : s.Settled) (h1 : classAllows (classOf r) h.originator = true) (h2 : entryObject r = none) (h3 : s.layoutRefuses r = false)
    (ha : p.answers = s.port.answers) (e : s.owner ⟨h.tag, codeOf r⟩ h.originator r = State.answer { s with port := p } ⟨h.tag, codeOf r⟩ o b) :
    exec c s = .next (State.answered { s with port := p } h r o b).decideAttention :=
  exec_owner hc hs h1 h2 h3 (e.trans (answer_ready (t := { s with port := p }) hs ha h r o b)) (settled_answered (settled_port hw p) _) hs.late rfl

/-! ### `fetch-notice` -/

theorem takeFetchNotice_nil {s : State} (q : Ask) (h : s.port.notices = []) : s.takeFetchNotice q = s.answer q .done (.notice 0 0 0) := by
  unfold State.takeFetchNotice
  rw [h]

theorem takeFetchNotice_cons {s : State} (q : Ask) {n : Notice} {rest : List Notice} (h : s.port.notices = n :: rest) :
    s.takeFetchNotice q = (s.setNotices rest).answer q .done (.notice n.kind.number n.subject rest.length) := by
  unfold State.takeFetchNotice
  rw [h]

theorem notice_before_iff (a b : Notice) :
    a.before b = true ↔ a.kind.number < b.kind.number ∨ (a.kind.number = b.kind.number ∧ a.subject < b.subject) := by
  unfold Notice.before
  rw [Bool.or_eq_true_iff, Bool.and_eq_true_iff, decide_eq_true_iff, decide_eq_true_iff, decide_eq_true_iff]

/-- Settles O18: the notice set is listed in the order of R197, so its head comes before every other. -/
theorem fetchNoticeClearsTheFirst : Obligations.FetchNoticeClearsTheFirst := by
  intro h s hs hw
  refine ⟨fun hn => exec_answer rfl hs hw rfl rfl rfl (takeFetchNotice_nil _ hn), fun n rest hn ho =>
    ⟨exec_port rfl hs hw rfl rfl rfl rfl (takeFetchNotice_cons _ hn), fun m hm => ?_⟩⟩
  rw [hn] at ho
  exact (notice_before_iff n m).1 (List.rel_of_pairwise_cons ho hm)

/-! ### `set-parameter` -/

/-- The parameters' numbers with their ranges (R203). -/
def parameterRanges : List (Nat × Nat × Nat) := (List.range 13).map fun i => (i + 1, paramRange (i + 1))

theorem paramRange_of_mem {n lo hi : Nat} (h : (n, lo, hi) ∈ parameterRanges) : paramRange n = (lo, hi) := by
  obtain ⟨i, -, e⟩ := List.mem_map.1 h
  obtain ⟨rfl, hrange⟩ := Prod.mk.inj e
  exact hrange

/-- A parameter exists under the numbers 1 to 13 (R203). -/
theorem value_none_iff (p : Params) (n : Nat) : p.value n = none ↔ n = 0 ∨ 13 < n := by
  constructor
  · intro h
    by_contra hn
    obtain ⟨h1, h13⟩ : 1 ≤ n ∧ n ≤ 13 := by omega
    interval_cases n <;> cases h
  · intro h
    unfold Params.value
    split
    case h_14 => rfl
    all_goals omega

theorem value_replace_known {p : Params} {n old : Nat} (h : p.value n = some old) (v : Nat) : (p.replace n v).value n = some v := by
  have hknown : (p.replace n v).value n ≠ none := fun e => by
    rw [(value_none_iff p n).2 ((value_none_iff _ n).1 e)] at h
    cases h
  obtain ⟨x, hx⟩ := Option.ne_none_iff_exists'.1 hknown
  rw [hx, value_replace_same hx]

section
variable {s : State} (q : Ask) {n v old : Nat}

theorem takeSetParameter_unknown (h : s.port.params.value n = none) : s.takeSetParameter q n v = s.answer q .refusedRange .empty := by
  unfold State.takeSetParameter
  rw [h]

theorem takeSetParameter_inRange (h : s.port.params.value n = some old) (hv : (paramRange n).1 ≤ v ∧ v ≤ (paramRange n).2) :
    s.takeSetParameter q n v
      = State.answer { s with port := { s.port with params := s.port.params.replace n v } } q .done (.parameter n old v) := by
  unfold State.takeSetParameter
  rw [h]
  exact if_pos hv

theorem takeSetParameter_outOfRange (h : s.port.params.value n = some old) (hv : ¬((paramRange n).1 ≤ v ∧ v ≤ (paramRange n).2)) :
    s.takeSetParameter q n v = s.answer q .refusedRange .empty := by
  unfold State.takeSetParameter
  rw [h]
  exact if_neg hv

end

/-- Settles O19: each request writes one field of the port and answers, or answers REFUSED-RANGE alone. -/
theorem enablesFlagsAndParametersAreWritten : Obligations.EnablesFlagsAndParametersAreWritten := by
  refine ⟨fun h e s hs hw => ⟨fun he => ?_, fun he => ?_⟩, fun h s hs hw => ?_, fun h n v s hs hw hm => ⟨fun lo hi old hlisted hold => ?_, fun hn => ?_⟩⟩
  · exact exec_port rfl hs hw rfl rfl rfl rfl (if_neg (Nat.not_le.2 he))
  · exact exec_answer rfl hs hw rfl rfl rfl (if_pos he)
  · exact exec_port (p := { s.port with flags := StickyFlags.initial }) rfl hs hw rfl rfl rfl rfl rfl
  all_goals have hclass : classAllows (classOf (.setParameter n v)) h.originator = true := decide_eq_true hm
  · have hrange := paramRange_of_mem hlisted
    have hlo : (paramRange n).1 = lo := congrArg Prod.fst hrange
    have hhi : (paramRange n).2 = hi := congrArg Prod.snd hrange
    refine ⟨fun hv => ⟨s.port.params.replace n v, ?_, value_replace_known hold v, fun m hne => value_replace_other _ v hne⟩, fun hv => ?_⟩
    · exact exec_port rfl hs hw hclass rfl rfl rfl (takeSetParameter_inRange _ hold (by rw [hlo, hhi]; exact hv))
    · exact exec_answer rfl hs hw hclass rfl rfl (takeSetParameter_outOfRange _ hold (by rw [hlo, hhi]; omega))
  · exact exec_answer rfl hs hw hclass rfl rfl (takeSetParameter_unknown _ ((value_none_iff _ n).2 hn))

end Sys2Proof.Proofs
end

section
/-!
SUPPORT. What one step does with the queue of waiting commands, one equation for each shape of the queue; and O1.
-/

namespace Sys2Proof.Proofs

open Sys2Proof Sys2Proof.Machine Sys2Proof.Laws

/-- The oldest waiting command leaves the queue before it is executed, so that its own execution finds the rest alone waiting. -/
theorem step_of_pending_cons {s : State} {c : Instr} {rest : List Instr} (h : s.pending = c :: rest) :
    step s = exec c { s with pending := rest } := by
  unfold step
  rw [h]

/-- A part with no command waiting idles: the model's choice (assumption 10). -/
theorem step_of_pending_nil {s : State} (h : s.pending = []) : step s = .next s := by
  unfold step
  rw [h]

/-- Settles O1, by the two shapes of the queue. -/
theorem stepTakesTheFrontCommand : Obligations.StepTakesTheFrontCommand :=
  ⟨fun _ _ _ => step_of_pending_cons, fun _ => step_of_pending_nil⟩

end Sys2Proof.Proofs
end
